-- ==== Sys2Proof/Word.lean ====
section
/-! DEFINITION. The word types of the Vothidom V32 and their plainest arithmetic. -/

namespace Sys2Proof

/-- A byte of memory, of a packet or of a structure. -/
abbrev Byte := BitVec 8

/-- A register word, a scalar register, a counter (R215, R464). -/
abbrev W64 := BitVec 64

/-- A device structure read as one little-endian number (R3): bit 0 is its least significant bit. -/
abbrev Rec := Nat

/-- A finite table by key: strictly rising keys, no entry equal to the table's default. -/
abbrev Tab (α : Type) := List (Nat × α)

end Sys2Proof
end

