-- ==== Sys2Proof/Machine/Tab.lean ====
section
/-! DEFINITION. Finite tables in one canonical form: keys strictly rising, no entry at its default. -/

namespace Sys2Proof

/-- The value at key `k`; a key that is not listed reads as `d`. Keys rise, so the search stops early. -/
def tabGet {α : Type} (d : α) : Tab α → Nat → α
  | [], _ => d
  | (a, v) :: t, k => if k = a then v else if k < a then d else tabGet d t k

/-- Drop every leading entry whose key is at most `k`. -/
def tabDropLe {α : Type} (k : Nat) : Tab α → Tab α
  | [] => []
  | (a, v) :: t => if a ≤ k then tabDropLe k t else (a, v) :: t

/-- Write `v` at key `k`, keeping the canonical form: a value equal to the default is not listed. -/
def tabSet {α : Type} [DecidableEq α] (d : α) : Tab α → Nat → α → Tab α
  | [], k, v => if v = d then [] else [(k, v)]
  | (a, w) :: t, k, v =>
    if k < a then (if v = d then (a, w) :: t else (k, v) :: (a, w) :: t)
    else if k = a then (if v = d then tabDropLe k t else (k, v) :: t)
    else (a, w) :: tabSet d t k v

/-- Change the value at key `k` by `f`. -/
def tabMod {α : Type} [DecidableEq α] (d : α) (t : Tab α) (k : Nat) (f : α → α) : Tab α :=
  tabSet d t k (f (tabGet d t k))

/-- Every listed key is above `k`. -/
def tabAbove {α : Type} (k : Nat) : Tab α → Bool
  | [] => true
  | (a, _) :: t => decide (k < a) && tabAbove k t

/-- The canonical form. -/
def tabWf {α : Type} [DecidableEq α] (d : α) : Tab α → Bool
  | [] => true
  | (a, v) :: t => tabAbove a t && decide (v ≠ d) && tabWf d t

/-- Write consecutive values from key `k`. -/
def tabSets {α : Type} [DecidableEq α] (d : α) (t : Tab α) (k : Nat) : List α → Tab α
  | [] => t
  | v :: vs => tabSets d (tabSet d t k v) (k + 1) vs

/-- Read `n` consecutive values from key `k`. -/
def tabGets {α : Type} (d : α) (t : Tab α) (k n : Nat) : List α :=
  (List.range n).map fun i => tabGet d t (k + i)

end Sys2Proof
end

