-- ==== Sys2Proof/Machine/Bits.lean ====
section
/-! DEFINITION. Bit fields, byte order and sign extension of registers, descriptors and packets (R3). -/

namespace Sys2Proof

/-- Bits [lo + w - 1 : lo] of a structure read as a number. -/
def fld (r : Rec) (lo w : Nat) : Nat := (r >>> lo) % 2 ^ w

/-- Bit `lo` of a structure. -/
def bit (r : Rec) (lo : Nat) : Bool := fld r lo 1 == 1

/-- The structure with bits [lo + w - 1 : lo] replaced by the low `w` bits of `v`. -/
def setFld (r : Rec) (lo w v : Nat) : Rec :=
  (r >>> (lo + w)) <<< (lo + w) + ((v % 2 ^ w) <<< lo) + r % 2 ^ lo

/-- One field of a structure under construction. -/
def put (lo w v : Nat) : Rec := (v % 2 ^ w) <<< lo

/-- A Bool as a bit. -/
def b2n (b : Bool) : Nat := if b then 1 else 0

/-- A `w`-bit number read as two's complement. -/
def sgn (w v : Nat) : Int :=
  let v := v % 2 ^ w
  if 2 * v < 2 ^ w then (v : Int) else (v : Int) - (2 ^ w : Nat)

/-- The low `w` bits of an integer, as two's complement. -/
def unsgn (w : Nat) (i : Int) : Nat := (i % ((2 ^ w : Nat) : Int)).toNat

/-- Little-endian number of a list of bytes (R3). -/
def leNat : List Byte → Nat
  | [] => 0
  | b :: bs => b.toNat + 256 * leNat bs

/-- The `n` low bytes of a number, least significant first (R3). -/
def toLe : Nat → Nat → List Byte
  | 0, _ => []
  | n + 1, v => BitVec.ofNat 8 v :: toLe n (v / 256)

/-- The `n` low bytes of a number, most significant first (network order of R3). -/
def toBe (n v : Nat) : List Byte := (toLe n v).reverse

/-- `v` rounded up to a multiple of `m`. -/
def roundUp (v m : Nat) : Nat := (v + m - 1) / m * m

/-- Quotient rounded up. -/
def ceilDiv (a b : Nat) : Nat := if b = 0 then 0 else (a + b - 1) / b

/-- Number of set bits of `v` among its low `w` bits. -/
def popcount : Nat → Nat → Nat
  | 0, _ => 0
  | w + 1, v => v % 2 + popcount w (v / 2)

/-- The set bits of `v` below `w`, ascending. -/
def bitsOf (w v : Nat) : List Nat := (List.range w).filter fun i => bit v i

/-- Exponent of a natural number: the largest k with 2^k ≤ n (0 for 0). -/
def nlog2 (n : Nat) : Nat := Nat.log2 n

/-- An integer clamped to [lo, hi]. -/
def clampI (v lo hi : Int) : Int := if v < lo then lo else if hi < v then hi else v

/-- A count that stops at `2^w - 1`. -/
def satAdd (w a b : Nat) : Nat := if a + b < 2 ^ w then a + b else 2 ^ w - 1

/-- Splits a list of bytes into pieces of `n`, at most `fuel` of them. -/
def chunksOf (n : Nat) : Nat → List Byte → List (List Byte)
  | 0, _ => []
  | fuel + 1, l => if l.isEmpty then [] else l.take n :: chunksOf n fuel (l.drop n)

/-- True when every byte of the list is zero. -/
def allZero (l : List Byte) : Bool := l.all (· == 0)

end Sys2Proof
end

