-- ==== Sys2Proof/Syntax.lean ====
section
/-! DEFINITION. The commands of the V32: one constructor of Instr per row of spec/opcode_table.json. -/

namespace Sys2Proof

/-- Global thread number (R2, Table 0.2). -/
abbrev ThreadId := Fin 24576
/-- Global core number (R2). -/
abbrev CoreId := Fin 384
/-- Die index (R2). -/
abbrev DieId := Fin 32
/-- Physical or logical port number (R2). -/
abbrev PortId := Fin 16
/-- Stage slot (R2). -/
abbrev SlotId := Fin 16
/-- Memory stack (R2). -/
abbrev StackId := Fin 16
/-- Context identifier (R372). -/
abbrev CtxId := Fin 256
/-- Half A (false) or half B (true). -/
abbrev Half := Bool

/-- Instruction format S (R224, Table 8.8): `res` is bit 31. -/
structure FmtS where
  rd : BitVec 5
  ra : BitVec 5
  rb : BitVec 5
  rc : BitVec 5
  i : Bool
  res : Bool
  imm : BitVec 32
  deriving DecidableEq, Repr

/-- Instruction format L (Table 8.8): `res` is bit 15. -/
structure FmtL where
  rd : BitVec 5
  res : Bool
  imm : BitVec 48
  deriving DecidableEq, Repr

/-- Instruction format B (Table 8.8); `ra` is RD in JAL and JALR, `rb` is RA in JALR. -/
structure FmtB where
  ra : BitVec 5
  rb : BitVec 5
  cond : BitVec 4
  off : BitVec 40
  deriving DecidableEq, Repr

/-- Instruction format M (Table 8.8): `res` is bit 31. -/
structure FmtM where
  rs : BitVec 5
  ar : BitVec 3
  rl : BitVec 5
  tag : BitVec 6
  hint : BitVec 2
  res : Bool
  off : BitVec 32
  deriving DecidableEq, Repr

/-- Instruction format D (Table 8.8): `res` is bits [63:25]. -/
structure FmtD where
  ar : BitVec 3
  ar2 : BitVec 3
  shape : Bool
  msk : BitVec 2
  tag : BitVec 6
  res : BitVec 39
  deriving DecidableEq, Repr

/-- Instruction format V (Table 8.8): `res` is bits [63:55]. -/
structure FmtV where
  d : BitVec 5
  a : BitVec 5
  b : BitVec 5
  c : BitVec 5
  aK : BitVec 2
  bK : BitVec 2
  cK : BitVec 2
  fmt : BitVec 4
  msk : BitVec 2
  shape : Bool
  nfx : Bool
  x : BitVec 5
  tag : BitVec 6
  res : BitVec 9
  deriving DecidableEq, Repr

/-- How a datagram reached the device: its own port, with the tag of its frame (R426), or a CMD_RELAY with its 32-byte record and the
tag of the relay packet (R432). -/
inductive Src where
  | own (ip : BitVec 128) (port : BitVec 16) (vlan : Option (BitVec 16))
  | relay (record : BitVec 256) (relayer : BitVec 24) (tag : BitVec 32)
  deriving DecidableEq, Repr

/-- A Luajo command datagram (R440, Table 17.1) without its OPCODE, which is the command's row.
`size` is the datagram's length in bytes as received; `rsv` gathers the reserved bits [31:26],
[79:72] and [191:160], and `statusF` is the STATUS field, 0 in commands. -/
structure Pkt where
  src : Src
  size : Nat
  magic : BitVec 16
  version : BitVec 8
  reply : Bool
  ctxF : Bool
  rsv1 : BitVec 6
  session : BitVec 32
  context : BitVec 8
  rsv2 : BitVec 8
  seq : BitVec 32
  length : BitVec 16
  statusF : BitVec 16
  rsv3 : BitVec 32
  params : List Byte
  mac : BitVec 128
  deriving DecidableEq, Repr

/-- A packet of the stage links: the route header of Table 4.3 and its content (R103). -/
structure LPkt where
  dst : BitVec 24
  src : BitVec 24
  pkind : BitVec 4
  hops : BitVec 8
  epoch : BitVec 32
  tag : BitVec 32
  flow : BitVec 16
  kspec : BitVec 96
  content : List Byte
  deriving DecidableEq, Repr

/-- The HELLO payload (R112, Table 4.7). -/
structure Hello where
  serial : BitVec 64
  port : BitVec 4
  verMax : BitVec 4
  verMin : BitVec 4
  accepted : Bool
  epoch : BitVec 32
  planHash : BitVec 64
  addr : BitVec 24
  deriving DecidableEq, Repr

/-- A control word of a die-network hop (Table 11.5): the receiver's two answers, and the sender's ABORT. -/
inductive HopWord where
  | done | resend | abort
  deriving DecidableEq, Repr

/-- Contents of a LINK_CTL flit (R109, R124): retrain or width request with the sender's serial and
port, its acknowledgement, a dark-window notice with its length in ns, and its acknowledgement. -/
inductive LinkCtl where
  | request (width : Fin 3) (serial : BitVec 64) (port : BitVec 4)
  | ack (width : Fin 3)
  | darkNotice (ns : Nat)
  | darkAck
  deriving DecidableEq, Repr

/-- Errors seen on one read of a line from its stack: (symbol, value XORed) pairs of the codeword as
first read, and as read again (R285, R287). -/
structure LineErr where
  first : List (Fin 72 × Byte)
  again : List (Fin 72 × Byte)
  deriving DecidableEq, Repr

/-- A remote memory request with the errors that the stack shows on the lines it reads, by line (R287, R300). -/
structure RemoteReq where
  pkt : LPkt
  errs : List (Nat × LineErr)
  deriving DecidableEq, Repr

/-- How a background operation ended (R236, R245, R282): done, with the errors that the codewords of its lines showed (R287), with
a scratchpad word that could not be corrected (offset), or with a completed path loss. -/
inductive BgEnd where
  | done (errs : List (Nat × LineErr))
  | spUncorrectable (off : Nat)
  | pathLost
  deriving DecidableEq, Repr

/-- One line access at a memory die (R294): line number (address / 64), a write's offset in the line
and bytes (empty for a read), hint (R296), context (none for device traffic that serves none),
partition (R301), the errors the stack shows, and those of a dirty line that leaves the cache for it (R291). -/
structure LineAcc where
  line : Nat
  write : Bool
  off : Nat
  data : List Byte
  hint : Fin 4
  ctx : Option CtxId
  device : Bool
  partition : Fin 16
  err : LineErr
  victim : LineErr := ⟨[], []⟩
  deriving DecidableEq, Repr

/-- What a die reports when its tests end (R211, R329, R336): stepping, feature level, cores passing
self-test, failed wires of bundles (bundle, wires), out of orderly or abrupt reset is in State. -/
structure DieReport where
  stepMajor : Fin 16
  stepMinor : Fin 16
  feature : BitVec 8
  passing : BitVec 26
  failedWires : List (Nat × List (Fin 70))
  pufOk : Bool
  ok : Bool
  deriving DecidableEq, Repr

/-- One memory stack as read at start (R281): identity fields of MD_STKt_ID and trained channels. -/
structure StackReport where
  ident : BitVec 64
  chUp : BitVec 16
  deriving DecidableEq, Repr

/-- Completion outcome of one tensor's restore (R413): the source and whether it could supply. -/
structure TensorRestore where
  fromLocal : Bool
  fromParity : Bool
  fromJournal : Bool
  poisoned : Bool
  bytes : List Byte
  deriving DecidableEq, Repr

/-- Commands of the V32, one per row of spec/opcode_table.json, in the table's order. A thread
instruction names its thread and the fields of its 64-bit word; a Luajo command is its datagram; an
event names the object it happens to and what the block observes there. -/
inductive Instr where
  -- scalar class (R228)
  | add (t : ThreadId) (f : FmtS)
  | sub (t : ThreadId) (f : FmtS)
  | mul (t : ThreadId) (f : FmtS)
  | mulhu (t : ThreadId) (f : FmtS)
  | mulh (t : ThreadId) (f : FmtS)
  | divu (t : ThreadId) (f : FmtS)
  | div (t : ThreadId) (f : FmtS)
  | remu (t : ThreadId) (f : FmtS)
  | rem (t : ThreadId) (f : FmtS)
  | and (t : ThreadId) (f : FmtS)
  | or (t : ThreadId) (f : FmtS)
  | xor (t : ThreadId) (f : FmtS)
  | shl (t : ThreadId) (f : FmtS)
  | shr (t : ThreadId) (f : FmtS)
  | sar (t : ThreadId) (f : FmtS)
  | min (t : ThreadId) (f : FmtS)
  | max (t : ThreadId) (f : FmtS)
  | minu (t : ThreadId) (f : FmtS)
  | maxu (t : ThreadId) (f : FmtS)
  | slt (t : ThreadId) (f : FmtS)
  | sltu (t : ThreadId) (f : FmtS)
  | seq (t : ThreadId) (f : FmtS)
  | li (t : ThreadId) (f : FmtL)
  | fadd (t : ThreadId) (f : FmtS)
  | fsub (t : ThreadId) (f : FmtS)
  | fmul (t : ThreadId) (f : FmtS)
  | fdiv (t : ThreadId) (f : FmtS)
  | ffma (t : ThreadId) (f : FmtS)
  | fmin (t : ThreadId) (f : FmtS)
  | fmax (t : ThreadId) (f : FmtS)
  | flt (t : ThreadId) (f : FmtS)
  | fcvtif (t : ThreadId) (f : FmtS)
  | fcvtfi (t : ThreadId) (f : FmtS)
  | setvl (t : ThreadId) (f : FmtS)
  | setvm (t : ThreadId) (f : FmtS)
  | getvl (t : ThreadId) (f : FmtS)
  | getvm (t : ThreadId) (f : FmtS)
  | getst (t : ThreadId) (f : FmtS)
  | clrst (t : ThreadId) (f : FmtS)
  | rdinfo (t : ThreadId) (f : FmtS)
  | rdic (t : ThreadId) (f : FmtS)
  -- address class (R229)
  | aadd (t : ThreadId) (f : FmtS)
  | amov (t : ThreadId) (f : FmtS)
  | ard (t : ThreadId) (f : FmtS)
  | ali (t : ThreadId) (f : FmtL)
  | awin (t : ThreadId) (f : FmtS)
  -- branch class (R230)
  | br (t : ThreadId) (f : FmtB)
  | jal (t : ThreadId) (f : FmtB)
  | jalr (t : ThreadId) (f : FmtB)
  -- memory class (R231)
  | lds (t : ThreadId) (f : FmtM)
  | sts (t : ThreadId) (f : FmtM)
  | mld (t : ThreadId) (f : FmtM)
  | mst (t : ThreadId) (f : FmtM)
  | pref (t : ThreadId) (f : FmtM)
  | stashAlloc (t : ThreadId) (f : FmtM)
  | stashFind (t : ThreadId) (f : FmtM)
  -- tile class (R232)
  | tmma (t : ThreadId) (f : FmtD)
  | tgemv (t : ThreadId) (f : FmtD)
  | accSwap (t : ThreadId) (f : FmtD)
  -- vector class (R233)
  | vAdd (t : ThreadId) (f : FmtV)
  | vSub (t : ThreadId) (f : FmtV)
  | vMul (t : ThreadId) (f : FmtV)
  | vFma (t : ThreadId) (f : FmtV)
  | vFms (t : ThreadId) (f : FmtV)
  | vNeg (t : ThreadId) (f : FmtV)
  | vAbs (t : ThreadId) (f : FmtV)
  | vMin (t : ThreadId) (f : FmtV)
  | vMax (t : ThreadId) (f : FmtV)
  | vAdds (t : ThreadId) (f : FmtV)
  | vSubs (t : ThreadId) (f : FmtV)
  | vAnd (t : ThreadId) (f : FmtV)
  | vOr (t : ThreadId) (f : FmtV)
  | vXor (t : ThreadId) (f : FmtV)
  | vShl (t : ThreadId) (f : FmtV)
  | vShr (t : ThreadId) (f : FmtV)
  | vSar (t : ThreadId) (f : FmtV)
  | vCmpeq (t : ThreadId) (f : FmtV)
  | vCmplt (t : ThreadId) (f : FmtV)
  | vCmple (t : ThreadId) (f : FmtV)
  | vCmpun (t : ThreadId) (f : FmtV)
  | vSel (t : ThreadId) (f : FmtV)
  | vDiv (t : ThreadId) (f : FmtV)
  | vRcp (t : ThreadId) (f : FmtV)
  | vSqrt (t : ThreadId) (f : FmtV)
  | vRsqrt (t : ThreadId) (f : FmtV)
  | vExp (t : ThreadId) (f : FmtV)
  | vExp2 (t : ThreadId) (f : FmtV)
  | vLog (t : ThreadId) (f : FmtV)
  | vLog2 (t : ThreadId) (f : FmtV)
  | vTanh (t : ThreadId) (f : FmtV)
  | vSigmoid (t : ThreadId) (f : FmtV)
  | vSilu (t : ThreadId) (f : FmtV)
  | vGelu (t : ThreadId) (f : FmtV)
  | vGeluT (t : ThreadId) (f : FmtV)
  | vSoftplus (t : ThreadId) (f : FmtV)
  | vSin (t : ThreadId) (f : FmtV)
  | vCos (t : ThreadId) (f : FmtV)
  | vDrelu (t : ThreadId) (f : FmtV)
  | vDsigmoid (t : ThreadId) (f : FmtV)
  | vDtanh (t : ThreadId) (f : FmtV)
  | vDexp (t : ThreadId) (f : FmtV)
  | vDsoftmax (t : ThreadId) (f : FmtV)
  | vDsilu (t : ThreadId) (f : FmtV)
  | vDgelu (t : ThreadId) (f : FmtV)
  | vDgeluT (t : ThreadId) (f : FmtV)
  | vDsoftplus (t : ThreadId) (f : FmtV)
  | vSum (t : ThreadId) (f : FmtV)
  | vDot (t : ThreadId) (f : FmtV)
  | vMaxi (t : ThreadId) (f : FmtV)
  | vMini (t : ThreadId) (f : FmtV)
  | vMov (t : ThreadId) (f : FmtV)
  -- random and convert classes (R233)
  | rndu (t : ThreadId) (f : FmtV)
  | rndb (t : ThreadId) (f : FmtV)
  | drop (t : ThreadId) (f : FmtV)
  | rndx (t : ThreadId) (f : FmtS)
  | cvt (t : ThreadId) (f : FmtD)
  -- channel, sump, sync, commit classes (R235)
  | chOpen (t : ThreadId) (f : FmtS)
  | chOpenReader (t : ThreadId) (f : FmtS)
  | chSend (t : ThreadId) (f : FmtS)
  | chRecv (t : ThreadId) (f : FmtS)
  | chClose (t : ThreadId) (f : FmtS)
  | chPoll (t : ThreadId) (f : FmtS)
  | sumpAdd (t : ThreadId) (f : FmtS)
  | signal (t : ThreadId) (f : FmtS)
  | wait (t : ThreadId) (f : FmtS)
  | arm (t : ThreadId) (f : FmtS)
  | read (t : ThreadId) (f : FmtS)
  | cas (t : ThreadId) (f : FmtS)
  | commit (t : ThreadId) (f : FmtS)
  | fence (t : ThreadId) (f : FmtS)
  | waittag (t : ThreadId) (f : FmtS)
  | done (t : ThreadId) (f : FmtS)
  | yield (t : ThreadId) (f : FmtS)
  -- core events
  | issueQuantumExpiry (c : CoreId)
  | icacheMissFill (t : ThreadId)
  | tagComplete (t : ThreadId) (op : Nat) (e : BgEnd)
  | tileChunkEnd (c : CoreId)
  | swapTakeEffect (c : CoreId)
  | drainComplete (c : CoreId)
  | vectorMicroopEnd (c : CoreId)
  | coreRetire (c : CoreId)
  -- Luajo (chapter 17)
  | sessionOpen (p : Pkt)
  | sessionClose (p : Pkt)
  | sessionIdleTimeout (place : Fin 64)
  | getInfo (p : Pkt)
  | regRead (p : Pkt)
  | regWrite (p : Pkt)
  | fabResetReqOrderly (p : Pkt)
  | fabResetReqAbrupt (p : Pkt)
  | handover (p : Pkt)
  | setTopology (p : Pkt)
  | setRoutes (p : Pkt)
  | portRetrain (p : Pkt)
  | portDark (p : Pkt)
  | portWake (p : Pkt)
  | portDisable (p : Pkt)
  | portReset (p : Pkt)
  | portRecheck (p : Pkt)
  | portRebalance (p : Pkt)
  | portLimits (p : Pkt)
  | portBootServe (p : Pkt)
  | contextCreate (p : Pkt)
  | contextDestroy (p : Pkt)
  | contextSetClass (p : Pkt)
  | loadProgram (p : Pkt)
  | bindSlot (p : Pkt)
  | setDeadline (p : Pkt)
  | unbindSlot (p : Pkt)
  | memMapMap (p : Pkt)
  | memMapUnmap (p : Pkt)
  | memMapSetPartition (p : Pkt)
  | bulkCreateQp (p : Pkt)
  | bulkDestroyQp (p : Pkt)
  | bulkRegisterKey (p : Pkt)
  | bulkDeregisterKey (p : Pkt)
  | bulkBindSlot (p : Pkt)
  | bulkUnbindSlot (p : Pkt)
  | stepBegin (p : Pkt)
  | stepCommit (p : Pkt)
  | stepAbort (p : Pkt)
  | stepAbortForce (p : Pkt)
  | run (p : Pkt)
  | preempt (p : Pkt)
  | preemptSwap (p : Pkt)
  | securePolicy (p : Pkt)
  | secureNow (p : Pkt)
  | restore (p : Pkt)
  | reshard (p : Pkt)
  | serveJoin (p : Pkt)
  | serveLeave (p : Pkt)
  | readCounters (p : Pkt)
  | readEvents (p : Pkt)
  | readDeadlineRecords (p : Pkt)
  | readTally (p : Pkt)
  | powerPolicy (p : Pkt)
  | fwLoad (p : Pkt)
  | fwLoadVerifyDone
  | attest (p : Pkt)
  | debugPeek (p : Pkt)
  -- stage links (chapter 4)
  | flitReceive (port : PortId) (wire : List Byte)
  | replayTimeout (port : PortId)
  | nakRepeatTimeout (port : PortId)
  | idleFlitTimer (port : PortId)
  | helloTimer (port : PortId)
  | helloReceive (port : PortId) (h : Hello)
  | helloAcceptTimeout (port : PortId)
  | helloWaitTimeout (port : PortId)
  | linkCtlReceive (port : PortId) (m : LinkCtl)
  | linkCtlRepeat (port : PortId)
  | laneLockLoss (port : PortId) (lane : Fin 18)
  | trainingAttemptEnd (port : PortId) (passing : BitVec 18) (peerWidth : Option (Fin 3)) (locked : Bool) (rttNs : Nat)
  | v8FallbackTimeout (port : PortId)
  | retrainLimitExpiry (port : PortId)
  | downRetryTimer (port : PortId)
  | signalDetect (port : PortId)
  | noSignalTimeout (port : PortId)
  | darkNoticeRepeat (port : PortId)
  | darkNoticeReceive (port : PortId) (ns : Nat)
  | darkDrainComplete (port : PortId)
  | darkDrainLimit (port : PortId)
  | darkWindowEnd (port : PortId)
  | refclkLnkLoss (k : Fin 4)
  | packetRoute (ingress : Option PortId) (half : Half) (sub : Bool) (p : LPkt)
  | lossReceive (p : LPkt)
  | responseLimitExpiry (tag : BitVec 32)
  | mbResendTimeout (slot : SlotId) (dir : Fin 2)
  -- slots and queues (chapter 3)
  | mbHeadReceive (p : LPkt)
  | pageWriteReceive (p : LPkt)
  | landingPageCommit (slot : SlotId) (q : Fin 3) (page : Nat)
  | creditRepeatTimer (slot : SlotId) (q : Fin 3)
  | creditReceive (p : LPkt)
  | sequencerDispatch (half : Half)
  | egressPageCommit (slot : SlotId) (dir : Fin 2) (page : Nat)
  | egressStream (slot : SlotId) (dir : Fin 2)
  | stashWaitGranted (slot : SlotId)
  | spillFetchComplete (slot : SlotId) (mb : BitVec 24)
  | kvRelayForward (slot : SlotId)
  | deadlineLate (slot : SlotId) (backward : Bool)
  | groupReceive (slot : SlotId) (idx : Nat)
  | commitAnswer (t : ThreadId)
  | effectResponseReceive (p : LPkt)
  -- channels, sync, sumps (chapter 9)
  | chMsgReceive (p : LPkt)
  | chOpenRequestReceive (p : LPkt)
  | chCloseRequestReceive (p : LPkt)
  | chAckReceive (p : LPkt)
  | chOpenRetryTimer (c : CoreId) (n : Fin 32)
  | chStallExpiry (t : ThreadId)
  | syncOpApply (p : LPkt)
  | syncRespReceive (p : LPkt)
  | syncRetryTimer (t : ThreadId)
  | sumpAddPacket (p : LPkt)
  | sumpDeliveryComplete (half : Half) (engine : Fin 16) (sess : Fin 16)
  -- memory dies (chapter 10)
  | memLineAccess (a : LineAcc)
  | rowRepairCopyDone (stack : StackId) (channel : Fin 16) (rank : Fin 3) (bank : Fin 32) (row : BitVec 15)
  | memRemoteRequest (r : RemoteReq)
  | memRespReceive (p : LPkt)
  | memRetryTimer (tag : BitVec 32)
  | scrubStep (stack : StackId) (err : LineErr)
  | mdCeIntervalEnd (stack : StackId)
  | hotspotWindowEnd (stack : StackId) (requests : List (Fin 16 × Nat)) (waiting : BitVec 16) (partition : Fin 16)
  | stackTempRead (stack : StackId) (readings : List (BitVec 8))
  | orderlyResetWaitExpiry (d : DieId)
  | stackInitComplete (d : DieId)
  -- fabric (chapter 11)
  | diePacketReceive (d : DieId) (group : Nat) (lanes : List (List W64)) (bundle : Nat) (trailer : W64) (corrected : Nat) (uncorrectable : Bool)
  | hopControlWord (d : DieId) (group : Nat) (w : HopWord)
  | groupRetestDone (d : DieId) (group : Nat) (failed : List (Nat × List (Fin 70)))
  | fabCeIntervalEnd (d : DieId)
  | dieAbruptReset (d : DieId)
  | watchdogExpiry (d : DieId)
  | clockLoss (d : DieId) (island : Fin 6)
  | dieRejoin (d : DieId) (r : DieReport)
  | refclkEthStop
  | refclkEthReturn
  | refclkHoldoverEnd
  -- steps and contexts (chapters 13, 14)
  | sealVote (ctx : CtxId)
  | sealLimitExpiry (ctx : CtxId)
  | verdictApply (ctx : CtxId)
  | swapHoldExpiry (ctx : CtxId)
  | freezeWaitExpiry (ctx : CtxId)
  | swapSaveComplete (ctx : CtxId)
  | swapInComplete (ctx : CtxId)
  -- securing, reshard (chapters 15, 12)
  | captureLocalCopyDone
  | parityPartReceive (p : LPkt)
  | journalPageReceive (fab : BitVec 24) (tensor : Nat) (page : Nat) (step : Nat) (data : List Byte)
  | captureReport
  | captureAbandon
  | restoreComplete (ctx : CtxId) (results : List TensorRestore)
  | reshardChunkAck (ctx : CtxId) (status : BitVec 8) (pathLost : Bool)
  -- power, pins, start (chapter 18)
  | powerLoopTick
  | canaryUpdate (d : DieId) (n : Fin 8) (rate : BitVec 16)
  | capTick (power : Nat)
  | capExceeded
  | thermalReading (readings : List (DieId × Fin 16 × BitVec 8))
  | resetNAssert (ns : Nat)
  | pwrGoodDeassert
  | railOutOfRange (vaux : Bool)
  | domainFault (d : Fin 96)
  | packageStart (ethRate : Bool) (dies : List (DieId × DieReport))
  | heartbeatTimer
  | takeover
  | standbySyncDone
  -- host port (chapter 16)
  | ethLinkChange (up : Bool)
  | arpRequest (target : BitVec 32) (vlan : Option (BitVec 16))
  | neighbourSolicitation (target : BitVec 128) (vlan : Option (BitVec 16))
  | icmpEchoRequest (v6 : Bool) (payload : List Byte) (vlan : Option (BitVec 16))
  | frameDrop (fragment : Bool)
  | relayRequest (ip : BitVec 128) (port : BitVec 16) (header : W64) (inner : List Byte)
  | cmdRelayReceive (p : LPkt)
  | cmdReplyReceive (p : LPkt)
  | roceSendReceive (qpn : Nat) (psn : BitVec 24) (data : List Byte)
  | roceWriteReceive (qpn : Nat) (psn : BitVec 24) (rkey : BitVec 32) (addr : BitVec 48) (data : List Byte) (ce : Bool)
  | roceReadReceive (qpn : Nat) (psn : BitVec 24) (rkey : BitVec 32) (addr : BitVec 48) (len : Nat)
  | roceAckReceive (qpn : Nat) (psn : BitVec 24) (kind : Fin 4)
  | roceAckTimeout (qpn : Nat)
  | roceRnrTimer (qpn : Nat)
  | pfcFrameReceive (prio : Fin 8) (quanta : BitVec 16)
  | cnpReceive (qpn : Nat)
  | cnpRateIncrease (qpn : Nat)
  | bootPortUpTimeout
  | announceTimer
  | bootOffer (serial : W64) (xid : BitVec 32) (server : BitVec 128) (port : BitVec 16) (imageLen : BitVec 32) (ip6 : Option (BitVec 128)) (ip4 : Option (BitVec 32 × BitVec 6)) (bundleLen : BitVec 32)
  | bootData (serial : W64) (xid : BitVec 32) (block : BitVec 32) (data : List Byte)
  | bootBlockTimeout (block : BitVec 32)
  | bootTransferTimeout
  | bootVerifyDone (stackTab : List (StackId × StackReport))
  | perBootKeyReady
  -- test access port (chapter 20)
  | jtagIdcode
  | jtagSamplePreload (cells : List Bool)
  | jtagExtest
  | jtagExtestPulse
  | jtagExtestTrain
  | jtagClamp
  | jtagHighz
  | jtagBypass
  | trstNAssert
  -- rows added at the end of the table
  | selfRefreshExit (d : DieId)
  | ringTransfer (c : CoreId) (e : Fin 32)
  | stashSpillDone (slot : SlotId) (mb : BitVec 24)
  | preemptionDone (ctx : CtxId)
  | refclkLnkReturn (k : Fin 4)
  | pwrGoodAssert
  | vauxInRange
  | vauxRemoved
  | railBackInRange (vaux : Bool)
  | pfcPauseEnd (prio : Fin 8)
  deriving DecidableEq, Repr

end Sys2Proof
end

