-- ==== Sys2Proof/Decode.lean ====
section
/-! DEFINITION. The 64-bit instruction words of the threads (R224 to R235), their decoder and their encoder;
and the decoder of the opcode table's words, which has no row to read: the table gives no row any bits. -/

namespace Sys2Proof

/-- Word of format S (Table 8.8). -/
def wordS (cls opc : Nat) (f : FmtS) : W64 :=
  f.imm ++ BitVec.ofBool f.res ++ BitVec.ofBool f.i ++ f.rc ++ f.rb ++ f.ra ++ f.rd ++ BitVec.ofNat 6 opc ++ BitVec.ofNat 4 cls
/-- Word of format L. -/
def wordL (cls opc : Nat) (f : FmtL) : W64 :=
  f.imm ++ BitVec.ofBool f.res ++ f.rd ++ BitVec.ofNat 6 opc ++ BitVec.ofNat 4 cls
/-- Word of format B. -/
def wordB (cls opc : Nat) (f : FmtB) : W64 :=
  f.off ++ f.cond ++ f.rb ++ f.ra ++ BitVec.ofNat 6 opc ++ BitVec.ofNat 4 cls
/-- Word of format M. -/
def wordM (cls opc : Nat) (f : FmtM) : W64 :=
  f.off ++ BitVec.ofBool f.res ++ f.hint ++ f.tag ++ f.rl ++ f.ar ++ f.rs ++ BitVec.ofNat 6 opc ++ BitVec.ofNat 4 cls
/-- Word of format D. -/
def wordD (cls opc : Nat) (f : FmtD) : W64 :=
  f.res ++ f.tag ++ f.msk ++ BitVec.ofBool f.shape ++ f.ar2 ++ f.ar ++ BitVec.ofNat 6 opc ++ BitVec.ofNat 4 cls
/-- Word of format V. -/
def wordV (cls opc : Nat) (f : FmtV) : W64 :=
  f.res ++ f.tag ++ f.x ++ BitVec.ofBool f.nfx ++ BitVec.ofBool f.shape ++ f.msk ++ f.fmt ++ f.cK ++ f.bK ++ f.aK ++ f.c ++ f.b ++ f.a ++ f.d
    ++ BitVec.ofNat 6 opc ++ BitVec.ofNat 4 cls

/-- Fields of a word read in format S. -/
def fieldsS (w : W64) : FmtS :=
  ⟨w.extractLsb' 10 5, w.extractLsb' 15 5, w.extractLsb' 20 5, w.extractLsb' 25 5, w.getLsbD 30, w.getLsbD 31, w.extractLsb' 32 32⟩
/-- Format L. -/
def fieldsL (w : W64) : FmtL := ⟨w.extractLsb' 10 5, w.getLsbD 15, w.extractLsb' 16 48⟩
/-- Format B. -/
def fieldsB (w : W64) : FmtB := ⟨w.extractLsb' 10 5, w.extractLsb' 15 5, w.extractLsb' 20 4, w.extractLsb' 24 40⟩
/-- Format M. -/
def fieldsM (w : W64) : FmtM :=
  ⟨w.extractLsb' 10 5, w.extractLsb' 15 3, w.extractLsb' 18 5, w.extractLsb' 23 6, w.extractLsb' 29 2, w.getLsbD 31, w.extractLsb' 32 32⟩
/-- Format D. -/
def fieldsD (w : W64) : FmtD :=
  ⟨w.extractLsb' 10 3, w.extractLsb' 13 3, w.getLsbD 16, w.extractLsb' 17 2, w.extractLsb' 19 6, w.extractLsb' 25 39⟩
/-- Format V. -/
def fieldsV (w : W64) : FmtV :=
  ⟨w.extractLsb' 10 5, w.extractLsb' 15 5, w.extractLsb' 20 5, w.extractLsb' 25 5, w.extractLsb' 30 2, w.extractLsb' 32 2, w.extractLsb' 34 2,
   w.extractLsb' 36 4, w.extractLsb' 40 2, w.getLsbD 42, w.getLsbD 43, w.extractLsb' 44 5, w.extractLsb' 49 6, w.extractLsb' 55 9⟩

/-- The instruction of thread t that a word spells (R227 to R235); none for a reserved class or operation.
CH_OPEN stands for both forms of operation 0 of class 6: the READER flag is in a register (R249, R252). -/
def decodeInstr (t : ThreadId) (w : W64) : Option Instr :=
  match (w.extractLsb' 0 4).toNat, (w.extractLsb' 4 6).toNat with
  | 0, 0 => some (.add t (fieldsS w))
  | 0, 1 => some (.sub t (fieldsS w))
  | 0, 2 => some (.mul t (fieldsS w))
  | 0, 3 => some (.mulhu t (fieldsS w))
  | 0, 4 => some (.mulh t (fieldsS w))
  | 0, 5 => some (.divu t (fieldsS w))
  | 0, 6 => some (.div t (fieldsS w))
  | 0, 7 => some (.remu t (fieldsS w))
  | 0, 8 => some (.rem t (fieldsS w))
  | 0, 9 => some (.and t (fieldsS w))
  | 0, 10 => some (.or t (fieldsS w))
  | 0, 11 => some (.xor t (fieldsS w))
  | 0, 12 => some (.shl t (fieldsS w))
  | 0, 13 => some (.shr t (fieldsS w))
  | 0, 14 => some (.sar t (fieldsS w))
  | 0, 15 => some (.min t (fieldsS w))
  | 0, 16 => some (.max t (fieldsS w))
  | 0, 17 => some (.minu t (fieldsS w))
  | 0, 18 => some (.maxu t (fieldsS w))
  | 0, 19 => some (.slt t (fieldsS w))
  | 0, 20 => some (.sltu t (fieldsS w))
  | 0, 21 => some (.seq t (fieldsS w))
  | 0, 22 => some (.li t (fieldsL w))
  | 0, 23 => some (.fadd t (fieldsS w))
  | 0, 24 => some (.fsub t (fieldsS w))
  | 0, 25 => some (.fmul t (fieldsS w))
  | 0, 26 => some (.fdiv t (fieldsS w))
  | 0, 27 => some (.ffma t (fieldsS w))
  | 0, 28 => some (.fmin t (fieldsS w))
  | 0, 29 => some (.fmax t (fieldsS w))
  | 0, 30 => some (.flt t (fieldsS w))
  | 0, 31 => some (.fcvtif t (fieldsS w))
  | 0, 32 => some (.fcvtfi t (fieldsS w))
  | 0, 33 => some (.setvl t (fieldsS w))
  | 0, 34 => some (.setvm t (fieldsS w))
  | 0, 35 => some (.getvl t (fieldsS w))
  | 0, 36 => some (.getvm t (fieldsS w))
  | 0, 37 => some (.getst t (fieldsS w))
  | 0, 38 => some (.clrst t (fieldsS w))
  | 0, 39 => some (.rdinfo t (fieldsS w))
  | 0, 40 => some (.rdic t (fieldsS w))
  | 1, 0 => some (.aadd t (fieldsS w))
  | 1, 1 => some (.amov t (fieldsS w))
  | 1, 2 => some (.ard t (fieldsS w))
  | 1, 3 => some (.ali t (fieldsL w))
  | 1, 4 => some (.awin t (fieldsS w))
  | 2, 0 => some (.br t (fieldsB w))
  | 2, 1 => some (.jal t (fieldsB w))
  | 2, 2 => some (.jalr t (fieldsB w))
  | 3, 0 => some (.lds t (fieldsM w))
  | 3, 1 => some (.sts t (fieldsM w))
  | 3, 2 => some (.mld t (fieldsM w))
  | 3, 3 => some (.mst t (fieldsM w))
  | 3, 4 => some (.pref t (fieldsM w))
  | 3, 5 => some (.stashAlloc t (fieldsM w))
  | 3, 6 => some (.stashFind t (fieldsM w))
  | 4, 0 => some (.tmma t (fieldsD w))
  | 4, 1 => some (.tgemv t (fieldsD w))
  | 4, 2 => some (.accSwap t (fieldsD w))
  | 5, 0 => some (.vAdd t (fieldsV w))
  | 5, 1 => some (.vSub t (fieldsV w))
  | 5, 2 => some (.vMul t (fieldsV w))
  | 5, 3 => some (.vFma t (fieldsV w))
  | 5, 4 => some (.vFms t (fieldsV w))
  | 5, 5 => some (.vNeg t (fieldsV w))
  | 5, 6 => some (.vAbs t (fieldsV w))
  | 5, 7 => some (.vMin t (fieldsV w))
  | 5, 8 => some (.vMax t (fieldsV w))
  | 5, 9 => some (.vAdds t (fieldsV w))
  | 5, 10 => some (.vSubs t (fieldsV w))
  | 5, 11 => some (.vAnd t (fieldsV w))
  | 5, 12 => some (.vOr t (fieldsV w))
  | 5, 13 => some (.vXor t (fieldsV w))
  | 5, 14 => some (.vShl t (fieldsV w))
  | 5, 15 => some (.vShr t (fieldsV w))
  | 5, 16 => some (.vSar t (fieldsV w))
  | 5, 17 => some (.vCmpeq t (fieldsV w))
  | 5, 18 => some (.vCmplt t (fieldsV w))
  | 5, 19 => some (.vCmple t (fieldsV w))
  | 5, 20 => some (.vCmpun t (fieldsV w))
  | 5, 21 => some (.vSel t (fieldsV w))
  | 5, 22 => some (.vDiv t (fieldsV w))
  | 5, 23 => some (.vRcp t (fieldsV w))
  | 5, 24 => some (.vSqrt t (fieldsV w))
  | 5, 25 => some (.vRsqrt t (fieldsV w))
  | 5, 26 => some (.vExp t (fieldsV w))
  | 5, 27 => some (.vExp2 t (fieldsV w))
  | 5, 28 => some (.vLog t (fieldsV w))
  | 5, 29 => some (.vLog2 t (fieldsV w))
  | 5, 30 => some (.vTanh t (fieldsV w))
  | 5, 31 => some (.vSigmoid t (fieldsV w))
  | 5, 32 => some (.vSilu t (fieldsV w))
  | 5, 33 => some (.vGelu t (fieldsV w))
  | 5, 34 => some (.vGeluT t (fieldsV w))
  | 5, 35 => some (.vSoftplus t (fieldsV w))
  | 5, 36 => some (.vSin t (fieldsV w))
  | 5, 37 => some (.vCos t (fieldsV w))
  | 5, 38 => some (.vDrelu t (fieldsV w))
  | 5, 39 => some (.vDsigmoid t (fieldsV w))
  | 5, 40 => some (.vDtanh t (fieldsV w))
  | 5, 41 => some (.vDexp t (fieldsV w))
  | 5, 42 => some (.vDsoftmax t (fieldsV w))
  | 5, 43 => some (.vDsilu t (fieldsV w))
  | 5, 44 => some (.vDgelu t (fieldsV w))
  | 5, 45 => some (.vDgeluT t (fieldsV w))
  | 5, 46 => some (.vDsoftplus t (fieldsV w))
  | 5, 47 => some (.vSum t (fieldsV w))
  | 5, 48 => some (.vDot t (fieldsV w))
  | 5, 49 => some (.vMaxi t (fieldsV w))
  | 5, 50 => some (.vMini t (fieldsV w))
  | 5, 51 => some (.vMov t (fieldsV w))
  | 6, 0 => some (.chOpen t (fieldsS w))
  | 6, 1 => some (.chSend t (fieldsS w))
  | 6, 2 => some (.chRecv t (fieldsS w))
  | 6, 3 => some (.chClose t (fieldsS w))
  | 6, 4 => some (.chPoll t (fieldsS w))
  | 6, 5 => some (.sumpAdd t (fieldsS w))
  | 7, 0 => some (.signal t (fieldsS w))
  | 7, 1 => some (.wait t (fieldsS w))
  | 7, 2 => some (.arm t (fieldsS w))
  | 7, 3 => some (.read t (fieldsS w))
  | 7, 4 => some (.cas t (fieldsS w))
  | 8, 0 => some (.rndu t (fieldsV w))
  | 8, 1 => some (.rndb t (fieldsV w))
  | 8, 2 => some (.drop t (fieldsV w))
  | 8, 3 => some (.rndx t (fieldsS w))
  | 9, 0 => some (.cvt t (fieldsD w))
  | 10, 0 => some (.commit t (fieldsS w))
  | 10, 1 => some (.fence t (fieldsS w))
  | 10, 2 => some (.waittag t (fieldsS w))
  | 10, 3 => some (.done t (fieldsS w))
  | 10, 4 => some (.yield t (fieldsS w))
  | _, _ => none

/-- The word of a thread instruction, from the same tables; none for a command that has no instruction word. -/
def encode : Instr → Option W64
  | .add _ f => some (wordS 0 0 f)
  | .sub _ f => some (wordS 0 1 f)
  | .mul _ f => some (wordS 0 2 f)
  | .mulhu _ f => some (wordS 0 3 f)
  | .mulh _ f => some (wordS 0 4 f)
  | .divu _ f => some (wordS 0 5 f)
  | .div _ f => some (wordS 0 6 f)
  | .remu _ f => some (wordS 0 7 f)
  | .rem _ f => some (wordS 0 8 f)
  | .and _ f => some (wordS 0 9 f)
  | .or _ f => some (wordS 0 10 f)
  | .xor _ f => some (wordS 0 11 f)
  | .shl _ f => some (wordS 0 12 f)
  | .shr _ f => some (wordS 0 13 f)
  | .sar _ f => some (wordS 0 14 f)
  | .min _ f => some (wordS 0 15 f)
  | .max _ f => some (wordS 0 16 f)
  | .minu _ f => some (wordS 0 17 f)
  | .maxu _ f => some (wordS 0 18 f)
  | .slt _ f => some (wordS 0 19 f)
  | .sltu _ f => some (wordS 0 20 f)
  | .seq _ f => some (wordS 0 21 f)
  | .li _ f => some (wordL 0 22 f)
  | .fadd _ f => some (wordS 0 23 f)
  | .fsub _ f => some (wordS 0 24 f)
  | .fmul _ f => some (wordS 0 25 f)
  | .fdiv _ f => some (wordS 0 26 f)
  | .ffma _ f => some (wordS 0 27 f)
  | .fmin _ f => some (wordS 0 28 f)
  | .fmax _ f => some (wordS 0 29 f)
  | .flt _ f => some (wordS 0 30 f)
  | .fcvtif _ f => some (wordS 0 31 f)
  | .fcvtfi _ f => some (wordS 0 32 f)
  | .setvl _ f => some (wordS 0 33 f)
  | .setvm _ f => some (wordS 0 34 f)
  | .getvl _ f => some (wordS 0 35 f)
  | .getvm _ f => some (wordS 0 36 f)
  | .getst _ f => some (wordS 0 37 f)
  | .clrst _ f => some (wordS 0 38 f)
  | .rdinfo _ f => some (wordS 0 39 f)
  | .rdic _ f => some (wordS 0 40 f)
  | .aadd _ f => some (wordS 1 0 f)
  | .amov _ f => some (wordS 1 1 f)
  | .ard _ f => some (wordS 1 2 f)
  | .ali _ f => some (wordL 1 3 f)
  | .awin _ f => some (wordS 1 4 f)
  | .br _ f => some (wordB 2 0 f)
  | .jal _ f => some (wordB 2 1 f)
  | .jalr _ f => some (wordB 2 2 f)
  | .lds _ f => some (wordM 3 0 f)
  | .sts _ f => some (wordM 3 1 f)
  | .mld _ f => some (wordM 3 2 f)
  | .mst _ f => some (wordM 3 3 f)
  | .pref _ f => some (wordM 3 4 f)
  | .stashAlloc _ f => some (wordM 3 5 f)
  | .stashFind _ f => some (wordM 3 6 f)
  | .tmma _ f => some (wordD 4 0 f)
  | .tgemv _ f => some (wordD 4 1 f)
  | .accSwap _ f => some (wordD 4 2 f)
  | .vAdd _ f => some (wordV 5 0 f)
  | .vSub _ f => some (wordV 5 1 f)
  | .vMul _ f => some (wordV 5 2 f)
  | .vFma _ f => some (wordV 5 3 f)
  | .vFms _ f => some (wordV 5 4 f)
  | .vNeg _ f => some (wordV 5 5 f)
  | .vAbs _ f => some (wordV 5 6 f)
  | .vMin _ f => some (wordV 5 7 f)
  | .vMax _ f => some (wordV 5 8 f)
  | .vAdds _ f => some (wordV 5 9 f)
  | .vSubs _ f => some (wordV 5 10 f)
  | .vAnd _ f => some (wordV 5 11 f)
  | .vOr _ f => some (wordV 5 12 f)
  | .vXor _ f => some (wordV 5 13 f)
  | .vShl _ f => some (wordV 5 14 f)
  | .vShr _ f => some (wordV 5 15 f)
  | .vSar _ f => some (wordV 5 16 f)
  | .vCmpeq _ f => some (wordV 5 17 f)
  | .vCmplt _ f => some (wordV 5 18 f)
  | .vCmple _ f => some (wordV 5 19 f)
  | .vCmpun _ f => some (wordV 5 20 f)
  | .vSel _ f => some (wordV 5 21 f)
  | .vDiv _ f => some (wordV 5 22 f)
  | .vRcp _ f => some (wordV 5 23 f)
  | .vSqrt _ f => some (wordV 5 24 f)
  | .vRsqrt _ f => some (wordV 5 25 f)
  | .vExp _ f => some (wordV 5 26 f)
  | .vExp2 _ f => some (wordV 5 27 f)
  | .vLog _ f => some (wordV 5 28 f)
  | .vLog2 _ f => some (wordV 5 29 f)
  | .vTanh _ f => some (wordV 5 30 f)
  | .vSigmoid _ f => some (wordV 5 31 f)
  | .vSilu _ f => some (wordV 5 32 f)
  | .vGelu _ f => some (wordV 5 33 f)
  | .vGeluT _ f => some (wordV 5 34 f)
  | .vSoftplus _ f => some (wordV 5 35 f)
  | .vSin _ f => some (wordV 5 36 f)
  | .vCos _ f => some (wordV 5 37 f)
  | .vDrelu _ f => some (wordV 5 38 f)
  | .vDsigmoid _ f => some (wordV 5 39 f)
  | .vDtanh _ f => some (wordV 5 40 f)
  | .vDexp _ f => some (wordV 5 41 f)
  | .vDsoftmax _ f => some (wordV 5 42 f)
  | .vDsilu _ f => some (wordV 5 43 f)
  | .vDgelu _ f => some (wordV 5 44 f)
  | .vDgeluT _ f => some (wordV 5 45 f)
  | .vDsoftplus _ f => some (wordV 5 46 f)
  | .vSum _ f => some (wordV 5 47 f)
  | .vDot _ f => some (wordV 5 48 f)
  | .vMaxi _ f => some (wordV 5 49 f)
  | .vMini _ f => some (wordV 5 50 f)
  | .vMov _ f => some (wordV 5 51 f)
  | .chOpen _ f => some (wordS 6 0 f)
  | .chSend _ f => some (wordS 6 1 f)
  | .chRecv _ f => some (wordS 6 2 f)
  | .chClose _ f => some (wordS 6 3 f)
  | .chPoll _ f => some (wordS 6 4 f)
  | .sumpAdd _ f => some (wordS 6 5 f)
  | .signal _ f => some (wordS 7 0 f)
  | .wait _ f => some (wordS 7 1 f)
  | .arm _ f => some (wordS 7 2 f)
  | .read _ f => some (wordS 7 3 f)
  | .cas _ f => some (wordS 7 4 f)
  | .rndu _ f => some (wordV 8 0 f)
  | .rndb _ f => some (wordV 8 1 f)
  | .drop _ f => some (wordV 8 2 f)
  | .rndx _ f => some (wordS 8 3 f)
  | .cvt _ f => some (wordD 9 0 f)
  | .commit _ f => some (wordS 10 0 f)
  | .fence _ f => some (wordS 10 1 f)
  | .waittag _ f => some (wordS 10 2 f)
  | .done _ f => some (wordS 10 3 f)
  | .yield _ f => some (wordS 10 4 f)
  | .chOpenReader _ f => some (wordS 6 0 f)
  | _ => none

/-- The command that a word of spec/opcode_table.json spells: the table gives no row any bits, so no word
spells a command. -/
def decodeTableWord (_nbits _w : Nat) : Option Instr := none

end Sys2Proof
end

