-- ==== Sys2Proof/Config.lean ====
section
/-! DEFINITION. What an implementation fixes and what the spec leaves open: constants without a body, so
no proof can see what they are. Each is named in the assumption log. -/

namespace Sys2Proof.Config

/-- A fresh free value: the n-th value the device picks for itself (session numbers, nonces, keys, seeds,
transaction identifiers, and the contents of cells no rule states). -/
opaque freeValue : Nat → Nat

/-- Sign of a NaN that an operation makes from operands none of which is NaN, or from NaNs of both signs
(R142 states the sign only for a NaN that comes from a negative source). Operation, then operand codes. -/
opaque nanSign : Nat → Nat → Nat → Nat → Bool

/-- Which of the codes within 1 ulp (RCP, RSQRT) or 2 ulp (transcendental and derivative operations) operation `op` of Table 8.15 gives on
operand codes `a` and `b` (R196), and its free codes where the manual states no value. -/
opaque vecFn : Nat → Nat → Nat → Nat

/-- SHA-384 (R499), of a list of bytes: 48 bytes as a number. -/
opaque sha384 : List Byte → Nat
/-- HMAC-SHA-384 (R444): key, then the bytes; 48 bytes as a number. -/
opaque hmac384 : List Byte → List Byte → Nat
/-- HKDF-SHA-384 (R443): shared secret, salt, label; one 384-bit key. -/
opaque hkdf : Nat → List Byte → Nat → Nat
/-- ECDH on P-384 (R443): own secret, peer point; none when the point is not on the curve. -/
opaque ecdh : Nat → List Byte → Option Nat
/-- Public point (96 bytes as a number) of a P-384 secret. -/
opaque ecPub : Nat → Nat
/-- ECDSA P-384 verification: public point, digest, signature. -/
opaque ecdsaOk : Nat → Nat → Nat → Bool
/-- ECDSA P-384 signature with the deterministic nonce of RFC 6979 (R493): secret, digest; r and s as one number. -/
opaque ecdsaSign : Nat → Nat → Nat
/-- LMS public root and signature check (R496): root, message, signature. -/
opaque lmsOk : Nat → List Byte → List Byte → Bool
/-- LMS signature of a message with one leaf of a seed (R499): 1,612 bytes as a number. -/
opaque lmsSign : Nat → Nat → List Byte → Nat
/-- LMS public key of a seed: 56 bytes as a number (R500). -/
opaque lmsRoot : Nat → Nat

/-- The order in which the catalogue lists the counters and events of a block: the manual gives the names only (R461). -/
opaque catalogueOrder : Nat → Nat → Nat
/-- Arbiters that count CNT_FAB_REVOKE (R343). -/
opaque arbiterCount : Nat

/-- The 384-bit seed of a headframe's PUF (R492), by die. -/
opaque pufSeed : Nat → Nat
/-- The boot ROM's two ECDSA and two LMS public keys (R497), and its version. -/
opaque romEcdsaKey : Nat → Nat
opaque romLmsKey : Nat → Nat
opaque bootRomVersion : Nat
/-- Aelnum's JEDEC manufacturer identity code (R517). -/
opaque jedecId : Nat
/-- Header fields of a frame the spec gives no value: 0 identification, 1 hop limit, 2 flow label, 3 MAC address of the next hop, 4 VLAN of a
priority tag, 5 source port of RoCEv2; per address. -/
opaque frameOpen : Nat → Nat → Nat
/-- Bytes of a RoCEv2 packet after its UDP header, whose layout the spec leaves to that protocol: queue pair, operation, PSN, data. -/
opaque rocePacket : Nat → Nat → Nat → List Byte → List Byte
/-- Payload of a LINK_CTL flit, and what a received one says (R91, R109): the spec gives the flit and not its payload's layout. -/
opaque linkCtlBytes : LinkCtl → List Byte
opaque linkCtlOf : List Byte → Option LinkCtl
/-- STEP_MAJOR of this part's A.H (R6, R13, R517). -/
opaque headStep : BitVec 4
/-- What a sensor reads (R490): key of the quantity, and the read's number. -/
opaque sensed : Nat → Nat → Nat

end Sys2Proof.Config
end

