-- ==== Sys2Proof/Machine/Num.lean ====
section
/-! DEFINITION. Exact numbers, rounding and the element formats of chapter 5. -/

namespace Sys2Proof

/-- A decoded element: a signed finite magnitude `num / den` (den > 0), an infinity or a NaN. -/
inductive Val where
  | fin (neg : Bool) (num den : Nat)
  | inf (neg : Bool)
  | nan (neg : Bool)
  deriving DecidableEq, Repr

/-- An exact rational `n / d`, d > 0. -/
structure Q where
  n : Int
  d : Nat
  deriving DecidableEq, Repr

/-- Sum of two rationals over a common denominator. -/
def qAdd (a b : Q) : Q :=
  let l := Nat.lcm a.d b.d
  ⟨a.n * ((l / a.d : Nat) : Int) + b.n * ((l / b.d : Nat) : Int), l⟩
/-- Product of two rationals. -/
def qMul (a b : Q) : Q := ⟨a.n * b.n, a.d * b.d⟩
/-- a < b. -/
def qLt (a b : Q) : Bool := decide (a.n * (b.d : Int) < b.n * (a.d : Int))
/-- a ≤ b. -/
def qLe (a b : Q) : Bool := !qLt b a
/-- a × 2^k. -/
def qShift (a : Q) (k : Int) : Q :=
  if 0 ≤ k then ⟨a.n * ((2 ^ k.toNat : Nat) : Int), a.d⟩ else ⟨a.n, a.d * 2 ^ (-k).toNat⟩
/-- Zero. -/
def qZero : Q := ⟨0, 1⟩

/-- Exact value of a finite element. -/
def valQ : Val → Q
  | .fin s n d => ⟨if s then -(n : Int) else (n : Int), d⟩
  | _ => qZero

/-- Is the element finite? -/
def valFin : Val → Bool
  | .fin _ _ _ => true
  | _ => false
/-- Is the element NaN? -/
def valNan : Val → Bool
  | .nan _ => true
  | _ => false
/-- Is the element infinite? -/
def valInf : Val → Bool
  | .inf _ => true
  | _ => false
/-- Sign bit of an element. -/
def valNeg : Val → Bool
  | .fin s _ _ => s
  | .inf s => s
  | .nan s => s
/-- Is the element a finite zero? -/
def valZero : Val → Bool
  | .fin _ n _ => n == 0
  | _ => false

/-- A finite element from a rational; `zs` is the sign a zero takes. -/
def qVal (q : Q) (zs : Bool) : Val := .fin (if q.n = 0 then zs else decide (q.n < 0)) q.n.natAbs q.d

/-- num × 2^k / den as a fraction of naturals. -/
def fracShift (num den : Nat) (k : Int) : Nat × Nat :=
  if 0 ≤ k then (num * 2 ^ k.toNat, den) else (num, den * 2 ^ (-k).toNat)

/-- floor_log2 of a positive fraction (chapter 5, *Choosing scales*). -/
def flog2 (num den : Nat) : Int :=
  let k : Int := (nlog2 num : Int) - (nlog2 den : Int)
  let f := fracShift num den (-k)
  if f.2 ≤ f.1 then k else k - 1

/-- Rounding modes of Table 5.8; SR carries its 16 random bits. -/
inductive Rm where
  | rne
  | rz
  | sr (r16 : Nat)
  deriving DecidableEq, Repr

/-- A non-negative fraction rounded to an integer by a mode of R151 or R152. -/
def roundInt (rm : Rm) (num den : Nat) : Nat :=
  let n := num / den
  let r := num % den
  match rm with
  | .rz => n
  | .rne => if den < 2 * r || (2 * r == den && n % 2 == 1) then n + 1 else n
  | .sr r16 => if 65536 ≤ r * 65536 / den + r16 then n + 1 else n

/-- Special codes of a floating format (Table 5.1). -/
inductive Special where
  | none      -- every code is finite
  | e4m3      -- only all ones is NaN
  | ieee
  deriving DecidableEq, Repr

/-- Layout of a floating format: mantissa bits, exponent bits, bias, special codes. -/
structure Flt where
  mb : Nat
  eb : Nat
  bias : Int
  sp : Special
  deriving DecidableEq, Repr

/-- Table 5.1. -/
def fE2M1 : Flt := ⟨1, 2, 1, .none⟩
def fE2M3 : Flt := ⟨3, 2, 1, .none⟩
def fE3M2 : Flt := ⟨2, 3, 3, .none⟩
def fE4M3 : Flt := ⟨3, 4, 7, .e4m3⟩
def fE5M2 : Flt := ⟨2, 5, 15, .ieee⟩
def fBF16 : Flt := ⟨7, 8, 127, .ieee⟩
def fFP16 : Flt := ⟨10, 5, 15, .ieee⟩
def fFP32 : Flt := ⟨23, 8, 127, .ieee⟩

/-- Width of a format's code in bits. -/
def fltBits (f : Flt) : Nat := 1 + f.eb + f.mb

/-- Exponent of the largest normal value (emax of chapter 5). -/
def fltEmax (f : Flt) : Int :=
  match f.sp with
  | .ieee => (2 ^ f.eb : Nat) - 2 - f.bias
  | _ => (2 ^ f.eb : Nat) - 1 - f.bias

/-- Magnitude code of the largest finite value. -/
def fltMaxCode (f : Flt) : Nat :=
  match f.sp with
  | .none => 2 ^ (f.eb + f.mb) - 1
  | .e4m3 => 2 ^ (f.eb + f.mb) - 2
  | .ieee => (2 ^ f.eb - 1) * 2 ^ f.mb - 1

/-- Exponent of the quantum of subnormal numbers. -/
def fltQmin (f : Flt) : Int := 1 - f.bias - f.mb

/-- Magnitude of a finite magnitude code, as a fraction (R137). -/
def fltMag (f : Flt) (c : Nat) : Nat × Nat :=
  let e := c / 2 ^ f.mb
  let m := c % 2 ^ f.mb
  if e = 0 then fracShift m 1 (fltQmin f) else fracShift (2 ^ f.mb + m) 1 (e - f.bias - f.mb)

/-- Value of a code (R137, R142). -/
def fltDec (f : Flt) (code : Nat) : Val :=
  let s := code / 2 ^ (f.eb + f.mb) % 2 == 1
  let c := code % 2 ^ (f.eb + f.mb)
  if c ≤ fltMaxCode f then .fin s (fltMag f c).1 (fltMag f c).2
  else if f.sp = .ieee && c == (2 ^ f.eb - 1) * 2 ^ f.mb then .inf s
  else .nan s

/-- Sign bit of a code. -/
def signBit (f : Flt) (neg : Bool) : Nat := b2n neg * 2 ^ (f.eb + f.mb)

/-- Canonical NaN of a format with a sign (R142). -/
def fltNan (f : Flt) (neg : Bool) : Nat :=
  signBit f neg + match f.sp with
    | .ieee => (2 ^ f.eb - 1) * 2 ^ f.mb + 2 ^ (f.mb - 1)
    | _ => 2 ^ (f.eb + f.mb) - 1

/-- Infinity of a format with a sign. -/
def fltInf (f : Flt) (neg : Bool) : Nat := signBit f neg + (2 ^ f.eb - 1) * 2 ^ f.mb

/-- Magnitude code of `n × 2^q`, a multiple of the quantum with at most mb + 1 bits (or one carry). -/
def fltMagCode (f : Flt) (n : Nat) (q : Int) : Nat :=
  let c := 2 ^ (f.mb + 1) ≤ n
  let n := if c then n / 2 else n
  let q := if c then q + 1 else q
  if n < 2 ^ f.mb then n else ((q + f.mb + f.bias).toNat) * 2 ^ f.mb + (n - 2 ^ f.mb)

/-- A positive fraction rounded to a format's precision with an unbounded exponent range upward:
the integer and its quantum. -/
def fltRoundMag (f : Flt) (rm : Rm) (num den : Nat) : Nat × Int :=
  if num = 0 then (0, fltQmin f) else
  let e := flog2 num den - f.mb
  let q := if e < fltQmin f then fltQmin f else e
  let x := fracShift num den (-q)
  (roundInt rm x.1 x.2, q)

/-- Outcome of rounding one element: its code and what Table 5.7 counts. -/
structure Cv where
  code : Nat
  sat : Bool := false
  ufl : Bool := false
  nonfin : Bool := false
  deriving DecidableEq, Repr

/-- Is the fraction above the largest finite value of the format? -/
def fltAbove (f : Flt) (num den : Nat) : Bool :=
  let m := fltMag f (fltMaxCode f)
  decide (m.1 * den < num * m.2)

/-- Conversion to BF16, FP16 or FP32 (Table 5.7, R524): IEEE overflow, infinities and canonical NaN. -/
def fltIeee (f : Flt) (rm : Rm) : Val → Cv
  | .nan s => { code := fltNan f s, nonfin := true }
  | .inf s => { code := fltInf f s, nonfin := true }
  | .fin s n d =>
    let big := fltAbove f n d
    match rm with
    | .sr _ =>
      if big then { code := fltInf f s, sat := true }
      else
        let r := fltRoundMag f rm n d
        { code := signBit f s + fltMagCode f r.1 r.2, ufl := r.1 == 0 && n != 0 }
    | _ =>
      let r := fltRoundMag f rm n d
      let x := fracShift r.1 1 r.2
      if fltAbove f x.1 x.2 then
        match rm with
        | .rz => { code := signBit f s + fltMaxCode f, sat := true }
        | _ => { code := fltInf f s, sat := true }
      else { code := signBit f s + fltMagCode f r.1 r.2, ufl := r.1 == 0 && n != 0 }

/-- Conversion of an element to a saturating format (Table 5.7: MX and Pip4 elements, per-tensor FP8).
`tensor` says the FP8 code itself carries the special value; under a block scale the code is 0. -/
def fltSat (f : Flt) (tensor : Bool) (rm : Rm) : Val → Cv
  | .nan s => { code := if tensor then fltNan f s else 0, nonfin := true }
  | .inf s => { code := if tensor then (if f.sp = .ieee then fltInf f s else fltNan f s) else 0, nonfin := true }
  | .fin s n d =>
    if fltAbove f n d then { code := signBit f s + fltMaxCode f, sat := true }
    else
      let r := fltRoundMag f rm n d
      { code := signBit f s + fltMagCode f r.1 r.2, ufl := r.1 == 0 && n != 0 }

/-- Conversion to a two's-complement integer of `w` bits (Table 5.7, R152). -/
def intConv (w : Nat) (rm : Rm) : Val → Cv
  | .nan _ => { code := 0, nonfin := true }
  | .inf s => { code := if s then 2 ^ (w - 1) else 2 ^ (w - 1) - 1, nonfin := true }
  | .fin s n d =>
    if s then
      if 2 ^ (w - 1) * d < n then { code := 2 ^ (w - 1), sat := true }
      else
        let r := roundInt rm n d
        { code := unsgn w (-(r : Int)), ufl := r == 0 && n != 0 }
    else
      if (2 ^ (w - 1) - 1) * d < n then { code := 2 ^ (w - 1) - 1, sat := true }
      else
        let r := roundInt rm n d
        { code := r, ufl := r == 0 && n != 0 }

/-- An integer code as a value. -/
def intVal (w c : Nat) : Val :=
  let i := sgn w c
  .fin (decide (i < 0)) i.natAbs 1

/-- Ternary code (Table 5.3): 0b10 is invalid and decodes as 0. -/
def ternVal (c : Nat) : Val :=
  if c % 4 = 1 then .fin false 1 1 else if c % 4 = 3 then .fin true 1 1 else .fin false 0 1

/-- A value times 2^k. -/
def valShift (v : Val) (k : Int) : Val :=
  match v with
  | .fin s n d => .fin s (fracShift n d k).1 (fracShift n d k).2
  | v => v

/-- A value under an E8M0 scale (R143): code 0xFF makes it NaN. -/
def valE8 (v : Val) (code : Nat) : Val :=
  if code % 256 = 255 then .nan (valNeg v) else valShift v ((code % 256 : Nat) - 127)

/-- The exact product of two elements (R166, R172): NaN dominates, infinity times zero is NaN, its sign free (log 15). -/
def valMul (a b : Val) : Val :=
  match a, b with
  | .nan s, _ => .nan s
  | _, .nan s => .nan s
  | .inf s, y => if valZero y then .nan (Config.nanSign 2 (b2n s) (b2n (valNeg y)) 0) else .inf (s != valNeg y)
  | x, .inf s => if valZero x then .nan (Config.nanSign 2 (b2n (valNeg x)) (b2n s) 1) else .inf (s != valNeg x)
  | .fin s n d, .fin t m e => .fin (s != t) (n * m) (d * e)

/-- Order key comparison of two non-NaN values: a < b with infinities at the ends, +0 equal to −0. -/
def valLt (a b : Val) : Bool :=
  match a, b with
  | .nan _, _ => false
  | _, .nan _ => false
  | .inf true, .inf true => false
  | .inf true, _ => true
  | _, .inf true => false
  | .inf false, _ => false
  | _, .inf false => true
  | a, b => qLt (valQ a) (valQ b)

/-- Sign of a NaN made by operation `op` on codes a, b, c (R142): the common sign of its NaN operands,
free where they differ or where there is none. -/
def nanOf (op : Nat) (a b c : Nat) (vs : List Val) : Val :=
  let ns := (vs.filter valNan).map valNeg
  if ns.isEmpty then .nan (Config.nanSign op a b c)
  else if ns.all (· == true) then .nan true
  else if ns.all (· == false) then .nan false
  else .nan (Config.nanSign op a b c)

/-- A code with every NaN canonical, its sign kept (R142). -/
def canonical (f : Flt) (c : Nat) : Nat := match fltDec f c with | .nan s => fltNan f s | _ => c

/-- IEEE sum of two decoded values with exact zero sign under RNE; `none` for NaN. -/
def ieeeAdd (a b : Val) : Option Val :=
  match a, b with
  | .nan _, _ => none
  | _, .nan _ => none
  | .inf s, .inf t => if s = t then some (.inf s) else none
  | .inf s, _ => some (.inf s)
  | _, .inf s => some (.inf s)
  | a, b => some (qVal (qAdd (valQ a) (valQ b)) (valNeg a && valNeg b))

/-- IEEE product; `none` for NaN. -/
def ieeeMul (a b : Val) : Option Val :=
  match valMul a b with
  | .nan _ => none
  | v => some v

/-- Negation of a value. -/
def valNegate : Val → Val
  | .fin s n d => .fin (!s) n d
  | .inf s => .inf (!s)
  | .nan s => .nan s

/-- IEEE quotient; `none` for NaN. -/
def ieeeDiv (a b : Val) : Option Val :=
  let s := valNeg a != valNeg b
  match a, b with
  | .nan _, _ => none
  | _, .nan _ => none
  | .inf _, .inf _ => none
  | .inf _, _ => some (.inf s)
  | .fin _ _ _, .inf _ => some (.fin s 0 1)
  | .fin _ n d, .fin _ m e => if m = 0 then (if n = 0 then none else some (.inf s)) else some (.fin s (n * e) (d * m))

/-- Integer square root by bisection on bits, structurally on the number of bits. -/
def isqrtGo : Nat → Nat → Nat → Nat
  | 0, _, r => r
  | k + 1, n, r => isqrtGo k n (if (r + 2 ^ k) * (r + 2 ^ k) ≤ n then r + 2 ^ k else r)

/-- Largest r with r² ≤ n. -/
def isqrt (n : Nat) : Nat := isqrtGo (nlog2 n / 2 + 1) n 0

/-- IEEE square root, carried with enough bits and a sticky bit for one rounding to `f`; `none` for NaN. -/
def ieeeSqrt : Val → Option Val
  | .nan _ => none
  | .inf s => if s then none else some (.inf false)
  | .fin s n d =>
    if n = 0 then some (.fin s 0 1)
    else if s then none
    else
      -- sqrt(n/d) with d a power of two: n·d·2^(2k) under the root, k extra bits and a sticky bit
      let k := 64 + nlog2 d
      let x := n * d * 4 ^ k
      let r := isqrt x
      some (.fin false (2 * r + b2n (r * r != x)) (2 * d * 2 ^ k))

/-- Round to a lane format by RNE; `none` is the operation's NaN. -/
def ieeeOut (f : Flt) (op a b c : Nat) (vs : List Val) (r : Option Val) : Nat :=
  match r with
  | none => (fltIeee f .rne (nanOf op a b c vs)).code
  | some v => (fltIeee f .rne v).code

/-- a + b in a lane format, one rounding (R196). -/
def fpAdd (f : Flt) (a b : Nat) : Nat :=
  let x := fltDec f a; let y := fltDec f b
  ieeeOut f 0 a b 0 [x, y] (ieeeAdd x y)
/-- a − b. -/
def fpSub (f : Flt) (a b : Nat) : Nat :=
  let x := fltDec f a; let y := fltDec f b
  ieeeOut f 1 a b 0 [x, y] (ieeeAdd x (valNegate y))
/-- a × b. -/
def fpMul (f : Flt) (a b : Nat) : Nat :=
  let x := fltDec f a; let y := fltDec f b
  ieeeOut f 2 a b 0 [x, y] (ieeeMul x y)
/-- a × b + c, or − c, with one rounding. -/
def fpFma (f : Flt) (sub : Bool) (a b c : Nat) : Nat :=
  let x := fltDec f a; let y := fltDec f b; let z := fltDec f c
  let r := match ieeeMul x y with
    | none => none
    | some p => ieeeAdd p (if sub then valNegate z else z)
  ieeeOut f 3 a b c [x, y, z] r
/-- a / b. -/
def fpDiv (f : Flt) (a b : Nat) : Nat :=
  let x := fltDec f a; let y := fltDec f b
  ieeeOut f 22 a b 0 [x, y] (ieeeDiv x y)
/-- √a. -/
def fpSqrt (f : Flt) (a : Nat) : Nat :=
  let x := fltDec f a
  ieeeOut f 24 a 0 0 [x] (ieeeSqrt x)
/-- a < b as floating values; false when either is NaN. -/
def fpLt (f : Flt) (a b : Nat) : Bool := valLt (fltDec f a) (fltDec f b)
/-- a = b as floating values: zeros of both signs are equal, NaN equals nothing. -/
def fpEq (f : Flt) (a b : Nat) : Bool :=
  let x := fltDec f a; let y := fltDec f b
  !valNan x && !valNan y && !valLt x y && !valLt y x
/-- Either operand NaN (CMPUN). -/
def fpUn (f : Flt) (a b : Nat) : Bool := valNan (fltDec f a) || valNan (fltDec f b)
/-- MIN and MAX (R196): NaN when either is NaN; −0 below +0. -/
def fpMinMax (f : Flt) (max : Bool) (a b : Nat) : Nat :=
  let x := fltDec f a; let y := fltDec f b
  if valNan x || valNan y then (fltIeee f .rne (nanOf (if max then 8 else 7) a b 0 [x, y])).code
  else
    let below := valLt x y || (!valLt y x && valNeg x && !valNeg y)   -- a below b, −0 below +0
    if max then (if below then b else a) else (if below then a else b)

/-- Combination of cell states (R172). -/
def combineSt (a b : Nat) : Nat :=
  if a = 3 || b = 3 then 3 else if a = 0 then b else if b = 0 then a else if a = b then a else 3
/-- State a product brings to its cell. -/
def valSt : Val → Nat
  | .fin _ _ _ => 0
  | .inf s => if s then 2 else 1
  | .nan _ => 3
/-- A rational rounded to an integer, nearest even (R151). -/
def qRne (q : Q) : Int :=
  let r : Int := roundInt .rne q.n.natAbs q.d
  if q.n < 0 then -r else r

end Sys2Proof
end

