-- ==== Sys2Proof/Machine/Code.lean ====
section
/-! DEFINITION. Check codes: CRC-32C (R93), CRC-16 (R286), GF(2^8) and Reed-Solomon codewords with errors and
erasures (R94, R285). -/

namespace Sys2Proof

/-! ## CRC -/

/-- One bit of a reflected CRC-32C register. -/
def crc32cBit (c : Nat) : Nat := if c % 2 = 1 then Nat.xor (c / 2) 0x82F6_3B78 else c / 2
/-- Apply a function n times. -/
def iter {α : Type} (f : α → α) : Nat → α → α
  | 0, a => a
  | n + 1, a => iter f n (f a)
/-- The CRC-32C register after a list of bytes. -/
def crc32cReg (c : Nat) (bs : List Byte) : Nat := bs.foldl (fun c b => iter crc32cBit 8 (Nat.xor c b.toNat)) c
/-- CRC-32C with an initial register value, final XOR included (R93). -/
def crc32c (init : Nat) (bs : List Byte) : Nat := Nat.xor (crc32cReg (init % 2 ^ 32) bs) 0xFFFF_FFFF

/-- One bit of a CRC-16 register, polynomial 0x1021, most significant bit first. -/
def crc16Bit (c : Nat) : Nat := if 0x8000 ≤ c then Nat.xor (c * 2 % 0x1_0000) 0x1021 else c * 2
/-- The CRC-16 of line metadata (R286): initial 0xFFFF, not reflected, no final XOR. -/
def crc16 (bs : List Byte) : Nat := bs.foldl (fun c b => iter crc16Bit 8 (Nat.xor c (b.toNat * 256))) 0xFFFF

/-! ## GF(2^8), field polynomial x^8 + x^4 + x^3 + x^2 + 1, α = 2 -/

/-- Times α. -/
def gfDbl (a : Nat) : Nat := if 128 ≤ a then Nat.xor (a * 2) 0x11D else a * 2
/-- Product, over the low n bits of b. -/
def gfMulGo : Nat → Nat → Nat → Nat
  | 0, _, _ => 0
  | n + 1, a, b => Nat.xor (if b % 2 = 1 then a else 0) (gfMulGo n (gfDbl a) (b / 2))
def gfMul (a b : Nat) : Nat := gfMulGo 8 (a % 256) (b % 256)
/-- α^k. -/
def gfExp (k : Nat) : Nat := iter gfDbl (k % 255) 1
/-- Inverse: a^254, by repeated squaring of a. -/
def gfInv (a : Nat) : Nat :=
  let a2 := gfMul a a
  let a4 := gfMul a2 a2
  let a8 := gfMul a4 a4
  let a16 := gfMul a8 a8
  let a32 := gfMul a16 a16
  let a64 := gfMul a32 a32
  let a128 := gfMul a64 a64
  gfMul a2 (gfMul a4 (gfMul a8 (gfMul a16 (gfMul a32 (gfMul a64 a128)))))

/-- A word's value at x: the first symbol is the highest coefficient. -/
def gfEval (w : List Nat) (x : Nat) : Nat := w.foldl (fun acc s => Nat.xor (gfMul acc x) s) 0
/-- Product of polynomials, highest coefficient first. -/
def gfPolyMul (a b : List Nat) : List Nat :=
  a.foldl (fun acc s =>
    let sh := acc ++ [0]
    (List.range sh.length).map fun i =>
      let off := sh.length - b.length
      Nat.xor (sh.getD i 0) (if i < off then 0 else gfMul s (b.getD (i - off) 0))) (List.replicate (b.length - 1) 0)

/-! ## Reed-Solomon -/

/-- The generator (x + α^0) … (x + α^(t−1)), highest coefficient first. -/
def rsGen (t : Nat) : List Nat := (List.range t).foldl (fun g j => gfPolyMul g [1, gfExp j]) [1]
/-- One step of the division of m(x)·x^t by the generator: the remainder, highest coefficient first. -/
def rsStep (g : List Nat) (r : List Nat) (s : Nat) : List Nat :=
  let f := Nat.xor s (r.getD 0 0)
  (List.range r.length).map fun i => Nat.xor (r.getD (i + 1) 0) (gfMul f (g.getD (i + 1) 0))
/-- Parity symbols of a message. -/
def rsParity (t : Nat) (m : List Nat) : List Nat := m.foldl (rsStep (rsGen t)) (List.replicate t 0)
/-- Syndromes of a codeword. -/
def rsSynd (t : Nat) (w : List Nat) : List Nat := (List.range t).map fun j => gfEval w (gfExp j)

/-- Take row i out of a list of rows. -/
def takeAt {α : Type} : Nat → List α → Option (α × List α)
  | _, [] => none
  | 0, a :: l => some (a, l)
  | n + 1, a :: l => match takeAt n l with | some (b, r) => some (b, a :: r) | none => none
/-- Solve a linear system given as rows of coefficients with the right side last; none when singular. -/
def gfSolve : Nat → List (List Nat) → Option (List Nat)
  | 0, _ => some []
  | n + 1, rows =>
    match rows.findIdx? fun r => r.headD 0 != 0 with
    | none => none
    | some i =>
      match takeAt i rows with
      | none => none
      | some (pv, rest) =>
        let k := gfInv (pv.headD 0)
        let pv := pv.tail.map (gfMul k)
        let rest := rest.map fun r => (r.tail.zip pv).map fun (a, b) => Nat.xor a (gfMul (r.headD 0) b)
        match gfSolve n rest with
        | none => none
        | some xs =>
          -- back substitution: first unknown = right side less the others
          let v := (pv.zip xs).foldl (fun acc (a, x) => Nat.xor acc (gfMul a x)) (pv.getLastD 0)
          some (v :: xs)

/-- Correct a codeword of n symbols, t of them parity, with known erasures and exactly e further errors; none when no
codeword is found. -/
def rsTry (t : Nat) (w : List Nat) (er : List Nat) (e : Nat) : Option (List Nat) :=
  let n := w.length
  let xOf (pos : Nat) : Nat := gfExp (n - 1 - pos)
  let s := rsSynd t w
  -- lowest coefficient first: product of (1 + X x) over the erasures, then the modified syndromes
  let gam := er.foldl (fun g pos => (List.range (g.length + 1)).map fun i =>
    Nat.xor (g.getD i 0) (if i = 0 then 0 else gfMul (xOf pos) (g.getD (i - 1) 0))) [1]
  let mod_ := (List.range t).map fun j => (List.range (j + 1)).foldl (fun acc i => Nat.xor acc (gfMul (gam.getD i 0) (s.getD (j - i) 0))) 0
  let f := er.length
  let rows := (List.range e).map fun i => (List.range e).map (fun k => mod_.getD (f + e + i - (k + 1)) 0) ++ [mod_.getD (f + e + i) 0]
  match gfSolve e rows with
  | none => none
  | some lam =>
    let loc := 1 :: lam
    let roots := (List.range n).filter fun pos =>
      !er.contains pos && (loc.reverse.foldl (fun acc c => Nat.xor (gfMul acc (gfInv (xOf pos))) c) 0) == 0
    if roots.length != e then none else
    let ps := er ++ roots
    let vand := (List.range ps.length).map fun j => ps.map (fun pos => gfExp ((n - 1 - pos) * j)) ++ [s.getD j 0]
    match gfSolve ps.length vand with
    | none => none
    | some ys =>
      let w := (ps.zip ys).foldl (fun w (pos, y) => w.set pos (Nat.xor (w.getD pos 0) y)) w
      if (rsSynd t w).all (· == 0) then some w else none

/-- Decode: as few errors as possible beside the erasures; none when uncorrectable. -/
def rsDecode (t : Nat) (w : List Nat) (er : List Nat) : Option (List Nat) :=
  if (rsSynd t w).all (· == 0) then some w
  else (List.range ((t - er.length) / 2 + 1)).findSome? fun e => rsTry t w er e

end Sys2Proof
end

