-- ==== Sys2Proof/Machine/State.lean ====
section
/-! DEFINITION. The state of one V32 package as plain data, every piece the spec names; the reasons a step can
stop; the state after reset. Field comments cite the rule that gives the field. -/

namespace Sys2Proof.Machine

/-! ## Cores and threads (chapters 6 to 9) -/

/-- An effect staged in a thread's open group (R238, Table 8.16). -/
inductive Effect where
  | send (conn off words : Nat) (target : W64) (opening : Nat)   -- opening: which opening of the entry took it (R253)
  | sump (target off len : Nat)
  | sync (op : Nat) (desig : Nat) (a b : Nat)
  | write (fab addr off len hint : Nat)      -- remote MST
  | writeWord (fab addr : Nat) (data : W64) (hint : Nat)  -- remote STS
  deriving DecidableEq, Repr

/-- State of a thread (Table 8.21). -/
inductive TState where
  | free | idle | ready | blocked | faulted
  deriving DecidableEq, Repr

/-- What a blocked thread waits for (Table 8.21, BLOCK 1 to 10), with what resumes it. -/
inductive Wait where
  | none
  | memData (rd : Nat) (op : Nat)
  | tags (mask : W64)
  | sync (tag : Nat) (rd : Option Nat)
  | chRecv (ep : Nat)
  | chSend (conn : Nat) (since : Nat) (words : Nat)
  | park
  | commit (stream : Nat)
  | stash (rd : Nat)
  | fence (mask : Nat)
  | fetch                                              -- an instruction-cache miss (R218)
  deriving DecidableEq, Repr

/-- What a background operation does when it completes (R236). -/
inductive BgKind where
  | load (addr off len hint : Nat)                     -- local MLD
  | loadWord (rd addr hint : Nat)                      -- LDS from memory
  | store (addr off len hint : Nat)                    -- local MST
  | storeWord (addr : Nat) (data : W64) (hint : Nat)   -- local STS
  | remote (left : Nat)                                -- remote request packets still unanswered
  | engine                                             -- completes with its vector operation or drain
  | staged (grp : Option (Nat × Nat))                  -- a remote write staged as an effect: stream and index once committed
  deriving DecidableEq, Repr

/-- One operation that runs in the background after its instruction issued (R236, R245). -/
structure Bg where
  id : Nat
  tag : Nat
  pc : Nat
  inst : W64
  kind : BgKind
  deriving DecidableEq, Repr

/-- One hardware thread (Table 8.2). -/
structure Thr where
  s : Tab W64 := []
  a : Tab (BitVec 48) := []
  vl : BitVec 21 := 0
  vm : W64 := 0
  st : W64 := 0
  pc : BitVec 24 := 0
  pcOut : Bool := false                        -- the last target lay outside 0 to 2^24 - 1 (R230)
  pend : W64 := 0
  grp : List Effect := []
  grpBytes : Nat := 0
  state : TState := .free
  wait : Wait := .none
  frozen : Bool := false
  slot : Nat := 0
  kind : Nat := 0
  ctx : Nat := 0
  rank : Nat := 0
  nthr : Nat := 0
  nlive : Nat := 0
  doneFlag : Bool := false
  fault : W64 := 0
  finst : W64 := 0
  bg : List Bg := []
  bgNext : Nat := 0
  unacked : Nat := 0                           -- committed groups not yet acknowledged (R235)
  waitPc : Nat := 0                            -- PC and word of the instruction the thread waits in
  waitInst : W64 := 0
  deriving DecidableEq, Repr

/-- An accumulator cell (R167): acc and state 0 finite, 1 +Inf, 2 −Inf, 3 NaN. -/
structure Cell where
  acc : Int := 0
  st : Nat := 0
  deriving DecidableEq, Repr

/-- An accumulator set (R167). -/
structure AccSet where
  cells : Tab Cell := []
  exp : Int := 0
  deriving DecidableEq, Repr

/-- Snapshot of a thread taken at its START (R183). -/
structure Snap where
  s : Tab W64 := []
  a : Tab (BitVec 48) := []
  vl : BitVec 21 := 0
  vm : W64 := 0
  st : W64 := 0
  pc : BitVec 24 := 0
  deriving DecidableEq, Repr

/-- A tile operation taken by the engine or parked (R182): its descriptor copy and its kind. -/
structure TileOp where
  thr : Nat
  gemv : Bool
  desc : Rec
  pc : Nat
  inst : W64
  snap : Option Snap := none
  deriving DecidableEq, Repr

/-- A drain: the swap that waits for the engine, or the drain that runs (R175). -/
structure Drain where
  thr : Nat
  tag : Nat
  desc : Rec
  pc : Nat
  inst : W64
  bgId : Nat
  rows : Nat := 0
  cols : Nat := 0
  gemvRows : Nat := 0
  deriving DecidableEq, Repr

/-- An issued vector, random or convert operation with the values of its own issue (R207, R208, R246). -/
structure VecOp where
  thr : Nat
  cls : Nat
  opc : Nat
  bgId : Nat
  tag : Nat
  pc : Nat
  inst : W64
  fmt : Nat := 0
  d : Nat := 0
  av : Nat := 0
  bv : Nat := 0
  cv : Nat := 0
  ak : Nat := 0
  bk : Nat := 0
  ck : Nat := 0
  vl : Nat := 0
  rows : Nat := 1
  shaped : Bool := false
  shape : Rec := 0
  msk : Nat := 0
  vm : W64 := 0
  nfx : Bool := false
  elemBase : Nat := 0
  stag : Nat := 0
  desc : Rec := 0
  row : Nat := 0
  pos : Nat := 0
  carry : List Byte := []                      -- channel bytes taken and not yet used (R234)
  deriving DecidableEq, Repr

/-- A word of an endpoint: in SRAM with its bytes, or the word of the ring that holds them (R259). -/
structure EpWord where
  data : List Byte := []
  ring : Option Nat := none
  deriving DecidableEq, Repr

/-- Channel endpoint (R249, R250, Table 9.11). Words are kept in arrival order: a head part that is
consumed and held, then unread messages. -/
structure Endpoint where
  state : Nat := 0
  reader : Option (Nat × Nat) := none          -- slot and position of the reader item
  multi : Bool := false
  elastic : Bool := false
  key : Nat := 0
  lastKey : Nat := 0
  ringBase : Nat := 0
  ringWords : Nat := 0
  held : List (EpWord × Bool) := []            -- consumed words still held, oldest first; true: last of its message
  unread : List (List EpWord) := []            -- unread messages, each its words
  conns : List (Nat × Nat × Nat × Nat × Nat) := []  -- fabric, core, connection, received, grant
  everOpened : Bool := false
  lastGranted : Option Nat := none             -- place in `conns` of the connection granted last (R256)
  pendingOpen : List LPkt := []
  ringFullSent : Bool := false
  deriving DecidableEq, Repr

/-- Connection table entry (R252, R253, Table 9.10). -/
structure Conn where
  state : Nat := 0
  item : Nat × Nat := (0, 0)
  target : W64 := 0
  flags : W64 := 0
  credits : Nat := 0
  grant : Nat := 0
  unacked : Nat := 0
  closing : Bool := false
  opening : Nat := 0                           -- openings of the entry so far, which tell its items apart (R253, R262)
  deriving DecidableEq, Repr

/-- One logical core (chapters 6 to 9). -/
structure CoreS where
  phys : Nat := 0
  retired : Bool := false
  quantum : Nat := 32
  curQuantum : Nat := 32                       -- the quantum of the running issue, taken at its switch (R246)
  burst : Nat := 4
  issuer : Option Nat := none                  -- thread in core that holds the issue slot (R218)
  lastIssuer : Nat := 0
  consec : Nat := 0
  accA : AccSet := {}
  accB : AccSet := {}
  liveB : Bool := false
  owner : Option Nat := none
  seqStart : Option TileOp := none             -- the START of the open sequence, with its snapshot (R183)
  running : List TileOp := []                  -- taken operations in issue order, the head runs
  chunk : Nat := 0
  repeats : Nat := 0
  chosen : Bool := true                        -- tile exponent chosen (R169)
  parked : List TileOp := []
  swap : Option Drain := none
  drain : Option Drain := none
  seqRows : Nat := 0
  seqCols : Nat := 0
  seqGemv : Nat := 0
  seqRepeats : Nat := 0
  seqSat : Nat := 0
  heldSeqs : Nat := 0
  engLast : W64 := 0
  vops : List VecOp := []
  vrun : Option Nat := none                    -- bg-carrying thread whose micro-operation runs
  vecLast : W64 := 0
  eps : Tab Endpoint := []
  conns : Tab Conn := []
  spBad : Tab Bool := []                       -- scratchpad words with an uncorrectable error (R214)
  swapWait : Nat := 0
  deriving DecidableEq, Repr

/-! ## Slots, items and queues (chapters 2, 3) -/

/-- A work item: its descriptor and what its home queue die keeps of it. -/
structure Item where
  desc : Rec := 0
  qpos : Nat := 0                              -- 0 forward, 1 backward ingress queue
  recordC : Tab Nat := []                      -- commit record (R239)
  dispatched : Bool := false                   -- dispatched before (R75)
  firstDisp : Nat := 0
  posted : Nat := 0
  startNs : Option Nat := none
  window : Nat := 0
  vreq : Nat := 0
  causes : Nat := 0                            -- cause mask of Table 2.4
  dieMask : Nat := 0
  late : Bool := false
  steps : Nat := 0                             -- steps the item has used, over all its attempts (R34)
  memNear : Nat := 0
  memFar : Nat := 0
  memDies : Nat := 0                           -- memory dies that served an access of the item (R42)
  thrs : List Nat := []                        -- global threads of the running attempt
  live : List Nat := []
  undecided : Nat := 0                         -- groups committed and not yet decided
  commitIdx : Tab Nat := []                    -- last index taken per stream by the running attempt (R238)
  attempt : Nat := 0                           -- how often the item has been dispatched
  egrFirst : Nat := 0
  egrPages : Nat := 0
  egrDone : List Nat := []                     -- committed output pages
  egrWritten : Tab Nat := []                   -- output pages written, highest byte of each plus one
  track : Tab Rec := []                        -- tracking accumulations per entry (R156)
  streams : Tab Rec := []                      -- explicit streams held: offset + 1 in [63:0], base in [191:64]
  preempted : Bool := false
  frozenSince : Option Nat := none
  frozenNs : Nat := 0
  loopback : Bool := false                     -- posted by the slot's own forward egress (R55)
  counted : Bool := true                       -- its landing pages are still held (R65)
  ended : Bool := false
  gSum : Nat := 0                              -- Σ rate × ns of the lowest canary rate (R388)
  gAt : Nat := 0
  deriving DecidableEq, Repr

/-- A micro-batch opened at an ingress stream and not yet posted (R62). -/
structure OpenMb where
  head : Rec := 0
  landed : Tab Nat := []                       -- per page index, segments landed
  committed : List Nat := []
  deriving DecidableEq, Repr

/-- One ingress stream: forward, backward or key/value (R53, R56, R58). -/
structure Ingress where
  base : Nat := 0
  pages : Nat := 0
  sender : Nat := 0
  senderSlot : Nat := 0
  released : Nat := 0
  dispatchedMb : Nat := 0
  postedMb : Nat := 0
  clSent : Nat := 0
  dlSent : Nat := 0
  nextPage : Nat := 0
  hostEnd : Tab Nat := []                      -- per landing page, highest byte the host has written plus one (R459)
  opens : List OpenMb := []
  queue : List Item := []
  qseq : Nat := 0
  deriving DecidableEq, Repr

/-- An egress micro-batch (R66, R67). -/
structure EgrMb where
  desc : Rec := 0
  first : Nat := 0
  pages : Nat := 0
  seq : Nat := 0                               -- its number at the receiver, counted from bind
  page0 : Nat := 0                             -- its first page sequence number at the receiver
  headSent : Bool := false
  sent : Nat := 0
  tags : List (Nat × Nat) := []                -- TAG ranges its packets took, first and one past the last (R128)
  allSentNs : Nat := 0
  noResend : Bool := false                     -- stop-on-fault came over it (R130)
  deriving DecidableEq, Repr

/-- One egress stream (R66, R67, R59). -/
structure Egress where
  peer : Nat := 0
  peerSlot : Nat := 0
  cl : Nat := 0
  dl : Nat := 0
  commitMb : Nat := 0
  hold : Bool := false
  queue : List EgrMb := []
  seq : Nat := 0
  pageSeq : Nat := 0
  reserved : Nat := 0
  deriving DecidableEq, Repr

/-- A stash allocation (R79, R81). -/
structure StashAlloc where
  mb : Nat
  layer : Nat
  cls : Nat                                    -- 0 activation, 1 layer input
  first : Nat                                  -- first stash page, or first off-load page when spilled
  pages : Nat
  spilled : Bool := false
  spillAt : Option Nat := none                    -- its stash page while its spill is in flight
  dead : Bool := false                         -- of a killed attempt: released when its spill ends (R87)
  fetch : Option Nat := none                   -- stash page reserved for its return while it is fetched (R81)
  deriving DecidableEq, Repr

/-- The stash record of a micro-batch (R75, R79). -/
structure StashRec where
  mb : Nat
  wver : Nat
  entry : Option Nat                           -- the version it references; none where the slot had no CURRENT entry
  recompute : Bool := false
  spilledF : Bool := false
  deriving DecidableEq, Repr

/-- A weight version entry (R73): state 0 FREE, 1 STAGED, 2 CURRENT, 3 RETIRING. -/
structure Version where
  state : Nat := 0
  num : Nat := 0
  base : Nat := 0
  gib : Nat := 0
  obj : Nat := 0
  deriving DecidableEq, Repr

/-- A committed group on its way to, or at, the home queue die (R238, R239, R264). -/
structure Group where
  id : Nat
  thr : Nat
  attempt : Nat
  qpos : Nat
  ctx : Nat
  stream : Nat
  index : Nat
  pkts : List LPkt                             -- its effects in staging order, payloads read at the COMMIT
  owner : List Nat := []                       -- per packet: the operation of its write (R236, R245), the opening of its message (R262)
  sends : List (Nat × Nat × Nat) := []         -- connections, words and openings of its messages, for credits (R255)
  sent : Nat := 0
  acked : List Nat := []
  deriving DecidableEq, Repr

/-- A key/value block that waits in the relay buffer (R83). -/
structure RelayBlk where
  head : Rec
  page0 : Nat
  bytes : List Byte
  landed : Tab Nat := []                       -- per page, segments that have come (R82)
  sentAs : Option (Nat × Nat) := none          -- its number and first page at the next peer, once it is forwarded (R128)
  tags : List (Nat × Nat) := []                -- TAG ranges its packets took
  noResend : Bool := false                     -- stop-on-fault came over it (R130)
  deriving DecidableEq, Repr

/-- One stage slot (chapter 3). -/
structure SlotS where
  bound : Bool := false
  ctx : Nat := 0
  bind : Rec := 0                              -- Table 17.9
  image : Nat := 0
  hasImage : Bool := false
  hdr : Rec := 0                               -- Table 8.7
  work : Rec := 0                              -- three declared-work records
  res : Rec := 0                               -- Table 3.1
  imgCtx : Nat := 0
  ing : Tab Ingress := []                      -- 0 forward, 1 backward, 2 key/value
  egr : Tab Egress := []                       -- 0 forward, 1 backward
  egrUsed : List Nat := []                     -- egress region pages reserved or in use
  egrNext : Nat := 0
  fwd : Option Item := none
  bwd : Option Item := none
  vers : Tab Version := []
  stash : List StashAlloc := []
  stashRecs : List StashRec := []
  stashPeak : Nat := 0
  stashWait : List (Nat × Nat × Nat × Nat) := []       -- thread, layer, class, pages of every waiting STASH_ALLOC
  stashPend : List (Nat × Nat × Nat × Nat) := []       -- the same of allocations that wait for a spill
  stashFind : List (Nat × Nat × Nat) := []             -- thread, layer, class of every waiting STASH_FIND
  holdSince : Nat := 0
  relay : List RelayBlk := []
  transit : List Group := []
  published : List Group := []
  groupNext : Nat := 0
  phase : Tab Nat := []
  phaseAt : Nat := 0
  itemsEnd : Nat := 0
  itemsExpect : Nat := 0
  optEnded : Bool := false
  optPosted : Bool := false
  optWait : Bool := false                      -- its descriptor waits for an entry of the backward ingress queue (R53, R78)
  grantDirty : Bool := false
  lastEnd : Tab Nat := []                      -- end event of the previous item per kind (R29)
  reserved : Bool := false                     -- thread reservations held (R217)
  deriving DecidableEq, Repr

/-- Admitted window of one slot and kind (R29, R47). -/
structure DlWin where
  w : Nat := 0
  vreq : Nat := 0
  listed : Bool := false
  deriving DecidableEq, Repr

/-! ## Synchronisation objects and sumps (chapter 9) -/

/-- Synchronisation object (R273, Table 9.13). -/
structure SyncObj where
  ctr : W64 := 0
  threshold : BitVec 32 := 0
  armed : Bool := false
  fired : Bool := false
  owner : Nat := 0x1FF
  binding : Nat := 0
  index : Nat := 0
  deriving DecidableEq, Repr

/-- A WAIT held in the waiter table (R276). -/
structure Waiter where
  obj : Nat
  threshold : W64
  pkt : LPkt
  deriving DecidableEq, Repr

/-- A sump session (R268, R269). -/
structure SumpSess where
  openF : Bool := false
  hdr : Rec := 0
  added : Nat := 0
  range : Bool := false
  nonfin : Bool := false
  delivering : Bool := false
  tags : List Nat := []
  writes : Nat := 0                            -- local delivery writes that wait at a memory die
  held : Bool := false                         -- the delivery waits to read its forward header
  deriving DecidableEq, Repr

/-- A sump engine (R266). -/
structure SumpEng where
  acc : Tab Cell := []
  sess : Tab SumpSess := []
  deriving DecidableEq, Repr

/-! ## Links (chapter 4) -/

/-- Port states of Table 4.15. -/
inductive PState where
  | down | training | hello | quarantine | absent | active | narrow | dark | dead
  deriving DecidableEq, Repr

/-- A flit as the replay buffer keeps it: header type and class, payload, and the packet it belongs to (R99, R127). -/
structure Flit where
  ftype : Nat
  bclass : Nat
  payload : List Byte
  src : Nat := 0                               -- the packet it belongs to: SRC, TAG, PKIND, FLOW
  tag : Nat := 0
  kind : Nat := 0
  flow : Nat := 0
  ret : Nat × Nat := (0, 0)                    -- CRCLS and CRCNT it went with (R98)
  deriving DecidableEq, Repr

/-- A packet on its way out of a port: flits not yet sent, and whether a first flit has gone. -/
structure TxPkt where
  pkt : LPkt
  sub : Bool
  half : Bool
  left : List Flit
  started : Bool := false
  cutFrom : Option (Nat × Nat) := none         -- ingress port and class while its end has not come (R106)
  deriving DecidableEq, Repr

/-- One physical port (R118, R135). -/
structure Port where
  state : PState := .down
  width : Nat := 0
  rate64 : Bool := false
  logical : Nat := 0
  qreason : Nat := 0
  trainFails : Nat := 0
  enteredNs : Nat := 0
  stopOnFault : Bool := false
  acceptSwap : Bool := false
  v8 : Bool := false
  minVersion : Nat := 0
  retrainUs : Nat := 100
  drainUs : Nat := 20
  lanemap : Rec := 0
  peerSerial : Nat := 0
  peerPort : Nat := 0
  version : Nat := 0
  peerAddr : Nat := 0
  peerEpoch : Nat := 0
  planned : Option (Nat × Nat) := none         -- serial and port; none: unused
  plannedAfter : Option (Option (Nat × Nat)) := none   -- named by DARK for after the window; an unused entry names nobody
  rtt : Nat := 0
  darkLeft : Nat := 0
  darkLen : Nat := 0
  darkPending : Bool := false
  darkNoticeOut : Bool := false
  txSeq : BitVec 32 := 0
  oldest : BitVec 32 := 0
  replayFrom : Option (BitVec 32) := none
  replayBuf : List Flit := []
  rxSeq : BitVec 32 := 0
  nakPending : Bool := false
  nakWait : Bool := false                      -- a NAK has gone and no valid flit has come since (R98)
  replayNs : List Nat := []                    -- moments of the latest replays (R110)
  txWait : Tab (List TxPkt) := []              -- packets queued for the port, per buffer class
  credits : Tab Nat := []                      -- per buffer class, credits spent (2,048 held at the start)
  rxOcc : Tab Nat := []
  crRet : Tab Nat := []                        -- link credits to return per class
  partialRx : Tab (List Byte) := []            -- packet being received per class, its payload bytes
  ctlOut : Option (Nat × Bool) := none         -- outstanding LINK_CTL request: offered width
  peerOffer : Option Nat := none               -- width the peer's LINK_CTL offered in this training (R109)
  hostMap : Rec := 0                           -- lane map the host gave, 0 when none (R107)
  replayEnd : BitVec 32 := 0                   -- number after the last flit the latest replay resends (R98)
  rttNew : Bool := false                       -- the round trip was measured and not used yet (R133)
  fromDark : Bool := false                     -- trains after a dark window (R130)
  cut : Tab Nat := []                          -- per class, the packet being received: 1 is being forwarded, 2 is not to go on (R106)
  accepted : Bool := false                     -- our check of R113 passed
  lastHello : Option Hello := none             -- hello received since HELLO was entered, or the one that quarantined
  peer : Option Hello := none                  -- hello accepted last, kept through a retrain (R110, R116)
  lastReplay : Option Nat := none              -- moment of the latest replay
  fastRetrain : Bool := false
  retrainFrom : Option Nat := none             -- moment the port left ACTIVE or NARROW (R110)
  bootServe : Bool := false
  bootOpen : Bool := false                     -- carries the boot relay in HELLO or QUARANTINE (R436)
  deriving DecidableEq, Repr

/-- A route entry (Table 4.9) with its bucket tables and its alternate-in-use mark (R120, R123). -/
structure Route where
  ent : Rec
  pri : List Nat := []
  alt : List Nat := []
  onAlt : Bool := false                        -- at A.Q
  onAltB : Bool := false                       -- at B.Q
  deriving DecidableEq, Repr

/-- Who waits for the answer of an outstanding request (R127, R264). -/
inductive Who where
  | sync (thr : Nat)
  | mem (thr : Nat) (bg : Nat) (off : Nat)
  | effect (slot : Nat) (group : Nat) (eff : Nat)
  | chOpen (core conn : Nat)
  | chClose (core conn : Nat)
  | sump (half engine sess : Nat)
  | doneObj
  | seal (ctx : Nat) (stage : Nat)
  | relay (key : Nat)
  | capture (step : Nat) (journal : Option Nat)
  | captureObj (what step : Nat)
  | reshard (ctx : Nat)
  | stashSpill (slot mb : Nat)
  | stashFetch (slot mb : Nat)
  deriving DecidableEq, Repr

/-- An outstanding request (R127, R128). -/
structure Req where
  pkt : LPkt
  reissues : Nat := 0
  who : Who
  retry : Bool := false
  via : Nat := 0                               -- port it left by (R135)
  deriving DecidableEq, Repr

/-! ## Memory dies (chapter 10) -/

/-- One memory stack (R281, R314). `state` as in Table 10.12. -/
structure Stack where
  state : Nat := 0
  chUp : Nat := 0
  ident : W64 := 0
  marks : List (Nat × Nat × Nat) := []         -- channel, rank, pin
  repairs : List Rec := []                     -- row repairs in force, Table 10.5
  repairing : List (Nat × Nat × Nat × Nat) := []
  temp : Nat := 0
  throttled : Bool := false
  hotF : Bool := false
  refresh2x : Bool := false
  scrubHours : Nat := 24
  scrubPos : Nat := 0
  hot : W64 := 0
  ce : Nat := 0                                -- corrected codewords of the interval
  pinCe : Tab Nat := []                        -- corrections of the pass per channel, rank, pin
  rowCe : Tab Nat := []                        -- corrections of the pass per row
  hotRun : Nat := 0
  hotCh : Nat := 0
  throttleAt : Nat := 0                        -- moment up to which throttled time is counted (R306)
  ceEvNs : Tab Nat := []                       -- when EV_MD_CE was last raised per channel, plus one (R287)
  poisonAll : Bool := false                    -- every line poisoned but those listed otherwise (R311)
  undefAll : Bool := false                     -- every line's contents undefined but those listed otherwise (R311)
  dirtyAll : Bool := false                     -- every dirty bit set but those listed otherwise (R310, R311)
  storm : Bool := false                        -- a correctable-error storm is in progress (R291)
  part : Tab (Nat × Nat) := []                 -- RATE, BURST per partition
  usedLines : Tab Nat := []                    -- USE per partition
  deriving DecidableEq, Repr

/-- A region (Table 17.10). -/
structure Region where
  base : Nat
  pages : Nat
  owner : Nat
  partition : Nat
  perm : Nat
  role : Nat
  deriving DecidableEq, Repr

/-- A line of a memory-side cache (R296). -/
structure CLine where
  line : Nat
  dirty : Bool
  sticky : Bool
  deriving DecidableEq, Repr

/-- An access that waits at a memory die: of one line, a remote request with the errors it meets, or a device write for a context,
with the engine and session whose delivery it belongs to (R271). -/
inductive MemAcc where
  | line (a : LineAcc)
  | remote (k : LPkt) (errs : List (Nat × LineErr))
  | write (ctx a : Nat) (bs : List Byte) (hint : Nat) (sump : Option (Nat × Nat))
  deriving DecidableEq, Repr

/-- One memory die: its cache sets, most recent line first, and its tensor table (R296, R308). -/
structure MemDie where
  cache : Tab (List CLine) := []
  tensors : Tab (Nat × Nat × Nat) := []        -- stack, first page, pages
  changed : Tab Nat := []
  written : Tab Nat := []
  accepting : Bool := true
  initialising : Bool := false
  orderlyAt : Option Nat := none
  waiting : List MemAcc := []                  -- accesses that wait, in arrival order (R293, R294, R310)
  expired : Bool := false                      -- 100 ms have passed since the orderly reset began (R310)
  deriving DecidableEq, Repr

/-! ## Package fabric (chapter 11) -/

/-- A die-to-die bundle (R328, R329). -/
structure Bundle where
  spares : List (Nat × Nat) := []              -- failed wire, spare wire
  failed : List Nat := []
  oos : Bool := false
  deriving DecidableEq, Repr

/-- A packet its sender keeps until the receiver answers (R322, R327). -/
structure HopPkt where
  sent : Bool
  words : List W64
  revoked : Nat := 0                           -- revocations in a row (R327)
  deriving DecidableEq, Repr

/-- One direction of a group of bundles (R317, R329, R330). -/
structure DGroup where
  failedF : Bool := false
  resend : Nat := 0                            -- RESEND answers in a row (R322)
  kept : List HopPkt := []                     -- packets kept until the receiver answers: those sent, then those parked
  sentAt : Nat := 0                            -- position in the stream of the next word it carries (R317)
  rcvdAt : Nat := 0                            -- position of the next word its receiving router takes (R317)
  rewound : Bool := false                      -- the last packet was rewound for its CRC (R341)
  retestNs : Nat := 0
  retesting : Bool := false
  bundles : Tab Bundle := []                   -- by number within the group
  deriving DecidableEq, Repr

/-- A crossing between clockless logic and a clocked island (R331): which of its sides signal ready. -/
structure Crossing where
  clocked : Bool := true
  clockless : Bool := true
  deriving DecidableEq, Repr

/-- One die (R13, R334). -/
structure Die where
  stepMajor : Nat := 0
  stepMinor : Nat := 0
  feature : Nat := 0
  pkgFeature : Nat := 0
  admitted : Bool := false
  state : Nat := 0
  orderly : Bool := false
  resets : Nat := 0
  cause : Nat := 0
  enteredNs : Nat := 0
  pktBurst : Nat := 8
  memBurst : Nat := 0
  revokeGuard : Nat := 8
  skew : Int := 0
  canary : Tab W64 := []
  passing : Nat := 0
  enabled : Nat := 0
  logMap : Tab Nat := []
  coresEnabled : Nat := 0
  junction : Tab Nat := []                     -- last reading of each sensor, °C
  highest : Nat := 0                           -- highest junction since package start
  throttle : Bool := false                     -- rails fall for a junction above 95 °C (R476)
  over105 : Bool := false                      -- compute domains stand at 0.55 V for a junction above 105 °C (R476)
  ce : Nat := 0
  storm : Bool := false
  groups : Tab DGroup := []
  xings : Tab Crossing := []                   -- crossings by island, numbered as CLOCK_LOSS does (R331)
  pufOk : Bool := false
  deriving DecidableEq, Repr

/-! ## Contexts and steps (chapters 13, 14) -/

/-- Sequence of a serving context (R392 to R395). -/
structure Seq where
  id : Nat
  stream : Nat
  lc : Bool
  prompt : Nat
  tokens : Nat
  pages : List Nat
  state : Nat := 2
  leaveAt : Option Nat := none
  parkedOnce : Bool := false
  entry : Nat := 0
  deriving DecidableEq, Repr

/-- A pending join (R392). -/
structure Join where
  id : Nat
  stream : Nat
  lc : Bool
  prompt : Nat
  roundAt : Nat
  reply : Option (Nat × Nat) := none           -- session place and sequence number to answer
  deriving DecidableEq, Repr

/-- Step state of a context (R355 to R365). `state`: 0 IDLE … 4 ABORTED. -/
structure StepS where
  state : Nat := 0
  num : Nat := 0
  begun : Bool := false
  committed : Nat := 0
  policy : Rec := 0
  hasPolicy : Bool := false
  cursors : List (Nat × Nat × Nat) := []
  lsExp : Int := 0
  lsGood : Nat := 0
  lsOver : Nat := 0
  prevVerdict : Nat := 0
  nonfinite : Bool := false
  nonfinRaised : Bool := false
  ready : Bool := false
  voted : Bool := false
  verdict : Nat := 0                           -- verdict held and not applied
  verdictIn : Bool := false
  children : Nat := 0
  timedOut : Bool := false
  limitHit : Bool := false
  aborted : Bool := false
  localCause : Nat := 0
  openNs : Nat := 0
  sealNs : Nat := 0                            -- when it entered SEALING
  lastSeal : Option Nat := none                -- SEAL_NS of the step before (R405)
  streams : Tab Nat := []                      -- open values of explicit streams (R357)
  usedStreams : List Nat := []
  accRep0 : Nat := 0
  accSat0 : Nat := 0
  vecOvf0 : Nat := 0
  replyCommit : Option (Nat × Nat) := none
  replyAbort : List (Nat × Nat) := []
  causeSent : Bool := false
  deriving DecidableEq, Repr

/-- Tally of a context (Table 14.7). -/
structure Tally where
  itemsRun : Nat := 0
  queueWait : Nat := 0
  swapWait : Nat := 0
  beLcWaits : Nat := 0
  preemptKills : Nat := 0
  revokes : Nat := 0
  swapsOut : Nat := 0
  actual : Nat := 0
  expected : Nat := 0
  parkedRounds : Nat := 0
  saveBytes : Nat := 0
  deriving DecidableEq, Repr

/-- A chunk of a reshard: its move entry, its index in the entry, its staging buffer. -/
structure Chunk where
  entry : Nat
  idx : Nat
  buf : Nat
  deriving DecidableEq, Repr

/-- A reshard (R348 to R352). -/
structure Reshard where
  given : Bool := false                        -- accepted in the open step
  active : Bool := false                       -- its moves still run
  failed : Bool := false
  complete : Bool := false
  hdr : Rec := 0
  moves : List Rec := []
  rebinds : List Rec := []
  next : Nat × Nat := (0, 0)                   -- entry and chunk to read next
  count : Nat := 0                             -- chunks read so far
  writing : Option Chunk := none
  staged : Option Chunk := none
  out : Nat := 0                               -- packets of the chunk being written not yet answered
  again : Bool := false                        -- one of them was answered RETRY or lost
  tries : Nat := 0                             -- how often the chunk has failed so
  doneSent : List Nat := []                    -- destinations signalled
  planAt : Nat := 0                            -- address and bytes of the plan (R458)
  planLen : Nat := 0
  deriving DecidableEq, Repr

/-- Context states of Table 14.14. -/
inductive CState where
  | empty | loaded | ready | running | blocked | swapped | faulted
  deriving DecidableEq, Repr

/-- The matrix engine's part of a saved item on one core (R382): its accumulator sets and its sequence. -/
structure EngSave where
  core : Nat
  thr : Nat
  owned : Bool := false
  live : AccSet := {}
  start : Option TileOp := none
  parked : List TileOp := []
  held : Nat := 0
  rows : Nat := 0
  cols : Nat := 0
  gemv : Nat := 0
  repeats : Nat := 0
  sat : Nat := 0
  deriving DecidableEq, Repr

/-- One context (chapter 14). -/
structure Ctx where
  state : CState := .empty
  record : Rec := 0
  serve : Rec := 0
  lc : Bool := false
  cause : Nat := 0
  place : Nat := 0
  resident : Bool := false
  scheduled : Bool := false
  runGiven : Bool := false
  runnableSince : Option Nat := none
  enteredNs : Nat := 0
  heldState : CState := .loaded
  hasImage : Bool := false
  frozenItems : List (Nat × Nat) := []
  saved : List (Nat × Thr) := []               -- threads of a SWAPPED context by their former numbers (R382)
  savedEng : List EngSave := []
  swapping : Bool := false
  swapIn : Bool := false
  saving : Bool := false
  freezeWait : Bool := false
  preempting : Bool := false
  preemptReply : List (Nat × Nat) := []        -- PREEMPT commands that wait for order 5 of Table 14.5
  swapReply : List (Nat × Nat) := []           -- PREEMPT with SWAP commands that wait for the save
  holdDone : Bool := false
  swapByLc : Bool := false
  tally : Tally := {}
  step : StepS := {}
  reshard : Reshard := {}
  round : Nat := 0
  roundStarted : Bool := false
  roundItems : Nat := 0
  seqs : List Seq := []
  joins : List Join := []
  freePages : List Nat := []
  trackHost : List Nat := []                   -- tracking entries that the host wrote in the open step (R158)
  deriving DecidableEq, Repr

/-! ## Securing (chapter 15) -/

/-- A capture attempt (R403, R406 to R410). -/
structure Capture where
  step : Nat
  gen : Nat
  methods : List Nat                           -- per tensor: 0 static and unchanged, 1 parity, 2 journal
  par : Nat                                    -- parity of COMMITTED, which selects the buffers
  place : Tab Nat := []                        -- first payload page of a parity tensor
  copyDone : Bool := false
  out : Nat := 0                               -- parts and journal pages sent and not yet acknowledged
  pieces : Tab Nat := []                       -- bytes applied per piece (rotation × 32 + part's piece) and part
  failed : Bool := false
  stopped : Bool := false
  deriving DecidableEq, Repr

/-- A journal page a buddy holds (R409): its source, tensor, page, step and bytes. -/
structure JPage where
  fab : Nat
  tensor : Nat
  page : Nat
  step : Nat
  data : List Byte
  deriving DecidableEq, Repr

/-- The securing machinery of a device (chapter 15). -/
structure Secure where
  active : Bool := false
  ctx : Nat := 0
  hdr : Rec := 0
  members : List Nat := []
  tensors : List Rec := []
  gen : Nat := 0                               -- generation of the last complete capture
  phase : Nat := 0                             -- Table 15.10
  attempt : Option Capture := none
  ordered : Nat := 0                           -- attempts ordered since SECURE_POLICY or RESTORE
  lost0 : Nat := 0                             -- COUNT div 2^32 when every report of the previous attempt was in
  reported : Bool := true                      -- the last ordered attempt has been reported
  lastDone : Option Nat := none
  older : Option Nat := none                   -- the capture before it, while no attempt has been ordered since
  nextPlanned : Nat := 0
  interval : Nat := 0                          -- t of R405, ms
  cost : Nat := 0                              -- c of R405, ms
  capStep : Nat := 0                           -- step of the attempt the root ordered
  capOpen : Bool := false                      -- at the root: that attempt is neither complete nor abandoned
  sinceCap : Nat := 0                          -- committed steps since CAP
  stopSent : Bool := false
  stepNs : List Nat := []                      -- durations of root steps with no capture in progress, newest first
  allNs : List Nat := []                       -- durations of every root step
  attNs : List Nat := []                       -- durations of steps with the attempt in progress
  changed : Tab Nat := []                      -- pages changed since the last capture, per tensor
  fresh : Tab Bool := []                       -- tensors already captured once
  method : Tab Nat := []                       -- method in force
  overflow : Tab Bool := []                    -- tensors a buddy refused, secured by parity next
  source : Tab Nat := []                       -- last restore source
  replica : List JPage := []
  pendLog : List JPage := []
  newLog : List JPage := []
  restoring : Option Rec := none               -- the restore record in progress
  restoreReply : Option (Nat × Nat) := none
  deriving DecidableEq, Repr

/-! ## Luajo (chapter 17) -/

/-- A command that waits for its reply (R449): what its reply's header repeats and where it goes. -/
structure WaitCmd where
  seq : Nat
  opcode : Nat
  ctxF : Bool
  context : Nat
  src : Src
  deriving DecidableEq, Repr

/-- A command session (R443 to R446). -/
structure Session where
  openF : Bool := false
  id : BitVec 32 := 0
  bound : Bool := false
  ctx : Nat := 0
  keyId : Nat := 0
  kCmd : Nat := 0
  kRep : Nat := 0
  high : Nat := 0                              -- H, the highest sequence number decided or waiting (R446)
  cache : List (Nat × List Byte) := []         -- replies kept, by sequence number
  waiting : List WaitCmd := []                 -- commands that wait for their reply (R449)
  opened : Nat := 0
  lastNs : Nat := 0
  decided : Bool := false
  src : Option Src := none
  deriving DecidableEq, Repr

/-- An event of the ring (R462): number in the model's list of names, time, die, context, object, detail. -/
structure Event where
  index : Nat
  ev : Nat
  ns : Nat
  die : Nat
  ctx : Nat
  obj : Nat
  data : Nat
  deriving DecidableEq, Repr

/-- What leaves the package. -/
inductive Out where
  | pkt (port : Option Nat) (half : Bool) (sub : Bool) (p : LPkt)   -- a packet handed to a port, or to this device's own network
  | flit (port : Nat) (bytes : List Byte)
  | ctl (port : Nat) (c : LinkCtl)
  | reply (dest : Src) (bytes : List Byte)
  | udp (sport ip dport : Nat) (bytes : List Byte)                  -- a datagram of the boot or of a relay reply
  | frame (kind : Nat) (vlan : Option (BitVec 16)) (bytes : List Byte)   -- 0 ARP reply, 1 neighbour advertisement, 2 echo reply
  | heartbeat
  | tdo (bits : List Bool)
  | diePkt (die group : Nat) (words : List (Nat × W64))             -- each word with the bundle that carries it (R317)
  | hop (die group : Nat) (w : HopWord)
  | wide (die unit : Nat) (resp : Bool) (op : Nat) (words : List (List Byte × Nat))   -- a transfer's wide words with their tags (R323)
  | head (bytes : List Byte)                                       -- Ethernet, IP and UDP header of the datagram that follows (R3)
  | roce (qpn : Nat) (op : Nat) (psn : Nat) (bytes : List Byte)
  | memRead (data : List Byte) (status : Nat)
  deriving DecidableEq, Repr

/-! ## Host port and boot (chapter 16) -/

/-- A queue pair (R428, R430, R459). State 0 free, 1 ready, 2 error. -/
structure Qp where
  state : Nat := 0
  rqpn : Nat := 0
  mtu : Nat := 0                               -- path MTU in bytes
  sqPsn : Nat := 0
  rqPsn : Nat := 0
  ip : Nat := 0
  slot : Option Nat := none
  retries : Nat := 0
  rnrWait : Bool := false
  rate : Nat := 0                              -- bit/s below the line rate
  cnpAt : Option Nat := none                   -- when the last CNP was sent
  unacked : List (Nat × List Byte) := []       -- SENDs not acknowledged: PSN and contents, oldest first
  nakSent : Bool := false                      -- a NAK for a gap has gone and no packet in order has come since
  deriving DecidableEq, Repr

/-- A registered key (R430). -/
structure BulkKey where
  rkey : Nat
  base : Nat
  pages : Nat
  perm : Nat
  deriving DecidableEq, Repr

/-- The Ethernet port and the boot ROM (chapter 16). -/
structure Eth where
  up : Bool := false
  rate800 : Bool := false                      -- ETH_RATE as sampled
  relayed : Bool := false
  enteredNs : Nat := 0
  bulkPrio : Nat := 3
  cmdPrio : Nat := 4
  ip6 : Nat := 0
  ip4 : Nat := 0
  ip4Len : Nat := 0
  paused : Tab Bool := []                      -- priorities a PFC frame has paused
  held : List (Nat × Out) := []                -- what waits for a paused priority, newest first
  echoes : List Nat := []                      -- moments of the echo replies of the last second
  qps : Tab Qp := []
  keys : List BulkKey := []
  bootPath : Nat := 0
  bootPhase : Nat := 0                         -- 0 no boot runs, 1 bringing the port up, 2 announcing, 3 transferring, 4 verifying
  xid : Nat := 0
  announceS : Nat := 1                         -- seconds to the next ANNOUNCE
  serverIp : Nat := 0
  serverPort : Nat := 0
  imageLen : Nat := 0
  bundleLen : Nat := 0
  blocks : Tab (List Byte) := []               -- blocks received
  asked : List Nat := []                       -- blocks requested and not received
  relayFab : Nat := 0                          -- the neighbour that relayed last (R432, R436)
  pairingFail : Bool := false                  -- ST_PAIRING of R15
  deriving DecidableEq, Repr

/-! ## Power, start, identity and test port (chapters 18 to 20) -/

/-- Power, pins and start-up (chapter 18). -/
structure Power where
  resetLow : Bool := true                      -- RESET_N low
  pwrGood : Bool := true
  vauxOk : Bool := true                        -- VAUX feeds the always-on domain
  vinOut : Bool := false                       -- VIN, VAUX outside their operating ranges
  vauxOut : Bool := false
  held : Bool := true                          -- every die is held in reset
  thermtrip : Bool := false
  trip : W64 := 0                              -- HF_PWR_TRIP
  capW : Nat := 6200
  mean : Nat := 0                              -- mean input power over 100 µs, W
  capOver : Bool := false                      -- CAP_EXCEEDED's condition holds
  vCap : Tab Nat := []
  want : Tab Nat := []                         -- rail the loop of R40 asks for, above 0.55 V
  rate : Tab Nat := []                         -- target rate per compute domain, M steps/s
  ceiling : Tab Nat := []
  floor : Tab Nat := []
  domFaultNs : Option Nat := none              -- when a domain last faulted
  missed : Nat := 0                            -- heartbeats the standby has missed
  primaryB : Bool := false
  synced : Bool := false
  excl : Tab Nat := []                         -- cores the bundle excludes, per die (R211)
  cal : List Rec := []                         -- calibration entries of the bundle
  keySec : List Byte := []                     -- sections 6 and 7 of the bundle as received (R484)
  certSec : List Byte := []
  deriving DecidableEq, Repr

/-- Identity and firmware trust (chapter 19). -/
structure Ident where
  keySource : Nat := 0                         -- 0 A.H, 1 B.H
  certStatus : Nat := 0
  pbkReady : Bool := false
  gen : Nat := 0
  leaves : Nat := 0
  pbkSeed : Nat := 0
  fwVersion : Nat := 0
  svn : Nat := 0
  ecdsaSlot : Nat := 0
  lmsSlot : Nat := 0
  digest : Nat := 0                            -- SHA-384 of the running image's signed part
  keyDigest : Nat := 0                         -- SHA-384 of sections 6 and 7
  certDigest : Nat := 0
  fwStarts : Nat := 0
  pairing : List Rec := []                     -- pairing table and qualified stacks of the running image
  qual : List Nat := []
  opKeys : List (List Byte) := []
  loading : Option (List Byte × (Nat × Nat)) := none   -- image under verification and the FW_LOAD that waits
  attests : List ((Nat × Nat) × List Byte) := []       -- waiting ATTEST commands and their nonces
  deriving DecidableEq, Repr

/-- The IEEE 1149.1 test access port (R517 to R520): the instruction's code of Table 20.10, and the 602 boundary cells. -/
structure Tap where
  inst : Nat := 1
  cells : Tab Bool := []
  deriving DecidableEq, Repr

/-! ## The package -/

/-- Everything the block holds but the queue of waiting commands. -/
structure Pkg where
  now : Nat := 0                               -- package nanosecond count of the primary headframe (R27)
  free : Nat := 0                              -- the model's own: how many free values have been taken
  mem : List Host.Cell := []                   -- 48-bit device address space (R282), bytes
  poison : Tab Bool := []                      -- lines whose POISON (R286) differs from their stack's poisonAll
  tagBad : Tab Bool := []                      -- lines undefined (R297) unlike their stack's undefAll
  dirtyPg : Tab Bool := []                     -- 64 KiB pages whose dirty bit (R307) differs from their stack's dirtyAll
  flags : Tab W64 := []                        -- W1C status registers, by register and instance (R340)
  ctrs : Tab Nat := []                         -- CNT_ counters, by counter and instance
  dies : Tab Die := []
  pkgState : Nat := 0                          -- R451: 0 BOOTSTRAP …
  pkgEntered : Nat := 0                        -- low 32 bits of the interval counter at its last change (R466)
  authNs : Option Nat := none                  -- when EV_LJ_AUTH_FAIL was last raised (R442)
  cores : Tab CoreS := []
  thrs : Tab Thr := []
  slots : Tab SlotS := []
  dl : Tab DlWin := []
  dlRecs : List Rec := []                      -- newest first (R45)
  syncs : Tab SyncObj := []
  waiters : List Waiter := []
  sumps : Tab SumpEng := []
  ports : Tab Port := []
  fabAddr : Nat := 0
  epoch : Nat := 0
  planHash : Nat := 0
  topoSet : Bool := false
  degraded : Bool := false                     -- DEGRADED_START
  respLimit : Nat := 1000
  routes : List Route := []
  inbox : List (Nat × LPkt) := []              -- the newest packets delivered here, newest first, with the port each came by (R135)
  transitQ : List (Option Nat × Bool × Bool × LPkt) := []   -- packets that wait for a usable port (R123): ingress, half, sub-lane
  reqs : Tab (Option Req) := []                -- outstanding requests by TAG (R127)
  nextTag : Nat := 1
  stackTab : Tab Stack := []
  memDies : Tab MemDie := []
  regions : List Region := []
  seam : Tab DGroup := []                      -- groups of the seam stations: to the other half's, then to each die (R315)
  seamTab : Tab (List Nat) := []               -- by source half: bucket table over the in-service seam groups (R316)
  admittedBy : Nat := 0                        -- pairing entry that admitted the package (R339)
  dramLost : Bool := false
  ctxs : Tab Ctx := []
  swapHold : Nat := 100
  secure : Secure := {}
  sessions : Tab Session := []
  undecided : Nat := 0                         -- commands accepted and not decided (R447)
  events : List Event := []                    -- newest first, at most 16,384
  eventIdx : Nat := 0
  eventLost : Nat := 0
  holdover : Bool := false
  refEthLost : Bool := false
  clkStop : Option Nat := none                 -- moment the interval counters lost their clock (R17)
  clkLost : Nat := 0                           -- time they have stood
  aHStep : Option Nat := none                  -- A.H's STEP_MAJOR as the last start read it; before it, that of the part (R6, R517)
  lnkLost : Tab Bool := []
  eth : Eth := {}
  pwr : Power := {}
  ident : Ident := {}
  tap : Tap := {}
  out : List Out := []                         -- what has left the package, newest first
  deriving DecidableEq, Repr

/-- Reasons a step stops with a fault. The model raises none: every fault of the spec is taken as a next
state (R245, R386), so the type has one constructor that no meaning answers with. -/
inductive Fault where
  /-- Raised by nobody; kept so that the type is inhabited. Safe. -/
  | unreachable
  deriving DecidableEq, Repr

/-- Reasons a command is refused. -/
inductive Refusal where
  /-- Raised by an arm of exec whose command has no meaning yet. Safe. -/
  | notModelled (mnemonic : String)
  deriving DecidableEq, Repr

/-- The block with its first-in first-out queue of waiting commands. -/
structure State where
  pending : List Instr := []
  pkg : Pkg := {}
  deriving DecidableEq, Repr

/-- The package as the spec gives it right after reset: every register at its Reset column, memory with
nothing listed, no command waiting. Values the spec does not give are named in the assumption log. -/
def State.reset : State := {}

end Sys2Proof.Machine
end

