-- ==== Sys2Proof/Machine/Names.lean ====
section
/-! DEFINITION. The names of counters, events and W1C status registers, and the statuses of Luajo replies. -/

namespace Sys2Proof.Machine

/-- Counters of `READ_COUNTERS` (R461), under the names the chapters give. `dlCause` takes the cause code in its instance. -/
inductive Ctr where
  | chClosedDrop | chRefused | chRingWords | chStaleDrop | chStall | coreFault
  | coreIcacheMiss | coreSpCorr | coreIssued | coreSwitch | ctxFreezeKill | ctxPreempt
  | ctxSwapIn | ctxSwapOut | dlBreach | dlCauseNone | dlExcused | dlMet
  | dlProgram | dlRecordLost | engBusySteps | engExpLimit | engRepeat | engRevoke
  | engSatCells | engSwapWaitSteps | engTseq | ethFragDrop | ethPortDrop | ethRelayDenied
  | ethRelayLost | ethPfc | ethCnp | evLost | fabCorr | fabResend | fabRetest | fabRevoke | fabXingResample
  | fabRewind | fabUncorr | fmtTernInvalid | hfTakeover
  | idAttest | idFwReject | idPbkGen | ldCrcErr | ldEpochDrop | ldFecCorr
  | ldFecUncorr | ldHopsDrop | ldLateResp | ldPathLost | ldReissue | ldReplay
  | ldRetrain | ljAuthFail | ljBusy | ljCommands | ljDropHeader | ljRepeat
  | ljRepeatPending | ljSeqStale | mdCacheHit | mdCacheMiss | mdCe | mdHotspot
  | mdKeepDenied | mdMiscorrect | mdPinCe | mdRemoteRetry | mdRepairs | mdScrubLines
  | mdTagErr | mdThrottleNs | mdUe | pwrCapNs | pwrDomainFault | pwrThrottleNs
  | qdBadHead | qdCreditViol | qdEffectGap | qdEffectPublish | qdEffectSuppress | qdRecomputeMb
  | qdSenderDrop | qdSpillPages | qdStaleDrop | qdStashHoldNs | secAbandoned | secCaptures
  | secJournalPages | secParityBytes | secRestores | secStalePart | serveJoined | serveLeft
  | serveParked | stepAborted | stepCommitted | stepForced | stepNonfinite | stepVoteTimeout
  | sumpElems | sumpMismatch | sumpRange | sumpRefused | sumpSat | sumpStale
  | syncDenied | syncOps | syncRetry | vecBusySteps | vecElements | vecInfOut
  | vecInvalid | vecNanOut | vecOverflow | vecRevoke | vecSat | dlCause
  deriving DecidableEq, Repr

/-- Events (R461), under the names the chapters give. -/
inductive Ev where
  | cdCoreMap | chRingFull | chStall | coreFault | coreRetired | ctxState
  | ctxSwap | deadlineBreach | deadlineLate | deadlineMiss | ethLink | fabBundleMap
  | fabCeStorm | fabDieRejoin | fabDieReset | fabGroupNarrow | fabPairing | fabRefclkLoss
  | hbChanged | hbEntryBad | hfTakeover | ldLanemap | ldLongRtt | ldNarrow
  | ldPathLost | ldPlanUnmet | ldPortState | ldQuarantine | ldRemap | ldRouteAlt
  | ldRoutePrimary | ldStop | ljAuthFail | mdBadAddress | mdCe | mdCeStorm
  | mdPinMark | mdPinMarkFull | mdPoisonConsumed | mdRepairBad | mdRepairFull | mdRowRepair
  | mdStackFailed | mdStackLost | mdStackUnqualified | mdTagErr | mdUe | memHotspot
  | pkgFloor | pkgState | qdBadHead | qdCreditViol | reshardDone | reshardFail
  | secureAbandon | secureDone | secureOverflow | secureRewind | serveJoined | serveParked
  | stashExhausted | stepEnd | stepForced | stepNonfinite | stepVoteTimeout | sumpMismatch
  | sumpRefused | syncDenied
  deriving DecidableEq, Repr

/-- W1C status registers (R340). -/
inductive FlagReg where
  | dlStatus | portStatus | engStatus | vecStatus | coreStatus | slotStatus | sumpStatus | mdStatus
  | fabStatus | schedStatus | secStatus | ethStatus | ljStatus | pwrStatus
  deriving DecidableEq, Repr

/-- ST_BAD_LENGTH. -/
def stBadLength : Nat := 0x0101
/-- ST_BAD_OPCODE. -/
def stBadOpcode : Nat := 0x0102
/-- ST_BAD_PARAM. -/
def stBadParam : Nat := 0x0103
/-- ST_RESERVED. -/
def stReserved : Nat := 0x0104
/-- ST_RANGE. -/
def stRange : Nat := 0x0106
/-- ST_BAD_REGISTER. -/
def stBadRegister : Nat := 0x0107
/-- ST_REG_VALUE. -/
def stRegValue : Nat := 0x0108
/-- ST_FORMAT_PAIR. -/
def stFormatPair : Nat := 0x0110
/-- ST_IMAGE_FORMAT. -/
def stImageFormat : Nat := 0x0111
/-- ST_IMAGE_FEATURE. -/
def stImageFeature : Nat := 0x0112
/-- ST_RESHARD_FORMAT. -/
def stReshardFormat : Nat := 0x0113
/-- ST_SEAL_TREE. -/
def stSealTree : Nat := 0x0114
/-- ST_CONTEXT_FORMAT. -/
def stContextFormat : Nat := 0x0115
/-- ST_SECURE_FORMAT. -/
def stSecureFormat : Nat := 0x0116
/-- ST_ROUTE_FORMAT. -/
def stRouteFormat : Nat := 0x0117
/-- ST_TOPOLOGY_FORMAT. -/
def stTopologyFormat : Nat := 0x0118
/-- ST_BAD_REF. -/
def stBadRef : Nat := 0x0119
/-- ST_BAD_STATE. -/
def stBadState : Nat := 0x0201
/-- ST_REG_REFUSED. -/
def stRegRefused : Nat := 0x0202
/-- ST_SLOT_BOUND. -/
def stSlotBound : Nat := 0x0210
/-- ST_SLOT_ACTIVE. -/
def stSlotActive : Nat := 0x0211
/-- ST_STEP_SEQUENCE. -/
def stStepSequence : Nat := 0x0212
/-- ST_STEP_COMMITTED. -/
def stStepCommitted : Nat := 0x0213
/-- ST_SEQ_EXISTS. -/
def stSeqExists : Nat := 0x0214
/-- ST_SEQ_UNKNOWN. -/
def stSeqUnknown : Nat := 0x0215
/-- ST_PARKED. -/
def stParked : Nat := 0x0216
/-- ST_PAIRING. -/
def stPairing : Nat := 0x0217
/-- ST_RESHARD_PENDING. -/
def stReshardPending : Nat := 0x0218
/-- ST_RESHARD_ACTIVE. -/
def stReshardActive : Nat := 0x0219
/-- ST_SECURE_BUSY. -/
def stSecureBusy : Nat := 0x021a
/-- ST_SECURE_ROOT. -/
def stSecureRoot : Nat := 0x021b
/-- ST_REGION_IN_USE. -/
def stRegionInUse : Nat := 0x021c
/-- ST_NO_PROGRAM. -/
def stNoProgram : Nat := 0x021d
/-- ST_ROUTE_TABLE_FULL. -/
def stRouteTableFull : Nat := 0x0301
/-- ST_SESSION_FULL. -/
def stSessionFull : Nat := 0x0302
/-- ST_REGION_LIMIT. -/
def stRegionLimit : Nat := 0x0303
/-- ST_QP_LIMIT. -/
def stQpLimit : Nat := 0x0304
/-- ST_BUSY. -/
def stBusy : Nat := 0x0305
/-- ST_CORE_UNAVAILABLE. -/
def stCoreUnavailable : Nat := 0x0310
/-- ST_VERSION_FULL. -/
def stVersionFull : Nat := 0x0311
/-- ST_STASH_TOO_SMALL. -/
def stStashTooSmall : Nat := 0x0312
/-- ST_REGION_TOO_SMALL. -/
def stRegionTooSmall : Nat := 0x0313
/-- ST_THREADS_FULL. -/
def stThreadsFull : Nat := 0x0314
/-- ST_STACK_UNAVAILABLE. -/
def stStackUnavailable : Nat := 0x0315
/-- ST_REGION_OVERLAP. -/
def stRegionOverlap : Nat := 0x0316
/-- ST_PARTITION_OVERCOMMIT. -/
def stPartitionOvercommit : Nat := 0x0317
/-- ST_CONTEXT_LIMIT. -/
def stContextLimit : Nat := 0x0318
/-- ST_OBJECTS_UNAVAILABLE. -/
def stObjectsUnavailable : Nat := 0x0319
/-- ST_KV_POOL_SMALL. -/
def stKvPoolSmall : Nat := 0x031a
/-- ST_SEQ_TABLE_FULL. -/
def stSeqTableFull : Nat := 0x031b
/-- ST_SAVE_AREA_SMALL. -/
def stSaveAreaSmall : Nat := 0x031c
/-- ST_SECURE_SPACE. -/
def stSecureSpace : Nat := 0x031d
/-- ST_HOST_PORT_DOWN. -/
def stHostPortDown : Nat := 0x031e
/-- ST_VERSION_OBJECTS. -/
def stVersionObjects : Nat := 0x031f
/-- ST_DEADLINE_INFEASIBLE. -/
def stDeadlineInfeasible : Nat := 0x0401
/-- ST_DEADLINE_UNDECLARED. -/
def stDeadlineUndeclared : Nat := 0x0402
/-- ST_DEADLINE_SHARED. -/
def stDeadlineShared : Nat := 0x0403
/-- ST_DIE_UNAVAILABLE. -/
def stDieUnavailable : Nat := 0x0501
/-- ST_PATH_LOST. -/
def stPathLost : Nat := 0x0520
/-- ST_RESHARD_FAILED. -/
def stReshardFailed : Nat := 0x0521
/-- ST_STEP_NONFINITE. -/
def stStepNonfinite : Nat := 0x0522
/-- ST_STEP_ABORTED. -/
def stStepAborted : Nat := 0x0523
/-- ST_CAPTURE_UNAVAILABLE. -/
def stCaptureUnavailable : Nat := 0x0524
/-- ST_GROUP_EXHAUSTED. -/
def stGroupExhausted : Nat := 0x0525
/-- ST_SEAL_MISMATCH. -/
def stSealMismatch : Nat := 0x0526
/-- ST_SEQ_STALE. -/
def stSeqStale : Nat := 0x0601
/-- ST_NOT_PERMITTED. -/
def stNotPermitted : Nat := 0x0602
/-- ST_AUTH_KEY. -/
def stAuthKey : Nat := 0x0603
/-- ST_FW_SIGNATURE. -/
def stFwSignature : Nat := 0x0604
/-- ST_PLAN_UNMET. -/
def stPlanUnmet : Nat := 0x0701

end Sys2Proof.Machine
end

