-- ==== Sys2Proof/Machine/Ops.lean ====
section
/-! DEFINITION. Named operations over the package: its tables, memory, counters, flags, events, free values,
packets. Each is the one place its rule is coded. -/

namespace Sys2Proof.Machine

/-- Reset value of port k: it carries the logical port of its own number (R136). -/
def portDflt (k : Nat) : Port := { logical := k }

/-- Index of a die within its half. -/
def dieLocal (d : Nat) : Nat := d % 16
/-- Kind of a die (R13): 0 compute, 1 memory, 2 link, 3 queue, 4 headframe. -/
def dieKind (d : Nat) : Nat :=
  if d % 16 < 8 then 0 else if d % 16 < 12 then 1 else if d % 16 < 14 then 2 else if d % 16 = 14 then 3 else 4
/-- Reset value of die d: the 32-line memory burst stands on memory dies only (chapter 11). -/
def dieDflt (d : Nat) : Die := { memBurst := if dieKind d = 1 then 32 else 0 }

/-- The thread of number k (global thread). -/
def Pkg.thr (p : Pkg) (k : Nat) : Thr := tabGet ({} : Thr) p.thrs k
/-- Replace it. -/
def Pkg.setThr (p : Pkg) (k : Nat) (v : Thr) : Pkg := { p with thrs := tabSet ({} : Thr) p.thrs k v }
/-- Change it. -/
def Pkg.modThr (p : Pkg) (k : Nat) (f : Thr → Thr) : Pkg := p.setThr k (f (p.thr k))
/-- The core of number k (global core). -/
def Pkg.core (p : Pkg) (k : Nat) : CoreS := tabGet ({} : CoreS) p.cores k
/-- Replace it. -/
def Pkg.setCore (p : Pkg) (k : Nat) (v : CoreS) : Pkg := { p with cores := tabSet ({} : CoreS) p.cores k v }
/-- Change it. -/
def Pkg.modCore (p : Pkg) (k : Nat) (f : CoreS → CoreS) : Pkg := p.setCore k (f (p.core k))
/-- The stage slot of number k (slot). -/
def Pkg.slot (p : Pkg) (k : Nat) : SlotS := tabGet ({} : SlotS) p.slots k
/-- Replace it. -/
def Pkg.setSlot (p : Pkg) (k : Nat) (v : SlotS) : Pkg := { p with slots := tabSet ({} : SlotS) p.slots k v }
/-- Change it. -/
def Pkg.modSlot (p : Pkg) (k : Nat) (f : SlotS → SlotS) : Pkg := p.setSlot k (f (p.slot k))
/-- The synchronisation object of number k (object). -/
def Pkg.sync (p : Pkg) (k : Nat) : SyncObj := tabGet ({} : SyncObj) p.syncs k
/-- Replace it. -/
def Pkg.setSync (p : Pkg) (k : Nat) (v : SyncObj) : Pkg := { p with syncs := tabSet ({} : SyncObj) p.syncs k v }
/-- Change it. -/
def Pkg.modSync (p : Pkg) (k : Nat) (f : SyncObj → SyncObj) : Pkg := p.setSync k (f (p.sync k))
/-- The sump engine of number k (half × 16 + engine). -/
def Pkg.sumpEng (p : Pkg) (k : Nat) : SumpEng := tabGet ({} : SumpEng) p.sumps k
/-- Replace it. -/
def Pkg.setSumpEng (p : Pkg) (k : Nat) (v : SumpEng) : Pkg := { p with sumps := tabSet ({} : SumpEng) p.sumps k v }
/-- Change it. -/
def Pkg.modSumpEng (p : Pkg) (k : Nat) (f : SumpEng → SumpEng) : Pkg := p.setSumpEng k (f (p.sumpEng k))
/-- The physical port of number k (port). -/
def Pkg.port (p : Pkg) (k : Nat) : Port := tabGet (portDflt k) p.ports k
/-- Replace it. -/
def Pkg.setPort (p : Pkg) (k : Nat) (v : Port) : Pkg := { p with ports := tabSet (portDflt k) p.ports k v }
/-- Change it. -/
def Pkg.modPort (p : Pkg) (k : Nat) (f : Port → Port) : Pkg := p.setPort k (f (p.port k))
/-- The die of number k (die index). -/
def Pkg.die (p : Pkg) (k : Nat) : Die := tabGet (dieDflt k) p.dies k
/-- Replace it. -/
def Pkg.setDie (p : Pkg) (k : Nat) (v : Die) : Pkg := { p with dies := tabSet (dieDflt k) p.dies k v }
/-- Change it. -/
def Pkg.modDie (p : Pkg) (k : Nat) (f : Die → Die) : Pkg := p.setDie k (f (p.die k))
/-- The memory stack of number k (stack). -/
def Pkg.stack (p : Pkg) (k : Nat) : Stack := tabGet ({} : Stack) p.stackTab k
/-- Replace it. -/
def Pkg.setStack (p : Pkg) (k : Nat) (v : Stack) : Pkg := { p with stackTab := tabSet ({} : Stack) p.stackTab k v }
/-- Change it. -/
def Pkg.modStack (p : Pkg) (k : Nat) (f : Stack → Stack) : Pkg := p.setStack k (f (p.stack k))
/-- The memory die of number k (half × 4 + M number). -/
def Pkg.memDie (p : Pkg) (k : Nat) : MemDie := tabGet ({} : MemDie) p.memDies k
/-- Replace it. -/
def Pkg.setMemDie (p : Pkg) (k : Nat) (v : MemDie) : Pkg := { p with memDies := tabSet ({} : MemDie) p.memDies k v }
/-- Change it. -/
def Pkg.modMemDie (p : Pkg) (k : Nat) (f : MemDie → MemDie) : Pkg := p.setMemDie k (f (p.memDie k))
/-- The context of number k (context). -/
def Pkg.ctx (p : Pkg) (k : Nat) : Ctx := tabGet ({} : Ctx) p.ctxs k
/-- Replace it. -/
def Pkg.setCtx (p : Pkg) (k : Nat) (v : Ctx) : Pkg := { p with ctxs := tabSet ({} : Ctx) p.ctxs k v }
/-- Change it. -/
def Pkg.modCtx (p : Pkg) (k : Nat) (f : Ctx → Ctx) : Pkg := p.setCtx k (f (p.ctx k))
/-- The session place of number k (place). -/
def Pkg.session (p : Pkg) (k : Nat) : Session := tabGet ({} : Session) p.sessions k
/-- Replace it. -/
def Pkg.setSession (p : Pkg) (k : Nat) (v : Session) : Pkg := { p with sessions := tabSet ({} : Session) p.sessions k v }
/-- Change it. -/
def Pkg.modSession (p : Pkg) (k : Nat) (f : Session → Session) : Pkg := p.setSession k (f (p.session k))
/-- The service window of number k (4 × slot + kind). -/
def Pkg.dlWin (p : Pkg) (k : Nat) : DlWin := tabGet ({} : DlWin) p.dl k
/-- Replace it. -/
def Pkg.setDlWin (p : Pkg) (k : Nat) (v : DlWin) : Pkg := { p with dl := tabSet ({} : DlWin) p.dl k v }
/-- Change it. -/
def Pkg.modDlWin (p : Pkg) (k : Nat) (f : DlWin → DlWin) : Pkg := p.setDlWin k (f (p.dlWin k))

/-- A command's effect on everything but the queue. -/
def State.run (s : State) (f : Pkg → Pkg) : Host.Outcome State Fault Refusal := .next { s with pkg := f s.pkg }

/-- The block unchanged. -/
def State.skip (s : State) : Host.Outcome State Fault Refusal := .next s

/-! ## Numbering (R2) -/

def coreOf (t : Nat) : Nat := t / 64
def threadIn (t : Nat) : Nat := t % 64
def clusterOf (g : Nat) : Nat := g / 24
/-- Die of a cluster. -/
def dieOfCluster (k : Nat) : Nat := if k < 8 then k else k + 8
def dieOfCore (g : Nat) : Nat := dieOfCluster (g / 24)
/-- Half of a core: 0 A, 1 B. -/
def halfOfCore (g : Nat) : Nat := g / 192
/-- Home half of a slot (R6). -/
def halfOfSlot (j : Nat) : Nat := j / 8
def queueDie (h : Nat) : Nat := 14 + 16 * h
def linkDie (port : Nat) : Nat := 12 + port % 8 / 4 + 16 * (port / 8)
def memDieOfStack (s : Nat) : Nat := s / 2
/-- Die index of memory die m (0–7). -/
def dieOfMem (m : Nat) : Nat := 8 + m % 4 + 16 * (m / 4)
def halfOfObj (o : Nat) : Nat := o / 2048
def stackSize : Nat := 0x180000_0000
def stackOf (a : Nat) : Nat := a / stackSize
def spBase (g : Nat) : Nat := 0x8000_0000_0000 + g * 0x40_0000
def isStackAddr (a : Nat) : Bool := decide (a < 16 * stackSize)
def isWindowAddr (a : Nat) : Bool := decide (spBase 0 ≤ a) && decide (a < spBase 384)
def windowCore (a : Nat) : Nat := (a - spBase 0) / 0x40_0000
def windowOff (a : Nat) : Nat := (a - spBase 0) % 0x40_0000

/-! ## Time, free values, counters, flags, events -/

/-- The count of REFCLK_ETH since the start: it stands while the reference is lost beyond its holdover (R17, R337). -/
def Pkg.clkNow (p : Pkg) : Nat := p.clkStop.getD p.now - p.clkLost
/-- Interval counter of a die (R27): the package count and the die's skew. -/
def Pkg.icount (p : Pkg) (d : Nat) : Nat := ((p.clkNow : Int) + (p.die d).skew).toNat % 2 ^ 64

/-- Order of the P-384 group. -/
def p384Order : Nat := 0xFFFFFFFFFFFFFFFFFFFFFFFFFFFFFFFFFFFFFFFFFFFFFFFFC7634D81F4372DDF581A0DB248B0A77AECEC196ACCC52973
/-- The private key a headframe derives from its PUF seed (R492): HKDF of the seed under the salt "V32-ID1". -/
def headframeKey (d : Nat) : Nat :=
  let prk := toBe 48 (Config.hmac384 [0x56, 0x33, 0x32, 0x2D, 0x49, 0x44, 0x31] (toBe 48 (Config.pufSeed d)))
  let t1 := toBe 48 (Config.hmac384 prk [1])
  let t2 := toBe 48 (Config.hmac384 prk (t1 ++ [2]))
  leNat ((t1 ++ t2).take 64).reverse % (p384Order - 1) + 1
/-- The identity key of the package (R493). -/
def Pkg.identKey (p : Pkg) : Nat := headframeKey (if p.ident.keySource = 0 then 15 else 31)
/-- A public key in uncompressed SEC1 form. -/
def sec1 (key : Nat) : List Byte := 4 :: toBe 96 (Config.ecPub key)
/-- SHA-384 over the identity public key: its bytes 0 to 15 are the fingerprint (R493). -/
def Pkg.identDigest (p : Pkg) : List Byte := toBe 48 (Config.sha384 (sec1 p.identKey))
/-- The device serial (R493). -/
def Pkg.serial (p : Pkg) : Nat := leNat (p.identDigest.take 8)

/-- Is the package HALTED (R451)? Its engines, sequencers and reshards stand still. -/
def Pkg.halted (p : Pkg) : Bool := p.pkgState == 5
/-- The headframe die that is primary (R7). -/
def Pkg.primary (p : Pkg) : Nat := if p.pwr.primaryB then 31 else 15

/-- The next free value, cut to w bits, and the package that has taken it. -/
def Pkg.take (p : Pkg) (w : Nat) : Nat × Pkg := (Config.freeValue p.free % 2 ^ w, { p with free := p.free + 1 })

/-- Key of a counter of one instance. -/
def ctrKey (c : Ctr) (inst : Nat) : Nat := c.ctorIdx * 2 ^ 32 + inst
def Pkg.ctr (p : Pkg) (c : Ctr) (inst : Nat) : Nat := tabGet 0 p.ctrs (ctrKey c inst)
/-- Counters are 64 bits wide and wrap. -/
def Pkg.addCtr (p : Pkg) (c : Ctr) (inst n : Nat) : Pkg :=
  { p with ctrs := tabMod 0 p.ctrs (ctrKey c inst) fun v => (v + n) % 2 ^ 64 }
def Pkg.bump (p : Pkg) (c : Ctr) (inst : Nat) : Pkg := p.addCtr c inst 1

/-- A counter of steps or of time that the model does not measure grows by a free amount. -/
def Pkg.addFree (p : Pkg) (c : Ctr) (inst : Nat) : Pkg := (p.take 32).2.addCtr c inst (p.take 32).1

/-- Key of a W1C status register of one instance. -/
def flagKey (r : FlagReg) (inst : Nat) : Nat := r.ctorIdx * 2 ^ 16 + inst
def Pkg.flagReg (p : Pkg) (r : FlagReg) (inst : Nat) : W64 := tabGet 0 p.flags (flagKey r inst)
/-- Key of the companion counter of a flag (R340). -/
def companionKey (r : FlagReg) (inst b : Nat) : Nat := (1024 + r.ctorIdx * 64 + b) * 2 ^ 32 + inst
/-- Hardware sets a flag: the flag stands and its companion counter increments (R340). -/
def Pkg.setFlag (p : Pkg) (r : FlagReg) (inst b : Nat) : Pkg :=
  { p with
    flags := tabMod 0 p.flags (flagKey r inst) fun v => v ||| (1#64 <<< b)
    ctrs := tabMod 0 p.ctrs (companionKey r inst b) fun v => (v + 1) % 2 ^ 64 }
/-- Software writes ones to clear (R340, R464). -/
def Pkg.clearFlags (p : Pkg) (r : FlagReg) (inst : Nat) (v : W64) : Pkg :=
  { p with flags := tabMod 0 p.flags (flagKey r inst) fun x => x &&& ~~~v }

/-- Newest event records kept (R462). -/
def eventRing : Nat := 16384
/-- Raise an event (R462): die, context (0xFFF none), object number, detail word. An overwritten record is counted. -/
def Pkg.raise (p : Pkg) (e : Ev) (die ctx obj data : Nat) : Pkg :=
  let r : Event := { index := p.eventIdx, ev := e.ctorIdx, ns := p.icount p.primary, die := die, ctx := ctx, obj := obj, data := data }
  let full := decide (eventRing ≤ p.events.length)
  let p := { p with events := (r :: p.events).take eventRing, eventIdx := p.eventIdx + 1 }
  if full then (p.bump .evLost 0).setFlag .ljStatus p.primary 3 else p
/-- A change to a value of the hand-back bundle: its own event together with EV_HB_CHANGED (R484). -/
def Pkg.raiseHb (p : Pkg) (e : Ev) (die obj data : Nat) : Pkg :=
  (p.raise e die 0xFFF obj data).raise .hbChanged p.primary 0xFFF 0 0
/-- Context number of an event that concerns none. -/
def noCtx : Nat := 0xFFF

/-! ## Memory -/

/-- One byte of the device address space; nothing written reads as zero (DESIGN CHOICE, log entry 4). -/
def Pkg.byte (p : Pkg) (a : Nat) : Byte := tabGet 0 p.mem (a % 2 ^ 48)
def Pkg.bytes (p : Pkg) (a n : Nat) : List Byte := (List.range n).map fun i => p.byte (a + i)
/-- Little-endian number of n bytes. -/
def Pkg.num (p : Pkg) (a n : Nat) : Nat := leNat (p.bytes a n)
/-- Store bytes, nothing else. -/
def memPut (m : List Host.Cell) (a : Nat) : List Byte → List Host.Cell
  | [] => m
  | b :: bs => memPut (tabSet (0 : Byte) m (a % 2 ^ 48) b) (a + 1) bs
/-- The canonical form of memory. -/
def Memory.wf (m : List Host.Cell) : Bool := tabWf (0 : Byte) m

/-- Lines (64 bytes) that a range touches. -/
def linesOf (a n : Nat) : List Nat :=
  if n = 0 then [] else (List.range ((a + n - 1) / 64 - a / 64 + 1)).map (a / 64 + ·)
/-- Lines that a range covers whole. -/
def wholeLines (a n : Nat) : List Nat := (linesOf a n).filter fun l => decide (a ≤ l * 64) && decide (l * 64 + 64 ≤ a + n)
/-- 64 KiB pages that a range touches. -/
def pagesOf (a n : Nat) : List Nat :=
  if n = 0 then [] else (List.range ((a + n - 1) / 65536 - a / 65536 + 1)).map (a / 65536 + ·)

/-- Tensor entry of a stack page on its memory die (R308). -/
def tensorHit (m : MemDie) (stack pg : Nat) : List Nat :=
  (m.tensors.filter fun e => e.2.1 == stack && decide (e.2.2.1 ≤ pg) && decide (pg < e.2.2.1 + e.2.2.2)).map (·.1)

/-- Dirty bit of a page (R307). -/
def Pkg.pageDirty (p : Pkg) (pg : Nat) : Bool := tabGet false p.dirtyPg pg != (p.stack (stackOf (pg * 65536))).dirtyAll
def Pkg.setDirty (p : Pkg) (pg : Nat) (v : Bool) : Pkg :=
  { p with dirtyPg := tabSet false p.dirtyPg pg (v != (p.stack (stackOf (pg * 65536))).dirtyAll) }
/-- POISON of a line (R286). -/
def Pkg.linePoison (p : Pkg) (l : Nat) : Bool := tabGet false p.poison l != (p.stack (stackOf (l * 64))).poisonAll
def Pkg.setPoison (p : Pkg) (l : Nat) (v : Bool) : Pkg :=
  { p with poison := tabSet false p.poison l (v != (p.stack (stackOf (l * 64))).poisonAll) }
/-- Are a line's contents undefined (R297, R311)? -/
def Pkg.undefLine (p : Pkg) (l : Nat) : Bool := tabGet false p.tagBad l != (p.stack (stackOf (l * 64))).undefAll
def Pkg.setUndef (p : Pkg) (l : Nat) (v : Bool) : Pkg :=
  { p with tagBad := tabSet false p.tagBad l (v != (p.stack (stackOf (l * 64))).undefAll) }

/-- A written page: its dirty bit, and CHANGED_PAGES of a tensor entry when the bit goes from 0 to 1 (R307, R308). -/
def Pkg.markPage (p : Pkg) (pg : Nat) : Pkg :=
  let was := p.pageDirty pg
  let s := stackOf (pg * 65536)
  let inStack := pg - s * (stackSize / 65536)
  let p := p.setDirty pg true
  if was then p else
    p.modMemDie (memDieOfStack s) fun m =>
      (tensorHit m s inStack).foldl (fun m n => { m with changed := tabMod 0 m.changed n fun v => satAdd 32 v 1 }) m
/-- A written line: WRITTEN_LINES of a tensor entry (R308). -/
def Pkg.markLine (p : Pkg) (l : Nat) : Pkg :=
  let s := stackOf (l * 64)
  let pg := l / 1024 - s * (stackSize / 65536)
  p.modMemDie (memDieOfStack s) fun m =>
    (tensorHit m s pg).foldl (fun m n => { m with written := tabMod 0 m.written n fun v => satAdd 32 v 1 }) m

/-- One byte as a read returns it: an undefined line reads as a free function of its address and of the count (R297). -/
def Pkg.loadByte (p : Pkg) (a : Nat) : Byte :=
  if isStackAddr a && p.undefLine (a / 64) then BitVec.ofNat 8 (Config.freeValue (p.free + a)) else p.byte a
/-- The 64 bytes a read of a line returns. -/
def Pkg.lineBytes (p : Pkg) (l : Nat) : List Byte := (List.range 64).map fun i => p.loadByte (64 * l + i)
/-- The next write to an undefined line defines it (R297): what it does not write is what the line reads as. -/
def Pkg.defineLine (p : Pkg) (l : Nat) : Pkg :=
  if p.undefLine l then { p with mem := memPut p.mem (64 * l) (p.lineBytes l) }.setUndef l false else p

/-- A write that reaches memory (R288, R297, R307, R308): bytes, poison cleared on whole lines, undefined lines
defined again, dirty bits and tensor counters. Scratchpad words lose their error (R214). -/
def Pkg.store (p : Pkg) (a : Nat) (bs : List Byte) : Pkg :=
  let p := if isStackAddr a then (linesOf a bs.length).foldl Pkg.defineLine p else p
  let p := { p with mem := memPut p.mem a bs }
  if isStackAddr a then
    let p := (wholeLines a bs.length).foldl (fun p l => p.setPoison l false) p
    let p := (pagesOf a bs.length).foldl Pkg.markPage p
    (linesOf a bs.length).foldl Pkg.markLine p
  else if isWindowAddr a then
    p.modCore (windowCore a) fun c =>
      { c with spBad := (linesOf (2 * windowOff a) (2 * bs.length)).foldl (fun t l => tabSet false t l false) c.spBad }
  else p

/-- Is any line of the range stored poisoned (R288)? -/
def Pkg.poisoned (p : Pkg) (a n : Nat) : Bool :=
  isStackAddr a && (linesOf a n).any p.linePoison

/-- The bytes a read returns. -/
def Pkg.load (p : Pkg) (a n : Nat) : List Byte := (List.range n).map fun i => p.loadByte (a + i)
/-- Little-endian number of the bytes a read returns. -/
def Pkg.loadNum (p : Pkg) (a n : Nat) : Nat := leNat (p.load a n)
/-- A read with hint LAST_USE leaves its lines undefined (R297). -/
def Pkg.lastUse (p : Pkg) (hint a n : Nat) : Pkg :=
  if hint = 3 && isStackAddr a then
    (linesOf a n).foldl (fun p l => p.setUndef l true) { p with free := p.free + 1 }
  else p

/-- Scratchpad bytes of core g. -/
def Pkg.spBytes (p : Pkg) (g off n : Nat) : List Byte := p.bytes (spBase g + off) n
def Pkg.spNum (p : Pkg) (g off n : Nat) : Nat := leNat (p.spBytes g off n)
def Pkg.spStore (p : Pkg) (g off : Nat) (bs : List Byte) : Pkg := p.store (spBase g + off) bs
/-- Scratchpad bytes whose contents the manual leaves undefined become free values. -/
def Pkg.spFree (p : Pkg) (g off n : Nat) : Pkg :=
  { p.spStore g off ((List.range n).map fun i => BitVec.ofNat 8 (Config.freeValue (p.free + i))) with free := p.free + n }
/-- Does the range hold an uncorrectable 32-byte word (R214)? -/
def Pkg.spBadIn (p : Pkg) (g off n : Nat) : Bool :=
  let c := p.core g
  (linesOf (2 * off) (2 * n)).any fun l => tabGet false c.spBad l

/-- A read of scratchpad words (R214): how many of them are corrected is a free value; they count and set SP_CORR. -/
def Pkg.spRead (p : Pkg) (g off n : Nat) : Pkg :=
  if n = 0 then p else
  let x := Config.freeValue p.free % ((off + n - 1) / 32 - off / 32 + 2)
  let p := { p with free := p.free + 1 }
  if x = 0 then p else (p.addCtr .coreSpCorr g x).setFlag .coreStatus g 1
/-- Reads of several ranges. -/
def Pkg.spReads (p : Pkg) (g : Nat) (rs : List (Nat × Nat)) : Pkg := rs.foldl (fun p r => p.spRead g r.1 r.2) p

/-! ## Regions and permissions (R231, R282, R283, R373) -/

/-- Does one region list cover [a, a + n) with a permission bit, for an owner? Regions may follow one another. -/
def coversGo (rs : List Region) (perm : Nat → Bool) : Nat → Nat → Nat → Bool
  | 0, _, _ => false
  | fuel + 1, a, e =>
    if e ≤ a then true else
    match rs.find? fun r => decide (r.base ≤ a) && decide (a < r.base + r.pages * 65536) && perm r.perm with
    | none => false
    | some r => coversGo rs perm fuel (r.base + r.pages * 65536) e
/-- The range lies in regions of the owner that all allow `bitNo` (0 local read … 3 remote write). -/
def Pkg.covered (p : Pkg) (owner a n bitNo : Nat) : Bool :=
  let rs := p.regions.filter (·.owner == owner)
  coversGo rs (fun f => bit f bitNo) (rs.length + 1) a (a + n)
/-- The range lies in regions of the owner, whatever they allow. -/
def Pkg.inRegions (p : Pkg) (owner a n : Nat) : Bool :=
  let rs := p.regions.filter (·.owner == owner)
  coversGo rs (fun _ => true) (rs.length + 1) a (a + n)

/-- Stacks a range touches. -/
def stacksOf (a n : Nat) : List Nat :=
  if n = 0 then [] else (List.range (stackOf (a + n - 1) - stackOf a + 1)).map (stackOf a + ·)

/-- How the memory system takes an access (R282). -/
inductive Access where
  | ok
  | address      -- faults with ADDRESS
  | unavailable  -- completes UNAVAILABLE: PATH_LOST
  | waits        -- stack in SELF_REFRESH during an orderly reset
  deriving DecidableEq, Repr

/-- Is a die in use: admitted and not in reset, test or out (R13, R343)? -/
def Pkg.dieUp (p : Pkg) (d : Nat) : Bool := (p.die d).admitted && (p.die d).state == 0

/-- State test of the stacks of a range (R282); a stack whose memory die is not in use is unavailable with it (R22). -/
def Pkg.stackTest (p : Pkg) (a n : Nat) : Access :=
  let ss := (stacksOf a n).map fun s => (p.stack s).state
  if ss.any fun x => x == 4 || x == 5 then .address
  else if ss.any fun x => x == 2 || x == 3 then .unavailable
  else if (stacksOf a n).any fun s => (p.stack s).state == 0 && !p.dieUp (dieOfMem (memDieOfStack s)) then .unavailable
  else if (stacksOf a n).any fun s => (p.stack s).state == 1 && (p.memDie (memDieOfStack s)).expired then .unavailable
  else if ss.any fun x => x == 1 then .waits
  else .ok

/-- Scratchpad offsets a program of context c may name (R213, R373): its range, and the item blocks for reads. -/
def Pkg.spAllowed (p : Pkg) (c off n : Nat) (write : Bool) : Bool :=
  let r := (p.ctx c).record
  let lo := fld r 64 22
  let sz := fld r 96 22
  (decide (lo ≤ off) && decide (off + n ≤ lo + sz)) ||
    (!write && decide (0x3F_0000 ≤ off) && decide (off + n ≤ 0x3F_4000))

/-- A program access under context c, whose bound cores are given (R213, R231, R282): window or stack. -/
def Pkg.progAccess (p : Pkg) (c : Nat) (boundCores : List Nat) (a n : Nat) (write : Bool) : Access :=
  if isWindowAddr a then
    if boundCores.contains (windowCore a) && windowCore a == windowCore (a + n - 1) && p.spAllowed c (windowOff a) n write
      then (if (p.die (dieOfCore (windowCore a))).state = 0 then .ok else .unavailable) else .address
  else if isStackAddr a && isStackAddr (a + n - 1) then
    if p.covered c a n (if write then 1 else 0) then p.stackTest a n else .address
  else .address

/-! ## Packets and outstanding requests (R103, R127, R129) -/

/-- Does a packet kind go in the response class (Table 4.4)? -/
def isResponse (k : Nat) : Bool := [2, 5, 7, 9, 11, 13, 14].contains k
/-- May a request be issued again (Table 4.4)? SYNC_OP READ and WAIT are. -/
def isIdempotent (p : LPkt) : Bool :=
  match p.pkind.toNat with
  | 0 => true | 1 => true | 2 => true | 5 => true | 7 => true | 8 => true | 9 => true | 11 => true | 13 => true | 14 => true
  | 6 => let op := fld p.kspec.toNat 12 3; op == 1 || op == 3
  | _ => false

/-- A packet of this device: HOPS 64, its own address and epoch (R103). Destination 0 is this device. -/
def Pkg.mkPkt (p : Pkg) (dst kind flow kspec : Nat) (content : List Byte) : LPkt :=
  { dst := BitVec.ofNat 24 (if dst = 0 then p.fabAddr else dst), src := BitVec.ofNat 24 p.fabAddr,
    pkind := BitVec.ofNat 4 kind, hops := 64, epoch := BitVec.ofNat 32 p.epoch, tag := 0,
    flow := BitVec.ofNat 16 flow, kspec := BitVec.ofNat 96 kspec, content := content }

/-- Put something into the record of what leaves the package. -/
def Pkg.emit (p : Pkg) (o : Out) : Pkg := { p with out := o :: p.out }

/-- Does the device send and receive on its own host port: it is up, and A.H is primary (R8, R424)? -/
def Pkg.ownPort (p : Pkg) : Bool := p.eth.up && !p.pwr.primaryB
/-! ## Frame headers in network order (R3, R425 to R427) -/

/-- MAC address (R425): 0x02, then bits [39:0] of the serial, most significant byte first. -/
def Pkg.mac (p : Pkg) : Nat := put 40 8 2 + fld p.serial 0 40
/-- The MAC address, most significant byte first (R425). -/
def Pkg.macBytes (p : Pkg) : List Byte := toBe 6 p.mac
/-- The IPv6 link-local address (R425): fe80::/64 with the modified EUI-64 identifier of the MAC address. -/
def Pkg.linkLocal (p : Pkg) : Nat :=
  let m := p.mac
  put 112 16 0xFE80 + put 56 8 (fld m 40 8 ^^^ 2) + put 40 16 (fld m 24 16) + put 24 16 0xFFFE + put 0 24 m
/-- Internet checksum of 16-bit words (PRESUMED, log entry 184: RFC 1071). -/
def onesSum (ws : List Nat) : Nat :=
  let s := ws.sum
  let s := s % 2 ^ 16 + s / 2 ^ 16
  0xFFFF - (s % 2 ^ 16 + s / 2 ^ 16)
/-- The 16-bit words of bytes in network order. -/
def beWords : List Byte → List Nat
  | [] => []
  | [a] => [256 * a.toNat]
  | a :: b :: bs => (256 * a.toNat + b.toNat) :: beWords bs
/-- UDP and IP header of a datagram to an address, IPv4 mapped into IPv6 as R459 writes it, in network order (R3). What the spec gives no value
for (hop limit, identification, flow label) is a free value. -/
def Pkg.ipHead (p : Pkg) (ecn sport ip dport : Nat) (body : List Byte) : List Byte :=
  let udp (pseudo : List Byte) : List Byte :=
    let h := toBe 2 sport ++ toBe 2 dport ++ toBe 2 (8 + body.length)
    h ++ toBe 2 (onesSum (beWords (pseudo ++ h ++ [0, 0] ++ body)))
  if ip / 2 ^ 32 = 0xFFFF then
    let a := toBe 4 p.eth.ip4 ++ toBe 4 ip
    let front := toBe 2 (0x4500 + ecn) ++ toBe 2 (28 + body.length) ++ toBe 2 (Config.frameOpen 0 ip) ++ toBe 2 0x4000 ++ toBe 1 (Config.frameOpen 1 ip) ++ toBe 1 17
    front ++ toBe 2 (onesSum (beWords (front ++ a))) ++ a ++ udp (a ++ [0, 17] ++ toBe 2 (8 + body.length))
  else
    let a := toBe 16 (if ip / 2 ^ 112 = 0xFE80 || ip / 2 ^ 120 = 0xFF || p.eth.ip6 = 0 then p.linkLocal else p.eth.ip6) ++ toBe 16 ip
    toBe 4 (put 28 4 6 + put 20 8 ecn + put 0 20 (Config.frameOpen 2 ip)) ++ toBe 2 (8 + body.length) ++ toBe 1 17 ++ toBe 1 (Config.frameOpen 1 ip) ++ a
      ++ udp (a ++ toBe 4 (8 + body.length) ++ toBe 4 17)
/-- Ethernet header: both addresses, the tag, the type, in network order (R3, R426). The next hop's MAC address is a free value. -/
def Pkg.ethHead (p : Pkg) (ip : Nat) (tci : Option Nat) (etype : Nat) : List Byte :=
  toBe 6 (Config.frameOpen 3 ip) ++ p.macBytes ++ (match tci with | some t => toBe 2 0x8100 ++ toBe 2 t | none => []) ++ toBe 2 etype
/-- The frame a datagram leaves in, up to its UDP header; none for what is no datagram of this device's. A reply carries the tag of its command. -/
def Pkg.headOf (p : Pkg) (prio : Option Nat) (o : Out) : Option (List Byte) :=
  let all (ecn sport ip dport : Nat) (tci : Option Nat) (body : List Byte) : List Byte :=
    p.ethHead ip tci (if ip / 2 ^ 32 = 0xFFFF then 0x0800 else 0x86DD) ++ p.ipHead ecn sport ip dport body
  let tag (ip : Nat) : Option Nat := prio.map fun n => n * 2 ^ 13 + Config.frameOpen 4 ip % 2 ^ 12
  match o with
  | .udp sport ip dport bs => some (all 0 sport ip dport (tag ip) bs)
  | .reply (.own ip port vlan) bs => some (all 0 40311 ip.toNat port.toNat (vlan.map fun v => p.eth.cmdPrio * 2 ^ 13 + v.toNat % 2 ^ 12) bs)
  | .roce n op psn bs =>
    let ip := (tabGet ({} : Qp) p.eth.qps n).ip
    some (all 2 (Config.frameOpen 5 ip) ip 4791 (tag ip) (Config.rocePacket n op psn bs))
  | _ => none
/-- A frame leaves: its headers, then what it carries. -/
def Pkg.leave (p : Pkg) (prio : Option Nat) (o : Out) : Pkg :=
  match p.headOf prio o with
  | some h => (p.emit (.head h)).emit o
  | none => p.emit o

/-- Send a frame on the host port, tagged with a priority or untagged: nothing leaves a port that is down, and a paused
priority waits (R424, R429). -/
def Pkg.ethSend (p : Pkg) (prio : Option Nat) (o : Out) : Pkg :=
  if !p.ownPort then p else
  match prio with
  | none => p.leave none o
  | some n => if tabGet false p.eth.paused n then { p with eth := { p.eth with held := (n, o) :: p.eth.held } } else p.leave (some n) o
/-- Priority of a frame's tag (R426). -/
def tagPrio (vlan : Option (BitVec 16)) : Option Nat := vlan.map fun v => v.toNat / 2 ^ 13

/-- Hand a packet to the network with a fresh TAG (R103); the tag is returned. -/
def Pkg.send (p : Pkg) (k : LPkt) : Nat × Pkg :=
  let t := p.nextTag % 2 ^ 32
  let k := { k with tag := BitVec.ofNat 32 t }
  (t, { p with nextTag := p.nextTag + 1, out := .pkt none false false k :: p.out })

/-- Send a packet that answers an issue: it carries the issue's TAG (R129). -/
def Pkg.answer (p : Pkg) (req : LPkt) (kind kspec : Nat) (content : List Byte) : Pkg :=
  let k := { p.mkPkt req.src.toNat kind req.flow.toNat kspec content with tag := req.tag }
  p.emit (.pkt none false false k)

/-- Send a request that expects a response and remember who waits (R127, R129). -/
def Pkg.request (p : Pkg) (k : LPkt) (who : Who) : Nat × Pkg :=
  let (t, p) := p.send k
  (t, { p with reqs := tabSet none p.reqs t (some { pkt := { k with tag := BitVec.ofNat 32 t }, who := who }) })

/-- Drop every outstanding request of a kind of waiter. -/
def Pkg.dropReqs (p : Pkg) (f : Who → Bool) : Pkg :=
  { p with reqs := p.reqs.filter fun e => match e.2 with | some r => !f r.who | none => true }
/-- The outstanding request of a TAG. -/
def Pkg.req (p : Pkg) (t : Nat) : Option Req := tabGet none p.reqs t
def Pkg.endReq (p : Pkg) (t : Nat) : Pkg := { p with reqs := tabSet none p.reqs t none }

/-! ## Crossings into clocked islands (R331, R332) -/

/-- What the receiving side of a multi-bit crossing accepts from its samples: the first that agrees with the one before it, and how
many samples beyond the first two that took. -/
def acceptSample : List W64 → Option (W64 × Nat)
  | a :: b :: rest => if a = b then some (a, 0) else (acceptSample (b :: rest)).map fun r => (r.1, r.2 + 1)
  | _ => none
def Pkg.xing (p : Pkg) (d i : Nat) : Crossing := tabGet {} (p.die d).xings i
def Pkg.modXing (p : Pkg) (d i : Nat) (f : Crossing → Crossing) : Pkg := p.modDie d fun x => { x with xings := tabMod {} x.xings i f }
/-- New entries pass a crossing while both sides signal ready. -/
def Crossing.ready (x : Crossing) : Bool := x.clocked && x.clockless
/-- Both sides of a crossing signal ready. -/
def Pkg.openXing (p : Pkg) (d i : Nat) : Pkg := p.modXing d i fun _ => {}
/-- A unit reads a value of an island over the crossing (R332): the samples it takes beyond the first two count. How many those are
is a matter of the two clocks: a free value. -/
def Pkg.readXing (p : Pkg) (d : Nat) : Pkg :=
  let (n, p) := p.take 64
  p.addCtr .fabXingResample d n

end Sys2Proof.Machine
end

