-- ==== Sys2Proof/Machine/Route.lean ====
section
/-! DEFINITION. Routes (R117 to R123): logical ports, bucket tables, lookup. -/

namespace Sys2Proof.Machine

/-- Is a port ACTIVE or NARROW, and in no dark window that has been opened (R117, R124)? -/
def Port.usable (q : Port) : Bool := (q.state == .active || q.state == .narrow) && !q.darkPending
/-- Has the port an accepted peer, so that it carries its logical port (R113)? -/
def Port.carries (q : Port) : Bool := q.state == .active || q.state == .narrow || q.state == .dark || (q.state == .hello && q.accepted)
/-- Physical port that carries logical port n (R113): one that passed its plan check, one whose remap lasts until it next enters HELLO, else
port n itself. -/
def Pkg.physPort (p : Pkg) (n : Nat) : Nat :=
  match (List.range 16).find? fun k => (p.port k).logical == n && (p.port k).carries with
  | some k => k
  | none => ((List.range 16).find? fun k => k != n && (p.port k).logical == n).getD n
/-- Is logical port n usable? -/
def Pkg.usableL (p : Pkg) (n : Nat) : Bool := (p.port (p.physPort n)).usable && (p.port (p.physPort n)).logical == n
/-- Usable ports of a list mask, ascending. -/
def Pkg.usableOf (p : Pkg) (mask : Nat) : List Nat := (bitsOf 16 mask).filter p.usableL

/-- A bucket table filled round-robin over ports (R120). -/
def fillBuckets (ports : List Nat) : List Nat :=
  if ports.isEmpty then [] else (List.range 64).map fun i => ports.getD (i % ports.length) 0
/-- Refill the buckets of ports that have gone, round-robin over those that remain (R121). -/
def refillBuckets (gone : Nat → Bool) (rest : List Nat) : List Nat → Nat → List Nat
  | [], _ => []
  | b :: bs, n => if gone b then rest.getD (n % rest.length) 0 :: refillBuckets gone rest bs (n + 1) else b :: refillBuckets gone rest bs n

/-- One list's table after the ports' usability has changed (R121). -/
def Pkg.tableFix (p : Pkg) (mask : Nat) (t : List Nat) : List Nat :=
  let us := p.usableOf mask
  if us.isEmpty then []
  else if t.isEmpty then fillBuckets us
  else
    let kept := us.filter t.contains
    if t.all kept.contains then t
    else if kept.isEmpty then fillBuckets us
    else refillBuckets (fun b => !kept.contains b) kept t 0

def rtDest (e : Rec) : Nat := fld e 0 24
def rtPlen (e : Rec) : Nat := fld e 24 5
def rtPri (e : Rec) : Nat := fld e 32 16
def rtAlt (e : Rec) : Nat := fld e 48 16
/-- Sub-lane action of an entry for a logical port (Table 4.9). -/
def rtAct (e : Rec) (n : Nat) : Nat := fld e (64 + 2 * n) 2

/-- Bring every bucket table to the ports' present usability (R121). -/
def Pkg.routesFix (p : Pkg) : Pkg :=
  { p with routes := p.routes.map fun r => { r with pri := p.tableFix (rtPri r.ent) r.pri, alt := p.tableFix (rtAlt r.ent) r.alt } }
/-- Rebuild every table at a route epoch (R121). -/
def Pkg.routesBuild (p : Pkg) : Pkg :=
  { p with routes := p.routes.map fun r => { r with pri := fillBuckets (p.usableOf (rtPri r.ent)), alt := fillBuckets (p.usableOf (rtAlt r.ent)) } }

/-- Does an entry match a destination? -/
def rtMatch (e : Rec) (dst : Nat) : Bool := rtDest e / 2 ^ (24 - rtPlen e) == dst / 2 ^ (24 - rtPlen e)
/-- Index of the entry with the longest matching prefix (R120). -/
def Pkg.routeOf (p : Pkg) (dst : Nat) : Option Nat :=
  (p.routes.zipIdx.foldl (fun (m : Option (Nat × Nat)) x =>
    if rtMatch x.1.ent dst then
      match m with
      | some (l, _) => if l < rtPlen x.1.ent then some (rtPlen x.1.ent, x.2) else m
      | none => some (rtPlen x.1.ent, x.2)
    else m) none).map (·.2)
/-- Bucket of a packet (R120). -/
def bucketOf (k : LPkt) : Nat := crc32c 0xFFFF_FFFF (toLe 3 k.src.toNat ++ toLe 3 k.dst.toNat ++ toLe 2 k.flow.toNat) % 64
/-- Logical port the tables give a packet: from the primary list, else from the alternate list. -/
def Route.choose (r : Route) (k : LPkt) : Option Nat := if r.pri.isEmpty then r.alt[bucketOf k]? else r.pri[bucketOf k]?
/-- Physical port a packet leaves by now; 0 when there is none (for per-port counters). -/
def Pkg.egressOf (p : Pkg) (k : LPkt) : Nat :=
  match p.routeOf k.dst.toNat with
  | some i => (match p.routes[i]? with
    | some r => (match r.choose k with | some n => p.physPort n | none => 0)
    | none => 0)
  | none => 0

/-- Entries with REQUIRED set and no usable port (R117), by index. -/
def Pkg.planUnmet (p : Pkg) : List Nat :=
  (p.routes.zipIdx.filter fun r => bit r.1.ent 96 && (p.usableOf (rtPri r.1.ent)).isEmpty && (p.usableOf (rtAlt r.1.ent)).isEmpty).map (·.2)

end Sys2Proof.Machine
end

