-- ==== Sys2Proof/Machine/ChanOps.lean ====
section
/-! DEFINITION. Endpoints, connections and their grants (R249 to R262), as operations of the cores. -/

namespace Sys2Proof.Machine

/-- Endpoint e of core g. -/
def Pkg.ep (p : Pkg) (g e : Nat) : Endpoint := tabGet {} (p.core g).eps e
def Pkg.setEp (p : Pkg) (g e : Nat) (v : Endpoint) : Pkg :=
  p.modCore g fun c => { c with eps := tabSet {} c.eps e v }
/-- Connection n of core g. -/
def Pkg.conn (p : Pkg) (g n : Nat) : Conn := tabGet {} (p.core g).conns n
def Pkg.setConn (p : Pkg) (g n : Nat) (v : Conn) : Pkg :=
  p.modCore g fun c => { c with conns := tabSet {} c.conns n v }

/-- KSPEC of a CH_ACK (Table 9.5). -/
def ackSpec (core conn type : Nat) (retry : Bool) (grant : Nat) : Nat :=
  put 0 9 core + put 9 5 conn + put 14 2 type + put 16 1 (b2n retry) + put 32 32 grant

/-- Unread words of an endpoint, in SRAM and ring. -/
def epUnread (e : Endpoint) : Nat := (e.unread.map List.length).sum
/-- Unread words in the ring (Table 9.11). -/
def Endpoint.unreadRing (e : Endpoint) : Nat := (e.unread.flatten.filter fun w => w.ring.isSome).length
/-- Consumed words retained in the ring (Table 9.11). -/
def Endpoint.heldRing (e : Endpoint) : Nat := (e.held.filter fun w => w.1.ring.isSome).length
/-- Words that occupy SRAM: unread, or read and not yet copied to the ring (R256). -/
def epHeldSram (e : Endpoint) : Nat := (epUnread e - e.unreadRing) + (e.held.length - e.heldRing)
/-- Words in the ring. -/
def epRing (e : Endpoint) : Nat := e.unreadRing + e.heldRing
/-- Is an elastic endpoint's ring full (R259)? -/
def epFull (e : Endpoint) : Bool := e.elastic && decide (e.ringWords ≤ epRing e)

/-- Free capacity an endpoint may grant (R256); an elastic endpoint whose ring is full grants nothing (R259). -/
def epCap (e : Endpoint) : Nat :=
  if epFull e then 0 else (32 - epHeldSram e) + (if e.elastic then e.ringWords - epRing e else 0)

/-- Device address of word i of an endpoint's ring. The words stand in the order in which they are copied (DESIGN CHOICE, log entry
168): none leaves before the endpoint closes. -/
def Endpoint.ringAddr (e : Endpoint) (i : Nat) : Nat := e.ringBase + 64 * i
/-- The bytes of a word: its SRAM word, or read back from the ring (R259). -/
def Pkg.wordBytes (p : Pkg) (e : Endpoint) (w : EpWord) : List Byte :=
  match w.ring with
  | none => w.data
  | some i => p.load (e.ringAddr i) 64
/-- Words copied to an endpoint's ring, from word i of it on (R259). -/
def Pkg.ringPut (p : Pkg) (e : Endpoint) (i : Nat) (ws : List EpWord) : Pkg :=
  ws.zipIdx.foldl (fun p x => p.store (e.ringAddr (i + x.2)) x.1.data) p

/-- New grants of a MULTI endpoint over an order of its connections (R256), as (fabric, core, connection, received, grant), and the
last one granted. -/
def multiGrant (cap : Nat) : Option Nat → List Nat → List (Nat × Nat × Nat × Nat × Nat) → List (Nat × Nat × Nat × Nat × Nat) × Option Nat
  | last, [], cs => (cs, last)
  | last, i :: is, cs =>
    match cs[i]? with
    | none => multiGrant cap last is cs
    | some (f, c, k, r, g) =>
      let out := g - r
      let total := (cs.map fun x => x.2.2.2.2 - x.2.2.2.1).sum
      if decide (out < 16) && decide (total + (16 - out) ≤ cap) then
        multiGrant cap (some i) is (cs.set i (f, c, k, r, r + 16))
      else multiGrant cap last is cs
/-- The round-robin order of n connections: from the one after the last granted (R256). -/
def grantOrder (last : Option Nat) (n : Nat) : List Nat :=
  (List.range n).map fun i => ((match last with | some l => l + 1 | none => 0) + i) % n
/-- Where the last granted connection stands once those of a list that a test names are gone (R256). -/
def keepLast (f : Nat × Nat × Nat × Nat × Nat → Bool) (cs : List (Nat × Nat × Nat × Nat × Nat)) (last : Option Nat) : Option Nat :=
  match last with
  | none => none
  | some l =>
    match ((cs.take (l + 1)).filter fun c => !f c).length with
    | 0 => none
    | n + 1 => some n

/-- Recompute the grants of endpoint e and send the ones that grew (R256); a full elastic ring grants
nothing and raises EV_CH_RING_FULL once per reader (R259). -/
def Pkg.epGrants (p : Pkg) (g e : Nat) (quiet : Option (Nat × Nat × Nat) := none) : Pkg :=
  let ep := p.ep g e
  if ep.state != 1 then p else
  let cap := epCap ep
  let old := ep.conns
  let r :=
    if ep.multi then multiGrant cap ep.lastGranted (grantOrder ep.lastGranted old.length) old
    else (old.map fun (f, c, k, r, gr) => (f, c, k, r, Nat.max gr (r + cap)), ep.lastGranted)
  let new := r.1
  let full := epFull ep && !ep.ringFullSent
  let p := p.setEp g e { ep with conns := new, lastGranted := r.2, ringFullSent := ep.ringFullSent || full }
  let p := if full then p.raise .chRingFull (dieOfCore g) noCtx (g * 32 + e) 0 else p
  (new.zip old).foldl (fun p (x, y) =>
    if y.2.2.2.2 < x.2.2.2.2 && quiet != some (x.1, x.2.1, x.2.2.1) then
      (p.send (p.mkPkt x.1 5 0 (ackSpec x.2.1 x.2.2.1 0 false x.2.2.2.2) [])).2
    else p) p

/-- The first n consumed words of SRAM get places in the ring, from word i on: the words copied, and the list (R259). -/
def ringTake : Nat → Nat → List (EpWord × Bool) → List EpWord × List (EpWord × Bool)
  | _, _, [] => ([], [])
  | 0, _, ws => ([], ws)
  | n + 1, i, (w, last) :: ws =>
    match w.ring with
    | some _ =>
      let r := ringTake (n + 1) i ws
      (r.1, (w, last) :: r.2)
    | none =>
      let r := ringTake n (i + 1) ws
      (w :: r.1, ({ ring := some i }, last) :: r.2)
/-- Copy consumed words from SRAM to the ring as ring space allows (R259). -/
def Pkg.ringMove (p : Pkg) (g e : Nat) : Pkg :=
  let ep := p.ep g e
  let room := ep.ringWords - epRing ep
  let r := ringTake room (epRing ep) ep.held
  ((p.ringPut ep (epRing ep) r.1).setEp g e { ep with held := r.2 }).addCtr .chRingWords g r.1.length

/-- Close an endpoint (R251, R260): its words go, every open connection is answered CLOSED, pending OPEN
requests of its key are answered CLOSED. -/
def Pkg.closeEp (p : Pkg) (g e : Nat) : Pkg :=
  let ep := p.ep g e
  if ep.state != 1 then p else
  let p := ep.conns.foldl (fun p x => (p.send (p.mkPkt x.1 5 0 (ackSpec x.2.1 x.2.2.1 1 false 0) [])).2) p
  let mine := ep.pendingOpen.filter fun q => fld q.kspec.toNat 32 24 == ep.key
  let p := mine.foldl (fun p q => p.answer q 5 (ackSpec (fld q.kspec.toNat 16 9) (fld q.kspec.toNat 25 5) 1 false 0) []) p
  p.setEp g e { ({} : Endpoint) with
    state := 2, key := ep.key, lastKey := ep.key, multi := ep.multi, elastic := ep.elastic
    pendingOpen := ep.pendingOpen.filter fun q => fld q.kspec.toNat 32 24 != ep.key }

/-- Put consumed words back before the unread messages, oldest first, at their message boundaries. -/
def unconsume : List (EpWord × Bool) → List (List EpWord) → List (List EpWord)
  | [], ms => ms
  | (w, last) :: ws, ms =>
    let rest := unconsume ws ms
    if last then [w] :: rest else
    match rest with
    | [] => [[w]]
    | m :: r => (w :: m) :: r
/-- Return the consumed words of an endpoint to the unread ones, in their original order (R241). -/
def epReturn (ep : Endpoint) : Endpoint :=
  { ep with unread := unconsume ep.held ep.unread, held := [] }

/-- Consume n unread words in arrival order (R258, R234): the words, and the endpoint that holds them. -/
def epConsume : Nat → Endpoint → List EpWord × Endpoint
  | 0, ep => ([], ep)
  | n + 1, ep =>
    match ep.unread with
    | [] => ([], ep)
    | [] :: ms => epConsume n { ep with unread := ms }
    | (w :: m) :: ms =>
      let ep := { ep with unread := if m.isEmpty then ms else m :: ms, held := ep.held ++ [(w, m.isEmpty)] }
      let r := epConsume n ep
      (w :: r.1, r.2)
/-- Bytes of the next n unread words of endpoint e of core g, in arrival order (R258). -/
def Pkg.epBytes (p : Pkg) (g e n : Nat) : List Byte := ((epConsume n (p.ep g e)).1.map fun w => p.wordBytes (p.ep g e) w).flatten
/-- The package once the next n unread words are consumed. -/
def Pkg.epTake (p : Pkg) (g e n : Nat) : Pkg := p.setEp g e (epConsume n (p.ep g e)).2

/-- Endpoints of a core whose reader is the item of (slot, position). -/
def epsOf (c : CoreS) (it : Nat × Nat) : List Nat :=
  (c.eps.filter fun x => x.2.state == 1 && x.2.reader == some it).map (·.1)

/-- A connection entry is freed (R253); its openings stay counted, so that a late answer to a message of an item that is gone finds no
other item's entry. -/
def Pkg.freeConn (p : Pkg) (g n : Nat) : Pkg := p.setConn g n { opening := (p.conn g n).opening }
/-- Change connection n of core g where opening o of it still stands (R253). -/
def Pkg.modConn (p : Pkg) (g n o : Nat) (f : Conn → Conn) : Pkg :=
  let c := p.conn g n
  if c.state != 0 && c.opening == o then p.setConn g n (f c) else p
/-- Credits of a message return to the opening that took them (R255). -/
def Pkg.returnCredit (p : Pkg) (g n w o : Nat) : Pkg := p.modConn g n o fun c => { c with credits := c.credits + w }

/-- KSPEC of a CH_MSG (Table 9.5). -/
def msgSpec (core ep type sender conn key words : Nat) : Nat :=
  put 0 9 core + put 9 5 ep + put 14 2 type + put 16 9 sender + put 25 5 conn + put 32 24 key + put 56 4 (words - 1)

/-- The CLOSE request of CH_CLOSE leaves once every message published on the entry is acknowledged (R253). -/
def Pkg.closeConn (p : Pkg) (g n : Nat) : Pkg :=
  let c := p.conn g n
  if c.closing && c.unacked == 0 then
    let t := c.target.toNat
    let p := (p.send (p.mkPkt (fld t 0 24) 4 0 (msgSpec (fld t 24 9) (fld t 33 5) 2 g n (fld t 38 24) 1) [])).2
    p.freeConn g n
  else p

end Sys2Proof.Machine
end

