-- ==== Sys2Proof/Machine/Fmt.lean ====
section
/-! DEFINITION. Packed arrays of elements with their scales (R143 to R147, Table 6.3), and the narrowing
conversions with their scale choice (R148 to R152, R524, Table 5.7). -/

namespace Sys2Proof.Machine

/-- Bits of one element of a format code (Table 5.6; 14 is INT32). -/
def fmtBits (f : Nat) : Nat :=
  match f with
  | 0 => 4 | 1 => 4 | 2 => 4 | 3 => 2 | 4 => 6 | 5 => 6 | 6 => 8 | 7 => 8 | 8 => 8 | 9 => 8 | 10 => 8 | 11 => 16 | 12 => 16
  | _ => 32
/-- Bytes of a packed row of n elements. -/
def rowBytes (f n : Nat) : Nat := ceilDiv (n * fmtBits f) 8
/-- Layout of a floating format code. -/
def fmtFlt (f : Nat) : Flt :=
  match f with
  | 0 => fE2M1 | 1 => fE2M1 | 4 => fE2M3 | 5 => fE3M2 | 6 => fE4M3 | 7 => fE5M2 | 8 => fE4M3 | 9 => fE5M2
  | 11 => fBF16 | 12 => fFP16 | _ => fFP32
/-- Is the format an integer format, of how many bits? 0 for the others. -/
def fmtInt (f : Nat) : Nat := match f with | 2 => 4 | 10 => 8 | 14 => 32 | _ => 0
/-- Are MX scales, one E8M0 byte per 32 elements, carried? -/
def fmtMx (f : Nat) : Bool := f == 0 || f == 4 || f == 5 || f == 6 || f == 7
/-- A block-scaled format: MX, Pip4 or ternary. -/
def fmtBlock (f : Nat) : Bool := fmtMx f || f == 1 || f == 3
/-- Per-tensor FP8. -/
def fmtTensor (f : Nat) : Bool := f == 8 || f == 9
/-- Bytes of the scale array of one row of n elements (R526). -/
def scaleBytes (f n : Nat) : Nat :=
  if fmtMx f then ceilDiv n 32 else if f = 3 then 2 * ceilDiv n 32 else if f = 1 then ceilDiv (ceilDiv n 16) 2 else 0

/-- Value of an element code without its scale. -/
def codeVal (f c : Nat) : Val :=
  if f = 3 then ternVal c else if fmtInt f != 0 then intVal (fmtInt f) c else fltDec (fmtFlt f) c

/-- An array of stored rows in a scratchpad. -/
structure Arr where
  fmt : Nat
  base : Nat
  scale : Nat
  rscale : Nat
  pts : Nat
  pitch : Nat
  spitch : Nat
  deriving DecidableEq, Repr

/-- Code of element j of stored row r (Table 5.6: the row is one little-endian bit stream). -/
def Pkg.eltCode (p : Pkg) (g : Nat) (a : Arr) (r j : Nat) : Nat :=
  let w := fmtBits a.fmt
  fld (p.spNum g (a.base + r * a.pitch + w * j / 8) 4) (w * j % 8) w
/-- Pip4 block shift of element j of row r (Table 5.6). -/
def Pkg.pipShift (p : Pkg) (g : Nat) (a : Arr) (r j : Nat) : Nat :=
  fld (p.spNum g (a.scale + r * a.spitch + j / 32) 1) (4 * (j / 16 % 2)) 4
/-- Value of element j of stored row r with its scale (R143 to R146). -/
def Pkg.eltVal (p : Pkg) (g : Nat) (a : Arr) (r j : Nat) : Val :=
  let v := codeVal a.fmt (p.eltCode g a r j)
  if fmtMx a.fmt then valE8 v (p.spNum g (a.scale + r * a.spitch + j / 32) 1)
  else if a.fmt = 1 then
    let e := p.spNum g (a.rscale + r) 1
    if e = 255 then .nan (valNeg v) else valShift v ((e : Int) - 127 - p.pipShift g a r j)
  else if a.fmt = 3 then valMul v (fltDec fBF16 (p.spNum g (a.scale + r * a.spitch + 2 * (j / 32)) 2))
  else if fmtTensor a.fmt then valE8 v a.pts
  else v

/-- What a conversion is told: destination format, rounding, scale mode CEIL, and the destination's per-tensor scale. -/
structure CvtSpec where
  fmt : Nat
  rm : Nat
  ceil : Bool
  pts : Nat
  beyondInf : Bool                             -- CVT: beyond the FP32 range is ±Inf whatever RM says (Table 7.4)
  deriving DecidableEq, Repr

/-- Rounding mode of RM with the 16 random bits of the element. -/
def rmOf (rm r16 : Nat) : Rm := if rm = 1 then .rz else if rm = 2 then .sr r16 else .rne

/-- One element to convert: its exact value, whether it is active (R192), and its 16 random bits. -/
structure SrcEl where
  v : Val
  act : Bool
  r16 : Nat
  deriving DecidableEq, Repr

/-- What tracking and the engines count of a conversion (R155, R206). -/
structure CvtStats where
  amax : Nat × Nat := (0, 1)
  sat : Nat := 0
  ufl : Nat := 0
  nonfin : Nat := 0
  nan : Nat := 0
  inf : Nat := 0
  invalid : Nat := 0
  ovf : Nat := 0
  deriving DecidableEq, Repr
/-- Larger of two magnitudes. -/
def magMax (a b : Nat × Nat) : Nat × Nat := if a.1 * b.2 < b.1 * a.2 then b else a
def CvtStats.add (a b : CvtStats) : CvtStats :=
  ⟨magMax a.amax b.amax, a.sat + b.sat, a.ufl + b.ufl, a.nonfin + b.nonfin, a.nan + b.nan, a.inf + b.inf, a.invalid + b.invalid, a.ovf + b.ovf⟩

/-- Finite magnitude of a value. -/
def valMag : Val → Nat × Nat
  | .fin _ n d => (n, d)
  | _ => (0, 1)
/-- Largest finite magnitude of the active elements. -/
def amaxOf (xs : List SrcEl) : Nat × Nat := xs.foldl (fun m s => if s.act then magMax m (valMag s.v) else m) (0, 1)
/-- Does an active element of the list hold a non-finite value? -/
def anyNonfin (xs : List SrcEl) : Bool := xs.any fun s => s.act && !valFin s.v

/-- Largest finite magnitude of a format. -/
def fmtMax (f : Flt) : Nat × Nat := fltMag f (fltMaxCode f)
/-- Exponent of a block before clamping (R148). -/
def blockExp (f : Flt) (ceil : Bool) (m : Nat × Nat) : Int :=
  let e := flog2 m.1 m.2 - fltEmax f
  let t := fracShift (fmtMax f).1 (fmtMax f).2 e
  if ceil && decide (t.1 * m.2 < m.1 * t.2) then e + 1 else e
/-- x of an MX block (R148). -/
def mxExp (f : Flt) (ceil : Bool) (m : Nat × Nat) : Int :=
  if m.1 = 0 then -127 else clampI (blockExp f ceil m) (-127) 127

/-- Statistics of one converted element with written class `out` (0 finite, 1 Inf, 2 NaN). -/
def statsOf (s : SrcEl) (c : Cv) (out : Nat) (ieee : Bool) : CvtStats :=
  if !s.act then {} else
  { amax := valMag s.v, sat := b2n c.sat, ufl := b2n c.ufl, nonfin := b2n (!valFin s.v),
    nan := if out = 2 then 1 else 0, inf := if out = 1 then 1 else 0,
    invalid := if out = 2 && !valNan s.v then 1 else 0, ovf := if ieee && c.sat then 1 else 0 }
/-- Class of a written floating code. -/
def outClass (f : Flt) (c : Nat) : Nat := match fltDec f c with | .fin _ _ _ => 0 | .inf _ => 1 | .nan _ => 2

/-- One element to a format without block scales. -/
def cvtPlain (k : CvtSpec) (s : SrcEl) : Nat × CvtStats :=
  if !s.act then (0, {}) else
  let rm := rmOf k.rm s.r16
  if fmtInt k.fmt != 0 then
    let c := intConv (fmtInt k.fmt) rm s.v
    (c.code, statsOf s c 0 false)
  else if fmtTensor k.fmt then
    let f := fmtFlt k.fmt
    if k.pts = 255 then
      let c := fltNan f (valNeg s.v)
      (c, { statsOf s { code := c } 2 false with nonfin := 1 })
    else
      let c := fltSat f true rm (valShift s.v (127 - (k.pts : Int)))
      (c.code, statsOf s c (outClass f c.code) false)
  else
    let c := fltIeee (fmtFlt k.fmt) rm s.v
    let c := if k.fmt = 13 && k.beyondInf && c.sat then { c with code := fltInf fFP32 (valNeg s.v) } else c
    (c.code, statsOf s c (outClass (fmtFlt k.fmt) c.code) true)

/-- Elements of one block under a power-of-two exponent. -/
def cvtBlockElts (f : Flt) (rm : Nat) (x : Int) (xs : List SrcEl) : List (Nat × CvtStats) :=
  xs.map fun s => if !s.act then (0, {}) else
    let c := fltSat f false (rmOf rm s.r16) (valShift s.v (-x))
    (c.code, statsOf s c 0 false)
/-- Elements of a block written wholly as NaN. -/
def cvtNanElts (xs : List SrcEl) : List (Nat × CvtStats) := xs.map fun s => (0, if s.act then statsOf s { code := 0 } 2 false else {})

/-- One block of a ternary destination: scale, codes (R149, R152). DESIGN CHOICE (log 162): where the mean of non-zero values rounds to a
BF16 zero or infinity, x / scale has no value; every code is then 0 and each non-zero value an underflow. -/
def cvtTern (rm : Nat) (xs : List SrcEl) : Nat × List (Nat × CvtStats) :=
  if anyNonfin xs then (0x7FC0, cvtNanElts xs) else
  let act := xs.filter (·.act)
  let sum := act.foldl (fun q s => qAdd q ⟨((valMag s.v).1 : Int), (valMag s.v).2⟩) qZero
  let sc := if sum.n = 0 then 0 else (fltIeee fBF16 .rne (.fin false sum.n.natAbs (sum.d * act.length))).code
  let den : Nat × Nat := match fltDec fBF16 sc with | .fin _ n d => (n, d) | _ => (0, 1)
  (sc, xs.map fun s =>
    if !s.act then (0, {}) else
    let m := valMag s.v
    if den.1 = 0 then (0, statsOf s { code := 0, ufl := m.1 != 0 } 0 false) else
    let n := roundInt (rmOf rm s.r16) (m.1 * den.2) (m.2 * den.1)
    let code := if n = 0 then 0 else if valNeg s.v then 3 else 1
    (code, statsOf s { code := code, sat := decide (2 ≤ n), ufl := n == 0 && m.1 != 0 } 0 false))

/-- Blocks of n of a row. -/
def blocksOf {α : Type} (n : Nat) : Nat → List α → List (List α)
  | 0, _ => []
  | fuel + 1, l => if l.isEmpty then [] else l.take n :: blocksOf n fuel (l.drop n)

/-- A converted row: codes, block scales in order, row scale, and the counts. -/
structure CvtRow where
  codes : List Nat
  scales : List Nat
  rscale : Nat
  stats : CvtStats
  deriving DecidableEq, Repr
def mkRow (es : List (Nat × CvtStats)) (sc : List Nat) (r : Nat) : CvtRow :=
  ⟨es.map (·.1), sc, r, es.foldl (fun a e => a.add e.2) {}⟩

/-- Convert one stored row (R148 to R152, Table 5.7). -/
def cvtRow (k : CvtSpec) (xs : List SrcEl) : CvtRow :=
  let f := fmtFlt k.fmt
  if fmtMx k.fmt then
    let bs := (blocksOf 32 xs.length xs).map fun b =>
      if anyNonfin b then (255, cvtNanElts b)
      else
        let x := mxExp f k.ceil (amaxOf b)
        ((x + 127).toNat, cvtBlockElts f k.rm x b)
    mkRow (bs.map (·.2)).flatten (bs.map (·.1)) 0
  else if k.fmt = 1 then
    let blocks := blocksOf 16 xs.length xs
    if anyNonfin xs then mkRow (cvtNanElts xs) (blocks.map fun _ => 0) 255
    else
      let xr := mxExp f k.ceil (amaxOf xs)
      let bs := blocks.map fun b =>
        let m := amaxOf b
        let sh : Nat := if m.1 = 0 then 15 else Nat.min 15 (xr - blockExp f k.ceil m).toNat
        (sh, cvtBlockElts f k.rm (xr - sh) b)
      mkRow (bs.map (·.2)).flatten (bs.map (·.1)) (xr + 127).toNat
  else if k.fmt = 3 then
    let bs := (blocksOf 32 xs.length xs).map (cvtTern k.rm)
    mkRow (bs.map (·.2)).flatten (bs.map (·.1)) 0
  else mkRow (xs.map (cvtPlain k)) [] 0

/-- Overwrite packed elements from element j of a row; `keep` says which keep their old code (R192, R193). -/
def Pkg.putCodes (p : Pkg) (g f at_ j : Nat) (codes : List Nat) (keep : List Bool) : Pkg :=
  let w := fmtBits f
  let first := w * j / 8
  let n := ceilDiv (w * (j + codes.length)) 8 - first
  if codes.isEmpty then p else
  let old := p.spNum g (at_ + first) n
  let r := (codes.zipIdx.zip keep).foldl (fun r x => if x.2 then r else setFld r (w * (j + x.1.2) - 8 * first) w x.1.1) old
  p.spStore g (at_ + first) (toLe n r)

/-- Write the scales of one row: E8M0 bytes, BF16 words, or Pip4 shifts with the row scale; the nibble beyond an
odd count of shifts is kept (R193). -/
def Pkg.putScales (p : Pkg) (g f scale rscale : Nat) (r : CvtRow) : Pkg :=
  if fmtMx f then p.spStore g scale ((r.scales.map (toLe 1)).flatten)
  else if f = 3 then p.spStore g scale ((r.scales.map (toLe 2)).flatten)
  else if f = 1 then
    let n := ceilDiv r.scales.length 2
    let old := p.spNum g scale n
    let v := r.scales.zipIdx.foldl (fun v x => setFld v (4 * x.2) 4 x.1) old
    (p.spStore g scale (toLe n v)).spStore g rscale (toLe 1 r.rscale)
  else p

/-- FP32 code of a magnitude as a tracking entry keeps it: exact where FP32 holds it, else one of the two codes
beside it, which the manual does not say (free). -/
def amaxCode (m : Nat × Nat) : Nat :=
  let lo := (fltIeee fFP32 .rz (.fin false m.1 m.2)).code
  let back := fltMag fFP32 lo
  if back.1 * m.2 = m.1 * back.2 then lo else Nat.min (lo + Config.vecFn 200 m.1 m.2 % 2) (fltMaxCode fFP32)

/-- Add a conversion's counts to an item's tracking accumulation (R155, R156): the maximum, then saturations, underflows and non-finite
elements, of 64 bits each, so that the totals go on when a step's count stops (R158). -/
def trackAdd (t : Rec) (s : CvtStats) : Rec :=
  let t := setFld t 0 32 (Nat.max (fld t 0 32) (amaxCode s.amax))
  let t := setFld t 32 64 (satAdd 64 (fld t 32 64) s.sat)
  let t := setFld t 96 64 (satAdd 64 (fld t 96 64) s.ufl)
  setFld t 160 64 (satAdd 64 (fld t 160 64) s.nonfin)

end Sys2Proof.Machine
end

