-- ==== Sys2Proof/Machine/Engine.lean ====
section
/-! DEFINITION. The grant of the matrix engine, revocation, and what a killed or faulted thread leaves behind
in its core (R182, R183, R184, R385). -/

namespace Sys2Proof.Machine

/-- The live accumulator set of a core. -/
def CoreS.live (c : CoreS) : AccSet := if c.liveB then c.accB else c.accA
def CoreS.shadow (c : CoreS) : AccSet := if c.liveB then c.accA else c.accB
def CoreS.setLive (c : CoreS) (a : AccSet) : CoreS := if c.liveB then { c with accB := a } else { c with accA := a }
def CoreS.setShadow (c : CoreS) (a : AccSet) : CoreS := if c.liveB then { c with accA := a } else { c with accB := a }

/-- Is the context of a thread latency-critical? -/
def Pkg.thrLc (p : Pkg) (t : Nat) : Bool := (p.ctx (p.thr t).ctx).lc

/-- The thread-state snapshot of R183. -/
def snapOf (t : Thr) (pc : BitVec 24) : Snap := ⟨t.s, t.a, t.vl, t.vm, t.st, pc⟩
def Thr.restore (t : Thr) (k : Snap) : Thr :=
  -- the PC after a START is 0 only when it has left the range of R230
  { t with s := k.s, a := k.a, vl := k.vl, vm := k.vm, st := k.st, pc := k.pc, pcOut := k.pc == 0 }

/-- A thread blocked in the engine-park state becomes ready (R182). -/
def Thr.unpark (t : Thr) : Thr :=
  match t.wait with
  | .park => { t with state := if t.state = .blocked then .ready else t.state, wait := .none }
  | _ => t

/-- Widen the drained region of the open sequence by an operation (R175, R180). -/
def CoreS.widen (c : CoreS) (op : TileOp) : CoreS :=
  if op.gemv then { c with seqGemv := Nat.max c.seqGemv (fld op.desc 368 14 + 1) }
  else { c with seqRows := Nat.max c.seqRows (fld op.desc 288 7 + 1), seqCols := Nat.max c.seqCols (fld op.desc 296 7 + 1) }

/-- An operation comes to the head: its first chunk; a START clears the live set, its exponent fixed by
EXP_EXPLICIT or left to R169. -/
def CoreS.opHead (c : CoreS) (op : TileOp) : CoreS :=
  let c := { c with chunk := 0, repeats := 0 }
  if bit op.desc 330 then
    ({ c with chosen := bit op.desc 331 }).setLive { cells := [], exp := if bit op.desc 331 then sgn 10 (fld op.desc 336 10) else -512 }
  else { c with chosen := true }

/-- The engine takes a START: the sequence opens. -/
def Pkg.takeStart (p : Pkg) (g : Nat) (op : TileOp) : Pkg :=
  let c := p.core g
  let c := { c with
    owner := some op.thr, running := [op], seqStart := some op
    heldSeqs := if c.owner == some op.thr then c.heldSeqs + 1 else 1
    seqRows := 0, seqCols := 0, seqGemv := 0, seqRepeats := 0, seqSat := 0 }
  ((p.setCore g ((c.opHead op).widen op)).bump .engTseq g).modThr op.thr Thr.unpark

/-- The parked START that R183 grants next: LC before BE, the longest parked first. -/
def Pkg.pickStart (p : Pkg) (ps : List TileOp) : Option TileOp :=
  match ps.find? fun o => p.thrLc o.thr with
  | some o => some o
  | none => ps.head?

/-- The decision of R183 when the sequence of `last` has ended: the owner keeps the grant below BURST or while
no other START is parked; otherwise every parked START takes part, the owner's own among them. -/
def Pkg.engGrant (p : Pkg) (g : Nat) (last : Option Nat) : Pkg :=
  let c := p.core g
  let p := p.setCore g { c with running := [], seqStart := none }
  let own := match last with
    | some t => c.parked.find? fun o => o.thr == t
    | none => none
  let others := c.parked.any fun o => last != some o.thr
  let keep : Bool := match own with
    | some _ => decide (c.heldSeqs < c.burst) || !others
    | none => false
  match (if keep then own else p.pickStart c.parked) with
  | none => p.setCore g { p.core g with owner := none }
  | some o =>
    let c := p.core g
    (p.setCore g { c with owner := last, parked := c.parked.erase o }).takeStart g o

/-- A thread forgets a background operation that never ran: its tag is free again. -/
def Thr.dropBg (t : Thr) (id tag : Nat) : Thr :=
  { t with bg := t.bg.filter (fun b => b.id != id), pend := if tag = 0 then t.pend else t.pend &&& ~~~(1#64 <<< tag) }

/-- The item of thread t counts as pre-empted (R378): R42 condition 4. -/
def Pkg.markPreempt (p : Pkg) (t : Nat) : Pkg :=
  let th := p.thr t
  let f (i : Item) : Item := { i with causes := i.causes ||| 2 ^ 11, preempted := true }
  p.modSlot th.slot fun s => if th.kind = 0 then { s with fwd := s.fwd.map f } else { s with bwd := s.bwd.map f }

/-- An LC START revokes a BE owner (R183): live set discarded, the thread back at its snapshot, the START that opened its sequence parked
again. What it parked after that START it issues again. -/
def Pkg.engRevoke (p : Pkg) (g : Nat) : Pkg :=
  let c := p.core g
  match c.owner, c.seqStart with
  | some o, some start =>
    let p := match c.swap with
      | some d => p.modThr o fun t => t.dropBg d.bgId d.tag
      | none => p
    let p := match start.snap with
      | some k => p.modThr o fun t => { t.restore k with state := if t.state = TState.blocked then TState.ready else t.state, wait := Wait.none }
      | none => p
    let c := { c with owner := none, running := [], seqStart := none, swap := none, parked := (c.parked.filter fun (x : TileOp) => x.thr != o) ++ [start] }
    let p := (p.setCore g (c.setLive {})).setFlag .engStatus g 3
    let p := (p.bump .engRevoke g).markPreempt o
    p.modCtx (p.thr o).ctx fun x => { x with tally := { x.tally with revokes := (x.tally.revokes + 1) % 2 ^ 32 } }
  | _, _ => p

/-- Stored rows a drain writes: their number and their length in elements (R176). -/
def drainShape (d : Drain) : Nat × Nat := if bit d.desc 151 then (d.cols, d.rows) else (d.rows, d.cols)
/-- Scratchpad ranges (offset, bytes) of a drain's tile and scales. -/
def drainRanges (d : Drain) : List (Nat × Nat) :=
  if bit d.desc 152 then [] else
  let f := fld d.desc 144 4
  let sh := drainShape d
  ((List.range sh.1).map fun r =>
    [(fld d.desc 0 22 + r * fld d.desc 96 20, rowBytes f sh.2)] ++
      (if fmtBlock f then [(fld d.desc 32 22 + r * fld d.desc 128 16, scaleBytes f sh.2)] else []) ++
      (if f = 1 then [(fld d.desc 64 22 + r, 1)] else [])).flatten
/-- The destination of an abandoned drain is undefined until it is rewritten (R184): free bytes. -/
def Pkg.drainAbandon (p : Pkg) (g : Nat) (d : Drain) : Pkg :=
  ((drainRanges d).foldl (fun p r => p.spFree g r.1 r.2) p).setFlag .engStatus g 5

/-- The endpoint of an operation's channel source (R225, R234). -/
def VecOp.chan (o : VecOp) : Option Nat :=
  if o.ak = 2 then some o.av else if o.bk = 2 then some o.bv else if o.ck = 2 then some o.cv else none
/-- Elements of the next micro-operation (R189, R194). -/
def VecOp.size (o : VecOp) : Nat := Nat.min 4096 (o.vl - o.pos)
/-- Does the operation write only at the end of each row (R197, R200)? Reductions and DSOFTMAX. -/
def VecOp.rowLevel (o : VecOp) : Bool := o.cls == 5 && (o.opc == 42 || (decide (47 ≤ o.opc) && decide (o.opc ≤ 50)))
/-- Words the next micro-operation still needs from its channel. -/
def VecOp.need (o : VecOp) : Nat :=
  let n := if o.rowLevel then o.pos + o.size else o.size
  ceilDiv (n * (fmtBits o.fmt / 8) - o.carry.length) 64
/-- Are the words of its next micro-operation there? -/
def Pkg.vecReady (p : Pkg) (g : Nat) (o : VecOp) : Bool :=
  match o.chan with
  | some e => decide (o.need ≤ epUnread (p.ep g e))
  | none => true
/-- First operation of each thread, in the order their requests were parked. -/
def firstOps : List Nat → List VecOp → List VecOp
  | _, [] => []
  | seen, o :: os => if seen.contains o.thr then firstOps seen os else o :: firstOps (o.thr :: seen) os
/-- The engine takes its next micro-operation (R207, R325): LC before BE, longest parked first; its channel words
are consumed as it begins. Threads whose next micro-operation lacks words block (R234). -/
def Pkg.vecNext (p : Pkg) (g : Nat) : Pkg :=
  let c := p.core g
  let fs := firstOps [] c.vops
  let p := if c.vrun.isSome then p else
    let rs := fs.filter fun o => p.vecReady g o
    match (match rs.find? fun o => p.thrLc o.thr with | some o => some o | none => rs.head?) with
    | none => p
    | some o =>
      match o.chan with
      | none => p.setCore g { c with vrun := some o.thr }
      | some e =>
        let bs := p.epBytes g e o.need
        let p := p.setCore g { c with
          vrun := some o.thr
          vops := c.vops.map fun v => if v.thr == o.thr && v.bgId == o.bgId then { v with carry := v.carry ++ bs } else v }
        (p.epTake g e o.need).epGrants g e
  fs.foldl (fun p o =>
    match o.chan with
    | some e =>
      if (p.core g).vrun != some o.thr && !p.vecReady g o && (p.thr o.thr).state == .ready then
        p.modThr o.thr fun t => { t with state := .blocked, wait := .chRecv e }
      else p
    | none => p) p

/-- Remove thread t from its core's engines: its sequence is discarded, its drain abandoned, its parked START
and its vector operations dropped (R184, R245). The grant passes on. -/
def Pkg.dropEngines (p : Pkg) (t : Nat) : Pkg :=
  let g := coreOf t
  let c := p.core g
  let mine := c.owner == some t
  let old := c.drain
  let dr := match c.drain with | some d => d.thr == t | none => false
  let c := { c with
    parked := c.parked.filter fun o => o.thr != t
    drain := if dr then none else c.drain
    swap := match c.swap with | some d => if d.thr == t then none else c.swap | none => none
    vops := c.vops.filter fun o => o.thr != t
    vrun := if c.vrun == some t then none else c.vrun }
  let c := if mine then c.setLive {} else c
  let p := p.setCore g c
  let p := match old with
    | some d => if d.thr = t then p.drainAbandon g d else p
    | none => p
  let p := if mine then (p.modCore g fun c => { c with owner := none, running := [], seqStart := none }).engGrant g none else p
  p.vecNext g

/-- Credits of sends staged in a group that is not committed return to their connections (R255). -/
def Pkg.returnCredits (p : Pkg) (g : Nat) (es : List Effect) : Pkg :=
  es.foldl (fun p e => match e with
    | .send n _ w _ o => p.returnCredit g n w o
    | _ => p) p

/-- A thread leaves its attempt: engines, waiters and requests of its own go, credits return; it is idle in
the slot's reservation, or stays faulted (R245, R379). At an item's end event (`ended`) its untagged background
operations and vector operations run on (R236). -/
def Pkg.dropThr (p : Pkg) (t : Nat) (ended : Bool) : Pkg :=
  let th := p.thr t
  let g := coreOf t
  let p := if ended then
      let c := p.core g
      let mine := c.owner == some t && (match c.swap with | some d => d.thr != t | none => true)
      let p := p.setCore g { c with parked := c.parked.filter fun o => o.thr != t }
      if mine then (p.modCore g fun c => { c.setLive {} with owner := none, running := [], seqStart := none }).engGrant g none else p
    else p.dropEngines t
  let p := p.returnCredits g th.grp
  let p := p.dropReqs fun w => match w with | .sync x => x == t | .mem x _ _ => x == t && !ended | _ => false
  let p := p.modSlot th.slot fun s => { s with
    stashWait := s.stashWait.filter (fun w => w.1 != t), stashPend := s.stashPend.filter (fun w => w.1 != t), stashFind := s.stashFind.filter (fun w => w.1 != t) }
  let p := p.modCore g fun c => { c with issuer := if c.issuer == some (threadIn t) then none else c.issuer }
  if th.state = .faulted then p.setThr t { th with bg := [], grp := [], pend := 0, wait := .none }
  else p.setThr t { ({} : Thr) with
    state := .idle, slot := th.slot, ctx := th.ctx, fault := th.fault, finst := th.finst
    bg := if ended then th.bg else [], bgNext := th.bgNext }

end Sys2Proof.Machine
end

