-- ==== Sys2Proof/Machine/Cache.lean ====
section
/-! DEFINITION. The memory-side cache (R296): which lines it holds. Data always stand in memory, so a cache
movement changes no byte. -/

namespace Sys2Proof.Machine

/-- What one access did to its set: the set, most recent line first; a hit; a KEEP that became NORMAL; a dirty line written back. -/
structure CacheAns where
  ways : List CLine
  hit : Bool
  denied : Bool
  victim : Option Nat := none
  deriving DecidableEq, Repr

/-- The line that goes when 16 ways are full: the least recently used that is not sticky. -/
def cacheVictim (ways : List CLine) : Option CLine :=
  if ways.length < 16 then none else
  match ways.reverse.find? fun w => !w.sticky with
  | some v => some v
  | none => ways.getLast?
/-- The set without its victim. -/
def cacheEvict (ways : List CLine) : List CLine :=
  match cacheVictim ways with
  | some v => ways.erase v
  | none => ways

/-- One access under a hint of Table 10.7: 0 NORMAL, 1 STREAM, 2 KEEP, 3 LAST_USE. -/
def cacheAccess (ways : List CLine) (line : Nat) (write : Bool) (hint : Nat) : CacheAns :=
  let rest := ways.filter fun w => w.line != line
  let sticky := (rest.filter (·.sticky)).length
  match ways.find? fun w => w.line == line with
  | some w =>
    let dirty := w.dirty || write
    if hint = 1 || (hint = 3 && write) then
      ⟨ways.map fun x => if x.line == line then { x with dirty := dirty } else x, true, false, none⟩
    else if hint = 3 then ⟨rest, true, false, none⟩
    else if hint = 2 then
      let ok := w.sticky || decide (sticky < 12)
      ⟨{ w with dirty := dirty, sticky := ok } :: rest, true, !ok, none⟩
    else ⟨{ w with dirty := dirty } :: rest, true, false, none⟩
  | none =>
    if hint = 1 || hint = 3 then ⟨ways, false, false, none⟩
    else
      let ok := hint == 2 && decide (sticky < 12)
      ⟨{ line := line, dirty := write, sticky := ok } :: cacheEvict ways, false, hint == 2 && !ok,
        match cacheVictim ways with | some v => if v.dirty then some v.line else none | none => none⟩

/-- Sets of one cache: 128 MiB of 64-byte lines, 16 ways. -/
def cacheSets : Nat := 131072
/-- Set of a line (DESIGN CHOICE, log entry 25: the line number modulo the number of sets). -/
def setOf (line : Nat) : Nat := line % cacheSets

/-- Bandwidth partition of an address: that of its region; 0 outside every region. -/
def Pkg.partOf (p : Pkg) (a : Nat) : Nat :=
  ((p.regions.find? fun g => decide (g.base ≤ a) && decide (a < g.base + g.pages * 65536)).map (·.partition)).getD 0
/-- What an access to a line does to its set. -/
def Pkg.cacheAns (p : Pkg) (line : Nat) (write : Bool) (hint : Nat) : CacheAns :=
  cacheAccess (tabGet [] (p.memDie (memDieOfStack (stackOf (line * 64)))).cache (setOf line)) line write hint
/-- Apply an access to the cache of the memory die that drives the line's stack, with its counters, kept per partition and
stack (R314), and the lines served (R313). -/
def Pkg.cacheTouch (p : Pkg) (line : Nat) (write : Bool) (hint part : Nat) : Pkg :=
  let s := stackOf (line * 64)
  let m := memDieOfStack s
  let r := p.cacheAns line write hint
  let p := p.modMemDie m fun d => { d with cache := tabSet [] d.cache (setOf line) r.ways }
  let p := p.modStack s fun k => { k with usedLines := tabMod 0 k.usedLines part fun v => (v + 1) % 2 ^ 64 }
  let p := p.bump (if r.hit then .mdCacheHit else .mdCacheMiss) (16 * part + s)
  if r.denied then p.bump .mdKeepDenied (16 * part + s) else p

/-- Device traffic of a range at the caches of its memory dies (R298); a reshard is charged to the partition of its staging region
(R350). -/
def Pkg.devTouch (p : Pkg) (a n : Nat) (write : Bool) (hint : Nat) (part : Option Nat := none) : Pkg :=
  if isStackAddr a && n != 0 then (linesOf a n).foldl (fun p l => p.cacheTouch l write hint (part.getD (p.partOf (l * 64)))) p else p

/-- Stickiness ends where a region is unmapped (R296, R458). -/
def Pkg.unstick (p : Pkg) (r : Region) : Pkg :=
  { p with memDies := p.memDies.map fun e => (e.1, { e.2 with cache := e.2.cache.map fun c => (c.1, c.2.map fun w =>
    if decide (r.base ≤ w.line * 64) && decide (w.line * 64 < r.base + r.pages * 65536) then { w with sticky := false } else w) }) }

end Sys2Proof.Machine
end

