-- ==== Sys2Proof/Machine/Lines.lean ====
section
/-! DEFINITION. Lines at their memory dies (R10, R284 to R293, R296, R298): address decode, codewords and their outcomes, row
repair and pin marks, and the one way in which every access of a range reaches cache and codewords. -/

namespace Sys2Proof.Machine

/-! ## Placement (R284) -/

/-- Place of a stack offset: channel, rank, bank, row, column. -/
structure MemLoc where
  channel : Nat
  rank : Nat
  bank : Nat
  row : Nat
  column : Nat
  deriving DecidableEq, Repr
/-- Decode of a stack offset (R284). -/
def memLoc (o : Nat) : MemLoc :=
  let r := o % 2 ^ 35
  let f4 := Nat.xor (Nat.xor (Nat.xor (Nat.xor (fld r 15 4) (fld r 19 4)) (fld r 23 4)) (fld r 27 4)) (fld r 31 4)
  { channel := Nat.xor (fld r 6 4) f4, rank := o / 2 ^ 35
    bank := Nat.xor (Nat.xor (Nat.xor (fld r 15 5) (fld r 20 5)) (fld r 25 5)) (fld r 30 5), row := fld r 20 15, column := fld r 10 5 }
/-- Place of a line. -/
def locOf (line : Nat) : MemLoc := memLoc (line * 64 % stackSize)
/-- Number of a row within its stack. -/
def rowKey (m : MemLoc) : Nat := ((m.rank * 16 + m.channel) * 32 + m.bank) * 32768 + m.row
/-- Number of a pin within its stack's channels and ranks. -/
def pinKey (m : MemLoc) (pin : Nat) : Nat := (m.rank * 16 + m.channel) * 72 + pin
/-- Counter instance of a stack's channel. -/
def chanInst (s : Nat) (m : MemLoc) : Nat := 16 * s + m.channel
/-- Die that drives a stack. -/
def dieOfStack (s : Nat) : Nat := dieOfMem (memDieOfStack s)

/-! ## Codewords (R285 to R287) -/

/-- TAG of a line (Table 10.3). -/
def lineTag (line : Nat) : Nat := (toLe 6 line).foldl (fun a b => Nat.xor a b.toNat) 0
/-- CRC of a line's data, POISON and TAG. -/
def lineCrc (data : List Byte) (poison tag : Nat) : Nat := crc16 (data ++ [BitVec.ofNat 8 poison, BitVec.ofNat 8 tag])
/-- The 72 symbols of a line (R285). -/
def lineWord (data : List Byte) (poison : Bool) (line : Nat) : List Nat :=
  let po := if poison then 0xA5 else 0
  let c := lineCrc data po (lineTag line)
  let m := data.map (·.toNat) ++ [po, lineTag line, c % 256, c / 256]
  m ++ rsParity 4 m
/-- Symbols with errors added. -/
def withErrs (w : List Nat) (es : List (Fin 72 × Byte)) : List Nat := es.foldl (fun w e => w.set e.1 (Nat.xor (w.getD e.1 0) e.2.toNat)) w

/-- How a codeword decodes: good with its symbols and the corrected pins, uncorrectable, CRC mismatch, TAG mismatch. -/
inductive LineOut where
  | good (w : List Nat) (fixed : List Nat)
  | bad
  | crc
  | tag
  deriving DecidableEq, Repr
/-- Decode one codeword under marked pins (R285, R287, R289). -/
def decodeLine (w : List Nat) (marks : List Nat) (line : Nat) : LineOut :=
  match rsDecode 4 w marks with
  | none => .bad
  | some c =>
    let data := (c.take 64).map (BitVec.ofNat 8)
    if lineCrc data (c.getD 64 0) (c.getD 65 0) != c.getD 66 0 + 256 * c.getD 67 0 then .crc
    else if c.getD 65 0 != lineTag line then .tag
    else .good c ((List.range 72).filter fun i => c.getD i 0 != w.getD i 0)

/-! ## Row repair and pin marks (R289, R292, R293) -/

/-- A row-repair entry (Table 10.5). -/
def repairEnt (s : Nat) (m : MemLoc) (spare : Nat) : Rec :=
  put 0 2 1 + put 2 4 s + put 6 4 m.channel + put 10 2 m.rank + put 12 5 m.bank + put 17 15 m.row + put 32 4 spare
/-- A pin-mark entry. -/
def markEnt (s ch rank pin : Nat) : Rec := put 0 2 2 + put 2 4 s + put 6 4 ch + put 10 2 rank + put 36 7 pin
/-- Does a repair entry lie in the bank of a place? -/
def inBank (e : Rec) (m : MemLoc) : Bool := fld e 6 4 == m.channel && fld e 10 2 == m.rank && fld e 12 5 == m.bank
/-- Spare rows of a bank that are not used. -/
def Stack.freeSpares (k : Stack) (m : MemLoc) : List Nat := (List.range 16).filter fun n => !(k.repairs.any fun e => inBank e m && fld e 32 4 == n)
/-- Is a row being copied? -/
def Stack.rowHeld (k : Stack) (m : MemLoc) : Bool := k.repairing.contains (m.channel, m.rank, m.bank, m.row)
/-- Marked pins of a place. -/
def Stack.marksAt (k : Stack) (m : MemLoc) : List Nat := (k.marks.filter fun x => x.1 == m.channel && x.2.1 == m.rank).map (·.2.2)

/-- The die starts to copy a failing row to a spare, or has none left (R293). -/
def Pkg.rowRepair (p : Pkg) (s : Nat) (m : MemLoc) : Pkg :=
  let k := p.stack s
  if k.rowHeld m then p
  else
    let busy := (k.repairing.filter fun x => x.1 == m.channel && x.2.1 == m.rank && x.2.2.1 == m.bank).length
    if (k.freeSpares m).length ≤ busy then (p.setFlag .mdStatus (dieOfStack s) 6).raise .mdRepairFull (dieOfStack s) noCtx s (rowKey m)
    else p.modStack s fun k => { k with repairing := k.repairing ++ [(m.channel, m.rank, m.bank, m.row)] }
/-- A pin that exceeds its corrections is marked (R289). -/
def Pkg.pinMark (p : Pkg) (s : Nat) (m : MemLoc) (pin : Nat) : Pkg :=
  let marks := (p.stack s).marksAt m
  if marks.contains pin then p
  else if 2 ≤ marks.length then p.raise .mdPinMarkFull (dieOfStack s) noCtx s (markEnt s m.channel m.rank pin)
  else (p.modStack s fun k => { k with marks := k.marks ++ [(m.channel, m.rank, pin)] }).raiseHb .mdPinMark (dieOfStack s) s (markEnt s m.channel m.rank pin)

/-- A corrected codeword: counters, rate-limited event, marks and repair (R287, R289, R291, R293). -/
def Pkg.lineFixed (p : Pkg) (s line : Nat) (m : MemLoc) (fixed : List Nat) : Pkg :=
  let p := p.bump .mdCe (chanInst s m)
  let p := fixed.foldl (fun p n => p.bump .mdPinCe (chanInst s m * 72 + n)) p
  let last := tabGet 0 (p.stack s).ceEvNs m.channel
  let p := if last = 0 || last + 999999 < p.now then
      (p.modStack s fun k => { k with ceEvNs := tabSet 0 k.ceEvNs m.channel (p.now + 1) }).raise .mdCe (dieOfStack s) noCtx (chanInst s m) line
    else p
  let p := p.modStack s fun k => { k with
    ce := k.ce + 1, rowCe := tabMod 0 k.rowCe (rowKey m) fun v => v + 1
    pinCe := fixed.foldl (fun t n => tabMod 0 t (pinKey m n) fun v => v + 1) k.pinCe }
  let p := fixed.foldl (fun p n => if tabGet 0 (p.stack s).pinCe (pinKey m n) = 1025 then p.pinMark s m n else p) p
  if tabGet 0 (p.stack s).rowCe (rowKey m) = 65 then p.rowRepair s m else p

/-- The read of a line from its stack (R287): its bytes, whether they are poisoned, and what the die does. -/
def Pkg.lineRead (p : Pkg) (line : Nat) (err : LineErr) : List Byte × Bool × Pkg :=
  let s := stackOf (line * 64)
  let m := locOf line
  let marks := (p.stack s).marksAt m
  let word := lineWord (p.load (line * 64) 64) (p.linePoison line) line
  let d := dieOfStack s
  let good (w : List Nat) (fixed : List Nat) : List Byte × Bool × Pkg :=
    let data := (w.take 64).map (BitVec.ofNat 8)
    let q := if fixed.isEmpty then p else
      let p := if p.undefLine line then p else { p with mem := memPut p.mem (line * 64) data }
      p.lineFixed s line m fixed
    (data, w.getD 64 0 != 0, q)
  match decodeLine (withErrs word err.first) marks line with
  | .good w fixed => good w fixed
  | _ =>
    let raw := withErrs word err.again
    let data := (raw.take 64).map (BitVec.ofNat 8)
    match decodeLine raw marks line with
    | .good w fixed => good w fixed
    | .tag => (data, true, ((p.bump .mdTagErr (chanInst s m)).setFlag .mdStatus d 3).raise .mdTagErr d noCtx (chanInst s m) line)
    | o =>
      let p := if o = .crc then (p.bump .mdMiscorrect (chanInst s m)).setFlag .mdStatus d 2 else p
      let p := ((p.bump .mdUe (chanInst s m)).setFlag .mdStatus d 1).raise .mdUe d noCtx (chanInst s m) line
      let p := ({ p with mem := memPut p.mem (line * 64) data }.setPoison line true).setUndef line false
      (data, true, p.rowRepair s m)

/-! ## Accesses of a range (R10, R11, R293, R294, R296, R298) -/

/-- Errors that the codewords of lines show at one act: line and pattern. -/
abbrev LineErrs := List (Nat × LineErr)
/-- The errors of one line. -/
def errOf (es : LineErrs) (l : Nat) : Option LineErr := (es.find? fun e => e.1 == l).map (·.2)

/-- A line's access at the cache (R296); the codeword of a dirty line that leaves is corrected as it is written back (R291). -/
def Pkg.lineCache (p : Pkg) (l : Nat) (write : Bool) (hint part : Nat) (es : LineErrs) : Pkg :=
  let r := p.cacheAns l write hint
  let p := p.cacheTouch l write hint part
  match r.victim with
  | none => p
  | some v => match errOf es v with
    | some e => (p.lineRead v e).2.2
    | none => p
/-- One line is read at its die: its bytes, whether it is returned poisoned, what the die does. -/
def Pkg.lineServe (p : Pkg) (l hint : Nat) (es : LineErrs) : List Byte × Bool × Pkg :=
  let p := p.lineCache l false hint (p.partOf (l * 64)) es
  match errOf es l with
  | some e => p.lineRead l e
  | none => (p.lineBytes l, p.linePoison l, p)
/-- A range of one requester is read under a hint (R287, R296, R297): the bytes, any line poisoned, the package after it. A scratchpad
window has neither cache nor codewords. -/
def Pkg.memRead (p : Pkg) (a n hint : Nat) (es : LineErrs) : List Byte × Bool × Pkg :=
  if !isStackAddr a || n = 0 then (p.load a n, false, p) else
  let r := (linesOf a n).foldl (fun (x : List Byte × Bool × Pkg) l =>
    let y := x.2.2.lineServe l hint es
    (x.1 ++ y.1, x.2.1 || y.2.1, y.2.2)) (([] : List Byte), false, p)
  ((r.1.drop (a % 64)).take n, r.2.1, r.2.2.lastUse hint a n)
/-- A range is written under a hint (R287, R294, R296): a line written in part is read first. -/
def Pkg.memWrite (p : Pkg) (a : Nat) (bs : List Byte) (hint : Nat) (es : LineErrs) : Pkg :=
  if !isStackAddr a || bs.isEmpty then p.store a bs else
  let whole := wholeLines a bs.length
  let p := (linesOf a bs.length).foldl (fun p l =>
    let p := p.lineCache l true hint (p.partOf (l * 64)) es
    match errOf es l with
    | some e => if whole.contains l then p else (p.lineRead l e).2.2
    | none => p) p
  p.store a bs

/-- The line an access that waits at a die names. -/
def MemAcc.lines : MemAcc → List Nat
  | .line a => [a.line]
  | .remote k _ => linesOf (fld k.kspec.toNat 0 48) (fld k.kspec.toNat 52 14)
  | .write _ a bs _ _ => linesOf a bs.length
/-- Does an access of a range wait: for a row that is being copied (R293, R312), or behind an earlier access to the same line (R294)? -/
def Pkg.linesHeld (p : Pkg) (a n : Nat) : Bool :=
  isStackAddr a && (linesOf a n).any fun l =>
    (p.stack (stackOf (l * 64))).rowHeld (locOf l) ||
      (p.memDie (memDieOfStack (stackOf (l * 64)))).waiting.any fun w => w.lines.contains l
/-- How the memory dies take an access of a range now. -/
def Pkg.memReady (p : Pkg) (a n : Nat) : Access :=
  match p.stackTest a n with
  | .ok => if p.linesHeld a n then .waits else .ok
  | x => x
/-- Parts of a range, one for each stack it touches, as (offset, bytes) (R11). -/
def memParts (a n : Nat) : List (Nat × Nat) :=
  if !isStackAddr a then [(0, n)] else
  (stacksOf a n).map fun s =>
    let lo := Nat.max a (s * stackSize)
    (lo - a, Nat.min (a + n) ((s + 1) * stackSize) - lo)

end Sys2Proof.Machine
end

