-- ==== Sys2Proof/Machine/Rng.lean ====
section
/-! DEFINITION. The counter generator of R202 and its counters (R153, R203, R204). -/

namespace Sys2Proof

/-- The four 32-bit words of the generator. -/
structure RngW where
  x0 : BitVec 32
  x1 : BitVec 32
  x2 : BitVec 32
  x3 : BitVec 32
  deriving DecidableEq, Repr

/-- Word i of a 128-bit number. -/
def rngWord (k : Nat) (i : Nat) : BitVec 32 := BitVec.ofNat 32 (fld k (32 * (i % 4)) 32)

/-- One round of R202. -/
def rngRound (k : Nat) (r : Nat) (w : RngW) : RngW :=
  let x0 := w.x0 + w.x1
  let x3 := (w.x3 ^^^ x0).rotateLeft 11
  let x2 := w.x2 + x3
  let x1 := (w.x1 ^^^ x2).rotateLeft 19
  let x0 := x0 + x3
  let x2 := (x2 ^^^ x0).rotateLeft 5
  let x1 := x1 + x2
  let x3 := (x3 ^^^ x1).rotateLeft 23
  { x0 := (x0 ^^^ rngWord k (0 + r + 1)) + BitVec.ofNat 32 ((r + 1) * 0x9E3779B9)
    x1 := x1 ^^^ rngWord k (1 + r + 1)
    x2 := x2 ^^^ rngWord k (2 + r + 1)
    x3 := x3 ^^^ rngWord k (3 + r + 1) }

/-- Rounds r to r + n − 1. -/
def rngRounds (k : Nat) : Nat → Nat → RngW → RngW
  | 0, _, w => w
  | n + 1, r, w => rngRounds k n (r + 1) (rngRound k r w)

/-- gen(K, C): 128 bits (R202). -/
def gen (k c : Nat) : Nat :=
  let w : RngW := ⟨rngWord c 0 ^^^ rngWord k 0, rngWord c 1 ^^^ rngWord k 1,
    rngWord c 2 ^^^ rngWord k 2, rngWord c 3 ^^^ rngWord k 3⟩
  let w := rngRounds k 10 0 w
  put 0 32 w.x0.toNat + put 32 32 w.x1.toNat + put 64 32 w.x2.toNat + put 96 32 w.x3.toNat

/-- Counter of a derived stream (Table 5.9). -/
def drawCounter (group mb tag purpose : Nat) : Nat :=
  put 0 32 group + put 32 24 mb + put 56 16 (fld tag 0 16) + put 72 8 purpose + put 80 16 (fld tag 16 16)

/-- The 16 bits of element `n` (R153). -/
def draw16 (key mb tag purpose n : Nat) : Nat :=
  fld (gen key (drawCounter (n / 8) mb tag purpose)) (16 * (n % 8)) 16

/-- The 32 bits of element `n` (R204). -/
def draw32 (key mb tag purpose n : Nat) : Nat :=
  fld (gen key (drawCounter (n / 4) mb tag purpose)) (32 * (n % 4)) 32

/-- RAND_KEY of a step (R203). -/
def randKey (seed step : Nat) : Nat := fld (gen seed (put 0 64 step + put 72 8 0xFF)) 0 64

/-- Key of a work item (R203): the seed's upper half over the RAND_KEY. -/
def itemKey (seed rk : Nat) : Nat := fld seed 64 64 * 2 ^ 64 + rk % 2 ^ 64

end Sys2Proof
end

