-- ==== Sys2Proof/Machine/SlotBase.lean ====
section
/-! DEFINITION. Slots and their queues as the other operations see them (chapter 3): descriptors, steps, egress reservation,
readiness of a queue's head. -/

namespace Sys2Proof.Machine

/-! ## Descriptors (Table 3.2) -/

def dCtx (d : Rec) : Nat := fld d 0 8
def dSlot (d : Rec) : Nat := fld d 8 4
def dKind (d : Rec) : Nat := fld d 12 2
def dMb (d : Rec) : Nat := fld d 16 24
def dWver (d : Rec) : Nat := fld d 40 16
def dStep (d : Rec) : Nat := fld d 96 32
def dFirst (d : Rec) : Nat := fld d 128 64
def dPages (d : Rec) : Nat := fld d 192 32
def dDeadline (d : Rec) : Nat := fld d 384 64
def allOnes64 : Nat := 2 ^ 64 - 1

/-- Ingress stream q of slot j. -/
def Pkg.ing (p : Pkg) (j q : Nat) : Ingress := tabGet {} (p.slot j).ing q
def Pkg.setIng (p : Pkg) (j q : Nat) (v : Ingress) : Pkg := p.modSlot j fun s => { s with ing := tabSet {} s.ing q v }
def Pkg.modIng (p : Pkg) (j q : Nat) (f : Ingress → Ingress) : Pkg := p.setIng j q (f (p.ing j q))
/-- Egress stream q of slot j. -/
def Pkg.egr (p : Pkg) (j q : Nat) : Egress := tabGet {} (p.slot j).egr q
def Pkg.setEgr (p : Pkg) (j q : Nat) (v : Egress) : Pkg := p.modSlot j fun s => { s with egr := tabSet {} s.egr q v }
/-- Version entry e of slot j. -/
def SlotS.ver (s : SlotS) (e : Nat) : Version := tabGet {} s.vers e
def Pkg.setVer (p : Pkg) (j e : Nat) (v : Version) : Pkg := p.modSlot j fun s => { s with vers := tabSet {} s.vers e v }
/-- Index of the CURRENT entry. -/
def SlotS.curEntry (s : SlotS) : Option Nat := (List.range 8).find? fun e => (s.ver e).state == 2

/-- The item in position q (0 forward, 1 backward). -/
def SlotS.pos (s : SlotS) (q : Nat) : Option Item := if q = 0 then s.fwd else s.bwd
def Pkg.setPos (p : Pkg) (j q : Nat) (i : Option Item) : Pkg :=
  p.modSlot j fun s => if q = 0 then { s with fwd := i } else { s with bwd := i }
def Pkg.modPos (p : Pkg) (j q : Nat) (f : Item → Item) : Pkg := p.setPos j q (((p.slot j).pos q).map f)
/-- Position of a kind: optimizer items run in the backward position (R30). -/
def posOfKind (k : Nat) : Nat := if k = 0 then 0 else 1

/-- Is slot j the serving slot of a serving context (R391)? -/
def Pkg.serving (p : Pkg) (j : Nat) : Bool :=
  let c := p.ctx (p.slot j).ctx
  bit c.record 1 && fld c.serve 112 4 == j
/-- Slots of a context. -/
def Pkg.slotsOf (p : Pkg) (c : Nat) : List Nat := (List.range 16).filter fun j => (p.slot j).bound && (p.slot j).ctx == c
/-- Bound cores of a slot, and of all slots of a context. -/
def SlotS.cores (s : SlotS) : List Nat := bitsOf 384 (fld s.bind 0 384)
def Pkg.ctxCores (p : Pkg) (c : Nat) : List Nat := ((p.slotsOf c).map fun j => (p.slot j).cores).flatten.eraseDups

/-- Lowest step that is not stale at a slot: the open step, or the one after the last begun (R60, R64). -/
def Pkg.stepFloor (p : Pkg) (j : Nat) : Nat :=
  let s := (p.ctx (p.slot j).ctx).step
  if s.state = 1 || s.state = 2 then s.num else if s.begun then s.num + 1 else 0
/-- Is a 32-bit step number older than the step floor of the slot? Compared modulo 2^32. -/
def Pkg.stale (p : Pkg) (j st : Nat) : Bool :=
  !p.serving j && decide (2 ^ 31 ≤ (st + 2 ^ 32 - p.stepFloor j % 2 ^ 32) % 2 ^ 32) && (p.ctx (p.slot j).ctx).step.begun
/-- Does a descriptor belong to the open step (R64, R69)? -/
def Pkg.stepOpen (p : Pkg) (j st : Nat) : Bool :=
  let s := (p.ctx (p.slot j).ctx).step
  p.serving j || ((s.state == 1 || s.state == 2) && !s.aborted && st == s.num % 2 ^ 32)

/-! ## Readiness (R66, R69) -/

/-- Pages of the egress region in use. -/
def Pkg.egrFits (p : Pkg) (j n : Nat) : Bool :=
  let s := p.slot j
  let size := fld s.bind (768 + 64) 32
  n = 0 || (decide (n ≤ size) && (List.range n).all fun i => !(s.egrUsed.any fun u => u % size == (s.egrNext + i) % size))
/-- Output pages an item of a queue reserves (R66). -/
def SlotS.outPages (s : SlotS) (kind : Nat) : Nat := if kind = 0 then fld s.res 64 32 else if kind = 1 then fld s.res 96 32 else 0

/-- Is slot j its own forward receiver (R55)? -/
def Pkg.loopBack (p : Pkg) (j : Nat) : Bool :=
  let b := (p.slot j).bind
  (fld b 416 24 == 0 || fld b 416 24 == p.fabAddr) && fld b 440 4 == j
/-- Has the queue that an item's output goes to an entry for it (R53, R66)? The backward ingress queue takes the output of a loop-back
slot's forward item. -/
def Pkg.egrEntry (p : Pkg) (j k : Nat) : Bool :=
  let eq := if k = 0 then 0 else 1
  decide ((if k = 0 && p.loopBack j then (p.ing j 1).queue.length else (p.egr j eq).queue.length) + (p.egr j eq).reserved < 64)
/-- Does the egress reservation of an item succeed (R66)? A re-run holds its own. -/
def Pkg.egrOk (p : Pkg) (j : Nat) (h : Item) : Bool :=
  let k := dKind h.desc
  let n := (p.slot j).outPages k
  (h.dispatched && h.egrPages != 0) || (p.egrFits j n && (n == 0 || p.egrEntry j k))
/-- Is the head of a queue ready by R69, apart from residence? -/
def Pkg.headReady (p : Pkg) (j q : Nat) : Bool :=
  match (p.slot j).pos q, (p.ing j q).queue.head? with
  | none, some h => p.stepOpen j (dStep h.desc) && p.egrOk j h
  | _, _ => false

end Sys2Proof.Machine
end

