-- ==== Sys2Proof/Machine/Timing.lean ====
section
/-! DEFINITION. The rate table, admission and the classification of misses (chapter 2). -/

namespace Sys2Proof.Machine

/-- Columns of Table 2.1 at one rail row: 60, 75, 90 and 95 °C, in M steps/s. -/
def gminRow (r : Nat) : Nat × Nat × Nat × Nat :=
  match r with
  | 0 => (720, 700, 680, 670) | 1 => (860, 830, 810, 800) | 2 => (1010, 980, 950, 940) | 3 => (1180, 1150, 1110, 1100)
  | 4 => (1350, 1310, 1270, 1260) | 5 => (1490, 1450, 1410, 1390) | 6 => (1630, 1580, 1540, 1520)
  | _ => (1760, 1710, 1660, 1640)
/-- The typical column of Table 2.1. -/
def typRow (r : Nat) : Nat :=
  match r with
  | 0 => 800 | 1 => 950 | 2 => 1120 | 3 => 1310 | 4 => 1500 | 5 => 1660 | 6 => 1810 | _ => 1950
/-- Column for a junction temperature: the next higher one (R24). -/
def gminCol (r t : Nat) : Nat :=
  let c := gminRow r
  if t ≤ 60 then c.1 else if t ≤ 75 then c.2.1 else if t ≤ 90 then c.2.2.1 else c.2.2.2
/-- Gmin(V, T) in M steps/s for a rail in 2.5 mV units, interpolated and rounded down (R24); 0 below 0.55 V
and above 95 °C, where the table gives no rate. -/
def gmin (v t : Nat) : Nat :=
  if v < 220 || 95 < t then 0
  else if 360 ≤ v then gminCol 7 t
  else
    let lo := gminCol ((v - 220) / 20) t
    let hi := gminCol ((v - 220) / 20 + 1) t
    lo + (hi - lo) * ((v - 220) % 20) / 20
/-- Typical rate at a rail, interpolated in the same way. -/
def typRate (v : Nat) : Nat :=
  if 360 ≤ v then 1950 else
  let lo := typRow ((v - 220) / 20)
  lo + (typRow ((v - 220) / 20 + 1) - lo) * ((v - 220) % 20) / 20

/-- Declared-work record of kind k (Table 2.2). -/
structure Work where
  steps : Nat
  near : Nat
  far : Nat
  flits : Nat
  valid : Bool
  deriving DecidableEq, Repr
def SlotS.workOf (s : SlotS) (k : Nat) : Work :=
  let b := 256 * k
  ⟨fld s.work b 64, fld s.work (b + 64) 64, fld s.work (b + 128) 64, fld s.work (b + 192) 32, bit s.work (b + 224)⟩

/-- Voltage domain of a physical core of a cluster, numbered in the order of Table 1.2. -/
def coreDomain (cluster phys : Nat) : Nat := if phys < 13 then cluster else 16 + cluster
/-- Physical core of a logical core (R211). -/
def Pkg.physOf (p : Pkg) (g : Nat) : Nat := tabGet (g % 24) (p.die (dieOfCore g)).logMap (g % 24)
/-- Domains of the bound cores of a slot. -/
def Pkg.slotDomains (p : Pkg) (cores : List Nat) : List Nat :=
  (cores.map fun g => coreDomain (clusterOf g) (p.physOf g)).eraseDups
/-- Rail ceiling of a domain in 2.5 mV units (R26, R460); 360 where no policy set one. -/
def Pkg.ceilingOf (p : Pkg) (d : Nat) : Nat := tabGet 360 p.pwr.ceiling d
/-- v_ceil of R35. -/
def Pkg.vCeil (p : Pkg) (cores : List Nat) : Nat :=
  (p.slotDomains cores).foldl (fun m d => Nat.min m (p.ceilingOf d)) 360

/-- Region descriptors of a binding that lie on this device, as (base, bytes): landing, egress, stash, off-load,
key/value, version copies (Table 17.9). -/
def bindRanges (b : Rec) : List (Nat × Nat) :=
  let reg (lo : Nat) : Nat × Nat := (fld b lo 48, fld b (lo + 64) 32 * 65536)
  let off := if fld b (1024 + 96) 24 = 0 then [reg 1024] else []
  let vc := (List.range 8).map fun e => (fld b (1536 + 64 * e) 48, fld b (1584 + 64 * e) 16 * 2 ^ 30)
  ([reg 512, reg 640, reg 768, reg 896, reg 1152] ++ off ++ vc).filter fun r => r.2 != 0
/-- (partition, stack) pairs of the regions a binding lies in. A range counts in the partition of the memory region that holds its first
byte (DESIGN CHOICE, log entry 172: R35 speaks of the slot's partition as one). -/
def Pkg.bindParts (p : Pkg) (b : Rec) : List (Nat × Nat) :=
  ((bindRanges b).map fun r =>
    (stacksOf r.1 r.2).map fun s =>
      ((p.regions.find? fun g => decide (g.base ≤ r.1) && decide (r.1 < g.base + g.pages * 65536)).map (·.partition) |>.getD 0, s)).flatten.eraseDups
/-- b_adm in MB/s (R302). -/
def Pkg.bAdm (p : Pkg) (b : Rec) : Nat :=
  ((p.bindParts b).map fun x => (tabGet (0, 0) (p.stack x.2).part x.1).1).sum

/-- t_work of R35 in ns as a fraction; none when a rate it needs is zero. -/
def tWork (w : Work) (g b : Nat) : Option (Nat × Nat) :=
  let mem := (100 * w.near + 164 * w.far) * 10
  if g = 0 then none
  else if mem = 0 then some (w.steps * 1000, g)
  else if b = 0 then none
  else some (w.steps * 1000 * b + mem * g, g * b)
/-- a_seq + a_rep in ns. -/
def aSum (w : Work) : Nat := 1000 + if 0 < w.flits then 4400 else 0
/-- The test `fits` of R35 for a window of `win` ns. -/
def fitsW (w : Work) (g b win : Nat) : Bool :=
  match tWork w g b with
  | none => false
  | some (n, d) => decide (n * 10 ≤ 9 * win * d) && decide (10000 * aSum w ≤ 999 * win)
/-- w_min of R35 as R36 reports it. -/
def wMin (w : Work) (g b : Nat) : Nat :=
  match tWork w g b with
  | none => 0xFFFF_FFFF
  | some (n, d) => Nat.min 0xFFFF_FFFF (Nat.max (ceilDiv (10 * n) (9 * d)) (ceilDiv (10000 * aSum w) 999))

/-- V_req (R36): the lowest grid rail at which the window fits. -/
def vReq (w : Work) (b win ceil_ : Nat) : Nat :=
  (((List.range (ceil_ + 1 - 220)).map (220 + ·)).find? fun v => fitsW w (gmin v 90) b win).getD ceil_

/-- Outcome of admission for a slot's kind under a given binding and work. -/
structure Admission where
  ok : Bool
  wmin : Nat
  vreq : Nat
  deriving DecidableEq, Repr
/-- Admission of R35 under binding b, work record w, window win. -/
def Pkg.admission (p : Pkg) (b : Rec) (w : Work) (win : Nat) : Admission :=
  let vc := p.vCeil (bitsOf 384 (fld b 0 384))
  let ba := p.bAdm b
  let g := gmin vc 90
  ⟨fitsW w g ba win, wMin w g ba, vReq w ba win vc⟩

/-- First admitted window among (slot, kind) pairs that fails under the present state, with its w_min (R38). -/
def Pkg.failing (p : Pkg) (slots : List Nat) : List (Nat × Nat × Nat) :=
  ((slots.map fun j => (List.range 3).map fun k => (j, k)).flatten).filterMap fun (j, k) =>
    let w := p.dlWin (4 * j + k)
    let s := p.slot j
    if w.w = 0 then none else
    let a := p.admission s.bind (s.workOf k) w.w
    if a.ok && (s.workOf k).valid then none else some (j, k, if (s.workOf k).valid then a.wmin else 0xFFFF_FFFF)

/-- Cause bit of a code in a miss record's CAUSE_MASK (Table 2.4). -/
def causeBit (code : Nat) : Nat := if code < 16 then code - 1 else code - 8
/-- Codes of a cause mask, ascending. -/
def causeCodes (m : Nat) : List Nat := ([1, 2, 3, 0x10, 0x11, 0x12, 0x13, 0x14, 0x15] : List Nat).filter fun c => bit m (causeBit c)

/-- A cause that held during the windows of items: record it on every running or started item (R42). -/
def Pkg.causeItems (p : Pkg) (code die : Nat) (hit : Nat → Item → Bool) : Pkg :=
  (List.range 16).foldl (fun p j => (List.range 2).foldl (fun p q =>
    let mark (i : Item) : Item :=
      if i.startNs.isSome && hit j i then
        { i with causes := i.causes ||| 2 ^ causeBit code, dieMask := i.dieMask ||| 2 ^ die } else i
    if (p.slot j).bound then
      (p.modPos j q mark).modIng j q fun g => { g with queue := g.queue.map mark }
    else p) p) p

/-- Does firmware run: on a primary headframe in service (R427, R451)? -/
def Pkg.answers (p : Pkg) : Bool := p.pkgState != 0 && p.dieUp p.primary

/-- Fabric addresses that the in-window link traffic of an item goes to or comes from now (R32, R42): its ring's peers, its outstanding
requests, its connections and those of its endpoints. -/
def Pkg.itemPeers (p : Pkg) (j : Nat) (i : Item) : List Nat :=
  let s := p.slot j
  let q := posOfKind (dKind i.desc)
  let mine (w : Who) : Bool := match w with
    | .sync t => i.thrs.contains t
    | .mem t _ _ => i.thrs.contains t
    | .effect x g _ => x == j && (s.published.any fun y => y.id == g && y.qpos == q)
    | _ => false
  let ring := if fld s.bind 1352 8 = 0 then [] else [fld s.bind 1368 24, fld s.bind 1400 24]
  let asked := p.reqs.filterMap fun e => match e.2 with | some r => if mine r.who then some r.pkt.dst.toNat else none | none => none
  let conns := s.cores.map fun g => ((p.core g).conns.filter fun e => e.2.state != 0 && e.2.item == (j, q)).map fun e => fld e.2.target.toNat 0 24
  let eps := s.cores.map fun g => ((p.core g).eps.filter fun e => e.2.state == 1 && e.2.reader == some (j, q)).map fun e => e.2.conns.map (·.1)
  (ring ++ asked ++ conns.flatten ++ eps.flatten.flatten).filter fun f => f != p.fabAddr && f != 0
/-- Port that a packet to a fabric address leaves by now. -/
def Pkg.portTowards (p : Pkg) (fab flow : Nat) : Option Nat :=
  ((p.routeOf fab).bind fun i => p.routes[i]?).bind fun r => (r.choose (p.mkPkt fab 2 flow 0 [])).map p.physPort
/-- Ports that carry in-window link traffic of an item now (R42). -/
def Pkg.itemPorts (p : Pkg) (j : Nat) (i : Item) : List Nat := (p.itemPeers j i).filterMap fun f => p.portTowards f j

/-- Dies an item of slot j uses (R42 condition 1): its cores' dies, home queue die, memory dies of its regions. -/
def Pkg.usesDie (p : Pkg) (j d : Nat) : Bool :=
  let s := p.slot j
  (s.cores.any fun g => dieOfCore g == d) || queueDie (halfOfSlot j) == d ||
    ((p.bindParts s.bind).any fun x => dieOfMem (memDieOfStack x.2) == d)

/-- The same with the memory dies that served the item's own accesses and the link dies of its in-window ports (R42 condition 1). -/
def Pkg.itemUses (p : Pkg) (j d : Nat) (i : Item) : Bool :=
  p.usesDie j d || bit i.memDies d || (dieKind d == 2 && (p.itemPorts j i).any fun n => linkDie n == d)
/-- Junction of a die: its hottest reading (R475). -/
def Die.hottest (x : Die) : Nat := x.junction.foldl (fun m e => Nat.max m e.2) 0
/-- Does property f hold of a stack that die d drives? -/
def Pkg.anyStack (p : Pkg) (d : Nat) (f : Stack → Bool) : Bool :=
  dieKind d == 1 && (let m := d / 16 * 4 + (d % 16 - 8); f (p.stack (2 * m)) || f (p.stack (2 * m + 1)))
/-- Does the cap, or a listed ceiling, hold domain d below what the item asked (R42 condition 2)? -/
def Pkg.capHolds (p : Pkg) (j : Nat) (i : Item) (d : Nat) : Bool :=
  decide (tabGet 360 p.pwr.vCap d < Nat.min (220 + tabGet 0 p.pwr.want d) (p.ceilingOf d)) || ((p.dlWin (4 * j + dKind i.desc)).listed && decide (p.ceilingOf d < i.vreq))
/-- Is die d hot, or does it drive a throttled stack (R42 condition 1)? -/
def Pkg.dieHot (p : Pkg) (d : Nat) : Bool := decide (90 < (p.die d).hottest) || p.anyStack d (·.throttled)
/-- Is a storm in progress on die d or a stack it drives (R42 condition 3)? -/
def Pkg.dieStorm (p : Pkg) (d : Nat) : Bool := (p.die d).storm || p.anyStack d (·.storm)
/-- Causes that hold now for an item, with the dies that take part (R42 conditions 1 to 3): a hot die or a throttled stack,
a lowered rail, a storm. -/
def Pkg.causesNow (p : Pkg) (j : Nat) (i : Item) : Nat × Nat :=
  let used := (List.range 32).filter fun d => p.itemUses j d i
  let hot := used.filter p.dieHot
  let storm := used.filter p.dieStorm
  let held := ((p.slotDomains (p.slot j).cores).filter (p.capHolds j i)).map fun d => dieOfCluster (d % 16)
  let on (code : Nat) (l : List Nat) : Nat := if l.isEmpty then 0 else 2 ^ causeBit code
  (on 0x10 hot ||| on 0x11 held ||| on 0x12 storm, (hot ++ held ++ storm).foldl (fun m d => m ||| 2 ^ d) 0)
/-- Note the causes that hold now on every started item (R42: at some instant of its window). A command that moves a
temperature or a rail does so before and after. -/
def Pkg.noteCauses (p : Pkg) : Pkg :=
  (List.range 16).foldl (fun p j => (List.range 2).foldl (fun p q =>
    let mark (i : Item) : Item :=
      if i.startNs.isSome then
        let c := p.causesNow j i
        { i with causes := i.causes ||| c.1, dieMask := i.dieMask ||| c.2 } else i
    if (p.slot j).bound then
      (p.modPos j q mark).modIng j q fun g => { g with queue := g.queue.map mark }
    else p) p) p

/-! ## The rail loop (R39, R40) -/

/-- Kind of a domain (Table 18.2): 0 compute, 1 held, 2 fixed. -/
def domKind (d : Nat) : Nat :=
  if d < 32 then 0
  else if d < 56 || (80 ≤ d && d < 84) || (88 ≤ d && d < 92) || 94 ≤ d then 1 else 2
/-- Top, bottom and start of a domain's range in 2.5 mV units. -/
def domTop (d : Nat) : Nat :=
  if d < 32 then 360 else if d < 56 then 340 else if d < 64 then 300 else if d < 72 then 420 else if d < 80 then 200
  else if d < 84 then 340 else if d < 88 then 320 else if d < 90 then 360 else if d < 92 then 340 else if d < 94 then 300 else 340
def domLow (d : Nat) : Nat :=
  if d < 32 then 220 else if d < 48 then 240 else if d < 56 then 260 else if d < 64 then 300 else if d < 72 then 420 else if d < 80 then 200
  else if d < 84 then 260 else if d < 88 then 320 else if d < 92 then 260 else if d < 94 then 300 else 260
def domStart (d : Nat) : Nat :=
  if d < 32 then 220 else if d < 64 then 300 else if d < 72 then 420 else if d < 80 then 200 else if 84 ≤ d && d < 88 then 320 else 300
/-- Held domains stand at the lower of 0.75 V, their ceiling and their v_cap (R470, R474). -/
def Pkg.vCapOf (p : Pkg) (d : Nat) : Nat := tabGet (domTop d) p.pwr.vCap d
def Pkg.ceilOf (p : Pkg) (d : Nat) : Nat := Nat.min (tabGet (domTop d) p.pwr.ceiling d) (domTop d)
def Pkg.setVCap (p : Pkg) (d v : Nat) : Pkg := { p with pwr := { p.pwr with vCap := tabSet (domTop d) p.pwr.vCap d v } }

/-- Does any die hold every compute domain at 0.55 V (R476)? -/
def Pkg.over105 (p : Pkg) : Bool := p.dies.any fun e => e.2.over105
/-- Rail a domain is set to (R40, R470, R476): compute domains by the loop, held ones at 0.75 V, each under its ceiling and v_cap. -/
def Pkg.railOf (p : Pkg) (d : Nat) : Nat :=
  match domKind d with
  | 0 => if p.over105 then 220 else Nat.min (220 + tabGet 0 p.pwr.want d) (Nat.min (p.ceilOf d) (p.vCapOf d))
  | 1 => Nat.min 300 (Nat.min (p.ceilOf d) (p.vCapOf d))
  | _ => domStart d
/-- Voltage domain of a canary (Table 2.6): the core groups of a compute die, the logic domain of another. -/
def canaryDomain (d n : Nat) : Nat :=
  let h := d / 16
  match dieKind d with
  | 0 => (if n < 4 then 0 else 16) + (if d < 16 then d else d - 8)
  | 1 => 48 + 4 * h + (d % 16 - 8)
  | 2 => 80 + 2 * h + (d % 16 - 12)
  | 3 => 88 + h
  | _ => 90 + h
/-- A canary that has not reported. -/
def canaryDflt (d n : Nat) : W64 := BitVec.ofNat 64 (put 40 7 (canaryDomain d n))

/-- Measured rate of a domain (R39): the lowest its valid canaries report; none before any has. -/
def Pkg.measured (p : Pkg) (d : Nat) : Option Nat :=
  let die := dieOfCluster (d % 16)
  let rs := ((List.range 8).filter fun n => canaryDomain die n == d).filterMap fun n =>
    let v := (tabGet (canaryDflt die n) (p.die die).canary n).toNat
    if bit v 47 then some (fld v 0 16) else none
  match rs with
  | [] => none
  | r :: rest => some (rest.foldl Nat.min r)

/-- Does an item carry an admitted window: the one its start took, or the one in force? -/
def Pkg.admitted (p : Pkg) (j : Nat) (i : Item) : Bool := i.window != 0 || (p.dlWin (4 * j + dKind i.desc)).w != 0
/-- The steps an item has run count (R34). How many have run since the last count is a time the model does not measure: a free value. -/
def Pkg.stepTick (p : Pkg) (j q : Nat) : Pkg :=
  match (p.slot j).pos q with
  | some _ =>
    let (x, p) := p.take 64
    p.modPos j q fun i => { i with steps := i.steps + x }
  | none => p
/-- The steps of every running item count. -/
def Pkg.stepsNow (p : Pkg) : Pkg := (List.range 16).foldl (fun p j => (p.stepTick j 0).stepTick j 1) p
/-- Admitted items a domain carries (R40): running, or ready as the next of their slot and position: slot, item. -/
def Pkg.carriedBy (p : Pkg) (d : Nat) : List (Nat × Item) :=
  ((List.range 16).map fun j =>
    let s := p.slot j
    if !s.bound || !(p.slotDomains s.cores).contains d then [] else
    ([0, 1].map fun q => (match s.pos q with | some i => [i] | none => []) ++ (if p.headReady j q then (p.ing j q).queue.take 1 else [])).flatten.map fun i => (j, i)).flatten.filter fun x =>
      p.admitted x.1 x.2

/-- What the loop finds for one item (R40): the ceiling, or the rate it needs as a fraction of M steps/s. -/
inductive Need where
  | ceiling
  | rate (num den : Nat)

/-- One item's plan (R40): its steps and bytes left of its declaration. gmin takes the lowest ceiling over the domains of the slot's
cores, as R35 does (DESIGN CHOICE, log entry 171). -/
def Pkg.needOf (p : Pkg) (j : Nat) (i : Item) : Need :=
  let s := p.slot j
  let w := s.workOf (dKind i.desc)
  let steps := w.steps - i.steps
  let win : Nat := if i.window != 0 then i.window else (p.dlWin (4 * j + dKind i.desc)).w
  let plan : Int := match i.startNs with | some t => (10 * t + 9 * win : Int) - 10 * p.now | none => (10 * win : Int)
  let bytes := (w.near - i.memNear) + (w.far - i.memFar)
  let b := p.bAdm s.bind
  let g := gmin (p.vCeil s.cores) 90
  if g = 0 || (b = 0 && bytes != 0) then .ceiling
  else
    let b := Nat.max b 1
    let left : Int := plan * b - 10000 * bytes                  -- t_plan − t_mem, in units of 0.1 ns / b
    if left * g ≤ (10000 * steps * b + 20000 * b * g : Nat) then .ceiling else .rate (10000 * steps * b) left.toNat

/-- The greater of two fractions. -/
def maxFrac (a b : Nat × Nat) : Nat × Nat := if a.1 * b.2 < b.1 * a.2 then b else a

/-- The loop of R40 for one compute domain: the rail it asks for and the target rate. The v_ceil of the apply line, and of the laxity
branch, is domain d's own ceiling (DESIGN CHOICE, log entry 171: a rail cannot stand above it, and d's rail need not wait for another domain's
ceiling). The target rate of the laxity branch is a free value. -/
def Pkg.railLoop (p : Pkg) (d : Nat) : Pkg :=
  let r := (p.carriedBy d).foldl (fun (r : Bool × (Nat × Nat)) x =>
    match p.needOf x.1 x.2 with
    | .ceiling => (true, r.2)
    | .rate n m => (r.1, maxFrac r.2 (n, m))) (false, (0, 1))
  let need := r.2
  let ceil_ := p.ceilOf d
  let v :=
    if r.1 then ceil_
    else
      let v0 := p.railOf d
      let fits (v : Nat) : Bool :=
        need.1 == 0 || (match p.measured d with | some m => decide (103 * need.1 * typRate v0 ≤ 100 * m * typRate v * need.2) | none => false)
      let low := ((List.range 141).map (220 + ·)).find? fits
      Nat.max (low.getD ceil_) (tabGet 0 p.pwr.floor d)
  let (f, q) := p.take 16
  let target := if r.1 then f else Nat.min 65535 (103 * need.1 / (100 * need.2))
  { q with pwr := { q.pwr with want := tabSet 0 q.pwr.want d (v - 220), rate := tabSet 0 q.pwr.rate d target } }
/-- The loop for a list of domains whose dies are in service; causes are noted before and after (R42). -/
def Pkg.railLoops (p : Pkg) (ds : List Nat) : Pkg :=
  if !p.answers then p else
  (ds.foldl (fun p d => if p.dieUp (dieOfCluster (d % 16)) then p.railLoop d else p) p.stepsNow.noteCauses).noteCauses
/-- The loop at a dispatch, a completion or a start event of an admitted item (R40). -/
def Pkg.loopFor (p : Pkg) (j : Nat) (i : Item) : Pkg :=
  if p.admitted j i then p.railLoops (p.slotDomains (p.slot j).cores) else p

/-! ## Classification (R34, R43 to R46) -/

/-- Does the item exceed its declared steps, or its declaration as a whole (R34)? -/
def Pkg.overSteps (p : Pkg) (j : Nat) (i : Item) : Bool := decide (((p.slot j).workOf (dKind i.desc)).steps < i.steps)
def Pkg.overran (p : Pkg) (j : Nat) (i : Item) : Bool :=
  let w := (p.slot j).workOf (dKind i.desc)
  decide (w.near < i.memNear) || decide (w.far < i.memFar) || p.overSteps j i

/-- Classify an item with an admitted window (R43, R44, R45, R46). -/
def Pkg.classify (p : Pkg) (j : Nat) (i : Item) (aborted : Bool) : Pkg :=
  let k := dKind i.desc
  let inst := 4 * j + k
  let now := p.icount (queueDie (halfOfSlot j))
  match i.startNs with
  | none => p
  | some st =>
    if i.window = 0 then p
    else if now ≤ st + i.window then (if aborted then p else p.bump .dlMet inst)
    else
      let c := p.causesNow j i
      let m := i.causes ||| c.1
      let m := if p.overran j i then m ||| 1 else m
      -- a backward item that recomputes layers and runs beyond its declared steps (R81, Table 2.3)
      let m := if dKind i.desc = 1 && bit i.desc 14 && p.overSteps j i then m ||| 2 else m
      let codes := causeCodes m
      let prog := codes.any (· < 16)
      let primary := codes.head?.getD 0
      let p := if prog then p.bump .dlProgram inst else if codes.isEmpty then (p.bump .dlBreach inst).bump .dlCauseNone 0 else p.bump .dlExcused inst
      let p := codes.foldl (fun p c => p.bump .dlCause c) p
      let r := put 0 4 j + put 4 2 k + put 6 1 (b2n (!prog && !codes.isEmpty)) + put 7 1 (b2n aborted) + put 8 8 primary + put 16 16 m
        + put 32 8 (p.slot j).ctx + put 40 24 (dMb i.desc) + put 64 64 st + put 128 64 now + put 192 32 i.window + put 224 32 (i.dieMask ||| c.2)
      let p := if p.dlRecs.length < 1024 then p else p.bump .dlRecordLost 0
      let p := { p with dlRecs := (r :: p.dlRecs).take 1024 }
      let p := p.raise .deadlineMiss p.primary (p.slot j).ctx j r
      if codes.isEmpty then p.raise .deadlineBreach p.primary (p.slot j).ctx j r else p

end Sys2Proof.Machine
end

