-- ==== Sys2Proof/Machine/SlotOps.lean ====
section
/-! DEFINITION. Slots, queues, credits, items and synchronisation objects as operations (chapters 2, 3, 9):
posting, start events, grants, kills, discards, faults of a context, end events. -/

namespace Sys2Proof.Machine

/-! ## Phase times (R85) -/

/-- Does an item's every thread wait on link traffic, relay, sump or remote channels? DESIGN CHOICE (log 156): the waits of
CH_RECV, CH_SEND and WAIT are such. -/
def Pkg.waitsOnLink (p : Pkg) (i : Item) : Bool :=
  !i.thrs.isEmpty && i.thrs.all fun t => match (p.thr t).wait with
    | .chRecv _ => true | .chSend _ _ _ => true | .sync _ _ => true | _ => false

/-- Has the next micro-batch of an ingress queue landed in part (R85)? -/
def Pkg.landing (p : Pkg) (j q : Nat) : Bool := ((p.ing j q).opens.any fun o => !o.landed.isEmpty) || !(p.ing j q).hostEnd.isEmpty
/-- Phase number of position q in the order of QD_PHASEji, by the first row of Table 3.3 that applies. -/
def Pkg.phaseOf (p : Pkg) (j q : Nat) : Nat :=
  let s := p.slot j
  match s.pos q with
  | some i => if p.waitsOnLink i then 5 else if dKind i.desc = 0 then 0 else if dKind i.desc = 1 then 1 else 2
  | none =>
    match (p.ing j q).queue.head? with
    | some h =>
      if p.stepOpen j (dStep h.desc) then (if p.egrOk j h then 6 else 4)
      else if p.landing j q then 3 else 6
    | none => if p.landing j q then 3 else 6
/-- A ready item that has waited for egress credit under STASH_HOLD carries cause STASH (R68). -/
def Pkg.markHold (p : Pkg) (j q : Nat) : Pkg :=
  if p.phaseOf j q = 4 then
    p.modIng j q fun g =>
      match g.queue with
      | i :: rest => if (p.egr j (if dKind i.desc = 0 then 0 else 1)).hold then { g with queue := { i with causes := i.causes ||| 2 } :: rest } else g
      | [] => g
  else p
/-- Accumulate the phases of slot j up to now. -/
def Pkg.phaseTick (p : Pkg) (j : Nat) : Pkg :=
  let d := p.now - (p.slot j).phaseAt
  let st := (p.ctx (p.slot j).ctx).step.state
  let a := p.phaseOf j 0
  let b := p.phaseOf j 1
  let p := if d = 0 then p else (p.markHold j 0).markHold j 1
  p.modSlot j fun s =>
    if d = 0 || !(st = 1 || st = 2) then { s with phaseAt := p.now }
    else { s with phaseAt := p.now, phase := tabMod 0 (tabMod 0 s.phase a fun v => v + d) b fun v => v + d }

/-! ## Credits (R58, R59) -/

def creditContent (cl dl cm : Nat) (hold : Bool) : List Byte := toLe 8 cl ++ toLe 4 dl ++ toLe 4 cm ++ toLe 4 (b2n hold)

/-- Is forward ingress withheld for a waiting layer-input allocation (R79)? -/
def SlotS.holding (s : SlotS) : Bool := !s.stashWait.isEmpty

/-- CL and DL of an ingress stream by the formula of R58. -/
def Pkg.limits (p : Pkg) (j q : Nat) : Nat × Nat :=
  let s := p.slot j
  let g := p.ing j q
  let relayFull := q == 2 && decide (16 * 2 ^ 20 ≤ (((List.range 8).map fun i => ((p.slot (halfOfSlot j * 8 + i)).relay.map fun b => b.bytes.length).sum).sum))
  if (s.holding && q == 0) || relayFull then (g.clSent, g.dlSent)
  else (g.released + g.pages, g.dispatchedMb + Nat.min (64 - g.queue.length) (fld s.bind 1280 7))

/-- Send the latest grant of an ingress stream to its sender (R58, R59): a CREDIT packet, or a SEND on the
queue pair bound to the slot when the host is the sender (R459). -/
def Pkg.sendGrant (p : Pkg) (j q : Nat) : Pkg :=
  let s := p.slot j
  let l := p.limits j q
  let g := p.ing j q
  let g := { g with clSent := l.1, dlSent := l.2 }
  let p := p.setIng j q g
  let body := creditContent g.clSent (g.dlSent % 2 ^ 32) (g.postedMb % 2 ^ 32) (s.holding && q == 0)
  if g.pages = 0 then p
  else if g.sender = 0xFFFFFF then
    match p.eth.qps.find? fun e => e.2.slot == some j && e.2.state == 1 with
    | some (n, qp) =>
      let p := { p with eth := { p.eth with qps := tabSet {} p.eth.qps n { qp with sqPsn := (qp.sqPsn + 1) % 2 ^ 24, unacked := qp.unacked ++ [(qp.sqPsn, body)] } } }
      if qp.rnrWait then p else p.ethSend (some p.eth.bulkPrio) (.roce n 0 qp.sqPsn body)
    | none => p
  else
    (p.send (p.mkPkt g.sender 2 j (put 0 4 g.senderSlot + put 4 2 q) body)).2

/-- Send a grant when any of the three values has advanced (R59); `posted` says COMMIT_MB has. -/
def Pkg.grantCheck (p : Pkg) (j q : Nat) (posted : Bool) : Pkg :=
  let g := p.ing j q
  let l := p.limits j q
  if posted || decide (g.clSent < l.1) || decide (g.dlSent < l.2) then p.sendGrant j q else p

/-! ## Posting and start events (R29, R31, R62, R63) -/

/-- Write the start event into an item (R31): START_NS, DEADLINE_NS, the window in force. -/
def Pkg.startItem (p : Pkg) (j : Nat) (i : Item) : Item :=
  let w := p.dlWin (4 * j + dKind i.desc)
  let now := p.icount (queueDie (halfOfSlot j))
  let d := setFld i.desc 320 64 now
  let d := if w.w = 0 then d else setFld d 384 64 (Nat.min allOnes64 (now + w.w))
  { i with desc := d, startNs := some now, window := w.w, vreq := w.vreq }

/-- Record the start event of the first item of kind k that has none, when no item of the kind runs (R29, R63). -/
def Pkg.recordStart (p : Pkg) (j k : Nat) : Pkg :=
  let q := posOfKind k
  let running := match (p.slot j).pos q with | some i => dKind i.desc == k | none => false
  if running then p else
  let g := p.ing j q
  match g.queue.findIdx? fun i => dKind i.desc == k with
  | none => p
  | some n =>
    match g.queue[n]? with
    | none => p
    | some i => if i.startNs.isSome then p else (p.setIng j q { g with queue := g.queue.set n (p.startItem j i) }).loopFor j (p.startItem j i)

/-- Wake the scheduler for a posting: nothing but the record of readiness is kept here (R381 runs at its commands). -/
def Pkg.postItem (p : Pkg) (j q : Nat) (i : Item) (count : Bool) : Pkg :=
  let p := p.phaseTick j
  let g := p.ing j q
  let d := setFld i.desc 480 32 g.qseq
  let i := { i with desc := d, posted := p.now, qpos := q }
  let p := p.setIng j q { g with queue := g.queue ++ [i], qseq := (g.qseq + 1) % 2 ^ 32, postedMb := if count then g.postedMb + 1 else g.postedMb }
  p.recordStart j (dKind i.desc)

/-- RAND_KEY of a step, or a round of a serving slot (R55, R203, R391). The header gives the low 32 bits of the step number; the rest is that
of the first such step from the slot's step floor on. -/
def Pkg.randKeyOf (p : Pkg) (j st : Nat) : Nat :=
  let c := p.ctx (p.slot j).ctx
  let f := p.stepFloor j
  let full := if p.serving j then st else f + (st + 2 ^ 32 - f % 2 ^ 32) % 2 ^ 32
  randKey (fld c.record 128 128) full

/-- The home queue die posts the optimizer descriptor (R78). While the backward ingress queue holds its 64 descriptors (R53) the posting
waits for an entry (DESIGN CHOICE, log entry 173). -/
def Pkg.postOptimizer (p : Pkg) (j : Nat) : Pkg :=
  let s := p.slot j
  if 64 ≤ (p.ing j 1).queue.length then p.modSlot j fun s => { s with optWait := true } else
  let c := p.ctx s.ctx
  let d := put 0 8 s.ctx + put 8 4 j + put 12 2 2 + put 96 32 c.step.num + put 256 64 (randKey (fld c.record 128 128) c.step.num)
    + put 320 64 allOnes64 + put 384 64 allOnes64 + put 40 16 (match s.curEntry with | some e => (s.ver e).num | none => 0)
  (p.postItem j 1 { desc := d, counted := false } false).modSlot j fun s => { s with optPosted := true, optWait := false }
/-- An optimizer descriptor that waits is posted once its queue has an entry. -/
def Pkg.optRetry (p : Pkg) (j : Nat) : Pkg := if (p.slot j).optWait then p.postOptimizer j else p

/-! ## Synchronisation objects (R273 to R276) -/

/-- Answer the waiters of an object whose threshold is reached, in the order they came (R276). -/
def Pkg.wakeWaiters (p : Pkg) (o : Nat) : Pkg :=
  let v := (p.sync o).ctr
  let hit := p.waiters.filter fun w => w.obj == o && decide (w.threshold.toInt ≤ v.toInt)
  let p := { p with waiters := p.waiters.filter fun w => !(w.obj == o && decide (w.threshold.toInt ≤ v.toInt)) }
  hit.foldl (fun p w =>
    let k := w.pkt.kspec.toNat
    p.answer w.pkt 7 (put 0 12 o + put 12 3 1 + put 15 3 1 + put 18 9 (fld k 16 9) + put 27 6 (fld k 25 6)) (toLe 8 v.toNat)) p

/-- An armed object at its threshold fires (R274): its binding's action runs in the same act. -/
def Pkg.fireCheck (p : Pkg) (o : Nat) : Pkg :=
  let s := p.sync o
  if s.armed && decide ((s.threshold.toNat : Int) ≤ s.ctr.toInt) then
    let p := p.setSync o { s with armed := false, fired := true }
    if s.binding = 2 then p.postOptimizer s.index
    else if s.binding = 3 then
      p.modSumpEng (halfOfObj o * 16 + s.index / 16) fun e =>
        { e with sess := tabMod ({} : SumpSess) e.sess (s.index % 16) fun x => { x with delivering := true } }
    else p
  else p

/-- counter := counter + v, then the firing test and the waiters (R274, R276). -/
def Pkg.signalObj (p : Pkg) (o : Nat) (v : W64) : Pkg :=
  let p := p.modSync o fun s => { s with ctr := s.ctr + v }
  (p.fireCheck o).wakeWaiters o
/-- ARM at the home. -/
def Pkg.armObj (p : Pkg) (o : Nat) (t : Nat) : Pkg :=
  let p := p.modSync o fun s => { s with threshold := BitVec.ofNat 32 t, fired := false, armed := true }
  p.fireCheck o
/-- CAS at the home. -/
def Pkg.casObj (p : Pkg) (o : Nat) (e n : W64) : Pkg :=
  let p := p.modSync o fun s => { s with ctr := if s.ctr = e then n else s.ctr }
  (p.fireCheck o).wakeWaiters o
/-- The counter set to a value by the device. -/
def Pkg.setObj (p : Pkg) (o : Nat) (v : W64) : Pkg :=
  ((p.modSync o fun s => { s with ctr := v }).fireCheck o).wakeWaiters o
/-- Return an object to owner none and binding none (R273). -/
def Pkg.freeObj (p : Pkg) (o : Nat) : Pkg := p.modSync o fun s => { s with owner := 0x1FF, binding := 0, index := 0, armed := false }

/-- A RETIRING entry whose count reaches zero becomes FREE and gives its object back (R75, R76). -/
def Pkg.retireCheck (p : Pkg) (j e : Nat) : Pkg :=
  let v := (p.slot j).ver e
  if v.state = 3 && (p.sync v.obj).ctr == 0 then (p.setVer j e { v with state := 0 }).freeObj v.obj else p

/-- A stash record gives up its reference to a weight version (R75). -/
def Pkg.unref (p : Pkg) (j : Nat) (r : StashRec) : Pkg :=
  match r.entry with
  | some e => (p.signalObj ((p.slot j).ver e).obj (-1)).retireCheck j e
  | none => p

/-! ## Stash (R79 to R81) -/

def SlotS.stashKept (s : SlotS) : Nat := ((s.stash.filter fun a => !a.spilled || a.fetch.isSome).map (·.pages)).sum
/-- Stash pages in use: kept ones, and those of spills in flight. -/
def SlotS.stashUsed (s : SlotS) : Nat := s.stashKept + ((s.stash.filter fun a => a.spillAt.isSome).map (·.pages)).sum
def SlotS.offUsed (s : SlotS) : Nat := ((s.stash.filter fun a => a.spilled).map (·.pages)).sum
def SlotS.stashCap (s : SlotS) : Nat := fld s.bind (896 + 64) 32
def SlotS.offCap (s : SlotS) : Nat := fld s.bind (1024 + 64) 32

/-- First run of n pages free of the ranges in use, scanning up to the capacity. -/
def findRun (used : List (Nat × Nat)) (cap n : Nat) : Nat → Nat → Option Nat
  | 0, _ => none
  | fuel + 1, at_ =>
    if cap < at_ + n then none else
    match used.find? fun u => decide (u.1 < at_ + n) && decide (at_ < u.1 + u.2) with
    | none => some at_
    | some u => findRun used cap n fuel (u.1 + u.2)
/-- A place for n pages in the stash region, or in the off-load area; `after` leaves spills in flight out. -/
def SlotS.stashPlace (s : SlotS) (off after : Bool) (n : Nat) : Option Nat :=
  let used := (s.stash.filter fun a => a.spilled == off).map fun a => (a.first, a.pages)
  let used := if off then used else used ++ (s.stash.filterMap fun a => a.fetch.map fun f => (f, a.pages))
    ++ (if after then [] else s.stash.filterMap fun a => a.spillAt.map fun f => (f, a.pages))
  findRun used (if off then s.offCap else s.stashCap) n (used.length + 1) 0

/-- Copy whole lines between two places of this device's memory with hint STREAM (R298); poison goes with its line. -/
def Pkg.copyBytes (p : Pkg) (src dst n : Nat) (part : Option Nat := none) : Pkg :=
  let bad := (List.range (n / 64)).filter fun i => p.linePoison (src / 64 + i)
  let q := (((p.devTouch src n false 1 part).devTouch dst n true 1 part).store dst (p.load src n))
  bad.foldl (fun p i => p.setPoison (dst / 64 + i) true) q

def SlotS.stashBase (s : SlotS) : Nat := fld s.bind 896 48
def SlotS.offBase (s : SlotS) : Nat := fld s.bind 1024 48
def SlotS.offFab (s : SlotS) : Nat := fld s.bind (1024 + 96) 24

/-- Read of a remote area in pieces of at most 8,832 bytes (R299). -/
def pieces (n : Nat) : List (Nat × Nat) :=
  (List.range (ceilDiv n 8832)).map fun i => (i * 8832, Nat.min 8832 (n - i * 8832))
def memSpec (addr hint len ctx : Nat) : Nat := put 0 48 addr + put 48 2 hint + put 52 14 len + put 66 8 ctx

/-- Spill one activation allocation to the off-load area (R79): a copy on this device, made by the time of STASH_SPILL_DONE;
MEM_WRITE packets to a partner device. -/
def Pkg.spill (p : Pkg) (j : Nat) (a : StashAlloc) (at_ : Nat) : Pkg :=
  let s := p.slot j
  let src := s.stashBase + a.first * 65536
  let dst := s.offBase + at_ * 65536
  let n := a.pages * 65536
  let p :=
    if s.offFab = 0 then p
    else (pieces n).foldl (fun p x =>
      (p.request (p.mkPkt s.offFab 10 j (memSpec (dst + x.1) 1 x.2 s.ctx) (p.load (src + x.1) x.2)) (.stashSpill j a.mb)).2) (p.devTouch src n false 1)
  let p := p.modSlot j fun s => { s with
    stash := s.stash.map fun b => if b = a then { b with spilled := true, spillAt := some a.first, first := at_ } else b
    stashRecs := s.stashRecs.map fun r => if r.mb = a.mb then { r with spilledF := true } else r }
  (p.setFlag .slotStatus j 0).addCtr .qdSpillPages j a.pages

/-- Spill oldest activation allocations, lower layer first within one micro-batch, until n pages fit (R79). -/
def Pkg.spillFor (p : Pkg) (j n : Nat) : Nat → Pkg
  | 0 => p
  | fuel + 1 =>
    let s := p.slot j
    if decide (s.stashKept + n ≤ s.stashCap) && (s.stashPlace false true n).isSome then p else
    let cands := s.stash.filter fun a => !a.spilled && a.cls == 0
    match cands.head? with
    | none => p
    | some h =>
      let same := cands.filter fun a => a.mb == h.mb
      let a := same.foldl (fun b x => if x.layer < b.layer then x else b) h
      match s.stashPlace true false a.pages with
      | none => p
      | some at_ => (p.spill j a at_).spillFor j n fuel

/-- Outcome of a stash request (R79). -/
inductive StashAns where
  | addr (a : Nat)
  | recompute
  | spilling     -- fits once the spills in flight are done
  | wait
  deriving DecidableEq, Repr

/-- The kept allocation of a micro-batch, layer and class. -/
def SlotS.stashOf (s : SlotS) (mb layer cls : Nat) : Option StashAlloc :=
  s.stash.find? fun a => a.mb == mb && a.layer == layer && a.cls == cls && !a.dead
/-- Allocate n stash pages for micro-batch mb (R79): spill, then recompute for activations, then wait. An activation allocation that does not
fit is answered recompute also where no activation page is left to spill while the off-load area has room (DESIGN CHOICE, log
entry 174). -/
def Pkg.stashAlloc (p : Pkg) (j mb layer cls n : Nat) : StashAns × Pkg :=
  let rc := ((p.slot j).stashRecs.find? fun r => r.mb == mb).any (·.recompute)
  if cls = 0 && rc then (.recompute, p) else
  let p := p.spillFor j n ((p.slot j).stash.length + 1)
  let s := p.slot j
  if decide (s.stashKept + n ≤ s.stashCap) && (s.stashPlace false true n).isSome && (s.stashPlace false false n).isNone then (.spilling, p) else
  match (if s.stashUsed + n ≤ s.stashCap then s.stashPlace false false n else none) with
  | some f =>
    let p := p.modSlot j fun s =>
      let s := { s with stash := s.stash ++ [({ mb := mb, layer := layer, cls := cls, first := f, pages := n } : StashAlloc)] }
      { s with stashPeak := Nat.max s.stashPeak s.stashUsed }
    (.addr (s.stashBase + f * 65536), p)
  | none =>
    if cls = 0 then
      let p := p.modSlot j fun s => { s with stashRecs := s.stashRecs.map fun r => if r.mb = mb then { r with recompute := true } else r }
      (.recompute, ((p.setFlag .slotStatus j 1).bump .qdRecomputeMb j))
    else (.wait, p)

/-- Reserve stash pages for the return of spilled allocations of a micro-batch and ask a partner device for
their bytes (R81); an allocation that finds no room stays spilled. -/
def Pkg.stashFetch (p : Pkg) (j mb : Nat) : Pkg :=
  ((p.slot j).stash.filter fun a => a.mb == mb && a.spilled && a.fetch.isNone && !a.dead).foldl (fun p a =>
    let s := p.slot j
    match (if s.stashUsed + a.pages ≤ s.stashCap then s.stashPlace false false a.pages else none) with
    | none => p
    | some f =>
      let p := p.modSlot j fun s => { s with stash := s.stash.map fun b => if b = a then { b with fetch := some f } else b }
      if s.offFab = 0 then p
      else (pieces (a.pages * 65536)).foldl (fun p x =>
        (p.request (p.mkPkt s.offFab 8 j (memSpec (s.offBase + a.first * 65536 + x.1) 1 x.2 s.ctx) []) (.stashFetch j mb)).2) p) p

/-- Fetch what fits for every backward item that is posted or runs (R81): an allocation that found no room is fetched once there is some. -/
def Pkg.stashFetchAll (p : Pkg) (j : Nat) : Pkg :=
  let run := match (p.slot j).bwd with | some i => [i] | none => []
  ((run ++ (p.ing j 1).queue).filter fun i => dKind i.desc == 1).foldl (fun p i => p.stashFetch j (dMb i.desc)) p

/-- A spilled allocation is resident again (R81). -/
def Pkg.stashBack (p : Pkg) (j mb : Nat) : Pkg :=
  ((p.slot j).stash.filter fun a => a.mb == mb && a.spilled && a.fetch.isSome).foldl (fun p a =>
    let s := p.slot j
    let f := a.fetch.getD 0
    let p := if s.offFab = 0 then p.copyBytes (s.offBase + a.first * 65536) (s.stashBase + f * 65536) (a.pages * 65536) else p
    p.modSlot j fun s => { s with stash := s.stash.map fun b => if b = a then { b with spilled := false, first := f, fetch := none } else b }) p

/-- The end of a stash hold (R79): its time is counted and the withheld credits go out. -/
def Pkg.holdEnd (p : Pkg) (j : Nat) (was : Bool) : Pkg :=
  let s := p.slot j
  if was && !s.holding then (p.addCtr .qdStashHoldNs j (p.now - s.holdSince)).sendGrant j 0 else p

/-- Release the stash and off-load pages of a micro-batch (R81). -/
def Pkg.stashFree (p : Pkg) (j mb : Nat) : Pkg :=
  p.modSlot j fun s => { s with stash := s.stash.filter (fun a => a.mb != mb), stashRecs := s.stashRecs.filter (fun r => r.mb != mb) }
/-- Release the allocations of a killed or discarded forward attempt; one whose spill is in flight goes when the spill ends (Table 3.5). -/
def Pkg.stashFreeAttempt (p : Pkg) (j mb : Nat) : Pkg :=
  p.modSlot j fun s => { s with
    stash := (s.stash.filter fun a => a.mb != mb || a.spillAt.isSome).map fun a => if a.mb = mb then { a with dead := true } else a, stashWait := [], stashPend := [], stashFind := []
    stashRecs := s.stashRecs.map (fun r => if r.mb = mb then { r with recompute := false, spilledF := false } else r) }

/-! ## Egress pages -/

/-- Return reserved pages of an item. -/
def Pkg.egrRelease (p : Pkg) (j first n : Nat) : Pkg :=
  p.modSlot j fun s => { s with egrUsed := s.egrUsed.filter fun u => !(decide (first ≤ u) && decide (u < first + n)) }

/-- The egress pages and queue entry that a discarded item held go back (R66). -/
def Pkg.egrGiveBack (p : Pkg) (j : Nat) (i : Item) : Pkg :=
  let eq := if dKind i.desc = 0 then 0 else 1
  let p := p.egrRelease j i.egrFirst i.egrPages
  if i.egrPages = 0 then p else p.setEgr j eq { p.egr j eq with reserved := (p.egr j eq).reserved - 1 }

/-- Release the landing pages of an item and let the sender know (R65). -/
def Pkg.landRelease (p : Pkg) (j q : Nat) (i : Item) : Pkg :=
  if i.loopback then p.egrRelease j (dFirst i.desc) (dPages i.desc)
  else if i.counted then (p.modIng j q fun g => { g with released := g.released + dPages i.desc }).grantCheck j q false
  else p

/-! ## Micro-batches that land (R56, R57, R62, R64) -/

/-- Fields of an MB_HEAD (Table 4.5). -/
def mhMb (h : Rec) : Nat := fld h 0 24
def mhStep (h : Rec) : Nat := fld h 64 32
def mhPages (h : Rec) : Nat := fld h 96 32
def mhFirst (h : Rec) : Nat := fld h 160 64
def mhHop (h : Rec) : Nat := fld h 232 8
/-- Ring size of a slot's binding (Table 17.9): 0 for a slot in no ring. -/
def SlotS.ringN (s : SlotS) : Nat := fld s.bind 1352 8 + 1
/-- Valid bytes of a page of an open micro-batch. -/
def mhPageBytes (h : Rec) (p : Nat) : Nat := if p + 1 = mhFirst h + mhPages h then fld h 128 16 + 1 else 65536
/-- Insert an opened micro-batch in page order. -/
def insOpen (o : OpenMb) : List OpenMb → List OpenMb
  | [] => [o]
  | x :: xs => if mhFirst o.head < mhFirst x.head then o :: x :: xs else x :: insOpen o xs

/-- Change the open micro-batch that starts at a page. -/
def Ingress.modOpen (g : Ingress) (first : Nat) (f : OpenMb → OpenMb) : Ingress :=
  { g with opens := g.opens.map fun x => if mhFirst x.head = first then f x else x }

/-- The descriptor of an opened micro-batch (Table 3.2). -/
def Pkg.descOf (p : Pkg) (j q : Nat) (h : Rec) : Rec :=
  let s := p.slot j
  let g := p.ing j q
  let r := s.stashRecs.find? fun r => r.mb == mhMb h
  put 0 8 s.ctx + put 8 4 j + put 12 2 (if q = 2 then fld h 24 8 else q)
    + (if q = 1 then put 14 1 (b2n (r.any (·.recompute))) + put 15 1 (b2n (r.any (·.spilledF))) + put 40 16 (match r with | some r => r.wver | none => 0) else 0)
    + put 16 24 (mhMb h) + put 64 16 (fld h 32 16) + put 96 32 (mhStep h) + put 128 64 (mhFirst h) + put 192 32 (mhPages h)
    + put 224 16 (fld h 128 16) + put 256 64 (p.randKeyOf j (mhStep h)) + put 320 64 allOnes64 + put 384 64 allOnes64 + put 448 24 g.sender + put 472 4 g.senderSlot

/-- Is a step number that of a step whose abort has been commanded (R87)? -/
def Pkg.abortedStep (p : Pkg) (j st : Nat) : Bool :=
  let s := (p.ctx (p.slot j).ctx).step
  !p.serving j && (s.state == 1 || s.state == 2) && s.aborted && st == s.num % 2 ^ 32
/-- Have all bytes of the micro-batch's pages committed? -/
def OpenMb.complete (o : OpenMb) : Bool := o.committed.length == mhPages o.head
/-- Post what is complete, in sender order (R62), while the queue has an entry (R53); a stale descriptor is discarded at posting (R64), and one
of an aborted step is not posted: its pages are released (R87). -/
def Pkg.postReady (p : Pkg) (j q : Nat) : Nat → Pkg
  | 0 => p
  | fuel + 1 =>
    let g := p.ing j q
    match g.opens with
    | [] => p
    | o :: rest =>
      let dead := p.stale j (mhStep o.head) || p.abortedStep j (mhStep o.head)
      if !((o.complete || p.stale j (mhStep o.head)) && mhFirst o.head == g.nextPage) || (!dead && decide (64 ≤ g.queue.length)) then p
      else
        let h := o.head
        let d := p.descOf j q h
        let p := p.phaseTick j
        let p := p.setIng j q { g with opens := rest, nextPage := g.nextPage + mhPages h }
        let p :=
          if dead then
            let p := if p.stale j (mhStep h) then (p.bump .qdStaleDrop j).setFlag .slotStatus j 4 else p
            p.modIng j q fun g => { g with postedMb := g.postedMb + 1, dispatchedMb := g.dispatchedMb + 1, released := g.released + mhPages h }
          else if q = 2 then p.modIng j q fun g => { g with queue := g.queue ++ [{ desc := setFld d 480 32 g.qseq, qpos := 2, posted := p.now }], qseq := (g.qseq + 1) % 2 ^ 32, postedMb := g.postedMb + 1 }
          else
            let p := p.postItem j q { desc := d } true
            if q = 1 then p.stashFetch j (mhMb h) else p
        (p.grantCheck j q true).postReady j q fuel

/-- Post what an ingress queue had no entry for (R53, R62). -/
def Pkg.postMore (p : Pkg) (j q : Nat) : Pkg := p.postReady j q ((p.ing j q).opens.length + 1)

end Sys2Proof.Machine
end

