-- ==== Sys2Proof/Machine/LjOps.lean ====
section
/-! DEFINITION. Replies of Luajo (R440, R444, R446, R447). -/

namespace Sys2Proof.Machine

/-- One TLV (R441): type, length, value, zero padding to a multiple of four bytes. -/
def tlv (ty : Nat) (v : List Byte) : List Byte :=
  toLe 2 ty ++ toLe 2 v.length ++ v ++ List.replicate (roundUp v.length 4 - v.length) 0

/-- Header of a reply (Table 17.1). -/
def replyHeader (w : WaitCmd) (session status len : Nat) : List Byte :=
  toLe 24 (put 0 16 0x4A4C + put 16 8 1 + put 24 1 1 + put 25 1 (b2n w.ctxF) + put 32 32 session + put 64 8 w.context
    + put 80 16 w.opcode + put 96 32 w.seq + put 128 16 len + put 144 16 status)

/-- First 16 bytes of HMAC-SHA-384 (R444): the 48-byte result counts from its most significant byte. -/
def mac16 (key : Nat) (bytes : List Byte) : List Byte := toBe 16 (Config.hmac384 (toBe 48 key) bytes / 2 ^ 256)

/-- Send reply bytes to where the command came from (R427, R432): a datagram, with CMD_PRIO
unless the command came untagged (R429), or a CMD_REPLY with the record. -/
def Pkg.sendReply (p : Pkg) (src : Src) (bytes : List Byte) : Pkg :=
  match src with
  | .own _ _ vlan => p.ethSend (vlan.map fun _ => p.eth.cmdPrio) (.reply src bytes)
  | .relay rec from_ tag =>
    let k := p.mkPkt from_.toNat 13 0 0 (toLe 32 rec.toNat ++ bytes)
    p.emit (.pkt none false false { k with tag := tag })

/-- Keep a reply in its session's cache and let H rise (R446); the session has decided a command. -/
def Session.keepReply (s : Session) (seq now : Nat) (bytes : List Byte) : Session :=
  let h := Nat.max s.high seq
  { s with
    high := h
    cache := ((seq, bytes) :: s.cache).filter fun e => decide (h < e.1 + 64)
    waiting := s.waiting.filter fun w => w.seq != seq
    lastNs := now, decided := true }

/-- Decide a command of session place k: the reply is MACed, cached and sent (R446, R448). -/
def Pkg.reply (p : Pkg) (k : Nat) (w : WaitCmd) (status : Nat) (params : List Byte) : Pkg :=
  let s := p.session k
  let body := replyHeader w s.id.toNat status params.length ++ params
  let bytes := body ++ mac16 s.kRep body
  let p := p.setSession k (s.keepReply w.seq p.now bytes)
  p.sendReply w.src bytes

/-- Decide a waiting command named by session place and sequence number; nothing when it waits no more. -/
def Pkg.replyWaiting (p : Pkg) (tk : Option (Nat × Nat)) (status : Nat) (params : List Byte) : Pkg :=
  match tk with
  | none => p
  | some (k, seq) =>
    match (p.session k).waiting.find? fun w => w.seq == seq with
    | none => p
    | some w => { p.reply k w status params with undecided := p.undecided - 1 }

end Sys2Proof.Machine
end

