-- ==== Sys2Proof/Machine/ServeOps.lean ====
section
/-! DEFINITION. Continuous batching: rounds, page allocation, batch lists (R389 to R395). -/

namespace Sys2Proof.Machine

/-- Fields of the serving record (Table 14.8). -/
def svBase (r : Rec) : Nat := fld r 0 48
def svPages (r : Rec) : Nat := fld r 64 32
def svTpp (r : Rec) : Nat := 65536 / (fld r 96 16 + 1)
def svSlot (r : Rec) : Nat := fld r 112 4
def svStreams (r : Rec) : Nat := fld r 116 6 + 1
def svBatch (r : Rec) : Nat := fld r 128 48
def svMaxSeq (r : Rec) : Nat := fld r 192 12 + 1
def svGrow (r : Rec) : Nat := fld r 208 8
def svMaxTok (r : Rec) : Nat := fld r 224 24
/-- Entries of one page table, and pages all page tables take (R389). -/
def svPtLen (r : Rec) : Nat := ceilDiv (svMaxTok r) (svTpp r)
def svTablePages (r : Rec) : Nat := ceilDiv (4 * svMaxSeq r * svPtLen r) 65536
/-- The whole free pool. -/
def svPool (r : Rec) : List Nat := (List.range (svPages r - svTablePages r)).map (svTablePages r + ·)

/-- Pages a join needs. -/
def joinNeed (r : Rec) (j : Join) : Nat := ceilDiv (j.prompt + svGrow r) (svTpp r)
/-- Does a sequence's next token need a page? -/
def growNeed (r : Rec) (s : Seq) : Bool := decide (s.pages.length * svTpp r < s.tokens + 1)
/-- Is a parked sequence in its last round, so that its leave wins over its growth (Table 14.12)? -/
def seqStays (round : Nat) (s : Seq) : Bool := s.state == 1 && (match s.leaveAt with | some l => decide (l ≤ round) | none => false)

/-- Grow one class of sequences, oldest first: a sequence that does not fit is parked (R394). -/
def growSeqs (r : Rec) (lc : Bool) (round : Nat) : List Seq → List Nat → List Seq × List Nat
  | [], free => ([], free)
  | s :: ss, free =>
    if s.lc != lc then
      let x := growSeqs r lc round ss free
      (s :: x.1, x.2)
    else if !growNeed r s then
      let x := growSeqs r lc round ss free
      ({ s with state := 0 } :: x.1, x.2)
    else
      match free, seqStays round s with
      | pg :: rest, false =>
        let x := growSeqs r lc round ss rest
        ({ s with pages := s.pages ++ [pg], state := 0 } :: x.1, x.2)
      | _, _ =>
        let x := growSeqs r lc round ss free
        ({ s with state := 1 } :: x.1, x.2)

/-- Admit the pending joins of one class in arrival order; the first that does not fit stops the class (R394). -/
def admitJoins (r : Rec) (lc : Bool) (round : Nat) : List Join → List Seq → List Nat → Bool → List Join × List Seq × List Nat × List Join
  | [], ss, free, _ => ([], ss, free, [])
  | j :: js, ss, free, stopped =>
    if j.lc != lc || round < j.roundAt || stopped then
      let x := admitJoins r lc round js ss free stopped
      (j :: x.1, x.2.1, x.2.2.1, x.2.2.2)
    else
      let n := joinNeed r j
      let full := decide (2047 ≤ (ss.filter fun s => s.stream == j.stream).length)
      if free.length < n || full then
        let x := admitJoins r lc round js ss free true
        (j :: x.1, x.2.1, x.2.2.1, x.2.2.2)
      else
        let used := ss.map (·.entry)
        let e := ((List.range (svMaxSeq r)).find? fun k => !used.contains k).getD 0
        let s : Seq := { id := j.id, stream := j.stream, lc := j.lc, prompt := j.prompt, tokens := 0, pages := free.take n, state := 2, entry := e }
        let x := admitJoins r lc round js (ss ++ [s]) (free.drop n) false
        (x.1, x.2.1, x.2.2.1, j :: x.2.2.2)

/-- Write a sequence's page table (R389). -/
def Pkg.writePt (p : Pkg) (r : Rec) (s : Seq) : Pkg :=
  p.store (svBase r + s.entry * 4 * svPtLen r) ((s.pages.map (toLe 4)).flatten)

/-- A round starts (R394): growth LC, growth BE, joins LC, joins BE. -/
def Pkg.roundStart (p : Pkg) (c : Nat) : Pkg :=
  let x := p.ctx c
  let r := x.serve
  let g1 := growSeqs r true x.round x.seqs x.freePages
  let g2 := growSeqs r false x.round g1.1 g1.2
  let a1 := admitJoins r true x.round x.joins g2.1 g2.2 false
  let a2 := admitJoins r false x.round a1.1 a1.2.1 a1.2.2.1 false
  let parked := a2.2.1.filter fun s => s.state == 1
  let fresh := parked.filter fun s => !s.parkedOnce
  let seqs := a2.2.1.map fun s => if s.state = 1 then { s with parkedOnce := true } else s
  let admitted := a1.2.2.2 ++ a2.2.2.2
  let p := p.setCtx c { x with
    seqs := seqs, joins := a2.1, freePages := a2.2.2.1, roundStarted := true
    tally := { x.tally with parkedRounds := (x.tally.parkedRounds + parked.length) % 2 ^ 32 } }
  let p := seqs.foldl (fun p s => p.writePt r s) p
  let p := fresh.foldl (fun p s => p.raise .serveParked p.primary c s.id stParked) p
  let p := p.addCtr .serveParked c parked.length
  let p := if parked.isEmpty then p else p.setFlag .schedStatus p.primary 3
  admitted.foldl (fun p j =>
    let p := (p.bump .serveJoined c).raise .serveJoined p.primary c j.id x.round
    p.replyWaiting j.reply 0 (tlv 0x000F (toLe 8 x.round))) p

/-- A round commits (R390, R393): leaves take effect, tokens advance, the next round starts. -/
def Pkg.roundCommit (p : Pkg) (c : Nat) : Pkg :=
  let x := p.ctx c
  let gone := x.seqs.filter fun s => match s.leaveAt with | some l => decide (l ≤ x.round) | none => false
  let stay := x.seqs.filter fun s => match s.leaveAt with | some l => decide (x.round < l) | none => true
  let stay := stay.map fun s => if s.state = 1 then s else if s.state = 2 then { s with tokens := s.prompt } else { s with tokens := s.tokens + 1 }
  let p := p.setCtx c { x with
    seqs := stay, freePages := x.freePages ++ (gone.map (·.pages)).flatten, round := x.round + 1, roundItems := 0 }
  (p.addCtr .serveLeft c gone.length).roundStart c

/-- The batch list of a stream (R395, Table 14.9), written before each item is dispatched. -/
def Pkg.writeBatch (p : Pkg) (c stream : Nat) : Pkg :=
  let x := p.ctx c
  let r := x.serve
  let ent (s : Seq) : List Byte :=
    toLe 32 (put 0 32 s.id + put 32 2 s.state + put 34 1 (b2n s.lc) + put 35 1 (b2n (match s.leaveAt with | some l => decide (l ≤ x.round) | none => false))
      + put 64 32 s.tokens + put 96 48 (svBase r + s.entry * 4 * svPtLen r) + put 160 32 s.pages.length)
  let bs := ((x.seqs.filter fun s => s.stream == stream).map ent).flatten ++ toLe 32 0xFFFF_FFFF
  p.store (svBatch r + 65536 * stream) bs

/-- The last item of a serving round has ended (R390). -/
def Pkg.serveEnd (p : Pkg) (j : Nat) : Pkg :=
  if p.serving j then
    let c := (p.slot j).ctx
    let p := p.modCtx c fun x => { x with roundItems := x.roundItems + 1 }
    if (p.ctx c).roundItems = svStreams (p.ctx c).serve then p.roundCommit c else p
  else p

end Sys2Proof.Machine
end

