-- ==== Sys2Proof/Machine/Items.lean ====
section
/-! DEFINITION. The life of a work item after dispatch: kill, discard, end event, fault of its context; the
activity state of contexts (R243, R245, R376, R379, R386). -/

namespace Sys2Proof.Machine

/-- A context's change of STATE (R375, R399): entered time and EV_CTX_STATE. -/
def Pkg.ctxTo (p : Pkg) (c : Nat) (st : CState) : Pkg :=
  let x := p.ctx c
  if x.state = st then p else
  let p := p.setCtx c { x with state := st, enteredNs := p.icount p.primary % 2 ^ 32, holdDone := false }
  p.raise .ctxState p.primary c c (x.state.ctorIdx + 16 * st.ctorIdx + 256 * x.cause)

/-- Does a context have a thread that can issue, or an engine operation in progress (R376)? -/
def Pkg.ctxActive (p : Pkg) (c : Nat) : Bool :=
  p.thrs.any fun e => e.2.ctx == c && (e.2.state == .ready ||
    (e.2.state == .blocked && (let k := p.core (coreOf e.1)
      k.owner == some e.1 || (k.vops.any fun o => o.thr == e.1) || (match k.drain with | some d => d.thr == e.1 | none => false))))

/-- Activity state of a resident, scheduled context (R376). -/
def Pkg.ctxEval (p : Pkg) (c : Nat) : Pkg :=
  let x := p.ctx c
  if !(x.scheduled && (x.state = .ready || x.state = .running || x.state = .blocked)) then p
  else if p.ctxActive c then p.ctxTo c .running
  else if (p.slotsOf c).any fun j => p.headReady j 0 || p.headReady j 1 then p.ctxTo c .ready
  else p.ctxTo c .blocked

/-- The endpoints and connections of an item at its end or discard (R251, R253). -/
def Pkg.closeItemChans (p : Pkg) (j q : Nat) : Pkg :=
  (p.slot j).cores.foldl (fun p g =>
    let p := (epsOf (p.core g) (j, q)).foldl (fun p e => p.closeEp g e) p
    ((p.core g).conns.filter fun e => e.2.state != 0 && e.2.item == (j, q)).foldl (fun p e => p.freeConn g e.1) p) p

/-- Free the threads of an item to the slot's reservation. -/
def Pkg.dropThrs (p : Pkg) (ts : List Nat) (ended : Bool) : Pkg := ts.foldl (fun p t => p.dropThr t ended) p

/-- The groups of an item that are not wholly received are dropped and not counted (R246); the credits of their messages return (R255). -/
def Pkg.dropTransit (p : Pkg) (j q : Nat) : Pkg :=
  let gone := (p.slot j).transit.filter fun g => g.qpos == q
  let p := gone.foldl (fun p g => g.sends.foldl (fun p x => p.returnCredit (coreOf g.thr) x.1 x.2.1 x.2.2) p) p
  p.modSlot j fun s => { s with transit := s.transit.filter fun g => g.qpos != q }

/-- Kill the running item of a position (R72, R245, R379): it returns to the head of its ingress queue with its
pages, keys, commit record and window; consumed endpoint words return (R241). -/
def Pkg.killItem (p : Pkg) (j q : Nat) : Pkg :=
  let p := p.stepTick j q
  match (p.slot j).pos q with
  | none => p
  | some i =>
    let p := p.phaseTick j
    let hold := (p.slot j).holding
    let p := (p.dropThrs i.thrs false).holdEnd j hold
    let p := (p.slot j).cores.foldl (fun p g =>
      (epsOf (p.core g) (j, q)).foldl (fun p e => (p.setEp g e (epReturn (p.ep g e))).epGrants g e) p) p
    let p := if q = 0 then (p.stashFreeAttempt j (dMb i.desc)).stashFetchAll j else p
    let i := { i with
      thrs := [], live := [], undecided := 0, commitIdx := [], egrDone := [], egrWritten := [], track := []
      streams := i.streams.map (fun e => (e.1, if fld e.2 0 64 = 0 then e.2 else e.2 / 2 ^ 64 * 2 ^ 64 + 1)) }
    let p := p.dropTransit j q
    let p := p.setPos j q none
    p.modIng j q fun g => { g with queue := i :: g.queue }

/-- An item that STEP_ABORT or a failed finite-check discards after its window end is classified (R43). -/
def Pkg.lateDiscard (p : Pkg) (j : Nat) (i : Item) : Pkg :=
  if i.startNs.any fun s => decide (s + i.window < p.icount (queueDie (halfOfSlot j))) then p.classify j i true else p
/-- Discard the running item of a position (R245, R365): its pages go; its published groups stay. `step` says that its step discards it (R43). -/
def Pkg.discardRunning (p : Pkg) (j q : Nat) (step : Bool) : Pkg :=
  let p := p.stepTick j q
  match (p.slot j).pos q with
  | none => p
  | some i =>
    let p := p.phaseTick j
    let hold := (p.slot j).holding
    let p := (p.dropThrs i.thrs false).holdEnd j hold
    let p := p.closeItemChans j q
    let p := if step then p.lateDiscard j i else p
    let p := p.egrGiveBack j i
    let p := if q = 0 then (p.stashFreeAttempt j (dMb i.desc)).stashFetchAll j else p
    let p := p.dropTransit j q
    let p := p.setPos j q none
    ((p.landRelease j q i).recordStart j (dKind i.desc)).optRetry j

/-- Discard the queued items of an ingress queue that a test names (R64, R365, R386). -/
def Pkg.discardQueued (p : Pkg) (j q : Nat) (step : Bool) (f : Item → Bool) : Pkg :=
  let gone := (p.ing j q).queue.filter f
  let p := p.modIng j q fun g => { g with queue := g.queue.filter (fun i => !f i), dispatchedMb := g.dispatchedMb + (gone.filter (fun i => !i.dispatched && i.counted)).length }
  -- the channels of an item that was killed back to its queue close with it (R251, R253)
  let p := if gone.any fun i => i.dispatched then p.closeItemChans j q else p
  let p := gone.foldl (fun p i =>
    let p := if step then p.lateDiscard j i else p
    ((p.egrGiveBack j i).landRelease j q i).recordStart j (dKind i.desc)) p
  let p := p.postMore j q
  if q = 1 then p.optRetry j else p

/-- Every item of a slot is killed and discarded (R386). -/
def Pkg.discardSlot (p : Pkg) (j : Nat) (step : Bool) (f : Item → Bool) : Pkg :=
  let run (p : Pkg) (q : Nat) : Pkg := match (p.slot j).pos q with | some i => if f i then p.discardRunning j q step else p | none => p
  ((run (run p 0) 1).discardQueued j 0 step f).discardQueued j 1 step f

/-- A late vote (R367, R370): cause other reaches the parent after a device has voted without it. -/
def Pkg.lateVote (p : Pkg) (c : Nat) : Pkg :=
  let x := (p.ctx c).step
  if x.state = 2 && x.voted && !x.verdictIn && x.localCause != 2 && !bit x.policy 108 then
    (p.request (p.mkPkt (fld x.policy 128 24) 6 0
      (put 0 12 (fld x.policy 152 12 + 2 + x.num % 2) + put 16 9 0x1FF + put 32 8 c) (toLe 8 (2 ^ 32))) .doneObj).2
  else p

/-- A context enters FAULTED (R386): first cause kept, items discarded, an OPEN step to SEALING with cause
other, out of scheduling, residence kept. -/
def Pkg.ctxFault (p : Pkg) (c cause : Nat) : Pkg :=
  let x := p.ctx c
  if x.state = .faulted || x.state = .empty then p else
  let p := (p.slotsOf c).foldl (fun p j => p.discardSlot j false fun _ => true) p
  let p := p.lateVote c
  let p := p.modCtx c fun x => { x with
    cause := cause, scheduled := false, runnableSince := none
    step := if x.step.state = 1 then { x.step with state := 2, localCause := 2, sealNs := p.now } else { x.step with localCause := if x.step.state = 2 then 2 else x.step.localCause } }
  let p := { p with waiters := p.waiters.filter fun w => fld w.pkt.kspec.toNat 32 8 != c || w.pkt.src.toNat != p.fabAddr }
  p.ctxTo c .faulted

/-- Raise the non-finite flag of a context (R157), with EV_STEP_NONFINITE once per step (chapter 13). -/
def Pkg.nonfinite (p : Pkg) (c die core : Nat) : Pkg :=
  let x := p.ctx c
  let p := p.setCtx c { x with step := { x.step with nonfinite := true, nonfinRaised := true } }
  if x.step.nonfinRaised then p else p.raise .stepNonfinite die c core 0

/-- Tracking table and explicit-stream table of a context (Table 17.10, ROLE). -/
def Pkg.roleBase (p : Pkg) (c role : Nat) : Option Region := p.regions.find? fun r => r.owner == c && r.role == role

/-- An entry after the merge of an item's accumulation (R156, R158): maximum, and saturating sums on counts and totals. -/
def trackMerge (e t : Rec) : Rec :=
  let e := setFld e 0 32 (Nat.max (fld e 0 32) (fld t 0 32))
  let e := setFld e 32 32 (satAdd 32 (fld e 32 32) (fld t 32 64))
  let e := setFld e 64 32 (satAdd 32 (fld e 64 32) (fld t 96 64))
  let e := setFld e 96 32 (satAdd 32 (fld e 96 32) (fld t 160 64))
  let e := setFld e 256 64 (satAdd 64 (fld e 256 64) (fld t 32 64))
  setFld e 320 64 (satAdd 64 (fld e 320 64) (fld t 160 64))
/-- Merge an item's tracking accumulation into its entry (R156). The merged fields of an entry that the host wrote in the open step are
undefined (R158): free values. -/
def Pkg.mergeTrack (p : Pkg) (c idx : Nat) (t : Rec) : Pkg :=
  match p.roleBase c 1 with
  | none => p
  | some r =>
    let a := r.base + 128 * idx
    let e := trackMerge (p.loadNum a 128) t
    if (p.ctx c).trackHost.contains idx then
      let (step, p) := p.take 128
      let (total, p) := p.take 128
      p.store a (toLe 128 (setFld (setFld e 0 128 step) 256 128 total))
    else p.store a (toLe 128 e)
/-- A host write to an entry of a tracking table while its context has a step OPEN or SEALING (R155, R158). -/
def Pkg.noteTrack (p : Pkg) (a len : Nat) : Pkg :=
  (p.ctxs.map (·.1)).foldl (fun p c =>
    match p.roleBase c 1 with
    | none => p
    | some r =>
      let st := (p.ctx c).step.state
      if (st != 1 && st != 2) || len = 0 || a + len ≤ r.base || r.base + 128 * 4096 ≤ a then p
      else
        let fst := (a - r.base) / 128
        let lst := (a + len - 1 - r.base) / 128
        p.modCtx c fun x => { x with trackHost := (x.trackHost ++ (List.range (lst + 1 - fst)).map (fst + ·)).eraseDups }) p
/-- A tracking table that is mapped takes the reset values of Table 5.10 (R155): SCALE_CUR is 127, every other field 0. -/
def Pkg.trackInit (p : Pkg) (r : Region) : Pkg :=
  if r.role = 1 then
    (List.range (Nat.min 4096 (r.pages * 512))).foldl (fun p i => p.store (r.base + 128 * i) (toLe 128 (put 144 8 127))) p
  else p

/-- Address of an explicit stream's table entry (R205). -/
def Pkg.streamAddr (p : Pkg) (c i : Nat) : Option Nat := (p.roleBase c 2).map fun r => r.base + 32 * i
/-- Write base + offset of every stream the item drew from (R205). -/
def Pkg.endStreams (p : Pkg) (c : Nat) (st : Tab Rec) : Pkg :=
  let used := (st.filter fun e => fld e.2 0 64 != 0).map (·.1)
  let p := p.modCtx c fun x => { x with step := { x.step with usedStreams := (x.step.usedStreams ++ used).eraseDups } }
  (st.filter fun e => fld e.2 0 64 != 0).foldl (fun p e =>
    match p.streamAddr c e.1 with
    | none => p
    | some a => p.store (a + 16) (toLe 16 (fld e.2 64 128 + (fld e.2 0 64 - 1)))) p

/-- Lowest VALID canary rate over the compute domains of a slot, M steps/s (R39, R388). -/
def Pkg.lowRate (p : Pkg) (j : Nat) : Nat :=
  let ds := ((p.slot j).cores.map dieOfCore).eraseDups
  let rs := (ds.map fun d => ((p.die d).canary.map fun e => e.2.toNat).filter fun c => bit c 47 && decide (fld c 40 7 < 32)).flatten.map fun c => fld c 0 16
  rs.foldl (fun m r => if m = 0 then r else Nat.min m r) 0
/-- Account the delivered rate of a running item up to now. -/
def Pkg.rateTick (p : Pkg) (j q : Nat) : Pkg :=
  let r := p.lowRate j
  p.modPos j q fun i => { i with gSum := i.gSum + r * (p.now - i.gAt), gAt := p.now }

/-- ACTUAL_NS and EXPECTED_NS of R388. -/
def Pkg.tallyItem (p : Pkg) (j : Nat) (i : Item) : Pkg :=
  let s := p.slot j
  let w := s.workOf (dKind i.desc)
  let run := p.now - i.firstDisp
  let actual := run - i.frozenNs
  let b := p.bAdm s.bind
  let expected := (if i.gSum = 0 then 0 else w.steps * 1000 * run / i.gSum) + (if b = 0 then 0 else (100 * w.near + 164 * w.far) * 10 / b)
  p.modCtx s.ctx fun x =>
    let t := { x.tally with itemsRun := x.tally.itemsRun + 1 }
    { x with tally := if w.valid then { t with actual := t.actual + actual, expected := t.expected + expected } else t }

/-- Entries of the key/value stream that the ended item has consumed go in sequence order: those of its
micro-batch and kind at the head of the stream. -/
def Pkg.kvRelease (p : Pkg) (j : Nat) (i : Item) : Pkg :=
  let q := (p.ing j 2).queue
  let gone := q.takeWhile fun e => dMb e.desc == dMb i.desc && dKind e.desc == dKind i.desc
  if gone.isEmpty then p else
  (p.modIng j 2 fun g => { g with
    queue := q.drop gone.length, released := g.released + (gone.map fun e => dPages e.desc).sum, dispatchedMb := g.dispatchedMb + gone.length }).grantCheck j 2 false

/-- May the item's end event be recorded (R243)? -/
def Item.complete (i : Item) (p : Pkg) : Bool :=
  !i.thrs.isEmpty && i.thrs.all (fun t => (p.thr t).doneFlag) && i.undecided == 0 && i.egrWritten.all (fun e => i.egrDone.contains e.1)

/-- Pages of an item's output: one more than the highest page written. -/
def Item.outUsed (i : Item) : Nat := i.egrWritten.foldl (fun m e => Nat.max m (e.1 + 1)) 0

/-- An egress descriptor (R54, R55): CONTEXT, SLOT, the key and what the producing item's descriptor gives it; its pages, its peer and its
position in the egress queue's posting sequence. No start event or window applies to it; WVER, RECOMPUTE and SPILLED, which the rule
does not copy, are 0 (DESIGN CHOICE, log entry 175). -/
def egrDesc (i : Item) (used last fab slot seq : Nat) : Rec :=
  put 0 14 (fld i.desc 0 14) + put 16 24 (dMb i.desc) + put 64 16 (fld i.desc 64 16) + put 96 32 (dStep i.desc) + put 128 64 i.egrFirst
    + put 192 32 used + put 224 16 last + put 256 64 (fld i.desc 256 64) + put 320 64 allOnes64 + put 384 64 allOnes64
    + put 448 24 fab + put 472 4 slot + put 480 32 seq
/-- The backward ingress descriptor that a loop-back slot's forward item leaves (R55): the egress descriptor with KIND 1, the slot itself its
peer, and what the stash record gives a backward item (R75, R79). -/
def Pkg.loopDesc (p : Pkg) (j : Nat) (i : Item) (used last : Nat) : Rec :=
  let r := (p.slot j).stashRecs.find? fun r => r.mb == dMb i.desc
  setFld (setFld (setFld (setFld (egrDesc i used last p.fabAddr j 0) 12 2 1) 14 1 (b2n (r.any (·.recompute)))) 15 1 (b2n (r.any (·.spilledF)))) 40 16
    (match r with | some r => r.wver | none => 0)

/-- The output leaves the item (R55, R66): an egress descriptor, or a backward descriptor of a loop-back slot. DESIGN CHOICE
(log 58): an item that wrote no output page sends no micro-batch over a link; a loop-back slot still gets its descriptor. -/
def Pkg.postEgress (p : Pkg) (j : Nat) (i : Item) : Pkg :=
  let s := p.slot j
  let k := dKind i.desc
  let eq := if k = 0 then 0 else 1
  let n := i.outUsed
  let p := p.egrRelease j (i.egrFirst + n) (i.egrPages - n)
  let p := p.setEgr j eq { p.egr j eq with reserved := (p.egr j eq).reserved - (if i.egrPages = 0 then 0 else 1) }
  if i.egrPages = 0 || k = 2 then p else
  let last := tabGet 1 i.egrWritten (n - 1) - 1
  let recv := if k = 0 then 416 else 480
  if k = 0 && p.loopBack j then
    p.postItem j 1 { desc := p.loopDesc j i n last, loopback := true, counted := false } false |>.stashFetch j (dMb i.desc)
  else if n = 0 then p
  else
    let e := p.egr j eq
    let d := egrDesc i n last (fld s.bind recv 24) (fld s.bind (recv + 24) 4) (e.seq % 2 ^ 32)
    p.setEgr j eq { e with queue := e.queue ++ [{ desc := d, first := i.egrFirst, pages := n, seq := e.seq, page0 := e.pageSeq }], seq := e.seq + 1, pageSeq := e.pageSeq + n }

/-- The item's end event (R29, R65, R75, R81, R156, R205, R243, R251): everything that becomes visible or is released. -/
def Pkg.endItem (p : Pkg) (j q : Nat) : Pkg :=
  match (p.slot j).pos q with
  | none => p
  | some _ =>
    let p := ((p.phaseTick j).rateTick j q).stepTick j q
    match (p.slot j).pos q with
    | none => p
    | some i =>
    let c := (p.slot j).ctx
    let k := dKind i.desc
    let p := p.tallyItem j i
    let p := p.classify j i false
    let p := i.track.foldl (fun p e => p.mergeTrack c e.1 e.2) p
    let p := p.endStreams c i.streams
    let p := p.dropThrs i.thrs true
    let p := p.closeItemChans j q
    let p := p.setPos j q none
    let p := p.postEgress j i
    let p := p.landRelease j q i
    let p := p.kvRelease j i
    let p := if k = 1 then
        let p := match (p.slot j).stashRecs.find? fun r => r.mb == dMb i.desc with
          | some r => p.unref j r
          | none => p
        (p.stashFree j (dMb i.desc)).stashFetchAll j
      else p
    let p := p.modSlot j fun s => { s with
      itemsEnd := if k = 2 then s.itemsEnd else s.itemsEnd + 1, optEnded := s.optEnded || k == 2, lastEnd := tabSet 0 s.lastEnd k p.now }
    let p := (p.recordStart j k).loopFor j i
    (p.serveEnd j).ctxEval c

/-- Record the end event when its conditions hold (R243). -/
def Pkg.tryEnd (p : Pkg) (j q : Nat) : Pkg :=
  match (p.slot j).pos q with
  | none => p
  | some i => if i.complete p then p.endItem j q else p

/-- A thread faults (R245): cause, PC and word of the faulting instruction recorded; it stops where it stands; THREAD_FAULT and
EV_CORE_FAULT; the item is discarded and the context faults. -/
def Pkg.thrFaultAs (p : Pkg) (t cause pc : Nat) (inst : W64) (ctxCause : Nat) : Pkg :=
  let th := p.thr t
  let g := coreOf t
  let d := dieOfCore g
  let f := put 0 8 cause + put 8 24 pc + put 32 32 (p.icount d)
  let p := p.setThr t { th with state := .faulted, wait := .none, fault := BitVec.ofNat 64 f, finst := inst }
  let p := (p.setFlag .coreStatus g 0).bump .coreFault g
  let p := p.raise .coreFault d th.ctx t (f + inst.toNat * 2 ^ 64)
  p.ctxFault th.ctx ctxCause
/-- A thread fault: context cause 1 (Table 14.4). -/
def Pkg.thrFault (p : Pkg) (t cause pc : Nat) (inst : W64) : Pkg := p.thrFaultAs t cause pc inst 1

/-! ## Device traffic for a context (R282, R288, R298, R310) -/

/-- Does a range lie in the regions that MEM_MAP has given the context, or the device (R282)? -/
def Pkg.devRegion (p : Pkg) (c a n : Nat) : Bool := p.inRegions c a n || p.inRegions 0x100 a n
/-- How memory takes a device access for a context: `.address` for one it does not serve (R282). -/
def Pkg.devTest (p : Pkg) (c a n : Nat) : Access :=
  if n = 0 then .ok
  else if !(isStackAddr a && isStackAddr (a + n - 1)) || !p.devRegion c a n then .address
  else match p.memReady a n with
    | .ok => .ok
    | .waits => .waits
    | _ => .address
/-- EV_MD_BAD_ADDRESS (R282): the owning context is FAULTED. -/
def Pkg.badAddress (p : Pkg) (c a : Nat) : Pkg :=
  (p.raise .mdBadAddress (if isStackAddr a then dieOfMem (memDieOfStack (stackOf a)) else p.primary) c a 0).ctxFault c 7
/-- EV_MD_POISON_CONSUMED and POISON_CONSUMED (R288, R313). -/
def Pkg.poisonEvent (p : Pkg) (c a : Nat) : Pkg :=
  let d := dieOfMem (memDieOfStack (stackOf a))
  (p.setFlag .mdStatus d 7).raise .mdPoisonConsumed d c a 0
/-- A poisoned line read by the device for a context: the context is FAULTED (R288). -/
def Pkg.poisonConsumed (p : Pkg) (c a : Nat) : Pkg := (p.poisonEvent c a).ctxFault c 6
/-- First poisoned line of a range, as an address. -/
def Pkg.firstPoison (p : Pkg) (a n : Nat) : Nat := ((linesOf a n).find? p.linePoison).getD (a / 64) * 64
/-- The faults of a device read for a context: poison, bad address. One that must wait is not made: the caller tests. -/
def Pkg.deviceCheck (p : Pkg) (c a n : Nat) : Pkg :=
  match p.devTest c a n with
  | .ok => if p.poisoned a n then p.poisonConsumed c (p.firstPoison a n) else p
  | .waits => p
  | _ => p.badAddress c a
/-- A device read for a context goes through the caches (R298). -/
def Pkg.deviceRead (p : Pkg) (c a n hint : Nat) : Pkg :=
  match p.devTest c a n with
  | .ok => (p.devTouch a n false hint).deviceCheck c a n
  | _ => p.deviceCheck c a n
/-- Is a device read of a range served, with no poison? -/
def Pkg.devClean (p : Pkg) (c a n : Nat) : Bool := p.devTest c a n == .ok && !p.poisoned a n
/-- An access waits at its memory die. -/
def Pkg.holdAcc (p : Pkg) (m : Nat) (w : MemAcc) : Pkg := p.modMemDie m fun d => { d with waiting := d.waiting ++ [w] }
/-- A device write for a context; one to a stack that refreshes itself or a row that is copied waits in the die's write queue. -/
def Pkg.deviceWrite (p : Pkg) (c a : Nat) (bs : List Byte) (hint : Nat) (sump : Option (Nat × Nat) := none) : Pkg :=
  match p.devTest c a bs.length with
  | .ok => (p.devTouch a bs.length true hint).store a bs
  | .waits => p.holdAcc (memDieOfStack (stackOf a)) (.write c a bs hint sump)
  | _ => p.badAddress c a

end Sys2Proof.Machine
end

