-- ==== Sys2Proof/WellFormed.lean ====
section
/-! DEFINITION. Which instruction words are well formed (R224, R225, R226): reserved and unread fields are
zero, codes are ones the operation permits. An ill-formed word faults with ILLEGAL_ENCODING when it issues. -/

namespace Sys2Proof

/-- How an operation reads a register field of format S: not at all, as an s-register, as an address register. -/
inductive Use where
  | no | s | a
  deriving DecidableEq, Repr

/-- A register field against its use (R224, R226): unread fields are zero, address registers use 3 bits. -/
def useOk (u : Use) (v : BitVec 5) : Bool :=
  match u with
  | .no => v == 0
  | .s => true
  | .a => decide (v.toNat < 8)

/-- Format S: RB and IMM32 are alternatives chosen by I, and both unread where the operation has no RB. -/
def wfS (rd ra rb rc : Use) (f : FmtS) : Bool :=
  !f.res && useOk rd f.rd && useOk ra f.ra && useOk rc f.rc &&
    (match rb with
     | .no => f.rb == 0 && !f.i && f.imm == 0
     | u => if f.i then f.rb == 0 else useOk u f.rb && f.imm == 0)

/-- FENCE: I = 1 and a mask of three bits (R235). -/
def wfFence (f : FmtS) : Bool :=
  !f.res && f.rd == 0 && f.ra == 0 && f.rb == 0 && f.rc == 0 && f.i && decide (f.imm.toNat < 8)

/-- Format L; `addr` says RD names an address register. -/
def wfL (addr : Bool) (f : FmtL) : Bool := !f.res && (!addr || decide (f.rd.toNat < 8))

/-- BR: a defined COND (R224). -/
def wfBr (f : FmtB) : Bool := decide (f.cond.toNat < 6)
/-- JAL reads no RA and no COND; JALR no COND. -/
def wfJal (f : FmtB) : Bool := f.rb == 0 && f.cond == 0
def wfJalr (f : FmtB) : Bool := f.cond == 0

/-- Format M: which of RL, TAG, HINT, AR with OFF32, and RS the operation reads (R231). -/
def wfM (rs addr rl tag hint : Bool) (f : FmtM) : Bool :=
  !f.res && (rs || f.rs == 0) && (addr || (f.ar == 0 && f.off == 0)) && (rl || f.rl == 0) && (tag || f.tag == 0) && (hint || f.hint == 0)

/-- Tile class: SHAPE, MSK and AR2 zero; TAG zero but in ACC_SWAP (R232). -/
def wfTile (tag : Bool) (f : FmtD) : Bool := f.res == 0 && !f.shape && f.msk == 0 && f.ar2 == 0 && (tag || f.tag == 0)
/-- CVT: MSK 3 reserved, AR2 read only with SHAPE (R233). -/
def wfCvt (f : FmtD) : Bool := f.res == 0 && f.msk != 3 && (f.shape || f.ar2 == 0)

/-- Format codes a group of Table 7.2 permits. -/
def laneFmt (c : Nat) : Bool := c == 10 || c == 11 || c == 12 || c == 13 || c == 14
def intFmt (c : Nat) : Bool := c == 10 || c == 14
def fp32Fmt (c : Nat) : Bool := c == 13
def int32Fmt (c : Nat) : Bool := c == 14
def idxFmt (c : Nat) : Bool := c == 13 || c == 14

/-- A source field with its kind: read or zero, kind 3 reserved. -/
def srcOk (used : Bool) (v : BitVec 5) (k : BitVec 2) : Bool := if used then k != 3 else v == 0 && k == 0

/-- Format V with n sources (R225, R226, R234): at most one channel; with SHAPE the upper bits of X are zero. -/
def wfV (n : Nat) (fmt : Nat → Bool) (f : FmtV) : Bool :=
  f.res == 0 && fmt f.fmt.toNat && f.msk != 3 && (!f.shape || decide (f.x.toNat < 8)) &&
    srcOk (0 < n) f.a f.aK && srcOk (1 < n) f.b f.bK && srcOk (2 < n) f.c f.cK &&
    decide (([f.aK, f.bK, f.cK].filter (· == 2)).length ≤ 1)
/-- SEL: C is the offset of a mask bit array, its kind 0 (R233). -/
def wfSel (f : FmtV) : Bool := wfV 3 laneFmt f && f.cK == 0
/-- DROP: B and C are scalars (R233). -/
def wfDrop (f : FmtV) : Bool := wfV 3 laneFmt f && f.bK == 1 && f.cK == 1
/-- DSOFTMAX requires the shaped form (R200). -/
def wfDsoftmax (f : FmtV) : Bool := wfV 2 fp32Fmt f && f.shape

/-- Well-formedness of a command: of its instruction word for a thread instruction; a datagram, a packet or an
event is judged by its meaning. -/
def Instr.wf : Instr → Bool
  | .add _ f => wfS .s .s .s .no f
  | .sub _ f => wfS .s .s .s .no f
  | .mul _ f => wfS .s .s .s .no f
  | .mulhu _ f => wfS .s .s .s .no f
  | .mulh _ f => wfS .s .s .s .no f
  | .divu _ f => wfS .s .s .s .no f
  | .div _ f => wfS .s .s .s .no f
  | .remu _ f => wfS .s .s .s .no f
  | .rem _ f => wfS .s .s .s .no f
  | .and _ f => wfS .s .s .s .no f
  | .or _ f => wfS .s .s .s .no f
  | .xor _ f => wfS .s .s .s .no f
  | .shl _ f => wfS .s .s .s .no f
  | .shr _ f => wfS .s .s .s .no f
  | .sar _ f => wfS .s .s .s .no f
  | .min _ f => wfS .s .s .s .no f
  | .max _ f => wfS .s .s .s .no f
  | .minu _ f => wfS .s .s .s .no f
  | .maxu _ f => wfS .s .s .s .no f
  | .slt _ f => wfS .s .s .s .no f
  | .sltu _ f => wfS .s .s .s .no f
  | .seq _ f => wfS .s .s .s .no f
  | .li _ f => wfL false f
  | .fadd _ f => wfS .s .s .s .no f
  | .fsub _ f => wfS .s .s .s .no f
  | .fmul _ f => wfS .s .s .s .no f
  | .fdiv _ f => wfS .s .s .s .no f
  | .ffma _ f => wfS .s .s .s .s f
  | .fmin _ f => wfS .s .s .s .no f
  | .fmax _ f => wfS .s .s .s .no f
  | .flt _ f => wfS .s .s .s .no f
  | .fcvtif _ f => wfS .s .s .no .no f
  | .fcvtfi _ f => wfS .s .s .no .no f
  | .setvl _ f => wfS .no .no .s .no f
  | .setvm _ f => wfS .no .no .s .no f
  | .getvl _ f => wfS .s .no .no .no f
  | .getvm _ f => wfS .s .no .no .no f
  | .getst _ f => wfS .s .no .no .no f
  | .clrst _ f => wfS .no .no .s .no f
  | .rdinfo _ f => wfS .s .no .s .no f
  | .rdic _ f => wfS .s .no .no .no f
  | .aadd _ f => wfS .a .a .s .no f
  | .amov _ f => wfS .a .no .s .no f
  | .ard _ f => wfS .s .a .no .no f
  | .ali _ f => wfL true f
  | .awin _ f => wfS .a .no .s .no f
  | .br _ f => wfBr f
  | .jal _ f => wfJal f
  | .jalr _ f => wfJalr f
  | .lds _ f => wfM true true false false true f
  | .sts _ f => wfM true true true true true f
  | .mld _ f => wfM true true true true true f
  | .mst _ f => wfM true true true true true f
  | .pref _ f => wfM false true true false true f
  | .stashAlloc _ f => wfM true false true false false f
  | .stashFind _ f => wfM true false true false false f
  | .tmma _ f => wfTile false f
  | .tgemv _ f => wfTile false f
  | .accSwap _ f => wfTile true f
  | .vAdd _ f => wfV 2 laneFmt f
  | .vSub _ f => wfV 2 laneFmt f
  | .vMul _ f => wfV 2 laneFmt f
  | .vFma _ f => wfV 3 laneFmt f
  | .vFms _ f => wfV 3 laneFmt f
  | .vNeg _ f => wfV 1 laneFmt f
  | .vAbs _ f => wfV 1 laneFmt f
  | .vMin _ f => wfV 2 laneFmt f
  | .vMax _ f => wfV 2 laneFmt f
  | .vAdds _ f => wfV 2 intFmt f
  | .vSubs _ f => wfV 2 intFmt f
  | .vAnd _ f => wfV 2 intFmt f
  | .vOr _ f => wfV 2 intFmt f
  | .vXor _ f => wfV 2 intFmt f
  | .vShl _ f => wfV 2 intFmt f
  | .vShr _ f => wfV 2 intFmt f
  | .vSar _ f => wfV 2 intFmt f
  | .vCmpeq _ f => wfV 2 laneFmt f
  | .vCmplt _ f => wfV 2 laneFmt f
  | .vCmple _ f => wfV 2 laneFmt f
  | .vCmpun _ f => wfV 2 laneFmt f
  | .vSel _ f => wfSel f
  | .vDiv _ f => wfV 2 fp32Fmt f
  | .vRcp _ f => wfV 1 fp32Fmt f
  | .vSqrt _ f => wfV 1 fp32Fmt f
  | .vRsqrt _ f => wfV 1 fp32Fmt f
  | .vExp _ f => wfV 1 fp32Fmt f
  | .vExp2 _ f => wfV 1 fp32Fmt f
  | .vLog _ f => wfV 1 fp32Fmt f
  | .vLog2 _ f => wfV 1 fp32Fmt f
  | .vTanh _ f => wfV 1 fp32Fmt f
  | .vSigmoid _ f => wfV 1 fp32Fmt f
  | .vSilu _ f => wfV 1 fp32Fmt f
  | .vGelu _ f => wfV 1 fp32Fmt f
  | .vGeluT _ f => wfV 1 fp32Fmt f
  | .vSoftplus _ f => wfV 1 fp32Fmt f
  | .vSin _ f => wfV 1 fp32Fmt f
  | .vCos _ f => wfV 1 fp32Fmt f
  | .vDrelu _ f => wfV 2 fp32Fmt f
  | .vDsigmoid _ f => wfV 2 fp32Fmt f
  | .vDtanh _ f => wfV 2 fp32Fmt f
  | .vDexp _ f => wfV 2 fp32Fmt f
  | .vDsoftmax _ f => wfDsoftmax f
  | .vDsilu _ f => wfV 2 fp32Fmt f
  | .vDgelu _ f => wfV 2 fp32Fmt f
  | .vDgeluT _ f => wfV 2 fp32Fmt f
  | .vDsoftplus _ f => wfV 2 fp32Fmt f
  | .vSum _ f => wfV 1 fp32Fmt f
  | .vDot _ f => wfV 2 fp32Fmt f
  | .vMaxi _ f => wfV 1 idxFmt f
  | .vMini _ f => wfV 1 idxFmt f
  | .vMov _ f => wfV 1 laneFmt f
  | .chOpen _ f => wfS .no .s .s .s f
  | .chSend _ f => wfS .no .s .s .s f
  | .chRecv _ f => wfS .s .s .s .no f
  | .chClose _ f => wfS .no .s .no .no f
  | .chPoll _ f => wfS .s .s .no .no f
  | .sumpAdd _ f => wfS .no .s .s .s f
  | .signal _ f => wfS .no .s .s .no f
  | .wait _ f => wfS .no .s .s .no f
  | .arm _ f => wfS .no .s .s .no f
  | .read _ f => wfS .s .s .no .no f
  | .cas _ f => wfS .no .s .s .s f
  | .rndu _ f => wfV 0 fp32Fmt f
  | .rndb _ f => wfV 0 int32Fmt f
  | .drop _ f => wfDrop f
  | .rndx _ f => wfS .no .s .s .s f
  | .cvt _ f => wfCvt f
  | .commit _ f => wfS .no .s .no .no f
  | .fence _ f => wfFence f
  | .waittag _ f => wfS .no .no .s .no f
  | .done _ f => wfS .no .no .no .no f
  | .yield _ f => wfS .no .no .no .no f
  | .chOpenReader _ f => wfS .no .s .s .s f
  | _ => true

end Sys2Proof
end

