-- ==== Sys2Proof/Machine/Issue.lean ====
section
/-! DEFINITION. How a thread instruction issues (R218, R226, R236, R244, R245): the issuing thread, the fetch
test, the encoding test, and what an instruction's own effect may answer. -/

namespace Sys2Proof.Machine

/-- Thread fault causes (Table 8.18). -/
def fIllegalEncoding : Nat := 1
def fIllegalOperand : Nat := 2
def fAlignment : Nat := 3
def fAddress : Nat := 4
def fPoison : Nat := 5
def fEngineOwner : Nat := 6
def fTileSequence : Nat := 7
def fOverlap : Nat := 8
def fRandomStream : Nat := 9
def fChStall : Nat := 10
def fChClosed : Nat := 11
def fEffectLimit : Nat := 12
def fUncommitted : Nat := 13
def fPathLost : Nat := 14
def fStashExhausted : Nat := 15

/-- What the effect of an issuing instruction answers. -/
inductive IRes where
  /-- It is done, or runs on in the background; the PC advances. -/
  | ok (p : Pkg)
  /-- It is done and names the next PC. -/
  | jump (p : Pkg) (pc : Int)
  /-- It faults its thread before it has any effect. -/
  | fault (cause : Nat)
  /-- It must wait and has not issued: the PC still names it. -/
  | again (p : Pkg) (w : Wait)
  /-- It has issued and the thread waits for its answer. -/
  | wait (p : Pkg) (w : Wait)
  /-- It is done and gives up the issue slot. -/
  | yield (p : Pkg)
  /-- It has ended its thread. -/
  | stop (p : Pkg)

/-- Scalar register r. -/
def Thr.rs (t : Thr) (r : Nat) : W64 := tabGet 0 t.s r
/-- Write scalar register r. -/
def Thr.setS (t : Thr) (r : Nat) (v : W64) : Thr := { t with s := tabSet 0 t.s r v }
/-- Address register r. -/
def Thr.ra (t : Thr) (r : Nat) : BitVec 48 := tabGet 0 t.a r
def Thr.setA (t : Thr) (r : Nat) (v : BitVec 48) : Thr := { t with a := tabSet 0 t.a r v }

/-- May the thread issue at all: ready, its context resident and scheduled, its core live, the package not HALTED
(R218, R376, R451)? -/
def Pkg.canRun (p : Pkg) (t : Nat) : Bool :=
  let th := p.thr t
  let c := p.ctx th.ctx
  th.state == .ready && !th.frozen && c.resident && c.scheduled && !(p.core (coreOf t)).retired && p.pkgState != 5

/-- The issuing thread of core g (R218): the holder of the slot below the quantum its issue began with (R246), else the next ready
thread after the last issuer, LC contexts first. -/
def Pkg.issuerOf (p : Pkg) (g : Nat) : Option Nat :=
  let c := p.core g
  let runs (i : Nat) : Bool := p.canRun (g * 64 + i)
  let order := (List.range 64).map fun i => (c.lastIssuer + 1 + i) % 64
  let next := match order.find? fun i => runs i && p.thrLc (g * 64 + i) with
    | some i => some i
    | none => order.find? runs
  match c.issuer with
  | some i => if runs i && c.consec < c.curQuantum then some i else next
  | none => next
/-- Is t the thread whose instruction its core issues? -/
def Pkg.selected (p : Pkg) (t : Nat) : Bool := p.issuerOf (coreOf t) == some (threadIn t)

/-- Words of code of the program of slot j (Table 8.7). -/
def SlotS.codeWords (s : SlotS) : Nat := fld s.hdr 128 32

/-- Does thread i of a core go on with the issue it holds? A thread that has used up its quantum begins a new one, even when no
other takes the slot (R218). -/
def CoreS.goesOn (c : CoreS) (i : Nat) : Bool := c.issuer == some i && decide (c.consec < c.curQuantum)
/-- The core after thread i of it has issued one instruction: the issue slot, which it keeps or gives up (R218); the quantum of
CORE_ISSUE_CFG applies from the switch on (R246). -/
def CoreS.issued (c : CoreS) (i : Nat) (keep : Bool) : CoreS :=
  { c with
    issuer := if keep then some i else none, lastIssuer := i
    consec := if c.goesOn i then c.consec + 1 else 1
    curQuantum := if c.goesOn i then c.curQuantum else c.quantum }
/-- An LC thread that takes the slot from ready BE threads marks their items pre-empted (R378). -/
def Pkg.markTaken (p : Pkg) (t : Nat) : Pkg :=
  ((p.thrs.filter fun e => coreOf e.1 == coreOf t && e.2.state == .ready && e.1 != t && !(p.ctx e.2.ctx).lc).map (·.1)).foldl Pkg.markPreempt p
/-- Account one issued instruction: CNT_CORE_ISSUED, the issue slot, CNT_CORE_SWITCH, items pre-empted (R218, R378). -/
def Pkg.countIssue (p : Pkg) (t : Nat) (keep : Bool) : Pkg :=
  let g := coreOf t
  let same := (p.core g).issuer == some (threadIn t)
  let sw := !same && (p.core g).lastIssuer != threadIn t
  let p := (p.setCore g ((p.core g).issued (threadIn t) keep)).bump .coreIssued g
  let p := if !same && p.thrLc t then p.markTaken t else p
  if sw then p.bump .coreSwitch g else p

/-- The thread's PC becomes `pc`; a target outside 24 bits is remembered as outside the code (R230). -/
def Thr.goto (t : Thr) (pc : Int) : Thr :=
  { t with pc := BitVec.ofInt 24 pc, pcOut := decide (pc < 0) || decide (2 ^ 24 ≤ pc) }

/-- Retire an instruction that is done: the PC advances by one. -/
def Pkg.retire (p : Pkg) (t : Nat) : Pkg :=
  (p.modThr t fun th => th.goto (th.pc.toNat + 1)).countIssue t true

/-- Block a thread (R218, R248). -/
def Pkg.blockThr (p : Pkg) (t : Nat) (w : Wait) : Pkg :=
  let p := (p.phaseTick (p.thr t).slot).modThr t fun th => { th with state := .blocked, wait := w }
  p.ctxEval (p.thr t).ctx

/-- Run an instruction's effect for thread t, after the tests every instruction shares. A command for a thread
whose instruction the core does not issue now changes nothing. -/
def Pkg.issue (p : Pkg) (t : Nat) (i : Instr) (body : Pkg → Thr → IRes) : Pkg :=
  if p.selected t then
    let th := p.thr t
    let w := (encode i).getD 0
    if th.pcOut || decide ((p.slot th.slot).codeWords ≤ th.pc.toNat) then p.thrFault t fAddress th.pc.toNat w
    else if !i.wf then p.thrFault t fIllegalEncoding th.pc.toNat w
    else match body p th with
      | .ok q => q.retire t
      | .jump q pc => (q.modThr t fun th => th.goto pc).countIssue t true
      | .fault c => p.thrFault t c th.pc.toNat w
      | .again q wt => ((q.modThr t fun x => { x with waitPc := th.pc.toNat, waitInst := w }).modCore (coreOf t) fun c => { c with issuer := none, lastIssuer := threadIn t, consec := 0 }).blockThr t wt
      | .wait q wt => ((q.modThr t fun x => { x.goto (x.pc.toNat + 1) with waitPc := th.pc.toNat, waitInst := w }).countIssue t false).blockThr t wt
      | .yield q => (q.modThr t fun th => th.goto (th.pc.toNat + 1)).countIssue t false
      | .stop q => q
  else p

/-- Operand RB or the sign-extended IMM32 (R224). -/
def opB (th : Thr) (f : FmtS) : W64 := if f.i then f.imm.signExtend 64 else th.rs f.rb.toNat
/-- A 32-bit result with bits [63:32] zero (R215). -/
def w32 (v : Nat) : W64 := BitVec.ofNat 64 (v % 2 ^ 32)
/-- Low 32 bits of a register, an FP32 operand. -/
def lo32 (v : W64) : Nat := v.toNat % 2 ^ 32

/-- Is a tile sequence of thread t open (R182)? -/
def Pkg.seqOpen (p : Pkg) (t : Nat) : Bool :=
  let c := p.core (coreOf t)
  (c.parked.any fun o => o.thr == t) ||
    (c.owner == some t && !(match c.swap with | some d => d.thr == t | none => false))

/-- Is a tag pending (R236)? Tag 0 never is. -/
def Thr.tagPending (th : Thr) (tag : Nat) : Bool := tag != 0 && th.pend.getLsbD tag
/-- Mark a tag pending. -/
def Thr.setTag (th : Thr) (tag : Nat) : Thr := if tag = 0 then th else { th with pend := th.pend ||| (1#64 <<< tag) }

/-- Start a background operation: it takes the thread's next operation number (R236, R245). -/
def Thr.addBg (th : Thr) (tag : Nat) (inst : W64) (k : BgKind) : Thr :=
  let th := th.setTag tag
  { th with bg := th.bg ++ [{ id := th.bgNext, tag := tag, pc := th.pc.toNat, inst := inst, kind := k }], bgNext := th.bgNext + 1 }

/-- Does the condition a thread waits on hold, apart from answers that come by command (R236)? -/
def Pkg.waitOver (p : Pkg) (t : Nat) (th : Thr) : Bool :=
  match th.wait with
  | .tags m => th.pend &&& m == 0
  | .fence m =>
    let mem := th.bg.all fun b => match b.kind with | .engine => true | _ => false
    let eng := (th.bg.all fun b => match b.kind with | .engine => false | _ => true) &&
      (let c := p.core (coreOf t); c.owner != some t && !(c.parked.any fun o => o.thr == t))
    (!bit m 0 || mem) && (!bit m 1 || th.unacked == 0) && (!bit m 2 || eng)
  | _ => false
/-- Wake the thread when what it waits on is over: the waiting instruction issues again. -/
def Pkg.wakeCheck (p : Pkg) (t : Nat) : Pkg :=
  let th := p.thr t
  if th.state == .blocked && p.waitOver t th then
    ((p.phaseTick th.slot).setThr t { th with state := .ready, wait := .none }).ctxEval th.ctx
  else p

/-- An operation is over: it leaves the thread's list and its tag completes (R236). -/
def Pkg.endBg (p : Pkg) (t id : Nat) : Pkg :=
  let th := p.thr t
  match th.bg.find? fun b => b.id == id with
  | none => p
  | some b =>
    let bg := th.bg.filter fun x => x.id != id
    let still := bg.any fun x => x.tag == b.tag
    let pend := if b.tag = 0 || still then th.pend else th.pend &&& ~~~(1#64 <<< b.tag)
    (p.setThr t { th with bg := bg, pend := pend }).wakeCheck t

/-- An instruction that names a pending tag waits for it (R236). -/
def needTag (th : Thr) (tag : Nat) (p : Pkg) (k : IRes) : IRes :=
  if th.tagPending tag then .again p (.tags (1#64 <<< tag)) else k

/-- Resume a thread with a result in a scalar register, if it waits. -/
def Pkg.resume (p : Pkg) (t : Nat) (f : Thr → Thr) : Pkg :=
  let th := p.thr t
  if th.state == .blocked then ((p.phaseTick th.slot).setThr t { f th with state := .ready, wait := .none }).ctxEval th.ctx else p

end Sys2Proof.Machine
end

