-- ==== Sys2Proof/Machine/Address.lean ====
section
/-! DEFINITION. The address and branch classes (R229, R230). -/

namespace Sys2Proof.Machine

/-- AADD: RD := RA + RB or IMM32, modulo 2^48 (R229). -/
def execAadd (t : ThreadId) (f : FmtS) (s : State) : Host.Outcome State Fault Refusal :=
  s.run fun p => p.issue t (.aadd t f) fun p th => .ok (p.setThr t (th.setA f.rd.toNat (th.ra f.ra.toNat + (opB th f).setWidth 48)))
/-- AMOV: RD := RB[47:0] (R229). -/
def execAmov (t : ThreadId) (f : FmtS) (s : State) : Host.Outcome State Fault Refusal :=
  s.run fun p => p.issue t (.amov t f) fun p th => .ok (p.setThr t (th.setA f.rd.toNat ((opB th f).setWidth 48)))
/-- ARD: s-register RD := RA, zero-extended (R229). -/
def execArd (t : ThreadId) (f : FmtS) (s : State) : Host.Outcome State Fault Refusal :=
  s.run fun p => p.issue t (.ard t f) fun p th => .ok (p.setThr t (th.setS f.rd.toNat ((th.ra f.ra.toNat).setWidth 64)))
/-- ALI: RD := IMM48 (R229). -/
def execAli (t : ThreadId) (f : FmtL) (s : State) : Host.Outcome State Fault Refusal :=
  s.run fun p => p.issue t (.ali t f) fun p th => .ok (p.setThr t (th.setA f.rd.toNat f.imm))
/-- AWIN: RD := the window address of this core + RB or IMM32 (R229). -/
def execAwin (t : ThreadId) (f : FmtS) (s : State) : Host.Outcome State Fault Refusal :=
  s.run fun p => p.issue t (.awin t f) fun p th =>
    .ok (p.setThr t (th.setA f.rd.toNat (BitVec.ofNat 48 (spBase (coreOf t)) + (opB th f).setWidth 48)))

/-- A branch condition of R224. -/
def condHolds (c : Nat) (a b : W64) : Bool :=
  match c with
  | 0 => a == b | 1 => a != b | 2 => a.slt b | 3 => b.sle a | 4 => decide (a < b) | _ => decide (b ≤ a)
/-- BR: when RA COND RB holds, PC := PC + OFF40 (R230). -/
def execBr (t : ThreadId) (f : FmtB) (s : State) : Host.Outcome State Fault Refusal :=
  s.run fun p => p.issue t (.br t f) fun p th =>
    if condHolds f.cond.toNat (th.rs f.ra.toNat) (th.rs f.rb.toNat) then .jump p (th.pc.toNat + f.off.toInt) else .ok p
/-- JAL: RD := PC + 1; PC := PC + OFF40 (R230). -/
def execJal (t : ThreadId) (f : FmtB) (s : State) : Host.Outcome State Fault Refusal :=
  s.run fun p => p.issue t (.jal t f) fun p th =>
    .jump (p.setThr t (th.setS f.ra.toNat (BitVec.ofNat 64 (th.pc.toNat + 1)))) (th.pc.toNat + f.off.toInt)
/-- JALR: RD := PC + 1; PC := RA + OFF40, RA read before RD is written (R230). -/
def execJalr (t : ThreadId) (f : FmtB) (s : State) : Host.Outcome State Fault Refusal :=
  s.run fun p => p.issue t (.jalr t f) fun p th =>
    .jump (p.setThr t (th.setS f.ra.toNat (BitVec.ofNat 64 (th.pc.toNat + 1)))) ((th.rs f.rb.toNat).toNat + f.off.toInt)

end Sys2Proof.Machine
end

