-- ==== Sys2Proof/Machine/Operands.lean ====
section
/-! DEFINITION. Operand forms that several classes share: scratchpad ranges, memory ranges, descriptors in the
core's window, and the staging of effects (R213, R226, R231, R232, R238, R373). -/

namespace Sys2Proof.Machine

/-- Fault of a scratchpad range that a program names on its own core (R226, R373). -/
def Pkg.spTest (p : Pkg) (t off n : Nat) (write : Bool) : Option Nat :=
  if n = 0 then none
  else if 0x40_0000 < off + n then some fIllegalOperand
  else if p.spAllowed (p.thr t).ctx off n write then none
  else some fAddress

/-- The effective address AR + OFF32, modulo 2^48 (R231). -/
def effAddr (th : Thr) (f : FmtM) : Nat := (th.ra f.ar.toNat + f.off.signExtend 48).toNat
/-- Length and fabric address of RL (R231). -/
def rlLen (v : W64) : Nat := v.toNat % 2 ^ 32
def rlFab (v : W64) : Nat := fld v.toNat 32 24
/-- Does a fabric address name another device? -/
def Pkg.isRemote (p : Pkg) (fab : Nat) : Bool := fab != 0 && fab != p.fabAddr

/-- Limits of address and length of a memory operation (R231). -/
def memLimits (addr n : Nat) : Option Nat :=
  if addr % 8 != 0 || n % 8 != 0 then some fAlignment
  else if n < 8 || 4128768 < n then some fIllegalOperand
  else none
/-- Fault of a local memory operation at issue (R231, R282). -/
def Pkg.memTest (p : Pkg) (t addr n : Nat) (write : Bool) : Option Nat :=
  match memLimits addr n with
  | some c => some c
  | none =>
    let c := (p.thr t).ctx
    match p.progAccess c (p.ctxCores c) addr n write with
    | .address => some fAddress
    | _ => none

/-- Fault of a descriptor address: it lies in this core's window, aligned to its size, and no read of offsets 0x3F_4000 and above
(R194, R198, R213, R232). -/
def descTest (g addr size : Nat) : Option Nat :=
  if !(isWindowAddr addr && windowCore addr == g) || decide (0x3F_4000 < windowOff addr + size) then some fAddress
  else if addr % size != 0 then some fAlignment
  else none

/-- Several faults in order: the first that applies. -/
def firstFault : List (Option Nat) → Option Nat
  | [] => none
  | some c :: _ => some c
  | none :: fs => firstFault fs

/-- A scratchpad word that cannot be corrected was read by thread t (R214): SP_UNCORR and cause POISON. -/
def Pkg.spPoison (p : Pkg) (t pc : Nat) (inst : W64) : Pkg :=
  (p.setFlag .coreStatus (coreOf t) 2).thrFault t fPoison pc inst

/-- A transfer starts as one background operation for each stack it touches (R11); its tag completes with the last of them. -/
def Thr.addParts (th : Thr) (tag : Nat) (inst : W64) (a n : Nat) (k : Nat × Nat → BgKind) : Thr :=
  (memParts a n).foldl (fun th x => th.addBg tag inst (k x)) th

/-- The running item of a thread: slot and position. -/
def Pkg.itemOf (p : Pkg) (t : Nat) : Nat × Nat := ((p.thr t).slot, posOfKind (p.thr t).kind)
def Pkg.theItem (p : Pkg) (t : Nat) : Option Item := (p.slot (p.itemOf t).1).pos (p.itemOf t).2

/-- Count an item's memory traffic for its declaration (R33, R34). -/
def Pkg.countMem (p : Pkg) (t addr n : Nat) : Pkg :=
  if isStackAddr addr then
    let near := stackOf addr / 8 == halfOfCore (coreOf t)
    p.modPos (p.itemOf t).1 (p.itemOf t).2 fun i =>
      let i := { i with memDies := i.memDies ||| 2 ^ dieOfMem (memDieOfStack (stackOf addr)) }
      if near then { i with memNear := i.memNear + n } else { i with memFar := i.memFar + n }
  else p

/-- Output pages that a store of the item reaches (R66): per reserved page, its highest byte plus one. -/
def Pkg.noteEgress (p : Pkg) (t addr n : Nat) : Pkg :=
  let it := p.itemOf t
  let s := p.slot it.1
  let base := fld s.bind 768 48
  let size := fld s.bind (768 + 64) 32
  if n = 0 || addr < base || base + size * 65536 < addr + n || size = 0 then p else
  p.modPos it.1 it.2 fun i =>
    { i with egrWritten := (List.range i.egrPages).foldl (fun w k =>
        let a := base + (i.egrFirst + k) % size * 65536
        if addr < a + 65536 && a < addr + n then tabMod 0 w k fun v => Nat.max v (Nat.min 65536 (addr + n - a)) else w) i.egrWritten }

/-- Largest payload of one group (R238). -/
def groupBytes : Nat := 0x20_0000
/-- Stage an effect in the thread's open group (R182, R238); `k` adds what its instruction does beside. -/
def stageEff (p : Pkg) (t : Nat) (e : Effect) (payload : Nat) (k : Thr → Thr) : IRes :=
  let th := p.thr t
  if p.seqOpen t then .fault fTileSequence
  else if 64 ≤ th.grp.length || groupBytes < th.grpBytes + payload then .fault fEffectLimit
  else .ok (p.setThr t (k { th with grp := th.grp ++ [e], grpBytes := th.grpBytes + payload }))

end Sys2Proof.Machine
end

