-- ==== Sys2Proof/Machine/Sched.lean ====
section
/-! DEFINITION. Residence and swapping (R217, R376 to R385), dispatch of an item to its cores (R66, R69 to R75,
R203, R205, R219, R220). -/

namespace Sys2Proof.Machine

/-! ## Context record (Table 14.1) -/

def recSpLo (r : Rec) : Nat := fld r 64 22
def recSpSize (r : Rec) : Nat := fld r 96 22
def recFoot (r : Rec) : Nat := fld r 256 384
def recSeed (r : Rec) : Nat := fld r 128 128
/-- Base of the save extent of stack s. -/
def recExt (r : Rec) (s : Nat) : Nat := fld r (1024 + 64 * s) 48
/-- Stack and offset of the save image of core g (R383). -/
def saveStack (g : Nat) : Nat := 8 * (g / 192) + g % 8
def saveOff (g : Nat) : Nat := 4374528 * (g % 192 / 8)

/-! ## Thread reservations (R217) -/

/-- Threads a program reserves on each bound core. -/
def hdrThreads (h : Rec) : Nat := fld h 392 7 + Nat.max (fld h 399 7) (fld h 406 7)
/-- Threads of a kind. -/
def hdrKindThreads (h : Rec) (k : Nat) : Nat := if k = 0 then fld h 392 7 else if k = 1 then fld h 399 7 else fld h 406 7
/-- Entry of a kind (Table 8.7). -/
def hdrEntry (h : Rec) (k : Nat) : Nat := fld h (320 + 24 * k) 24

/-- Threads of core g that no slot holds, ascending. -/
def Pkg.freeThreads (p : Pkg) (g : Nat) : List Nat :=
  ((List.range 64).map (g * 64 + ·)).filter fun t => (p.thr t).state == .free
/-- Reserve a slot's threads on its bound cores. -/
def Pkg.reserveSlot (p : Pkg) (j : Nat) : Pkg :=
  let s := p.slot j
  let n := hdrThreads s.hdr
  let p := s.cores.foldl (fun p g => ((p.freeThreads g).take n).foldl (fun p t =>
    p.setThr t { ({} : Thr) with state := .idle, slot := j, ctx := s.ctx }) p) p
  p.modSlot j fun s => { s with reserved := true }
/-- Return a slot's threads. -/
def Pkg.releaseSlot (p : Pkg) (j : Nat) : Pkg :=
  let p := { p with thrs := p.thrs.filter fun e => !(e.2.slot == j && e.2.state != TState.free) }
  p.modSlot j fun s => { s with reserved := false }

/-! ## Residence (R380, R381) -/

/-- Contexts that hold a place: resident and not on their way out, or on their way in. -/
def Pkg.placed (p : Pkg) : List Nat :=
  (p.ctxs.filter fun e => (e.2.resident && !e.2.swapping) || e.2.swapIn).map (·.1)
/-- Threads the bound slots of a set of contexts reserve on core g. -/
def Pkg.reserveOn (p : Pkg) (cs : List Nat) (g : Nat) : Nat :=
  (((List.range 16).filter fun j => (p.slot j).bound && cs.contains (p.slot j).ctx && (p.slot j).cores.contains g).map
    fun j => hdrThreads (p.slot j).hdr).sum
/-- May the contexts of a list be resident together (R380)? -/
def Pkg.fits (p : Pkg) (cs : List Nat) : Bool :=
  decide (cs.length ≤ 16) &&
  cs.all (fun a => cs.all fun b =>
    decide (b ≤ a) || recFoot (p.ctx a).record &&& recFoot (p.ctx b).record == 0 ||
      (let ra := (p.ctx a).record
       let rb := (p.ctx b).record
       decide (recSpLo ra + recSpSize ra ≤ recSpLo rb) || decide (recSpLo rb + recSpSize rb ≤ recSpLo ra))) &&
  (List.range 384).all fun g => decide (p.reserveOn cs g ≤ 64)

/-- Lowest resident place that is free. -/
def Pkg.freePlace (p : Pkg) : Nat :=
  let used := (p.ctxs.filter fun e => e.2.resident || e.2.swapIn).map fun e => e.2.place
  ((List.range 16).find? fun k => !used.contains k).getD 0

/-- Would a queue head of the context be ready if it were resident (R381)? -/
def Pkg.headWaits (p : Pkg) (c : Nat) : Bool := (p.slotsOf c).any fun j => p.headReady j 0 || p.headReady j 1
/-- Is a SWAPPED context runnable (R381)? -/
def Pkg.runnable (p : Pkg) (c : Nat) : Bool :=
  let x := p.ctx c
  x.state == .swapped && x.runGiven && !x.swapIn && p.headWaits c

/-- Does a context hold an item whose admitted window is open? -/
def Pkg.windowOpen (p : Pkg) (c : Nat) : Bool :=
  (p.slotsOf c).any fun j =>
    let now := p.icount (queueDie (halfOfSlot j))
    let op (i : Item) : Bool := i.window != 0 && i.startNs.any fun s => decide (now ≤ s + i.window)
    let s := p.slot j
    s.fwd.any op || s.bwd.any op || (p.ing j 0).queue.any op || (p.ing j 1).queue.any op

/-- Is an engine operation of a thread waiting on a channel source (R382)? -/
def Pkg.opWaitsChan (p : Pkg) (t : Nat) : Bool :=
  (p.core (coreOf t)).vops.any fun o => o.thr == t && o.chan.isSome && !p.vecReady (coreOf t) o
/-- May the item of a position be frozen (R382): every thread blocked, none done apart? -/
def Pkg.freezable (p : Pkg) (j q : Nat) : Bool :=
  match (p.slot j).pos q with
  | none => false
  | some i => i.thrs.all fun t => ((p.thr t).state == .blocked || (p.thr t).doneFlag) && !p.opWaitsChan t
/-- Has a freeze candidate come to rest (R382): memory operations, commit answers and engine operations over? -/
def Pkg.quiescent (p : Pkg) (j q : Nat) : Bool :=
  match (p.slot j).pos q with
  | none => true
  | some i => i.undecided == 0 && i.thrs.all fun t =>
      let c := p.core (coreOf t)
      ((p.thr t).bg.all fun b => match b.kind with | .staged _ => true | _ => false) &&
      !(c.vops.any fun o => o.thr == t) && !(match c.drain with | some d => d.thr == t | none => false) &&
      !(match c.swap with | some d => d.thr == t | none => false) && (c.owner != some t || c.running.isEmpty)

/-- Kill the running item of a position for pre-emption (R379). -/
def Pkg.preemptItem (p : Pkg) (j q : Nat) (byLc : Bool) : Pkg :=
  let c := (p.slot j).ctx
  let p := if byLc && !(p.ctx c).lc then p.modPos j q fun i => { i with causes := i.causes ||| 2 ^ 11, preempted := true } else p
  let p := p.modCtx c fun x => { x with tally := { x.tally with preemptKills := (x.tally.preemptKills + 1) % 2 ^ 32 } }
  p.killItem j q

/-- Begin the swap-out of a victim (R382, R385): its scheduling stops; items that can be frozen wait for rest, every
other one is killed. -/
def Pkg.swapOut (p : Pkg) (v : Nat) (byLc : Bool) : Pkg :=
  let x := p.ctx v
  if x.swapping then p else
  let p := p.setCtx v { x with
    swapping := true, saving := true, swapByLc := byLc, heldState := x.state, scheduled := false, runnableSince := none
    tally := { x.tally with swapsOut := (x.tally.swapsOut + 1) % 2 ^ 32 } }
  let p := ((p.setFlag .schedStatus p.primary 0).bump .ctxSwapOut v).raise .ctxSwap p.primary v v 0
  let run (p : Pkg) (j q : Nat) : Pkg :=
    match (p.slot j).pos q with
    | none => p
    | some _ =>
      if p.freezable j q then
        let p := p.rateTick j q
        (p.modPos j q fun i =>
          let i := { i with frozenSince := some p.now }
          if byLc && !x.lc then { i with causes := i.causes ||| 2 ^ 11, preempted := true } else i).modCtx v fun x =>
            { x with freezeWait := true, frozenItems := x.frozenItems ++ [(j, q)] }
      else p.preemptItem j q byLc
  (p.slotsOf v).foldl (fun p j => run (run p j 0) j 1) p

/-- Begin the swap-in of a context (R385): it holds a place from now on. -/
def Pkg.swapInBegin (p : Pkg) (c : Nat) : Pkg :=
  let x := p.ctx c
  let w := match x.runnableSince with | some t => p.now - t | none => 0
  let p := p.setCtx c { x with
    swapIn := true, place := p.freePlace, runnableSince := none
    tally := { x.tally with swapWait := (x.tally.swapWait + w) % 2 ^ 64 } }
  (p.bump .ctxSwapIn c).raise .ctxSwap p.primary c c 1

/-- Insert by a Bool order, before the first element it precedes. -/
def insertBy (lt : Nat → Nat → Bool) (a : Nat) : List Nat → List Nat
  | [] => [a]
  | b :: bs => if lt a b then a :: b :: bs else b :: insertBy lt a bs
def sortBy (lt : Nat → Nat → Bool) : List Nat → List Nat
  | [] => []
  | a :: as => insertBy lt a (sortBy lt as)

/-- Time in the present state, on the primary headframe's counter. -/
def Pkg.inState (p : Pkg) (c : Nat) : Nat := (p.icount p.primary % 2 ^ 32 + 2 ^ 32 - (p.ctx c).enteredNs) % 2 ^ 32
/-- Candidates for eviction by context c, in the order of R381. -/
def Pkg.candidates (p : Pkg) (c : Nat) : List Nat :=
  let res := p.placed.filter fun v => (p.ctx v).resident && v != c
  let idle (v : Nat) : Bool := (p.ctx v).state == .blocked || (p.ctx v).state == .loaded
  let busy (v : Nat) : Bool := (p.ctx v).state == .running || (p.ctx v).state == .ready
  let base := res.filter fun v => idle v && (p.ctx v).holdDone && !p.windowOpen v
  let more := if (p.ctx c).lc then res.filter fun v => busy v && !(p.ctx v).lc else []
  let lt (a b : Nat) : Bool :=
    if (p.ctx a).lc != (p.ctx b).lc then !(p.ctx a).lc
    else if idle a != idle b then idle a
    else if p.inState a != p.inState b then decide (p.inState b < p.inState a)
    else decide (a < b)
  sortBy lt ((base ++ more).filter fun v => (p.ctx c).lc || !(p.ctx v).lc)
/-- Take victims until the context fits beside the rest. -/
def Pkg.victims (p : Pkg) (c : Nat) : List Nat → List Nat → List Nat
  | [], vs => vs
  | v :: rest, vs => if p.fits (c :: p.placed.filter fun x => !vs.contains x) then vs else p.victims c rest (vs ++ [v])

/-- One runnable context of the loop of R381. -/
def Pkg.swapTry (p : Pkg) (c : Nat) : Pkg :=
  if !p.runnable c then p
  else if p.fits (c :: p.placed) then p.swapInBegin c
  else
    let vs := p.victims c (p.candidates c) []
    if p.fits (c :: p.placed.filter fun x => !vs.contains x) then
      (vs.foldl (fun p v => p.swapOut v (p.ctx c).lc) p).swapInBegin c
    else if !(p.ctx c).lc && p.placed.all (fun v => (p.ctx v).lc) then
      (p.setFlag .schedStatus p.primary 1).modCtx c fun x => { x with tally := { x.tally with beLcWaits := (x.tally.beLcWaits + 1) % 2 ^ 32 } }
    else p
/-- SWAP_EVALUATE (R381): runnable SWAPPED contexts, LC before BE, longest runnable first. -/
def Pkg.swapEval (p : Pkg) : Pkg :=
  let run := (p.ctxs.filter fun e => p.runnable e.1).map (·.1)
  let p := run.foldl (fun p c => p.modCtx c fun x => { x with runnableSince := some (x.runnableSince.getD p.now) }) p
  let lt (a b : Nat) : Bool :=
    if (p.ctx a).lc != (p.ctx b).lc then (p.ctx a).lc
    else
      let sa := (p.ctx a).runnableSince.getD 0
      let sb := (p.ctx b).runnableSince.getD 0
      if sa != sb then decide (sa < sb) else decide (a < b)
  (sortBy lt run).foldl Pkg.swapTry p

/-! ## Save and restore (R382, R383, R385) -/

/-- Write bytes no rule states: free values (the layout of a thread record is not given). -/
def Pkg.storeFree (p : Pkg) (a n : Nat) : Pkg :=
  { p.store a ((List.range n).map fun i => BitVec.ofNat 8 (Config.freeValue (p.free + i))) with free := p.free + n }
/-- Bytes of one accumulator set (Table 14.6): cells, 2-bit states, exponent. -/
def accBytes (s : AccSet) : List Byte :=
  ((List.range 16384).map fun i => toLe 6 (unsgn 48 (tabGet ({} : Cell) s.cells i).acc)).flatten ++
    toLe 4096 (((List.range 16384).map fun i => (tabGet ({} : Cell) s.cells i).st * 4 ^ i).sum) ++ toLe 4104 (unsgn 64 s.exp)

/-- A frozen thread as its record keeps it (R382): an instruction it waits in will issue again. -/
def Thr.freeze (t : Thr) : Thr :=
  if t.doneFlag then t else
  match t.wait with
  | .sync _ _ => { t with state := .ready, wait := .none, pc := BitVec.ofNat 24 t.waitPc, pcOut := false, frozen := true }
  | .stash _ => { t with state := .ready, wait := .none, pc := BitVec.ofNat 24 t.waitPc, pcOut := false, frozen := true }
  | _ => { t with state := .ready, wait := .none, frozen := true }

/-- What core g's engine holds for thread t: its open sequence with both sets, its parked STARTs. -/
def Pkg.engSaveOf (p : Pkg) (t : Nat) : Option EngSave :=
  let c := p.core (coreOf t)
  let own := c.owner == some t
  let pk := c.parked.filter fun o => o.thr == t
  if own || !pk.isEmpty then
    some { core := coreOf t, thr := t, owned := own, live := if own then c.live else {}, start := if own then c.seqStart else none
           parked := pk, held := c.heldSeqs, rows := c.seqRows, cols := c.seqCols, gemv := c.seqGemv, repeats := c.seqRepeats, sat := c.seqSat }
  else none

/-- Save one thread of a frozen item: its engine state and requests leave the core. -/
def Pkg.saveThr (p : Pkg) (c t : Nat) : Pkg :=
  let th := p.thr t
  let es := p.engSaveOf t
  let g := coreOf t
  let p := p.dropReqs fun w => match w with | .sync x => x == t | _ => false
  let p := { p with waiters := p.waiters.filter fun w =>
    !(w.pkt.src.toNat == p.fabAddr && fld w.pkt.kspec.toNat 16 9 == g && fld w.pkt.kspec.toNat 25 6 == threadIn t) }
  let p := p.modSlot th.slot fun s => { s with
    stashWait := s.stashWait.filter (fun w => w.1 != t), stashPend := s.stashPend.filter (fun w => w.1 != t), stashFind := s.stashFind.filter (fun w => w.1 != t) }
  let mine := (p.core g).owner == some t
  let p := p.modCore g fun k => { k with parked := k.parked.filter fun o => o.thr != t }
  let p := if mine then (p.modCore g fun k => { k.setLive {} with owner := none, running := [], seqStart := none }).engGrant g none else p
  let p := p.setThr t {}
  p.modCtx c fun x => { x with
    saved := x.saved ++ [(t, th.freeze)]
    savedEng := match es with | some e => x.savedEng ++ [e] | none => x.savedEng }

/-- Sections of core g's image that a context has, as (address, bytes) (Table 14.6). -/
def saveParts (x : Ctx) (g : Nat) : List (Nat × Nat) :=
  let base := recExt x.record (saveStack g) + saveOff g
  (if x.saved.any fun e => coreOf e.1 == g then [(base, 32768)] else []) ++
    (if x.savedEng.any fun e => e.core == g && e.owned then [(base + 32768, 212992)] else []) ++ [(base + 245760, recSpSize x.record)]
/-- Places of the images of a context, one for each footprint core. -/
def saveRanges (x : Ctx) : List (Nat × Nat) :=
  (bitsOf 384 (recFoot x.record)).map fun g => (recExt x.record (saveStack g) + saveOff g, 245760 + recSpSize x.record)
/-- Does a save or a restore wait for a memory die (R310)? -/
def Pkg.imageWaits (p : Pkg) (c : Nat) : Bool := (saveRanges (p.ctx c)).any fun r => p.devTest c r.1 r.2 == .waits

/-- The save of a victim ends (R383): frozen items leave the cores, the image stands in the save extents, the
reservations return. -/
def Pkg.saveDone (p : Pkg) (v : Nat) : Pkg :=
  let x := p.ctx v
  let hold := (p.slotsOf v).map fun j => (j, (p.slot j).holding)
  let ts := (x.frozenItems.map fun it => match (p.slot it.1).pos it.2 with | some i => i.thrs | none => []).flatten
  let p := ts.foldl (fun p t => p.saveThr v t) p
  let p := hold.foldl (fun p h => p.holdEnd h.1 h.2) p
  let cores := bitsOf 384 (recFoot x.record)
  let bad := (saveRanges x).find? fun r => p.devTest v r.1 r.2 == .address
  let p := cores.foldl (fun p g =>
    let base := recExt x.record (saveStack g) + saveOff g
    let y := p.ctx v
    let p := (saveParts y g).foldl (fun p r => p.devTouch r.1 r.2 true 1) p
    let p := if y.saved.any fun e => coreOf e.1 == g then p.storeFree base 32768 else p
    let p := match y.savedEng.find? fun e => e.core == g && e.owned with
      | some e => (p.store (base + 32768) (accBytes e.live)).storeFree (base + 139264) 106496
      | none => p
    let p := p.store (base + 245760) (p.spBytes g (recSpLo x.record) (recSpSize x.record))
    let n := recSpSize x.record + (if y.saved.any fun e => coreOf e.1 == g then 32768 else 0) + (if y.savedEng.any fun e => e.core == g && e.owned then 212992 else 0)
    p.modCtx v fun z => { z with tally := { z.tally with saveBytes := (z.tally.saveBytes + n) % 2 ^ 64 } }) p
  let p := (p.slotsOf v).foldl Pkg.releaseSlot p
  let p := p.modCtx v fun z => { z with swapping := false, saving := false, freezeWait := false, resident := false, hasImage := true }
  match bad with
  | some r => p.badAddress v r.1
  | none => p

/-- New number of a saved thread: the lowest idle thread of its slot on its core that no earlier one took. -/
def Pkg.renumber (p : Pkg) : List (Nat × Thr) → List Nat → List (Nat × Nat)
  | [], _ => []
  | (t, th) :: rest, used =>
    let g := coreOf t
    match ((List.range 64).map (g * 64 + ·)).find? fun u => (p.thr u).state == .idle && (p.thr u).slot == th.slot && !used.contains u with
    | some u => (t, u) :: p.renumber rest (u :: used)
    | none => p.renumber rest used
/-- A saved engine state goes back to its core (R385): the sequence resumes where the engine is free, else its START
parks again from its snapshot (R183). -/
def Pkg.engRestore (p : Pkg) (m : Nat → Nat) (e : EngSave) : Pkg :=
  let g := e.core
  let t := m e.thr
  let c := p.core g
  let re (o : TileOp) : TileOp := { o with thr := t }
  let p := p.setCore g { c with parked := c.parked ++ e.parked.map re }
  if !e.owned then (if c.owner.isNone then p.engGrant g none else p)
  else if c.owner.isNone then
    p.modCore g fun c => { c.setLive e.live with
      owner := some t, seqStart := e.start.map re, running := [], heldSeqs := e.held, seqRows := e.rows, seqCols := e.cols
      seqGemv := e.gemv, seqRepeats := e.repeats, seqSat := e.sat }
  else match e.start with
    | none => p
    | some o =>
      let p := p.modCore g fun c => { c with parked := c.parked ++ [re o] }
      match o.snap with
      | some k => p.modThr t fun th => th.restore k
      | none => p

/-- The restore of a context ends (R383, R385): images back, frozen threads resumed, dispatch allowed; a poisoned line
of the image faults the context (R288, cause 9). -/
def Pkg.restoreDone (p : Pkg) (c : Nat) : Pkg :=
  let x := p.ctx c
  let p := (p.slotsOf c).foldl Pkg.reserveSlot p
  let cores := bitsOf 384 (recFoot x.record)
  let base (g : Nat) : Nat := recExt x.record (saveStack g) + saveOff g
  let parts := if x.hasImage then (cores.map fun g => saveParts x g).flatten else []
  let bad := parts.find? fun r => p.poisoned r.1 r.2
  let lost := parts.find? fun r => p.devTest c r.1 r.2 == .address
  let p := parts.foldl (fun p r => p.devTouch r.1 r.2 false 1) p
  let p := if x.hasImage then cores.foldl (fun p g =>
      let p := p.spStore g (recSpLo x.record) (p.load (base g + 245760) (recSpSize x.record))
      p.modCtx c fun z => { z with tally := { z.tally with saveBytes := (z.tally.saveBytes + recSpSize x.record) % 2 ^ 64 } }) p
    else p
  let ren := p.renumber x.saved []
  let m (t : Nat) : Nat := ((ren.find? fun e => e.1 == t).map (·.2)).getD t
  let p := x.saved.foldl (fun p e => p.setThr (m e.1) { e.2 with frozen := false }) p
  let p := x.savedEng.foldl (fun p e => p.engRestore m e) p
  let p := x.frozenItems.foldl (fun p it => (p.modPos it.1 it.2 fun i => { i with
      thrs := i.thrs.map m, live := i.live, frozenNs := i.frozenNs + (p.now - i.frozenSince.getD p.now), frozenSince := none, gAt := p.now }).modSlot it.1 fun s =>
      { s with published := s.published.map fun g => { g with thr := m g.thr } }) p
  let p := p.modCtx c fun z => { z with
    swapIn := false, resident := true, hasImage := false, saved := [], savedEng := [], frozenItems := []
    scheduled := z.runGiven }
  let p := p.ctxTo c (if x.runGiven then (if x.heldState = .loaded then .blocked else x.heldState) else .loaded)
  match bad, lost with
  | some r, _ => (p.poisonEvent c (p.firstPoison r.1 r.2)).ctxFault c 9
  | none, some r => p.badAddress c r.1
  | none, none => p.ctxEval c

/-- Count an acknowledgement of a group against its thread, in the cores or in the image of its context. -/
def Pkg.modThrOrSaved (p : Pkg) (c t : Nat) (f : Thr → Thr) : Pkg :=
  if (p.ctx c).saved.any fun e => e.1 == t then
    p.modCtx c fun x => { x with saved := x.saved.map fun e => if e.1 = t then (e.1, f e.2) else e }
  else p.modThr t f

/-! ## Dispatch (R66, R69 to R75, R219, R220) -/

/-- Live cores of a slot: bound, not retired, on an operating die (R71, R335). -/
def Pkg.liveCores (p : Pkg) (j : Nat) : List Nat :=
  (p.slot j).cores.filter fun g => !(p.core g).retired && p.dieUp (dieOfCore g)

/-- The item block of Table 8.5. -/
def Pkg.itemBlock (p : Pkg) (j q : Nat) (i : Item) (live : List Nat) : Rec :=
  let s := p.slot j
  let k := dKind i.desc
  put 0 512 i.desc + put 512 384 ((live.map (2 ^ ·)).sum) + put 896 64 s.image
    + (if k = 2 then 0 else if i.loopback then put 960 64 (fld s.bind 768 48) + put 1024 64 (fld s.bind (768 + 64) 32)
       else put 960 64 (p.ing j q).base + put 1024 64 (p.ing j q).pages)
    + put 1088 64 (fld s.bind 768 48) + put 1152 64 (fld s.bind (768 + 64) 32) + put 1216 64 i.egrFirst
    + put 1280 128 (itemKey (recSeed (p.ctx s.ctx).record) (fld i.desc 256 64))

/-- Scratchpad offset of a thread's item block (R213): the system area's block of the thread. -/
def blockOff (t : Nat) : Nat := 0x3F_0000 + 256 * threadIn t
/-- Start one thread with the state of R219. -/
def Pkg.startThr (p : Pkg) (j : Nat) (i : Item) (block : Rec) (t rank nthr nlive : Nat) : Pkg :=
  let s := p.slot j
  let k := dKind i.desc
  let g := coreOf t
  let p := p.spStore g (blockOff t) (toLe 256 block)
  let old := p.thr t
  p.setThr t { ({} : Thr) with
    s := tabSet 0 (tabSet 0 (tabSet 0 ([] : Tab W64) 0 (BitVec.ofNat 64 rank)) 1 (BitVec.ofNat 64 nthr)) 2 (BitVec.ofNat 64 k)
    a := tabSet 0 [] 0 (BitVec.ofNat 48 (spBase g + blockOff t)), pc := BitVec.ofNat 24 (hdrEntry s.hdr k)
    state := .ready, slot := j, kind := k, ctx := s.ctx, rank := rank, nthr := nthr, nlive := nlive
    bg := old.bg, bgNext := old.bgNext }

/-- The head item of a position is dispatched (R66, R75, R203, R205, R219). -/
def Pkg.dispatchItem (p : Pkg) (j q : Nat) : Pkg :=
  match (p.ing j q).queue with
  | [] => p
  | i :: rest =>
    let p := p.phaseTick j
    let s := p.slot j
    let c := s.ctx
    let k := dKind i.desc
    let first := !i.dispatched
    let live := p.liveCores j
    let size := fld s.bind (768 + 64) 32
    -- egress pages and the egress queue entry, reserved once (R66)
    let n := s.outPages k
    let p := if first && n != 0 then
        (p.modSlot j fun s => { s with egrUsed := s.egrUsed ++ (List.range n).map (s.egrNext + ·), egrNext := s.egrNext + n }).setEgr j (if k = 0 then 0 else 1)
          { p.egr j (if k = 0 then 0 else 1) with reserved := (p.egr j (if k = 0 then 0 else 1)).reserved + 1 }
      else p
    let i := if first && n != 0 then { i with egrFirst := s.egrNext, egrPages := if size = 0 then 0 else n } else i
    -- keys and weight version at the first dispatch (R75, R203)
    let rk := if k = 2 then fld i.desc 256 64 else if p.serving j then p.randKeyOf j ((p.ctx c).round) else p.randKeyOf j (dStep i.desc)
    let i := if first then { i with desc := setFld i.desc 256 64 rk } else i
    let ver := match s.curEntry with | some e => (s.ver e).num | none => 0
    let p := if first && k = 0 then
        let p := match s.curEntry with
          | some e => p.signalObj (s.ver e).obj 1
          | none => p
        p.modSlot j fun s => { s with stashRecs := (s.stashRecs.filter fun r => r.mb != dMb i.desc) ++ [({ mb := dMb i.desc, wver := ver, entry := s.curEntry } : StashRec)] }
      else p
    let i := if first then
        match k with
        | 0 => { i with desc := setFld i.desc 40 16 ver }
        | 1 => { i with desc := setFld i.desc 40 16 (match s.stashRecs.find? fun r => r.mb == dMb i.desc with | some r => r.wver | none => 0) }
        | _ => i
      else i
    -- bases of the explicit streams (R205)
    let i := if first then
        match p.roleBase c 2 with
        | some r => { i with streams := (List.range 64).foldl (fun t n => tabSet 0 t n (put 64 128 (p.loadNum (r.base + 32 * n + 16) 16))) [] }
        | none => i
      else i
    let p := if first then p.modCtx c fun x => { x with tally := { x.tally with queueWait := (x.tally.queueWait + (p.now - i.posted)) % 2 ^ 64 } } else p
    -- a serving item: its round starts with the first one, and its batch list is written (R390, R395)
    let p := if p.serving j then
        let p := if (p.ctx c).roundStarted then p else p.roundStart c
        p.writeBatch c (dMb i.desc % svStreams (p.ctx c).serve)
      else p
    let i := { i with
      dispatched := true, firstDisp := if first then p.now else i.firstDisp, attempt := i.attempt + 1, live := live, gAt := p.now
      preempted := false }
    let p := (p.modIng j q fun g => { g with queue := rest, dispatchedMb := if first && i.counted then g.dispatchedMb + 1 else g.dispatchedMb }).postMore j q
    let tpc := hdrKindThreads s.hdr k
    let block := p.itemBlock j q i live
    let plan := (live.zipIdx.map fun (g, pos) =>
      let free := ((List.range 64).map (g * 64 + ·)).filter fun t => (p.thr t).state == .idle && (p.thr t).slot == j
      ((free.take tpc).zipIdx).map fun (t, n) => (t, pos * tpc + n)).flatten
    let i := { i with thrs := plan.map (·.1) }
    let p := p.setPos j q (some i)
    let p := plan.foldl (fun p x => p.startThr j i block x.1 x.2 (live.length * tpc) live.length) p
    ((((p.grantCheck j q false).recordStart j k).optRetry j).loopFor j i).ctxEval c

/-- Candidates of a queue die's sequencer: ready heads of resident, scheduled contexts with cores (R69, R71, R376). -/
def Pkg.seqCands (p : Pkg) (h : Nat) : List (Nat × Nat) :=
  (((List.range 8).map fun i => [(h * 8 + i, 0), (h * 8 + i, 1)]).flatten).filter fun (j, q) =>
    let s := p.slot j
    let x := p.ctx s.ctx
    s.bound && s.hasImage && x.resident && x.scheduled && !x.swapping && !x.preempting && p.pkgState != 5 &&
      p.headReady j q && !(p.liveCores j).isEmpty && p.dieUp (queueDie h)

/-- The order of R70 between two candidates. -/
def Pkg.seqBefore (p : Pkg) (a b : Nat × Nat) : Bool :=
  let d (x : Nat × Nat) : Rec := match (p.ing x.1 x.2).queue.head? with | some i => i.desc | none => 0
  let lc (x : Nat × Nat) : Bool := (p.ctx (p.slot x.1).ctx).lc
  if dDeadline (d a) != dDeadline (d b) then decide (dDeadline (d a) < dDeadline (d b))
  else if lc a != lc b then lc a
  else if a.2 != b.2 then decide (b.2 < a.2)
  else if fld (d a) 320 64 != fld (d b) 320 64 then decide (fld (d a) 320 64 < fld (d b) 320 64)
  else decide (a.1 < b.1)
/-- The sequencer's choice (R70). -/
def Pkg.seqChoice (p : Pkg) (h : Nat) : Option (Nat × Nat) :=
  (p.seqCands h).foldl (fun m x => match m with
    | none => some x
    | some y => if p.seqBefore x y then some x else some y) none

end Sys2Proof.Machine
end

