-- ==== Sys2Proof/Machine/Channel.lean ====
section
/-! DEFINITION. Channels, sumps, synchronisation operations, explicit draws, commit and fence, as instructions (R205,
R235 to R243, R249 to R266, R274; Tables 8.16, 9.1, 9.2). -/

namespace Sys2Proof.Machine

/-! ## Endpoints -/

/-- Wake the threads of core g that wait on endpoint e; one whose vector operation still lacks words stays (R234, R258). -/
def Pkg.wakeRecv (p : Pkg) (g e : Nat) : Pkg :=
  let p := p.vecNext g
  ((List.range 64).map (g * 64 + ·)).foldl (fun p t =>
    let th := p.thr t
    match th.wait with
    | .chRecv x =>
      let short := (p.core g).vops.any fun o => o.thr == t && o.chan == some e && (p.core g).vrun != some t && !p.vecReady g o
      if x = e && th.state == .blocked && !short then ((p.phaseTick th.slot).setThr t { th with state := .ready, wait := .none }).ctxEval th.ctx else p
    | _ => p) p

/-- Wake the threads of core g whose CH_SEND on connection n can proceed: credits enough, or closed, or lost (R255, R260). -/
def Pkg.wakeSend (p : Pkg) (g n : Nat) : Pkg :=
  let c := p.conn g n
  ((List.range 64).map (g * 64 + ·)).foldl (fun p t =>
    let th := p.thr t
    match th.wait with
    | .chSend k _ w =>
      if k = n && th.state == .blocked && (c.state != 2 && c.state != 1 || decide (w ≤ c.credits)) then
        ((p.phaseTick th.slot).setThr t { th with state := .ready, wait := .none }).ctxEval th.ctx
      else p
    | _ => p) p

/-- The answer of endpoint e to an OPEN request (R254, Table 9.3). -/
def Pkg.openReq (p : Pkg) (g e : Nat) (q : LPkt) : Pkg :=
  let ep := p.ep g e
  let k := q.kspec.toNat
  let key := fld k 32 24
  let sc := fld k 16 9
  let sn := fld k 25 5
  let ans (p : Pkg) (type : Nat) (retry : Bool) (grant : Nat) : Pkg := p.answer q 5 (ackSpec sc sn type retry grant) []
  let is (x : Nat × Nat × Nat × Nat × Nat) : Bool := x.1 == q.src.toNat && x.2.1 == sc && x.2.2.1 == sn
  if ep.state = 1 && ep.key = key then
    if !(ep.conns.any is) && !ep.multi && !ep.conns.isEmpty then ans p 2 false 0
    else
      -- the entry of a sender that opens again starts over: its grants are counted from this opening (DESIGN CHOICE, log entry 169)
      let conns := if ep.conns.any is then ep.conns.map fun c => if is c then (c.1, c.2.1, c.2.2.1, 0, 0) else c else ep.conns ++ [(q.src.toNat, sc, sn, 0, 0)]
      let p := (p.setEp g e { ep with conns := conns, everOpened := true }).epGrants g e (some (q.src.toNat, sc, sn))
      let gr := match (p.ep g e).conns.find? is with | some x => x.2.2.2.2 | none => 0
      ans p 0 false gr
  else if ep.lastKey = key && key != 0 then ans p 1 false 0
  else if ep.pendingOpen.length < 8 then p.setEp g e { ep with pendingOpen := ep.pendingOpen ++ [q] }
  else ans p 0 true 0

/-- Send the OPEN request of connection n (R254). -/
def Pkg.sendOpen (p : Pkg) (g n : Nat) : Pkg :=
  let t := (p.conn g n).target.toNat
  (p.request (p.mkPkt (fld t 0 24) 4 0 (msgSpec (fld t 24 9) (fld t 33 5) 1 g n (fld t 38 24) 1) []) (.chOpen g n)).2

/-- CH_OPEN with READER set (R249, R250): RC the endpoint, RA the offset of the descriptor. -/
def claimEp (p : Pkg) (t : Nat) (th : Thr) (f : FmtS) (w : W64) : IRes :=
  let g := coreOf t
  let e := (th.rs f.rc.toNat).toNat
  let off := (th.rs f.ra.toNat).toNat
  match p.spTest t off 32 false with
  | some c => .fault c
  | none =>
    if 31 < e then .fault fIllegalOperand
    else if p.spBadIn g off 32 then .stop (p.spPoison t th.pc.toNat w)
    else
      let d := p.spNum g off 32
      let base := fld d 64 48
      let words := fld d 128 32
      let multi := bit d 0
      let elastic := bit d 1
      let key := fld d 8 24
      let bad := fld d 2 6 != 0 || fld d 32 32 != 0 || fld d 112 16 != 0 || fld d 160 96 != 0 || key == 0 ||
        (elastic && decide (words < 32)) ||
        (words != 0 && (base % 64 != 0 || !(isStackAddr base && isStackAddr (base + words * 64 - 1)) || !p.inRegions th.ctx base (words * 64)))
      let ep := p.ep g e
      let me := p.itemOf t
      if bad then .fault fIllegalOperand
      else if ep.state = 1 then
        if ep.reader == some me && ep.multi == multi && ep.elastic == elastic && ep.key == key && ep.ringBase == base && ep.ringWords == words
          then .ok (p.spRead g off 32) else .fault fIllegalOperand
      else
        let mine := ep.pendingOpen.filter fun q => fld q.kspec.toNat 32 24 == key
        let p := (p.spRead g off 32).setEp g e { ({} : Endpoint) with
          state := 1, reader := some me, multi := multi, elastic := elastic, key := key, lastKey := ep.lastKey
          ringBase := base, ringWords := words, pendingOpen := ep.pendingOpen.filter fun q => fld q.kspec.toNat 32 24 != key }
        .ok (mine.foldl (fun p q => p.openReq g e q) p)

/-- CH_OPEN with READER clear (R252 to R254): RC the connection, RA the target, RB the flags. -/
def openConn (p : Pkg) (t : Nat) (th : Thr) (f : FmtS) : IRes :=
  let g := coreOf t
  let n := (th.rs f.rc.toNat).toNat
  let tgt := th.rs f.ra.toNat
  let fl := opB th f
  let us := fld fl.toNat 8 20
  let me := p.itemOf t
  let c := p.conn g n
  if 31 < n || 383 < fld tgt.toNat 24 9 || fld tgt.toNat 62 2 != 0 || (us != 0 && (us < 10 || 1000000 < us)) then .fault fIllegalOperand
  else if c.state = 0 then
    .ok ((p.setConn g n { state := 1, item := me, target := tgt, flags := fl, opening := c.opening + 1 }).sendOpen g n)
  else if c.item = me && c.target = tgt && c.flags = fl && !c.closing then .ok p
  else .fault fIllegalOperand

/-- CH_OPEN in both of its forms: RB bit 0 selects (Table 9.2). -/
def chOpenAny (p : Pkg) (t : Nat) (th : Thr) (f : FmtS) (w : W64) : IRes :=
  let fl := (opB th f).toNat
  if fld fl 2 6 != 0 || fld fl 28 36 != 0 then .fault fIllegalOperand
  else if bit fl 0 then claimEp p t th f w else openConn p t th f

/-- CH_OPEN (R252): the entry enters OPENING and an OPEN request leaves. -/
def execChOpen (t : ThreadId) (f : FmtS) (s : State) : Host.Outcome State Fault Refusal :=
  s.run fun p => p.issue t (.chOpen t f) fun p th => chOpenAny p t th f ((encode (.chOpen t f)).getD 0)

/-- CH_OPEN with the READER flag (R249): the item claims an endpoint. -/
def execChOpenReader (t : ThreadId) (f : FmtS) (s : State) : Host.Outcome State Fault Refusal :=
  s.run fun p => p.issue t (.chOpenReader t f) fun p th => chOpenAny p t th f ((encode (.chOpenReader t f)).getD 0)

/-- CH_SEND (R255, R260, R262): takes credits and stages RC words; blocks while credits are short. -/
def execChSend (t : ThreadId) (f : FmtS) (s : State) : Host.Outcome State Fault Refusal :=
  s.run fun p => p.issue t (.chSend t f) fun p th =>
    let g := coreOf t
    let n := (th.rs f.ra.toNat).toNat
    let off := (opB th f).toNat
    let w := (th.rs f.rc.toNat).toNat
    let c := p.conn g n
    if p.seqOpen t then .fault fTileSequence
    else if 31 < n || w = 0 || 16 < w then .fault fIllegalOperand
    else match p.spTest t off (64 * w) false with
    | some x => .fault x
    | none =>
      if c.state = 0 || c.item ≠ p.itemOf t || c.closing then .fault fIllegalOperand
      else if c.state = 4 then .fault fPathLost
      else if c.state = 3 then
        if bit c.flags.toNat 1 then .fault fChClosed else .ok (p.setThr t { th with st := th.st ||| 4#64 })
      else if c.credits < w then .again p (.chSend n p.now w)
      else stageEff (p.setConn g n { c with credits := c.credits - w }) t (.send n off w c.target c.opening) (64 * w) id

/-- May thread t name endpoint e (R251)? -/
def Pkg.readerOf (p : Pkg) (t e : Nat) : Bool :=
  let ep := p.ep (coreOf t) e
  decide (e ≤ 31) && ep.state == 1 && ep.reader == some (p.itemOf t)

/-- CH_RECV (R258): the rest of the head message to scratchpad, RD := its words. -/
def execChRecv (t : ThreadId) (f : FmtS) (s : State) : Host.Outcome State Fault Refusal :=
  s.run fun p => p.issue t (.chRecv t f) fun p th =>
    let g := coreOf t
    let e := (th.rs f.ra.toNat).toNat
    let off := (opB th f).toNat
    let ep := p.ep g e
    if !p.readerOf t e then .fault fIllegalOperand
    else if epUnread ep = 0 then
      if ep.everOpened && ep.conns.isEmpty then .ok (p.setThr t (th.setS f.rd.toNat 0))
      else .again p (.chRecv e)
    else
      let n := (((ep.unread.filter fun m => !m.isEmpty).head?).getD []).length
      match p.spTest t off (64 * n) true with
      | some c => .fault c
      | none =>
        let p := ((p.epTake g e n).epGrants g e).spStore g off (p.epBytes g e n)
        .ok (p.modThr t fun th => th.setS f.rd.toNat (BitVec.ofNat 64 n))

/-- CH_CLOSE (R253): the entry is freed once every published message is acknowledged and a CLOSE request has gone. -/
def execChClose (t : ThreadId) (f : FmtS) (s : State) : Host.Outcome State Fault Refusal :=
  s.run fun p => p.issue t (.chClose t f) fun p th =>
    let g := coreOf t
    let n := (th.rs f.ra.toNat).toNat
    let c := p.conn g n
    if 31 < n || c.state = 0 || c.item ≠ p.itemOf t then .fault fIllegalOperand
    else .ok ((p.setConn g n { c with closing := true }).closeConn g n)

/-- CH_POLL (R258): RD := unread words. -/
def execChPoll (t : ThreadId) (f : FmtS) (s : State) : Host.Outcome State Fault Refusal :=
  s.run fun p => p.issue t (.chPoll t f) fun p th =>
    let e := (th.rs f.ra.toNat).toNat
    if !p.readerOf t e then .fault fIllegalOperand
    else .ok (p.setThr t (th.setS f.rd.toNat (BitVec.ofNat 64 (epUnread (p.ep (coreOf t) e)))))

/-! ## Sumps and synchronisation objects -/

/-- Bytes of one element of a sump format (R267): FP32, BF16, INT32; 0 for the reserved code. -/
def sumpElt (f : Nat) : Nat := if f = 0 then 4 else if f = 1 then 2 else if f = 2 then 4 else 0

/-- SUMP_ADD (R266): stages a contribution of RC bytes at RB for the target in RA. -/
def execSumpAdd (t : ThreadId) (f : FmtS) (s : State) : Host.Outcome State Fault Refusal :=
  s.run fun p => p.issue t (.sumpAdd t f) fun p th =>
    let g := coreOf t
    let tgt := (th.rs f.ra.toNat).toNat
    let off := (opB th f).toNat
    let n := (th.rs f.rc.toNat).toNat
    if p.seqOpen t then .fault fTileSequence
    else if tgt / 2 ^ 29 != 0 || n < 68 || 2097152 < n then .fault fIllegalOperand
    else match p.spTest t off n false with
    | some c => .fault c
    | none =>
      let e := sumpElt (fld (p.spNum g off 64) 40 2)
      if p.spBadIn g off 64 then .stop (p.spPoison t th.pc.toNat ((encode (.sumpAdd t f)).getD 0))
      else if e = 0 || (n - 64) % e != 0 then .fault fIllegalOperand
      else stageEff (p.spRead g off 64) t (.sump tgt off n) n id

/-- An object designator with its reserved bits zero (R274). -/
def desigOk (d : Nat) : Bool := fld d 12 4 == 0 && fld d 40 24 == 0
/-- Stage a sync effect (R274): op code, operands A and B. -/
def stageSync (p : Pkg) (t : Nat) (op d : Nat) (a b : Nat) : IRes :=
  if p.seqOpen t then .fault fTileSequence
  else if !desigOk d then .fault fIllegalOperand
  else stageEff p t (.sync op d a b) 0 id

/-- SIGNAL (R274): an effect, counter := counter + RB. -/
def execSignal (t : ThreadId) (f : FmtS) (s : State) : Host.Outcome State Fault Refusal :=
  s.run fun p => p.issue t (.signal t f) fun p th => stageSync p t 0 (th.rs f.ra.toNat).toNat (opB th f).toNat 0
/-- ARM (R274): an effect, threshold := RB[31:0], armed. -/
def execArm (t : ThreadId) (f : FmtS) (s : State) : Host.Outcome State Fault Refusal :=
  s.run fun p => p.issue t (.arm t f) fun p th => stageSync p t 2 (th.rs f.ra.toNat).toNat (opB th f).toNat 0
/-- CAS (R274): an effect, counter := RC when it equals RB. -/
def execCas (t : ThreadId) (f : FmtS) (s : State) : Host.Outcome State Fault Refusal :=
  s.run fun p => p.issue t (.cas t f) fun p th => stageSync p t 4 (th.rs f.ra.toNat).toNat (opB th f).toNat (th.rs f.rc.toNat).toNat

/-- KSPEC of a SYNC_OP (Table 9.5). -/
def syncSpec (obj op core thr ctx : Nat) : Nat := put 0 12 obj + put 12 3 op + put 16 9 core + put 25 6 thr + put 32 8 ctx
/-- A READ or WAIT request leaves and the thread waits for the answer (R274). -/
def askSync (p : Pkg) (t : Nat) (th : Thr) (op d a : Nat) (rd : Option Nat) : IRes :=
  if p.seqOpen t then .fault fTileSequence
  else if !desigOk d then .fault fIllegalOperand
  else
    let x := p.request (p.mkPkt (fld d 16 24) 6 th.slot (syncSpec (fld d 0 12) op (coreOf t) (threadIn t) th.ctx) (toLe 8 a)) (.sync t)
    .wait x.2 (.sync x.1 rd)

/-- WAIT (R274): blocks until the counter reaches RB. -/
def execWait (t : ThreadId) (f : FmtS) (s : State) : Host.Outcome State Fault Refusal :=
  s.run fun p => p.issue t (.wait t f) fun p th => askSync p t th 1 (th.rs f.ra.toNat).toNat (opB th f).toNat none
/-- READ (R274): RD := counter. -/
def execRead (t : ThreadId) (f : FmtS) (s : State) : Host.Outcome State Fault Refusal :=
  s.run fun p => p.issue t (.read t f) fun p th => askSync p t th 3 (th.rs f.ra.toNat).toNat 0 (some f.rd.toNat)

/-! ## Explicit streams -/

/-- Is stream i held by another running item of context c (R205)? An item names a stream when it first draws from it; of two that
have, the first dispatched holds it (Table 7.6). -/
def Pkg.streamHeld (p : Pkg) (c i : Nat) (me : Nat × Nat) : Bool :=
  let since := match (p.slot me.1).pos me.2 with | some x => x.firstDisp | none => 0
  (p.slotsOf c).any fun j => [0, 1].any fun q =>
    (j, q) != me && (match (p.slot j).pos q with | some x => fld (tabGet 0 x.streams i) 0 64 != 0 && decide (x.firstDisp ≤ since) | none => false)

/-- RNDX (R205): RC outputs of stream RB, 16 bytes each, at scratchpad offset RA. -/
def execRndx (t : ThreadId) (f : FmtS) (s : State) : Host.Outcome State Fault Refusal :=
  s.run fun p => p.issue t (.rndx t f) fun p th =>
    let off := (th.rs f.ra.toNat).toNat
    let i := (opB th f).toNat
    let k := (th.rs f.rc.toNat).toNat
    let me := p.itemOf t
    if p.seqOpen t then .fault fTileSequence
    else if 63 < i || 0x40_0000 < 16 * k then .fault fIllegalOperand
    else match p.streamAddr th.ctx i with
    | none => .fault fIllegalOperand
    | some a =>
      match p.spTest t off (16 * k) true with
      | some c => .fault c
      | none =>
        if p.streamHeld th.ctx i me then .fault fRandomStream
        else
          let e := match p.theItem t with | some x => tabGet 0 x.streams i | none => 0
          let n := fld e 0 64 - 1
          let key := p.loadNum a 16
          let base := fld e 64 128
          let bs := ((List.range k).map fun j => toLe 16 (gen key ((base + n + j) % 2 ^ 128))).flatten
          let p := p.modPos me.1 me.2 fun x => { x with streams := tabSet 0 x.streams i (put 64 128 base + put 0 64 (n + k + 1)) }
          .ok (p.spStore (coreOf t) off bs)

/-! ## Commit and fence -/

/-- The packets of one effect, payload read from the scratchpad now (R238, R264, R266, R299). -/
def Pkg.effPkts (p : Pkg) (t : Nat) (th : Thr) (e : Effect) : List LPkt :=
  let g := coreOf t
  match e with
  | .send n off w tgt _ =>
    let x := tgt.toNat
    [p.mkPkt (fld x 0 24) 4 th.slot (msgSpec (fld x 24 9) (fld x 33 5) 0 g n (fld x 38 24) w) (p.spBytes g off (64 * w))]
  | .sump tgt off len =>
    let h := p.spNum g off 64
    let el := sumpElt (fld h 40 2)
    (pieces (len - 64)).map fun x =>
      p.mkPkt (fld tgt 0 24) 3 th.slot (put 0 4 (fld tgt 25 4) + put 4 1 (fld tgt 24 1))
        (toLe 64 (setFld h 128 19 (fld h 128 19 + x.1 / el)) ++ p.spBytes g (off + 64 + x.1) x.2)
  | .sync op d a b =>
    [p.mkPkt (fld d 16 24) 6 th.slot (syncSpec (fld d 0 12) op g (threadIn t) th.ctx) (toLe 8 a ++ if op = 4 then toLe 8 b else [])]
  | .write fab addr off len hint =>
    (pieces len).map fun x => p.mkPkt fab 10 th.slot (memSpec (addr + x.1) hint x.2 th.ctx) (p.spBytes g (off + x.1) x.2)
  | .writeWord fab addr data hint => [p.mkPkt fab 10 th.slot (memSpec addr hint 8 th.ctx) (toLe 8 data.toNat)]
/-- Scratchpad range an effect reads at its COMMIT. -/
def Effect.range : Effect → Nat × Nat
  | .send _ off w _ _ => (off, 64 * w)
  | .sump _ off len => (off, len)
  | .write _ _ off len _ => (off, len)
  | _ => (0, 0)
/-- Connection, words and opening of a staged message. -/
def Effect.sends : Effect → List (Nat × Nat × Nat)
  | .send n _ w _ o => [(n, w, o)]
  | _ => []
/-- Per packet of a group: the background operation of a remote write, taken from the thread's writes that no group holds yet, in their
order; the opening of a message; 0 for the others. -/
def Pkg.owners (p : Pkg) (t : Nat) (th : Thr) : List Effect → List Nat → List Nat
  | [], _ => []
  | e :: es, ids =>
    let n := (p.effPkts t th e).length
    match e with
    | .write _ _ _ _ _ => List.replicate n (ids.headD 0) ++ p.owners t th es ids.tail
    | .writeWord _ _ _ _ => List.replicate n (ids.headD 0) ++ p.owners t th es ids.tail
    | .send _ _ _ _ o => List.replicate n o ++ p.owners t th es ids
    | _ => List.replicate n 0 ++ p.owners t th es ids
/-- The background operations of the remote writes that a thread has staged and not committed, in order. -/
def Thr.openWrites (th : Thr) : List Nat := (th.bg.filter fun b => match b.kind with | .staged none => true | _ => false).map (·.id)

/-- COMMIT (R238): closes the open group under stream RA and ships it; the thread waits for the answer. -/
def execCommit (t : ThreadId) (f : FmtS) (s : State) : Host.Outcome State Fault Refusal :=
  s.run fun p => p.issue t (.commit t f) fun p th =>
    let st := (th.rs f.ra.toNat).toNat
    let me := p.itemOf t
    if p.seqOpen t then .fault fTileSequence
    else if 1023 < st then .fault fIllegalOperand
    else if th.grp.any fun e => p.spBadIn (coreOf t) e.range.1 e.range.2 then
      .stop (p.spPoison t th.pc.toNat ((encode (.commit t f)).getD 0))
    else
      let ix := (match p.theItem t with | some i => tabGet 0 i.commitIdx st | none => 0) + 1
      let grp : Group := {
        id := (p.slot me.1).groupNext, thr := t, attempt := (match p.theItem t with | some i => i.attempt | none => 0), qpos := me.2
        ctx := th.ctx, stream := st, index := ix, pkts := (th.grp.map fun e => p.effPkts t th e).flatten, owner := p.owners t th th.grp th.openWrites, sends := (th.grp.map Effect.sends).flatten }
      let p := p.spReads (coreOf t) (th.grp.map Effect.range)
      let p := p.modPos me.1 me.2 fun i => { i with commitIdx := tabSet 0 i.commitIdx st ix, undecided := i.undecided + 1 }
      let p := p.modSlot me.1 fun x => { x with transit := x.transit ++ [grp], groupNext := x.groupNext + 1 }
      let p := p.setThr t { th with
        grp := [], grpBytes := 0, unacked := th.unacked + 1
        bg := th.bg.map fun b => match b.kind with | .staged none => { b with kind := .staged (some (st, ix)) } | _ => b }
      .wait p (.commit st)

/-- FENCE (R235): waits for memory operations, committed groups, engine operations. -/
def execFence (t : ThreadId) (f : FmtS) (s : State) : Host.Outcome State Fault Refusal :=
  s.run fun p => p.issue t (.fence t f) fun p th =>
    if p.seqOpen t then .fault fTileSequence
    else if p.waitOver t { th with wait := .fence f.imm.toNat } then .ok p
    else .again p (.fence f.imm.toNat)

/-- WAITTAG (R236): waits until every tag of the mask is complete; bit 0 is ignored. -/
def execWaittag (t : ThreadId) (f : FmtS) (s : State) : Host.Outcome State Fault Refusal :=
  s.run fun p => p.issue t (.waittag t f) fun p th =>
    let m := opB th f &&& ~~~(1#64)
    if th.pend &&& m = 0 then .ok p else .again p (.tags m)

/-- DONE (R243): waits for the pending tags, then ends the thread; the item's end event may follow. -/
def execDone (t : ThreadId) (f : FmtS) (s : State) : Host.Outcome State Fault Refusal :=
  s.run fun p => p.issue t (.done t f) fun p th =>
    if !th.grp.isEmpty then .fault fUncommitted
    else if th.pend != 0 then .again p (.tags th.pend)
    else
      let me := p.itemOf t
      let p := (p.modThr t fun th => { th.goto (th.pc.toNat + 1) with doneFlag := true, state := .idle, wait := .none }).countIssue t false
      .stop (((p.tryEnd me.1 me.2).ctxEval th.ctx).swapEval)

/-- YIELD (R218): gives up the issue slot. -/
def execYield (t : ThreadId) (f : FmtS) (s : State) : Host.Outcome State Fault Refusal :=
  s.run fun p => p.issue t (.yield t f) fun p _ => .yield p

end Sys2Proof.Machine
end

