-- ==== Sys2Proof/Machine/Health.lean ====
section
/-! DEFINITION. The package state and the floor (R418, R451), and items disturbed by a loss (R42, R72, R334). -/

namespace Sys2Proof.Machine

/-- A transition of the package state (R451) raises EV_PKG_STATE. -/
def Pkg.pkgTo (p : Pkg) (st : Nat) : Pkg :=
  if p.pkgState = st then p
  else { p with pkgState := st, pkgEntered := p.icount p.primary % 2 ^ 32 }.raise .pkgState p.primary noCtx 0 (p.pkgState + 16 * st)

/-- Live enabled cores of a cluster. -/
def Pkg.liveOf (p : Pkg) (k : Nat) : Nat :=
  if p.dieUp (dieOfCluster k) then ((List.range 24).filter fun i => !(p.core (24 * k + i)).retired).length else 0
/-- Is the package at its floor (R418)? -/
def Pkg.atFloor (p : Pkg) : Bool :=
  ((List.range 16).all fun k => decide (22 ≤ p.liveOf k)) &&
  decide (14 ≤ ((List.range 16).filter fun s => (p.stack s).state == 0).length) &&
  decide (12 ≤ ((List.range 16).filter fun k => p.dieUp (linkDie k) && (p.port k).state != .dead).length) &&
  p.dieUp 14 && p.dieUp 30 && p.dieUp p.primary
/-- Re-evaluate the floor: every crossing raises EV_PKG_FLOOR (R418). -/
def Pkg.floorEval (p : Pkg) : Pkg :=
  let f := p.atFloor
  if p.pkgState = 3 && !f then (p.raise .pkgFloor p.primary noCtx 0 0).pkgTo 4
  else if p.pkgState = 4 && f then (p.raise .pkgFloor p.primary noCtx 0 1).pkgTo 3
  else p

/-- A queue pair enters its error state (R428, R459): micro-batches its host had not posted are discarded. -/
def Pkg.qpError (p : Pkg) (n : Nat) : Pkg :=
  let q := tabGet ({} : Qp) p.eth.qps n
  if q.state != 1 then p else
  let p := { p with eth := { p.eth with qps := tabSet {} p.eth.qps n { q with state := 2, unacked := [], rnrWait := false } } }
  let p := p.setFlag .ethStatus p.primary 4
  match q.slot with
  | some j => p.modIng j 0 fun g => { g with opens := [], hostEnd := [] }
  | none => p
/-- The host port goes up or down (R424, R432). -/
def Pkg.ethTo (p : Pkg) (up : Bool) : Pkg :=
  if p.eth.up = up then p else
  let p := { p with eth := { p.eth with up := up, enteredNs := p.icount p.primary % 2 ^ 32, paused := [], held := [] } }
  let p := (p.setFlag .ethStatus p.primary 0).raise .ethLink 15 noCtx 0 (b2n up)
  if up then p else (p.eth.qps.map (·.1)).foldl Pkg.qpError p

/-- Kill the running items that have an unfinished thread on a core of a set (R72, R212, R334). -/
def Pkg.killOn (p : Pkg) (on : Nat → Bool) : Pkg :=
  (List.range 16).foldl (fun p j => [0, 1].foldl (fun p q =>
    match (p.slot j).pos q with
    | some i =>
      if i.thrs.any fun t => on (coreOf t) && !(p.thr t).doneFlag then (p.killItem j q).ctxEval (p.slot j).ctx else p
    | none => p) p) p

/-- Close the endpoints of a core (R251, R260). -/
def Pkg.closeCoreEps (p : Pkg) (g : Nat) : Pkg :=
  ((p.core g).eps.map (·.1)).foldl (fun p e => p.closeEp g e) p

end Sys2Proof.Machine
end

