-- ==== Sys2Proof/Machine/CoreEv.lean ====
section
/-! DEFINITION. Events of a core: background completions, the issue slot, retirement, ring copies (R212, R214, R218,
R236, R245, R259). -/

namespace Sys2Proof.Machine

/-- ISSUE_QUANTUM_EXPIRY (R218): a thread that has issued QUANTUM instructions in a row yields the slot. -/
def execIssueQuantumExpiry (c : CoreId) (s : State) : Host.Outcome State Fault Refusal :=
  s.run fun p =>
    let k := p.core c
    if k.issuer.isSome && decide (k.curQuantum ≤ k.consec) then p.setCore c { k with issuer := none, consec := 0 } else p

/-- ICACHE_MISS_FILL (R218, R248): the fill completes and the waiting thread becomes ready. The table has no row for the miss
itself: the command for the issuing thread that waits for no fill is the miss, which counts, blocks the thread in the
instruction-fetch state and yields the slot (DESIGN CHOICE, log entry 167). -/
def execIcacheMissFill (t : ThreadId) (s : State) : Host.Outcome State Fault Refusal :=
  s.run fun p =>
    if (p.thr t).wait = .fetch then p.resume t id
    else if p.selected t then
      ((p.modCore (coreOf t) fun k => { k with issuer := none, lastIssuer := threadIn t, consec := 0 }).bump .coreIcacheMiss (coreOf t)).blockThr t .fetch
    else p

/-- A deferred fault of a background operation (R245). -/
def Pkg.bgFault (p : Pkg) (t : Nat) (b : Bg) (cause : Nat) : Pkg := p.thrFault t cause b.pc b.inst

/-- How its memory takes a local memory operation (R214, R282, R293, R294). -/
def Pkg.bgTest (p : Pkg) (a n : Nat) : Access :=
  if isStackAddr a then p.memReady a n
  else if isWindowAddr a && !p.dieUp (dieOfCore (windowCore a)) then .unavailable
  else .ok
/-- Does a local read meet a scratchpad word of a window that cannot be corrected (R214)? -/
def Pkg.windowBad (p : Pkg) (a n : Nat) : Bool := isWindowAddr a && p.spBadIn (windowCore a) (windowOff a) n
/-- The words of a window that an operation reads (R214). -/
def Pkg.windowRead (p : Pkg) (a n : Nat) : Pkg := if isWindowAddr a then p.spRead (windowCore a) (windowOff a) n else p

/-- A background read of n bytes ends (R231, R236, R245, R288): its fault is raised, or `k` takes the bytes. -/
def Pkg.bgLoad (p : Pkg) (t : Nat) (b : Bg) (a n hint : Nat) (es : LineErrs) (k : Pkg → List Byte → Pkg) : Pkg :=
  match p.bgTest a n with
  | .waits => p
  | .unavailable => p.bgFault t b fPathLost
  | .address => p.bgFault t b fAddress
  | .ok =>
    if p.windowBad a n then (p.setFlag .coreStatus (windowCore a) 2).bgFault t b fPoison
    else
      let r := p.memRead a n hint es
      if r.2.1 then r.2.2.bgFault t b fPoison
      else (k ((r.2.2.windowRead a n).countMem t a n) r.1).endBg t b.id
/-- A background write ends: its fault is raised, or the bytes reach their memory (R231, R236). -/
def Pkg.bgStore (p : Pkg) (t : Nat) (b : Bg) (a : Nat) (bs : List Byte) (hint : Nat) (es : LineErrs) : Pkg :=
  match p.bgTest a bs.length with
  | .waits => p
  | .unavailable => p.bgFault t b fPathLost
  | .address => p.bgFault t b fAddress
  | .ok => (((p.memWrite a bs hint es).noteEgress t a bs.length).countMem t a bs.length).endBg t b.id

/-- A background memory operation completes (R231, R236): data move, its tag completes, or its fault is raised. -/
def Pkg.bgComplete (p : Pkg) (t : Nat) (b : Bg) (es : LineErrs) : Pkg :=
  let g := coreOf t
  match b.kind with
  | .load a off n hint => p.bgLoad t b a n hint es fun p bs => p.spStore g off bs
  | .loadWord rd a hint =>
    p.bgLoad t b a 8 hint es fun p bs =>
      match (p.thr t).wait with
      | .memData r o => if r = rd && o = b.id then p.resume t fun th => th.setS rd (BitVec.ofNat 64 (leNat bs)) else p
      | _ => p
  | .store a off n hint =>
    if p.spBadIn g off n then (if p.bgTest a n = .waits then p else (p.setFlag .coreStatus g 2).bgFault t b fPoison)
    else if p.bgTest a n = .ok then (p.spRead g off n).bgStore t b a (p.spBytes g off n) hint es
    else p.bgStore t b a (p.spBytes g off n) hint es
  | .storeWord a data hint => p.bgStore t b a (toLe 8 data.toNat) hint es
  | _ => p

/-- TAG_COMPLETE (R236): background operation `op` of thread t ends as `e` says. Remote operations end with their
answers, engine operations with their own events. -/
def execTagComplete (t : ThreadId) (op : Nat) (e : BgEnd) (s : State) : Host.Outcome State Fault Refusal :=
  s.run fun p =>
    match (p.thr t).bg.find? fun b => b.id == op with
    | none => p
    | some b =>
      match e with
      | .done es => p.bgComplete t b es
      | .pathLost => (match b.kind with
        | .load _ _ _ _ | .loadWord _ _ _ | .store _ _ _ _ | .storeWord _ _ _ => p.bgFault t b fPathLost
        | _ => p)
      | .spUncorrectable off =>
        if off < 0x40_0000 then
          let p := p.modCore (coreOf t) fun c => { c with spBad := tabSet false c.spBad (off / 32) true }
          (p.setFlag .coreStatus (coreOf t) 2).bgFault t b fPoison
        else p

/-- CORE_RETIRE (R212): the items of its threads are killed, its endpoints close, the core is RETIRED. -/
def execCoreRetire (c : CoreId) (s : State) : Host.Outcome State Fault Refusal :=
  s.run fun p =>
    if (p.core c).retired then p else
    let d := dieOfCore c
    let p := p.causeItems 0x14 d fun j _ => (p.slot j).cores.contains c.val
    let p := p.killOn fun g => g == c.val
    let p := p.closeCoreEps c
    let p := p.modCore c fun k => { k with retired := true, issuer := none }
    (p.raise .coreRetired d noCtx c 0).floorEval

/-- RING_TRANSFER (R259): consumed words have been copied to the ring; SRAM words are free and grants are recomputed. -/
def execRingTransfer (c : CoreId) (e : Fin 32) (s : State) : Host.Outcome State Fault Refusal :=
  s.run fun p => if (p.ep c e).state = 1 then (p.ringMove c e).epGrants c e else p

end Sys2Proof.Machine
end

