-- ==== Sys2Proof/Machine/Effects.lean ====
section
/-! DEFINITION. Committed groups at the home queue die and the answers to their effects (R129, R236, R238 to R243, R255,
R262, R264, R270, R274). -/

namespace Sys2Proof.Machine

/-- Port a packet that is handled now came by (R135): the one that last delivered it, else the one its answers leave by. -/
def Pkg.inPort (p : Pkg) (k : LPkt) : Nat :=
  match p.inbox.find? fun e => e.2 == k with
  | some e => e.1
  | none => (p.portTowards k.src.toNat k.flow.toNat).getD 0
/-- A packet of kind `kind` reaches this device (R129): another destination or kind changes nothing, another epoch is
dropped and counted. -/
def Pkg.arrive (p : Pkg) (k : LPkt) (kind : Nat) (f : Pkg → Pkg) : Pkg :=
  if k.pkind.toNat != kind || k.dst.toNat != p.fabAddr then p
  else if kind != 12 && kind != 13 && k.epoch.toNat != p.epoch then p.bump .ldEpochDrop (p.inPort k)
  else f p

/-- Is b a write staged in group g? -/
def Group.staged (g : Group) (b : Bg) : Bool :=
  match b.kind with
  | .staged (some x) => x == (g.stream, g.index)
  | _ => false

/-- A thread's completed group (R235, R236): one fewer unacknowledged, its staged writes complete their tags. -/
def Pkg.groupAcked (p : Pkg) (j : Nat) (g : Group) : Pkg :=
  let alive := match (p.slot j).pos g.qpos with
    | some i => i.attempt == g.attempt && i.thrs.contains g.thr
    | none => false
  if !alive then p else
  let mine := g.staged
  if (p.ctx g.ctx).saved.any fun e => e.1 == g.thr then
    p.modThrOrSaved g.ctx g.thr fun th => { th with unacked := th.unacked - 1, bg := th.bg.filter fun b => !mine b }
  else
    let p := p.modThr g.thr fun th => { th with unacked := th.unacked - 1 }
    let ids := ((p.thr g.thr).bg.filter mine).map (·.id)
    (ids.foldl (fun p n => p.endBg g.thr n) p).wakeCheck g.thr

/-- Send what a published group may send now (R264): SIGNAL, ARM and CAS wait for every earlier effect's answer. -/
def Pkg.pumpGroup (p : Pkg) (j : Nat) : Nat → Group → Group × Pkg
  | 0, g => (g, p)
  | fuel + 1, g =>
    match g.pkts[g.sent]? with
    | none => (g, p)
    | some k =>
      if k.pkind = 6 && g.acked.length < g.sent then (g, p)
      else
        let p := (p.request k (.effect j g.id g.sent)).2
        p.pumpGroup j fuel { g with sent := g.sent + 1 }
/-- Send the effects of a slot's published groups: one stream of one item in index order (R239). -/
def Pkg.pumpGo (j : Nat) : List Group → List Group → Pkg → List Group × Pkg
  | done, [], p => (done, p)
  | done, g :: gs, p =>
    let before := done.any fun x => x.qpos == g.qpos && x.stream == g.stream && decide (x.sent < x.pkts.length)
    let r := if before then (g, p) else p.pumpGroup j g.pkts.length g
    Pkg.pumpGo j (done ++ [r.1]) gs r.2
def Pkg.pump (p : Pkg) (j : Nat) : Pkg :=
  let r := Pkg.pumpGo j [] (p.slot j).published p
  let overs := r.1.filter fun g => g.acked.length == g.pkts.length
  let p := r.2.modSlot j fun s => { s with published := r.1.filter fun g => g.acked.length != g.pkts.length }
  overs.foldl (fun p g => p.groupAcked j g) p

/-- One effect of a group is answered (R264). -/
def Pkg.effAcked (p : Pkg) (j gid eff : Nat) : Pkg :=
  (p.modSlot j fun s => { s with published := s.published.map fun g =>
    if g.id = gid && !g.acked.contains eff then { g with acked := g.acked ++ [eff] } else g }).pump j

/-- The group an effect belongs to, while it is published. -/
def Pkg.pubGroup (p : Pkg) (j gid : Nat) : Option Group := (p.slot j).published.find? fun g => g.id == gid
/-- What stands beside an effect of a group: its write's operation or its message's opening. -/
def Group.ownerOf (g : Group) (eff : Nat) : Nat := (g.owner[eff]?).getD 0

/-- A message of opening o of connection n on core g is answered or lost: the entry may now close (R253). -/
def Pkg.msgAcked (p : Pkg) (g n o : Nat) (lost : Bool) : Pkg :=
  let c := p.conn g n
  if c.state = 0 || c.opening != o then p else
  let p := p.setConn g n { c with unacked := c.unacked - 1, state := if lost then 4 else c.state }
  (p.closeConn g n).wakeSend g n

/-- A remote write of a group fails (R236, R245): the fault is raised against its own instruction. A thread whose context has been
saved keeps the record in its saved state. -/
def Pkg.writeFault (p : Pkg) (g : Group) (eff cause : Nat) : Pkg :=
  let mine (th : Thr) : Option Bg := th.bg.find? fun b => b.id == g.ownerOf eff && g.staged b
  match (p.ctx g.ctx).saved.find? fun e => e.1 == g.thr with
  | some e =>
    (match mine e.2 with
    | some b =>
      let d := dieOfCore (coreOf g.thr)
      let f := put 0 8 cause + put 8 24 b.pc + put 32 32 (p.icount d)
      let p := p.modThrOrSaved g.ctx g.thr fun th => { th with state := .faulted, wait := .none, fault := BitVec.ofNat 64 f, finst := b.inst }
      let p := (p.setFlag .coreStatus (coreOf g.thr) 0).bump .coreFault (coreOf g.thr)
      (p.raise .coreFault d g.ctx g.thr (f + b.inst.toNat * 2 ^ 64)).ctxFault g.ctx 1
    | none => p)
  | none =>
    match mine (p.thr g.thr) with
    | some b => p.thrFault g.thr cause b.pc b.inst
    | none => p

/-- An effect completes with ST_PATH_LOST (R127, R236, R262, R270). -/
def Pkg.effLost (p : Pkg) (k : LPkt) (j gid eff : Nat) : Pkg :=
  let x := k.kspec.toNat
  let p := match p.pubGroup j gid with
    | none => p
    | some g =>
      match k.pkind.toNat with
      | 4 => p.msgAcked (fld x 16 9) (fld x 25 5) (g.ownerOf eff) true
      | 3 => p.ctxFault g.ctx 4
      | 10 => p.writeFault g eff fPathLost
      | _ => p
  p.effAcked j gid eff

/-- GROUP_RECEIVE (R239): the home queue die decides a whole group: publish, suppress, or discard as a gap. -/
def execGroupReceive (slot : SlotId) (idx : Nat) (s : State) : Host.Outcome State Fault Refusal :=
  s.run fun p =>
    match (p.slot slot).transit.find? fun g => g.id == idx with
    | none => p
    | some g =>
      let p := p.modSlot slot fun s => { s with transit := s.transit.filter fun x => x.id != idx }
      let count := match (p.slot slot).pos g.qpos with | some i => tabGet 0 i.recordC g.stream | none => 0
      let p := p.modPos slot g.qpos fun i => { i with undecided := i.undecided - 1 }
      let core := coreOf g.thr
      let p := if g.index = count + 1 then
          let p := p.modPos slot g.qpos fun i => { i with recordC := tabSet 0 i.recordC g.stream g.index }
          let p := g.sends.foldl (fun p x => p.modConn core x.1 x.2.2 fun c => { c with unacked := c.unacked + 1 }) p
          ((p.modSlot slot fun s => { s with published := s.published ++ [g] }).bump .qdEffectPublish slot).pump slot
        else if g.index ≤ count then
          let p := g.sends.foldl (fun p x => (p.returnCredit core x.1 x.2.1 x.2.2).wakeSend core x.1) p
          (p.bump .qdEffectSuppress slot).groupAcked slot g
        else (p.bump .qdEffectGap slot).groupAcked slot g
      p.tryEnd slot g.qpos

/-- COMMIT_ANSWER (R242): the answer reaches the core and the thread is ready. -/
def execCommitAnswer (t : ThreadId) (s : State) : Host.Outcome State Fault Refusal :=
  s.run fun p =>
    let th := p.thr t
    match th.wait with
    | .commit _ => if (p.slot th.slot).transit.any fun g => g.thr == t.val then p else p.resume t id
    | _ => p

/-- CH_ACK DELIVERED, SYNC_RESP or MEM_WACK for an effect of this device (R264). -/
def Pkg.effectResponse (p : Pkg) (k : LPkt) : Pkg :=
    let x := k.kspec.toNat
    let kind := k.pkind.toNat
    if !(kind == 5 && fld x 14 2 == 3 || kind == 7 || kind == 11) then p else
    match p.req k.tag.toNat with
    | none => p.bump .ldLateResp (p.inPort k)
    | some r =>
      match r.who with
      | .effect j gid eff =>
        let ctx := match p.pubGroup j gid with | some g => g.ctx | none => (p.slot j).ctx
        let q := queueDie (halfOfSlot j)
        let y := r.pkt.kspec.toNat
        if kind = 5 then
          let o := match p.pubGroup j gid with | some g => g.ownerOf eff | none => 0
          ((p.endReq k.tag.toNat).msgAcked (fld y 16 9) (fld y 25 5) o false).effAcked j gid eff
        else if kind = 7 then
          let p := p.endReq k.tag.toNat
          let res := fld x 15 3
          if res = 4 then p.effLost r.pkt j gid eff
          else if res = 3 then
            let p := if fld x 12 3 = 7 then p.ctxFault ctx 4 else
              (((p.setFlag .sumpStatus q 4).bump .syncDenied q).raise .syncDenied q ctx (fld y 0 12) 0).ctxFault ctx 5
            p.effAcked j gid eff
          else p.effAcked j gid eff
        else
          let st := fld x 48 8
          if st = 1 then { p with reqs := tabSet none p.reqs k.tag.toNat (some { r with retry := true }) }
          else
            let p := p.endReq k.tag.toNat
            let p := if st = 0 then p else
              match p.pubGroup j gid with
              | some g => p.writeFault g eff (if st = 2 then fPoison else if st = 3 then fAddress else fPathLost)
              | none => p
            p.effAcked j gid eff
      | _ => p
/-- EFFECT_RESPONSE_RECEIVE (R264). -/
def execEffectResponseReceive (k : LPkt) (s : State) : Host.Outcome State Fault Refusal :=
  s.run fun p => p.arrive k k.pkind.toNat fun p => p.effectResponse k

end Sys2Proof.Machine
end

