-- ==== Sys2Proof/Machine/ChanEv.lean ====
section
/-! DEFINITION. Channel, synchronisation and sump packets at their destinations, and the timers of their senders (R254 to
R276). -/

namespace Sys2Proof.Machine

/-! ## Endpoints -/

/-- CH_ACK DELIVERED for a message (R257): to the sender's home queue die. -/
def Pkg.delivered (p : Pkg) (k : LPkt) : Pkg := p.answer k 5 (ackSpec 0x1FF (fld k.kspec.toNat 25 5) 3 false 0) []

/-- CH_MSG_RECEIVE (R257, R259, R260): a whole message is appended, or dropped, and acknowledged. -/
def execChMsgReceive (k : LPkt) (s : State) : Host.Outcome State Fault Refusal :=
  s.run fun p => p.arrive k 4 fun p =>
    let x := k.kspec.toNat
    let g := fld x 0 9
    let e := fld x 9 5
    let n := fld x 56 4 + 1
    if fld x 14 2 != 0 || 383 < g || k.content.length != 64 * n then p else
    let ep := p.ep g e
    let key := fld x 32 24
    let is (c : Nat × Nat × Nat × Nat × Nat) : Bool := c.1 == k.src.toNat && c.2.1 == fld x 16 9 && c.2.2.1 == fld x 25 5
    if ep.state = 1 && ep.key = key && ep.conns.any is && p.dieUp (dieOfCore g) then
      let ws := chunksOf 64 n k.content
      let room := 32 - epHeldSram ep
      let overs := n - room
      let ring := (ws.drop room).map fun w => ({ data := w } : EpWord)
      let p := p.ringPut ep (epRing ep) ring
      let p := p.setEp g e { ep with
        unread := ep.unread ++ [(ws.take room).map (fun w => ({ data := w } : EpWord)) ++ (List.range overs).map fun i => ({ ring := some (epRing ep + i) } : EpWord)]
        conns := ep.conns.map fun c => if is c then (c.1, c.2.1, c.2.2.1, c.2.2.2.1 + n, c.2.2.2.2) else c }
      let p := p.addCtr .chRingWords g overs
      ((p.epGrants g e).wakeRecv g e).delivered k
    else
      let p := p.bump (if ep.state = 1 && ep.key != key || ep.lastKey != key then .chStaleDrop else .chClosedDrop) g
      p.delivered k

/-- CH_OPEN_REQUEST_RECEIVE (R254): the endpoint answers or holds the request; the queue die answers CLOSED for a die in
reset (R260). -/
def execChOpenRequestReceive (k : LPkt) (s : State) : Host.Outcome State Fault Refusal :=
  s.run fun p => p.arrive k 4 fun p =>
    let x := k.kspec.toNat
    let g := fld x 0 9
    if fld x 14 2 != 1 || 383 < g then p
    else if !p.dieUp (dieOfCore g) then p.answer k 5 (ackSpec (fld x 16 9) (fld x 25 5) 1 false 0) []
    else p.openReq g (fld x 9 5) k

/-- CH_CLOSE_REQUEST_RECEIVE (R253): the endpoint forgets the connection and recomputes its grants. -/
def execChCloseRequestReceive (k : LPkt) (s : State) : Host.Outcome State Fault Refusal :=
  s.run fun p => p.arrive k 4 fun p =>
    let x := k.kspec.toNat
    let g := fld x 0 9
    let e := fld x 9 5
    if fld x 14 2 != 2 || 383 < g then p else
    let ep := p.ep g e
    let is (c : Nat × Nat × Nat × Nat × Nat) : Bool := c.1 == k.src.toNat && c.2.1 == fld x 16 9 && c.2.2.1 == fld x 25 5
    let gone := ep.state = 1 && ep.key = fld x 32 24
    let p := p.setEp g e { ep with
      conns := if gone then ep.conns.filter (fun c => !is c) else ep.conns
      lastGranted := if gone then keepLast is ep.conns ep.lastGranted else ep.lastGranted
      pendingOpen := ep.pendingOpen.filter fun q =>
        !(q.src == k.src && fld q.kspec.toNat 16 9 == fld x 16 9 && fld q.kspec.toNat 25 5 == fld x 25 5) }
    (p.epGrants g e).wakeRecv g e

/-- CH_ACK_RECEIVE (R254, R255, R260): CREDIT, CLOSED or REFUSED for a connection; DELIVERED belongs to an effect. -/
def execChAckReceive (k : LPkt) (s : State) : Host.Outcome State Fault Refusal :=
  s.run fun p => p.arrive k 5 fun p =>
    let x := k.kspec.toNat
    let g := fld x 0 9
    let n := fld x 9 5
    let type := fld x 14 2
    let grant := fld x 32 32
    if type = 3 || 383 < g then p else
    let open? := match p.req k.tag.toNat with
      | some r => (match r.who with | .chOpen a b => a == g && b == n | _ => false)
      | none => false
    if bit x 16 then
      match p.req k.tag.toNat with
      | some r => if open? then { p with reqs := tabSet none p.reqs k.tag.toNat (some { r with retry := true }) } else p
      | none => p.bump .ldLateResp (p.inPort k)
    else
      let p := if open? then p.endReq k.tag.toNat else p
      let c := p.conn g n
      if c.state = 0 || c.state = 3 || c.state = 4 then p
      else if type = 0 then
        let up := grant - c.grant
        (p.setConn g n { c with state := 2, grant := c.grant + up, credits := c.credits + up }).wakeSend g n
      else
        let p := (p.setConn g n { c with state := 3 }).wakeSend g n
        if type = 2 then p.bump .chRefused g else p

/-- Is this the OPEN request of entry n of core c, answered RETRY? -/
def openRetry (c n : Nat) (e : Nat × Option Req) : Bool :=
  match e.2 with
  | some r => r.retry && (match r.who with | .chOpen a b => a == c && b == n | _ => false)
  | none => false
/-- CH_OPEN_RETRY_TIMER (R254): the OPEN request answered RETRY is sent again. -/
def execChOpenRetryTimer (c : CoreId) (n : Fin 32) (s : State) : Host.Outcome State Fault Refusal :=
  s.run fun p =>
    match p.reqs.find? (openRetry c n) with
    | some e => if (p.conn c n).state = 1 then (p.endReq e.1).sendOpen c n else p.endReq e.1
    | none => p

/-- CH_STALL_EXPIRY (R261): a CH_SEND blocked beyond its connection's STALL_US faults its thread. -/
def execChStallExpiry (t : ThreadId) (s : State) : Host.Outcome State Fault Refusal :=
  s.run fun p =>
    let th := p.thr t
    match th.wait with
    | .chSend n _ _ =>
      if th.state != .blocked then p else
      let p := (p.bump .chStall (coreOf t)).raise .chStall (dieOfCore (coreOf t)) th.ctx t n
      p.thrFault t fChStall th.waitPc th.waitInst
    | _ => p

/-! ## Synchronisation objects -/

/-- Entries of one queue die's waiter table (R276). -/
def waiterMax : Nat := 8192
/-- KSPEC of a SYNC_RESP (Table 9.5). -/
def respSpec (obj op res core thr : Nat) : Nat := put 0 12 obj + put 12 3 op + put 15 3 res + put 18 9 core + put 27 6 thr

/-- A sync operation applied at the object's home (R274 to R276): it may fire the object, and is answered. -/
def Pkg.syncApply (p : Pkg) (k : LPkt) : Pkg :=
  p.arrive k 6 fun p =>
    let x := k.kspec.toNat
    let o := fld x 0 12
    let op := fld x 12 3
    let q := queueDie (halfOfObj o)
    let a := leNat (k.content.take 8)
    let b := leNat ((k.content.drop 8).take 8)
    let ob := p.sync o
    let ans (p : Pkg) (res : Nat) : Pkg := p.answer k 7 (respSpec o op res (fld x 16 9) (fld x 25 6)) (toLe 8 (p.sync o).ctr.toNat)
    let eff := op = 0 || op = 2 || op = 4
    let device := fld x 16 9 == 0x1FF
    if 4 < op || !p.dieUp q then p else
    let p := p.bump .syncOps q
    if !(ob.owner == fld x 32 8 || (device && ob.owner == 0x100)) || (eff && !device && (ob.binding == 1 || ob.binding == 3)) then ans p 3
    else if op = 0 then (ans (p.signalObj o (BitVec.ofNat 64 a)) 0).swapEval
    else if op = 2 then (ans (p.armObj o (a % 2 ^ 32)) 0).swapEval
    else if op = 4 then (ans (p.casObj o (BitVec.ofNat 64 a) (BitVec.ofNat 64 b)) 0).swapEval
    else if op = 3 then ans p 0
    else if (BitVec.ofNat 64 a).toInt ≤ ob.ctr.toInt then ans p 1
    else if waiterMax ≤ (p.waiters.filter fun w => halfOfObj w.obj == halfOfObj o).length then ans (p.bump .syncRetry q) 2
    else { p with waiters := p.waiters ++ [{ obj := o, threshold := BitVec.ofNat 64 a, pkt := k }] }

/-- Is this the WAIT of thread t, answered RETRY? -/
def syncRetry (t : Nat) (e : Nat × Option Req) : Bool :=
  match e.2 with
  | some r => r.retry && (match r.who with | .sync a => a == t | _ => false)
  | none => false
/-- SYNC_RETRY_TIMER (R276): the core resends a WAIT that was answered RETRY. -/
def execSyncRetryTimer (t : ThreadId) (s : State) : Host.Outcome State Fault Refusal :=
  s.run fun p =>
    match p.reqs.find? (syncRetry t) with
    | some (tag, some r) =>
      let y := (p.endReq tag).request r.pkt (.sync t)
      y.2.modThr t fun th => match th.wait with | .sync _ rd => { th with wait := .sync y.1 rd } | _ => th
    | _ => p

/-! ## Sump engines -/

/-- Elements of a contribution, decoded from its bytes. -/
def sumpVals (f : Nat) (n : Nat) (bs : List Byte) : List Nat :=
  (List.range n).map fun i => leNat ((bs.drop (i * sumpElt f)).take (sumpElt f))
/-- Value of one element of a float session. -/
def sumpVal (f code : Nat) : Val := fltDec (if f = 1 then fBF16 else fFP32) code
/-- What adding one element to its accumulator does (R269): the cell, out of range, non-finite. -/
def sumpAdd1 (f : Nat) (e : Int) (c : Cell) (code : Nat) : Cell × Bool × Bool :=
  if f = 2 then ({ c with acc := sgn 64 (unsgn 64 (c.acc + sgn 32 code)) }, false, false)
  else
    match sumpVal f code with
    | .nan _ => ({ c with st := 3 }, false, true)
    | .inf s => ({ c with st := combineSt c.st (if s then 2 else 1) }, false, true)
    | .fin s n d =>
      let q := qRne (qShift ⟨if s then -(n : Int) else n, d⟩ (63 - e))
      if 2 ^ 55 ≤ q.natAbs then ({ c with st := combineSt c.st (if s then 2 else 1) }, true, false)
      else ({ c with acc := sgn 64 (unsgn 64 (c.acc + q)) }, false, false)

/-- Add the elements of a packet to an engine's accumulators from a base: the accumulators, elements out of range, any
non-finite (R269). -/
def sumpAddAll (f : Nat) (e : Int) (base : Nat) (acc : Tab Cell) (codes : List Nat) : Tab Cell × Nat × Bool :=
  codes.zipIdx.foldl (fun a x =>
    let y := sumpAdd1 f e (tabGet ({} : Cell) a.1 (base + x.2)) x.1
    (tabSet ({} : Cell) a.1 (base + x.2) y.1, a.2.1 + b2n y.2.1, a.2.2 || y.2.2)) (acc, 0, false)

/-- The header fields R268 and Table 9.6 bound. -/
def sumpHdrOk (h : Rec) (half : Nat) : Bool :=
  fld h 40 2 != 3 && fld h 42 2 != 3 && decide (fld h 44 2 < 2) && fld h 46 2 == 0 && fld h 57 7 == 0 && fld h 82 14 == 0 &&
    fld h 115 13 == 0 && fld h 147 13 == 0 && fld h 172 4 == 0 && fld h 184 8 == 0 && fld h 301 3 == 0 && fld h 316 4 == 0 && fld h 344 168 == 0 &&
    decide (sgn 9 (fld h 48 9) ≤ 127) && decide (1 ≤ fld h 96 19) && decide (fld h 64 18 + fld h 96 19 ≤ 262144) && halfOfObj (fld h 160 12) == half

/-- Result code of one accumulator (R271): code, clamped, non-finite. -/
def sumpOut (h : Rec) (nanNeg : Bool) (c : Cell) : Nat × Bool × Bool :=
  let f := fld h 42 2
  let q : Q := if fld h 40 2 = 2 then ⟨c.acc, 1⟩ else qShift ⟨c.acc, 1⟩ (sgn 9 (fld h 48 9) - 63)
  if f = 2 then
    let v := match c.st with
      | 0 => qRne q
      | 1 => 2 ^ 31
      | 2 => -(2 ^ 31) - 1
      | _ => 0
    let w := clampI v (-(2 ^ 31)) (2 ^ 31 - 1)
    (unsgn 32 w, v != w, c.st != 0)
  else
    let fl := if f = 1 then fBF16 else fFP32
    let v : Val := if c.st = 3 then .nan nanNeg else if c.st = 1 then .inf false else if c.st = 2 then .inf true else qVal q false
    ((fltIeee fl .rne v).code, false, c.st != 0)

/-- Close a session (R270, R271): its extent is zero, its count object has binding none. -/
def Pkg.sumpClose (p : Pkg) (eng sid : Nat) : Pkg :=
  let h := (tabGet ({} : SumpSess) (p.sumpEng eng).sess sid).hdr
  let p := p.modSumpEng eng fun e => { e with
    acc := e.acc.filter fun x => !(decide (fld h 64 18 ≤ x.1) && decide (x.1 < fld h 64 18 + fld h 96 19))
    sess := tabSet ({} : SumpSess) e.sess sid {} }
  p.modSync (fld h 160 12) fun o => { o with binding := 0, index := 0 }
/-- A delivery that cannot be completed closes its session and faults its context. -/
def Pkg.sumpLost (p : Pkg) (eng sid cause : Nat) : Pkg :=
  let x := tabGet ({} : SumpSess) (p.sumpEng eng).sess sid
  if x.openF then (p.sumpClose eng sid).ctxFault (fld x.hdr 32 8) cause else p
/-- Close every open session of a context (R270); a delivery that has begun completes first (R277). -/
def Pkg.sumpCloseCtx (p : Pkg) (c : Nat) : Pkg :=
  (List.range 32).foldl (fun p eng => (List.range 16).foldl (fun p sid =>
    let x := tabGet ({} : SumpSess) (p.sumpEng eng).sess sid
    if x.openF && fld x.hdr 32 8 == c && !x.delivering then p.sumpClose eng sid else p) p) p

/-- Change an open session of an engine. -/
def Pkg.modSess (p : Pkg) (eng sid : Nat) (f : SumpSess → SumpSess) : Pkg :=
  p.modSumpEng eng fun e => { e with sess := tabMod ({} : SumpSess) e.sess sid fun x => if x.openF then f x else x }
/-- One local write of a delivery (R271, R282): made, held by its memory die, or failed. -/
def Pkg.sumpWrite (p : Pkg) (eng sid ctx a : Nat) (bs : List Byte) : Pkg :=
  if isWindowAddr a && p.dieUp (dieOfCore (windowCore a)) then p.store a bs
  else match p.devTest ctx a bs.length with
    | .ok => p.deviceWrite ctx a bs 0
    | .waits => (p.deviceWrite ctx a bs 0 (some (eng, sid))).modSess eng sid fun x => { x with writes := x.writes + 1 }
    | _ => (p.badAddress ctx a).sumpLost eng sid 7
/-- Results of a session (R271): per element its code, clamped, non-finite. -/
def Pkg.sumpOuts (p : Pkg) (eng sid : Nat) : List (Nat × Bool × Bool) :=
  let e := p.sumpEng eng
  let h := (tabGet ({} : SumpSess) e.sess sid).hdr
  (List.range (fld h 96 19)).map fun i => sumpOut h (Config.nanSign 200 p.free i 0) (tabGet ({} : Cell) e.acc (fld h 64 18 + i))
/-- Delivery of a fired session (R271): results to memory, or forwarded to the next sump under the header at DELIVER_ADDR; one whose
header must wait is held. -/
def Pkg.sumpDeliver (p : Pkg) (eng sid : Nat) : Pkg :=
  let h := (tabGet ({} : SumpSess) (p.sumpEng eng).sess sid).hdr
  let ctx := fld h 32 8
  let dst := fld h 272 24
  let addr := fld h 224 48
  if fld h 44 2 != 0 && p.devTest ctx addr 64 == .waits then p.modSess eng sid fun x => { x with held := true }
  else
    let outs := p.sumpOuts eng sid
    let p := { p with free := p.free + 1 }.modSess eng sid fun x => { x with held := false }
    let el := sumpElt (fld h 42 2)
    let bs := (outs.map fun o => toLe el o.1).flatten
    let sat := (outs.filter fun o => o.2.1).length
    let p := p.addCtr .sumpSat eng sat
    let p := if sat = 0 then p else p.setFlag .sumpStatus (queueDie (eng / 16)) 3
    let p := if outs.any fun o => o.2.2 then p.nonfinite ctx (queueDie (eng / 16)) 0 else p
    let who : Who := .sump (eng / 16) (eng % 16) sid
    let keep (y : Nat × Pkg) : Pkg := y.2.modSess eng sid fun x => { x with tags := x.tags ++ [y.1] }
    if fld h 44 2 = 0 then
      if p.isRemote dst then
        (pieces bs.length).foldl (fun p x => keep (p.request (p.mkPkt dst 10 0 (memSpec (addr + x.1) 0 x.2 ctx) ((bs.drop x.1).take x.2)) who)) p
      else (memParts addr bs.length).foldl (fun p x => p.sumpWrite eng sid ctx (addr + x.1) ((bs.drop x.1).take x.2)) p
    else if p.devClean ctx addr 64 then
      let fh := p.loadNum addr 64
      (pieces bs.length).foldl (fun p x => keep (p.request (p.mkPkt dst 3 0 (put 0 4 (fld h 297 4) + put 4 1 (fld h 296 1))
        (toLe 64 (setFld fh 128 19 (fld fh 128 19 + x.1 / el)) ++ (bs.drop x.1).take x.2)) who)) (p.deviceRead ctx addr 64 1)
    else (p.deviceCheck ctx addr 64).sumpLost eng sid (if p.poisoned addr 64 then 6 else 7)
/-- Deliveries that waited for their forward header go on (R310). -/
def Pkg.sumpResume (p : Pkg) : Pkg :=
  (List.range 32).foldl (fun p eng => ((p.sumpEng eng).sess.filter fun e => e.2.held).foldl (fun p e => p.sumpDeliver eng e.1) p) p

/-- Answer a SUMP_ADD packet: SYNC_RESP with op 7 (R264). -/
def Pkg.sumpAck (p : Pkg) (k : LPkt) (obj res : Nat) : Pkg := p.answer k 7 (respSpec obj 7 res 0x1FF 0) (toLe 8 (p.sync obj).ctr.toNat)

/-- Drop a packet that fails R268 (R270). -/
def Pkg.sumpDrop (p : Pkg) (k : LPkt) (eng obj ctx : Nat) (mismatch : Bool) : Pkg :=
  let q := queueDie (eng / 16)
  let p := (p.bump (if mismatch then .sumpMismatch else .sumpRefused) eng).setFlag .sumpStatus q (if mismatch then 0 else 1)
  (p.raise (if mismatch then .sumpMismatch else .sumpRefused) q ctx eng 0).sumpAck k obj 3

/-- SUMP_ADD_PACKET (R268 to R271): the session is opened or checked, the elements are added exactly, the count object is
signalled, and a session that fires is delivered. -/
def execSumpAddPacket (k : LPkt) (s : State) : Host.Outcome State Fault Refusal :=
  s.run fun p => p.arrive k 3 fun p =>
    if p.halted then p else
    let half := fld k.kspec.toNat 4 1
    let eng := 16 * half + fld k.kspec.toNat 0 4
    let h := leNat (k.content.take 64)
    let bs := k.content.drop 64
    let obj := fld h 160 12
    let ctx := fld h 32 8
    let el := sumpElt (fld h 40 2)
    let q := queueDie half
    if !p.dieUp q || k.content.length < 64 then p else
    let e := p.sumpEng eng
    let st := (p.ctx ctx).step
    if (st.state = 1 || st.state = 2) && 2 ^ 31 ≤ (fld h 192 32 + 2 ^ 32 - st.num % 2 ^ 32) % 2 ^ 32 then
      (p.bump .sumpStale eng).sumpAck k obj 0
    else
      let found := (List.range 16).find? fun i => (tabGet ({} : SumpSess) e.sess i).openF && fld (tabGet ({} : SumpSess) e.sess i).hdr 0 32 == fld h 0 32
      let opened : Option (Nat × Pkg) := match found with
        | some i => some (i, p)
        | none =>
          let free := (List.range 16).find? fun i => !(tabGet ({} : SumpSess) e.sess i).openF
          let lap := e.sess.any fun x => x.2.openF && decide (fld x.2.hdr 64 18 < fld h 64 18 + fld h 96 19) && decide (fld h 64 18 < fld x.2.hdr 64 18 + fld x.2.hdr 96 19)
          match free with
          | some i =>
            if !sumpHdrOk h half || lap || (p.sync obj).owner != ctx || (p.sync obj).binding != 0 then none
            else
              let p := p.modSumpEng eng fun e => { e with sess := tabSet ({} : SumpSess) e.sess i { openF := true, hdr := setFld h 128 19 0 } }
              some (i, p.modSync obj fun o => { o with ctr := 0, threshold := BitVec.ofNat 32 (fld h 176 8 + 1), binding := 3, index := 16 * (eng % 16) + i, armed := true, fired := false })
          | none => none
      match opened with
      | none => p.sumpDrop k eng obj ctx false
      | some (i, p) =>
        let ss := tabGet ({} : SumpSess) (p.sumpEng eng).sess i
        let n := if el = 0 then 0 else bs.length / el
        if setFld h 128 19 0 != ss.hdr || el = 0 || bs.length % el != 0 || fld h 96 19 < fld h 128 19 + n || ss.delivering then
          p.sumpDrop k eng obj ctx true
        else
          let f := fld h 40 2
          let ex := sgn 9 (fld h 48 9)
          let base := fld h 64 18 + fld h 128 19
          let r := sumpAddAll f ex base (p.sumpEng eng).acc (sumpVals f n bs)
          let len := fld h 96 19
          let times := (ss.added + n) / len - ss.added / len
          let p := p.modSumpEng eng fun e => { e with
            acc := r.1
            sess := tabSet ({} : SumpSess) e.sess i { ss with added := ss.added + n, range := ss.range || decide (0 < r.2.1), nonfin := ss.nonfin || r.2.2 } }
          let p := (p.addCtr .sumpElems eng n).addCtr .sumpRange eng r.2.1
          let p := if r.2.1 = 0 then p else p.setFlag .sumpStatus q 2
          let p := (List.replicate times ()).foldl (fun p _ => p.signalObj obj 1) p
          let p := if (tabGet ({} : SumpSess) (p.sumpEng eng).sess i).delivering then p.sumpDeliver eng i else p
          p.sumpAck k obj 0

/-- Every write of a delivery is acknowledged (R271): DONE_OBJ is signalled and the session closes. -/
def Pkg.sumpDone (p : Pkg) (eng sess : Nat) : Pkg :=
    let x := tabGet ({} : SumpSess) (p.sumpEng eng).sess sess
    if !(x.openF && x.delivering && x.tags.isEmpty && x.writes == 0 && !x.held) then p else
    let h := x.hdr
    let fab := fld h 320 24
    let p := if p.isRemote fab then
        (p.request (p.mkPkt fab 6 0 (put 0 12 (fld h 304 12) + put 16 9 0x1FF + put 32 8 (fld h 32 8)) (toLe 8 1)) .doneObj).2
      else p.signalObj (fld h 304 12) 1
    (p.sumpClose eng sess).swapEval

end Sys2Proof.Machine
end

