-- ==== Sys2Proof/Machine/Memory.lean ====
section
/-! DEFINITION. The memory class (R231, Table 8.13). -/

namespace Sys2Proof.Machine

/-- Send the MEM_READ requests of a remote read (R299): each remembers thread, operation and scratchpad offset. -/
def Pkg.remoteRead (p : Pkg) (t bg fab addr off n hint : Nat) : Pkg :=
  let th := p.thr t
  (pieces n).foldl (fun p x =>
    (p.request (p.mkPkt fab 8 th.slot (memSpec (addr + x.1) hint x.2 th.ctx) []) (.mem t bg (off + x.1))).2) p

/-- LDS: RS := the 8 bytes at the address; at once from this core's window, else in the background (R231). Its row names no
RL, so the access is always local (R226). -/
def execLds (t : ThreadId) (f : FmtM) (s : State) : Host.Outcome State Fault Refusal :=
  s.run fun p => p.issue t (.lds t f) fun p th =>
    let a := effAddr th f
    let w := (encode (.lds t f)).getD 0
    match p.memTest t a 8 false with
      | some c => .fault c
      | none =>
        if isWindowAddr a && windowCore a == coreOf t then
          if p.spBadIn (coreOf t) (windowOff a) 8 then .stop (p.spPoison t th.pc.toNat w)
          else .ok ((p.setThr t (th.setS f.rs.toNat (BitVec.ofNat 64 (p.num a 8)))).spRead (coreOf t) (windowOff a) 8)
        else .wait (p.setThr t (th.addBg 0 w (.loadWord f.rs.toNat a f.hint.toNat))) (.memData f.rs.toNat th.bgNext)

/-- The fabric address of an STS: R231 lets one be remote although its row names no RL; with RL zero the store is local and
no register is read (DEDUCED, log entry 19). -/
def stsFab (th : Thr) (f : FmtM) : Nat := if f.rl = 0 then 0 else rlFab (th.rs f.rl.toNat)

/-- STS: writes RS to the 8 bytes at the address; completes on TAG; a remote store is an effect (R231, R238). -/
def execSts (t : ThreadId) (f : FmtM) (s : State) : Host.Outcome State Fault Refusal :=
  s.run fun p => p.issue t (.sts t f) fun p th => needTag th f.tag.toNat p <|
    let a := effAddr th f
    let w := (encode (.sts t f)).getD 0
    let fab := stsFab th f
    let data := th.rs f.rs.toNat
    if p.isRemote fab then
      match memLimits a 8 with
      | some c => .fault c
      | none => stageEff p t (.writeWord fab a data f.hint.toNat) 8 fun th => th.addBg f.tag.toNat w (.staged none)
    else match p.memTest t a 8 true with
      | some c => .fault c
      | none => .ok (p.setThr t (th.addBg f.tag.toNat w (.storeWord a data f.hint.toNat)))

/-- MLD: copies RL[31:0] bytes from the address to scratchpad offset RS; completes on TAG (R231). -/
def execMld (t : ThreadId) (f : FmtM) (s : State) : Host.Outcome State Fault Refusal :=
  s.run fun p => p.issue t (.mld t f) fun p th => needTag th f.tag.toNat p <|
    let a := effAddr th f
    let w := (encode (.mld t f)).getD 0
    let n := rlLen (th.rs f.rl.toNat)
    let fab := rlFab (th.rs f.rl.toNat)
    let off := (th.rs f.rs.toNat).toNat
    let tests := [if off % 8 = 0 then none else some fAlignment, if p.isRemote fab then memLimits a n else p.memTest t a n false, p.spTest t off n true]
    match firstFault tests with
    | some c => .fault c
    | none =>
      if p.isRemote fab then
        .ok ((p.setThr t (th.addBg f.tag.toNat w (.remote (pieces n).length))).remoteRead t th.bgNext fab a off n f.hint.toNat)
      else .ok (p.setThr t (th.addParts f.tag.toNat w a n fun x => .load (a + x.1) (off + x.1) x.2 f.hint.toNat))

/-- MST: copies RL[31:0] bytes from scratchpad offset RS to the address; completes on TAG when every write is
acknowledged; a remote MST is an effect (R231, R238). -/
def execMst (t : ThreadId) (f : FmtM) (s : State) : Host.Outcome State Fault Refusal :=
  s.run fun p => p.issue t (.mst t f) fun p th => needTag th f.tag.toNat p <|
    let a := effAddr th f
    let w := (encode (.mst t f)).getD 0
    let n := rlLen (th.rs f.rl.toNat)
    let fab := rlFab (th.rs f.rl.toNat)
    let off := (th.rs f.rs.toNat).toNat
    let tests := [if off % 8 = 0 then none else some fAlignment, if p.isRemote fab then memLimits a n else p.memTest t a n true, p.spTest t off n false]
    match firstFault tests with
    | some c => .fault c
    | none =>
      if p.isRemote fab then stageEff p t (.write fab a off n f.hint.toNat) n fun th => th.addBg f.tag.toNat w (.staged none)
      else .ok (p.setThr t (th.addParts f.tag.toNat w a n fun x => .store (a + x.1) (off + x.1) x.2 f.hint.toNat))

/-- PREF: fetches RL[31:0] bytes into the memory-side cache under HINT; no data is returned (R231). -/
def execPref (t : ThreadId) (f : FmtM) (s : State) : Host.Outcome State Fault Refusal :=
  s.run fun p => p.issue t (.pref t f) fun p th =>
    let a := effAddr th f
    let n := rlLen (th.rs f.rl.toNat)
    match (if p.isRemote (rlFab (th.rs f.rl.toNat)) then memLimits a n else p.memTest t a n false) with
    | some c => .fault c
    | none =>
      if p.isRemote (rlFab (th.rs f.rl.toNat)) || !isStackAddr a || p.stackTest a n != .ok then .ok p
      else .ok ((p.devTouch a n false f.hint.toNat).lastUse f.hint.toNat a n)

/-- Can a waiting stash allocation of slot j still be released (R80): a backward item running, queued or landing? -/
def Pkg.releasePossible (p : Pkg) (j : Nat) : Bool :=
  (match (p.slot j).bwd with | some i => dKind i.desc == 1 | none => false) ||
    ((p.ing j 1).queue.any fun i => dKind i.desc == 1) || !(p.ing j 1).opens.isEmpty
/-- EV_STASH_EXHAUSTED: the waiting item is killed and its context faults with cause 2 (R80). -/
def Pkg.stashExhausted (p : Pkg) (t pc : Nat) (inst : W64) : Pkg :=
  let th := p.thr t
  (p.raise .stashExhausted (queueDie (halfOfSlot th.slot)) th.ctx th.slot 0).thrFaultAs t fStashExhausted pc inst 2

/-- STASH_ALLOC (R79, R231): RS := the device address, or 0 with STASH_RC when the answer is recompute. -/
def execStashAlloc (t : ThreadId) (f : FmtM) (s : State) : Host.Outcome State Fault Refusal :=
  s.run fun p => p.issue t (.stashAlloc t f) fun p th =>
    let v := th.rs f.rl.toNat
    let n := rlLen v
    let w := (encode (.stashAlloc t f)).getD 0
    if n % 8 != 0 then .fault fAlignment
    else if n < 8 || 4128768 < n then .fault fIllegalOperand
    else
      let j := th.slot
      let mb := match p.theItem t with | some i => dMb i.desc | none => 0
      let layer := fld v.toNat 32 16
      let cls := fld v.toNat 48 1
      match p.stashAlloc j mb layer cls (ceilDiv n 65536) with
      | (.addr a, p) => .ok (p.modThr t fun th => th.setS f.rs.toNat (BitVec.ofNat 64 a))
      | (.recompute, p) => .ok (p.modThr t fun th => { th.setS f.rs.toNat 0 with st := th.st ||| 2#64 })
      | (.spilling, p) =>
        .wait (p.modSlot j fun s => { s with stashPend := s.stashPend ++ [(t.val, layer, cls, ceilDiv n 65536)] }) (.stash f.rs.toNat)
      | (.wait, p) =>
        if !p.releasePossible j then .stop (p.stashExhausted t th.pc.toNat w)
        else
          let was := (p.slot j).holding
          let p := p.modSlot j fun s => { s with
            stashWait := s.stashWait ++ [(t.val, layer, cls, ceilDiv n 65536)], holdSince := if was then s.holdSince else p.now }
          let p := p.setFlag .slotStatus j 2
          .wait (if was then p else p.sendGrant j 0) (.stash f.rs.toNat)

/-- STASH_FIND (R81, R231): the address of this micro-batch's allocation, 0 when none, after its pages are resident. -/
def execStashFind (t : ThreadId) (f : FmtM) (s : State) : Host.Outcome State Fault Refusal :=
  s.run fun p => p.issue t (.stashFind t f) fun p th =>
    let v := th.rs f.rl.toNat
    let j := th.slot
    let mb := match p.theItem t with | some i => dMb i.desc | none => 0
    let layer := fld v.toNat 32 16
    let cls := fld v.toNat 48 1
    match (p.slot j).stashOf mb layer cls with
    | none => .ok (p.modThr t fun th => th.setS f.rs.toNat 0)
    | some a =>
      if a.spilled then
        .wait (p.modSlot j fun s => { s with stashFind := s.stashFind ++ [(t.val, layer, cls)] }) (.stash f.rs.toNat)
      else .ok (p.modThr t fun th => th.setS f.rs.toNat (BitVec.ofNat 64 ((p.slot j).stashBase + a.first * 65536)))

end Sys2Proof.Machine
end

