-- ==== Sys2Proof/Machine/SlotEv.lean ====
section
/-! DEFINITION. Events of slots and queues: micro-batches landing, credits, dispatch, egress, stash, key/value relay
(R45, R53 to R70, R79 to R83, R128). -/

namespace Sys2Proof.Machine

/-! ## Landing (R53, R56, R57, R60 to R64, R82) -/

/-- Is the home queue die of slot j in service (R18)? Everything of the slot passes through it. -/
def Pkg.homeUp (p : Pkg) (j : Nat) : Bool := p.dieUp (queueDie (halfOfSlot j))
/-- Tests a micro-batch packet shares (R18, R51, R53): a home queue die in service, a slot that is bound, a sender that is the queue's. -/
def Pkg.fromSender (p : Pkg) (k : LPkt) (f : Nat → Nat → Ingress → Pkg) : Pkg :=
  let j := fld k.kspec.toNat 0 4
  let q := fld k.kspec.toNat 4 2
  if !p.homeUp j then p
  else if !(p.slot j).bound then (p.bump .qdStaleDrop j).setFlag .slotStatus j 4
  else if q = 3 then p
  else
    let g := p.ing j q
    if k.src.toNat != g.sender then p.bump .qdSenderDrop j else f j q g

/-- Is a header malformed (R57)? -/
def Pkg.badHead (p : Pkg) (j q : Nat) (h : Rec) : Bool :=
  let s := p.slot j
  mhPages h == 0 || decide ((p.ing j q).pages < mhPages h) ||
    (q == 0 && decide (fld s.res 0 32 < mhPages h)) || (q == 1 && decide (fld s.res 32 32 < mhPages h))

/-- Insert a block to relay in the order of its sender's pages (R82). -/
def insRelay (b : RelayBlk) : List RelayBlk → List RelayBlk
  | [] => [b]
  | x :: xs => if b.page0 < x.page0 then b :: x :: xs else x :: insRelay b xs

/-- Open a micro-batch from a header (R57), or fault the slot's context on a malformed one. -/
def Pkg.openHead (p : Pkg) (j q : Nat) (h : Rec) : Pkg :=
  let g := p.ing j q
  if mhFirst h < g.nextPage || g.opens.any fun o => mhFirst o.head == mhFirst h then p
  else if p.badHead j q h then
    let d := queueDie (halfOfSlot j)
    (((p.bump .qdBadHead j).setFlag .slotStatus j 5).raise .qdBadHead d (p.slot j).ctx j h).ctxFault (p.slot j).ctx 10
  else
    let p := p.phaseTick j
    let p := p.modIng j q fun g => { g with opens := insOpen { head := h } g.opens }
    if q = 2 && mhHop h + 1 < (p.slot j).ringN then
      p.modSlot j fun s => { s with relay := insRelay { head := setFld h 232 8 (mhHop h + 1), page0 := mhFirst h, bytes := [] } s.relay }
    else p

/-- Bytes of a list replaced from an offset; a gap is zero until its own bytes come. -/
def splice (l : List Byte) (off : Nat) (bs : List Byte) : List Byte :=
  (l ++ List.replicate (off - l.length) 0).take off ++ bs ++ l.drop (off + bs.length)

/-- Send the header and pages of one micro-batch or block piece: pages as segments of 8 KiB (Table 4.4). -/
def Pkg.sendPage (p : Pkg) (peer peerSlot q page : Nat) (bs : List Byte) : Pkg :=
  ((chunksOf 8192 8 bs).zipIdx).foldl (fun p x =>
    (p.send (p.mkPkt peer 1 peerSlot (put 0 4 peerSlot + put 4 2 q + put 8 3 x.2 + put 16 64 page) x.1)).2) p

/-- Are all bytes of a block in the relay buffer (R82)? -/
def RelayBlk.whole (b : RelayBlk) : Bool :=
  (List.range (mhPages b.head)).all fun i =>
    let n := if i + 1 = mhPages b.head then fld b.head 128 16 + 1 else 65536
    tabGet 0 b.landed (b.page0 + i) == 2 ^ ceilDiv n 8192 - 1
/-- Send a block under its number and first page at the next peer; the TAGs its packets take (R82, R128). -/
def Pkg.kvSend (p : Pkg) (j : Nat) (b : RelayBlk) (page0 : Nat) : (Nat × Nat) × Pkg :=
  let e := p.egr j 2
  let t0 := p.nextTag
  let p := (p.send (p.mkPkt e.peer 0 e.peerSlot (put 0 4 e.peerSlot + put 4 2 2) (toLe 48 (setFld b.head 160 64 page0)))).2
  let p := (List.range (mhPages b.head)).foldl (fun p i => p.sendPage e.peer e.peerSlot 2 (page0 + i) ((b.bytes.drop (65536 * i)).take 65536)) p
  ((t0, p.nextTag), p)
/-- Forward the oldest block that waits, when its pages are here and the next peer's credits allow it (R82, R83). The buffer keeps it until the
next peer's COMMIT_MB passes it, for a resend (R128; DESIGN CHOICE, log entry 61). -/
def Pkg.kvForward (p : Pkg) (j : Nat) : Pkg :=
  match (p.slot j).relay.find? fun b => b.sentAs.isNone with
  | none => p
  | some b =>
    let e := p.egr j 2
    let n := mhPages b.head
    if !p.homeUp j || !b.whole || e.cl < e.pageSeq + n || e.dl ≤ e.seq then p
    else
      let y := p.kvSend j b e.pageSeq
      let p := y.2.setEgr j 2 { y.2.egr j 2 with seq := e.seq + 1, pageSeq := e.pageSeq + n }
      p.modSlot j fun s => { s with relay := s.relay.map fun x => if x.page0 = b.page0 then { x with sentAs := some (e.seq, e.pageSeq), tags := [y.1] } else x }
/-- Blocks that the next peer's COMMIT_MB has passed leave the buffer, and the previous peer's grants go on (R83, R128). -/
def Pkg.kvFree (p : Pkg) (j : Nat) : Pkg :=
  let c := (p.egr j 2).commitMb
  (p.modSlot j fun s => { s with relay := s.relay.filter fun b => !(b.sentAs.any fun x => decide (x.1 < c)) }).grantCheck j 2 false
/-- A forwarded block that a test names goes again, from its header (R128). -/
def Pkg.kvResend (p : Pkg) (j : Nat) (hit : RelayBlk → Bool) : Pkg :=
  match (p.slot j).relay.find? fun b => b.sentAs.isSome && !b.noResend && hit b with
  | none => p
  | some b =>
    let y := p.kvSend j b (b.sentAs.getD (0, 0)).2
    let p := y.2.modSlot j fun s => { s with relay := s.relay.map fun x => if x.page0 = b.page0 then { x with tags := x.tags ++ [y.1] } else x }
    p.bump .ldReissue ((p.portTowards (p.egr j 2).peer (p.egr j 2).peerSlot).getD 0)

/-- A page written beyond the credit limit is dropped, counted and reported (R60). -/
def Pkg.creditViol (p : Pkg) (j page : Nat) : Pkg :=
  ((p.bump .qdCreditViol j).setFlag .slotStatus j 3).raise .qdCreditViol (queueDie (halfOfSlot j)) (p.slot j).ctx j page
/-- Land one segment of a page (R56, R60, R82). A page write below CL that names no opened micro-batch, its header not having come, is dropped
and counted nowhere (DESIGN CHOICE, log entry 176: the rule is silent; the sender sends the micro-batch again, R128). -/
def Pkg.landSeg (p : Pkg) (j q page seg : Nat) (bs : List Byte) : Pkg :=
  let g := p.ing j q
  let c := (p.slot j).ctx
  if g.clSent ≤ page then
    p.creditViol j page
  else if page < g.nextPage then (p.bump .qdStaleDrop j).setFlag .slotStatus j 4
  else
    match g.opens.find? fun o => decide (mhFirst o.head ≤ page) && decide (page < mhFirst o.head + mhPages o.head) with
    | none => p
    | some o =>
      if p.stale j (mhStep o.head) then (p.bump .qdStaleDrop j).setFlag .slotStatus j 4
      else if o.committed.contains page || 8192 < bs.length || g.pages = 0 then p
      else
        let p := p.phaseTick j
        let p := p.deviceWrite c (g.base + page % g.pages * 65536 + seg * 8192) bs 0
        let p := p.modIng j q fun g => g.modOpen (mhFirst o.head) fun x => { x with landed := tabMod 0 x.landed page fun v => v ||| 2 ^ seg }
        if q = 2 then
          let fill (b : RelayBlk) : RelayBlk :=
            if b.page0 = mhFirst o.head && b.page0 ≤ page then { b with bytes := splice b.bytes ((page - b.page0) * 65536 + seg * 8192) bs, landed := tabMod 0 b.landed page fun v => v ||| 2 ^ seg } else b
          (p.modSlot j fun s => { s with relay := s.relay.map fill }).kvForward j
        else p

/-- PAGE_WRITE_RECEIVE (R60): a page write is landed, or dropped as a credit violation or as stale. -/
def execPageWriteReceive (k : LPkt) (s : State) : Host.Outcome State Fault Refusal :=
  s.run fun p => p.arrive k 1 fun p => p.fromSender k fun j q _ =>
    p.landSeg j q (fld k.kspec.toNat 16 64) (fld k.kspec.toNat 8 3) k.content

/-- MB_HEAD_RECEIVE (R57, R64): the home queue die checks a header and opens its micro-batch or block; one of a stale step is
discarded as it comes to the head. -/
def execMbHeadReceive (k : LPkt) (s : State) : Host.Outcome State Fault Refusal :=
  s.run fun p => p.arrive k 0 fun p => p.fromSender k fun j q _ =>
    let p := p.openHead j q (leNat (k.content.take 48))
    p.postReady j q ((p.ing j q).opens.length + 1)

/-- LANDING_PAGE_COMMIT (R62): a landing page's last write is acknowledged; a complete micro-batch is posted. -/
def execLandingPageCommit (slot : SlotId) (q : Fin 3) (page : Nat) (s : State) : Host.Outcome State Fault Refusal :=
  s.run fun p =>
    if !p.homeUp slot then p else
    let g := p.ing slot q
    match g.opens.find? fun o => decide (mhFirst o.head ≤ page) && decide (page < mhFirst o.head + mhPages o.head) with
    | none => p
    | some o =>
      let need := 2 ^ ceilDiv (mhPageBytes o.head page) 8192 - 1
      if o.committed.contains page || tabGet 0 o.landed page &&& need != need then p
      else
        let p := p.modIng slot q fun g => g.modOpen (mhFirst o.head) fun x => { x with committed := x.committed ++ [page] }
        ((p.postReady slot q (g.opens.length + 1)).ctxEval (p.slot slot).ctx).swapEval

/-! ## Credits (R58, R59, R67) -/

/-- CREDIT_REPEAT_TIMER (R59): the latest grant again, while the sender has anything still to land. -/
def execCreditRepeatTimer (slot : SlotId) (q : Fin 3) (s : State) : Host.Outcome State Fault Refusal :=
  s.run fun p =>
    let g := p.ing slot q
    if p.homeUp slot && (p.slot slot).bound && g.pages != 0 && (!g.opens.isEmpty || g.nextPage < g.clSent) then p.sendGrant slot q else p

/-- Free egress micro-batches that COMMIT_MB has passed (R67). -/
def Pkg.egrFree (p : Pkg) (j q : Nat) : Pkg :=
  let e := p.egr j q
  let gone := e.queue.filter fun m => decide (m.seq < e.commitMb)
  let p := p.setEgr j q { e with queue := e.queue.filter fun m => !decide (m.seq < e.commitMb) }
  gone.foldl (fun p m => p.egrRelease j m.first m.pages) p

/-- CREDIT_RECEIVE (R59, R67, R68): each field by maximum; egress past COMMIT_MB is freed; STASH_HOLD marks the waiting item. -/
def execCreditReceive (k : LPkt) (s : State) : Host.Outcome State Fault Refusal :=
  s.run fun p => p.arrive k 2 fun p =>
    let j := fld k.kspec.toNat 0 4
    let q := fld k.kspec.toNat 4 2
    let e := p.egr j q
    if !p.homeUp j then p
    else if !(p.slot j).bound then (p.bump .qdStaleDrop j).setFlag .slotStatus j 4
    else if q = 3 || e.peer != k.src.toNat then p else
    let c := k.content
    let hold := leNat ((c.drop 16).take 4) % 2 == 1
    let p := p.phaseTick j
    let p := p.setEgr j q { e with
      cl := Nat.max e.cl (leNat (c.take 8)), dl := Nat.max e.dl (leNat ((c.drop 8).take 4)), commitMb := Nat.max e.commitMb (leNat ((c.drop 12).take 4)), hold := hold }
    let p := if q = 2 then (p.kvFree j).kvForward j else p.egrFree j q
    let p := (p.markHold j 0).markHold j 1
    p.ctxEval (p.slot j).ctx

/-! ## Dispatch and egress (R66 to R71) -/

/-- SEQUENCER_DISPATCH (R70): the sequencer of a half dispatches its choice. -/
def execSequencerDispatch (half : Half) (s : State) : Host.Outcome State Fault Refusal :=
  s.run fun p =>
    match p.seqChoice (b2n half) with
    | none => p
    | some x => p.dispatchItem x.1 x.2

/-- EGRESS_PAGE_COMMIT (R66): an output page of the running item commits; the last one allows its end event. -/
def execEgressPageCommit (slot : SlotId) (dir : Fin 2) (page : Nat) (s : State) : Host.Outcome State Fault Refusal :=
  s.run fun p =>
    if !p.homeUp slot then p else
    match (p.slot slot).pos dir with
    | none => p
    | some i =>
      if tabGet 0 i.egrWritten page = 0 || i.egrDone.contains page then p
      else
        let p := p.modPos slot dir fun i => { i with egrDone := i.egrDone ++ [page] }
        (p.tryEnd slot dir).swapEval

/-- Content of the MB_HEAD of an egress micro-batch (R55, Table 4.5). -/
def egrHead (m : EgrMb) : Rec :=
  put 0 24 (dMb m.desc) + put 24 8 (dKind m.desc) + put 32 16 (fld m.desc 64 16) + put 64 32 (dStep m.desc) + put 96 32 m.pages
    + put 128 16 (fld m.desc 224 16) + put 160 64 m.page0

/-- Stream one egress micro-batch as far as the receiver's limits allow (R67). -/
def Pkg.streamMb (p : Pkg) (j q : Nat) (m : EgrMb) : EgrMb × Pkg :=
  let e := p.egr j q
  let s := p.slot j
  let base := fld s.bind 768 48
  let size := fld s.bind (768 + 64) 32
  if !m.headSent && e.dl ≤ m.seq then (m, p) else
  let t0 := p.nextTag
  let p := if m.headSent then p else (p.send (p.mkPkt e.peer 0 e.peerSlot (put 0 4 e.peerSlot + put 4 2 q) (toLe 48 (egrHead m)))).2
  let n := Nat.min m.pages (e.cl - m.page0)
  let at_ (i : Nat) : Nat := base + (m.first + i) % size * 65536
  let len (i : Nat) : Nat := if i + 1 = m.pages then fld m.desc 224 16 + 1 else 65536
  let idx := ((List.range n).drop m.sent).takeWhile fun i => p.devClean s.ctx (at_ i) (len i)
  let p := idx.foldl (fun p i => (p.deviceRead s.ctx (at_ i) (len i) 1).sendPage e.peer e.peerSlot q (m.page0 + i) (p.load (at_ i) (len i))) p
  let n := m.sent + idx.length
  -- a page whose memory waits is read later; one that cannot be read faults the context
  let p := if n < Nat.min m.pages (e.cl - m.page0) then p.deviceCheck s.ctx (at_ n) (len n) else p
  ({ m with headSent := true, sent := n, tags := if p.nextTag = t0 then m.tags else m.tags ++ [(t0, p.nextTag)], allSentNs := if n = m.pages then p.now else m.allSentNs }, p)

/-- Stream the egress queue of slot j in order: a micro-batch starts after its predecessor is all sent. -/
def Pkg.streamGo (j q : Nat) : List EgrMb → List EgrMb → Pkg → List EgrMb × Pkg
  | done, [], p => (done, p)
  | done, m :: ms, p =>
    let r := p.streamMb j q m
    if r.1.sent < r.1.pages then (done ++ r.1 :: ms, r.2) else Pkg.streamGo j q (done ++ [r.1]) ms r.2
def Pkg.stream (p : Pkg) (j q : Nat) : Pkg :=
  let r := Pkg.streamGo j q [] (p.egr j q).queue p
  -- a poisoned page has faulted the context meanwhile; its egress queue stays
  r.2.setEgr j q { r.2.egr j q with queue := r.1 }

/-- EGRESS_STREAM (R67). -/
def execEgressStream (slot : SlotId) (dir : Fin 2) (s : State) : Host.Outcome State Fault Refusal :=
  s.run fun p => if p.homeUp slot && (p.slot slot).bound then p.stream slot dir else p

/-- Send a micro-batch again from its header (R128). -/
def Pkg.mbResend (p : Pkg) (j q : Nat) (hit : EgrMb → Bool) : Pkg :=
  let e := p.egr j q
  if e.queue.any hit then
    ((p.setEgr j q { e with queue := e.queue.map fun m => if hit m then { m with headSent := false, sent := 0, tags := [] } else m }).bump .ldReissue
      ((p.portTowards e.peer e.peerSlot).getD 0)).stream j q
  else p

/-- MB_RESEND_TIMEOUT (R128): all pages are sent and COMMIT_MB has not passed the micro-batch. The timer of a slot's forward direction is also
that of the blocks its relay has forwarded (DESIGN CHOICE, log entry 61). -/
def execMbResendTimeout (slot : SlotId) (dir : Fin 2) (s : State) : Host.Outcome State Fault Refusal :=
  s.run fun p =>
    if !p.homeUp slot then p else
    match (p.egr slot dir).queue.find? fun m => m.headSent && m.sent == m.pages && !m.noResend with
    | none => if dir = 0 then p.kvResend slot fun _ => true else p
    | some m => p.mbResend slot dir fun x => x.seq == m.seq

/-- KV_RELAY_FORWARD (R83): a relayed block goes on once the next peer's credits allow it. -/
def execKvRelayForward (slot : SlotId) (s : State) : Host.Outcome State Fault Refusal :=
  s.run fun p => p.kvForward slot

/-- The first queued item that is late is marked, with its event. -/
def Pkg.lateQueued (p : Pkg) (j q : Nat) (hit : Item → Bool) (ev : Pkg → Item → Pkg) : Pkg :=
  match (p.ing j q).queue.findIdx? hit with
  | none => p
  | some n =>
    match (p.ing j q).queue[n]? with
    | none => p
    | some i => ev (p.modIng j q fun g => { g with queue := g.queue.set n { i with late := true } }) i
/-- DEADLINE_LATE (R45): the window end of a started item, running or queued, has passed before its end event. -/
def execDeadlineLate (slot : SlotId) (backward : Bool) (s : State) : Host.Outcome State Fault Refusal :=
  s.run fun p =>
    let q := b2n backward
    let now := p.icount (queueDie (halfOfSlot slot))
    let hit (i : Item) : Bool := i.window != 0 && !i.late && i.startNs.any fun st => decide (st + i.window < now)
    let ev (p : Pkg) (i : Item) : Pkg := p.raise .deadlineLate (queueDie (halfOfSlot slot)) (p.slot slot).ctx slot i.desc
    match (p.slot slot).pos q with
    | some i => if hit i then ev (p.modPos slot q fun i => { i with late := true }) i else p.lateQueued slot q hit ev
    | none => p.lateQueued slot q hit ev

/-! ## Stash (R79 to R81) -/

/-- The register a thread waits in for a stash answer. -/
def stashRd (th : Thr) : Nat := match th.wait with | .stash rd => rd | _ => 0
/-- Try again the allocations that waited, in order; the first that still waits stops (R80). -/
def Pkg.stashRetry (p : Pkg) (j : Nat) : List (Nat × Nat × Nat × Nat) → Pkg
  | [] => p
  | (t, layer, cls, n) :: rest =>
    let mb := match (p.slot j).fwd with | some i => dMb i.desc | none => 0
    let drop (p : Pkg) : Pkg := p.modSlot j fun s => { s with
      stashWait := s.stashWait.filter (fun w => w.1 != t), stashPend := s.stashPend.filter fun w => w.1 != t }
    match p.stashAlloc j mb layer cls n with
    | (.addr a, p) => (((drop p).resume t fun th => th.setS (stashRd th) (BitVec.ofNat 64 a))).stashRetry j rest
    | (.recompute, p) => (((drop p).resume t fun th => { th.setS (stashRd th) 0 with st := th.st ||| 2#64 })).stashRetry j rest
    | (.spilling, p) => p
    | (.wait, p) =>
      if !p.releasePossible j then p.stashExhausted t (p.thr t).waitPc (p.thr t).waitInst
      else if (p.slot j).stashWait.any fun w => w.1 == t then p
      else
        let was := (p.slot j).holding
        let p := (drop p).modSlot j fun s => { s with stashWait := s.stashWait ++ [(t, layer, cls, n)], holdSince := if was then s.holdSince else p.now }
        let p := p.setFlag .slotStatus j 2
        if was then p else p.sendGrant j 0

/-- STASH_WAIT_GRANTED (R80): releases let a waiting layer-input allocation go on, or no release can come. -/
def execStashWaitGranted (slot : SlotId) (s : State) : Host.Outcome State Fault Refusal :=
  s.run fun p =>
    let was := (p.slot slot).holding
    (p.stashRetry slot (p.slot slot).stashWait).holdEnd slot was

/-- Waiting STASH_FINDs whose pages are resident get their addresses (R81). -/
def Pkg.findAnswer (p : Pkg) (j : Nat) : Pkg :=
  (p.slot j).stashFind.foldl (fun p (w : Nat × Nat × Nat) =>
    let mb := match p.theItem w.1 with | some i => dMb i.desc | none => 0
    match (p.slot j).stashOf mb w.2.1 w.2.2 with
    | some a =>
      if a.spilled then p
      else (p.modSlot j fun s => { s with stashFind := s.stashFind.filter fun x => x.1 != w.1 }).resume w.1 fun th =>
        th.setS (stashRd th) (BitVec.ofNat 64 ((p.slot j).stashBase + a.first * 65536))
    | none => p) p

/-- Is a request of the stash of (slot, micro-batch) still unanswered? -/
def Pkg.stashBusy (p : Pkg) (j mb : Nat) : Bool :=
  p.reqs.any fun e => match e.2 with
    | some r => (match r.who with | .stashSpill a b => a == j && b == mb | .stashFetch a b => a == j && b == mb | _ => false)
    | none => false

/-- SPILL_FETCH_COMPLETE (R81): spilled pages of a micro-batch are back in the stash. -/
def execSpillFetchComplete (slot : SlotId) (mb : BitVec 24) (s : State) : Host.Outcome State Fault Refusal :=
  s.run fun p =>
    if p.stashBusy slot mb.toNat then p else
    let s := p.slot slot
    let back := s.stash.filter fun a => a.mb == mb.toNat && a.spilled && a.fetch.isSome
    if s.offFab == 0 && back.any fun a => p.devTest s.ctx (s.offBase + a.first * 65536) (a.pages * 65536) == .waits ||
        p.devTest s.ctx (s.stashBase + a.fetch.getD 0 * 65536) (a.pages * 65536) == .waits then p else
    let p := if s.offFab != 0 then p else
      back.foldl (fun p a => p.deviceCheck s.ctx (s.offBase + a.first * 65536) (a.pages * 65536)) p
    (p.stashBack slot mb.toNat).findAnswer slot

/-- STASH_SPILL_DONE (R79, R81): a spill has ended; its stash pages are free, and what waited for it goes on. -/
def execStashSpillDone (slot : SlotId) (mb : BitVec 24) (s : State) : Host.Outcome State Fault Refusal :=
  s.run fun p =>
    if p.stashBusy slot mb.toNat then p else
    let s := p.slot slot
    let gone := s.stash.filterMap fun a => if a.mb = mb.toNat then a.spillAt.map fun f => (s.stashBase + f * 65536, s.offBase + a.first * 65536, a.pages * 65536) else none
    if s.offFab == 0 && gone.any fun x => p.devTest s.ctx x.1 x.2.2 == .waits || p.devTest s.ctx x.2.1 x.2.2 == .waits then p else
    let p := if s.offFab != 0 then p else gone.foldl (fun p x =>
      match p.devTest s.ctx x.1 x.2.2, p.devTest s.ctx x.2.1 x.2.2 with
      | .ok, .ok => p.copyBytes x.1 x.2.1 x.2.2
      | .ok, _ => p.badAddress s.ctx x.2.1
      | _, _ => p.badAddress s.ctx x.1) p
    let p := p.modSlot slot fun s => { s with
      stash := (s.stash.filter fun a => !(a.mb == mb.toNat && a.dead)).map fun a => if a.mb = mb.toNat then { a with spillAt := none } else a }
    (p.stashRetry slot (p.slot slot).stashPend).stashFetchAll slot

end Sys2Proof.Machine
end

