-- ==== Sys2Proof/Machine/Secure.lean ====
section
/-! DEFINITION. Securing (R400 to R416): the local copy, parity parts and pieces, journal pages, reports, the choice of the
next capture, and the end of a restore. -/

namespace Sys2Proof.Machine

/-! ## Device traffic to synchronisation objects -/

/-- The device's own sync operation (R264, R363): SIGNAL 0, WAIT 1, READ 3 on an object of another device, remembered. -/
def Pkg.devSync (p : Pkg) (fab obj op ctx a : Nat) (who : Who) : Pkg :=
  (p.request (p.mkPkt fab 6 0 (put 0 12 obj + put 12 3 op + put 16 9 0x1FF + put 32 8 ctx) (toLe 8 a)) who).2
/-- A device signal to an object here or elsewhere. -/
def Pkg.devSignal (p : Pkg) (fab obj ctx v : Nat) (who : Who) : Pkg :=
  if p.isRemote fab then p.devSync fab obj 0 ctx v who else p.signalObj obj (BitVec.ofNat 64 v)

/-! ## The policy header (Table 15.1) and the securing area -/

def scK (h : Rec) : Nat := fld h 80 5
def scM (h : Rec) : Nat := fld h 85 3
def scN (h : Rec) : Nat := scK h + scM h
def scMember (h : Rec) : Nat := fld h 88 5
def scBase (h : Rec) : Nat := fld h 192 12
def scStripe (h : Rec) : Nat := fld h 232 24
def scJratio (h : Rec) : Nat := if fld h 208 8 = 0 then 64 else fld h 208 8
/-- Pages of one generation: the local copy and the pieces held. -/
def scGenPages (h : Rec) : Nat := scStripe h + scM h * (scStripe h / scK h)
def scGenBase (h : Rec) (g : Nat) : Nat := fld h 256 48 + g * scGenPages h * 65536
/-- Bytes of a part, S of R407. -/
def scPart (h : Rec) : Nat := scStripe h / scK h * 65536
/-- Base of piece e of a generation. -/
def scPiece (h : Rec) (g e : Nat) : Nat := scGenBase h g + scStripe h * 65536 + e * scPart h
/-- Coefficient g(e, d) of R407. -/
def scCoef (h : Rec) (e d : Nat) : Nat := gfInv (Nat.xor (gfExp (scK h + e)) (gfExp d))
/-- Rotation in which this member contributes part d, and in which it holds piece e. -/
def scRotOfPart (h : Rec) (d : Nat) : Nat := (scMember h + scN h - d % scN h) % scN h
def scRotOfPiece (h : Rec) (e : Nat) : Nat := (scMember h + 2 * scN h - scK h - e) % scN h

/-- Buffers, size and pin of a tensor entry (Table 15.2). -/
def tnBuf (t : Rec) (par : Nat) : Nat := if par = 0 then fld t 0 48 else fld t 64 48
def tnPages (t : Rec) : Nat := fld t 128 32
def tnPin (t : Rec) : Nat := fld t 160 2
def tnBuddy (t : Rec) : Nat := fld t 168 24

/-- Ranges of one tensor by stack: (stack, first page in stack, pages). -/
def stackRanges (base pages : Nat) : List (Nat × Nat × Nat) :=
  let per := stackSize / 65536
  let a := base / 65536
  (stacksOf base (pages * 65536)).map fun s =>
    let lo := Nat.max a (s * per)
    let hi := Nat.min (a + pages) ((s + 1) * per)
    (s, lo - s * per, hi - lo)
/-- Entries of the memory dies' tensor tables (R308): (tensor, stack, first page, pages) in allocation order. -/
def tensorRows (ts : List Rec) : List (Nat × Nat × Nat × Nat) :=
  (ts.zipIdx.map fun (t, n) =>
    let bufs := if fld t 0 48 = fld t 64 48 then [fld t 0 48] else [fld t 0 48, fld t 64 48]
    (bufs.map fun b => (stackRanges b (tnPages t)).map fun r => (n, r)).flatten).flatten
/-- The rows of memory die m. -/
def rowsOfDie (ts : List Rec) (m : Nat) : List (Nat × Nat × Nat × Nat) := (tensorRows ts).filter fun r => memDieOfStack r.2.1 == m
/-- Fill the tensor tables (R402). -/
def Pkg.fillTensors (p : Pkg) (ts : List Rec) : Pkg :=
  (List.range 8).foldl (fun p m => p.modMemDie m fun d => { d with
    tensors := (rowsOfDie ts m).zipIdx.map fun (r, i) => (i, r.2), changed := [], written := [] }) p

/-- Read and clear the counters of a tensor (R309). -/
def Pkg.readChanged (p : Pkg) (ts : List Rec) (n : Nat) : Nat × Pkg :=
  (List.range 8).foldl (fun (a : Nat × Pkg) m =>
    ((rowsOfDie ts m).zipIdx).foldl (fun (a : Nat × Pkg) x =>
      if x.1.1 = n then
        (a.1 + tabGet 0 (a.2.memDie m).changed x.2,
         a.2.modMemDie m fun d => { d with changed := tabSet 0 d.changed x.2 0, written := tabSet 0 d.written x.2 0 })
      else a) a) (0, p)

/-- Dirty pages of a tensor's buffer, by page index, and the package with their bits cleared (R309). -/
def Pkg.takeDirty (p : Pkg) (t : Rec) (par : Nat) : List Nat × Pkg :=
  let b := tnBuf t par / 65536
  let ds := (List.range (tnPages t)).filter fun i => p.pageDirty (b + i)
  (ds, ds.foldl (fun p i => p.setDirty (b + i) false) p)

/-! ## Journal (R409) -/

/-- Stream journal pages of a tensor to its buddy, tagged with the step. -/
def Pkg.sendJournal (p : Pkg) (n : Nat) (t : Rec) (par step : Nat) (pages : List Nat) (counted : Bool) : Pkg :=
  let c := p.secure.ctx
  let p := pages.foldl (fun p i =>
    let a := tnBuf t par + i * 65536
    let p := p.deviceRead c a 65536 1
    (pieces 65536).foldl (fun p x =>
      (p.request (p.mkPkt (tnBuddy t) 10 n (memSpec (a + x.1) 1 x.2 c) (p.load (a + x.1) x.2)) (.capture step (some n))).2) p) p
  if counted then
    { p with secure := { p.secure with attempt := p.secure.attempt.map fun x => { x with out := x.out + 8 * pages.length } } }
  else p

/-- Replace a page of a log by its latest version. -/
def jPut (l : List JPage) (g : JPage) : List JPage := (l.filter fun x => !(x.fab == g.fab && x.tensor == g.tensor && x.page == g.page)) ++ [g]
/-- Fold the pending log into the replica (R409). -/
def Secure.fold (s : Secure) : Secure := { s with replica := s.pendLog.foldl jPut s.replica, pendLog := s.newLog, newLog := [] }

/-- JOURNAL_PAGE_RECEIVE (R409): the buddy writes a page into the pending or the new log, or refuses it for want of pages. -/
def execJournalPageReceive (fab : BitVec 24) (tensor page step : Nat) (data : List Byte) (s : State) : Host.Outcome State Fault Refusal :=
  s.run fun p =>
    let x := p.secure
    let g : JPage := ⟨fab.toNat, tensor, page, step, data⟩
    let held := x.replica.length + x.pendLog.length + x.newLog.length
    let known := (x.replica ++ x.pendLog ++ x.newLog).any fun y => y.fab == g.fab && y.tensor == tensor && y.page == page
    if !x.active || (fld x.hdr 336 32 ≤ held && !known) then p
    else
      let later := match x.attempt with | some a => decide (a.step < step) | none => false
      { p with secure := if later then { x with newLog := jPut x.newLog g } else { x with pendLog := jPut x.pendLog g } }.bump .secJournalPages 0

/-! ## An attempt (R403, R406 to R408) -/

/-- Methods of one capture and the packing of the parity payload (R403): (methods, first pages, overflowing tensors). -/
def Secure.choose (s : Secure) (ch : Tab Nat) : List Rec → Nat → Nat → List Nat × Tab Nat × List Nat
  | [], _, _ => ([], [], [])
  | t :: ts, n, used =>
    let pages := tnPages t
    let changed := if tabGet false s.fresh n then tabGet 0 ch n else pages
    let want :=
      if tnPin t = 1 then 1 else if tnPin t = 2 then 2
      else if tabGet false s.overflow n then 1
      else if pages * 65536 < 64 * 2 ^ 20 then 2
      else if changed * 65536 * 256 ≤ scJratio s.hdr * (pages * 65536) then 2 else 1
    let later := ((ts.filter fun y => tnPin y == 1).map tnPages).sum
    let fits := decide (used + pages + later ≤ scStripe s.hdr)
    let m := if want = 1 && !fits && tnPin t != 1 then 2 else want
    let r := s.choose ch ts (n + 1) (if m = 1 then used + pages else used)
    (m :: r.1, if m = 1 then tabSet 0 r.2.1 n (used + 1) else r.2.1, if want = 1 && m = 2 then n :: r.2.2 else r.2.2)

/-- A capture of step n starts (R403, R406, R410): generation, methods, pieces zeroed, newly journalled tensors sent whole. -/
def Pkg.startCapture (p : Pkg) (n : Nat) : Pkg :=
  let s := p.secure
  let par := (p.ctx s.ctx).step.committed % 2
  let r := s.choose s.changed s.tensors 0 0
  let gen := 1 - s.gen
  let a : Capture := { step := n, gen := gen, methods := r.1, par := par, place := r.2.1 }
  let p := { p with secure := { s with
    attempt := some a, ordered := s.ordered + 1, reported := false, older := none, phase := 1, changed := []
    fresh := (List.range s.tensors.length).map fun i => (i, true)
    method := (r.1.zipIdx.map fun (m, i) => (i, m)).filter fun e => e.2 != 0
    overflow := [] } }
  let p := r.2.2.foldl (fun p i => (p.setFlag .secStatus p.primary 2).raise .secureOverflow p.primary s.ctx i 0) p
  let p := (List.range (scM s.hdr)).foldl (fun p e => p.store (scPiece s.hdr gen e) (List.replicate (scPart s.hdr) 0)) p
  -- tensors whose method is new as a journal go whole
  (s.tensors.zipIdx).foldl (fun p (t, i) =>
    if r.1.getD i 0 = 2 && tabGet 0 s.method i != 2 then p.sendJournal i t par n (List.range (tnPages t)) true else p) p

/-- Is the read of step n's captured state unfinished (R406)? -/
def Pkg.secBusy (p : Pkg) (c next : Nat) : Bool :=
  p.secure.active && p.secure.ctx == c && (match p.secure.attempt with | some a => !a.copyDone && !a.stopped && decide (a.step + 2 ≤ next) | none => false)

/-- Send one contributed part to its holders (R408). -/
def Pkg.sendPart (p : Pkg) (a : Capture) (d : Nat) : Pkg :=
  let s := p.secure
  let h := s.hdr
  let q := scRotOfPart h d
  let src := scGenBase h a.gen + d * scPart h
  let bs := p.load src (scPart h)
  let trailer := toLe 8 (put 0 48 a.step + put 48 5 q + put 53 5 d)
  let cut := (List.range (ceilDiv (scPart h) 8824)).map fun i => (i * 8824, Nat.min 8824 (scPart h - i * 8824))
  (List.range (scM h)).foldl (fun p e =>
    let holder := s.members.getD ((q + scK h + e) % scN h) 0
    let p := cut.foldl (fun p x =>
      (p.request (p.mkPkt holder 10 d (memSpec (scPiece h a.gen e + x.1) 1 (x.2 + 8) s.ctx) ((bs.drop x.1).take x.2 ++ trailer)) (.capture a.step none)).2) p
    { p with secure := { p.secure with attempt := p.secure.attempt.map fun y => { y with out := y.out + cut.length } } }) p

/-- CAPTURE_LOCAL_COPY_DONE (R406, R408): the parity tensors' committed buffers stand in the generation; the parts leave. -/
def execCaptureLocalCopyDone (s : State) : Host.Outcome State Fault Refusal :=
  s.run fun p =>
    let x := p.secure
    match x.attempt with
    | none => p
    | some a =>
      if !x.active || a.copyDone || a.stopped || p.halted then p
      else if x.tensors.any fun t => p.devTest x.ctx (tnBuf t a.par) (tnPages t * 65536) == .waits then p
      else
        let p := (x.tensors.zipIdx).foldl (fun p (t, i) =>
          if a.methods.getD i 0 = 1 then
            let src := tnBuf t a.par
            (p.deviceCheck x.ctx src (tnPages t * 65536)).copyBytes src (scGenBase x.hdr a.gen + (tabGet 1 a.place i - 1) * 65536) (tnPages t * 65536)
          else p) p
        let p := { p with secure := { p.secure with attempt := some { a with copyDone := true } } }
        (List.range (scK x.hdr)).foldl (fun p d => p.sendPart a d) p

/-- Product of a list of bytes with a coefficient, added to another list (R407). -/
def gfAxpy (c : Nat) (xs ys : List Byte) : List Byte := (xs.zip ys).map fun (x, y) => BitVec.ofNat 8 (Nat.xor (gfMul c x.toNat) y.toNat)

/-- A part's packet at its holder (R408): trailer checked, coefficient applied, bytes added, answered. -/
def Pkg.parityPart (p : Pkg) (k : LPkt) : Pkg :=
  let s := p.secure
  let h := s.hdr
  let n := k.content.length - 8
  let tr := leNat (k.content.drop n)
  let q := fld tr 48 5
  let d := fld tr 53 5
  let addr := fld k.kspec.toNat 0 48
  match s.attempt with
  | none => p.bump .secStalePart 0
  | some a =>
    let e := (List.range (scM h)).find? fun e => scRotOfPiece h e == q && decide (scPiece h a.gen e ≤ addr) && decide (addr + n ≤ scPiece h a.gen e + scPart h)
    match e with
    | some e =>
      if !s.active || a.stopped || fld tr 0 48 != a.step % 2 ^ 48 || scK h ≤ d || k.content.length < 8 then p.bump .secStalePart 0
      else
        let bs := gfAxpy (scCoef h e d) (k.content.take n) (p.load addr n)
        let p := (p.store addr bs).addCtr .secParityBytes 0 n
        let p := { p with secure := { p.secure with attempt := some { a with pieces := tabMod 0 a.pieces (32 * e + d) fun v => v + n } } }
        p.answer k 11 (put 0 48 addr) []
    | none => p.bump .secStalePart 0

/-- PARITY_PART_RECEIVE (R408). -/
def execParityPartReceive (k : LPkt) (s : State) : Host.Outcome State Fault Refusal :=
  s.run fun p => p.arrive k 10 fun p => if p.halted then p else p.parityPart k

/-- A part or journal page of an attempt is answered; a lost part fails the attempt (R408), a refused journal page makes its
tensor overflow (R409). -/
def Pkg.captureAck (p : Pkg) (step : Nat) (journal : Option Nat) (ok refused : Bool) : Pkg :=
  let s := p.secure
  let p := match journal with
    | some n => if refused then
        ({ p with secure := { s with overflow := tabSet false s.overflow n true } }.setFlag .secStatus p.primary 2).raise .secureOverflow p.primary s.ctx n 0
      else p
    | none => p
  { p with secure := { p.secure with attempt := p.secure.attempt.map fun a =>
    if a.step = step then { a with out := a.out - 1, failed := a.failed || !ok } else a } }

/-! ## Completion and reports (R404, R405, R410) -/

/-- Has this device completed its attempt? -/
def Secure.completed (s : Secure) : Bool :=
  match s.attempt with
  | none => false
  | some a => a.copyDone && a.out == 0 && !a.failed && !a.stopped &&
      (List.range (scM s.hdr)).all fun e => (List.range (scK s.hdr)).all fun d => tabGet 0 a.pieces (32 * e + d) == scPart s.hdr

/-- A capture is complete job-wide: its generation is the last complete one, the logs fold (R409, R410). -/
def Pkg.captureDone (p : Pkg) (step : Nat) : Pkg :=
  let s := p.secure
  match s.attempt with
  | none => p
  | some a =>
    if a.step != step then p else
    let p := { p with secure := { s with
      attempt := none, gen := a.gen, older := s.lastDone, lastDone := some step, phase := 0, capOpen := false }.fold }
    ((p.bump .secCaptures 0).setFlag .secStatus p.primary 0).raise .secureDone p.primary s.ctx 0 step

/-- Mean of a list of durations. -/
def meanNs (l : List Nat) : Nat := if l.isEmpty then 0 else l.sum / l.length
/-- The root plans the next capture (R405), times in ns. -/
def Pkg.planNext (p : Pkg) (step : Nat) : Pkg :=
  let s := p.secure
  let h := s.hdr
  let base := s.stepNs.take 8
  let d := if base.isEmpty then meanNs s.allNs else meanNs base
  let extra := (s.attNs.map fun x => x - d).sum
  let c := if base.isEmpty then fld h 96 32 * 1000000 else Nat.max 10000000 extra
  let m := 3600 * 10 ^ 18 / (fld h 0 32 * fld h 32 24)
  let t := Nat.max (10 * 10 ^ 9) (Nat.min (3600 * 10 ^ 9) (Nat.sqrt (2 * c * m)))
  let pin := fld h 64 16
  let k := if 0 < pin then pin else Nat.max 1 (if d = 0 then 1 else (2 * t + d) / (2 * d))
  { p with secure := { s with nextPlanned := step + k, interval := t / 1000000, cost := c / 1000000 } }

/-- Step policy fields the tree uses (Table 13.3). -/
def polRoot (pol : Rec) : Bool := bit pol 108
def polChildren (pol : Rec) : Nat := fld pol 112 8
def polParent (pol : Rec) : Nat := fld pol 128 24

/-- CAPTURE_REPORT (R410): once every child has reported, this device reports its attempt; the root ends it. -/
def execCaptureReport (s : State) : Host.Outcome State Fault Refusal :=
  s.run fun p =>
    let x := p.secure
    let pol := (p.ctx x.ctx).step.policy
    let count := (p.sync (scBase x.hdr)).ctr.toNat
    let overs := match x.attempt with | some a => a.failed || a.stopped | none => true
    if !x.active || x.reported || count % 2 ^ 32 + count / 2 ^ 32 < polChildren pol * x.ordered || !(x.completed || overs) then p
    else
      let good := x.completed && count / 2 ^ 32 == x.lost0
      let p := { p with secure := { x with reported := true, lost0 := count / 2 ^ 32 } }
      if polRoot pol then
        if good then
          let step := x.capStep
          (p.setObj (scBase x.hdr + 1) (BitVec.ofNat 64 step)).captureDone step |>.planNext step
        else if x.stopSent then { p with secure := { p.secure with capOpen := false, attempt := none, phase := 0 } } else p
      else
        let p := p.devSignal (polParent pol) (scBase x.hdr) 0 (if good then 1 else 2 ^ 32) .doneObj
        if (match x.attempt with | some a => a.stopped | none => false) then { p with secure := { p.secure with attempt := none, phase := 0 } } else p

/-- A device stops its attempt (R410): nothing more is sent, the generation is discarded. -/
def Pkg.stopCapture (p : Pkg) (step : Nat) : Pkg :=
  match p.secure.attempt with
  | some a =>
    if a.step = step then
      ({ p with secure := { p.secure with attempt := some { a with stopped := true } } }.dropReqs fun w => match w with
        | .capture n _ => n == step
        | _ => false)
    else p
  | none => p

/-- CAPTURE_ABANDON (R410): 8 committed steps have passed without DONE; the root sets the stop mark. -/
def execCaptureAbandon (s : State) : Host.Outcome State Fault Refusal :=
  s.run fun p =>
    let x := p.secure
    if !x.active || !polRoot (p.ctx x.ctx).step.policy || !x.capOpen || x.stopSent || x.sinceCap < 8 then p
    else
      let p := ((p.bump .secAbandoned 0).setFlag .secStatus p.primary 1).raise .secureAbandon p.primary x.ctx 0 x.capStep
      let p := p.setObj (scBase x.hdr + 2) (BitVec.ofNat 64 (x.capStep + 2 ^ 62))
      { p with secure := { p.secure with stopSent := true, capOpen := !x.reported, attempt := if x.reported then none else p.secure.attempt } }

/-- What the CAP a device has read means (R404, R410). -/
def Pkg.capRead (p : Pkg) (n v : Nat) : Pkg :=
  if v = n && (match p.secure.attempt with | some a => a.step != n | none => true) then p.startCapture n
  else if 2 ^ 62 ≤ v then p.stopCapture (v - 2 ^ 62)
  else p
/-- What the DONE a device has read means (R410). -/
def Pkg.doneRead (p : Pkg) (v : Nat) : Pkg := if p.secure.lastDone = some v then p else p.captureDone v

/-- The root orders a capture as it decides verdict 1 of step n, before it sets VERDICT (R404). -/
def Pkg.orderCapture (p : Pkg) (c n : Nat) : Pkg :=
  let x := p.secure
  if x.active && x.ctx == c && !x.capOpen && decide (x.nextPlanned ≤ n) then
    let p := p.setObj (scBase x.hdr + 2) (BitVec.ofNat 64 n)
    { p with secure := { p.secure with capOpen := true, capStep := n, sinceCap := 0, stopSent := false, attNs := [] } }
  else p

/-- Step n of `dur` ns has ended at the root: the durations R405 averages. -/
def Secure.tickStep (s : Secure) (n dur : Nat) : Secure :=
  if s.capOpen && s.capStep != n then { s with allNs := dur :: s.allNs, attNs := dur :: s.attNs }
  else { s with allNs := dur :: s.allNs, stepNs := (dur :: s.stepNs).take 8 }

/-- After verdict 1 of step n of context c (R404, R409): changed pages are read, journalled tensors' dirty pages leave, CAP
and DONE are read. -/
def Pkg.secVerdict1 (p : Pkg) (c n : Nat) : Pkg :=
  let x := p.secure
  if !x.active || x.ctx != c then p else
  let st := (p.ctx c).step
  let par := st.committed % 2
  let p := { p with secure := { x with sinceCap := x.sinceCap + 1 } }
  let p := (x.tensors.zipIdx).foldl (fun p (t, i) =>
    let r := p.readChanged x.tensors i
    let p := r.2
    let p := { p with secure := { p.secure with changed := tabMod 0 p.secure.changed i fun v => v + r.1 } }
    let d := p.takeDirty t par
    if tabGet 0 p.secure.method i = 2 then
      d.2.sendJournal i t par n d.1 (match p.secure.attempt with | some a => decide (n ≤ a.step) | none => false)
    else d.2) p
  let base := scBase x.hdr
  if polRoot st.policy || !p.isRemote (polParent st.policy) then
    (p.capRead n (p.sync (base + 2)).ctr.toNat).doneRead (p.sync (base + 1)).ctr.toNat
  else
    (p.devSync (polParent st.policy) (base + 2) 3 0 0 (.captureObj 0 n)).devSync (polParent st.policy) (base + 1) 3 0 0 (.captureObj 1 n)

/-! ## Restoring (R412 to R415) -/

/-- Explicit-stream entries of a seal (R368): index and counter pairs. -/
def sealStreams (sl : Rec) : List (Nat × Nat) :=
  let slots := popcount 16 (fld sl 640 16)
  let off := 1024 + 16 * 32 + slots * 448 + fld sl 608 5 * 192
  (List.range (fld sl 616 7)).map fun i => (fld sl (off + 192 * i) 64, fld sl (off + 192 * i + 64) 128)
/-- Cursors of a seal. -/
def sealCursors (sl : Rec) : List (Nat × Nat × Nat) :=
  let off := 1024 + 16 * 32 + popcount 16 (fld sl 640 16) * 448
  (List.range (fld sl 608 5)).map fun i => (fld sl (off + 192 * i) 64, fld sl (off + 192 * i + 64) 64, fld sl (off + 192 * i + 128) 64)

/-- Lowest unowned objects of a slot's home half. -/
def Pkg.freeObjs (p : Pkg) (half : Nat) : List Nat :=
  ((List.range 2048).map (half * 2048 + ·)).filter fun o => (p.sync o).owner == 0x1FF
/-- Take the lowest unowned object of a half for a version entry (R76, R273). -/
def Pkg.takeObj (p : Pkg) (half ctr : Nat) : Nat × Pkg :=
  let o := ((p.freeObjs half).head?).getD 0
  (o, p.setSync o { ctr := BitVec.ofNat 64 ctr, owner := 0x100, binding := 1 })
/-- Have both halves the objects that slots need, one for each? -/
def Pkg.objsFor (p : Pkg) (slots : List Nat) : Bool :=
  [0, 1].all fun h => decide ((slots.filter fun j => halfOfSlot j == h).length ≤ (p.freeObjs h).length)

/-- Free the version entries of a slot and their objects (R51, R415). -/
def Pkg.freeVers (p : Pkg) (j : Nat) : Pkg :=
  (List.range 8).foldl (fun p e =>
    let v := (p.slot j).ver e
    if v.state = 0 then p else (p.setVer j e { v with state := 0 }).freeObj v.obj) p

/-- Source of one tensor in a restore (Table 15.4): its code, 0 when exhausted. -/
def Secure.sourceOf (s : Secure) (hosted : Bool) (n : Nat) (r : TensorRestore) : Nat :=
  if hosted then 4
  else if tabGet 0 s.method n = 2 then (if r.fromJournal && !r.poisoned then 3 else 0)
  else if s.lastDone.isSome && r.fromLocal && !r.poisoned then 1
  else if r.fromParity && !r.poisoned then 2
  else 0

/-- What a restore of a step from seal `sl` leaves (R413 to R415): tensors in their buffers, streams rewound, the step state and the
versions of the slots as captured. -/
def Pkg.restoreApply (p : Pkg) (x : Secure) (ctx step : Nat) (sl : Rec) (bad : Bool) (codes : List Nat) (results : List TensorRestore) : Pkg :=
  let slots := p.slotsOf ctx
  let par := fld sl 128 64 % 2
  -- tensors
  let genOf := if x.lastDone = some step then x.gen else 1 - x.gen
  let place := (x.choose x.changed x.tensors 0 0).2.1
  let p := (x.tensors.zipIdx).foldl (fun p (t, i) =>
    let dst := tnBuf t par
    let len := tnPages t * 65536
    match codes.getD i 0 with
    | 1 => p.copyBytes (scGenBase x.hdr genOf + (tabGet 1 place i - 1) * 65536) dst len
    | 2 => p.store dst ((results.getD i ⟨false, false, false, false, []⟩).bytes.take len)
    | 3 => p.store dst ((results.getD i ⟨false, false, false, false, []⟩).bytes.take len)
    | _ => p) p
  -- a spare's pieces are rebuilt from the group: bytes no rule gives here
  let p := if codes.contains 2 then
      (List.range (scM x.hdr)).foldl (fun p e => p.storeFree (scPiece x.hdr genOf e) (scPart x.hdr)) p
    else p
  -- streams
  let p := if bad then (sealStreams sl).foldl (fun p e =>
      match p.streamAddr ctx e.1 with
      | some a => if p.loadNum (a + 16) 16 = e.2 then p else
          ((p.store (a + 16) (toLe 16 e.2)).setFlag .secStatus p.primary 4).raise .secureRewind p.primary ctx e.1 e.2
      | none => p) p
    else p
  -- step state and versions
  let p := p.modCtx ctx fun c => { c with step := { c.step with
    num := step, begun := true, committed := fld sl 128 64, lsExp := sgn 10 (fld sl 208 10), lsGood := fld sl 224 16
    lsOver := fld sl 384 64, cursors := sealCursors sl } }
  let p := slots.foldl (fun p j =>
    let p := p.freeVers j
    let y := p.takeObj (halfOfSlot j) 1
    y.2.setVer j 0 { state := 2, num := fld sl (1024 + 32 * j) 16, base := fld (p.slot j).bind 1536 48, gib := fld (p.slot j).bind 1584 16, obj := y.1 }) p
  let p := { p with secure := { p.secure with
    attempt := none, gen := genOf, lastDone := if x.lastDone.isSome then some step else x.lastDone, older := none, ordered := 0, lost0 := 0, reported := true
    nextPlanned := step + 1, capOpen := false, stepNs := [], allNs := [], attNs := []
    source := (codes.zipIdx).map fun (k, i) => (i, k) } }
  let p := p.setObj (scBase x.hdr) 0
  (p.bump .secRestores 0).setFlag .secStatus p.primary 3

/-- RESTORE_COMPLETE (R413 to R415): the tensors stand in their buffers or some are exhausted; the seal is compared and the
context's step state returns to the captured step. -/
def execRestoreComplete (ctx : CtxId) (results : List TensorRestore) (s : State) : Host.Outcome State Fault Refusal :=
  s.run fun p =>
    let x := p.secure
    match x.restoring with
    | none => p
    | some rec =>
      if x.ctx != ctx.val then p else
      let step := fld rec 0 61
      let lost := fld rec 128 6
      let hosted := (List.range (fld rec 136 11)).map fun i => fld rec (512 + 32 * lost + 32 * i) 32
      let sealA := fld rec 64 48
      let n := x.tensors.length
      let codes := (List.range n).map fun i => x.sourceOf (hosted.contains i) i (results.getD i ⟨false, false, false, false, []⟩)
      let report := ((codes.zipIdx).map fun (k, i) => toLe 8 (put 0 10 i + put 10 3 k + put 13 3 (b2n (k == 0)))).flatten
      let finish (p : Pkg) (st : Nat) (ps : List Byte) : Pkg :=
        let q := { p with secure := { p.secure with restoring := none, restoreReply := none, phase := 0 } }
        q.replyWaiting x.restoreReply st ps
      let p0 := p
      let p := p.deviceWrite ctx (fld rec 160 48) report 1
      let p := if (results.zipIdx).any fun (r, i) => r.poisoned && codes.getD i 0 == 0 then (p.raise .mdPoisonConsumed p.primary ctx 0 0).ctxFault ctx 6 else p
      if codes.any (· == 0) then finish (p.setFlag .secStatus p.primary 5) stGroupExhausted []
      else
        let p := p.deviceRead ctx sealA 128 1
        let sl := leNat (p.load sealA (fld (leNat (p.load sealA 8)) 32 32))
        let bad := (sealStreams sl).any fun e => match p.streamAddr ctx e.1 with
          | some a => p.loadNum (a + 16) 16 != e.2
          | none => true
        let auth := bit x.hdr 93
        let slots := p.slotsOf ctx
        if bad && !auth then finish p stSealMismatch []
        else if !p.objsFor (slots.filter fun j => ((p.slot j).vers.all fun e => e.2.state == 0)) then finish p0 stVersionObjects []
        else
          finish (p.restoreApply x ctx step sl bad codes results) 0 (tlv 0x0006 (toLe 8 step))

end Sys2Proof.Machine
end

