-- ==== Sys2Proof/Machine/Reshard.lean ====
section
/-! DEFINITION. A reshard (R348 to R352): reading, writing and acknowledging chunks, signals to destinations, completion. -/

namespace Sys2Proof.Machine

/-- Chunk size of a plan (Table 12.2). -/
def rsChunk (h : Rec) : Nat := 2 ^ fld h 88 5
/-- Staging buffer. -/
def rsStage (h : Rec) (buf : Nat) : Nat := fld h 160 48 + buf * rsChunk h
/-- Length of a move (Table 12.3). -/
def mvLen (m : Rec) : Nat := fld m 224 32 * 65536
def mvChunks (h m : Rec) : Nat := ceilDiv (mvLen m) (rsChunk h)
/-- Bytes of chunk k of a move. -/
def mvChunkLen (h m : Rec) (k : Nat) : Nat := Nat.min (rsChunk h) (mvLen m - k * rsChunk h)

def Pkg.modReshard (p : Pkg) (c : Nat) (f : Reshard → Reshard) : Pkg := p.modCtx c fun x => { x with reshard := f x.reshard }
/-- The moves of a context's reshard stop, and its requests are forgotten. -/
def Pkg.reshardStop (p : Pkg) (c : Nat) : Pkg :=
  (p.modReshard c fun r => { r with active := false, staged := none, writing := none, out := 0 }).dropReqs fun w => match w with
    | .reshard x => x == c
    | _ => false
/-- The reshard fails (R351). -/
def Pkg.reshardFail (p : Pkg) (c : Nat) : Pkg :=
  ((p.reshardStop c).modReshard c fun r => { r with failed := true }).raise .reshardFail p.primary c 0 0

/-- Read the next chunk into its staging buffer when its gate holds and the buffer is free (R350). -/
def Pkg.reshardRead (p : Pkg) (c : Nat) : Pkg :=
  let r := (p.ctx c).reshard
  match r.staged, r.moves[r.next.1]? with
  | none, some m =>
    let k := r.next.2
    let g := fld m 164 12
    let gate := k != 0 || g == 0xFFF || decide ((fld m 192 32 : Int) ≤ (p.sync g).ctr.toInt)
    if !gate || r.writing.any fun w => w.buf == k % 2 then p
    else
      let src := fld m 0 48 + k * rsChunk r.hdr
      let n := mvChunkLen r.hdr m k
      if !(isStackAddr src && isStackAddr (src + n - 1)) then p.reshardFail c
      else match p.memReady src n with
        | .waits => p
        | .ok =>
          if p.poisoned src n then p.reshardFail c
          else (p.copyBytes src (rsStage r.hdr (k % 2)) n (some (p.partOf (fld r.hdr 160 48)))).modReshard c fun r => { r with
            staged := some ⟨r.next.1, k, k % 2⟩, count := r.count + 1
            next := if k + 1 < mvChunks r.hdr m then (r.next.1, k + 1) else (r.next.1 + 1, 0) }
        | _ => p.reshardFail c
  | _, _ => p

/-- Send the chunk being written, with the same bytes each time (R350, R351). -/
def Pkg.reshardSend (p : Pkg) (c : Nat) (w : Chunk) : Pkg :=
  let r := (p.ctx c).reshard
  let m := r.moves.getD w.entry 0
  let n := mvChunkLen r.hdr m w.idx
  let dst := fld m 64 48 + w.idx * rsChunk r.hdr
  let src := rsStage r.hdr w.buf
  if p.isRemote (fld m 128 24) then
    let ps := pieces n
    let p := ps.foldl (fun p x => (p.request (p.mkPkt (fld m 128 24) 10 0 (memSpec (dst + x.1) 1 x.2 c) (p.load (src + x.1) x.2)) (.reshard c)).2) p
    p.modReshard c fun r => { r with writing := some w, out := ps.length, again := false }
  else if isStackAddr dst && isStackAddr (dst + n - 1) && p.stackTest dst n = .ok then
    (p.copyBytes src dst n (some (p.partOf (fld r.hdr 160 48)))).modReshard c fun r => { r with writing := some w, out := 0, again := false }
  else p.reshardFail c
/-- Begin to write the staged chunk. -/
def Pkg.reshardWrite (p : Pkg) (c : Nat) : Pkg :=
  let r := (p.ctx c).reshard
  match r.writing, r.staged with
  | none, some w => (p.modReshard c fun r => { r with staged := none, tries := 0 }).reshardSend c w
  | _, _ => p

/-- EV_RESHARD_DONE (R352): every move is acknowledged and DONE_OBJ has reached PEERS_IN. -/
def Pkg.reshardCheck (p : Pkg) (c : Nat) : Pkg :=
  let r := (p.ctx c).reshard
  if r.given && !r.failed && !r.complete && r.staged.isNone && r.writing.isNone && decide (r.moves.length ≤ r.next.1)
      && decide ((fld r.hdr 128 16 : Int) ≤ (p.sync (fld r.hdr 112 12)).ctr.toInt) then
    (p.modReshard c fun r => { r with active := false, complete := true }).raise .reshardDone p.primary c 0 0
  else p
/-- What may advance now: a read beside a write, then the next read (R350). In HALTED nothing advances (R451). -/
def Pkg.reshardAdvance (p : Pkg) (c : Nat) : Pkg :=
  if p.pkgState = 5 || !(p.ctx c).reshard.given then p
  else if !(p.ctx c).reshard.active then p.reshardCheck c
  else
    let p := (p.reshardRead c).reshardWrite c
    (if (p.ctx c).reshard.active then p.reshardRead c else p).reshardCheck c
/-- Every reshard after objects have changed. -/
def Pkg.reshardAll (p : Pkg) : Pkg :=
  ((p.ctxs.filter fun e => e.2.reshard.given).map (·.1)).foldl Pkg.reshardAdvance p

/-- The chunk being written is acknowledged: the destination's signal after its last one (R350). -/
def Pkg.reshardAcked (p : Pkg) (c : Nat) (w : Chunk) : Pkg :=
  let r := (p.ctx c).reshard
  let m := r.moves.getD w.entry 0
  let home (x : Rec) : Nat := if p.isRemote (fld x 128 24) then fld x 128 24 else 0
  let fab := home m
  let more := decide (w.idx + 1 < mvChunks r.hdr m) || (r.moves.drop (w.entry + 1)).any fun x => home x == fab
  let p := p.modReshard c fun r => { r with writing := none }
  if more || r.doneSent.contains fab then p
  else (p.modReshard c fun r => { r with doneSent := r.doneSent ++ [fab] }).devSignal fab (fld m 152 12) c 1 .doneObj

/-- RESHARD_CHUNK_ACK (R350, R351): every packet of the chunk is answered; it is sent again, fails the reshard at its third
failure, or lets the next chunk proceed. -/
def execReshardChunkAck (ctx : CtxId) (status : BitVec 8) (pathLost : Bool) (s : State) : Host.Outcome State Fault Refusal :=
  s.run fun p =>
    let r := (p.ctx ctx).reshard
    match r.writing with
    | none => p
    | some w =>
      if r.out != 0 || !r.active || p.pkgState = 5 then p
      else if !pathLost && status != 0 && status != 1 then p.reshardFail ctx
      else if pathLost || status = 1 || r.again then
        if 2 ≤ r.tries then p.reshardFail ctx
        else ((p.modReshard ctx fun r => { r with tries := r.tries + 1 }).reshardSend ctx w)
      else (p.reshardAcked ctx w).reshardAdvance ctx

/-- One packet of a chunk is answered or lost (R351): poison, denial and an unavailable stack fail the reshard at once; a packet
answered RETRY is sent again with its chunk, which counts (R300). -/
def Pkg.reshardPkt (p : Pkg) (c status : Nat) (lost : Bool) : Pkg :=
  if !lost && 2 ≤ status then p.reshardFail c
  else (if !lost && status == 1 && decide ((p.ctx c).reshard.tries < 2) then p.bump .mdRemoteRetry 14 else p).modReshard c fun r => { r with out := r.out - 1, again := r.again || lost || status == 1 }

/-- SYNC_OP_APPLY (R274 to R276): the operation is applied at the object's home; gates and signals it moves are acted on. -/
def execSyncOpApply (k : LPkt) (s : State) : Host.Outcome State Fault Refusal :=
  s.run fun p => (p.syncApply k).reshardAll

/-- SUMP_DELIVERY_COMPLETE (R271): every write is acknowledged; DONE_OBJ is signalled and the session closes. -/
def execSumpDeliveryComplete (half : Half) (engine : Fin 16) (sess : Fin 16) (s : State) : Host.Outcome State Fault Refusal :=
  s.run fun p => if p.halted then p else (p.sumpDone (16 * b2n half + engine) sess).reshardAll

/-! ## The end of a reshard (R352) -/

/-- Rebinds apply: bound-core masks replaced, thread reservations moved (R217, R352). -/
def Pkg.rebind (p : Pkg) (b : Rec) : Pkg :=
  let j := fld b 0 4
  let held := (p.slot j).reserved
  let p := if held then p.releaseSlot j else p
  let p := p.modSlot j fun s => { s with bind := setFld s.bind 0 384 (fld b 64 384) }
  if held then p.reserveSlot j else p
/-- At the end of a step (R352, R365): the flip under verdict 1, nothing otherwise. -/
def Pkg.reshardEnd (p : Pkg) (c : Nat) (commit : Bool) : Pkg :=
  let r := (p.ctx c).reshard
  if !r.given then p else
  let p := p.reshardStop c
  let p := if commit && r.complete then
      r.rebinds.foldl Pkg.rebind (p.setObj (fld r.hdr 96 12) (BitVec.ofNat 64 (fld r.hdr 32 32)))
    else p
  p.modReshard c fun _ => {}

end Sys2Proof.Machine
end

