-- ==== Sys2Proof/Machine/StepOps.lean ====
section
/-! DEFINITION. Sealing a step (R361 to R368): local readiness, the vote, the verdict and what it changes, the seal. -/

namespace Sys2Proof.Machine

/-! ## Step policy (Table 13.3) -/

def polBase (pol : Rec) : Nat := fld pol 96 12
def polParentBase (pol : Rec) : Nat := fld pol 152 12
def polSealBase (pol : Rec) : Nat := fld pol 192 48
def polSealSlots (pol : Rec) : Nat := fld pol 240 16

/-- Slots of a context that take part in its steps: all but a serving slot (R391). -/
def Pkg.stepSlots (p : Pkg) (c : Nat) : List Nat := (p.slotsOf c).filter fun j => !p.serving j
/-- Change the step state of a context. -/
def Pkg.modStep (p : Pkg) (c : Nat) (f : StepS → StepS) : Pkg := p.modCtx c fun x => { x with step := f x.step }

/-! ## Readiness (R361) -/

/-- Is the item one of step n? -/
def Item.ofStep (i : Item) (n : Nat) : Bool := dStep i.desc == n % 2 ^ 32
/-- Conditions 1 to 4 of R361 for one slot. -/
def Pkg.slotReady (p : Pkg) (j n : Nat) : Bool :=
  let s := p.slot j
  decide (s.itemsExpect ≤ s.itemsEnd) && (!(s.workOf 2).valid || s.optEnded) &&
    !(s.fwd.any (·.ofStep n)) && !(s.bwd.any (·.ofStep n)) && !((p.ing j 0).queue.any (·.ofStep n)) && !((p.ing j 1).queue.any (·.ofStep n)) &&
    ([0, 1].all fun q => (p.egr j q).queue.all fun m => dStep m.desc != n % 2 ^ 32) && s.transit.isEmpty && s.published.isEmpty
/-- No sump session of the context is open (R361 condition 5). -/
def Pkg.noSumps (p : Pkg) (c : Nat) : Bool := p.sumps.all fun e => e.2.sess.all fun x => !(x.2.openF && fld x.2.hdr 32 8 == c)
/-- Is the device locally ready (R361)? A FAULTED context and an aborted step wait for no work (R361, R371). -/
def Pkg.localReady (p : Pkg) (c : Nat) : Bool :=
  let x := p.ctx c
  x.state == .faulted || x.step.aborted || ((p.stepSlots c).all (fun j => p.slotReady j x.step.num) && p.noSumps c)

/-! ## The seal (R368) -/

/-- Entries of a context's tracking table: index and address. -/
def Pkg.trackEntries (p : Pkg) (c : Nat) : List (Nat × Nat) :=
  match p.roleBase c 1 with
  | none => []
  | some r => (List.range (Nat.min 4096 (r.pages * 512))).map fun i => (i, r.base + 128 * i)
/-- Section 5 of the seal: entries with a non-zero step field. -/
def Pkg.trackSection (p : Pkg) (c : Nat) : List (Nat × List Byte) :=
  (p.trackEntries c).filterMap fun e =>
    let b := p.load e.2 16
    if allZero b then none else some (e.1, b)
/-- Sum of a counter over cores. -/
def Pkg.sumCtr (p : Pkg) (c : Ctr) (gs : List Nat) : Nat := (gs.map fun g => p.ctr c g).sum

/-- The seal of the step of context c after verdict v (Table 13.6), with the tracking section taken before it was cleared. -/
def Pkg.sealBytes (p : Pkg) (c v : Nat) (track : List (Nat × List Byte)) : List Byte :=
  let st := (p.ctx c).step
  let slots := p.slotsOf c
  let cores := p.ctxCores c
  let diff (now was : Nat) : Nat := (now + 2 ^ 64 - was) % 2 ^ 32
  let fieldSum (i : Nat) : Nat := ((track.map fun e => leNat ((e.2.drop (4 * i)).take 4)).sum) % 2 ^ 32
  let vers := ((List.range 16).map fun j =>
    match if slots.contains j then (p.slot j).curEntry else none with
    | some e => toLe 4 (((p.slot j).ver e).num + 2 ^ 16)
    | none => toLe 4 0).flatten
  let phases := (slots.map fun j => ((List.range 7).map fun i => toLe 8 (tabGet 0 (p.slot j).phase i)).flatten).flatten
  let curs := (st.cursors.map fun x => toLe 8 x.1 ++ toLe 8 x.2.1 ++ toLe 8 x.2.2).flatten
  let strs := (st.usedStreams.map fun i => toLe 8 i ++ toLe 16 (match p.streamAddr c i with | some a => p.loadNum (a + 16) 16 | none => 0)).flatten
  let trks := (track.map fun e => toLe 4 e.1 ++ e.2).flatten
  let body := vers ++ phases ++ curs ++ strs ++ trks
  let h := put 0 32 0x4C41_4553 + put 32 32 (128 + body.length) + put 64 64 st.num + put 128 64 st.committed + put 192 8 c + put 200 2 v
    + put 208 10 (unsgn 10 st.lsExp) + put 224 16 st.lsGood + put 256 64 st.openNs + put 320 64 (p.icount p.primary) + put 384 64 st.lsOver
    + put 448 32 (diff (p.sumCtr .engRepeat cores) st.accRep0) + put 480 32 (diff (p.sumCtr .engSatCells cores) st.accSat0)
    + put 512 32 (diff (p.sumCtr .vecOverflow cores) st.vecOvf0) + put 544 32 (fieldSum 1) + put 576 32 (fieldSum 3)
    + put 608 5 st.cursors.length + put 616 7 st.usedStreams.length + put 624 13 track.length + put 640 16 ((slots.map (2 ^ ·)).sum)
  toLe 128 h ++ body
/-- Address of the seal of step n. -/
def sealAddr (pol : Rec) (n : Nat) : Nat := polSealBase pol + (if polSealSlots pol = 0 then 0 else n % polSealSlots pol) * 131072

/-! ## What a verdict changes (R364, R365, Table 13.5) -/

/-- Loss-scale state after verdict v (R364): exponent, good steps, overflow steps. -/
def lossScale (pol : Rec) (v : Nat) (e : Int) (good overs : Nat) : Int × Nat × Nat :=
  let dyn := bit pol 0
  if v = 1 then
    if dyn && decide (fld pol 40 16 ≤ good + 1) then (min (e + 1) (sgn 10 (fld pol 28 10)), 0, overs) else (e, (good + 1) % 2 ^ 16, overs)
  else if v = 2 then (if dyn then max (e - fld pol 1 3) (sgn 10 (fld pol 18 10)) else e, 0, (overs + 1) % 2 ^ 64)
  else (e, good, overs)

/-- Base-2 exponent of a positive FP32 code, rounded down. -/
def fp32Log2 (x : Nat) : Int := if x / 2 ^ 23 = 0 then (nlog2 x : Int) - 149 else (x / 2 ^ 23 : Nat) - 127
/-- A tracking entry after the push of verdicts 1 and 2 (R156). -/
def trackPush (e : Rec) : Rec :=
  let h := (fld e 128 4 + 1) % 16
  let n := Nat.min 16 (fld e 132 5 + 1)
  let e := setFld (setFld (setFld e (512 + 32 * h) 32 (fld e 0 32)) 128 4 h) 132 5 n
  let hmax := (List.range n).foldl (fun m i => Nat.max m (fld e (512 + 32 * ((h + 16 - i) % 16)) 32)) 0
  let emax : Int := if bit e 156 then 15 else 8
  let x : Int := if hmax = 0 then 0 else clampI (fp32Log2 hmax - emax + fld e 152 4) (-127) 127
  setFld (setFld e 144 8 (x + 127).toNat) 0 128 0
/-- Tracking entries at the end of a step (R156): pushed, or only cleared under verdict 3. -/
def Pkg.trackEnd (p : Pkg) (c v : Nat) : Pkg :=
  ((p.trackEntries c).foldl (fun p e =>
    let old := p.loadNum e.2 128
    let new := if v = 3 then setFld old 0 128 0 else trackPush old
    if new = old then p else p.store e.2 (toLe 128 new)) p).modCtx c fun x => { x with trackHost := [] }

/-- Publication (R77), or the return of STAGED entries. -/
def Pkg.versEnd (p : Pkg) (j : Nat) (commit : Bool) : Pkg :=
  match (List.range 8).find? fun e => ((p.slot j).ver e).state == 1 with
  | none => p
  | some e =>
    let v := (p.slot j).ver e
    if !commit then (p.setVer j e { v with state := 0 }).freeObj v.obj
    else
      let old := (p.slot j).curEntry
      let p := (p.setVer j e { v with state := 2 }).signalObj v.obj 1
      match old with
      | none => p
      | some o =>
        let w := (p.slot j).ver o
        ((p.setVer j o { w with state := 3 }).signalObj w.obj (-1)).retireCheck j o

/-- Egress micro-batches of a discarded step go (R365); those whose header has not left give their numbers back. -/
def Pkg.egrDrop (p : Pkg) (j q n : Nat) : Pkg :=
  let e := p.egr j q
  let gone := e.queue.filter fun m => dStep m.desc == n % 2 ^ 32
  let e := { e with queue := e.queue.filter fun m => dStep m.desc != n % 2 ^ 32 }
  let e := match gone.find? fun m => !m.headSent with
    | some m => { e with seq := m.seq, pageSeq := m.page0 }
    | none => e
  gone.foldl (fun p m => p.egrRelease j m.first m.pages) (p.setEgr j q e)
/-- The stash of a slot goes with its step: allocations, records with their version references, waits and traffic (R365). -/
def Pkg.stashDrop (p : Pkg) (j : Nat) : Pkg :=
  let recs := (p.slot j).stashRecs
  let p := recs.foldl (fun p r => p.unref j r) p
  let hold := (p.slot j).holding
  let p := p.modSlot j fun s => { s with stash := [], stashRecs := [], stashWait := [], stashPend := [], stashFind := [] }
  (p.holdEnd j hold).dropReqs fun w => match w with
    | .stashSpill x _ => x == j
    | .stashFetch x _ => x == j
    | _ => false
/-- Everything of step n at slot j that verdicts 2 and 3 discard (R365). -/
def Pkg.dropStep (p : Pkg) (j n : Nat) : Pkg :=
  let p := p.discardSlot j true fun i => i.ofStep n
  let p := p.discardQueued j 2 false fun i => i.ofStep n
  let p := (p.egrDrop j 0 n).egrDrop j 1 n
  (p.stashDrop j).modSlot j fun s => { s with relay := s.relay.filter fun b => mhStep b.head != n % 2 ^ 32 }

/-- Data cursors and explicit streams (Table 13.5). -/
def Pkg.cursorsEnd (p : Pkg) (c v : Nat) : Pkg :=
  let st := (p.ctx c).step
  let adv := v = 1 || (v = 2 && bit st.policy 4)
  if adv then p.modStep c fun s => { s with cursors := s.cursors.map fun x => (x.1, (x.2.1 + x.2.2) % 2 ^ 64, x.2.2) }
  else st.streams.foldl (fun p e =>
    match p.streamAddr c e.1 with
    | some a => if p.loadNum (a + 16) 16 = e.2 then p else p.store (a + 16) (toLe 16 e.2)
    | none => p) (st.usedStreams.foldl (fun p i =>
      match p.streamAddr c i with
      | some a => if tabGet 0 st.streams i = 0 then p.store (a + 16) (toLe 16 0) else p
      | none => p) p)

/-- TLVs of the reply to STEP_COMMIT and STEP_ABORT (Table 17.6). -/
def stepTlvs (n v : Nat) (addr : Option Nat) : List Byte :=
  tlv 6 (toLe 8 n) ++ tlv 0x87 (toLe 1 v) ++ (match addr with | some a => tlv 0x88 (toLe 8 a) | none => [])

/-- The step of context c ends under verdict v (R365); `forced` writes no seal (R367). -/
def Pkg.applyVerdict (p : Pkg) (c v : Nat) (forced : Bool) : Pkg :=
  let st := (p.ctx c).step
  let n := st.num
  let slots := p.stepSlots c
  let p := (p.slotsOf c).foldl Pkg.phaseTick p
  let track := p.trackSection c
  let p := if v = 1 then p else (slots.foldl (fun p j => p.dropStep j n) p).sumpCloseCtx c
  let p := (p.slotsOf c).foldl (fun p j => p.versEnd j (v = 1)) p
  let p := p.reshardEnd c (v = 1)
  let ls := lossScale st.policy v st.lsExp st.lsGood st.lsOver
  let p := (p.trackEnd c v).cursorsEnd c v
  let p := p.modStep c fun s => { s with
    state := if v = 1 then 3 else 4, committed := if v = 1 then s.committed + 1 else s.committed
    lsExp := ls.1, lsGood := ls.2.1, lsOver := ls.2.2, prevVerdict := v, verdict := v, verdictIn := false, aborted := false
    lastSeal := some (p.icount p.primary), replyCommit := none, replyAbort := [] }
  -- the seal objects return to the context
  let p := (List.range 5).foldl (fun p i => p.modSync (polBase st.policy + i) fun o => { o with owner := c }) p
  let p := p.dropReqs fun w => match w with
    | .seal x _ => x == c
    | _ => false
  let addr := sealAddr st.policy n
  let p := if forced then p else p.store addr (p.sealBytes c v track)
  let dur := p.icount p.primary - st.lastSeal.getD st.openNs
  let p := if p.secure.active && p.secure.ctx = c && polRoot st.policy then { p with secure := p.secure.tickStep n dur } else p
  let p := if v = 1 then p.secVerdict1 c n else p
  let p := p.replyWaiting st.replyCommit (if v = 1 then 0 else if v = 2 then stStepNonfinite else stStepAborted) (stepTlvs n v (some (if forced then 0 else addr)))
  let p := st.replyAbort.foldl (fun p t => p.replyWaiting (some t) (if v = 1 then stStepCommitted else 0) (stepTlvs n v none)) p
  let p := (p.raise .stepEnd p.primary c c v).bump (if v = 1 then .stepCommitted else if v = 2 then .stepNonfinite else .stepAborted) c
  -- what arrived or waits of the step is stale from now on (R64)
  let p := slots.foldl (fun p j => (List.range 3).foldl (fun p q => p.postReady j q ((p.ing j q).opens.length + 1)) p) p
  p.ctxEval c

/-! ## The vote (R362, R363) -/

/-- COUNT and the WAIT on the parent's VERDICT (R363 step 5). -/
def Pkg.voteCount (p : Pkg) (c : Nat) : Pkg :=
  let st := (p.ctx c).step
  let b := polParentBase st.policy
  (p.devSync (polParent st.policy) (b + st.num % 2) 0 c 1 (.seal c 2)).devSync (polParent st.policy) (b + 4) 1 c (4 * st.num + 1) (.seal c 3)
/-- The WAIT again, after a lost path (R363 step 5). -/
def Pkg.voteWait (p : Pkg) (c : Nat) : Pkg :=
  let st := (p.ctx c).step
  p.devSync (polParent st.policy) (polParentBase st.policy + 4) 1 c (4 * st.num + 1) (.seal c 3)

/-- The device votes, or decides when it is the root (R363 steps 2 to 5). -/
def Pkg.vote (p : Pkg) (c : Nat) (other missing : Bool) : Pkg :=
  let st := (p.ctx c).step
  let n := st.num
  let par := n % 2
  let mine := if other || st.localCause = 2 || (p.ctx c).state = .faulted then 2 ^ 32 else if st.nonfinite then 1 else 0
  let sum := (p.sync (polBase st.policy + 2 + par)).ctr.toNat + mine + (if missing then 2 ^ 32 else 0)
  let p := p.modStep c fun s => { s with
    voted := true, ready := s.ready || !other, limitHit := s.limitHit || other, timedOut := s.timedOut || missing
    localCause := if mine = 2 ^ 32 then 2 else if mine = 1 then 1 else 0, causeSent := sum != 0
    children := (p.sync (polBase st.policy + par)).ctr.toNat }
  if polRoot st.policy then
    let v := if 2 ^ 32 ≤ sum then 3 else if sum % 2 ^ 32 != 0 then 2 else 1
    let p := if v = 1 then p.orderCapture c n else p
    (p.setObj (polBase st.policy + 4) (BitVec.ofNat 64 (4 * n + v))).modStep c fun s => { s with verdict := v, verdictIn := true }
  else if sum != 0 then p.devSync (polParent st.policy) (polParentBase st.policy + 2 + par) 0 c sum (.seal c 1)
  else p.voteCount c

/-- SEAL_VOTE (R363): a locally ready device whose children are counted votes or decides. -/
def execSealVote (ctx : CtxId) (s : State) : Host.Outcome State Fault Refusal :=
  s.run fun p =>
    let st := (p.ctx ctx).step
    if st.state != 2 || st.voted || !p.localReady ctx || (p.sync (polBase st.policy + st.num % 2)).ctr.toInt < polChildren st.policy then p
    else p.vote ctx false false

/-- SEAL_LIMIT_EXPIRY (R363): missing readiness or children add the cause other. -/
def execSealLimitExpiry (ctx : CtxId) (s : State) : Host.Outcome State Fault Refusal :=
  s.run fun p =>
    let st := (p.ctx ctx).step
    if st.state != 2 || st.voted then p
    else
      let missing := decide ((p.sync (polBase st.policy + st.num % 2)).ctr.toInt < polChildren st.policy)
      let p := if missing then (p.raise .stepVoteTimeout p.primary ctx ctx st.num).bump .stepVoteTimeout ctx else p
      p.vote ctx (!p.localReady ctx) missing

/-- The verdict of the parent arrives (R363 step 6). -/
def Pkg.verdictGot (p : Pkg) (c : Nat) (value : W64) : Pkg :=
  let st := (p.ctx c).step
  if st.state != 2 || !st.voted || st.verdictIn then p
  else (p.setObj (polBase st.policy + 4) value).modStep c fun s => { s with verdict := (value.toNat - 4 * st.num) % 4, verdictIn := true }

/-- VERDICT_APPLY (R365): the verdict this device holds is applied in one act; seal and replies follow. -/
def execVerdictApply (ctx : CtxId) (s : State) : Host.Outcome State Fault Refusal :=
  s.run fun p =>
    let st := (p.ctx ctx).step
    if st.state = 2 && st.verdictIn then p.applyVerdict ctx st.verdict false else p

end Sys2Proof.Machine
end

