-- ==== Sys2Proof/Machine/Answers.lean ====
section
/-! DEFINITION. Answers to requests of this device, and requests that are lost (R127 to R130, R262, R264, R276, R299). -/

namespace Sys2Proof.Machine

/-- The request of a TAG goes again with a fresh one (R103, R127). -/
def Pkg.retag (p : Pkg) (tag : Nat) (r : Req) : Pkg :=
  let y := (p.endReq tag).send r.pkt
  let k := { r.pkt with tag := BitVec.ofNat 32 y.1 }
  let p := { y.2 with reqs := tabSet none y.2.reqs y.1 (some { r with pkt := k, retry := false }) }
  match r.who with
  | .sync t => p.modThr t fun th => match th.wait with
    | .sync x rd => if x = tag then { th with wait := .sync y.1 rd } else th
    | _ => th
  | .sump h e sid => p.modSumpEng (16 * h + e) fun g => { g with
      sess := tabMod ({} : SumpSess) g.sess sid fun x => { x with tags := x.tags.map fun t => if t = tag then y.1 else t } }
  | _ => p

/-- A remote memory operation of a thread faults (R299, R245). -/
def Pkg.memFault (p : Pkg) (t bg cause : Nat) : Pkg :=
  match (p.thr t).bg.find? fun b => b.id == bg with
  | some b => p.bgFault t b cause
  | none => p

/-- What ST_PATH_LOST does to the one who waits (R127). -/
def Pkg.whoLost (p : Pkg) (r : Req) : Pkg :=
  match r.who with
  | .sync t => (match (p.thr t).wait with
    | .sync x _ => if x = r.pkt.tag.toNat then p.thrFault t fPathLost (p.thr t).waitPc (p.thr t).waitInst else p
    | _ => p)
  | .mem t bg _ => p.memFault t bg fPathLost
  | .effect j g e => p.effLost r.pkt j g e
  | .chOpen g n => if (p.conn g n).state = 1 then (p.setConn g n { p.conn g n with state := 4 }).wakeSend g n else p
  | .chClose _ _ => p
  | .sump h e sid => p.sumpLost (16 * h + e) sid 4
  | .doneObj => p
  | .seal c stage => if stage = 2 then p else if (p.ctx c).step.state = 2 then p.voteWait c else p
  | .relay _ => (p.bump .ethRelayLost 0).setFlag .ethStatus p.primary 3
  | .capture step j => p.captureAck step j false false
  | .captureObj _ _ => p
  | .reshard c => p.reshardPkt c 0 true
  | .stashSpill j mb => (p.request r.pkt (.stashSpill j mb)).2
  | .stashFetch j mb => (p.slot j).stashFind.foldl (fun p w =>
      let here := match p.theItem w.1 with | some i => dMb i.desc == mb | none => false
      if here then p.thrFault w.1 fPathLost (p.thr w.1).waitPc (p.thr w.1).waitInst else p) p

/-- A request completes with ST_PATH_LOST (R127): counted, with its event, at the port it left by (R135). -/
def Pkg.pathLost (p : Pkg) (tag : Nat) (r : Req) : Pkg :=
  let port := r.via
  let p := ((p.endReq tag).bump .ldPathLost port).setFlag .portStatus port 5
  (p.raise .ldPathLost (linkDie port) noCtx tag stPathLost).whoLost r

/-- A LOSS, or the response limit, for an outstanding request (R127, R128). -/
def Pkg.lost (p : Pkg) (tag : Nat) (r : Req) : Pkg :=
  if isIdempotent r.pkt && r.reissues < 3 then
    (p.bump .ldReissue r.via).retag tag { r with reissues := r.reissues + 1 }
  else p.pathLost tag r

/-- Resend a micro-batch that a lost packet belongs to (R128); true when one was found. -/
def Pkg.lostPage (p : Pkg) (tag : Nat) : Bool × Pkg :=
  let hit (m : EgrMb) : Bool := !m.noResend && m.tags.any fun r => decide ((tag + 2 ^ 32 - r.1 % 2 ^ 32) % 2 ^ 32 < r.2 - r.1)
  let blk (b : RelayBlk) : Bool := !b.noResend && b.tags.any fun r => decide ((tag + 2 ^ 32 - r.1 % 2 ^ 32) % 2 ^ 32 < r.2 - r.1)
  (List.range 16).foldl (fun (a : Bool × Pkg) j =>
    let a := [0, 1].foldl (fun (a : Bool × Pkg) q =>
      if (a.2.egr j q).queue.any hit then (true, a.2.mbResend j q hit) else a) a
    if (a.2.slot j).relay.any blk then (true, a.2.kvResend j blk) else a) (false, p)

/-- LOSS_RECEIVE (R127, R128): the source reissues or completes the lost request, or resends the micro-batch. -/
def execLossReceive (k : LPkt) (s : State) : Host.Outcome State Fault Refusal :=
  s.run fun p => p.arrive k 14 fun p =>
    let tag := fld k.kspec.toNat 0 32
    match p.req tag with
    | some r => p.lost tag r
    | none =>
      let y := if fld k.kspec.toNat 32 4 < 2 then p.lostPage tag else (false, p)
      if y.1 then y.2 else p.bump .ldLateResp (p.inPort k)

/-- RESPONSE_LIMIT_EXPIRY (R128): no response and no LOSS within the limit. -/
def execResponseLimitExpiry (tag : BitVec 32) (s : State) : Host.Outcome State Fault Refusal :=
  s.run fun p =>
    match p.req tag.toNat with
    | some r => if r.retry then p else p.lost tag.toNat r
    | none => p

/-- Mark a request answered RETRY: it goes again at its retry timer (R276, R300). -/
def Pkg.markRetry (p : Pkg) (tag : Nat) (r : Req) : Pkg := { p with reqs := tabSet none p.reqs tag (some { r with retry := true }) }

/-- SYNC_RESP_RECEIVE (R264, R276, R363, R404): the answer of a sync operation or of a sump packet. -/
def execSyncRespReceive (k : LPkt) (s : State) : Host.Outcome State Fault Refusal :=
  s.run fun p => p.arrive k 7 fun p =>
    let tag := k.tag.toNat
    let res := fld k.kspec.toNat 15 3
    let v : W64 := BitVec.ofNat 64 (leNat (k.content.take 8))
    match p.req tag with
    | none => p.bump .ldLateResp (p.inPort k)
    | some r =>
      if res = 4 then p.pathLost tag r else
      match r.who with
      | .effect _ _ _ => p.effectResponse k
      | .sync t =>
        let th := p.thr t
        (match th.wait with
        | .sync x rd =>
          if x != tag || th.state != .blocked then p.endReq tag
          else if res = 2 then p.markRetry tag r
          else if res = 3 then (p.endReq tag).thrFault t fAddress th.waitPc th.waitInst
          else (p.endReq tag).resume t fun th => match rd with | some d => th.setS d v | none => th
        | _ => p.endReq tag)
      | .sump h e sid =>
        let p := p.endReq tag
        if res = 3 then p.sumpLost (16 * h + e) sid 4
        else p.modSumpEng (16 * h + e) fun g => { g with
          sess := tabMod ({} : SumpSess) g.sess sid fun x => { x with tags := x.tags.filter fun t => t != tag } }
      | .seal c stage =>
        let p := p.endReq tag
        if stage = 1 then p.voteCount c
        else if stage = 3 then (if res = 2 then p.voteWait c else if res = 1 then p.verdictGot c v else p)
        else p
      | .captureObj what n =>
        let p := p.endReq tag
        if res = 3 then p else if what = 0 then p.capRead n v.toNat else p.doneRead v.toNat
      | _ => p.endReq tag

/-- Where the bytes of a fetched stash page go (R81). -/
def SlotS.fetchDest (s : SlotS) (mb addr : Nat) : Option Nat :=
  (s.stash.find? fun a => a.mb == mb && a.spilled && a.fetch.isSome && decide (s.offBase + a.first * 65536 ≤ addr) &&
    decide (addr < s.offBase + (a.first + a.pages) * 65536)).map fun a =>
      s.stashBase + a.fetch.getD 0 * 65536 + (addr - (s.offBase + a.first * 65536))

/-- A remote read or write of a thread is answered (R231, R299). -/
def Pkg.memAnswer (p : Pkg) (t bg off st : Nat) (data : List Byte) : Pkg :=
  if st = 2 then p.memFault t bg fPoison
  else if st = 3 then p.memFault t bg fAddress
  else if st = 4 then p.memFault t bg fPathLost
  else
    match (p.thr t).bg.find? fun b => b.id == bg with
    | none => p
    | some b =>
      match b.kind with
      | .remote left =>
        let p := p.spStore (coreOf t) off data
        if left ≤ 1 then p.endBg t bg
        else p.modThr t fun th => { th with bg := th.bg.map fun x => if x.id = bg then { x with kind := .remote (left - 1) } else x }
      | _ => p

/-- MEM_RESP_RECEIVE (R299, R300, R351, R408, R409): MEM_RESP or MEM_WACK for a request of this device. -/
def execMemRespReceive (k : LPkt) (s : State) : Host.Outcome State Fault Refusal :=
  s.run fun p =>
    if k.pkind.toNat != 9 && k.pkind.toNat != 11 then p else
    p.arrive k k.pkind.toNat fun p =>
      let tag := k.tag.toNat
      let st := fld k.kspec.toNat 48 8
      match p.req tag with
      | none => p.bump .ldLateResp (p.inPort k)
      | some r =>
        match r.who with
        | .effect _ _ _ => p.effectResponse k
        | .reshard c => (p.endReq tag).reshardPkt c st false
        | who =>
          if st = 1 then p.markRetry tag r else
          let p := p.endReq tag
          match who with
          | .mem t bg off => p.memAnswer t bg off st k.content
          | .sump h e sid =>
            if st = 0 then p.modSumpEng (16 * h + e) fun g => { g with
              sess := tabMod ({} : SumpSess) g.sess sid fun x => { x with tags := x.tags.filter fun t => t != tag } }
            else p.sumpLost (16 * h + e) sid (if st = 3 then 7 else 4)
          | .capture step j => p.captureAck step j (st == 0) (st == 3)
          | .stashSpill j mb =>
            if st = 0 then p else if st = 4 then (p.request r.pkt (.stashSpill j mb)).2 else p.ctxFault (p.slot j).ctx 7
          | .stashFetch j mb =>
            if st = 0 then
              (match (p.slot j).fetchDest mb (fld r.pkt.kspec.toNat 0 48) with
              | some a => p.store a k.content
              | none => p)
            else if st = 4 then p.whoLost r
            else p.ctxFault (p.slot j).ctx (if st = 2 then 6 else 7)
          | _ => p

/-- Queue die of the half that waits for an answer; A.Q for what the device itself asks. -/
def Who.queue : Who → Nat
  | .sync t | .mem t _ _ => queueDie (halfOfCore (coreOf t))
  | .effect j _ _ | .stashSpill j _ | .stashFetch j _ => queueDie (halfOfSlot j)
  | .chOpen g _ | .chClose g _ => queueDie (halfOfCore g)
  | .sump h _ _ => queueDie h
  | _ => 14
/-- MEM_RETRY_TIMER (R300): a remote memory request answered RETRY goes again. -/
def execMemRetryTimer (tag : BitVec 32) (s : State) : Host.Outcome State Fault Refusal :=
  s.run fun p =>
    match p.req tag.toNat with
    | some r =>
      if r.retry && (r.pkt.pkind == 8 || r.pkt.pkind == 10) then
        (p.bump .mdRemoteRetry r.who.queue).retag tag.toNat r
      else p
    | none => p

/-- Stop-on-fault (R130): every context with a bound slot faults, nothing is reissued, every outstanding request completes
with ST_PATH_LOST. -/
def Pkg.stopAll (p : Pkg) (port : Nat) : Pkg :=
  let p := (p.setFlag .portStatus port 6).raise .ldStop (linkDie port) noCtx port 0
  let cs := (((List.range 16).filter fun j => (p.slot j).bound).map fun j => (p.slot j).ctx).eraseDups
  let p := cs.foldl (fun p c => p.ctxFault c 3) p
  let p := (List.range 16).foldl (fun p j => p.modSlot j fun x => { x with
    egr := x.egr.map fun e => (e.1, { e.2 with queue := e.2.queue.map fun m => { m with noResend := true } })
    relay := x.relay.map fun b => if b.sentAs.isSome then { b with noResend := true } else b }) p
  (p.reqs.foldl (fun p e => match e.2 with | some r => if (p.req e.1).isSome then p.pathLost e.1 r else p | none => p) p).dropReqs fun w => match w with
    | .stashSpill _ _ => true
    | _ => false

end Sys2Proof.Machine
end

