-- ==== Sys2Proof/Machine/Link.lean ====
section
/-! DEFINITION. Stage links as operations (R91 to R111, R118 to R131): flits on the wire, sending, replay, port states,
routing of packets, link loss. -/

namespace Sys2Proof.Machine

/-! ## Flits on the wire (R91 to R95) -/

/-- Lanes of a width code. -/
def laneCount (w : Nat) : Nat := if w = 0 then 16 else if w = 1 then 8 else 4
/-- Codeword of wire position w at W lanes (R95). -/
def wireCw (lanes w : Nat) : Nat := (w + w / lanes) % 2
/-- A codeword of a flit: its message symbols and parity (R94). -/
def flitCw (bs : List Byte) (c : Nat) : List Byte :=
  let m := (List.range 128).map fun i => (bs.getD (2 * i + c) 0).toNat
  (m ++ rsParity 8 m).map (BitVec.ofNat 8)
/-- Symbols of both codewords in the order of wire positions. -/
def interleave (lanes : Nat) : List Nat → List Byte → List Byte → List Byte
  | [], _, _ => []
  | w :: ws, a, b =>
    if wireCw lanes w = 0 then a.headD 0 :: interleave lanes ws a.tail b else b.headD 0 :: interleave lanes ws a b.tail
/-- A flit's 272 wire bytes. -/
def toWire (lanes : Nat) (bs : List Byte) : List Byte := interleave lanes (List.range 272) (flitCw bs 0) (flitCw bs 1)
/-- Symbols of codeword c, in ascending wire position. -/
def wireSyms (lanes c : Nat) (wire : List Byte) : List Nat :=
  (wire.zipIdx.filter fun x => wireCw lanes x.2 == c).map fun x => x.1.toNat
/-- A received flit, corrected, with the number of corrected symbols; none when a codeword is uncorrectable (R96). -/
def fromWire (lanes : Nat) (wire : List Byte) : Option (List Byte × Nat) :=
  let a := wireSyms lanes 0 wire
  let b := wireSyms lanes 1 wire
  if wire.length != 272 then none else
  match rsDecode 8 a [], rsDecode 8 b [] with
  | some x, some y =>
    let n := ((x.zip a).filter fun p => p.1 != p.2).length + ((y.zip b).filter fun p => p.1 != p.2).length
    some (((List.range 256).map fun i => BitVec.ofNat 8 ((if i % 2 = 0 then x else y).getD (i / 2) 0)), n)
  | _, _ => none

/-- The 256 bytes of a flit with its CRC under a sequence number (R91, R93). -/
def flitBytes (hdr : Nat) (payload : List Byte) (seq : Nat) : List Byte :=
  let bs := toLe 4 hdr ++ (payload ++ List.replicate (248 - payload.length) 0).take 248
  bs ++ toLe 4 (crc32c (Nat.xor (seq % 2 ^ 32) 0xFFFF_FFFF) bs)
/-- Does a received flit pass its CRC under a number? -/
def flitCrcOk (bs : List Byte) (seq : Nat) : Bool :=
  leNat ((bs.drop 252).take 4) == crc32c (Nat.xor (seq % 2 ^ 32) 0xFFFF_FFFF) (bs.take 252)

/-- Route header and content of a packet (Table 4.3). -/
def pktBytes (k : LPkt) : List Byte :=
  toLe 32 (put 0 24 k.dst.toNat + put 24 24 k.src.toNat + put 48 4 k.pkind.toNat + put 56 8 k.hops.toNat + put 64 32 k.epoch.toNat
    + put 96 32 k.tag.toNat + put 128 14 k.content.length + put 144 16 k.flow.toNat + put 160 96 k.kspec.toNat) ++ k.content
/-- The packet of received payload bytes. -/
def bytesPkt (bs : List Byte) : LPkt :=
  let h := leNat (bs.take 32)
  { dst := BitVec.ofNat 24 (fld h 0 24), src := BitVec.ofNat 24 (fld h 24 24), pkind := BitVec.ofNat 4 (fld h 48 4), hops := BitVec.ofNat 8 (fld h 56 8)
    epoch := BitVec.ofNat 32 (fld h 64 32), tag := BitVec.ofNat 32 (fld h 96 32), flow := BitVec.ofNat 16 (fld h 144 16)
    kspec := BitVec.ofNat 96 (fld h 160 96), content := (bs.drop 32).take (fld h 128 14) }
/-- Flits a packet takes (R103). -/
def pktFlits (k : LPkt) : Nat := ceilDiv (32 + k.content.length) 248
/-- Buffer class (R101, Table 4.1). -/
def classOf (k : LPkt) (sub : Bool) : Nat := (if isResponse k.pkind.toNat then 2 else 0) + b2n sub
/-- The flits of a packet. -/
def cutPkt (k : LPkt) (cls : Nat) : List Flit :=
  let n := pktFlits k
  (chunksOf 248 37 (pktBytes k)).zipIdx.map fun x =>
    { ftype := if n = 1 then 4 else if x.2 = 0 then 1 else if x.2 + 1 = n then 3 else 2, bclass := cls, payload := x.1
      src := k.src.toNat, tag := k.tag.toNat, kind := k.pkind.toNat, flow := k.flow.toNat }

/-- The HELLO payload (Table 4.7). -/
def helloBytes (h : Hello) : List Byte :=
  toLe 248 (put 0 64 h.serial.toNat + put 64 4 h.port.toNat + put 68 4 h.verMax.toNat + put 72 4 h.verMin.toNat + put 76 1 (b2n h.accepted)
    + put 80 32 h.epoch.toNat + put 112 64 h.planHash.toNat + put 176 24 h.addr.toNat)
def bytesHello (bs : List Byte) : Hello :=
  let v := leNat (bs.take 25)
  { serial := BitVec.ofNat 64 (fld v 0 64), port := BitVec.ofNat 4 (fld v 64 4), verMax := BitVec.ofNat 4 (fld v 68 4), verMin := BitVec.ofNat 4 (fld v 72 4)
    accepted := bit v 76, epoch := BitVec.ofNat 32 (fld v 80 32), planHash := BitVec.ofNat 64 (fld v 112 64), addr := BitVec.ofNat 24 (fld v 176 24) }

/-! ## Sending (R92, R97 to R100) -/

/-- Buffer class as version 1 has it: one per class (R131). -/
def Port.cls (q : Port) (c : Nat) : Nat := if q.version = 1 then c / 2 * 2 else c
/-- Credits a sender starts with (R100, Table 4.11). -/
def Port.creditMax (q : Port) : Nat := if q.version = 1 then 4096 else 2048
/-- Does a dark window that won over a retrain drain the port (R134)? The link is live, and goes on until it is drained. -/
def Port.draining (q : Port) : Bool := q.darkPending && q.peer.isSome && (q.state == .training || q.state == .hello)
/-- Does the port send and take flits at all? -/
def Port.talks (q : Port) : Bool := q.state == .hello || q.state == .quarantine || q.state == .active || q.state == .narrow || q.draining
/-- Does it carry packet flits? In HELLO or QUARANTINE only those of the boot relay (R436). -/
def Port.carrying (q : Port) : Bool :=
  q.state == .active || q.state == .narrow || q.draining || (q.bootOpen && (q.state == .hello || q.state == .quarantine))
/-- Has the port left HELLO, so that its flits acknowledge (R97)? -/
def Port.acks (q : Port) : Bool :=
  match q.state with
  | .hello => q.bootOpen || q.draining
  | .training => q.retrainFrom.isSome || q.draining
  | _ => true
/-- Header of a flit as the port sends it now, with a credit return (Table 4.1). -/
def Port.header (q : Port) (f : Flit) (ret : Nat × Nat) : Nat :=
  put 0 4 f.ftype + put 4 2 f.bclass + put 6 1 (b2n q.acks) + put 7 1 (b2n (q.acks && q.nakPending)) + put 8 12 q.rxSeq.toNat
    + put 20 2 ret.1 + put 22 8 ret.2

/-- Send one flit: header with the acknowledgement, a pending NAK and a credit return; a sequenced flit takes the next number
and stays in the replay buffer. -/
def Pkg.sendFlit (p : Pkg) (n : Nat) (f : Flit) (sequenced : Bool) : Pkg :=
  let q := p.port n
  let seq := q.txSeq.toNat
  let rc := ((List.range 4).find? fun c => tabGet 0 q.crRet c != 0).getD 0
  let cnt := if q.acks then Nat.min 255 (tabGet 0 q.crRet rc) else 0
  let hdr := q.header f (rc, cnt)
  let nak := q.acks && q.nakPending
  let q := { q with
    crRet := tabMod 0 q.crRet rc (fun v => v - cnt), nakPending := q.nakPending && !nak, nakWait := q.nakWait || nak
    txSeq := if sequenced then q.txSeq + 1 else q.txSeq, replayBuf := if sequenced then q.replayBuf ++ [{ f with ret := (rc, cnt) }] else q.replayBuf }
  (p.setPort n q).emit (.flit n (toWire (laneCount q.width) (flitBytes hdr f.payload seq)))
/-- A LINK_CTL flit (R91, R109, R124). Its payload's layout is not in the spec: a free value. -/
def Pkg.ctlFlit (p : Pkg) (n : Nat) (m : LinkCtl) : Pkg :=
  (p.emit (.ctl n m)).sendFlit n { ftype := 6, bclass := 0, payload := Config.linkCtlBytes m } false
/-- An IDLE flit. -/
def idleFlit : Flit := { ftype := 0, bclass := 0, payload := [] }

/-- Send what one class may send: flits of its packets in order, while credit and replay buffer last (R99, R100, R103). In a
dark window only packets already begun go on (R124). A packet whose end has not come here yet keeps its place (R92). -/
def Pkg.pumpClass (p : Pkg) (n c : Nat) : Nat → Pkg
  | 0 => p
  | fuel + 1 =>
    let q := p.port n
    match tabGet [] q.txWait c with
    | [] => p
    | t :: ts =>
      if (q.darkPending && !t.started) || q.creditMax ≤ tabGet 0 q.credits c || 2048 ≤ q.replayBuf.length then p
      else
        match t.left with
        | [] => if t.cutFrom.isSome then p else (p.setPort n { q with txWait := tabSet [] q.txWait c ts }).pumpClass n c fuel
        | f :: fs =>
          let rest := if fs.isEmpty && t.cutFrom.isNone then ts else { t with left := fs, started := true } :: ts
          let p := p.setPort n { q with txWait := tabSet [] q.txWait c rest, credits := tabMod 0 q.credits c fun v => v + 1 }
          (p.sendFlit n f true).pumpClass n c fuel
/-- Everything a port may send now, classes in ascending order. -/
def Pkg.pumpTx (p : Pkg) (n : Nat) : Pkg :=
  if !(p.port n).carrying then p else
  (List.range 4).foldl (fun p c => p.pumpClass n c (((tabGet [] (p.port n).txWait c).map fun t => t.left.length + 1).sum + 1)) p

/-- Resend every flit from the oldest unacknowledged one (R98): the acknowledgement is the present one, the credit return that of the
flit's first sending, since what a lost flit returned has not arrived (DESIGN CHOICE, log entry 177). -/
def Pkg.resend (p : Pkg) (n : Nat) : Pkg :=
  let q := p.port n
  q.replayBuf.zipIdx.foldl (fun p x =>
    let q := p.port n
    (p.setPort n { q with nakPending := false, nakWait := q.nakWait || q.nakPending }).emit
      (.flit n (toWire (laneCount q.width) (flitBytes (q.header x.1 x.1.ret) x.1.payload ((q.oldest.toNat + x.2) % 2 ^ 32))))) p

/-! ## Causes of misses (R42 condition 6) -/

/-- Items whose in-window link traffic port n carries (R42 condition 6). -/
def Pkg.linkItems (p : Pkg) (n : Nat) (since : Option Nat) : Pkg :=
  p.causeItems 0x15 (linkDie n) fun j i =>
    (p.itemPorts j i).contains n &&
      (match since, i.startNs with | some t, some s => decide (s ≤ t) | _, _ => true)

/-! ## Routing (R119 to R123) -/

/-- A LOSS for a packet (R127, Table 4.4). -/
def Pkg.sendLossFor (p : Pkg) (src tag kind reason : Nat) : Pkg :=
  (p.send (p.mkPkt src 14 0 (put 0 32 tag + put 32 4 kind + put 36 4 reason) [])).2
def Pkg.sendLoss (p : Pkg) (k : LPkt) (reason : Nat) : Pkg := p.sendLossFor k.src.toNat k.tag.toNat k.pkind.toNat reason

/-- May a packet wait for a port of its lists to return (R123)? -/
def Pkg.mayWait (p : Pkg) (r : Route) : Bool :=
  (bitsOf 16 (rtPri r.ent ||| rtAlt r.ent)).any fun n =>
    let st := (p.port (p.physPort n)).state
    st == .training || st == .hello || st == .dark

/-- EV_LD_ROUTE_ALT and EV_LD_ROUTE_PRIMARY at a lookup of one queue die (R123). -/
def Pkg.noteList (p : Pkg) (i half port : Nat) (alt : Bool) : Pkg :=
  match p.routes[i]? with
  | none => p
  | some r =>
    if (if half = 0 then r.onAlt else r.onAltB) = alt then p else
    let p := { p with routes := p.routes.set i (if half = 0 then { r with onAlt := alt } else { r with onAltB := alt }) }
    let p := p.raise (if alt then .ldRouteAlt else .ldRoutePrimary) (queueDie half) noCtx i 0
    if alt then p.linkItems port none else p

/-- Send a packet on a port without routing (R432, R436); a port that carries nothing sends nothing. -/
def Pkg.sendOn (p : Pkg) (n : Nat) (k : LPkt) : Pkg :=
  let q := p.port n
  if !q.carrying then p else
  let c := q.cls (classOf k false)
  let t : TxPkt := { pkt := k, sub := false, half := decide (8 ≤ n), left := cutPkt k c }
  ((p.setPort n { q with txWait := tabMod [] q.txWait c fun l => l ++ [t] }).emit (.pkt (some n) (decide (8 ≤ n)) false k)).pumpTx n

/-- The port of the boot relay that leads to a neighbour, of a device that has no topology yet (R436). -/
def Pkg.bootPortTo (p : Pkg) (dst : Nat) : Option Nat :=
  if p.topoSet then none
  else (List.range 16).find? fun n => (p.port n).bootOpen && (p.port n).carrying && (p.port n).lastHello.any fun h => h.addr.toNat == dst
/-- Port, sub-lane and bucket table a packet leaves by, once its list has given a logical port (R101, R120, R123). -/
def Pkg.leaveBy (p : Pkg) (i half : Nat) (r : Route) (lp : Nat) (sub : Bool) : Nat × Bool × Pkg :=
  let n := p.physPort lp
  let act := rtAct r.ent lp
  (n, if act = 1 then true else if act = 2 then false else sub, p.noteList i half n r.pri.isEmpty)
/-- The request a packet of this device carries has left by port n (R135). -/
def Pkg.sentBy (p : Pkg) (ingress : Option Nat) (k : LPkt) (n : Nat) : Pkg :=
  match ingress, p.req k.tag.toNat with
  | none, some r => { p with reqs := tabSet none p.reqs k.tag.toNat (some { r with via := n }) }
  | _, _ => p
/-- A packet for this device goes to the command that handles it; the port it came by is known for the newest 1,024 (R135; DESIGN CHOICE, log
entry 10). -/
def Pkg.deliver (p : Pkg) (ingress : Option Nat) (k : LPkt) : Pkg :=
  match ingress with
  | some n => { p with inbox := ((n, k) :: p.inbox).take 1024 }
  | none => p

/-- Route one packet at a queue die: deliver, forward, keep it waiting, or drop it with a LOSS (R119 to R123);
replies of a booting device leave by the boot relay (R436). -/
def Pkg.routePkt (p : Pkg) (ingress : Option Nat) (half : Nat) (sub : Bool) (k : LPkt) : Bool × Pkg :=
  if k.dst.toNat = p.fabAddr then (true, (p.emit (.pkt none (half == 1) sub k)).deliver ingress k)
  else if ingress.isSome && k.hops = 0 then (true, (p.bump .ldHopsDrop (ingress.getD 0)).sendLoss k 2)
  else
    match p.routeOf k.dst.toNat with
    | none =>
      match p.bootPortTo k.dst.toNat, ingress with
      | some n, none => (true, p.sendOn n k)
      | _, _ => (true, p.sendLoss k 1)
    | some i =>
      match p.routes[i]? with
      | none => (true, p.sendLoss k 1)
      | some r =>
        match r.choose k with
        | none => if p.mayWait r then (false, p) else (true, p.sendLoss k 3)
        | some lp =>
          let (n, sub, p) := p.leaveBy i half r lp sub
          let p := p.sentBy ingress k n
          let k := if ingress.isSome then { k with hops := k.hops - 1 } else k
          let q := p.port n
          let c := q.cls (classOf k sub)
          let t : TxPkt := { pkt := k, sub := sub, half := half == 1, left := cutPkt k c }
          let p := p.setPort n { q with txWait := tabMod [] q.txWait c fun l => l ++ [t] }
          (true, (p.emit (.pkt (some n) (half == 1) sub k)).pumpTx n)

/-- Receive buffers of a packet return to the sender's credits (R100). -/
def Pkg.giveBack (p : Pkg) (ingress : Option Nat) (sub : Bool) (k : LPkt) : Pkg :=
  match ingress with
  | none => p
  | some n =>
    let c := (p.port n).cls (classOf k sub)
    p.modPort n fun q => { q with rxOcc := tabMod 0 q.rxOcc c (fun v => v - pktFlits k), crRet := tabMod 0 q.crRet c (fun v => v + pktFlits k) }
/-- Route a packet; one that must wait stays in the buffers of its source or transit device (R123). -/
def Pkg.takePkt (p : Pkg) (ingress : Option Nat) (half : Nat) (sub : Bool) (k : LPkt) : Pkg :=
  let r := p.routePkt ingress half sub k
  if r.1 then r.2.giveBack ingress sub k else { r.2 with transitQ := r.2.transitQ ++ [(ingress, half == 1, sub, k)] }
/-- Packets that waited go on, or are dropped, as the ports now stand (R123). -/
def Pkg.drainTransit (p : Pkg) : Pkg :=
  let q := p.transitQ
  q.foldl (fun p e => p.takePkt e.1 (b2n e.2.1) e.2.2.1 e.2.2.2) { p with transitQ := [] }

/-! ## Packets forwarded before their end has come (R106, R127) -/

/-- Egress port of the packet that class c of port n is receiving, while it is being forwarded. -/
def Pkg.cutPort (p : Pkg) (n c : Nat) : Option Nat :=
  (List.range 16).find? fun m => (p.port m).txWait.any fun e => e.2.any fun t => t.cutFrom == some (n, c)
/-- Change that packet at its egress port; none removes it. -/
def Pkg.cutMod (p : Pkg) (m n c : Nat) (f : TxPkt → Option TxPkt) : Pkg :=
  p.modPort m fun q => { q with txWait := q.txWait.map fun (e : Nat × List TxPkt) => (e.1, e.2.filterMap fun t => if t.cutFrom = some (n, c) then f t else some t) }
def Pkg.setCut (p : Pkg) (n c v : Nat) : Pkg := p.modPort n fun q => { q with cut := tabSet 0 q.cut c v }
/-- The first flit of a longer packet has come: a transit device forwards it at once where its lists have a usable port (R106, R132);
otherwise, or for this device, the packet is handled when it is whole. -/
def Pkg.cutBegin (p : Pkg) (n c : Nat) (sub : Bool) (payload : List Byte) : Pkg :=
  let k := bytesPkt payload
  let p := p.setCut n c 0
  if (p.port n).bootOpen || k.dst.toNat = p.fabAddr || k.hops = 0 then p
  else
    match p.routeOf k.dst.toNat with
    | none => p
    | some i =>
      match p.routes[i]? with
      | none => p
      | some r =>
        match r.choose k with
        | none => p
        | some lp =>
          let (m, sub, p) := p.leaveBy i (n / 8) r lp sub
          let k := { k with hops := k.hops - 1 }
          let q := p.port m
          let e := q.cls (classOf k sub)
          let f : Flit := { ftype := 1, bclass := e, payload := payload.set 7 k.hops, src := k.src.toNat, tag := k.tag.toNat, kind := k.pkind.toNat, flow := k.flow.toNat }
          let t : TxPkt := { pkt := k, sub := sub, half := decide (8 ≤ n), left := [f], cutFrom := some (n, c) }
          ((p.setPort m { q with txWait := tabMod [] q.txWait e fun l => l ++ [t] }).setCut n c 1).pumpTx m
/-- A middle flit, or the last, of a packet that is being forwarded. -/
def Pkg.cutMore (p : Pkg) (n c : Nat) (payload : List Byte) (whole : Option LPkt) : Pkg :=
  match p.cutPort n c with
  | none => p
  | some m =>
    let f (t : TxPkt) : Flit :=
      { ftype := if whole.isSome then 3 else 2, bclass := (t.left.head?.map (·.bclass)).getD ((p.port m).cls (classOf t.pkt t.sub)), payload := payload
        src := t.pkt.src.toNat, tag := t.pkt.tag.toNat, kind := t.pkt.pkind.toNat, flow := t.pkt.flow.toNat }
    let outs : List Out := match whole with
      | none => []
      | some k => ((p.port m).txWait.map fun (e : Nat × List TxPkt) => e.2.filterMap fun t => if t.cutFrom = some (n, c) then some (Out.pkt (some m) t.half t.sub { k with hops := k.hops - 1 }) else none).flatten
    let p := p.cutMod m n c fun t => some { t with
      left := t.left ++ [f t], cutFrom := if whole.isSome then none else t.cutFrom
      pkt := match whole with | some k => { k with hops := k.hops - 1 } | none => t.pkt }
    (outs.foldl Pkg.emit p).pumpTx m
/-- The packet being received ends with PKT_ABORT, or its link is lost: the copy that has begun ends with PKT_ABORT too (R106, R127). -/
def Pkg.cutAbort (p : Pkg) (n c : Nat) : Pkg :=
  match p.cutPort n c with
  | none => p.setCut n c 0
  | some m =>
    let a (t : TxPkt) : Flit :=
      { ftype := 7, bclass := (p.port m).cls (classOf t.pkt t.sub), payload := [], src := t.pkt.src.toNat, tag := t.pkt.tag.toNat, kind := t.pkt.pkind.toNat, flow := t.pkt.flow.toNat }
    ((p.cutMod m n c fun t => if t.started then some { t with left := [a t], cutFrom := none } else none).setCut n c 0).pumpTx m
/-- Packets that a port has partly received end so when its link is lost (R127). -/
def Pkg.cutsEnd (p : Pkg) (n : Nat) : Pkg := (List.range 4).foldl (fun p c => if tabGet 0 (p.port n).cut c = 1 then p.cutAbort n c else p.setCut n c 0) p
/-- Packets still being received that were leaving by port n: one that has begun is lost and goes no further; another is forwarded when it
is whole. -/
def Pkg.cutsLeave (p : Pkg) (n : Nat) (lost : Bool) : Pkg :=
  let open_ := ((p.port n).txWait.map fun e => e.2.filter fun t => t.cutFrom.isSome && (lost || !t.started)).flatten
  open_.foldl (fun p t =>
    match t.cutFrom with
    | some (i, c) => (p.cutMod n i c fun _ => none).setCut i c (if t.started then 2 else 0)
    | none => p) p

/-! ## Port states (R118) -/

/-- Grants go again to the senders whose way has changed (R59). -/
def Pkg.regrant (p old : Pkg) : Pkg :=
  (List.range 16).foldl (fun p j => (List.range 3).foldl (fun p q =>
    let g := p.ing j q
    if !(p.slot j).bound || g.pages = 0 || g.sender = 0xFFFFFF || !p.isRemote g.sender then p
    else
      let n := p.portTowards g.sender j
      if n.isSome && n != old.portTowards g.sender j then p.sendGrant j q else p) p) p
/-- The routes are brought to the ports' present usability, and what that changes (R59, R121, R123). -/
def Pkg.routesMove (p : Pkg) : Pkg := (p.routesFix.regrant p).drainTransit

/-- A port's transition: its time, its event, the bucket tables and what waited for it. -/
def Pkg.portTo (p : Pkg) (n : Nat) (st : PState) : Pkg :=
  let q := p.port n
  if q.state = st then p else
  let p := p.setPort n { q with state := st, enteredNs := p.icount (linkDie n) % 2 ^ 32, bootOpen := q.bootOpen && (st == .hello || st == .quarantine) }
  let p := p.raise .ldPortState (linkDie n) noCtx n (q.state.ctorIdx + 16 * st.ctorIdx)
  p.routesMove

/-- Packets with a flit in the replay buffer, or begun and not ended (R127), once each: source, TAG, kind. -/
def Port.inFlight (q : Port) : List (Nat × Nat × Nat) :=
  ((q.replayBuf.map fun f => (f.src, f.tag, f.kind)) ++
    ((q.txWait.map fun e => (e.2.filter (·.started)).map fun t => (t.pkt.src.toNat, t.pkt.tag.toNat, t.pkt.pkind.toNat)).flatten)).eraseDups
/-- The link's buffers, numbers and credits are cleared (R110, R127). -/
def Port.clearLink (q : Port) : Port :=
  { q with
    txSeq := 0, oldest := 0, rxSeq := 0, replayFrom := none, replayBuf := [], replayNs := [], nakPending := false, nakWait := false
    txWait := [], credits := [], rxOcc := [], crRet := [], partialRx := [], retrainFrom := none, ctlOut := none, peerOffer := none, peer := none, cut := []
    peerSerial := 0, peerPort := 0, version := 0, peerAddr := 0, peerEpoch := 0, accepted := false }
/-- Packets of a port that have not begun go by the tables again. -/
def Pkg.reroute (p : Pkg) (n : Nat) : Pkg :=
  let p := p.cutsLeave n false
  let q := p.port n
  let ts := ((q.txWait.map fun e => e.2.filter fun t => !t.started).flatten)
  let p := p.setPort n { q with txWait := (q.txWait.map fun e => (e.1, e.2.filter (·.started))).filter fun e => !e.2.isEmpty }
  ts.foldl (fun p t => p.takePkt none (b2n t.half) t.sub t.pkt) p
/-- The traffic of a port is lost (R127): a LOSS to the source of every packet in flight, the rest goes another way. Under
stop-on-fault everything stops (R130). -/
def Pkg.linkLoss (p : Pkg) (n : Nat) (stops : Bool) : Pkg :=
  let q := p.port n
  let stop := stops && q.stopOnFault
  let p := q.inFlight.foldl (fun p x => p.sendLossFor x.1 x.2.1 x.2.2 (if stop then 4 else 0)) p
  let p := (p.cutsEnd n).cutsLeave n true
  let q := p.port n
  let ts := ((q.txWait.map fun e => e.2.filter fun t => !t.started).flatten)
  let p := p.setPort n q.clearLink
  let p := ts.foldl (fun p t => p.takePkt none (b2n t.half) t.sub t.pkt) p
  if stop then p.stopAll n else p

/-- Enter DOWN, with the losses of R127; `past` says that the retrain limit has passed, which stop-on-fault answers to (R130). -/
def Pkg.portDown (p : Pkg) (n : Nat) (past : Bool) : Pkg := ((p.linkItems n none).portTo n .down).linkLoss n past
/-- A port's link die is reset or has lost its clock (R118, R134): a window it was to open goes too. -/
def Pkg.portCut (p : Pkg) (n : Nat) : Pkg := (p.modPort n fun q => { q with darkPending := false, darkNoticeOut := false }).portDown n false
/-- Is a port held in DOWN for its link die or its half's queue die (Table 11.8)? -/
def Pkg.portHeld (p : Pkg) (n : Nat) : Bool := (p.die (linkDie n)).state != 0 || (p.die (queueDie (n / 8))).state != 0
/-- Enter TRAINING, full or fast (R107). -/
def Pkg.portTrain (p : Pkg) (n : Nat) (fast : Bool) : Pkg :=
  ((p.openXing (linkDie n) (n % 4)).modPort n fun q => { q with fastRetrain := fast, rate64 := if fast then q.rate64 else false, peerOffer := none }).portTo n .training
/-- A width code of a number. -/
def widthFin (w : Nat) : Fin 3 := if w = 0 then 0 else if w = 1 then 1 else 2
/-- A LINK_CTL request of this port (R109). -/
def Pkg.ctlRequest (p : Pkg) (n w : Nat) : LinkCtl := .request (widthFin w) (BitVec.ofNat 64 p.serial) (BitVec.ofNat 4 n)
/-- Offer a width in a LINK_CTL request (R109). -/
def Pkg.sendCtl (p : Pkg) (n : Nat) : Pkg :=
  match (p.port n).ctlOut with
  | some w => p.ctlFlit n (p.ctlRequest n w.1)
  | none => p
/-- A port leaves ACTIVE or NARROW for a retrain (R110): a fast one offers the width it has, a full one the widest (R108); an opened dark window wins over it (Table 4.13). -/
def Pkg.retrain (p : Pkg) (n : Nat) (fast request : Bool) : Pkg :=
  let q := p.port n
  if !(q.state == .active || q.state == .narrow) || q.darkPending then p
  else
    let p := ((p.bump .ldRetrain n).setFlag .portStatus n 1).linkItems n none
    let p := p.modPort n fun q => { q with retrainFrom := some p.now, replayFrom := none, ctlOut := if request then some (if fast then q.width else 0, true) else none }
    (p.portTrain n fast).sendCtl n

/-- Rewind and resend (R98): counted; the eighth replay within 10 µs starts a fast retrain (R110). -/
def Pkg.replay (p : Pkg) (n : Nat) : Pkg :=
  let q := p.port n
  let since := q.lastReplay
  let near := p.now :: q.replayNs.filter fun t => decide (p.now ≤ t + 10000)
  let p := p.setPort n { q with replayFrom := some q.oldest, replayEnd := q.txSeq, replayNs := near, lastReplay := some p.now }
  let p := (p.bump .ldReplay n).setFlag .portStatus n 0
  let p := match since with | some t => p.linkItems n (some t) | none => p
  if 8 ≤ near.length then p.retrain n true true else p.resend n

end Sys2Proof.Machine
end

