-- ==== Sys2Proof/Machine/LinkEv.lean ====
section
/-! DEFINITION. Events of the stage links (chapter 4). -/

namespace Sys2Proof.Machine

/-! ## Hello and the plan check (R112 to R116) -/

/-- The hello this port sends. -/
def Pkg.ownHello (p : Pkg) (n : Nat) : Hello :=
  let q := p.port n
  { serial := BitVec.ofNat 64 p.serial, port := BitVec.ofNat 4 n, verMax := 2, verMin := BitVec.ofNat 4 (Nat.max 1 q.minVersion)
    accepted := q.accepted, epoch := BitVec.ofNat 32 p.epoch, planHash := BitVec.ofNat 64 p.planHash, addr := BitVec.ofNat 24 p.fabAddr }
def Pkg.sendHello (p : Pkg) (n : Nat) : Pkg :=
  p.sendFlit n { ftype := 5, bclass := 0, payload := helloBytes (p.ownHello n) } false

/-- Is this a device that boots by relay and has no topology yet (R436)? -/
def Pkg.booting (p : Pkg) : Bool := p.eth.bootPath == 1 && !p.topoSet
/-- The boot relay opens on a port: its numbers and credits start. -/
def Port.openBoot (q : Port) : Port := { q.clearLink with bootOpen := true }
/-- Enter HELLO: a remap ends, the exchange starts (R113); a booting device's port carries the boot relay there (R436). -/
def Pkg.portHello (p : Pkg) (n : Nat) : Pkg :=
  let boot := p.booting
  (p.modPort n fun q =>
    let q := { q with logical := n, accepted := false, lastHello := none, qreason := 0, bootOpen := false }
    if boot then q.openBoot else q).portTo n .hello
/-- Does a quarantined port serve a booting peer (R436)? -/
def Port.serves (q : Port) : Bool :=
  q.bootServe && q.state == .quarantine && q.qreason == 4 && q.lastHello.any fun h => h.epoch == 0 && h.planHash == 0
/-- Enter QUARANTINE with a reason (R115); the traffic of a retrain that ends so is lost. -/
def Pkg.quarantine (p : Pkg) (n reason : Nat) (h : Option Hello) : Pkg :=
  let was := (p.port n).retrainFrom.isSome
  let p := (p.modPort n fun q => { q with qreason := reason, lastHello := h, accepted := false }).portTo n .quarantine
  let d := match h with | some h => leNat (helloBytes h) | none => 0
  let p := (p.setFlag .portStatus n 3).raise .ldQuarantine (linkDie n) noCtx n (reason + 16 * d)
  let p := if was || (p.port n).stopOnFault then p.linkLoss n true else p
  p.modPort n fun q => if q.serves then q.openBoot else { q with bootOpen := false }

/-- Does the hello name a planned pair? -/
def helloIs (h : Hello) (pl : Option (Nat × Nat)) : Bool :=
  match pl with
  | some (s, q) => h.serial.toNat == s && h.port.toNat == q
  | none => false
/-- Version in use with a peer (R113 rule 1, R131). -/
def Port.versionWith (q : Port) (h : Hello) : Nat := if q.rate64 then 1 else Nat.min 2 h.verMax.toNat
/-- Does another physical port than n carry logical port k (R113, R134)? -/
def Pkg.carriedElse (p : Pkg) (n k : Nat) : Bool := (List.range 16).any fun x => x != n && (p.port x).logical == k && (p.port x).carries
/-- The logical port whose planned neighbour this hello is, apart from port n's own, that no other port carries (R113 rule 3). -/
def Pkg.swapPort (p : Pkg) (n : Nat) (h : Hello) : Option Nat :=
  (List.range 16).find? fun k => k != n && helloIs h (p.port k).planned && !p.carriedElse n k

/-- Same peer, epoch and plan as the hello accepted before (R110, R116). -/
def helloSame (a b : Hello) : Bool := a.serial == b.serial && a.port == b.port && a.epoch == b.epoch && a.planHash == b.planHash

/-- The round trip is measured at each entry to ACTIVE or NARROW (R133): what the training gave, or a free value where none went before. -/
def Pkg.measureRtt (p : Pkg) (n : Nat) : Pkg :=
  if (p.port n).rttNew then p.modPort n fun q => { q with rttNew := false }
  else
    let (x, p) := p.take 16
    p.modPort n fun q => { q with rtt := x }

/-- Enter ACTIVE or NARROW (R110, R114): an unchanged peer within the retrain limit resumes by replay; with a changed one the port waits for the
limit, which ends in DOWN; without a retrain the link starts afresh. Stop-on-fault answers to an entry to NARROW that no resumed retrain
and no dark window brought (R130). -/
def Pkg.activate (p : Pkg) (n : Nat) (h : Hello) : Pkg :=
  let q := p.port n
  let resume := q.retrainFrom.isSome
  if resume && !(q.peer.any fun a => helloSame a h) then p
  else
    let p := if resume then p.modPort n fun q => { q with retrainFrom := none, replayFrom := none, ctlOut := none } else p.linkLoss n false
    let p := p.modPort n fun x => { x with
      accepted := true, peer := some h, peerSerial := h.serial.toNat, peerPort := h.port.toNat, version := q.versionWith h, peerAddr := h.addr.toNat
      peerEpoch := h.epoch.toNat, trainFails := 0, logical := q.logical, fromDark := false }
    let p := p.measureRtt n
    let rtt := (p.port n).rtt
    let p := if 2100 < rtt then (p.setFlag .portStatus n 7).raise .ldLongRtt (linkDie n) noCtx n rtt else p
    let narrow := q.width != 0
    let p := if narrow then ((p.setFlag .portStatus n 2).raise .ldNarrow (linkDie n) noCtx n q.width).portTo n .narrow else p.portTo n .active
    let p := if resume then p.resend n else p
    let p := p.pumpTx n
    if narrow && q.stopOnFault && !resume && !q.fromDark then p.stopAll n else p

/-- The check of R113 on a hello in HELLO. Version 1 runs only at 64 Gbit/s and no other version does (R131): a pair for which that does not hold
fails rule 1 (DEDUCED, log entry 181). A port marked unused, and one whose planned neighbour another port already carries (R134), fall to
rule 4. -/
def Pkg.helloCheck (p : Pkg) (n : Nat) (h : Hello) : Pkg :=
  let q := p.port n
  let v := q.versionWith h
  if v < Nat.max 1 q.minVersion || v < h.verMin.toNat || (v == 1) != q.rate64 then p.quarantine n 3 (some h)
  else
    let same := h.epoch.toNat == p.epoch && h.planHash.toNat == p.planHash
    let pass (p : Pkg) : Pkg :=
      if !same then p.quarantine n 4 (some h)
      else
        let p := p.modPort n fun q => { q with accepted := true, lastHello := some h }
        if h.accepted then p.activate n h else p
    if helloIs h q.planned && !p.carriedElse n n then pass p
    else if helloIs h q.planned || q.planned.isNone then p.quarantine n 1 (some h)
    else
      match p.swapPort n h with
      | some k =>
        if q.acceptSwap then
          pass (if q.logical = k then p
            else ((p.modPort n fun q => { q with logical := k }).setFlag .portStatus n 4).raise .ldRemap (linkDie n) noCtx n k)
        else p.quarantine n 2 (some h)
      | none => p.quarantine n 1 (some h)

/-- A hello reaches a port (R113 to R116). -/
def Pkg.hello (p : Pkg) (n : Nat) (h : Hello) : Pkg :=
  let q := p.port n
  match q.state with
  | .hello =>
    if q.draining then p
    else if q.bootOpen then p.setPort n { q with lastHello := some h }
    else if q.accepted then (if h.accepted && (q.lastHello.any fun a => helloSame a h) then p.activate n h else p.helloCheck n h) else p.helloCheck n h
  | .quarantine => if q.lastHello = some h then p else p.portHello n
  | .active | .narrow =>
    if q.peer.any fun a => helloSame a h then p
    else ((p.linkItems n none).portHello n).linkLoss n false
  | _ => p

/-- HELLO_TIMER (R112): every 1 µs in HELLO, every 100 µs in ACTIVE and NARROW. -/
def execHelloTimer (port : PortId) (s : State) : Host.Outcome State Fault Refusal :=
  s.run fun p => if (p.port port).talks then p.sendHello port else p
/-- HELLO_RECEIVE (R113). -/
def execHelloReceive (port : PortId) (h : Hello) (s : State) : Host.Outcome State Fault Refusal :=
  s.run fun p => p.hello port h
/-- HELLO_ACCEPT_TIMEOUT (R114): the own check has passed and 100 µs have gone without an accepting hello. -/
def execHelloAcceptTimeout (port : PortId) (s : State) : Host.Outcome State Fault Refusal :=
  s.run fun p => if (p.port port).state = .hello && (p.port port).accepted && !(p.port port).bootOpen && !(p.port port).draining then p.quarantine port 5 (p.port port).lastHello else p
/-- HELLO_WAIT_TIMEOUT (R114): no valid hello within 100 µs. -/
def execHelloWaitTimeout (port : PortId) (s : State) : Host.Outcome State Fault Refusal :=
  s.run fun p => if (p.port port).state = .hello && !(p.port port).accepted && !(p.port port).bootOpen && !(p.port port).draining then p.portDown port false else p

/-! ## LINK_CTL (R109, R110, R124, R125) -/

/-- Leader of two colliding requests (R109): the lower serial, then the lower port. -/
def leads (own port : Nat) (serial : W64) (peerPort : BitVec 4) : Bool :=
  decide (own < serial.toNat) || (own == serial.toNat && decide (port < peerPort.toNat))

/-- A window that is to open wins over a retrain under way, which is abandoned: the live link drains (R134). -/
def Port.abandon (q : Port) : Port := if q.draining then { q with retrainFrom := none, fastRetrain := false, ctlOut := none } else q

/-- A dark-window notice of the peer (R125): acknowledged; the port drains under its own limit; the longer window holds. -/
def Pkg.darkNotice (p : Pkg) (n ns : Nat) : Pkg :=
  let q := p.port n
  if q.state = .dead || q.state = .dark then p
  else
    let p := p.ctlFlit n .darkAck
    let p := (p.modPort n fun x => { x with darkPending := true, darkLen := if q.darkPending then Nat.max q.darkLen ns else ns }.abandon).linkItems n none
    if q.darkPending then p else ((p.routesFix.regrant p).reroute n).drainTransit

/-- A LINK_CTL message reaches a port (R109, R110, R124, R125). -/
def Pkg.linkCtl (p : Pkg) (n : Nat) (m : LinkCtl) : Pkg :=
  let q := p.port n
  match m with
  | .darkNotice ns => p.darkNotice n ns
  | .darkAck => p.setPort n { q with darkNoticeOut := false }
  | .ack w => p.setPort n { q with ctlOut := none, peerOffer := some w.val }
  | .request w serial pp =>
    if !(q.talks || q.state == .training) || q.darkPending then p
    else
      let mine := widthFin (Nat.max q.width w.val)
      match q.ctlOut with
      | some _ =>
        if leads p.serial n serial pp then p
        else (p.setPort n { q with ctlOut := none, peerOffer := some w.val }).ctlFlit n (.ack mine)
      | none => ((p.ctlFlit n (.ack mine)).retrain n true false).modPort n fun x => { x with peerOffer := some w.val }

/-! ## Flits (R96 to R100, R103, R106) -/

/-- A discarded flit (R98): the NAK goes in the next outgoing flit, unless one has gone and waits. -/
def Pkg.discardFlit (p : Pkg) (n : Nat) : Pkg :=
  p.modPort n fun q => if q.carrying && !q.nakWait then { q with nakPending := true } else q

/-- Acknowledgement and link credits of a header (R97, R98, R100). A NAK while a replay is in progress is ignored: a replay starts at the oldest
flit, so no number below its start can be named. Whether the flits of a replay are all out when the NAK comes is a time the model does not
measure: until they are all acknowledged it is a free value (log entry 180). -/
def Pkg.takeAck (p : Pkg) (n hdr : Nat) : Pkg :=
  let q := p.port n
  let p :=
    if !bit hdr 6 then p
    else
      let k := (fld hdr 8 12 + 4096 - q.oldest.toNat % 4096) % 4096
      let k := if k ≤ q.replayBuf.length then k else 0
      let oldest := q.oldest + BitVec.ofNat 32 k
      let p := p.setPort n { q with
        oldest := oldest, replayBuf := q.replayBuf.drop k
        replayFrom := q.replayFrom.filter fun a => decide ((oldest - a).toNat < (q.replayEnd - a).toNat) }
      if bit hdr 7 && (p.port n).carrying then
        if (p.port n).replayFrom.isNone then p.replay n
        else
          let (x, p) := p.take 1
          if x = 0 then p else p.replay n
      else p
  let c := (p.port n).cls (fld hdr 20 2)
  (p.modPort n fun q => { q with credits := tabMod 0 q.credits c fun v => v - fld hdr 22 8 }).pumpTx n

/-- A packet flit that passed under its number (R103, R106): its packet grows, ends, or is aborted. A port of the boot relay
carries commands and replies for this device alone (R436). -/
def Pkg.takeFlit (p : Pkg) (n hdr : Nat) (payload : List Byte) : Pkg :=
  let q := p.port n
  let bc := fld hdr 4 2
  let c := q.cls bc
  let t := fld hdr 0 4
  let q := { q with rxSeq := q.rxSeq + 1, rxOcc := tabMod 0 q.rxOcc c (fun v => v + 1), nakWait := false, nakPending := false }
  let have_ := tabGet [] q.partialRx c
  let sub := q.version != 1 && bc % 2 == 1
  let cut := tabGet 0 q.cut c
  if t = 1 then (p.setPort n { q with partialRx := tabSet [] q.partialRx c payload }).cutBegin n c sub payload
  else if t = 2 then
    let p := p.setPort n { q with partialRx := tabSet [] q.partialRx c (have_ ++ payload) }
    if cut = 1 then p.cutMore n c payload none else p
  else if t = 7 then
    let held := have_.length / 248 + 1
    (p.setPort n { q with
      partialRx := tabSet [] q.partialRx c [], rxOcc := tabMod 0 q.rxOcc c (fun v => v - held), crRet := tabMod 0 q.crRet c fun v => v + held }).cutAbort n c
  else
    let bs := if t = 4 then payload else have_ ++ payload
    let p := p.setPort n { q with partialRx := tabSet [] q.partialRx c [] }
    let k := bytesPkt bs
    if t = 3 && cut != 0 then
      ((if cut = 1 then p.cutMore n c payload (some k) else p).setCut n c 0).giveBack (some n) sub k
    else if q.bootOpen && !((k.pkind == 12 || k.pkind == 13) && k.dst.toNat == p.fabAddr) then p.giveBack (some n) false k
    else p.takePkt (some n) (n / 8) sub k

/-- FLIT_RECEIVE (R96 to R100): correction, CRC, acknowledgement, credits, content. -/
def execFlitReceive (port : PortId) (wire : List Byte) (s : State) : Host.Outcome State Fault Refusal :=
  s.run fun p =>
    let q := p.port port
    if !q.talks || !(p.xing (linkDie port) (port % 4)).ready then p else
    match fromWire (laneCount q.width) wire with
    | none => (p.bump .ldFecUncorr port).discardFlit port
    | some (bs, n) =>
      let p := p.addCtr .ldFecCorr port n
      if !flitCrcOk bs q.rxSeq.toNat then (p.bump .ldCrcErr port).discardFlit port
      else
        let hdr := leNat (bs.take 4)
        let payload := (bs.drop 4).take 248
        let p := if q.state = .hello && !q.bootOpen && !q.draining then p else p.takeAck port hdr
        let t := fld hdr 0 4
        if t = 5 then p.hello port (bytesHello payload)
        else if t = 6 then
          match Config.linkCtlOf payload with
          | some m => p.linkCtl port m
          | none => p
        else if (1 ≤ t && t ≤ 4 || t = 7) && (p.port port).carrying then p.takeFlit port hdr payload
        else p

/-- REPLAY_TIMEOUT (R98): flits are outstanding and no acknowledgement has advanced for 4 µs. -/
def execReplayTimeout (port : PortId) (s : State) : Host.Outcome State Fault Refusal :=
  s.run fun p => if (p.port port).carrying && !(p.port port).replayBuf.isEmpty then p.replay port else p
/-- NAK_REPEAT_TIMEOUT (R98): the NAK is sent again. -/
def execNakRepeatTimeout (port : PortId) (s : State) : Host.Outcome State Fault Refusal :=
  s.run fun p =>
    if (p.port port).carrying && (p.port port).nakWait then (p.modPort port fun q => { q with nakPending := true }).sendFlit port idleFlit false else p
/-- IDLE_FLIT_TIMER (R97): a port that has left HELLO and has nothing to send transmits an IDLE flit. -/
def execIdleFlitTimer (port : PortId) (s : State) : Host.Outcome State Fault Refusal :=
  s.run fun p => if (p.port port).talks && (p.port port).state != .hello then p.sendFlit port idleFlit false else p

/-! ## Retraining (R107 to R111, R131) -/

/-- LINK_CTL_RECEIVE (R109, R110, R124, R125). -/
def execLinkCtlReceive (port : PortId) (m : LinkCtl) (s : State) : Host.Outcome State Fault Refusal :=
  s.run fun p => p.linkCtl port m
/-- LINK_CTL_REPEAT (R109). -/
def execLinkCtlRepeat (port : PortId) (s : State) : Host.Outcome State Fault Refusal := s.run fun p => p.sendCtl port

/-- Physical lane of logical lane k in a lane map (Table 4.14). -/
def laneOf (m : Rec) (k : Nat) : Nat := fld m (60 * (k / 12) + 5 * (k % 12)) 5
/-- A lane map of physical lanes in logical order. -/
def laneMapOf (ls : List Nat) : Rec := (ls.zipIdx.map fun x => put (60 * (x.2 / 12) + 5 * (x.2 % 12)) 5 x.1).sum

/-- LANE_LOCK_LOSS (R110): a mapped lane loses lock. -/
def execLaneLockLoss (port : PortId) (lane : Fin 18) (s : State) : Host.Outcome State Fault Refusal :=
  s.run fun p =>
    let q := p.port port
    if (List.range (laneCount q.width)).any fun k => laneOf q.lanemap k == lane.val then p.retrain port true true else p

/-- Widest width code for a number of passing lanes (R108, Table 4.11). -/
def widthFor (lanes : Nat) (rate64 : Bool) : Option Nat :=
  if 16 ≤ lanes then some 0 else if 8 ≤ lanes then some 1 else if 4 ≤ lanes && !rate64 then some 2 else none
/-- A training attempt fails (R110, R111): a full training, at 128 Gbit/s, follows a fast one; a full one ends in DOWN. -/
def Pkg.trainFail (p : Pkg) (n : Nat) : Pkg :=
  if (p.port n).fastRetrain then p.modPort n fun q => { q with fastRetrain := false, rate64 := false, peerOffer := none }
  else (p.modPort n fun q => { q with trainFails := Nat.min 8 (q.trainFails + 1) }).portDown n false

/-- Lanes a training maps at a width (R107): a fast retrain those of its map that pass; a full one the host's map when all its lanes pass, else
the map it has when all of that pass, else the lowest that pass. -/
def Port.chooseLanes (q : Port) (passing : List Nat) (n : Nat) : List Nat :=
  let whole (m : Rec) : Option (List Nat) :=
    let ls := (List.range n).map (laneOf m)
    if ls.all passing.contains && ls.eraseDups.length == n then some ls else none
  if q.fastRetrain then (((List.range (laneCount q.width)).map (laneOf q.lanemap)).filter passing.contains).take n
  else ((if q.hostMap = 0 then none else whole q.hostMap).orElse fun _ => whole q.lanemap).getD (passing.take n)

/-- TRAINING_ATTEMPT_END (R107 to R110): the width is agreed by LINK_CTL (order 6), the smaller offer holds, and the attempt reaches HELLO, or
fails. Whether a full training found a new calibration is a free value (log entry 182). -/
def execTrainingAttemptEnd (port : PortId) (passing : BitVec 18) (peerWidth : Option (Fin 3)) (locked : Bool) (rttNs : Nat) (s : State) :
    Host.Outcome State Fault Refusal :=
  s.run fun p =>
    let q := p.port port
    if q.state != .training || q.draining then p else
    let lanes := bitsOf 18 passing.toNat
    let held := (List.range (laneCount q.width)).map (laneOf q.lanemap)
    let offer := if q.fastRetrain then (widthFor ((held.filter lanes.contains).length) q.rate64).map (Nat.max q.width) else widthFor lanes.length q.rate64
    let p := match offer with | some a => p.ctlFlit port (p.ctlRequest port a) | none => p
    match offer, peerWidth, locked with
    | some a, some b, true =>
      let w := Nat.max (Nat.max a b.val) (q.peerOffer.getD 0)
      if w = 2 && q.rate64 then p.trainFail port
      else
        let n := laneCount w
        let new := q.chooseLanes lanes n
        let (x, p) := if q.fastRetrain then (0, p) else p.take 1
        let p := p.modPort port fun q => { q with
          width := w, rtt := rttNs, rttNew := true, fastRetrain := false, ctlOut := none, trainFails := 0, lanemap := laneMapOf new }
        let p := if new == (List.range n).map (laneOf q.lanemap) && x = 0 then p else p.raiseHb .ldLanemap (linkDie port) port (p.port port).lanemap
        p.portHello port
    | _, _, _ => p.trainFail port

/-- V8_FALLBACK_TIMEOUT (R131). -/
def execV8FallbackTimeout (port : PortId) (s : State) : Host.Outcome State Fault Refusal :=
  s.run fun p => p.modPort port fun q => if q.state = .training && q.v8 && !q.fastRetrain then { q with rate64 := true } else q
/-- RETRAIN_LIMIT_EXPIRY (R110): the port has not returned within its limit. -/
def execRetrainLimitExpiry (port : PortId) (s : State) : Host.Outcome State Fault Refusal :=
  s.run fun p =>
    let q := p.port port
    if q.retrainFrom.isSome && (q.state = .training || q.state = .hello || q.state = .absent) then p.portDown port true else p
/-- DOWN_RETRY_TIMER (R111): a full training, or DEAD after 8 failures. -/
def execDownRetryTimer (port : PortId) (s : State) : Host.Outcome State Fault Refusal :=
  s.run fun p =>
    let q := p.port port
    if q.state != .down || tabGet false p.lnkLost (port / 4) || p.portHeld port then p
    else if 8 ≤ q.trainFails then (p.portTo port .dead).linkLoss port true
    else p.portTrain port false
/-- SIGNAL_DETECT (R115). -/
def execSignalDetect (port : PortId) (s : State) : Host.Outcome State Fault Refusal :=
  s.run fun p => if (p.port port).state = .absent then p.portTrain port false else p
/-- NO_SIGNAL_TIMEOUT (R115): a planned port without a signal. -/
def execNoSignalTimeout (port : PortId) (s : State) : Host.Outcome State Fault Refusal :=
  s.run fun p => if (p.port port).state = .training && (p.port port).planned.isSome then p.portTo port .absent else p

/-! ## Dark windows (R124, R125) -/

/-- The port opens a dark window of its own (R124 orders 1 and 2). -/
def Pkg.darkBegin (p : Pkg) (n ns : Nat) (after : Option (Option (Nat × Nat))) : Pkg :=
  let q := p.port n
  let p := (p.modPort n fun x => { x with
    darkPending := true, darkNoticeOut := true, darkLen := if q.darkPending then Nat.max q.darkLen ns else ns, plannedAfter := after, ctlOut := none }.abandon).linkItems n none
  let p := p.ctlFlit n (.darkNotice ns)
  ((p.routesFix.regrant p).reroute n).drainTransit
/-- DARK_NOTICE_REPEAT (R124). -/
def execDarkNoticeRepeat (port : PortId) (s : State) : Host.Outcome State Fault Refusal :=
  s.run fun p => if (p.port port).darkNoticeOut then p.ctlFlit port (.darkNotice (p.port port).darkLen) else p
/-- DARK_NOTICE_RECEIVE (R125). -/
def execDarkNoticeReceive (port : PortId) (ns : Nat) (s : State) : Host.Outcome State Fault Refusal := s.run fun p => p.darkNotice port ns

/-- Enter DARK (R124 order 4). -/
def Pkg.darkEnter (p : Pkg) (n : Nat) : Pkg :=
  (p.modPort n fun q => { q.clearLink with
    darkPending := false, darkNoticeOut := false, darkLeft := q.darkLen, fromDark := true
    planned := q.plannedAfter.getD q.planned
    plannedAfter := none }).portTo n .dark
/-- DARK_DRAIN_COMPLETE (R124): the packets begun have ended and every sequenced flit is acknowledged. -/
def execDarkDrainComplete (port : PortId) (s : State) : Host.Outcome State Fault Refusal :=
  s.run fun p =>
    let q := p.port port
    if q.darkPending && q.replayBuf.isEmpty && q.txWait.all (fun e => e.2.all fun t => !t.started) then p.darkEnter port else p
/-- DARK_DRAIN_LIMIT (R124): what is unacknowledged is lost; then the window begins. -/
def execDarkDrainLimit (port : PortId) (s : State) : Host.Outcome State Fault Refusal :=
  s.run fun p => if (p.port port).darkPending then (p.linkLoss port false).darkEnter port else p
/-- A window ends in a full training (Table 4.8). -/
def Pkg.darkEnd (p : Pkg) (n : Nat) : Pkg :=
  if (p.port n).state = .dark then (p.modPort n fun q => { q with darkLeft := 0 }).portTrain n false else p
/-- DARK_WINDOW_END (R124). -/
def execDarkWindowEnd (port : PortId) (s : State) : Host.Outcome State Fault Refusal := s.run fun p => p.darkEnd port

/-! ## Packets -/

/-- PACKET_ROUTE (R119 to R123). -/
def execPacketRoute (ingress : Option PortId) (half : Half) (sub : Bool) (k : LPkt) (s : State) : Host.Outcome State Fault Refusal :=
  s.run fun p => p.takePkt (ingress.map (·.val)) (b2n half) sub k

/-- REFCLK_LNK_LOSS (R118): the four ports of a link die enter DOWN. -/
def execRefclkLnkLoss (k : Fin 4) (s : State) : Host.Outcome State Fault Refusal :=
  s.run fun p =>
    let p := { p with lnkLost := tabSet false p.lnkLost k true }
    (List.range 4).foldl (fun p i => p.portCut (4 * k.val + i)) p
/-- REFCLK_LNK_RETURN: the clock is back; the ports train again at their retry timers (R111). -/
def execRefclkLnkReturn (k : Fin 4) (s : State) : Host.Outcome State Fault Refusal :=
  s.run fun p => { p with lnkLost := tabSet false p.lnkLost k false }

end Sys2Proof.Machine
end

