-- ==== Sys2Proof/Machine/MemEv.lean ====
section
/-! DEFINITION. Memory dies (R282 to R312): line accesses, row-repair copies, scrub, storms, hot spots, temperatures, remote
requests, the end of resets. -/

namespace Sys2Proof.Machine

/-! ## Line accesses (R282, R288, R294, R296, R297) -/

/-- A line access that its memory does not serve is answered with a status of R299; one by the device for a context faults it (R282). -/
def Pkg.badLine (p : Pkg) (a : LineAcc) (status : Nat) : Pkg :=
  let p := p.emit (.memRead [] status)
  match a.device, a.ctx with
  | true, some c => p.badAddress c (a.line * 64)
  | _, _ => p
/-- The errors of a line access: its own line's, and those of the line that leaves the cache for it. -/
def Pkg.lineErrs (p : Pkg) (a : LineAcc) : LineErrs :=
  match (p.cacheAns a.line a.write a.hint).victim with
  | some v => [(a.line, a.err), (v, a.victim)]
  | none => [(a.line, a.err)]
/-- Serve a read. -/
def Pkg.serveRead (p : Pkg) (a : LineAcc) : Pkg :=
  let r := p.lineRead a.line a.err
  let p := r.2.2.emit (.memRead r.1 (if r.2.1 then 2 else 0))
  let p := match r.2.1 && a.device, a.ctx with
    | true, some c => p.poisonConsumed c (a.line * 64)
    | _, _ => p
  p.lastUse a.hint (a.line * 64) 64
/-- Serve a write: a partial one merges into the line as read. -/
def Pkg.serveWrite (p : Pkg) (a : LineAcc) : Pkg :=
  let bs := a.data.take (64 - a.off)
  let p := if bs.length = 64 then p else (p.lineRead a.line a.err).2.2
  (p.store (a.line * 64 + a.off) bs).emit (.memRead [] 0)
/-- One line access at its memory die (R282, R293, R294): an access of the device for a context lies in a region of it. -/
def Pkg.lineAccess (p : Pkg) (a : LineAcc) : Pkg :=
  let addr := a.line * 64
  let mapped := match a.device, a.ctx with
    | true, some c => p.devRegion c addr 64
    | _, _ => true
  if !isStackAddr addr || !mapped then p.badLine a 3
  else match p.memReady addr 64 with
    | .address => p.badLine a 3
    | .unavailable => p.badLine a 4
    | .waits => p.holdAcc (memDieOfStack (stackOf addr)) (.line a)
    | .ok =>
      let p := p.lineCache a.line a.write a.hint a.partition (p.lineErrs a)
      if a.write then p.serveWrite a else p.serveRead a

/-! ## Remote memory (R299, R300) -/

/-- Does an address lie in the parity pieces of this device (R408)? -/
def Pkg.inPieces (p : Pkg) (a : Nat) : Bool :=
  let h := p.secure.hdr
  p.secure.active && [0, 1].any fun g => decide (scPiece h g 0 ≤ a) && decide (a < scPiece h g (scM h))

/-- A remote read or write is performed or refused, and answered. -/
def Pkg.remoteServe (p : Pkg) (k : LPkt) (es : LineErrs) : Pkg :=
  let x := k.kspec.toNat
  let a := fld x 0 48
  let n := fld x 52 14
  let c := fld x 66 8
  let write := k.pkind == 10
  let answer (p : Pkg) (st : Nat) (data : List Byte) : Pkg :=
    if write then p.answer k 11 (put 0 48 a + put 48 8 st) [] else p.answer k 9 (put 0 48 a + put 48 8 st + put 56 14 data.length) data
  if n < 8 || 8832 < n || n % 8 != 0 || (write && k.content.length != n) || !p.covered c a n (if write then 3 else 2) then answer p 3 []
  else if (stacksOf a n).any fun s => (p.stack s).state == 1 && !(p.memDie (memDieOfStack s)).expired then answer p 1 []
  else match p.memReady a n with
    | .address => answer p 4 []
    | .unavailable => answer p 4 []
    | .waits => p.holdAcc (memDieOfStack (stackOf a)) (.remote k es)
    | .ok =>
      if write then answer (p.memWrite a k.content (fld x 48 2) es) 0 []
      else
        let r := p.memRead a n (fld x 48 2) es
        answer r.2.2 (if r.2.1 then 2 else 0) r.1
/-- A request arrives at the queue die: its table may be full (R300). -/
def Pkg.remoteMem (p : Pkg) (k : LPkt) (es : LineErrs) : Pkg :=
  let y := p.take 1
  if y.1 = 1 then
    let a := fld k.kspec.toNat 0 48
    if k.pkind == 10 then y.2.answer k 11 (put 0 48 a + put 48 8 1) [] else y.2.answer k 9 (put 0 48 a + put 48 8 1) []
  else y.2.remoteServe k es

/-! ## Accesses that waited -/

/-- An access that waited goes on, as far as it can. -/
def Pkg.serveAcc (p : Pkg) : MemAcc → Pkg
  | .line a => p.lineAccess a
  | .remote k es => p.remoteServe k es
  | .write c a bs hint none => p.deviceWrite c a bs hint
  | .write c a bs _ (some (eng, sid)) => (p.modSess eng sid fun x => { x with writes := x.writes - 1 }).sumpWrite eng sid c a bs
/-- Accesses that waited at a die go on, as far as they can, in their order; a sump delivery that waited for them goes on too (R271). -/
def Pkg.serveWaiting (p : Pkg) (m : Nat) : Pkg :=
  let w := (p.memDie m).waiting
  (w.foldl Pkg.serveAcc (p.modMemDie m fun d => { d with waiting := [] })).sumpResume
/-- Accesses that wait at a die complete as UNAVAILABLE (R299, R310). -/
def Pkg.failAcc (p : Pkg) : MemAcc → Pkg
  | .line a => p.badLine a 4
  | .remote k _ =>
    let a := fld k.kspec.toNat 0 48
    if k.pkind == 10 then p.answer k 11 (put 0 48 a + put 48 8 4) [] else p.answer k 9 (put 0 48 a + put 48 8 4) []
  | .write c a _ _ none => p.badAddress c a
  | .write c a _ _ (some (eng, sid)) => (p.badAddress c a).sumpLost eng sid 7
def Pkg.failWaiting (p : Pkg) (m : Nat) : Pkg :=
  let w := (p.memDie m).waiting
  (w.foldl Pkg.failAcc (p.modMemDie m fun d => { d with waiting := [] })).sumpResume

/-- MEM_LINE_ACCESS (R294). -/
def execMemLineAccess (a : LineAcc) (s : State) : Host.Outcome State Fault Refusal := s.run fun p => p.lineAccess a

/-- ROW_REPAIR_COPY_DONE (R293): the row is remapped to a free spare and its held accesses proceed. -/
def execRowRepairCopyDone (stack : StackId) (channel : Fin 16) (rank : Fin 3) (bank : Fin 32) (row : BitVec 15) (s : State) :
    Host.Outcome State Fault Refusal :=
  s.run fun p =>
    let m : MemLoc := { channel := channel, rank := rank, bank := bank, row := row.toNat, column := 0 }
    let k := p.stack stack
    match k.rowHeld m, (k.freeSpares m).head? with
    | true, some n =>
      let e := repairEnt stack m n
      let p := p.modStack stack fun k => { k with
        repairs := k.repairs.filter (fun x => !(inBank x m && fld x 17 15 == m.row)) ++ [e]
        repairing := k.repairing.filter fun x => x != (m.channel, m.rank, m.bank, m.row) }
      ((p.bump .mdRepairs stack).raiseHb .mdRowRepair (dieOfStack stack) stack e).serveWaiting (memDieOfStack stack)
    | _, _ => p

/-- SCRUB_STEP (R290): the next line is read and checked unless it lies dirty in the cache; a pass ends with its counts. -/
def execScrubStep (stack : StackId) (err : LineErr) (s : State) : Host.Outcome State Fault Refusal :=
  s.run fun p =>
    let k := p.stack stack
    if k.state != 0 then p
    else
      let line := stack.val * (stackSize / 64) + k.scrubPos
      let dirty := (tabGet [] (p.memDie (memDieOfStack stack)).cache (setOf line)).any fun w => w.line == line && w.dirty
      let p := if dirty || k.rowHeld (locOf line) then p else ((p.lineRead line err).2.2).bump .mdScrubLines stack
      p.modStack stack fun k =>
        if k.scrubPos + 1 < stackSize / 64 then { k with scrubPos := k.scrubPos + 1 } else { k with scrubPos := 0, pinCe := [], rowCe := [] }

/-- MD_CE_INTERVAL_END (R42, R291): a storm begins, lasts or ends. -/
def execMdCeIntervalEnd (stack : StackId) (s : State) : Host.Outcome State Fault Refusal :=
  s.run fun p =>
    let k := p.stack stack
    let d := dieOfStack stack
    let now := decide (4096 < k.ce)
    let p := if now || k.storm then p.causeItems 0x12 d fun j i => p.itemUses j d i else p
    let p := p.modStack stack fun k => { k with ce := 0, storm := now }
    if now && !k.storm then ((p.setFlag .mdStatus d 0).setFlag .dlStatus p.primary 2).raise .mdCeStorm d noCtx stack k.ce else p

/-- HOTSPOT_WINDOW_END (R305): a stack whose busiest channel has waited and received more than four times the mean in three
windows in a row has a hot spot. -/
def execHotspotWindowEnd (stack : StackId) (requests : List (Fin 16 × Nat)) (waiting : BitVec 16) (partition : Fin 16) (s : State) :
    Host.Outcome State Fault Refusal :=
  s.run fun p =>
    let k := p.stack stack
    let d := dieOfStack stack
    let count (c : Nat) : Nat := ((requests.filter fun r => r.1.val == c).map (·.2)).sum
    let busy := (List.range 16).foldl (fun m c => if count m < count c then c else m) 0
    let total := ((List.range 16).map count).sum
    if waiting.getLsbD busy && decide (total < 4 * count busy) then
      let run := if k.hotRun != 0 && k.hotCh = busy then k.hotRun + 1 else 1
      let p := p.modStack stack fun k => { k with hotRun := run, hotCh := busy, hotF := decide (3 ≤ run) }
      if run = 3 then
        let p := p.causeItems 3 d fun j i => p.itemUses j d i
        let p := p.modStack stack fun k => { k with
          hot := BitVec.ofNat 64 (put 0 4 busy + put 4 4 partition + put 32 32 (p.icount d)) }
        ((p.setFlag .mdStatus d 4).bump .mdHotspot stack).raise .memHotspot d noCtx stack (busy + 16 * partition.val)
      else p
    else p.modStack stack fun k => { k with hotRun := 0, hotF := false }

/-- STACK_TEMP_READ (R306): the hottest reading doubles refresh above 85 °C and throttles from above 90 °C to below 88 °C. -/
def execStackTempRead (stack : StackId) (readings : List (BitVec 8)) (s : State) : Host.Outcome State Fault Refusal :=
  s.run fun p =>
    let k := p.stack stack
    let d := dieOfStack stack
    let t := readings.foldl (fun m r => Nat.max m r.toNat) 0
    let thr := if 90 < t then true else if t < 88 then false else k.throttled
    let p := if k.throttled then p.addCtr .mdThrottleNs stack (p.now - k.throttleAt) else p
    let p := if k.throttled || thr then p.causeItems 0x10 d fun j i => p.itemUses j d i else p
    let p := p.modStack stack fun k => { k with temp := t, refresh2x := decide (85 < t), throttled := thr, throttleAt := p.now }
    if thr && !k.throttled then p.setFlag .mdStatus d 5 else p

/-! ## Ends of resets (R310, R311, Table 11.9) -/

/-- Memory die number (0 to 7) of a die. -/
def memNo (d : Nat) : Nat := d / 16 * 4 + (d % 16 - 8)

/-- ORDERLY_RESET_WAIT_EXPIRY (R310): accesses still waiting complete as UNAVAILABLE. -/
def execOrderlyResetWaitExpiry (d : DieId) (s : State) : Host.Outcome State Fault Refusal :=
  s.run fun p =>
    let m := memNo d
    if dieKind d = 1 && (p.memDie m).orderlyAt.isSome then
      (p.modMemDie m fun x => { x with expired := true }).failWaiting m
    else p

/-- Every dirty bit of a stack is set, whatever was listed. -/
def Pkg.dirtyStack (p : Pkg) (s : Nat) : Pkg :=
  { p with dirtyPg := p.dirtyPg.filter fun e => stackOf (e.1 * 65536) != s }.modStack s fun k => { k with dirtyAll := true }

/-- STACK_INIT_COMPLETE (R311): after an abrupt reset every line is poisoned, every dirty bit set, the stacks ONLINE. -/
def execStackInitComplete (d : DieId) (s : State) : Host.Outcome State Fault Refusal :=
  s.run fun p =>
    if dieKind d != 1 then p else
    let m := memNo d
    let p := [2 * m, 2 * m + 1].foldl (fun p n =>
      if (p.stack n).state != 3 then p else
      let p := p.dirtyStack n
      { p with poison := p.poison.filter fun e => stackOf (e.1 * 64) != n, tagBad := p.tagBad.filter fun e => stackOf (e.1 * 64) != n }.modStack n fun k =>
        { k with state := 0, poisonAll := true, undefAll := true }) p
    (p.modMemDie m fun x => { x with initialising := false, accepting := true }).floorEval

/-- SELF_REFRESH_EXIT (R310, Table 11.9 order 6): the stacks are ONLINE with an empty cache and every dirty bit and
CHANGED_PAGES at its most; the accesses that waited are served. -/
def execSelfRefreshExit (d : DieId) (s : State) : Host.Outcome State Fault Refusal :=
  s.run fun p =>
    let m := memNo d
    if dieKind d != 1 || !p.dieUp d || (p.memDie m).orderlyAt.isNone then p else
    let p := [2 * m, 2 * m + 1].foldl (fun p n =>
      if (p.stack n).state = 1 then (p.dirtyStack n).modStack n fun k => { k with state := 0 } else p) p
    let p := p.modMemDie m fun x => { x with
      cache := [], accepting := true, orderlyAt := none, expired := false
      changed := x.tensors.foldl (fun t e => tabSet 0 t e.1 e.2.2.2) [] }
    (p.serveWaiting m).floorEval

/-! ## Remote memory (R299, R300) -/

/-- MEM_REMOTE_REQUEST (R300): a request is admitted and performed, or answered RETRY. -/
def execMemRemoteRequest (r : RemoteReq) (s : State) : Host.Outcome State Fault Refusal :=
  s.run fun p =>
    let k := r.pkt
    if k.pkind = 10 && p.inPieces (fld k.kspec.toNat 0 48) then p.arrive k 10 fun p => p.parityPart k
    else if k.pkind = 8 || k.pkind = 10 then p.arrive k k.pkind.toNat fun p => p.remoteMem k r.errs
    else p

end Sys2Proof.Machine
end

