-- ==== Sys2Proof/Machine/Fabric.lean ====
section
/-! DEFINITION. The package fabric (R315 to R343): bundle groups and packets between dies, retests, die resets and rejoin, the loss
of the Ethernet reference. -/

namespace Sys2Proof.Machine

/-! ## Groups (R315, Table 11.1) -/

/-- Number that stands for the seam stations as a peer. -/
def seamPeer : Nat := 32
/-- Groups of a die in the order of R342: peer and bundles built. -/
def dieGroups (d : Nat) : List (Nat × Nat) :=
  let b := d / 16 * 16
  let cs (n : Nat) : List (Nat × Nat) := (List.range 8).map fun i => (b + i, n)
  let ms (n : Nat) : List (Nat × Nat) := (List.range 4).map fun i => (b + 8 + i, n)
  let ls (n : Nat) : List (Nat × Nat) := (List.range 2).map fun i => (b + 12 + i, n)
  match dieKind d with
  | 0 => ms 24 ++ [(b + 14, 16), (b + 15, 2), (seamPeer, 32)]
  | 1 => cs 24 ++ [(b + 14, 32), (b + 15, 2), (seamPeer, 64)]
  | 2 => [(b + 14, 48), (b + 15, 2), (seamPeer, 8)]
  | 3 => cs 16 ++ ms 32 ++ ls 48 ++ [(b + 15, 8), (seamPeer, 64)]
  | _ => cs 2 ++ ms 2 ++ ls 2 ++ [(b + 14, 8), (seamPeer, 4)]
/-- Groups of the seam stations stand at any die of their half: 64 to 79 lead to the other half's stations (the seam groups),
96 + k to die k of the half (R315, R316). -/
def stationGroup (g : Nat) : Bool := decide (64 ≤ g)
/-- Peer and bundles of group g at die d. -/
def groupOf (d g : Nat) : Nat × Nat :=
  if 96 ≤ g then
    let k := d / 16 * 16 + (g - 96) % 16
    (k, match (dieGroups k).find? fun x => x.1 == seamPeer with | some x => x.2 | none => 0)
  else if 64 ≤ g then (seamPeer, 16) else (dieGroups d).getD g (seamPeer, 0)
/-- Number of a group's first bundle among its die's (R342). -/
def groupBase (d g : Nat) : Nat := (((dieGroups d).take g).map (·.2)).sum
/-- Is there a group of that number? -/
def groupIs (d g : Nat) : Bool :=
  decide (g < (dieGroups d).length) || (decide (64 ≤ g) && decide (g < 80)) || (decide (96 ≤ g) && decide (g < 112))
/-- Place of a station group in the table of those: the seam groups of half A, of half B, then those to the dies. -/
def stationPlace (d g : Nat) : Nat := if 96 ≤ g then 32 + d / 16 * 16 + (g - 96) % 16 else d / 16 * 16 + (g - 64)
/-- Number of a group's first bundle in a report of failed wires (R329): R342 numbers a die's own; the bundles from the stations to a
die are listed after them, and after the headframe's those of its half's seam groups (DESIGN CHOICE, log 122). -/
def wireBase (d g : Nat) : Nat :=
  if 96 ≤ g then groupBase (groupOf d g).1 64
  else if 64 ≤ g then groupBase (d / 16 * 16 + 15) 64 + 4 + 16 * (g - 64)
  else groupBase d g
/-- Groups that a die's tests cover: its own, the one from the stations to it, and a headframe's the seam groups of its half. -/
def testedGroups (d : Nat) (seam : Bool) : List Nat :=
  List.range (dieGroups d).length ++ [96 + d % 16] ++ (if seam && dieKind d = 4 then (List.range 16).map (64 + ·) else [])
/-- Counter instance of a group. -/
def groupInst (d g : Nat) : Nat := if stationGroup g then 1024 + stationPlace d g else 32 * d + g

def Pkg.group (p : Pkg) (d g : Nat) : DGroup :=
  if stationGroup g then tabGet {} p.seam (stationPlace d g) else tabGet {} (p.die d).groups g
def Pkg.modGroup (p : Pkg) (d g : Nat) (f : DGroup → DGroup) : Pkg :=
  if stationGroup g then { p with seam := tabMod {} p.seam (stationPlace d g) f }
  else p.modDie d fun x => { x with groups := tabMod {} x.groups g f }
/-- Bundles of a group that are in service: how many, and which. -/
def DGroup.inService (x : DGroup) (built : Nat) : Nat := built - (x.bundles.filter fun e => e.2.oos).length
def DGroup.serving (x : DGroup) (built : Nat) : List Nat := (List.range built).filter fun i => !(tabGet {} x.bundles i).oos

/-! ## The word stream of a group (R317) -/

/-- The words of a packet with the bundle each travels on: word w of the stream on in-service bundle w mod b. -/
def spread (serving : List Nat) (at_ : Nat) (ws : List W64) : List (Nat × W64) :=
  ws.zipIdx.map fun x => (serving.getD ((at_ + x.2) % serving.length) 0, x.1)
/-- Stream order restored by position: `lanes` are the words that came on each in-service bundle, in order. -/
def gather (lanes : List (List W64)) (at_ : Nat) : List W64 :=
  (List.range (lanes.map (·.length)).sum).map fun k => (lanes.getD ((at_ + k) % lanes.length) []).getD (k / lanes.length) 0
/-- The words of each bundle once the packet's trailer has come on one of them. -/
def trailed (lanes : List (List W64)) (bundle : Nat) (trailer : W64) : List (List W64) := lanes.modify bundle (· ++ [trailer])

/-! ## Packets between dies (R316 to R327) -/

/-- CRC of a packet (Table 11.4). -/
def dieCrc (header : W64) (payload : List W64) : Nat := crc32c 0xFFFF_FFFF ((header :: payload).map fun w => toLe 8 w.toNat).flatten
/-- LC and RESP of a packet's header word. -/
def hdrLc (ws : List W64) : Bool := bit (ws.headD 0).toNat 29
def hdrResp (ws : List W64) : Bool := bit (ws.headD 0).toNat 28
/-- Seam group of a packet that crosses from half h (R316): its bucket of the table. -/
def Pkg.seamGroup (p : Pkg) (h : Nat) (header : W64) : Nat :=
  let n := header.toNat
  let k := crc32c 0xFFFF_FFFF (toLe 4 (put 0 5 (fld n 5 5) + put 5 5 (fld n 0 5) + put 10 16 (fld n 48 16))) % 16
  64 + (tabGet [] p.seamTab h).getD k k
/-- Group a packet leaves the router of die d, or the stations of its half, by (R316): stage 1 to the stations, stage 2 over
the seam, stage 3 to the die. -/
def Pkg.nextGroup (p : Pkg) (d : Nat) (station : Bool) (header : W64) : Nat :=
  let dst := fld header.toNat 0 5
  let find (peer : Nat) : Option Nat := (dieGroups d).findIdx? fun x => x.1 == peer
  if station then (if dst / 16 = d / 16 then 96 + dst % 16 else p.seamGroup (d / 16) header)
  else if dst / 16 != d / 16 then (find seamPeer).getD 0
  else match find dst with
    | some g => g
    | none => (find (queueDie (d / 16))).getD 0

/-- Do the 136 words of a packet's class leave room for it (R321)? -/
def DGroup.room (x : DGroup) (ws : List W64) : Bool :=
  decide (((x.kept.filter fun k => k.sent && hdrResp k.words == hdrResp ws).map fun k => k.words.length).sum + ws.length ≤ 136)
/-- The packet to send next: an LC one before a BE one, and of a class the longest parked (R325). -/
def DGroup.pick (x : DGroup) : Option Nat :=
  match x.kept.findIdx? fun k => !k.sent && hdrLc k.words && x.room k.words with
  | some i => some i
  | none => x.kept.findIdx? fun k => !k.sent && x.room k.words
/-- The words of a packet go out on the group's bundles (R317). -/
def Pkg.carry (p : Pkg) (d g : Nat) (ws : List W64) : Pkg :=
  let x := p.group d g
  (p.modGroup d g fun y => { y with sentAt := x.sentAt + ws.length }).emit
    (.diePkt d g (spread (x.serving (groupOf d g).2) x.sentAt ws))
/-- Send what a group may send. -/
def Pkg.pumpGrp (p : Pkg) (d g : Nat) : Nat → Pkg
  | 0 => p
  | fuel + 1 =>
    let x := p.group d g
    if x.retesting || x.failedF then p
    else match x.pick with
      | none => p
      | some i =>
        match x.kept[i]? with
        | none => p
        | some k =>
          -- sent packets stand before the parked ones, in the order they went
          let sent := (x.kept.filter (·.sent)) ++ [{ k with sent := true }]
          let rest := (x.kept.eraseIdx i).filter fun k => !k.sent
          ((p.modGroup d g fun x => { x with kept := sent ++ rest }).carry d g k.words).pumpGrp d g fuel
/-- Revocations in a row after which a grant of the group's arbiter is not revoked (R327); the stations have no register. -/
def Pkg.guardOf (p : Pkg) (d g : Nat) : Nat := if stationGroup g then 8 else (p.die d).revokeGuard
/-- An LC request revokes the BE packet that is on the wire (R325, R327): its sender sends ABORT and parks it again. Whether its
trailer has left, so that it wins (R341), is a matter of time: a free bit. -/
def Pkg.revokeBe (p : Pkg) (d g : Nat) : Pkg :=
  let x := p.group d g
  let n := (x.kept.filter (·.sent)).length
  match x.kept[n - 1]? with
  | none => p
  | some k =>
    if n = 0 || hdrLc k.words || p.guardOf d g ≤ k.revoked || x.retesting then p
    else
      let (left, p) := p.take 1
      if left = 1 then p
      else ((p.modGroup d g fun x => { x with kept := x.kept.set (n - 1) { k with sent := false, revoked := k.revoked + 1 } }).bump
        .fabRevoke (groupInst d g)).emit (.hop d g .abort)
/-- A packet is parked for group g of die d and sent when it may be. -/
def Pkg.parkPkt (p : Pkg) (d g : Nat) (ws : List W64) : Pkg :=
  let p := if hdrLc ws then p.revokeBe d g else p
  let p := p.modGroup d g fun x => { x with kept := x.kept ++ [⟨false, ws, 0⟩] }
  p.pumpGrp d g (p.group d g).kept.length
/-- Hand a packet to its next hop at die d or at the stations of its half. -/
def Pkg.forwardPkt (p : Pkg) (d : Nat) (station : Bool) (ws : List W64) : Pkg :=
  p.parkPkt d (p.nextGroup d station (ws.headD 0)) ws

/-! ## The receiving unit (R323) -/

/-- Wide words of a byte string, each with its valid-byte tag; the last is padded with zero bytes. -/
def wideWords (bs : List Byte) : List (List Byte × Nat) :=
  (List.range (ceilDiv bs.length 64)).map fun i =>
    let w := (bs.drop (64 * i)).take 64
    (w ++ List.replicate (64 - w.length) 0, w.length - 1)
/-- Valid payload bytes of a packet: those of the last word beyond VBYTES are not written. -/
def validBytes (payload : List W64) (trailer : W64) : List Byte :=
  ((payload.map fun w => toLe 8 w.toNat).flatten).take (8 * payload.length - 7 + fld trailer.toNat 32 3)
/-- The unit takes a packet's bytes into its wide words. DEDUCED (log 161): a source cuts a transfer into packets of 64 payload words
and a last one of the rest, so that packing across packets is packing each: 64 words fill 8 wide words. -/
def Pkg.deliverPkt (p : Pkg) (d : Nat) (header : W64) (payload : List W64) (trailer : W64) : Pkg :=
  let h := header.toNat
  p.emit (.wide d (fld h 10 9) (bit h 28) (fld h 38 4) (wideWords (validBytes payload trailer)))

/-- A corrected word or a rewind counts toward a die's storm (R324). -/
def Pkg.fabCount (p : Pkg) (d g n : Nat) : Pkg := (p.addCtr .fabCorr (groupInst d g) n).modDie d fun x => { x with ce := x.ce + n }

/-- DIE_PACKET_RECEIVE (R317, R319 to R324): a packet's trailer arrives on a bundle of group g of die d, or of the stations of its half;
`lanes` are the words that came before it, by bundle. -/
def execDiePacketReceive (d : DieId) (group : Nat) (lanes : List (List W64)) (bundle : Nat) (trailer : W64) (corrected : Nat)
    (uncorrectable : Bool) (s : State) : Host.Outcome State Fault Refusal :=
  s.run fun p =>
    let station := stationGroup group
    if (!station && (p.die d).state != 0) || !groupIs d group then p
    else
      let ws := gather (trailed lanes bundle trailer) (p.group d group).rcvdAt
      let p := p.modGroup d group fun x => { x with rcvdAt := x.rcvdAt + ws.length, rewound := false }
      let header := ws.headD 0
      let payload := ws.tail.dropLast
      let last := ws.getLastD 0
      if dieCrc header payload != fld last.toNat 0 32 || payload.length != fld header.toNat 32 6 + 1 then
        ((((p.modGroup d group fun x => { x with rewound := true }).bump .fabRewind (groupInst d group)).setFlag .fabStatus d 1).fabCount d group 1).emit
          (.hop d group .resend)
      else
        let p := if corrected = 0 then p else (p.setFlag .fabStatus d 0).fabCount d group corrected
        if uncorrectable then (p.bump .fabUncorr (groupInst d group)).emit (.hop d group .resend)
        else
          let p := p.emit (.hop d group .done)
          if !station && fld header.toNat 0 5 = d.val then p.deliverPkt d header payload last
          else p.forwardPkt d station ws

/-- A retest of a group starts (R329): its packets wait for 2 µs. -/
def Pkg.retestStart (p : Pkg) (d g : Nat) : Pkg :=
  ((p.modGroup d g fun x => { x with resend := 0, retesting := true, sentAt := 0, rcvdAt := 0, retestNs := p.icount d % 2 ^ 32 }).bump .fabRetest d).setFlag .fabStatus d 2

/-- HOP_CONTROL_WORD (R322, R327, R341): RESEND or DONE for the oldest packet sent on a group of die d, or the peer's ABORT of the
packet it was sending, which rewinds the write pointer once. -/
def execHopControlWord (d : DieId) (group : Nat) (w : HopWord) (s : State) : Host.Outcome State Fault Refusal :=
  s.run fun p =>
    let x := p.group d group
    match w with
    | .abort =>
      if x.rewound then p.modGroup d group fun x => { x with rewound := false }
      else (p.bump .fabRewind (groupInst d group)).setFlag .fabStatus d 1
    | .resend =>
      match x.kept with
      | ⟨true, ws, _⟩ :: _ =>
        let p := p.bump .fabResend (groupInst d group)
        if x.resend = 2 then
          (p.modGroup d group fun x => { x with kept := x.kept.map fun k => { k with sent := false } }).retestStart d group
        else (p.modGroup d group fun x => { x with resend := x.resend + 1 }).carry d group ws
      | _ => p
    | .done =>
      match x.kept with
      | ⟨true, _, _⟩ :: rest => (p.modGroup d group fun x => { x with kept := rest, resend := 0 }).pumpGrp d group (rest.length + 1)
      | _ => p

/-- FAB_CE_INTERVAL_END (R324, R42): a storm begins, lasts or ends on a die. -/
def execFabCeIntervalEnd (d : DieId) (s : State) : Host.Outcome State Fault Refusal :=
  s.run fun p =>
    let x := p.die d
    let now := decide (4096 < x.ce)
    let p := if now || x.storm then p.causeItems 0x12 d fun j i => p.itemUses j d i else p
    let p := p.modDie d fun x => { x with ce := 0, storm := now }
    if now && !x.storm then ((p.setFlag .fabStatus d 4).setFlag .dlStatus p.primary 2).raise .fabCeStorm d noCtx d x.ce else p

/-! ## Die resets (R334, R335, Table 11.8) -/

/-- Owner of an object as it is granted: a context's range, the device during a step for seal objects, else none (R273, R335). -/
def Pkg.grantOwner (p : Pkg) (o : Nat) : Nat :=
  match p.ctxs.find? fun e => e.2.state != .empty && decide (fld e.2.record 16 12 ≤ o) && decide (o < fld e.2.record 16 12 + fld e.2.record 32 13) with
  | some e =>
    let st := e.2.step
    if (st.state == 1 || st.state == 2) && decide (polBase st.policy ≤ o) && decide (o < polBase st.policy + 5) then 0x100 else e.1
  | none => 0x1FF

/-- A core's state goes with its die; its endpoints stay CLOSED under their last keys, and the queue die answers CLOSED to what they held
pending (R251, R260). -/
def Pkg.coreReset (p : Pkg) (g : Nat) : Pkg :=
  let held := ((p.core g).eps.map fun e => e.2.pendingOpen).flatten
  let p := held.foldl (fun p q => p.answer q 5 (ackSpec (fld q.kspec.toNat 16 9) (fld q.kspec.toNat 25 5) 1 false 0) []) p
  p.modCore g fun c => { ({} : CoreS) with
    phys := c.phys, retired := c.retired
    eps := c.eps.map fun e => (e.1, { e.2 with pendingOpen := [] })
    conns := c.conns.map fun e => (e.1, { opening := e.2.opening }) }
/-- The cores whose die is d. -/
def coresOfDie (d : Nat) : List Nat := (List.range 384).filter fun g => dieOfCore g == d
/-- Endpoints are FREE after die start (R249). -/
def Pkg.freeEps (p : Pkg) (d : Nat) : Pkg := (coresOfDie d).foldl (fun p g => p.modCore g fun c => { c with eps := [] }) p
/-- What a compute die loses: items are killed, endpoints close, cores forget (Table 11.8). -/
def Pkg.loseCompute (p : Pkg) (d : Nat) : Pkg :=
  let p := p.killOn fun g => dieOfCore g == d
  let p := (coresOfDie d).foldl (fun p g => ((p.closeCoreEps g).coreReset g).spFree g 0 0x40_0000) p
  { p with thrs := p.thrs.filter fun e => dieOfCore (coreOf e.1) != d }
/-- An orderly reset of a memory die: the cache is written back, the stacks refresh themselves (R310). -/
def Pkg.memOrderly (p : Pkg) (d : Nat) : Pkg :=
  let m := memNo d
  let p := p.modMemDie m fun x => { x with accepting := false, cache := [], orderlyAt := some p.now, expired := false }
  [2 * m, 2 * m + 1].foldl (fun p n => p.modStack n fun k => if k.state = 0 then { k with state := 1 } else k) p
/-- An abrupt reset of a memory die: both stacks are lost (R311). -/
def Pkg.memAbrupt (p : Pkg) (d : Nat) : Pkg :=
  let m := memNo d
  let p := p.modMemDie m fun x => { x with accepting := false, cache := [], orderlyAt := none, expired := false, initialising := false }
  let p := [2 * m, 2 * m + 1].foldl (fun p n =>
    if (p.stack n).state = 0 || (p.stack n).state = 1 || (p.stack n).state = 3 then
      ({ p with tagBad := p.tagBad.filter fun e => stackOf (e.1 * 64) != n }.modStack n fun k =>
        { k with state := 2, undefAll := true, repairing := [] }).raise .mdStackLost d noCtx n 0
    else p) p
  p.failWaiting m
/-- The ports of a set enter DOWN. -/
def Pkg.portsDown (p : Pkg) (f : Nat → Bool) : Pkg :=
  (List.range 16).foldl (fun p n => if f n then p.portCut n else p) p
/-- Contexts that a queue die's loss faults. -/
def Pkg.queueCtxs (p : Pkg) (h : Nat) : List Nat :=
  (p.ctxs.filter fun e => e.2.state != .empty &&
    (((p.slotsOf e.1).any fun j => halfOfSlot j == h) ||
      (fld e.2.record 32 13 != 0 && halfOfObj (fld e.2.record 16 12) == h) ||
      (List.range 16).any fun k => (p.sumpEng (16 * h + k)).sess.any fun x => x.2.openF && fld x.2.hdr 32 8 == e.1)).map (·.1)
/-- What a queue die loses: its half's ports, slots, sumps and objects (Table 11.8, R335). -/
def Pkg.loseQueue (p : Pkg) (h : Nat) : Pkg :=
  let p := p.portsDown fun n => n / 8 == h
  let p := (p.queueCtxs h).foldl (fun p c => p.ctxFault c 8) p
  let js := (List.range 16).filter fun j => halfOfSlot j == h
  let p := js.foldl (fun p j => (p.releaseSlot j).setSlot j {}) p
  let p := { p with
    dl := p.dl.filter fun e => halfOfSlot (e.1 / 4) != h
    sumps := p.sumps.filter fun e => e.1 / 16 != h
    waiters := p.waiters.filter fun w => halfOfObj w.obj != h
    transitQ := p.transitQ.filter fun e => b2n e.2.1 != h
    syncs := (p.syncs.filter fun e => halfOfObj e.1 != h) }
  let p := p.dropReqs fun w => match w with
    | .effect j _ _ => halfOfSlot j == h
    | .stashSpill j _ => halfOfSlot j == h
    | .stashFetch j _ => halfOfSlot j == h
    | .sump x _ _ => x == h
    | _ => false
  ((List.range 2048).map (h * 2048 + ·)).foldl (fun p o => p.setSync o { owner := p.grantOwner o }) p

/-- A die is reset (R334): orderly or abrupt, with its cause of Table 11.8. -/
def Pkg.dieReset (p : Pkg) (d cause : Nat) (orderly : Bool) : Pkg :=
  let x := p.die d
  if !(x.admitted || x.state = 1) || (x.state != 0 && orderly) then p
  else
    let p := p.raise .fabDieReset d noCtx d cause
    let p := p.causeItems 0x14 d fun j i => p.itemUses j d i || d == p.primary
    let p := p.modDie d fun x => { x with
      state := 1, orderly := orderly, resets := Nat.min 255 (x.resets + 1), cause := cause, admitted := false
      enteredNs := p.icount p.primary % 2 ^ 32, ce := 0, storm := false, canary := []
      groups := x.groups.map fun e => (e.1, { e.2 with kept := [], resend := 0, retesting := false, sentAt := 0, rcvdAt := 0, rewound := false })
      xings := (List.range 6).foldl (fun t i => tabMod {} t i fun c => { c with clockless := false }) x.xings }
    -- packets toward the die are discarded, and its peers see the reset
    let p := ((dieGroups d).filter fun g => g.1 != seamPeer).foldl (fun p g =>
      let back := ((dieGroups g.1).findIdx? fun y => y.1 == d).getD 0
      (p.modGroup g.1 back fun y => { y with kept := [], sentAt := 0, rcvdAt := 0, rewound := false }).setFlag .fabStatus g.1 5) p
    let p := p.modGroup d (96 + d % 16) fun y => { y with kept := [], sentAt := 0, rcvdAt := 0, rewound := false }
    let p := match dieKind d with
      | 0 => p.loseCompute d
      | 1 => if orderly then p.memOrderly d else p.memAbrupt d
      | 2 => p.portsDown fun n => linkDie n == d
      | 3 => p.loseQueue (d / 16)
      | _ =>
        let p := if d = 15 then p.ethTo false else p
        if d = p.primary then { p with pwr := { p.pwr with missed := 3 } } else { p with pwr := { p.pwr with synced := false } }
    p.floorEval

/-- DIE_ABRUPT_RESET (R334): an uncorrectable internal error of a die. -/
def execDieAbruptReset (d : DieId) (s : State) : Host.Outcome State Fault Refusal := s.run fun p => p.dieReset d 2 false
/-- WATCHDOG_EXPIRY (R334): the headframe requests an orderly reset. -/
def execWatchdogExpiry (d : DieId) (s : State) : Host.Outcome State Fault Refusal := s.run fun p => p.dieReset d 5 true

/-- CLOCK_LOSS (R333): a clocked island has lost its clock. Islands 0 to 3 are the SerDes of a link die's ports, 4 the memory PHY of
a memory die or the Ethernet island of A.H, 5 the interval counter. -/
def execClockLoss (d : DieId) (island : Fin 6) (s : State) : Host.Outcome State Fault Refusal :=
  s.run fun p =>
    let p := p.modXing d island fun c => { c with clocked := false }
    let real := island = 5 || (island = 4 && (dieKind d = 1 || d = 15)) || (island.val < 4 && dieKind d = 2)
    let p := if real then p.causeItems 0x14 d fun j i => p.itemUses j d i || d == p.primary else p
    if island = 5 then p.dieReset d 3 false
    else if island = 4 then
      if dieKind d = 1 then p.dieReset d 3 false
      else if d = 15 then p.ethTo false
      else p
    else if dieKind d = 2 then
      let n := d.val / 16 * 8 + (d.val % 16 - 12) * 4 + island.val
      p.portCut n
    else p

/-! ## Interconnect tests (R328 to R330) -/

/-- A bundle after a test that found some wires failed (R328, R329): handed or held spares stay where they pass. -/
def Bundle.test (b : Bundle) (failed : List Nat) : Bundle :=
  let held := b.spares.filter fun x => !failed.contains x.2
  let need := (List.range 66).filter fun w => failed.contains w && !held.any fun x => x.1 == w
  let free := ([66, 67, 68, 69] : List Nat).filter fun s => !failed.contains s && !held.any fun x => x.2 == s
  if need.length ≤ free.length then { spares := held ++ need.zip free, failed := failed, oos := decide (4 < failed.length) }
  else
    let need := (List.range 66).filter failed.contains
    let free := ([66, 67, 68, 69] : List Nat).filter fun s => !failed.contains s
    { spares := need.zip free, failed := failed, oos := decide (4 < failed.length) }
/-- The register value of a bundle (Table 11.12). -/
def Bundle.value (b : Bundle) : Rec :=
  ((List.range 4).map fun s => put (7 * s) 7 (match b.spares.find? fun x => x.2 == 66 + s with | some x => x.1 | none => 127)).sum
    + put 28 1 (b2n b.oos) + put 29 7 b.failed.length
/-- Test every bundle of a group; a bundle that is not listed has no failed wire. -/
def Pkg.testGroup (p : Pkg) (d g : Nat) (failed : List (Nat × List (Fin 70))) : Pkg :=
  let base := wireBase d g
  (List.range (groupOf d g).2).foldl (fun p i =>
    let fs := match failed.find? fun x => x.1 == base + i with | some x => x.2.map (·.val) | none => []
    let old := tabGet ({} : Bundle) (p.group d g).bundles i
    let new := old.test fs
    let p := p.modGroup d g fun x => { x with bundles := tabSet {} x.bundles i new }
    if new.value = old.value then p else p.raiseHb .fabBundleMap d (base + i) new.value) p
/-- Is fewer than half of a group in service? -/
def Pkg.groupBad (p : Pkg) (d g : Nat) : Bool := decide (2 * (p.group d g).inService (groupOf d g).2 < (groupOf d g).2)
/-- Die that a failed group resets (R330), if any. -/
def failedDie (d g : Nat) : Option Nat :=
  let peer := (groupOf d g).1
  if 96 ≤ g then (if dieKind peer = 3 then none else some peer)
  else if 64 ≤ g then none
  else if peer = seamPeer then (if dieKind d = 3 then none else some d)
  else if dieKind peer = 3 then some d
  else if dieKind d = 3 then some peer
  else if (dieKind d = 0 && dieKind peer = 1) || (dieKind d = 1 && dieKind peer = 0) then some peer
  else none
/-- Fill or refill the table of seam groups of half h (R316, R121). -/
def Pkg.seamFix (p : Pkg) (h : Nat) : Pkg :=
  let us := (List.range 16).filter fun i => !(tabGet ({} : DGroup) p.seam (16 * h + i)).failedF
  let old := tabGet [] p.seamTab h
  let t := if old.isEmpty then List.range 16 else old
  let new :=
    if us.isEmpty || t.all us.contains then t
    else
      let kept := us.filter t.contains
      if kept.isEmpty then (List.range 16).map fun i => us.getD (i % us.length) 0
      else refillBuckets (fun b => !kept.contains b) kept t 0
  { p with seamTab := tabSet [] p.seamTab h new }
/-- What a group's bundles mean after a test (R330): narrow, failed, or whole. -/
def Pkg.groupEval (p : Pkg) (d g was : Nat) : Pkg :=
  let built := (groupOf d g).2
  let n := (p.group d g).inService built
  let p := if n < built && n < was then (p.setFlag .fabStatus d 3).raise .fabGroupNarrow d noCtx g n else p
  let bad := p.groupBad d g
  let p := p.modGroup d g fun x => { x with failedF := bad }
  if 64 ≤ g && g < 80 then p.seamFix (d / 16)
  else match bad, failedDie d g with
    | true, some x => p.dieReset x 4 false
    | _, _ => p

/-- GROUP_RETEST_DONE (R329, R330): the spares are chosen again, and the group's packets go on. -/
def execGroupRetestDone (d : DieId) (group : Nat) (failed : List (Nat × List (Fin 70))) (s : State) : Host.Outcome State Fault Refusal :=
  s.run fun p =>
    let x := p.group d group
    if !x.retesting || !groupIs d group then p
    else
      let was := x.inService (groupOf d group).2
      let p := (p.modGroup d group fun x => { x with retesting := false }).testGroup d group failed
      let p := p.groupEval d group was
      p.pumpGrp d group (p.group d group).kept.length

/-! ## Rejoin (R336, R339) -/

/-- Does a pairing entry permit a stepping of a die, its mirror being as it is (Table 11.10)? -/
def Pkg.pairOk (p : Pkg) (e : Rec) (d major : Nat) : Bool :=
  bit e (16 * dieKind d + major) && (!bit e 80 || !(p.die ((d + 16) % 32)).admitted || (p.die ((d + 16) % 32)).stepMajor == major)

/-- Physical cores a die enables (R211): 24 of those that pass, without listed ones, then without the highest. -/
def chooseCores (passing excl : Nat) : List Nat :=
  let ps := bitsOf 26 passing
  let listed := ps.filter fun i => bit excl i
  let drop1 := (listed.reverse.take (ps.length - 24))
  let rest := ps.filter fun i => !drop1.contains i
  rest.take 24
/-- A compute die's core map is chosen (R211): logical numbers ascend, retirement ends. -/
def Pkg.coreMap (p : Pkg) (d passing : Nat) : Pkg :=
  let en := chooseCores passing (tabGet 0 p.pwr.excl d)
  let mask := (en.map (2 ^ ·)).sum
  let was := (p.die d).enabled
  let p := p.modDie d fun x => { x with
    passing := passing, enabled := mask, coresEnabled := en.length
    logMap := (en.zipIdx.map fun (ph, l) => (l, ph)).filter fun e => e.2 != e.1 % 24 }
  let k := if d < 16 then d else d - 8
  let p := (en.zipIdx).foldl (fun p (ph, l) => p.modCore (24 * k + l) fun c => { c with phys := ph, retired := false }) p
  if was = mask then p.raise .cdCoreMap d noCtx d mask else p.raiseHb .cdCoreMap d d mask
/-- Slots that hold reservations take their threads again on the cores of a die that has come back (R217). -/
def Pkg.reserveOnDie (p : Pkg) (d : Nat) : Pkg :=
  (List.range 16).foldl (fun p j =>
    let s := p.slot j
    if !s.reserved then p else
    (s.cores.filter fun g => dieOfCore g == d).foldl (fun p g => ((p.freeThreads g).take (hdrThreads s.hdr)).foldl (fun p t =>
      p.setThr t { ({} : Thr) with state := .idle, slot := j, ctx := s.ctx }) p) p) p

/-- A die's tests are over: every group is tested, and one that fails keeps the die out (R330). -/
def Pkg.testDie (p : Pkg) (d : Nat) (failed : List (Nat × List (Fin 70))) : Pkg :=
  (testedGroups d false).foldl (fun p g => (p.testGroup d g failed).modGroup d g fun x => { x with retesting := false, resend := 0, kept := [], sentAt := 0, rcvdAt := 0 }) p
def Pkg.dieGroupsOk (p : Pkg) (d : Nat) : Bool := (List.range (dieGroups d).length).all (fun g => !(p.groupBad d g)) && !(p.groupBad d (96 + d % 16))
/-- DIE_STATE changes (R343). -/
def Pkg.dieTo (p : Pkg) (d st : Nat) : Pkg := p.modDie d fun x => { x with state := st, enteredNs := p.icount p.primary % 2 ^ 32 }

/-- DIE_REJOIN (R336, R339): a die has passed its tests and is paired, or stays out. -/
def execDieRejoin (d : DieId) (r : DieReport) (s : State) : Host.Outcome State Fault Refusal :=
  s.run fun p =>
    let x := p.die d
    if x.state = 0 || x.state = 3 then p
    else
      let p := p.modDie d fun x => { x with stepMajor := r.stepMajor, stepMinor := r.stepMinor, feature := r.feature.toNat, pufOk := r.pufOk }
      let p := if d = 15 then { p with aHStep := some r.stepMajor } else p
      let p := p.testDie d r.failedWires
      if !r.ok || !p.dieGroupsOk d || (dieKind d = 0 && popcount 26 r.passing.toNat < 24) then p.dieTo d 3
      else if !(match p.ident.pairing[p.admittedBy]? with | some e => p.pairOk e d r.stepMajor | none => false) ||
          r.feature.toNat < (p.die p.primary).pkgFeature then (p.dieTo d 3).raise .fabPairing d noCtx d 0
      else
        let p := (p.dieTo d 0).modDie d fun x => { x with admitted := true, pkgFeature := (p.die p.primary).pkgFeature, skew := 0, xings := [] }
        let p := match dieKind d with
          | 0 => ((p.freeEps d).coreMap d r.passing.toNat).reserveOnDie d
          | 1 =>
            let m := memNo d
            [2 * m, 2 * m + 1].foldl (fun p n => p.modStack n fun k => if k.state = 2 then { k with state := 3 } else k)
              (p.modMemDie m fun y => { y with initialising := (p.stack (2 * m)).state = 2 || (p.stack (2 * m + 1)).state = 2 })
          | 2 => (List.range 16).foldl (fun p n => if linkDie n = d.val && (p.port n).state == PState.down && !p.portHeld n then p.portTrain n false else p) p
          | 3 => (List.range 16).foldl (fun p n => if n / 8 = d.val / 16 && (p.port n).state == PState.down && !p.portHeld n then p.portTrain n false else p) p
          | _ => p
        (p.raise .fabDieRejoin d noCtx d 0).floorEval

/-! ## Loss of the Ethernet reference (R17, R337) -/

/-- Every running item is killed. -/
def Pkg.killAll (p : Pkg) : Pkg := (List.range 16).foldl (fun p j => (p.killItem j 0).killItem j 1) p
/-- Every memory die goes into self-refresh (R337, R487). -/
def Pkg.refreshAll (p : Pkg) (cause : Nat) : Pkg := (List.range 8).foldl (fun p m => p.dieReset (dieOfMem m) cause true) p
/-- Every running item is excused under R42 condition 5. -/
def Pkg.excuseAll (p : Pkg) : Pkg := p.causeItems 0x14 p.primary fun _ _ => true

/-- REFCLK_ETH_STOP (R337): every PLL holds over. -/
def execRefclkEthStop (s : State) : Host.Outcome State Fault Refusal :=
  s.run fun p => if p.refEthLost then p else { p.excuseAll with holdover := true, refEthLost := true }
/-- REFCLK_ETH_RETURN (R337): within the holdover nothing is lost. -/
def execRefclkEthReturn (s : State) : Host.Outcome State Fault Refusal :=
  s.run fun p =>
    let p := if p.holdover then p.excuseAll else p
    { p with holdover := false, refEthLost := false, clkStop := none, clkLost := p.clkLost + (p.now - p.clkStop.getD p.now) }
/-- REFCLK_HOLDOVER_END (R337): memory into self-refresh, items killed, the package HALTED; then every interval
counter loses its clock (R17). -/
def execRefclkHoldoverEnd (s : State) : Host.Outcome State Fault Refusal :=
  s.run fun p =>
    if !p.holdover then p
    else
      let p := { p with holdover := false }
      let p := (p.refreshAll 3).killAll
      let p := if p.pkgState = 0 then p else p.pkgTo 5
      { p.raise .fabRefclkLoss p.primary noCtx 0 0 with clkStop := some p.now }

end Sys2Proof.Machine
end

