-- ==== Sys2Proof/Machine/Luajo.lean ====
section
/-! DEFINITION. The path of a Luajo command from datagram to decision (R440 to R452, R525), and the session commands. -/

namespace Sys2Proof.Machine

/-! ## Parameters (R441, Table 17.2) -/

/-- A decoded TLV: type and value. -/
abbrev TlvE := Nat × List Byte

/-- Split a parameter area into TLVs; none when it does not parse or padding is not zero. -/
def parseTlvs : Nat → List Byte → Option (List TlvE)
  | 0, l => if l.isEmpty then some [] else none
  | fuel + 1, l =>
    if l.isEmpty then some [] else
    let ty := leNat (l.take 2)
    let n := leNat ((l.drop 2).take 2)
    let pad := roundUp n 4
    if l.length < 4 + pad || !allZero (((l.drop 4).drop n).take (pad - n)) then none
    else match parseTlvs fuel (l.drop (4 + pad)) with
      | none => none
      | some r => some ((ty, (l.drop 4).take n) :: r)

/-- Types ascend, each at most once. -/
def tlvAsc : List TlvE → Bool
  | [] => true
  | [_] => true
  | a :: b :: r => decide (a.1 < b.1) && tlvAsc (b :: r)

/-- LEN of a command's TLV type: exact length, or none for STRUCT, whose range is 1 to 9,104. -/
def tlvLen (ty : Nat) : Option Nat :=
  match ty with
  | 2 => some 16 | 3 => some 1 | 4 => some 1 | 5 => some 4 | 6 => some 8 | 7 => some 1 | 8 => some 1 | 9 => some 4 | 10 => some 8
  | 11 => some 8 | 12 => some 4 | 13 => some 4 | 14 => some 4 | 15 => some 8 | 16 => some 1 | 17 => some 97 | 18 => some 32 | 19 => some 96
  | 20 => some 1 | 21 => some 8 | 22 => some 8 | 23 => some 64 | _ => none
/-- Does a TLV have a length its type allows? -/
def tlvOk (e : TlvE) : Bool :=
  match tlvLen e.1 with
  | some n => e.2.length == n
  | none => e.1 == 1 && decide (1 ≤ e.2.length) && decide (e.2.length ≤ 9104)
/-- Range of a TLV's own value (Table 17.2). -/
def tlvRange (e : TlvE) : Bool :=
  let v := leNat e.2
  match e.1 with
  | 3 => decide (v < 16) | 4 => decide (v < 3) | 7 => decide (v < 16) | 16 => decide (v < 2) | 20 => decide (v < 16)
  | _ => true

/-- A row of Table 17.6: opcode, required and optional TLVs (a list of alternatives for STRUCT or STRUCT_REF), scope,
whether a bound session may issue it (R445), and its row of Table 17.5b. -/
structure LjOp where
  code : Nat
  req : List Nat := []
  opt : List Nat := []
  either : Bool := false                       -- exactly one of STRUCT and STRUCT_REF
  ofCtx : Bool := false
  bound : Bool := false
  legal : Nat := 4
  known : Bool := true                         -- is it an opcode of Table 17.6?

/-- A command as its meaning sees it. -/
structure Cmd where
  place : Nat
  w : WaitCmd
  ctx : Nat
  tlvs : List TlvE
  body : List Byte                             -- STRUCT, or the bytes a STRUCT_REF names
  ref : Nat                                    -- address of a STRUCT_REF
  port : Option Nat := none                    -- port whose state a refusal reports

/-- Value of a TLV as a number, 0 when absent. -/
def Cmd.num (c : Cmd) (ty : Nat) : Nat := match c.tlvs.find? fun e => e.1 == ty with | some e => leNat e.2 | none => 0
def Cmd.has (c : Cmd) (ty : Nat) : Bool := c.tlvs.any fun e => e.1 == ty
def Cmd.bytes (c : Cmd) (ty : Nat) : List Byte := match c.tlvs.find? fun e => e.1 == ty with | some e => e.2 | none => []
/-- The structure of the command as one number. -/
def Cmd.strct (c : Cmd) : Rec := leNat c.body

/-- What a command's meaning answers. -/
inductive Ans where
  /-- Refused, nothing changed: status and reply parameters. -/
  | no (status : Nat) (params : List Byte)
  /-- Committed: the new state and the reply parameters. -/
  | ok (p : Pkg) (params : List Byte)
  /-- Committed, the reply waits (R449). -/
  | wait (p : Pkg)

/-- STATE TLV (Table 17.2): package, context, step and port state, 0xFF for none. -/
def Pkg.stateTlv (p : Pkg) (ctx port : Option Nat) : List Byte :=
  let c := match ctx with | some c => (p.ctx c).state.ctorIdx | none => 0xFF
  let st := match ctx with | some c => (p.ctx c).step.state | none => 0xFF
  let po := match port with | some k => (p.port k).state.ctorIdx | none => 0xFF
  tlv 0x80 (toLe 4 (p.pkgState + 2 ^ 8 * c + 2 ^ 16 * st + 2 ^ 24 * po))
/-- A refusal on state (R452). -/
def Pkg.badState (p : Pkg) (c : Cmd) (status : Nat) : Ans := .no status (p.stateTlv (if c.w.ctxF then some c.ctx else none) c.port)

/-- Any context with a step OPEN or SEALING. -/
def Pkg.stepActive (p : Pkg) : Bool := p.ctxs.any fun e => e.2.step.state == 1 || e.2.step.state == 2
/-- Is any context known? -/
def Pkg.ctxKnown (p : Pkg) : Bool := p.ctxs.any fun e => e.2.state != .empty
/-- Legality in the package state (Table 17.5b) by row. -/
def Pkg.legalIn (p : Pkg) (row : Nat) : Bool :=
  match row with
  | 0 => true
  | 1 => p.pkgState != 5
  | 2 => p.pkgState == 1 || p.pkgState == 2 || ((p.pkgState == 3 || p.pkgState == 4) && !p.stepActive)
  | 3 => (p.pkgState == 1 || p.pkgState == 2) && !p.ctxKnown
  | _ => p.pkgState == 2 || p.pkgState == 3 || p.pkgState == 4

/-! ## The path (R525) -/

/-- Datagram source as a relayed or own packet: the longest parameter area it allows (R440, R442). -/
def maxLen (s : Src) : Nat := match s with | .own _ _ _ => 9112 | .relay _ _ _ => 8824

/-- Bytes of a command's header (Table 17.1). -/
def pktHeader (k : Pkt) (opcode : Nat) : List Byte :=
  toLe 24 (put 0 16 k.magic.toNat + put 16 8 k.version.toNat + put 24 1 (b2n k.reply) + put 25 1 (b2n k.ctxF) + put 26 6 k.rsv1.toNat
    + put 32 32 k.session.toNat + put 64 8 k.context.toNat + put 72 8 k.rsv2.toNat + put 80 16 opcode + put 96 32 k.seq.toNat
    + put 128 16 k.length.toNat + put 144 16 k.statusF.toNat + put 160 32 k.rsv3.toNat)
/-- Header defects that drop a datagram (R442). -/
def pktBadHeader (k : Pkt) : Bool :=
  decide (k.size < 40) || k.magic != 0x4A4C || k.version != 1 || k.reply || k.size != k.length.toNat + 40 || k.params.length != k.length.toNat
/-- What a reply repeats. -/
def pktWait (k : Pkt) (opcode : Nat) : WaitCmd := ⟨k.seq.toNat, opcode, k.ctxF, k.context.toNat, k.src⟩

/-- An authentication failure (R442): counted, with its event at most once per second. -/
def Pkg.authFail (p : Pkg) : Pkg :=
  let p := (p.bump .ljAuthFail 0).setFlag .ljStatus p.primary 0
  let fresh := match p.authNs with | some t => decide (t + 1000000000 ≤ p.now) | none => true
  if fresh then { p.raise .ljAuthFail p.primary noCtx 0 0 with authNs := some p.now } else p

/-- A reply that is neither cached nor consumes its number (R447). -/
def Pkg.replyBusy (p : Pkg) (k : Nat) (w : WaitCmd) : Pkg :=
  let s := p.session k
  let body := replyHeader w s.id.toNat stBusy 0
  ((p.bump .ljBusy 0).setFlag .ljStatus p.primary 2).sendReply w.src (body ++ mac16 s.kRep body)

/-- Structure bytes of a command: inline, or read through a STRUCT_REF (Table 17.2); none when the reference is bad. -/
def Pkg.structOf (p : Pkg) (ctx : Option Nat) (tlvs : List TlvE) : Option (List Byte) :=
  match tlvs.find? fun e => e.1 == 1 with
  | some e => some e.2
  | none =>
    match tlvs.find? fun e => e.1 == 2 with
    | none => some []
    | some e =>
      let v := leNat e.2
      let a := fld v 0 48
      let n := fld v 64 32
      let ok := match ctx with | some c => p.covered c a n 0 | none => false
      if 0 < n && (ok || p.covered 0x100 a n 0) then some (p.load a n) else none

/-- First class 0x01 refusal that does not depend on the command's own rules (R525 order 5), and the parsed TLVs. -/
def Pkg.ljFormat (p : Pkg) (op : LjOp) (k : Pkt) : Option (Nat × List Byte) × List TlvE :=
  let bad (ty : Nat) : Option (Nat × List Byte) := some (stBadParam, tlv 0x85 (toLe 4 ty))
  if maxLen k.src < k.length.toNat then (some (stBadLength, []), [])
  else if !op.known then (some (stBadOpcode, []), [])
  else match parseTlvs (k.params.length + 1) k.params with
  | none => (some (stBadParam, []), [])
  | some ts =>
    let allowed := op.req ++ op.opt ++ (if op.either then [1, 2] else [])
    match ts.find? fun e => !(allowed.contains e.1) || !tlvOk e with
    | some e => (bad e.1, ts)
    | none =>
      match op.req.find? fun ty => !(ts.any fun e => e.1 == ty) with
      | some ty => (bad ty, ts)
      | none =>
        if !tlvAsc ts || (op.either && (ts.filter fun e => e.1 == 1 || e.1 == 2).length != 1) then (some (stBadParam, []), ts)
        else if op.code != 1 && k.ctxF != op.ofCtx then (some (stBadParam, []), ts)
        else if k.rsv1 != 0 || k.rsv2 != 0 || k.rsv3 != 0 || k.statusF != 0 || (!k.ctxF && k.context != 0) ||
            (ts.any fun e => e.1 == 2 && (fld (leNat e.2) 48 16 != 0 || fld (leNat e.2) 96 32 != 0)) then (some (stReserved, []), ts)
        else if (p.structOf (if op.ofCtx then some k.context.toNat else none) ts).isNone then (some (stBadRef, []), ts)
        else if ts.any fun e => !tlvRange e then (some (stRange, []), ts)
        else (none, ts)

/-- RELAYED of HF_ETH_STATE shows how the last command came (R439). -/
def Pkg.arrivedBy (p : Pkg) (s : Src) : Pkg :=
  { p with eth := { p.eth with relayed := match s with | .own _ _ _ => false | .relay _ _ _ => true } }
/-- Count a decided command (R466). -/
def Pkg.ljDecided (p : Pkg) (op : LjOp) : Pkg := p.bump .ljCommands op.code

/-- Does a datagram from a source reach the firmware: by relay, or on the device's own port while that is up (R424)? -/
def Pkg.hears (p : Pkg) (s : Src) : Bool := p.answers && (match s with | .own _ _ _ => p.ownPort | .relay _ _ _ => true)

/-- The session place whose identifier a datagram names. -/
def Pkg.placeOf (p : Pkg) (k : Pkt) : Option Nat := (List.range 64).find? fun i => (p.session i).openF && (p.session i).id == k.session

/-- The command as its meaning sees it. -/
def Pkg.cmdOf (p : Pkg) (op : LjOp) (k : Pkt) (i : Nat) (ts : List TlvE) : Cmd := {
  place := i, w := pktWait k op.code, ctx := k.context.toNat, tlvs := ts
  body := (p.structOf (if op.ofCtx then some k.context.toNat else none) ts).getD []
  ref := match ts.find? fun e => e.1 == 2 with | some e => fld (leNat e.2) 0 48 | none => 0
  port := match ts.find? fun e => e.1 == 7 with
    | some e => (List.range 16).find? fun n => (p.port n).logical == leNat e.2
    | none => none }

/-- A command that waits for its reply (R449). -/
def Pkg.ljWait (p : Pkg) (i : Nat) (w : WaitCmd) : Pkg :=
  let y := p.session i
  { p.setSession i { y with high := Nat.max y.high w.seq, waiting := y.waiting ++ [w], decided := true, lastNs := p.now } with undecided := p.undecided + 1 }

/-- Decide a fresh, permitted command of session place i: format, the command's own rules, legality, its effect (R525,
orders 5 to 7). -/
def Pkg.ljRun (p : Pkg) (op : LjOp) (k : Pkt) (i : Nat) (fmt : Pkg → Cmd → Option (Nat × List Byte)) (run : Pkg → Cmd → Ans) : Pkg :=
  let w := pktWait k op.code
  match p.ljFormat op k with
  | (some e, _) => p.reply i w e.1 e.2
  | (none, ts) =>
    let c := p.cmdOf op k i ts
    match fmt p c with
    | some e => p.reply i w e.1 e.2
    | none =>
      if !p.legalIn op.legal then p.reply i w stBadState (p.stateTlv (if k.ctxF then some c.ctx else none) c.port)
      else match run p c with
        | .no st ps => p.reply i w st ps
        | .ok q ps => q.reply i w 0 ps
        | .wait q => q.ljWait i w

/-- A Luajo command under row `op`: `mine` says whether this command table row is the packet's, `fmt` gives the class
0x01 refusals of the command's own rules, `run` its preconditions and effect. -/
def Pkg.luajo (p : Pkg) (op : LjOp) (k : Pkt) (mine : List TlvE → Bool) (fmt : Pkg → Cmd → Option (Nat × List Byte)) (run : Pkg → Cmd → Ans) : Pkg :=
  let tl := (parseTlvs (k.params.length + 1) k.params).getD []
  if !p.hears k.src || !mine tl then p
  else if pktBadHeader k then p.bump .ljDropHeader 0
  else
    match p.placeOf k with
    | none => p.authFail
    | some i =>
      let p := p.arrivedBy k.src
      let s := p.session i
      let w := pktWait k op.code
      let seq := k.seq.toNat
      if mac16 s.kCmd (pktHeader k op.code ++ k.params) != toLe 16 k.mac.toNat then p.authFail
      else if 256 ≤ p.undecided || (p.ident.loading.isSome && op.legal != 0) then p.replyBusy i w
      else if seq = 0 || (64 ≤ s.high && seq ≤ s.high - 64) then
        ((p.bump .ljSeqStale 0).setFlag .ljStatus p.primary 1).reply i w stSeqStale []
      else
        match s.cache.find? fun e => e.1 == seq with
        | some e => (p.bump .ljRepeat 0).sendReply k.src e.2
        | none =>
          if s.waiting.any fun x => x.seq == seq then
            (p.bump .ljRepeatPending 0).setSession i { s with waiting := s.waiting.map fun x => if x.seq = seq then w else x }
          else
            let p := p.ljDecided op
            if s.bound && (!op.bound || (op.ofCtx && k.context.toNat != s.ctx)) then (p.setFlag .ljStatus p.primary 4).reply i w stNotPermitted []
            else p.ljRun op k i fmt run

/-- No format rule of the command's own. -/
def noFmt (_ : Pkg) (_ : Cmd) : Option (Nat × List Byte) := none
/-- Every packet of the opcode is this row's. -/
def anyTlv (_ : List TlvE) : Bool := true
/-- The token of a waiting command: session place and sequence number. -/
def Cmd.token (c : Cmd) : Option (Nat × Nat) := some (c.place, c.w.seq)

/-! ## Sessions (R443 to R445) -/

/-- Close the session of a place; its waiting commands complete without a reply (R465). -/
def Pkg.closeSession (p : Pkg) (i : Nat) : Pkg :=
  { p.setSession i {} with undecided := p.undecided - (p.session i).waiting.length }

/-- The text of a signature: tag, serial, parts. -/
def Pkg.ljText (p : Pkg) (tag : List Byte) (parts : List (List Byte)) : List Byte := tag ++ toLe 8 p.serial ++ parts.flatten
/-- "LJ1-OPEN". -/
def txtOpen : List Byte := [0x4C, 0x4A, 0x31, 0x2D, 0x4F, 0x50, 0x45, 0x4E]
/-- "LJ1-ACCEPT". -/
def txtAccept : List Byte := [0x4C, 0x4A, 0x31, 0x2D, 0x41, 0x43, 0x43, 0x45, 0x50, 0x54]
/-- "LJ1". -/
def txtLj1 : List Byte := [0x4C, 0x4A, 0x31]

/-- A reply outside any session: SESSION 0 and a zero MAC (R443). -/
def Pkg.replyBare (p : Pkg) (w : WaitCmd) (status : Nat) (params : List Byte) : Pkg :=
  p.sendReply w.src (replyHeader w 0 status params.length ++ params ++ List.replicate 16 0)

/-- SESSION_OPEN (R443, R445): a session by ECDHE on P-384. -/
def execSessionOpen (k : Pkt) (s : State) : Host.Outcome State Fault Refusal :=
  s.run fun p =>
    let op : LjOp := { code := 1, req := [0x11, 0x12, 0x13, 0x14], legal := 0 }
    let w := pktWait k 1
    if !p.hears k.src then p
    else if pktBadHeader k then p.bump .ljDropHeader 0
    else if k.session != 0 then p.authFail
    else if 256 ≤ p.undecided then ((p.bump .ljBusy 0).setFlag .ljStatus p.primary 2).replyBare w stBusy []
    else
      let p := (p.arrivedBy k.src).ljDecided op
      match p.ljFormat op k with
      | (some e, _) => p.replyBare w e.1 e.2
      | (none, ts) =>
        let val (ty : Nat) : List Byte := match ts.find? fun e => e.1 == ty with | some e => e.2 | none => []
        let pub := val 0x11
        let nonce := val 0x12
        let kid := leNat (val 0x14)
        match p.ident.opKeys[kid]? with
        | none => p.replyBare w stAuthKey []
        | some key =>
          let (sec, p) := p.take 384
          let (nn, p) := p.take 256
          let (rid, p) := p.take 32
          match Config.ecdsaOk (leNat key) (Config.sha384 (p.ljText txtOpen [pub, nonce])) (leNat (val 0x13)), Config.ecdh sec pub with
          | true, some x =>
            match (List.range 64).find? fun i => !(p.session i).openF with
            | none => p.replyBare w stSessionFull []
            | some i =>
              let used := (List.range 64).map fun j => (p.session j).id.toNat
              let cand := (List.range 65).map fun j => (rid + j) % (2 ^ 32 - 1) + 1
              let sid := (cand.find? fun v => !used.contains v).getD 1
              let dn := toLe 32 nn
              let dpub : List Byte := 4 :: toBe 96 (Config.ecPub sec)
              let info := leNat (txtLj1 ++ toLe 8 p.serial ++ toLe 4 sid)
              let kc := Config.hkdf x (nonce ++ dn) (2 * info) % 2 ^ 384
              let kr := Config.hkdf x (nonce ++ dn) (2 * info + 1) % 2 ^ 384
              let sig := Config.ecdsaSign p.identKey (Config.sha384 (p.ljText txtAccept [toLe 4 sid, pub, nonce, dpub, dn]))
              let p := p.setSession i {
                openF := true, id := BitVec.ofNat 32 sid, bound := k.ctxF, ctx := if k.ctxF then k.context.toNat else 0, keyId := kid
                kCmd := kc, kRep := kr, opened := p.now, lastNs := p.now, src := some w.src }
              let ps := tlv 0x11 dpub ++ tlv 0x12 dn ++ tlv 0x13 (toBe 96 sig) ++ tlv 0x84 (toLe 4 sid)
              let body := replyHeader w 0 0 ps.length ++ ps
              p.sendReply w.src (body ++ mac16 kr body)
          | _, _ => p.replyBare w stAuthKey []

/-- SESSION_CLOSE (R445): closes the packet's session. -/
def execSessionClose (k : Pkt) (s : State) : Host.Outcome State Fault Refusal :=
  s.run fun p =>
    let q := p.luajo { code := 2, bound := true, legal := 0 } k anyTlv noFmt fun p _ => .ok p []
    -- the session closes once its own command has been decided and answered with OK
    match p.placeOf k with
    | none => q
    | some i =>
      let hit (x : Session) : Bool := x.cache.any fun e => e.1 == k.seq.toNat && fld (leNat (e.2.take 24)) 80 16 == 2 && fld (leNat (e.2.take 24)) 144 16 == 0
      if hit (q.session i) && !hit (p.session i) then q.closeSession i else q

/-- SESSION_IDLE_TIMEOUT (R445): a session that has decided no command within 10 s of opening closes. -/
def execSessionIdleTimeout (place : Fin 64) (s : State) : Host.Outcome State Fault Refusal :=
  s.run fun p => if (p.session place).openF && !(p.session place).decided then p.closeSession place else p

end Sys2Proof.Machine
end

