-- ==== Sys2Proof/Machine/StepCmd.lean ====
section
/-! DEFINITION. The step commands of Luajo: STEP_BEGIN, STEP_COMMIT, STEP_ABORT with and without FORCE, RESHARD (R349, R357, R361,
R367). -/

namespace Sys2Proof.Machine

/-! ## Shared tests -/

/-- The first defect of a list of tests: those that hold are passed over. -/
def firstBad : List (Bool × Nat × List Byte) → Option (Nat × List Byte)
  | [] => none
  | x :: xs => if x.1 then some x.2 else firstBad xs
/-- A defect without reply parameters. -/
def defect (when : Bool) (st : Nat) : Bool × Nat × List Byte := (when, st, [])

/-- Windows that fail in q and did not fail in p (R38). -/
def newFails (p q : Pkg) : List (Nat × Nat × Nat) :=
  let old := (p.failing (List.range 16)).map fun x => (x.1, x.2.1)
  (q.failing (List.range 16)).filter fun x => !old.contains (x.1, x.2.1)
/-- Reply data of a deadline refusal (Table 17.6): the first failing slot and kind, and its w_min. -/
def failTlvs (x : Nat × Nat × Nat) : List Byte := tlv 3 (toLe 1 x.1) ++ tlv 4 (toLe 1 x.2.1) ++ tlv 0x82 (toLe 4 x.2.2)

/-- Objects granted to a context (Table 14.1). -/
def recObjBase (r : Rec) : Nat := fld r 16 12
def recObjCount (r : Rec) : Nat := fld r 32 13

/-! ## STEP_BEGIN (R357 to R359) -/

/-- Reserved bits of a step policy record (Table 13.3). -/
def polReserved (r : Rec) : Bool :=
  fld r 5 3 != 0 || fld r 38 2 != 0 || fld r 56 8 != 0 || fld r 109 3 != 0 || fld r 120 8 != 0 || fld r 164 28 != 0 || fld r 309 203 != 0
/-- Fields of a step policy record of context c in range, its seal objects granted and in one half, its ring in a region (R357). -/
def Pkg.polOk (p : Pkg) (c : Nat) (r : Rec) (len : Nat) : Bool :=
  let g := (p.ctx c).record
  let ini := sgn 10 (fld r 8 10)
  len == 64 + 24 * fld r 304 5 && decide (fld r 304 5 ≤ 16) && decide (1 ≤ fld r 1 3) && decide (-127 ≤ ini) && decide (ini ≤ 127) &&
    decide (sgn 10 (fld r 18 10) ≤ ini) && decide (ini ≤ sgn 10 (fld r 28 10)) && decide (1 ≤ fld r 40 16) &&
    decide (1000 ≤ fld r 64 32) && decide (fld r 64 32 ≤ 600000000) && decide (1 ≤ polSealSlots r) && polSealBase r % 65536 == 0 &&
    p.inRegions c (polSealBase r) (polSealSlots r * 131072) && fld r 256 48 % 64 == 0 &&
    decide (recObjBase g ≤ polBase r) && decide (polBase r + 5 ≤ recObjBase g + recObjCount g) && halfOfObj (polBase r) == halfOfObj (polBase r + 4)
/-- Cursor entries of a step policy record. -/
def polCursors (r : Rec) : List (Nat × Nat × Nat) :=
  (List.range (fld r 304 5)).map fun i => (fld r (512 + 192 * i) 64, fld r (576 + 192 * i) 64, fld r (640 + 192 * i) 64)

/-- Slots whose programs have a valid optimizer record. -/
def Pkg.optSlots (p : Pkg) (c : Nat) : List Nat := (p.slotsOf c).filter fun j => ((p.slot j).workOf 2).valid
/-- The lowest FREE version entry of a slot. -/
def SlotS.freeEntry (s : SlotS) : Option Nat := (List.range 8).find? fun e => (s.ver e).state == 0
/-- Reserve the STAGED entry of a slot with its object (R74, R76). -/
def Pkg.stageVersion (p : Pkg) (j : Nat) : Pkg :=
  let s := p.slot j
  match s.freeEntry with
  | none => p
  | some e =>
    let num := match s.curEntry with | some o => ((s.ver o).num + 1) % 65536 | none => fld s.bind 1336 16
    let y := p.takeObj (halfOfSlot j) 0
    y.2.setVer j e { state := 1, num := num, base := fld s.bind (1536 + 64 * e) 48, gib := fld s.bind (1584 + 64 * e) 16, obj := y.1 }

/-- The step record (Table 13.4). -/
def stepRecord (st : StepS) : List Byte :=
  toLe 64 (put 0 64 st.num + put 64 64 st.committed + put 128 10 (unsgn 10 st.lsExp) + put 138 2 st.prevVerdict)
/-- The slot's gradient object is zeroed and armed (R357). -/
def Pkg.armGradient (p : Pkg) (j : Nat) : Pkg :=
  let s := p.slot j
  let o := fld s.bind 1288 12
  if (p.sync o).binding = 2 && (p.sync o).index == j then ((p.modSync o fun x => { x with ctr := 0 }).armObj o (fld s.bind 1304 32)).wakeWaiters o else p
/-- A seal object is taken by the device; those of the step's parity are zeroed (R357, R363). -/
def Pkg.takeSeal (p : Pkg) (base par i : Nat) : Pkg :=
  p.modSync (base + i) fun o => { o with owner := 0x100, ctr := if i = par || i = 2 + par then 0 else o.ctr }

/-- The effects of STEP_BEGIN n (R357), in one act. -/
def Pkg.stepBegin (p : Pkg) (c n : Nat) (items : List Byte) (record : Option Rec) : Pkg :=
  let slots := p.slotsOf c
  let p := slots.foldl Pkg.phaseTick p
  let p := (p.optSlots c).foldl Pkg.stageVersion p
  let cores := p.ctxCores c
  let p := p.modStep c fun s =>
    let s := match record with
      | some r => { s with policy := r % 2 ^ 512, hasPolicy := true, lsExp := sgn 10 (fld r 8 10), lsGood := 0, cursors := polCursors r }
      | none => s
    { s with
      state := 1, num := n, begun := true, nonfinite := false, nonfinRaised := false, ready := false, voted := false, verdict := 0
      verdictIn := false, children := 0, timedOut := false, limitHit := false, aborted := false, localCause := 0, causeSent := false
      openNs := p.icount p.primary, replyCommit := none, replyAbort := []
      streams := (List.range 64).foldl (fun t i => tabSet 0 t i (match p.streamAddr c i with | some a => p.loadNum (a + 16) 16 | none => 0)) []
      accRep0 := p.sumCtr .engRepeat cores, accSat0 := p.sumCtr .engSatCells cores, vecOvf0 := p.sumCtr .vecOverflow cores }
  let p := slots.foldl (fun p j => p.modSlot j fun s => { s with
    itemsExpect := leNat ((items.drop (4 * j)).take 4), itemsEnd := 0, optEnded := false, optPosted := false, phase := [], phaseAt := p.now }) p
  let st := (p.ctx c).step
  let p := (List.range 5).foldl (fun p i => p.takeSeal (polBase st.policy) (n % 2) i) p
  let p := p.store (fld st.policy 256 48) (stepRecord st)
  (slots.foldl Pkg.armGradient p).ctxEval c

/-- Ports in ABSENT with STOP_ON_FAULT stop the device at STEP_BEGIN (R130). -/
def Pkg.stopAbsent (p : Pkg) : Pkg :=
  (List.range 16).foldl (fun p k => if (p.port k).state = .absent && (p.port k).stopOnFault then p.stopAll k else p) p

/-- STEP_BEGIN (R356, R357). -/
def execStepBegin (k : Pkt) (s : State) : Host.Outcome State Fault Refusal :=
  s.run fun p => p.luajo { code := 0x60, req := [6, 0x17], opt := [1], ofCtx := true, bound := true } k anyTlv
    (fun p c => firstBad [
      defect (c.has 1 && polReserved c.strct) stReserved
      , defect (if c.has 1 then !p.polOk c.ctx c.strct c.body.length else !(p.ctx c.ctx).step.hasPolicy) stSealTree])
    fun p c =>
      let x := p.ctx c.ctx
      let n := c.num 6
      if x.step.state = 1 || x.step.state = 2 || x.state = .empty || x.state = .faulted then p.badState c stBadState
      else if 2 ^ 61 ≤ n || (x.step.begun && n != x.step.num + 1) then .no stStepSequence []
      else if (p.optSlots c.ctx).any fun j => (p.slot j).freeEntry.isNone then .no stVersionFull []
      else if !p.objsFor (p.optSlots c.ctx) then .no stVersionObjects []
      else match p.degraded, p.planUnmet with
        | false, e :: _ => .no stPlanUnmet (tlv 0x85 (toLe 4 e))
        | _, unmet =>
          if p.secBusy c.ctx n then .no stSecureBusy []
          else
            let p := unmet.foldl (fun p e => p.raise .ldPlanUnmet p.primary c.ctx e 0) p
            .ok (p.stepBegin c.ctx n (c.bytes 0x17) (if c.has 1 then some c.strct else none)).stopAbsent []

/-! ## STEP_COMMIT and STEP_ABORT (R352, R361, R367) -/

/-- STEP_COMMIT (R361): the step enters SEALING and the reply waits for the verdict. -/
def execStepCommit (k : Pkt) (s : State) : Host.Outcome State Fault Refusal :=
  s.run fun p => p.luajo { code := 0x61, req := [6], ofCtx := true, bound := true } k anyTlv noFmt fun p c =>
    let x := p.ctx c.ctx
    if x.step.state != 1 || x.step.num != c.num 6 then p.badState c stBadState
    else if x.reshard.given && x.reshard.failed then .no stReshardFailed []
    else if x.reshard.given && !x.reshard.complete then .no stReshardPending []
    else .wait (p.modStep c.ctx fun s => { s with state := 2, sealNs := p.now, replyCommit := c.token })

/-- What STEP_ABORT does at once (R367): items and moves of the step go, the cause is other, a clean vote gets a late one. -/
def Pkg.stepAbort (p : Pkg) (c : Nat) (token : Option (Nat × Nat)) : Pkg :=
  let n := (p.ctx c).step.num
  let p := (p.stepSlots c).foldl (fun p j => p.discardSlot j true fun i => i.ofStep n) p
  let p := (p.reshardStop c).lateVote c
  (p.modStep c fun s => { s with
    sealNs := if s.state = 1 then p.now else s.sealNs, state := 2, aborted := true, localCause := 2, replyAbort := s.replyAbort ++ token.toList }).ctxEval c

/-- Both forms of STEP_ABORT: FLAGS bit 0 is FORCE. -/
def Pkg.cmdAbort (p : Pkg) (k : Pkt) (force : Bool) : Pkg :=
  p.luajo { code := 0x62, req := [6], opt := [0x0D], ofCtx := true, bound := true } k
    (fun ts => (ts.any fun e => e.1 == 0x0D && bit (leNat e.2) 0) == force)
    (fun _ c => firstBad [defect (c.num 0x0D / 2 != 0) stReserved])
    fun p c =>
      let st := (p.ctx c.ctx).step
      if (st.state != 1 && st.state != 2) || st.num != c.num 6 then p.badState c stBadState
      else if force && st.voted && !st.verdictIn then
        let p := (p.raise .stepForced p.primary c.ctx c.ctx st.num).bump .stepForced c.ctx
        .ok (p.applyVerdict c.ctx 3 true) (stepTlvs st.num 3 none)
      else .wait (p.stepAbort c.ctx c.token)
/-- STEP_ABORT without FORCE (R367). -/
def execStepAbort (k : Pkt) (s : State) : Host.Outcome State Fault Refusal := s.run fun p => p.cmdAbort k false
/-- STEP_ABORT with FORCE (R367): a device that has voted and holds no verdict leaves SEALING at once. -/
def execStepAbortForce (k : Pkt) (s : State) : Host.Outcome State Fault Refusal := s.run fun p => p.cmdAbort k true

/-! ## RESHARD (R348 to R350) -/

/-- Move and rebind entries of a plan. -/
def planMoves (r : Rec) : List Rec := (List.range (fld r 64 16)).map fun i => fld r (512 + 256 * i) 256
def planRebinds (r : Rec) : List Rec := (List.range (fld r 80 5)).map fun i => fld r (512 + 256 * fld r 64 16 + 512 * i) 512
/-- Reserved bits of a plan (Tables 12.2, 12.3). -/
def planReserved (r : Rec) : Bool :=
  fld r 85 3 != 0 || fld r 93 3 != 0 || fld r 108 4 != 0 || fld r 124 4 != 0 || fld r 144 16 != 0 || fld r 208 304 != 0 ||
    ((planMoves r).any fun m => fld m 48 16 != 0 || fld m 112 16 != 0 || fld m 176 16 != 0) ||
    ((planRebinds r).any fun b => fld b 4 60 != 0 || fld b 448 64 != 0)
/-- Do two ranges share a byte? -/
def overlaps (a n b m : Nat) : Bool := decide (a < b + m) && decide (b < a + n)
/-- The format tests of R349. -/
def Pkg.planOk (p : Pkg) (c : Nat) (r : Rec) (len : Nat) : Bool :=
  let ms := planMoves r
  let bs := planRebinds r
  let st := fld r 160 48
  fld r 0 32 == 0x4E50_4852 && len == 64 + 32 * ms.length + 64 * bs.length && decide (bs.length ≤ 16) &&
    decide (16 ≤ fld r 88 5) && decide (fld r 88 5 ≤ 26) && st % 65536 == 0 && p.inRegions c st (2 * rsChunk r) &&
    ms.all (fun m => fld m 0 48 % 65536 == 0 && fld m 64 48 % 65536 == 0 && fld m 224 32 != 0 && p.covered c (fld m 0 48) (mvLen m) 0 &&
      !overlaps (fld m 0 48) (mvLen m) st (2 * rsChunk r) && ms.all fun o => fld o 128 24 != fld m 128 24 || fld o 152 12 == fld m 152 12) &&
    bs.all fun b => (p.slot (fld b 0 4)).bound && (p.slot (fld b 0 4)).ctx == c

/-- RESHARD (R349, R350): the plan is taken and its moves begin beside the step. -/
def execReshard (k : Pkt) (s : State) : Host.Outcome State Fault Refusal :=
  s.run fun p => p.luajo { code := 0x83, req := [2], ofCtx := true, bound := true } k anyTlv
    (fun p c => firstBad [
      defect (planReserved c.strct) stReserved
      , defect (!p.planOk c.ctx c.strct c.body.length) stReshardFormat])
    fun p c =>
      let x := p.ctx c.ctx
      let r := c.strct
      if x.step.state != 1 then p.badState c stBadState
      else if x.reshard.given then .no stReshardActive []
      else if (planRebinds r).any fun b => (bitsOf 384 (fld b 64 384)).any fun g => !(p.die (dieOfCore g)).admitted then .no stCoreUnavailable []
      else
        let q := (planRebinds r).foldl (fun p b => p.modSlot (fld b 0 4) fun s => { s with bind := setFld s.bind 0 384 (fld b 64 384) }) p
        if !(newFails p q).isEmpty then .no stDeadlineInfeasible []
        else .ok ((p.modReshard c.ctx fun _ => { given := true, active := true, hdr := r % 2 ^ 512, moves := planMoves r, rebinds := planRebinds r, planAt := c.ref, planLen := c.body.length }).reshardAdvance c.ctx) []

end Sys2Proof.Machine
end

