-- ==== Sys2Proof/Machine/CtxCmd.lean ====
section
/-! DEFINITION. Context and serving commands (R372 to R394), and the events of pre-emption and swapping. -/

namespace Sys2Proof.Machine

/-! ## CONTEXT_CREATE, CONTEXT_DESTROY, CONTEXT_SET_CLASS (R373 to R377, R389) -/

/-- Reserved bits of a context record and of the serving record behind it (Tables 14.1, 14.8). -/
def ctxReserved (r : Rec) : Bool :=
  fld r 2 14 != 0 || fld r 28 4 != 0 || fld r 45 19 != 0 || fld r 86 10 != 0 || fld r 118 10 != 0 || fld r 640 384 != 0 ||
    ((List.range 16).any fun s => fld r (1024 + 64 * s + 48) 16 != 0) ||
    (bit r 1 && (let v := fld r 2048 512
      fld v 48 16 != 0 || fld v 122 6 != 0 || fld v 176 16 != 0 || fld v 204 4 != 0 || fld v 216 8 != 0 || fld v 248 264 != 0))
/-- Footprint cores whose images stack s holds (R383). -/
def saveCores (r : Rec) (s : Nat) : List Nat := (bitsOf 384 (recFoot r)).filter fun g => saveStack g == s
/-- End of the last image the extent of stack s must hold (R374); 0 when it holds none. -/
def saveNeed (r : Rec) (s : Nat) : Nat := (saveCores r s).foldl (fun m g => Nat.max m (saveOff g + 245760 + recSpSize r)) 0
/-- Fields of a context record in range (R374). -/
def Pkg.ctxOk (p : Pkg) (c : Nat) (r : Rec) (len : Nat) : Bool :=
  let v := fld r 2048 512
  len == (if bit r 1 then 320 else 256) && decide (recObjCount r ≤ 2048) && decide (recObjBase r + recObjCount r ≤ 4096) &&
    recSpLo r % 65536 == 0 && recSpSize r % 65536 == 0 && decide (recSpLo r + recSpSize r ≤ 0x3F_0000) && recFoot r != 0 &&
    (List.range 16).all (fun s => (saveCores r s).isEmpty ||
      (recExt r s % 65536 == 0 && isStackAddr (recExt r s) && stackOf (recExt r s) == s && p.inRegions c (recExt r s) 1)) &&
    (!bit r 1 || (svBase v % 65536 == 0 && svBatch v % 65536 == 0 && p.inRegions c (svBase v) 1))

/-- A context is created with its objects, in LOADED or SWAPPED (R374). -/
def Pkg.ctxCreate (p : Pkg) (c : Nat) (r : Rec) : Pkg :=
  let v := fld r 2048 512
  let old := p.ctx c
  let fits := (p.setCtx c { old with record := r % 2 ^ 2048 }).fits (c :: p.placed)
  let p := (List.range (recObjCount r)).foldl (fun p i => p.modSync (recObjBase r + i) fun o => { o with owner := c }) p
  let p := p.setCtx c { ({} : Ctx) with
    record := r % 2 ^ 2048, serve := if bit r 1 then v else 0, lc := bit r 0, resident := fits, place := if fits then p.freePlace else 0
    enteredNs := old.enteredNs, freePages := if bit r 1 then svPool v else [] }
  p.ctxTo c (if fits then .loaded else .swapped)

/-- CONTEXT_CREATE (R374). -/
def execContextCreate (k : Pkt) (s : State) : Host.Outcome State Fault Refusal :=
  s.run fun p => p.luajo { code := 0x30, req := [1], ofCtx := true } k anyTlv
    (fun p c => firstBad [
      defect (ctxReserved c.strct) stReserved
      , defect (!p.ctxOk c.ctx c.strct c.body.length) stContextFormat])
    fun p c =>
      let r := c.strct
      let objs := (List.range (recObjCount r)).map (recObjBase r + ·)
      if (p.ctx c.ctx).state != .empty then p.badState c stBadState
      else if 256 ≤ (p.ctxs.filter fun e => e.2.state != .empty).length then .no stContextLimit []
      else if (objs.any fun o => ((p.sync o).owner != 0x1FF && (p.sync o).owner != c.ctx) || !p.dieUp (queueDie (halfOfObj o))) ||
          (recObjBase r < 2048 && 2048 < recObjBase r + recObjCount r) then .no stObjectsUnavailable []
      else if (List.range 16).any fun s => !(saveCores r s).isEmpty &&
          !(p.inRegions c.ctx (recExt r s) (saveNeed r s) && stackOf (recExt r s + saveNeed r s - 1) == s) then .no stSaveAreaSmall []
      else .ok (p.ctxCreate c.ctx r) []

/-- CONTEXT_DESTROY (R375): regions, objects, endpoints and connections go. -/
def execContextDestroy (k : Pkt) (s : State) : Host.Outcome State Fault Refusal :=
  s.run fun p => p.luajo { code := 0x31, ofCtx := true } k anyTlv noFmt fun p c =>
    let x := p.ctx c.ctx
    if x.state = .empty || x.step.state = 1 || x.step.state = 2 || !(p.slotsOf c.ctx).isEmpty then p.badState c stBadState
    else
      let gone := p.regions.filter fun r => r.owner == c.ctx
      let p := { p with
        regions := p.regions.filter fun r => r.owner != c.ctx
        syncs := p.syncs.filter fun e => e.2.owner != c.ctx
        waiters := p.waiters.filter fun w => !(w.pkt.src.toNat == p.fabAddr && fld w.pkt.kspec.toNat 32 8 == c.ctx) }
      let p := gone.foldl Pkg.unstick p
      let p := (List.range 16).foldl (fun p j => p.modSlot j fun s => if s.imgCtx = c.ctx then { s with hasImage := false } else s) p
      let p := p.ctxTo c.ctx .empty
      .ok ((p.setCtx c.ctx { enteredNs := (p.ctx c.ctx).enteredNs }).swapEval) []

/-- Do two slots of one class hold admitted windows on overlapping cores (R37)? -/
def Pkg.classShared (p : Pkg) : Bool :=
  let has (j : Nat) : Bool := (p.slot j).bound && (List.range 3).any fun k => (p.dlWin (4 * j + k)).w != 0
  (List.range 16).any fun j => (List.range j).any fun i =>
    has i && has j && (p.ctx (p.slot i).ctx).lc == (p.ctx (p.slot j).ctx).lc && fld (p.slot i).bind 0 384 &&& fld (p.slot j).bind 0 384 != 0
/-- CONTEXT_SET_CLASS (R377). -/
def execContextSetClass (k : Pkt) (s : State) : Host.Outcome State Fault Refusal :=
  s.run fun p => p.luajo { code := 0x32, req := [0x10], ofCtx := true } k anyTlv noFmt fun p c =>
    if (p.ctx c.ctx).state = .empty then p.badState c stBadState
    else
      let q := p.modCtx c.ctx fun x => { x with lc := c.num 0x10 == 1 }
      if q.classShared && !p.classShared then .no stDeadlineShared [] else .ok q.swapEval []

/-! ## RUN and PREEMPT (R375, R379, R381, R382) -/

/-- RUN (R375): a LOADED or SWAPPED context is scheduled; the first RUN starts the package (R451). -/
def execRun (k : Pkt) (s : State) : Host.Outcome State Fault Refusal :=
  s.run fun p => p.luajo { code := 0x70, ofCtx := true, bound := true } k anyTlv noFmt fun p c =>
    let x := p.ctx c.ctx
    if x.state != .loaded && x.state != .swapped then p.badState c stBadState
    else
      let p := if p.pkgState = 2 then p.pkgTo (if p.atFloor then 3 else 4) else p
      if x.state = .swapped then .ok (p.setCtx c.ctx { x with runGiven := true }).swapEval []
      else .ok (((p.setCtx c.ctx { x with runGiven := true, scheduled := true }).ctxTo c.ctx .blocked).ctxEval c.ctx).swapEval []

/-- Both forms of PREEMPT: FLAGS bit 0 is SWAP. -/
def Pkg.cmdPreempt (p : Pkg) (k : Pkt) (swap : Bool) : Pkg :=
  p.luajo { code := 0x71, opt := [0x0D], ofCtx := true } k
    (fun ts => (ts.any fun e => e.1 == 0x0D && bit (leNat e.2) 0) == swap)
    (fun _ c => firstBad [defect (c.num 0x0D / 2 != 0) stReserved])
    fun p c =>
      let x := p.ctx c.ctx
      if !x.resident || x.state = .faulted || x.state = .empty then p.badState c stBadState
      else
        let p := p.bump .ctxPreempt c.ctx
        if swap then
          .wait ((p.swapOut c.ctx false).modCtx c.ctx fun x => { x with runGiven := false, swapReply := x.swapReply ++ c.token.toList })
        else
          let p := p.modCtx c.ctx fun x => { x with
            preempting := true, scheduled := false, runGiven := false, runnableSince := none, preemptReply := x.preemptReply ++ c.token.toList }
          let p := (p.slotsOf c.ctx).foldl (fun p j => [0, 1].foldl (fun p q =>
            if ((p.slot j).pos q).isSome then p.preemptItem j q false else p) p) p
          .wait (p.ctxTo c.ctx .loaded)
/-- PREEMPT (R379): every running item is killed and the context is LOADED. -/
def execPreempt (k : Pkt) (s : State) : Host.Outcome State Fault Refusal := s.run fun p => p.cmdPreempt k false
/-- PREEMPT with SWAP (R382): items freeze or are killed, and the context is saved. -/
def execPreemptSwap (k : Pkt) (s : State) : Host.Outcome State Fault Refusal := s.run fun p => p.cmdPreempt k true

/-- Answer the waiting commands of a list. -/
def Pkg.replyAll (p : Pkg) (ts : List (Nat × Nat)) : Pkg := ts.foldl (fun p t => p.replyWaiting (some t) 0 []) p
/-- PREEMPTION_DONE (R379 order 5). -/
def execPreemptionDone (ctx : CtxId) (s : State) : Host.Outcome State Fault Refusal :=
  s.run fun p =>
    let x := p.ctx ctx
    if !x.preempting then p
    else ((p.setCtx ctx { x with preempting := false, preemptReply := [] }).replyAll x.preemptReply).swapEval

/-! ## Swapping (R381 to R385) -/

/-- SWAP_HOLD_EXPIRY (R381). -/
def execSwapHoldExpiry (ctx : CtxId) (s : State) : Host.Outcome State Fault Refusal :=
  s.run fun p =>
    let x := p.ctx ctx
    if x.resident && (x.state = .blocked || x.state = .loaded) then (p.setCtx ctx { x with holdDone := true }).swapEval else p

/-- FREEZE_WAIT_EXPIRY (R382): candidates that have not come to rest are killed. -/
def execFreezeWaitExpiry (ctx : CtxId) (s : State) : Host.Outcome State Fault Refusal :=
  s.run fun p =>
    let x := p.ctx ctx
    if !x.freezeWait then p
    else
      let late := x.frozenItems.filter fun i => !p.quiescent i.1 i.2
      let p := late.foldl (fun p i => ((p.preemptItem i.1 i.2 x.swapByLc).bump .ctxFreezeKill ctx).setFlag .schedStatus p.primary 2) p
      p.modCtx ctx fun x => { x with freezeWait := false, frozenItems := x.frozenItems.filter fun i => !late.contains i }

/-- SWAP_SAVE_COMPLETE (R384): the images stand and the context is SWAPPED; one that has faulted stays so. -/
def execSwapSaveComplete (ctx : CtxId) (s : State) : Host.Outcome State Fault Refusal :=
  s.run fun p =>
    let x := p.ctx ctx
    if !x.saving || !(x.frozenItems.all fun i => p.quiescent i.1 i.2) || p.imageWaits ctx then p
    else
      let p := p.saveDone ctx
      let p := if (p.ctx ctx).state = .faulted then p else p.ctxTo ctx .swapped
      ((p.modCtx ctx fun x => { x with swapReply := [] }).replyAll x.swapReply).swapEval

/-- SWAP_IN_COMPLETE (R385): once no victim is still being saved, threads resume and dispatch restarts. -/
def execSwapInComplete (ctx : CtxId) (s : State) : Host.Outcome State Fault Refusal :=
  s.run fun p =>
    if !(p.ctx ctx).swapIn || (p.ctxs.any fun e => e.2.swapping) || (p.ctx ctx).hasImage && p.imageWaits ctx then p else (p.restoreDone ctx).swapEval

/-! ## SERVE_JOIN and SERVE_LEAVE (R392, R393) -/

/-- Is an identifier known to a serving context? -/
def Ctx.knows (x : Ctx) (id : Nat) : Bool := (x.seqs.any fun s => s.id == id) || x.joins.any fun j => j.id == id

/-- SERVE_JOIN (R392): the join is pending until a round admits it. -/
def execServeJoin (k : Pkt) (s : State) : Host.Outcome State Fault Refusal :=
  s.run fun p => p.luajo { code := 0x90, req := [0x0A, 0x0E, 0x0F, 0x10], ofCtx := true, bound := true } k anyTlv
    (fun p c =>
      let x := p.ctx c.ctx
      let v := c.num 0x0A
      firstBad [
        defect (fld v 38 26 != 0) stReserved
        , defect (c.num 0x0E == 0xFFFF_FFFF || fld v 0 32 == 0 || (bit x.record 1 && (decide (svMaxTok x.serve < fld v 0 32) || decide (svStreams x.serve ≤ fld v 32 6)))) stRange])
    fun p c =>
      let x := p.ctx c.ctx
      let v := c.num 0x0A
      let j : Join := { id := c.num 0x0E, stream := fld v 32 6, lc := c.num 0x10 == 1, prompt := fld v 0 32, roundAt := c.num 0x0F, reply := c.token }
      if x.state = .empty || !bit x.record 1 then p.badState c stBadState
      else if x.knows j.id then .no stSeqExists []
      else if svMaxSeq x.serve ≤ x.seqs.length + x.joins.length then .no stSeqTableFull []
      else if (svPool x.serve).length < joinNeed x.serve j then .no stKvPoolSmall []
      else .wait (p.setCtx c.ctx { x with joins := x.joins ++ [j] })

/-- SERVE_LEAVE (R393): a pending join is cancelled; a sequence leaves at the commit of the round named or of the current one. -/
def execServeLeave (k : Pkt) (s : State) : Host.Outcome State Fault Refusal :=
  s.run fun p => p.luajo { code := 0x91, req := [0x0E, 0x0F], ofCtx := true, bound := true } k anyTlv (fun _ c => firstBad [defect (c.num 0x0E == 0xFFFF_FFFF) stReserved]) fun p c =>
    let x := p.ctx c.ctx
    let id := c.num 0x0E
    let last := Nat.max (c.num 0x0F) x.round
    let ans := tlv 0x0F (toLe 8 last)
    match x.joins.find? fun j => j.id == id with
    | some j => .ok ((p.setCtx c.ctx { x with joins := x.joins.filter fun y => y.id != id }).replyWaiting j.reply stSeqUnknown []) ans
    | none =>
      if x.seqs.any fun s => s.id == id then
        .ok (p.setCtx c.ctx { x with seqs := x.seqs.map fun s => if s.id = id then { s with leaveAt := some last } else s }) ans
      else .no stSeqUnknown []

end Sys2Proof.Machine
end

