-- ==== Sys2Proof/Machine/SlotCmd.lean ====
section
/-! DEFINITION. Commands on programs, slots, windows, memory regions and the power policy (R35 to R38, R49 to R52, R217, R223, R283,
R302, R457, R458, R460, R473). -/

namespace Sys2Proof.Machine

/-! ## Shared tests -/

/-- A structure of exactly n bytes; any other length is a bad parameter. -/
def badLen (c : Cmd) (n : Nat) : Bool × Nat × List Byte := (c.body.length != n, stBadParam, tlv 0x85 (toLe 4 1))
/-- Windows that a command admits afresh, its inputs having changed: V_REQ follows, and a window that POWER_POLICY listed is carried again
(R36, R38, R42 condition 2). `old` is the package before the command. -/
def Pkg.reAdmit (p old : Pkg) : Pkg :=
  (List.range 64).foldl (fun p n =>
    let w := p.dlWin n
    let s := p.slot (n / 4)
    let o := old.slot (n / 4)
    let same := s.bind == o.bind && s.workOf (n % 4) == o.workOf (n % 4) && p.bAdm s.bind == old.bAdm o.bind
    let a := p.admission s.bind (s.workOf (n % 4)) w.w
    if w.w = 0 || !s.bound || same || !a.ok then p else p.setDlWin n { w with vreq := a.vreq, listed := false }) p
/-- Answer with q unless it makes an admitted window fail (R38). -/
def Pkg.unlessFails (p q : Pkg) : Ans :=
  match newFails p q with
  | x :: _ => .no stDeadlineInfeasible (failTlvs x)
  | [] => .ok (q.reAdmit p) []

/-! ## LOAD_PROGRAM (R221 to R223, R386) -/

/-- Reserved bits of an image's header, work records and resource record (Tables 2.2, 3.1, 8.7). -/
def imgReserved (b : List Byte) : Bool :=
  let h := leNat (b.take 64)
  let w (k : Nat) : Rec := leNat ((b.drop (64 + 32 * k)).take 32)
  fld h 56 8 != 0 || fld h 272 48 != 0 || fld h 413 99 != 0 || fld (w 3) 192 64 != 0 ||
    (List.range 3).any fun k => fld (w k) 225 31 != 0
/-- Sections of an image as (offset, bytes). -/
def imgSections (h : Rec) : List (Nat × Nat) :=
  [(0, 0xC0), (fld h 224 32, fld h 256 16), (fld h 96 32, 8 * fld h 128 32)] ++ (if fld h 192 32 = 0 then [] else [(fld h 160 32, fld h 192 32)])
/-- The format tests of R223. -/
def imgOk (b : List Byte) : Bool :=
  let h := leNat (b.take 64)
  let valid (k : Nat) : Bool := bit (leNat ((b.drop (64 + 32 * k)).take 32)) 224
  let secs := imgSections h
  decide (0xC0 ≤ b.length) && fld h 0 32 == 0x3233_5056 && fld h 32 16 == 1 && decide (fld h 64 32 ≤ b.length) &&
    fld h 96 32 % 64 == 0 && fld h 160 32 % 64 == 0 && (fld h 192 32 != 0 || fld h 160 32 == 0) &&
    decide (1 ≤ fld h 128 32) && decide (fld h 128 32 ≤ 2 ^ 24) && decide (1 ≤ fld h 256 16) &&
    secs.all (fun s => decide (s.1 + s.2 ≤ fld h 64 32)) &&
    secs.zipIdx.all (fun a => secs.zipIdx.all fun c => decide (c.2 ≤ a.2) || !(decide (a.1.1 < c.1.1 + c.1.2) && decide (c.1.1 < a.1.1 + a.1.2))) &&
    (List.range 3).all fun k =>
      decide (hdrEntry h k < fld h 128 32) &&
        (if valid k then decide (1 ≤ hdrKindThreads h k) && decide (hdrKindThreads h k ≤ 64) else hdrKindThreads h k == 0)
/-- Permitted gradient formats of a forward format (Table 5.12), as codes of Table 6.3. -/
def gradFormats (fwd : Nat) : List Nat :=
  match fwd with
  | 0 | 1 => [5, 7, 9, 11]
  | 4 | 5 => [5, 7, 11]
  | 6 => [7, 11]
  | 8 => [9, 11]
  | 7 | 9 => [7, 9, 11]
  | 11 | 10 | 2 | 3 => [11]
  | _ => []
/-- Every layer's pair of formats is permitted (R159). -/
def imgPairs (b : List Byte) : Bool :=
  let h := leNat (b.take 64)
  ((b.drop (fld h 224 32)).take (fld h 256 16)).all fun x => (gradFormats (x.toNat % 16)).contains (x.toNat / 16)

/-- A FAULTED context is reloaded (R386): faulted threads and queues go, their pages are released, and it is LOADED. -/
def Pkg.reload (p : Pkg) (c : Nat) : Pkg :=
  let p := (p.slotsOf c).foldl (fun p j =>
    let p := p.discardSlot j false fun _ => true
    let p := [0, 1].foldl (fun p q =>
      let e := p.egr j q
      let unsent := e.queue.find? fun m => !m.headSent
      let back : Egress := { e with queue := [], seq := match unsent with | some m => m.seq | none => e.seq, pageSeq := match unsent with | some m => m.page0 | none => e.pageSeq }
      e.queue.foldl (fun p m => p.egrRelease j m.first m.pages) (p.setEgr j q back)) p
    let p := p.stashDrop j
    if (p.slot j).reserved then (p.releaseSlot j).reserveSlot j else p) p
  let x := p.ctx c
  let stay := x.resident || p.fits (c :: p.placed)
  let p := p.setCtx c { x with cause := 0, runGiven := false, resident := stay, place := if x.resident then x.place else p.freePlace }
  let p := if stay && !x.resident then (p.slotsOf c).foldl Pkg.reserveSlot p else p
  p.ctxTo c (if stay then .loaded else .swapped)

/-- The image is installed (R221); a bound slot's reservation follows its thread counts, and a step that has ended is IDLE (R355). -/
def Pkg.install (p : Pkg) (c j addr : Nat) (b : List Byte) : Pkg :=
  let p := p.modSlot j fun s => { s with
    image := addr, hasImage := true, imgCtx := c, hdr := leNat (b.take 64), work := leNat ((b.drop 64).take 96), res := leNat ((b.drop 160).take 32) }
  let p := if (p.slot j).reserved then (p.releaseSlot j).reserveSlot j else p
  let p := p.modStep c fun s => if s.state = 3 || s.state = 4 then { s with state := 0 } else s
  if (p.ctx c).state = .faulted then p.reload c else p

/-- LOAD_PROGRAM (Table 17.6, R223); a slot of a queue die out of service is unavailable (R22; log entry 179). -/
def execLoadProgram (k : Pkt) (s : State) : Host.Outcome State Fault Refusal :=
  s.run fun p => p.luajo { code := 0x40, req := [2, 3], ofCtx := true, bound := true } k anyTlv
    (fun p c => firstBad [
      defect (imgReserved c.body) stReserved
      , defect (!imgOk c.body) stImageFormat
      , defect (decide ((p.die p.primary).pkgFeature < fld (leNat (c.body.take 64)) 48 8)) stImageFeature
      , defect (!imgPairs c.body) stFormatPair])
    fun p c =>
      let j := c.num 3
      let x := p.slot j
      if (p.ctx c.ctx).state = .empty then p.badState c stBadState
      else if !p.homeUp j then .no stDieUnavailable []
      else if x.bound && x.ctx != c.ctx then .no stSlotBound []
      else if x.fwd.isSome || x.bwd.isSome || !(p.ing j 0).queue.isEmpty || !(p.ing j 1).queue.isEmpty then .no stSlotActive []
      else if (p.ctx c.ctx).step.state = 2 then p.badState c stBadState
      else p.unlessFails (p.install c.ctx j c.ref c.body)

/-! ## BIND_SLOT and UNBIND_SLOT (R49 to R51, R217, R457) -/

/-- Places of the region descriptors of a binding record. -/
def bindRegions : List Nat := [512, 640, 768, 896, 1024, 1152]
/-- Reserved bits of a binding record (Table 17.9). -/
def bindReserved (r : Rec) : Bool :=
  fld r 508 4 != 0 || bit r 1287 || fld r 1300 4 != 0 || fld r 1428 108 != 0 ||
    bindRegions.any fun o => fld r (o + 48) 16 != 0 || fld r (o + 120) 8 != 0 || (o != 1024 && fld r (o + 96) 24 != 0)
/-- Fields of a binding record in range, its regions within those of the context. -/
def Pkg.bindOk (p : Pkg) (c : Nat) (r : Rec) : Bool :=
  fld r 0 384 != 0 && decide (1 ≤ fld r 1280 7) && decide (fld r 1280 7 ≤ 64) &&
    bindRegions.all fun o =>
      let n := fld r (o + 64) 32
      fld r o 48 % 65536 == 0 && (n == 0 || (o == 1024 && fld r 1120 24 != 0) || p.inRegions c (fld r o 48) (65536 * n))

/-- The slot as bound: fresh queues that count from zero, credits granted at once (R49, R56, R58, R59). -/
def Pkg.bindSlot (p : Pkg) (c j : Nat) (r : Rec) : Pkg :=
  let x := p.slot j
  let own (v : Nat) : Nat := if v = 0 then p.fabAddr else v
  let ing (reg snd : Nat) : Ingress := { base := fld r reg 48, pages := fld r (reg + 64) 32, sender := own (fld r snd 24), senderSlot := fld r (snd + 24) 4 }
  let egr (rcv : Nat) : Egress := { peer := own (fld r rcv 24), peerSlot := fld r (rcv + 24) 4 }
  let p := p.setSlot j { ({} : SlotS) with
    image := x.image, hasImage := x.hasImage, hdr := x.hdr, work := x.work, res := x.res, imgCtx := x.imgCtx
    bound := true, ctx := c, bind := r, phaseAt := p.now, groupNext := x.groupNext, published := x.published
    ing := tabSet {} (tabSet {} (tabSet {} [] 0 (ing 512 384)) 1 (ing 640 448)) 2 (ing 1152 1400)
    egr := tabSet {} (tabSet {} (tabSet {} [] 0 (egr 416)) 1 (egr 480)) 2 (egr 1368) }
  let o := fld r 1288 12
  let p := if (p.sync o).owner = c && (p.sync o).binding = 0 then p.modSync o fun y => { y with binding := 2, index := j } else p
  let p := if (p.ctx c).resident then p.reserveSlot j else p
  ([0, 1, 2].foldl (fun p q => p.grantCheck j q false) p).ctxEval c

/-- BIND_SLOT (R50, R217, R373); a slot of a queue die out of service is unavailable (R22; log entry 179). -/
def execBindSlot (k : Pkt) (s : State) : Host.Outcome State Fault Refusal :=
  s.run fun p => p.luajo { code := 0x41, req := [1, 3], ofCtx := true } k anyTlv
    (fun p c => firstBad [
      badLen c 256
      , defect (bindReserved c.strct) stReserved
      , defect (!p.bindOk c.ctx c.strct) stRange])
    fun p c =>
      let j := c.num 3
      let x := p.slot j
      let r := c.strct
      let cores := bitsOf 384 (fld r 0 384)
      let q := p.bindSlot c.ctx j r
      if (p.ctx c.ctx).state = .empty || !x.hasImage || x.imgCtx != c.ctx then .no stNoProgram []
      else match newFails p (p.modSlot j fun s => { s with bind := r, bound := true, ctx := c.ctx }) with
        | f :: _ => .no stDeadlineInfeasible (failTlvs f)
        | [] =>
          if x.bound then .no stSlotBound []
          else if !p.homeUp j then .no stDieUnavailable []
          else if cores.any fun g => !(p.die (dieOfCore g)).admitted then .no stCoreUnavailable []
          else if fld r 576 32 < fld x.res 0 32 || fld r 704 32 < fld x.res 32 32 then .no stRegionTooSmall []
          else if 65536 * fld r 960 32 < fld x.res 128 64 then .no stStashTooSmall []
          else if cores.any fun g => decide ((p.freeThreads g).length < hdrThreads x.hdr) then .no stThreadsFull []
          else if cores.any fun g => !bit (recFoot (p.ctx c.ctx).record) g then .no stCoreUnavailable []
          else .ok q []

/-- Is a slot quiescent but for its versions and its context's step (R51)? -/
def Pkg.slotQuiet (p : Pkg) (j : Nat) : Bool :=
  let x := p.slot j
  x.fwd.isNone && x.bwd.isNone && x.egrUsed.isEmpty && (p.egr j 0).queue.isEmpty && (p.egr j 1).queue.isEmpty &&
    [0, 1, 2].all fun q => let g := p.ing j q; g.queue.isEmpty && g.opens.isEmpty && g.released == g.nextPage
/-- The slot as unbound (R51): versions, windows and reservation go; the image stays installed. -/
def Pkg.unbindSlot (p : Pkg) (j : Nat) : Pkg :=
  let x := p.slot j
  let p := p.freeVers j
  let o := fld x.bind 1288 12
  let p := if (p.sync o).binding = 2 && (p.sync o).index == j then p.modSync o fun y => { y with binding := 0, index := 0 } else p
  let p := (List.range 3).foldl (fun p n => p.setDlWin (4 * j + n) {}) (p.releaseSlot j)
  let p := { p with eth := { p.eth with qps := p.eth.qps.map fun (e : Nat × Qp) => (e.1, if e.2.slot = some j then { e.2 with slot := none } else e.2) } }
  let p := p.dropReqs fun w => match w with
    | .stashSpill y _ => y == j
    | .stashFetch y _ => y == j
    | _ => false
  p.setSlot j { ({} : SlotS) with
    image := x.image, hasImage := x.hasImage, hdr := x.hdr, work := x.work, res := x.res, imgCtx := x.imgCtx
    groupNext := x.groupNext, published := x.published }

/-- UNBIND_SLOT (R51). -/
def execUnbindSlot (k : Pkt) (s : State) : Host.Outcome State Fault Refusal :=
  s.run fun p => p.luajo { code := 0x43, req := [3], ofCtx := true } k anyTlv noFmt fun p c =>
    let j := c.num 3
    let x := p.slot j
    let st := (p.ctx c.ctx).step.state
    if !x.bound || x.ctx != c.ctx then p.badState c stBadState
    else if !p.slotQuiet j then .no stSlotActive []
    else if st = 1 || st = 2 || (List.range 8).any fun e => (x.ver e).state == 1 then p.badState c stBadState
    else .ok ((p.unbindSlot j).swapEval) []

/-! ## SET_DEADLINE (R29, R35 to R37) -/

/-- Another slot of the same class on overlapping cores with an admitted window (R37)? -/
def Pkg.sharedWith (p : Pkg) (j : Nat) : Bool :=
  (List.range 16).any fun i => i != j && (p.slot i).bound && (List.range 3).any (fun k => (p.dlWin (4 * i + k)).w != 0) &&
    (p.ctx (p.slot i).ctx).lc == (p.ctx (p.slot j).ctx).lc && fld (p.slot i).bind 0 384 &&& fld (p.slot j).bind 0 384 != 0

/-- SET_DEADLINE (R35 to R37); a window of 0 removes the admitted one. -/
def execSetDeadline (k : Pkt) (s : State) : Host.Outcome State Fault Refusal :=
  s.run fun p => p.luajo { code := 0x42, req := [3, 4, 5], ofCtx := true, bound := true } k anyTlv
    (fun _ c => firstBad [defect (decide (0 < c.num 5) && decide (c.num 5 < 1000)) stRange])
    fun p c =>
      let j := c.num 3
      let n := 4 * j + c.num 4
      let x := p.slot j
      let w := x.workOf (c.num 4)
      let a := p.admission x.bind w (c.num 5)
      let none_ : List Byte := tlv 0x82 (toLe 4 0xFFFF_FFFF)
      if !x.bound || x.ctx != c.ctx then p.badState c stBadState
      else if c.num 5 = 0 then .ok (p.setDlWin n {}) (tlv 0x83 (toLe 2 0))
      else if !w.valid then .no stDeadlineUndeclared none_
      else if !a.ok then .no stDeadlineInfeasible (tlv 0x82 (toLe 4 a.wmin))
      else if p.sharedWith j then .no stDeadlineShared none_
      else .ok (p.setDlWin n { w := c.num 5, vreq := a.vreq }) (tlv 0x83 (toLe 2 a.vreq))

/-! ## MEM_MAP (R283, R302, R458) -/

/-- Is a packet the row's whose TLV `ty` selects n among 0 to `top`? A packet without the TLV, or with a value beyond `top`, is every
such row's, and is refused. -/
def rowIs (ty n top : Nat) (ts : List TlvE) : Bool :=
  match ts.find? fun e => e.1 == ty with
  | some e => leNat e.2 == n || decide (top < leNat e.2)
  | none => true
/-- Reserved bits of a region record (Table 17.10). -/
def regReserved (r : Rec) : Bool := fld r 48 16 != 0 || fld r 115 141 != 0 || fld r 113 2 == 3
/-- The region a record describes. -/
def regOf (r : Rec) : Region := ⟨fld r 0 48, fld r 64 32, fld r 96 9, fld r 105 4, fld r 109 4, fld r 113 2⟩
def Region.len (r : Region) : Nat := 65536 * r.pages
/-- Regions that overlap one. -/
def Pkg.overlapping (p : Pkg) (r : Region) : List Region := p.regions.filter fun x => overlaps x.base x.len r.base r.len

/-- MEM_MAP map (R283, R458). -/
def execMemMapMap (k : Pkt) (s : State) : Host.Outcome State Fault Refusal :=
  s.run fun p => p.luajo { code := 0x50, req := [1, 8], ofCtx := true, legal := 1 } k (rowIs 8 0 2)
    (fun p c =>
      let r := regOf c.strct
      firstBad [
        badLen c 32
        , defect (regReserved c.strct) stReserved
        , defect (decide (2 < c.num 8)) stRange
        , defect (r.base % 65536 != 0 || r.pages == 0 || decide (0x100 < r.owner) || decide (16 * stackSize < r.base + r.len) ||
            (p.overlapping r).any fun x => x.owner == r.owner) stRange])
    fun p c =>
      let r := regOf c.strct
      let q := Pkg.trackInit { p with regions := p.regions ++ [r] } r
      if !(p.overlapping r).isEmpty then .no stRegionOverlap []
      else if (stacksOf r.base r.len).any fun n => (p.stack n).state != 0 then .no stStackUnavailable []
      else if 4096 ≤ p.regions.length then .no stRegionLimit []
      else p.unlessFails q

/-- Ranges the device holds for commands (R458), as (base, bytes). -/
def Pkg.heldRanges (p : Pkg) : List (Nat × Nat) :=
  let slots := ((List.range 16).map fun j =>
    let x := p.slot j
    (if x.bound then bindRanges x.bind else []) ++ (if x.hasImage then [(x.image, fld x.hdr 64 32)] else [])).flatten
  let ctxs := (p.ctxs.map fun e =>
    let x := e.2
    let r := x.record
    let sv := x.serve
    if x.state = .empty then [] else
      (if bit r 1 then [(svBase sv, 65536 * svPages sv), (svBatch sv, 65536 * svStreams sv)] else []) ++
      ((List.range 16).map fun n => (recExt r n, saveNeed r n)) ++
      (if x.step.hasPolicy then [(polSealBase x.step.policy, polSealSlots x.step.policy * 131072), (fld x.step.policy 256 48, 64)] else []) ++
      (if x.reshard.given && (x.step.state == 1 || x.step.state == 2) then [(x.reshard.planAt, x.reshard.planLen), (fld x.reshard.hdr 160 48, 2 * rsChunk x.reshard.hdr)] else [])).flatten
  let sec := if p.secure.active then
      (p.secure.tensors.map fun t => [(tnBuf t 0, 65536 * tnPages t), (tnBuf t 1, 65536 * tnPages t)]).flatten ++ [(fld p.secure.hdr 256 48, 65536 * fld p.secure.hdr 304 32)]
    else []
  (slots ++ ctxs ++ sec ++ p.eth.keys.map fun (y : BulkKey) => (y.base, 65536 * y.pages)).filter fun r => r.2 != 0

/-- MEM_MAP unmap (R458): the region that the record's BASE names goes. -/
def execMemMapUnmap (k : Pkt) (s : State) : Host.Outcome State Fault Refusal :=
  s.run fun p => p.luajo { code := 0x50, req := [1, 8], ofCtx := true, legal := 1 } k (rowIs 8 1 2)
    (fun p c => firstBad [
      badLen c 32
      , defect (regReserved c.strct) stReserved
      , defect (decide (2 < c.num 8)) stRange
      , defect (!(p.regions.any fun x => x.base == (regOf c.strct).base)) stRange])
    fun p c =>
      match p.regions.find? fun x => x.base == (regOf c.strct).base with
      | none => .no stRange []
      | some r =>
        if p.heldRanges.any fun h => overlaps h.1 h.2 r.base r.len then .no stRegionInUse []
        else p.unlessFails ({ p with regions := p.regions.erase r }.unstick r)

/-- MEM_MAP set partition (R301, R302): RATE and BURST of one partition on the stacks named. -/
def execMemMapSetPartition (k : Pkt) (s : State) : Host.Outcome State Fault Refusal :=
  s.run fun p => p.luajo { code := 0x50, req := [1, 8], ofCtx := true, legal := 1 } k (rowIs 8 2 2)
    (fun _ c => firstBad [
      badLen c 16
      , defect (fld c.strct 69 59 != 0) stReserved
      , defect (decide (2 < c.num 8)) stRange
      , defect (decide (fld c.strct 52 17 < 16) || decide (65536 < fld c.strct 52 17)) stRange])
    fun p c =>
      let r := c.strct
      let n := fld r 0 4
      let stackTab := bitsOf 16 (fld r 4 16)
      let sum (s : Nat) : Nat := ((((p.stack s).part.filter fun e => e.1 != n).map fun e => e.2.1).sum) + fld r 20 32
      if stackTab.any fun s => decide (1310720 < sum s) then .no stPartitionOvercommit []
      else p.unlessFails (stackTab.foldl (fun p s => p.modStack s fun y => { y with part := tabSet (0, 0) y.part n (fld r 20 32, fld r 52 17) }) p)

/-! ## POWER_POLICY (R38, R460, R470, R473) -/

/-- Ceiling and floor a record gives a domain (R460): defaults for 0, capped at the top of the range (R470). -/
def polCeil (r : Rec) (d : Nat) : Nat := let v := fld r (32 + 32 * d) 16; if v = 0 then 360 else v
def polFloor (r : Rec) (d : Nat) : Nat := fld r (48 + 32 * d) 16
def polCap (r : Rec) : Nat := if fld r 0 16 = 0 then 6200 else fld r 0 16

/-- The policy in force, and windows it no longer carries (R473): all of them when P_full exceeds the cap. P_full is the device's own
figure, a free value. -/
def Pkg.powerPolicy (p : Pkg) (r : Rec) : Pkg × List (Nat × Nat × Nat) :=
  let (full, p) := p.take 16
  let dom (t : Tab Nat) (dflt : Nat → Nat) (f : Nat → Nat) : Tab Nat := (List.range 96).foldl (fun t d => tabSet (dflt d) t d (f d)) t
  let ceil_ := dom p.pwr.ceiling domTop fun d => if domKind d = 2 then domTop d else Nat.min (polCeil r d) (domTop d)
  let floor_ := dom p.pwr.floor (fun _ => 0) fun d => if domKind d = 0 then polFloor r d else 0
  let p := { p with pwr := { p.pwr with capW := polCap r, ceiling := ceil_, floor := floor_ } }
  let overs := decide (polCap r < full)
  let gone := (List.range 64).filter fun n =>
    let w := p.dlWin n
    w.w != 0 && (overs || decide (p.vCeil (p.slot (n / 4)).cores < w.vreq))
  let p := (List.range 64).foldl (fun p n => if (p.dlWin n).w = 0 then p else p.modDlWin n fun w => { w with listed := gone.contains n }) p
  let p := if gone.isEmpty then p else p.setFlag .dlStatus p.primary 0
  (p, gone.map fun n =>
    let s := p.slot (n / 4)
    (n / 4, n % 4, (p.admission s.bind (s.workOf (n % 4)) (p.dlWin n).w).wmin))

/-- POWER_POLICY (R38, R460, R473): never refused for a window; its reply lists those no longer carried. -/
def execPowerPolicy (k : Pkt) (s : State) : Host.Outcome State Fault Refusal :=
  s.run fun p => p.luajo { code := 0xB0, req := [1], legal := 1 } k anyTlv
    (fun _ c =>
      let r := c.strct
      firstBad [
        badLen c 388
        , defect (fld r 16 16 != 0) stReserved
        , defect (decide (polCap r < 1500) || decide (6200 < polCap r) ||
            (List.range 96).any fun d => decide (360 < polCeil r d) || decide (polCeil r d < polFloor r d)) stRange])
    fun p c =>
      let x := p.noteCauses.powerPolicy c.strct
      .ok x.1.noteCauses (tlv 0x86 ((x.2.map fun y => toLe 8 (put 0 4 y.1 + put 4 2 y.2.1 + put 32 32 y.2.2)).flatten))

end Sys2Proof.Machine
end

