-- ==== Sys2Proof/Machine/PortCmd.lean ====
section
/-! DEFINITION. Commands on the topology, the routes and the ports (R113, R115, R116, R119, R121, R124, R454 to R456). -/

namespace Sys2Proof.Machine

/-! ## SET_TOPOLOGY (R454) -/

/-- Port entry n of a topology record. -/
def topEntry (r : Rec) (n : Nat) : Rec := fld r (512 + 128 * n) 128
/-- Planned neighbour of an entry: none where unused. -/
def topPeer (e : Rec) : Option (Nat × Nat) := if bit e 68 then none else some (fld e 0 64, fld e 64 4)
/-- Reserved bits of a topology record (Table 17.7). -/
def topReserved (r : Rec) : Bool := fld r 24 8 != 0 || fld r 134 378 != 0 || (List.range 16).any fun n => fld (topEntry r n) 71 57 != 0
/-- The format tests of R454. -/
def topOk (r : Rec) (len : Nat) : Bool :=
  let es := (List.range 16).map (topEntry r)
  let used := es.filterMap topPeer
  len == 320 && fld r 0 24 != 0 && fld r 0 24 != 0xFFFFFF && (fld r 128 4 == 1 || fld r 128 4 == 2) &&
    es.all (fun e => !bit e 68 || fld e 0 68 == 0) && used.eraseDups.length == used.length

/-- A port's check against a new plan (R113, R115, R116): it re-enters HELLO when quarantined or when its peer no longer matches. -/
def Pkg.planCheck (p : Pkg) (n : Nat) : Pkg :=
  let p := p.modPort n fun q => { q with logical := n }
  let q := p.port n
  match q.state with
  | .quarantine => p.portHello n
  | .hello => p.portHello n
  | .active | .narrow =>
    if q.peer.any fun h => helloIs h q.planned && h.epoch.toNat == p.epoch && h.planHash.toNat == p.planHash then p.routesMove
    else ((p.linkItems n none).portHello n).linkLoss n false
  | _ => p

/-- SET_TOPOLOGY (R451, R454). -/
def execSetTopology (k : Pkt) (s : State) : Host.Outcome State Fault Refusal :=
  s.run fun p => p.luajo { code := 0x20, req := [1], legal := 2 } k anyTlv
    (fun _ c => firstBad [
      defect (topReserved c.strct) stReserved
      , defect (!topOk c.strct c.body.length) stTopologyFormat])
    fun p c =>
      let r := c.strct
      let p := { p with fabAddr := fld r 0 24, epoch := fld r 32 32, planHash := fld r 64 64, topoSet := true, degraded := bit r 133 }
      let p := (List.range 16).foldl (fun p n =>
        let e := topEntry r n
        p.modPort n fun q => { q with
          planned := topPeer e, stopOnFault := bit e 69, v8 := bit e 70, minVersion := fld r 128 4, acceptSwap := bit r 132 }) p
      let p := (List.range 16).foldl Pkg.planCheck p
      .ok (if p.pkgState = 1 then p.pkgTo 2 else p) []

/-! ## SET_ROUTES (R119, R121, R455) -/

/-- Route entry i of a route structure. -/
def rtEntry (r : Rec) (i : Nat) : Rec := fld r (128 + 128 * i) 128
/-- Reserved bits and encodings of an entry (Table 4.9). -/
def rtReserved (e : Rec) : Bool := fld e 29 3 != 0 || fld e 97 31 != 0 || (List.range 16).any fun n => rtAct e n == 3
/-- Is a prefix well formed (R119)? -/
def rtPrefix (e : Rec) : Bool := decide (rtPlen e ≤ 24) && rtDest e % 2 ^ (24 - rtPlen e) == 0
/-- First entry that fails a test, as reply data. -/
def firstEntry (es : List Rec) (f : Nat → Rec → Bool) : Option Nat := (es.zipIdx.find? fun x => f x.2 x.1).map (·.2)
/-- The test that names the first offending entry. -/
def entryDefect (at_ : Option Nat) (st : Nat) : Bool × Nat × List Byte := (at_.isSome, st, tlv 0x85 (toLe 4 (at_.getD 0)))

/-- SET_ROUTES (R119, R121, R128): both copies of the table are replaced at one route epoch. -/
def execSetRoutes (k : Pkt) (s : State) : Host.Outcome State Fault Refusal :=
  s.run fun p => p.luajo { code := 0x21, either := true } k anyTlv
    (fun _ c =>
      let r := c.strct
      let n := fld r 0 32
      let es := (List.range ((c.body.length - 16) / 16)).map (rtEntry r)
      let lim := fld r 32 20
      firstBad [
        defect (c.body.length != 16 + 16 * n || c.body.length < 16) stRouteFormat
        , defect (fld r 52 76 != 0) stReserved
        , entryDefect (firstEntry es fun _ e => rtReserved e) stReserved
        , defect (lim != 0 && (decide (lim < 100) || decide (100000 < lim))) stRange
        , entryDefect (firstEntry es fun i e => !rtPrefix e || (es.take i).any fun x => rtDest x == rtDest e && rtPlen x == rtPlen e) stRouteFormat])
    fun p c =>
      let r := c.strct
      let n := fld r 0 32
      if p.stepActive then p.badState c stBadState
      else if 65536 < n then .no stRouteTableFull []
      else
        let rs : List Route := (List.range n).map fun i => { ent := rtEntry r i }
        .ok (({ p with routes := rs, respLimit := if fld r 32 20 = 0 then 1000 else fld r 32 20 }.routesBuild.regrant p).drainTransit) []

/-! ## PORT_CONTROL (R456, Table 17.8) -/

/-- One action of PORT_CONTROL: whether VALUE is required, the format of its parameters, the states it is legal from, its effect on the
physical port. -/
def Pkg.portCmd (p : Pkg) (k : Pkt) (action : Nat) (value : Bool) (fmt : Cmd → Option (Nat × List Byte)) (legal : PState → Bool)
    (run : Pkg → Cmd → Nat → Pkg) : Pkg :=
  p.luajo { code := 0x22, req := if value then [7, 8, 10] else [7, 8], opt := if value then [1] else [1, 10] } k (rowIs 8 action 8)
    (fun _ c => if 8 < c.num 8 then some (stRange, []) else fmt c)
    fun p c =>
      let n := p.physPort (c.num 7)
      if !legal (p.port n).state then .no stBadState (p.stateTlv none (some n))
      else
        let q := run p c n
        .ok q (q.stateTlv none (some n))

/-- No parameter to test. -/
def noParam (_ : Cmd) : Option (Nat × List Byte) := none
/-- Legal from any state. -/
def anyState (_ : PState) : Bool := true
/-- Legal from any state but DEAD and DARK. -/
def notDeadDark (s : PState) : Bool := s != .dead && s != .dark

/-- PORT_CONTROL RETRAIN (R108, R456): a port held in DOWN stays there. R110 has the command begin a fast retrain; R108 and R456 have it run a
full training, and so does the command table: the full training it is (DESIGN CHOICE between rules that disagree, log entry 183). -/
def execPortRetrain (k : Pkt) (s : State) : Host.Outcome State Fault Refusal :=
  s.run fun p => p.portCmd k 0 false noParam notDeadDark fun p _ n =>
    let q := p.port n
    if q.draining then p
    else if q.state = .active || q.state = .narrow then p.retrain n false true
    else if q.state = .down && (tabGet false p.lnkLost (n / 4) || p.portHeld n) then p
    else p.portTrain n false

/-- PORT_CONTROL DARK (R124): the window's length, its drain limit, and the neighbour after it. -/
def execPortDark (k : Pkt) (s : State) : Host.Outcome State Fault Refusal :=
  s.run fun p => p.portCmd k 1 true
    (fun c =>
      let v := c.num 10
      firstBad [
        defect (c.has 1 && c.body.length != 16) stBadParam
        , defect (fld v 30 34 != 0 || (c.has 1 && fld c.strct 71 57 != 0)) stReserved
        , defect (fld v 0 20 == 0 || decide (1000000 < fld v 0 20) || decide (1000 < fld v 20 10) || (c.has 1 && bit c.strct 68 && fld c.strct 0 68 != 0)) stRange])
    notDeadDark
    fun p c n => p.darkBegin n (1000 * fld (c.num 10) 0 20) (if c.has 1 then some (topPeer c.strct) else none)

/-- PORT_CONTROL WAKE (R456): the window ends in a full training. -/
def execPortWake (k : Pkt) (s : State) : Host.Outcome State Fault Refusal :=
  s.run fun p => p.portCmd k 2 false noParam (· == .dark) fun p _ n => p.darkEnd n

/-- PORT_CONTROL DISABLE (R127, R456). -/
def execPortDisable (k : Pkt) (s : State) : Host.Outcome State Fault Refusal :=
  s.run fun p => p.portCmd k 3 false noParam anyState fun p _ n =>
    ((((p.linkItems n none).modPort n fun q => { q with darkPending := false, darkNoticeOut := false, darkLeft := 0 }).portTo n .dead).linkLoss n true).floorEval

/-- PORT_CONTROL RESET (R456): a DEAD port enters DOWN and its failures count afresh. -/
def execPortReset (k : Pkt) (s : State) : Host.Outcome State Fault Refusal :=
  s.run fun p => p.portCmd k 4 false noParam (· == .dead) fun p _ n => ((p.modPort n fun q => { q with trainFails := 0 }).portTo n .down).floorEval

/-- PORT_CONTROL RECHECK (R115). -/
def execPortRecheck (k : Pkt) (s : State) : Host.Outcome State Fault Refusal :=
  s.run fun p => p.portCmd k 5 false noParam (· == .quarantine) fun p _ n => p.portHello n

/-- PORT_CONTROL REBALANCE (R121): a route epoch, refused while a step is OPEN or SEALING. -/
def execPortRebalance (k : Pkt) (s : State) : Host.Outcome State Fault Refusal :=
  s.run fun p => p.portCmd k 6 false noParam (fun _ => !p.stepActive) fun p _ _ => (p.routesBuild.regrant p).drainTransit

/-- PORT_CONTROL LIMITS (R456): retrain and drain limits. -/
def execPortLimits (k : Pkt) (s : State) : Host.Outcome State Fault Refusal :=
  s.run fun p => p.portCmd k 7 true
    (fun c =>
      let v := c.num 10
      firstBad [
        defect (fld v 44 20 != 0) stReserved
        , defect (decide (fld v 0 24 < 10) || decide (10000 < fld v 0 24) || fld v 24 20 == 0 || decide (1000 < fld v 24 20)) stRange])
    anyState
    fun p c n => p.modPort n fun q => { q with retrainUs := fld (c.num 10) 0 24, drainUs := fld (c.num 10) 24 20 }

/-- PORT_CONTROL BOOT_SERVE (R436). -/
def execPortBootServe (k : Pkt) (s : State) : Host.Outcome State Fault Refusal :=
  s.run fun p => p.portCmd k 8 true (fun c => firstBad [defect (c.num 10 / 2 != 0) stReserved]) anyState
    fun p c n => p.modPort n fun q =>
      let q := { q with bootServe := bit (c.num 10) 0 }
      if q.serves then (if q.bootOpen then q else q.openBoot) else { q with bootOpen := false }

end Sys2Proof.Machine
end

