-- ==== Sys2Proof/Machine/Regs.lean ====
section
/-! DEFINITION. The registers of the device (R464): one function reads any of them, one writes any RW field, one is the
effect of a read (chapters 1 to 19). -/

namespace Sys2Proof.Machine

/-- How a register is accessed (R464). -/
inductive RegAcc where
  | ro
  | rc
  | wo
  | rw (mask : Nat)
  | w1c (reg : FlagReg) (inst : Nat) (mask : Nat)
  deriving DecidableEq, Repr

/-- Index of an offset among `count` registers that stand `stride` apart from `base`. -/
def regIdx (o base stride count : Nat) : Option Nat :=
  if base ≤ o && (o - base) % stride == 0 && (o - base) / stride < count then some ((o - base) / stride) else none
/-- The first register of a list of alternatives. -/
def firstReg : List (Option (RegAcc × Nat)) → Option (RegAcc × Nat)
  | [] => none
  | some x :: _ => some x
  | none :: xs => firstReg xs
/-- One register at an offset. -/
def oneReg (o at_ : Nat) (acc : RegAcc) (v : Nat) : Option (RegAcc × Nat) := if o = at_ then some (acc, v) else none
/-- A family of registers. -/
def manyRegs (o base stride count : Nat) (acc : RegAcc) (v : Nat → Nat) : Option (RegAcc × Nat) :=
  (regIdx o base stride count).map fun i => (acc, v i)
/-- A W1C register. -/
def Pkg.flagAt (p : Pkg) (o at_ : Nat) (reg : FlagReg) (inst bits : Nat) : Option (RegAcc × Nat) :=
  if o = at_ then some (.w1c reg inst (2 ^ bits - 1), (p.flagReg reg inst).toNat) else none
/-- What a sensor shows at this moment. -/
def Pkg.sense (p : Pkg) (key w : Nat) : Nat := Config.sensed key p.free % 2 ^ w
/-- A block split by the low part of its offset: number of the part and offset in it. -/
def part (o stride : Nat) : Nat × Nat := (o / stride, o % stride)

/-! ## Every die (R13, R47, R247, R342, R490) -/

/-- The identity register of a die (R13). -/
def Pkg.dieId (p : Pkg) (d : Nat) : Nat :=
  let x := p.die d
  let comp := dieKind d == 0
  put 0 5 d + put 5 3 (dieKind d) + put 8 1 (d / 16) + put 16 4 x.stepMinor + put 20 4 x.stepMajor + put 24 8 x.feature + put 32 8 x.pkgFeature
    + put 40 1 (b2n (p.dieUp d)) + put 41 1 (b2n (d == p.primary && p.dieUp d)) + (if comp then put 48 8 26 + put 56 8 (if x.admitted then x.coresEnabled else 0) else 0)
/-- Retired logical cores of a compute die. -/
def Pkg.retiredMask (p : Pkg) (k : Nat) : Nat := ((List.range 24).map fun i => if (p.core (24 * k + i)).retired then 2 ^ i else 0).sum
/-- Cluster of a compute die. -/
def clusterOfDie (d : Nat) : Nat := if d < 16 then d else d - 8
/-- FAB_GRPg (Table 11.12). -/
def Pkg.grpReg (p : Pkg) (d g : Nat) : Nat :=
  let x := p.group d g
  let e := groupOf d g
  (if e.1 = seamPeer then put 5 1 1 else put 0 5 e.1) + put 6 7 e.2 + put 13 7 (x.inService e.2) + put 20 1 (b2n x.failedF) + put 32 32 x.retestNs
/-- FAB_BNDb (Table 11.12): bundle b among the die's. -/
def Pkg.bndReg (p : Pkg) (d b : Nat) : Nat :=
  let gs := dieGroups d
  match (List.range gs.length).find? fun g => decide (groupBase d g ≤ b) && decide (b < groupBase d g + (groupOf d g).2) with
  | some g => (tabGet ({} : Bundle) (p.group d g).bundles (b - groupBase d g)).value
  | none => 0
/-- p_THERM (Table 18.9). -/
def Pkg.thermReg (p : Pkg) (d : Nat) : Nat :=
  let x := p.die d
  let j := x.hottest
  let s := ((List.range 16).find? fun n => tabGet 0 x.junction n == j).getD 0
  put 0 8 j + put 8 5 s + put 16 8 x.highest + put 24 1 (b2n (decide (90 < j))) + put 25 1 (b2n (decide (95 < j)))

/-- Registers of blocks 0x000 to 0x004. -/
def Pkg.regDie (p : Pkg) (d b o : Nat) : Option (RegAcc × Nat) :=
  let x := p.die d
  match b with
  | 0 => oneReg o 0 .ro (p.dieId d)
  | 1 => firstReg [
      oneReg o 0 .ro (p.icount d), oneReg o 8 .ro (unsgn 64 x.skew)
      , manyRegs o 0x10 8 8 .ro fun n => (tabGet (canaryDflt d n) x.canary n).toNat]
  | 2 =>
    if dieKind d != 0 then none else firstReg [
      oneReg o 0 .ro (put 0 26 x.passing + put 26 26 x.enabled)
      , manyRegs o 8 8 2 .ro fun n => ((List.range 12).map fun m => put (5 * m) 5 (tabGet (12 * n + m) x.logMap (12 * n + m))).sum
      , oneReg o 0x18 .ro (p.retiredMask (clusterOfDie d))]
  | 3 => firstReg [
      oneReg o 0 .ro (put 0 2 x.state + put 2 1 (b2n x.orderly) + put 8 8 x.resets + put 16 8 x.cause + put 32 32 x.enteredNs)
      , oneReg o 8 (.rw (if dieKind d = 1 then 0xFFFFFF else 0xFF00FF)) (put 0 8 x.pktBurst + put 8 8 x.memBurst + put 16 8 x.revokeGuard)
      , p.flagAt o 0x10 .fabStatus d 6
      , manyRegs o 0x100 8 (dieGroups d).length .ro (p.grpReg d)
      , manyRegs o 0x400 8 (((dieGroups d).map (·.2)).sum) .ro (p.bndReg d)
      , if dieKind d = 4 then oneReg o 0x2000 .wo 0 else none]
  | 4 => oneReg o 0 .ro (p.thermReg d)
  | _ => none

/-! ## Headframes (R47, R371, R398, R421, R466, R490, R504, R438) -/

/-- HF_CTXn_STATE (R399). -/
def Pkg.ctxReg (p : Pkg) (n : Nat) : Nat :=
  let c := p.ctx n
  put 0 3 c.state.ctorIdx + put 3 1 (b2n c.lc) + put 4 1 (b2n (bit c.record 1)) + put 5 1 (b2n (c.state == .swapped && p.runnable n))
    + put 6 4 c.place + (if c.state = .faulted then put 10 4 c.cause else 0) + put 16 8 (Nat.min 255 c.frozenItems.length) + put 32 32 c.enteredNs
/-- HF_STEPn_STATE (R371). -/
def StepS.reg (s : StepS) : Nat :=
  put 0 3 s.state + put 3 1 (b2n s.nonfinite) + put 4 1 (b2n s.ready) + put 5 1 (b2n s.voted) + put 6 2 s.prevVerdict
    + put 8 10 (unsgn 10 s.lsExp) + put 18 16 s.lsGood + put 34 30 s.num
/-- Is there a standby headframe? -/
def Pkg.standby (p : Pkg) : Bool := p.dieUp (if p.pwr.primaryB then 15 else 31)
/-- HF_PKG_STATE (Table 17.16). -/
def Pkg.pkgReg (p : Pkg) : Nat :=
  put 0 3 p.pkgState + put 3 1 (b2n p.atFloor) + put 4 1 (b2n p.standby) + put 8 7 (p.sessions.filter fun e => e.2.openF).length
    + put 15 9 p.undecided + put 32 32 p.pkgEntered
/-- Is any v_cap below its ceiling (R474)? -/
def Pkg.capping (p : Pkg) : Bool := (List.range 96).any fun d => domKind d != 2 && decide (p.vCapOf d < p.ceilOf d)
/-- Is a thermal action of R476 in force? -/
def Pkg.throttling (p : Pkg) : Bool := p.dies.any fun e => e.2.throttle || e.2.over105
/-- Is ALERT_N asserted (R478)? -/
def Pkg.alert (p : Pkg) : Bool :=
  (p.dies.any fun e => decide (95 < e.2.hottest)) || p.pwr.capOver || p.pwr.vinOut || p.pwr.vauxOut || p.pwr.thermtrip || p.pkgState == 5 ||
    (match p.pwr.domFaultNs with | some t => decide (p.now ≤ t + 1000000) | none => false)
/-- The hottest die, the lowest of equal ones. -/
def Pkg.hotDie (p : Pkg) : Nat := (List.range 32).foldl (fun m d => if (p.die m).hottest < (p.die d).hottest then d else m) 0
/-- HF_PWR_STATE (R491). -/
def Pkg.pwrReg (p : Pkg) : Nat :=
  put 0 16 p.pwr.mean + put 16 16 p.pwr.capW + put 32 5 p.hotDie + put 40 8 (p.die p.hotDie).hottest + put 48 1 (b2n p.capping)
    + put 49 1 (b2n p.throttling) + put 50 1 (b2n p.alert) + put 51 1 (b2n p.pwr.synced)
/-- HF_SEC_STATE (R422). -/
def Pkg.secReg (p : Pkg) : Nat :=
  let s := p.secure
  put 0 2 s.phase + put 2 1 (b2n (s.active && polRoot (p.ctx s.ctx).step.policy)) + put 3 1 s.gen + put 4 1 (b2n p.atFloor) + put 16 48 (s.lastDone.getD 0)
/-- HF_SECTn (Table 15.9). -/
def Secure.tensorReg (s : Secure) (n : Nat) : Nat :=
  match s.tensors[n]? with
  | none => 0
  | some t => put 0 2 (tabGet 0 s.method n) + put 2 2 (tnPin t) + put 4 1 (b2n (bit t 162)) + put 5 3 (tabGet 0 s.source n) + put 32 32 (tabGet 0 s.changed n)
/-- HF_ETH_STATE (R439). -/
def Pkg.ethReg (p : Pkg) : Nat :=
  put 0 1 (b2n p.eth.up) + put 1 1 (b2n p.eth.rate800) + put 2 1 (b2n p.eth.relayed) + put 3 1 p.eth.bootPath
    + put 8 13 (p.eth.qps.filter fun e => e.2.state != 0).length + put 32 32 p.eth.enteredNs
/-- HF_ID_STATE of a headframe (Table 19.8). -/
def Pkg.idReg (p : Pkg) (d : Nat) : Nat :=
  let i := p.ident
  put 0 1 i.keySource + put 1 2 i.certStatus + put 3 1 (b2n (i.pbkReady && d == p.primary)) + put 4 1 (b2n (p.die d).pufOk) + put 8 16 i.gen + put 24 16 i.leaves

/-- Registers of a headframe's own blocks. -/
def Pkg.regHead (p : Pkg) (d b o : Nat) : Option (RegAcc × Nat) :=
  match b with
  | 0x10 => firstReg [
      (manyRegs o 0 8 64 .ro fun n => put 0 32 (p.dlWin n).w + put 32 10 (p.dlWin n).vreq).filter fun _ => o / 8 % 4 != 3
      , p.flagAt o 0x200 .dlStatus d 3]
  | 0x11 => firstReg [
      manyRegs o 0 8 256 .ro fun n => (p.ctx n).step.reg
      , manyRegs o 0x800 8 256 .ro fun n => put 0 9 (p.ctx n).step.children + put 9 1 (b2n (p.ctx n).step.timedOut)]
  | 0x12 => firstReg [
      oneReg o 0 (.rw 0xFFFFF) p.swapHold, p.flagAt o 8 .schedStatus d 4
      , oneReg o 0x10 .ro (((p.ctxs.filter fun e => e.2.resident).map fun e => 2 ^ (e.2.place % 16)).sum)
      , manyRegs o 0x100 8 256 .ro p.ctxReg
      , manyRegs o 0x900 8 256 .ro fun n =>
          let c := p.ctx n
          put 0 32 c.round + put 32 13 (c.seqs.filter fun s => s.state == 0).length + put 45 13 (c.seqs.filter fun s => s.state == 1).length
      , manyRegs o 0x1100 8 256 .ro fun n => put 0 32 (p.ctx n).freePages.length + put 32 12 (p.ctx n).joins.length]
  | 0x13 => firstReg [
      oneReg o 0 .ro p.secReg, oneReg o 8 .ro (put 0 32 p.secure.interval + put 32 32 p.secure.cost), oneReg o 0x10 .ro (put 0 61 p.secure.nextPlanned)
      , p.flagAt o 0x18 .secStatus d 6, manyRegs o 0x100 8 1024 .ro p.secure.tensorReg]
  | 0x14 => firstReg [
      oneReg o 0 .ro p.pkgReg, p.flagAt o 8 .ljStatus d 5
      , manyRegs o 0x100 16 64 .ro fun n =>
          let s := p.session n
          if s.openF then put 0 32 s.id.toNat + put 32 8 s.ctx + put 40 1 (b2n s.bound) + put 41 4 s.keyId else 0
      , manyRegs o 0x108 16 64 .ro fun n => put 0 32 (p.session n).high + put 32 32 (p.session n).lastNs]
  | 0x15 => firstReg [
      oneReg o 0 .ro p.pwrReg, p.flagAt o 8 .pwrStatus d 7, oneReg o 0x10 .ro p.pwr.trip.toNat, oneReg o 0x18 .wo 0
      , manyRegs o 0x100 16 96 .ro fun n => put 0 10 (p.railOf n) + put 10 10 (p.sense (256 + n) 10) + put 20 10 (p.ceilOf n)
          + put 30 10 (tabGet 0 p.pwr.floor n) + put 40 10 (p.vCapOf n)
      , manyRegs o 0x108 16 96 .ro fun n => p.sense (512 + n) 32]
  | 0x16 => firstReg [
      oneReg o 0 .ro (p.idReg d), oneReg o 8 .ro p.serial, manyRegs o 0x10 8 2 .ro fun n => leNat ((p.identDigest.drop (8 * n)).take 8)
      , oneReg o 0x20 .ro (put 0 32 p.ident.fwVersion + put 32 32 p.ident.svn)]
  | 0x20 =>
    if d != p.primary then none else firstReg [
      oneReg o 0 .ro p.ethReg, oneReg o 8 (.rw 0x3F) (put 0 3 p.eth.bulkPrio + put 3 3 p.eth.cmdPrio), p.flagAt o 0x10 .ethStatus d 5
      , oneReg o 0x18 .ro p.mac, manyRegs o 0x20 8 2 .ro fun n => fld p.eth.ip6 (64 * n) 64, oneReg o 0x30 .ro (put 0 32 p.eth.ip4 + put 32 6 p.eth.ip4Len)]
  | _ => none

/-! ## Queue dies (R88, R279) -/

/-- QD_SLOTj_CFG (R89). OPEN_STEP reads 0 when no step is open and a SEALING step still counts as open; CUR_ENTRY and CUR_NUMBER read 0 when no
entry is CURRENT (DESIGN CHOICE, log entry 178). -/
def Pkg.slotCfg (p : Pkg) (j : Nat) : Nat :=
  let s := p.slot j
  let st := (p.ctx s.ctx).step
  if !s.bound then 0 else
  put 0 1 1 + put 1 1 (b2n (decide (1 < (s.cores.map clusterOf).eraseDups.length)))
    + put 2 1 (b2n (!p.isRemote (fld s.bind 416 24) && fld s.bind 440 4 == j)) + put 3 1 (b2n (p.isRemote s.offFab)) + put 8 8 s.ctx
    + put 16 7 (fld s.bind 1280 7) + (match s.curEntry with | some e => put 23 1 1 + put 24 3 e + put 32 16 (s.ver e).num | none => 0)
    + put 48 16 (if st.state = 1 || st.state = 2 then st.num else 0)
/-- QD_SYNCo_CFG (Table 9.13). -/
def SyncObj.cfg (s : SyncObj) : Nat :=
  put 0 9 s.owner + put 9 1 (b2n s.armed) + put 10 1 (b2n s.fired) + put 11 2 s.binding + put 16 32 s.threshold.toNat + put 48 8 s.index
/-- Registers of a queue die's own blocks. -/
def Pkg.regQueue (p : Pkg) (d b o : Nat) : Option (RegAcc × Nat) :=
  let h := d / 16
  let slots (stride : Nat) (f : Nat → Nat → Option (RegAcc × Nat)) : Option (RegAcc × Nat) :=
    let x := part o stride
    if x.1 < 8 then f (8 * h + x.1) x.2 else none
  match b with
  | 0x20 => slots 0x100 fun j o => firstReg [
      oneReg o 0 .ro (p.slotCfg j), manyRegs o 8 8 6 .ro (fun n => fld (p.slot j).bind (64 * n) 64), p.flagAt o 0x40 .slotStatus j 6]
  | 0x21 => slots 0x100 fun j o =>
      let x := part o 0x20
      let k := x.1
      let g := p.ing j k
      firstReg [
        if k < 4 then oneReg x.2 0 .ro (if k < 2 then g.queue.length else (p.egr j (k - 2)).queue.length) else none
        , if k < 2 then oneReg x.2 8 .ro g.clSent else none
        , if k < 2 then oneReg x.2 0x10 .ro (put 0 32 g.dlSent + put 32 32 g.postedMb) else none]
  | 0x22 => slots 0x100 fun j o =>
      let v (e : Nat) : Version := (p.slot j).ver e
      firstReg [
        manyRegs o 0 0x10 8 .ro (fun e => put 0 16 (v e).num + put 16 2 (v e).state + put 18 12 (v e).obj)
        , manyRegs o 8 0x10 8 .ro (fun e => put 0 48 (v e).base + put 48 16 (v e).gib)]
  | 0x23 => slots 0x40 fun j o =>
      let s := p.slot j
      firstReg [oneReg o 0 .ro s.stashCap, oneReg o 8 .ro s.stashUsed, oneReg o 0x10 .ro s.offUsed, oneReg o 0x18 .rc s.stashPeak]
  | 0x24 => slots 0x40 fun j o => oneReg o 0 .ro (fld (p.slot j).bind 1352 44)
  | 0x25 => slots 0x40 fun j o => manyRegs o 0 8 7 .ro fun i => tabGet 0 ((p.phaseTick j).slot j).phase i
  | 0x30 => firstReg [
      manyRegs o 0 16 2048 .ro fun n => (p.sync (2048 * h + n)).ctr.toNat
      , manyRegs o 8 16 2048 .ro fun n => (p.sync (2048 * h + n)).cfg]
  | 0x31 =>
    let x := part o 0x200
    let e := p.sumpEng (16 * h + x.1)
    let s (n : Nat) : SumpSess := tabGet {} e.sess n
    firstReg [
      p.flagAt o 0xF000 .sumpStatus d 5
      , if x.1 < 16 then firstReg [
          oneReg x.2 0 .ro (put 0 5 (e.sess.filter fun y => y.2.openF).length + put 5 1 (b2n (e.sess.any fun y => y.2.delivering)))
          , manyRegs x.2 0x10 0x10 16 .ro (fun n =>
              put 0 32 (fld (s n).hdr 0 32) + put 32 8 (fld (s n).hdr 32 8) + put 40 1 (b2n (s n).openF) + put 41 1 (b2n (s n).range) + put 42 1 (b2n (s n).nonfin))
          , manyRegs x.2 0x18 0x10 16 .ro (fun n => put 0 18 (fld (s n).hdr 64 18) + put 18 19 (fld (s n).hdr 96 19) + put 37 27 (s n).added)] else none]
  | _ => none

/-! ## Link dies (R135), memory dies (R313), compute dies (R186, R210, R247, R278) -/

/-- Physical port i of a link die. -/
def portOfDie (d i : Nat) : Nat := d / 16 * 8 + (d % 16 - 12) * 4 + i
/-- LD_PORTi_STATE (R136). -/
def Port.stateReg (q : Port) : Nat :=
  put 0 4 q.state.ctorIdx + put 4 2 q.width + put 6 1 (b2n q.rate64) + put 8 4 q.logical + put 12 3 q.qreason + put 16 4 q.trainFails + put 32 32 q.enteredNs
/-- Rest of a dark window, ns. -/
def Pkg.darkRest (p : Pkg) (n : Nat) : Nat :=
  let q := p.port n
  if q.state = .dark then q.darkLeft - (p.icount (linkDie n) % 2 ^ 32 + 2 ^ 32 - q.enteredNs) % 2 ^ 32 else 0
/-- LD_PORTi_CREDITc: credits held and receive buffers occupied. -/
def Port.creditReg (q : Port) (c : Nat) : Nat :=
  let live := q.state == .active || q.state == .narrow || q.retrainFrom.isSome || q.draining || q.bootOpen
  if q.version = 1 && c % 2 = 1 then 0 else put 0 13 (if live then q.creditMax - tabGet 0 q.credits c else 0) + put 16 13 (tabGet 0 q.rxOcc c)
/-- Registers of a link die's own blocks. -/
def Pkg.regLink (p : Pkg) (d b o : Nat) : Option (RegAcc × Nat) :=
  let x := part o 0x100
  let n := portOfDie d x.1
  let q := p.port n
  if b != 0x20 || 4 ≤ x.1 then none else firstReg [
    oneReg x.2 0 .ro q.stateReg
    , oneReg x.2 8 .ro (put 0 1 (b2n q.stopOnFault) + put 1 1 (b2n q.acceptSwap) + put 2 1 (b2n q.v8) + put 4 4 q.minVersion + put 8 24 q.retrainUs + put 32 20 q.drainUs)
    , manyRegs x.2 0x10 8 2 .ro (fun i => fld q.lanemap (60 * i) 60)
    , oneReg x.2 0x20 .ro q.peerSerial
    , oneReg x.2 0x28 .ro (put 0 4 q.peerPort + put 4 4 q.version + put 8 24 q.peerAddr + put 32 32 q.peerEpoch)
    , oneReg x.2 0x30 .ro (put 0 12 q.replayBuf.length + put 16 16 q.rtt + put 32 32 q.txSeq.toNat)
    , p.flagAt x.2 0x38 .portStatus n 8
    , oneReg x.2 0x40 .ro (put 0 40 (p.darkRest n))
    , manyRegs x.2 0x48 8 4 .ro q.creditReg]

/-- Largest count of spare rows used in any bank (R314). -/
def Stack.sparesUsed (k : Stack) : Nat := k.repairs.foldl (fun m e => Nat.max m (k.repairs.filter fun x => fld x 6 11 == fld e 6 11).length) 0
/-- MD_STKt_STATE (R314). -/
def Stack.stateReg (k : Stack) : Nat :=
  put 0 3 k.state + put 8 16 k.chUp + put 24 8 k.marks.length + put 32 8 k.sparesUsed + put 40 8 k.temp + put 48 1 (b2n k.throttled) + put 49 1 (b2n k.hotF)
    + put 50 1 (b2n k.refresh2x)
/-- Registers of a memory die's own blocks. -/
def Pkg.regMem (p : Pkg) (d b o : Nat) : Option (RegAcc × Nat) :=
  let x := part o 0x100
  let k := p.stack (2 * memNo d + x.1)
  let m := p.memDie (memNo d)
  match b with
  | 0x20 => if 2 ≤ x.1 then none else firstReg [
      oneReg x.2 0 .ro k.stateReg, oneReg x.2 8 .ro k.ident.toNat, oneReg x.2 0x10 (.rw 0xFF) k.scrubHours, oneReg x.2 0x18 .ro (put 0 41 k.scrubPos)
      , oneReg x.2 0x20 .ro k.hot.toNat]
  | 0x21 => if 2 ≤ x.1 then none else firstReg [
      manyRegs x.2 0 0x10 16 .ro fun n => put 0 32 (tabGet (0, 0) k.part n).1 + put 32 17 (tabGet (0, 0) k.part n).2
      , manyRegs x.2 8 0x10 16 .rc fun n => tabGet 0 k.usedLines n]
  | 0x22 => p.flagAt o 0 .mdStatus d 8
  | 0x23 =>
    let t (n : Nat) : Nat × Nat × Nat := tabGet (0, 0, 0) m.tensors n
    firstReg [
      manyRegs o 0 0x10 1024 .ro (fun n => put 0 4 (t n).1 + put 4 21 (t n).2.1 + put 25 21 (t n).2.2)
      , manyRegs o 8 0x10 1024 .rc (fun n => put 0 32 (tabGet 0 m.changed n) + put 32 32 (tabGet 0 m.written n))]
  | _ => none

/-- BLOCK code of Table 8.21. -/
def Wait.code : Wait → Nat
  | .none => 0 | .memData _ _ => 1 | .tags _ => 2 | .sync _ _ => 3 | .chRecv _ => 4 | .chSend _ _ _ => 5 | .park => 6 | .commit _ => 7 | .stash _ => 8 | .fence _ => 9 | .fetch => 10
/-- CORE_THRt_STATE (R248). -/
def Thr.stateReg (t : Thr) : Nat :=
  put 0 3 t.state.ctorIdx + put 3 4 t.wait.code + put 8 4 t.slot + put 12 2 t.kind + put 14 8 t.ctx + put 22 24 t.pc.toNat
/-- CORE_ENG_STATE (R187). -/
def CoreS.engReg (c : CoreS) : Nat :=
  put 0 6 (c.owner.getD 0) + put 6 1 (b2n c.owner.isSome) + put 7 1 (b2n c.drain.isSome) + put 8 10 (unsgn 10 c.live.exp) + put 18 10 (unsgn 10 c.shadow.exp)
    + put 28 2 c.repeats + put 32 16 c.chunk + put 48 6 c.parked.length
/-- CORE_VEC_STATE (R210). -/
def CoreS.vecReg (c : CoreS) : Nat :=
  match c.vrun with
  | none => 0
  | some t => put 0 6 t + put 6 1 1 + put 8 20 (match c.vops.find? fun o => threadIn o.thr == threadIn t with | some o => o.pos | none => 0)
/-- CORE_EPe_STATE (Table 9.11). -/
def Endpoint.reg (e : Endpoint) : Nat :=
  let words := (e.unread.map List.length).sum
  put 0 2 e.state + put 2 1 (b2n e.multi) + put 3 1 (b2n e.elastic) + put 4 6 (words - e.unreadRing) + put 10 6 (e.held.length - e.heldRing)
    + put 16 8 (Nat.min 255 e.conns.length) + put 24 24 (if e.state = 2 then e.lastKey else e.key) + put 48 4 e.pendingOpen.length
/-- CORE_CONNn_STATE (Table 9.10). -/
def Conn.reg (c : Conn) : Nat :=
  put 0 3 c.state + put 3 1 (b2n (bit c.flags.toNat 1)) + put 8 20 (fld c.flags.toNat 8 20) + put 32 32 c.credits
/-- Registers of logical core c of a compute die. -/
def Pkg.regCore (p : Pkg) (d b o : Nat) : Option (RegAcc × Nat) :=
  if b < 0x40 || 0x58 ≤ b then none else
  let g := 24 * clusterOfDie d + (b - 0x40)
  let c := p.core g
  let th (t : Nat) : Thr := p.thr (64 * g + t)
  let count (f : Thr → Bool) : Nat := ((List.range 64).filter fun t => f (th t)).length
  firstReg [
    oneReg o 0 .ro (put 0 5 (p.physOf g) + put 5 1 (b2n c.retired) + put 6 7 (count fun t => t.state != .free)
      + put 13 7 (count fun t => t.state == .ready || t.state == .blocked))
    , oneReg o 8 (.rw 0xFF) c.quantum, p.flagAt o 0x10 .coreStatus g 3
    , manyRegs o 0x100 8 64 .ro fun t => (th t).stateReg
    , manyRegs o 0x300 16 64 .ro fun t => (th t).fault.toNat
    , manyRegs o 0x308 16 64 .ro fun t => (th t).finst.toNat
    , oneReg o 0x800 .ro c.engReg, oneReg o 0x808 (.rw 0xFF) c.burst, p.flagAt o 0x810 .engStatus g 6, oneReg o 0x818 .ro c.engLast.toNat
    , oneReg o 0x900 .ro c.vecReg, p.flagAt o 0x908 .vecStatus g 5, oneReg o 0x910 .ro c.vecLast.toNat
    , manyRegs o 0xA00 16 32 .ro fun e => (tabGet ({} : Endpoint) c.eps e).reg
    , manyRegs o 0xA08 16 32 .ro fun e => put 0 32 (tabGet ({} : Endpoint) c.eps e).unreadRing + put 32 32 (tabGet ({} : Endpoint) c.eps e).heldRing
    , manyRegs o 0xC00 16 32 .ro fun n => (tabGet ({} : Conn) c.conns n).reg
    , manyRegs o 0xC08 16 32 .ro fun n => (tabGet ({} : Conn) c.conns n).target.toNat]

/-! ## Access (R464) -/

/-- Die, block and offset of a register address. -/
def regDieOf (a : Nat) : Nat := fld a 27 5
def regBlock (a : Nat) : Nat := fld a 16 11
def regOff (a : Nat) : Nat := fld a 0 16

/-- The register at an address: its access and value; none where no register is. -/
def Pkg.reg (p : Pkg) (a : Nat) : Option (RegAcc × Nat) :=
  let d := regDieOf a
  let b := regBlock a
  let o := regOff a
  if b < 5 then p.regDie d b o
  else match dieKind d with
    | 0 => p.regCore d b o
    | 1 => p.regMem d b o
    | 2 => p.regLink d b o
    | 3 => p.regQueue d b o
    | _ => p.regHead d b o

/-- What reading a register leaves behind: RC registers clear (R464), the peak falls to the present use (R88). -/
def Pkg.regTouch (p : Pkg) (a : Nat) : Pkg :=
  let d := regDieOf a
  let o := regOff a
  match p.reg a with
  | some (.rc, _) =>
    if dieKind d = 3 then p.modSlot (8 * (d / 16) + o / 0x40) fun s => { s with stashPeak := s.stashUsed }
    else if regBlock a = 0x21 then p.modStack (2 * memNo d + o / 0x100) fun k => { k with usedLines := tabSet 0 k.usedLines (o % 0x100 / 16) 0 }
    else p.modMemDie (memNo d) fun m => { m with changed := tabSet 0 m.changed (o / 16) 0, written := tabSet 0 m.written (o / 16) 0 }
  | _ => if regBlock a = 1 && o = 0 then p.readXing d else p

/-- Write the whole of an RW register; none when a field is out of its range (R464). -/
def Pkg.regPut (p : Pkg) (a v : Nat) : Option Pkg :=
  let d := regDieOf a
  let b := regBlock a
  let o := regOff a
  if b = 3 then
    if fld v 0 8 = 0 || fld v 16 8 = 0 || (dieKind d = 1 && fld v 8 8 = 0) then none
    else some (p.modDie d fun x => { x with pktBurst := fld v 0 8, memBurst := fld v 8 8, revokeGuard := fld v 16 8 })
  else match dieKind d with
    | 0 =>
      let g := 24 * clusterOfDie d + (b - 0x40)
      if fld v 0 8 = 0 then none
      else some (p.modCore g fun c => if o = 8 then { c with quantum := fld v 0 8 } else { c with burst := fld v 0 8 })
    | 1 => if fld v 0 8 = 0 || 168 < fld v 0 8 then none else some (p.modStack (2 * memNo d + o / 0x100) fun k => { k with scrubHours := fld v 0 8 })
    | _ =>
      if b = 0x12 then (if fld v 0 20 = 0 || 1000000 < fld v 0 20 then none else some { p with swapHold := fld v 0 20 })
      else if fld v 0 3 = fld v 3 3 then none
      else some { p with eth := { p.eth with bulkPrio := fld v 0 3, cmdPrio := fld v 3 3 } }

/-- An RW register's new value (R464): bits of the mask, read-only and reserved ones ignored. -/
def rwMerge (old val mask writable : Nat) : Nat :=
  let m := mask &&& writable
  (old &&& (Nat.xor (2 ^ 64 - 1) m)) ||| (val &&& m)

/-- Is a die in service as far as its registers go (R464)? -/
def Pkg.regDown (p : Pkg) (a : Nat) (read : Bool) : Bool := !p.dieUp (regDieOf a) && !(read && regBlock a == 0)

/-- REG_READ (R464). -/
def execRegRead (k : Pkt) (s : State) : Host.Outcome State Fault Refusal :=
  s.run fun p => p.luajo { code := 0x11, req := [9], opt := [12], legal := 0 } k anyTlv
    (fun p c =>
      let n := if c.has 12 then c.num 12 else 1
      let a := c.num 9
      firstBad [
        defect (n == 0 || decide (64 < n)) stRange
        , defect (a % 8 != 0 || decide (65536 < regOff a + 8 * n) || (List.range (Nat.min n 64)).any fun i => (p.reg (a + 8 * i)).isNone) stBadRegister])
    fun p c =>
      let n := if c.has 12 then c.num 12 else 1
      let a := c.num 9
      if p.regDown a true then .no stDieUnavailable []
      else
        let r := (List.range n).foldl (fun (r : Pkg × List Byte) i =>
          let p := r.1
          match p.reg (a + 8 * i) with
          | some (.wo, _) =>
            let x := p.take 64
            (x.2, r.2 ++ toLe 8 x.1)
          | some (_, v) => (p.regTouch (a + 8 * i), r.2 ++ toLe 8 v)
          | none => r) (p, [])
        .ok { r.1 with free := r.1.free + 1 } (tlv 0x81 r.2)

/-- Address of HF_FAB_RESET_REQ, of HF_HANDOVER. -/
def isResetReq (a : Nat) : Bool := dieKind (regDieOf a) == 4 && regBlock a == 3 && regOff a == 0x2000
def isHandover (a : Nat) : Bool := dieKind (regDieOf a) == 4 && regBlock a == 0x15 && regOff a == 0x18
/-- REG of a packet, when it has one. -/
def regTlv (ts : List TlvE) (ty : Nat) : Option Nat := (ts.find? fun e => e.1 == ty).map fun e => leNat e.2

/-- One REG_WRITE (R464): its rows differ in what the register does. -/
def Pkg.regWrite (p : Pkg) (k : Pkt) (mine : Nat → Nat → Bool) (run : Pkg → Cmd → Ans) : Pkg :=
  p.luajo { code := 0x12, req := [9, 10], opt := [11], legal := 1 } k
    (fun ts => match regTlv ts 9, regTlv ts 10 with | some a, some v => mine a v | _, _ => true)
    (fun p c =>
      let a := c.num 9
      let mask := if c.has 11 then c.num 11 else 2 ^ 64 - 1
      match p.reg a with
      | some (.rw w, old) => if a % 8 != 0 then some (stBadRegister, []) else if (p.regPut a (rwMerge old (c.num 10) mask w)).isNone then some (stRegValue, []) else none
      | some (.w1c _ _ _, _) | some (.wo, _) => if a % 8 != 0 then some (stBadRegister, []) else none
      | _ => some (stBadRegister, []))
    fun p c => if p.regDown (c.num 9) false then .no stDieUnavailable [] else run p c

/-- REG_WRITE of a register with no behaviour of its own (R464): RW under its mask, W1C flags cleared. -/
def execRegWrite (k : Pkt) (s : State) : Host.Outcome State Fault Refusal :=
  s.run fun p => p.regWrite k (fun a _ => !isResetReq a && !isHandover a) fun p c =>
    let a := c.num 9
    let v := c.num 10
    let mask := if c.has 11 then c.num 11 else 2 ^ 64 - 1
    match p.reg a with
    | some (.rw w, old) => .ok ((p.regPut a (rwMerge old v mask w)).getD p) []
    | some (.w1c r i bits, _) => .ok (p.clearFlags r i (BitVec.ofNat 64 (v &&& mask &&& bits))) []
    | _ => .ok p []

/-- A write to HF_FAB_RESET_REQ (R334, R342). -/
def Pkg.resetReq (p : Pkg) (k : Pkt) (orderly : Bool) : Pkg :=
  p.regWrite k (fun a v => isResetReq a && bit v 5 == orderly) fun p c =>
    let d := fld (c.num 10) 0 5
    if d = p.primary || !p.dieUp d then .no stRegRefused [] else .ok (p.dieReset d 1 orderly) []
/-- FAB_RESET_REQ_ORDERLY (R334). -/
def execFabResetReqOrderly (k : Pkt) (s : State) : Host.Outcome State Fault Refusal := s.run fun p => p.resetReq k true
/-- FAB_RESET_REQ_ABRUPT (R334). -/
def execFabResetReqAbrupt (k : Pkt) (s : State) : Host.Outcome State Fault Refusal := s.run fun p => p.resetReq k false

/-- A new per-boot key begins (R499): the old one is abandoned. -/
def Pkg.newKey (p : Pkg) : Pkg :=
  { p with ident := { p.ident with gen := (p.ident.gen + 1) % 2 ^ 16, pbkReady := false, leaves := 0, pbkSeed := 0 } }
/-- HANDOVER (R488): the synchronised A.H standby becomes primary. -/
def execHandover (k : Pkt) (s : State) : Host.Outcome State Fault Refusal :=
  s.run fun p => p.regWrite k (fun a _ => isHandover a) fun p c =>
    if bit (c.num 10) 0 && p.pwr.primaryB && p.dieUp 15 && p.pwr.synced && p.eth.up
    then .ok { p with pwr := { p.pwr with primaryB := false, missed := 0 } }.newKey []
    else .no stRegRefused []

end Sys2Proof.Machine
end

