-- ==== Sys2Proof/Machine/Bulk.lean ====
section
/-! DEFINITION. Bulk data over RoCEv2, flow control and the frames the host port answers (R426 to R430, R459). -/

namespace Sys2Proof.Machine

/-! ## BULK_DESCRIBE (R459) -/

def bkQpn (r : Rec) : Nat := fld r 4 13
def bkKey (r : Rec) : Nat := fld r 256 32
def bkBase (r : Rec) : Nat := fld r 288 48
def bkPages (r : Rec) : Nat := fld r 336 32
def bkSlot (r : Rec) : Nat := fld r 370 4
/-- Bits that Table 17.11 does not list. -/
def bkReserved (r : Rec) : Bool := fld r 17 7 != 0 || fld r 50 14 != 0 || fld r 112 16 != 0 || fld r 374 138 != 0
/-- Path MTU in bytes (R428). -/
def bkMtu (r : Rec) : Nat := 1024 * 2 ^ fld r 48 2
/-- Queue pair of a number. -/
def Pkg.qp (p : Pkg) (n : Nat) : Qp := tabGet {} p.eth.qps n
def Pkg.setQp (p : Pkg) (n : Nat) (q : Qp) : Pkg := { p with eth := { p.eth with qps := tabSet {} p.eth.qps n q } }
/-- Does a keyed range lie in one region that allows what the key allows? -/
def Pkg.keyFits (p : Pkg) (r : Rec) : Bool :=
  p.regions.any fun g => decide (g.base ≤ bkBase r) && decide (bkBase r + 65536 * bkPages r ≤ g.base + g.len) &&
    (!bit r 368 || bit g.perm 3) && (!bit r 369 || bit g.perm 2)
/-- Is the slot bound, with the host as its forward sender (R459)? -/
def Pkg.hostFed (p : Pkg) (j : Nat) : Bool := (p.slot j).bound && (p.ing j 0).sender == 0xFFFFFF

/-- The row of BULK_DESCRIBE whose record has ACTION n; a record with no row's action is every row's, and is refused. -/
def bulkRow (n : Nat) (ts : List TlvE) : Bool :=
  match ts.find? fun e => e.1 == 1 with
  | some e => fld (leNat e.2) 0 4 == n || decide (5 < fld (leNat e.2) 0 4)
  | none => true
/-- BULK_DESCRIBE under one action: its record, its own tests, its effect while the host port is up (R432). -/
def Pkg.bulk (p : Pkg) (k : Pkt) (n : Nat) (tests : Pkg → Rec → Bool) (run : Pkg → Cmd → Ans) : Pkg :=
  p.luajo { code := 0x51, req := [1], ofCtx := true, legal := 1 } k (bulkRow n)
    (fun p c => firstBad [
      badLen c 64
      , defect (bkReserved c.strct) stReserved
      , defect (decide (5 < fld c.strct 0 4) || tests p c.strct) stRange]) run
/-- Is the number outside 1 to 4,096 (R428)? -/
def qpnBad (r : Rec) : Bool := bkQpn r == 0 || decide (4096 < bkQpn r)
/-- Does the record name no queue pair that exists? -/
def Pkg.noQp (p : Pkg) (r : Rec) : Bool := qpnBad r || (p.qp (bkQpn r)).state == 0
/-- Micro-batches the host has not posted are discarded (R459). -/
def Pkg.dropUnposted (p : Pkg) (j : Nat) : Pkg := p.modIng j 0 fun g => { g with opens := [], hostEnd := [] }

/-- BULK_CREATE_QP (R428, R459). -/
def execBulkCreateQp (k : Pkt) (s : State) : Host.Outcome State Fault Refusal :=
  s.run fun p => p.bulk k 0 (fun _ r => qpnBad r || fld r 48 2 == 3) fun p c =>
    let r := c.strct
    if (p.qp (bkQpn r)).state != 0 then .no stQpLimit []
    else if !p.ownPort then .no stHostPortDown []
    else .ok (p.setQp (bkQpn r) {
      state := 1, rqpn := fld r 24 24, mtu := bkMtu r, sqPsn := fld r 64 24, rqPsn := fld r 88 24, ip := fld r 128 128 }) []
/-- BULK_DESTROY_QP (R459): a slot the queue pair carried loses it. -/
def execBulkDestroyQp (k : Pkt) (s : State) : Host.Outcome State Fault Refusal :=
  s.run fun p => p.bulk k 1 Pkg.noQp fun p c =>
    if !p.ownPort then .no stHostPortDown []
    else
      let n := bkQpn c.strct
      let p := match (p.qp n).slot with | some j => p.dropUnposted j | none => p
      .ok (p.setQp n {}) []
/-- BULK_REGISTER_KEY (R459): a key already in use takes the new range. -/
def execBulkRegisterKey (k : Pkt) (s : State) : Host.Outcome State Fault Refusal :=
  s.run fun p => p.bulk k 2 (fun p r => bkKey r == 0 || !p.keyFits r) fun p c =>
    let r := c.strct
    if !p.ownPort then .no stHostPortDown []
    else .ok { p with eth := { p.eth with
      keys := ⟨bkKey r, bkBase r, bkPages r, fld r 368 2⟩ :: p.eth.keys.filter fun (y : BulkKey) => y.rkey != bkKey r } } []
/-- BULK_DEREGISTER_KEY (R459). -/
def execBulkDeregisterKey (k : Pkt) (s : State) : Host.Outcome State Fault Refusal :=
  s.run fun p => p.bulk k 3 (fun p r => !p.eth.keys.any fun (y : BulkKey) => y.rkey == bkKey r) fun p c =>
    if !p.ownPort then .no stHostPortDown []
    else .ok { p with eth := { p.eth with keys := p.eth.keys.filter fun (y : BulkKey) => y.rkey != bkKey c.strct } } []
/-- BULK_BIND_SLOT (R459): the queue pair carries a host-fed slot's forward ingress, and the latest grant goes out on it. -/
def execBulkBindSlot (k : Pkt) (s : State) : Host.Outcome State Fault Refusal :=
  s.run fun p => p.bulk k 4 Pkg.noQp fun p c =>
    let n := bkQpn c.strct
    let j := bkSlot c.strct
    if !p.ownPort then .no stHostPortDown []
    else if !p.hostFed j || (p.qp n).state != 1 then p.badState c stBadState
    else
      let p := { p with eth := { p.eth with qps := p.eth.qps.map fun (e : Nat × Qp) => (e.1, if e.2.slot = some j then { e.2 with slot := none } else e.2) } }
      .ok ((p.setQp n { p.qp n with slot := some j }).sendGrant j 0) []
/-- BULK_UNBIND_SLOT (R459). -/
def execBulkUnbindSlot (k : Pkt) (s : State) : Host.Outcome State Fault Refusal :=
  s.run fun p => p.bulk k 5 Pkg.noQp fun p c =>
    let n := bkQpn c.strct
    let j := bkSlot c.strct
    if !p.ownPort then .no stHostPortDown []
    else if (p.qp n).slot != some j then p.badState c stBadState
    else .ok ((p.setQp n { p.qp n with slot := none }).dropUnposted j) []

/-! ## RoCEv2 (R428, R430, R459) -/

/-- Line rate in bit/s (R423). -/
def Pkg.lineRate (p : Pkg) : Nat := if p.eth.rate800 then 800000000000 else 1600000000000
/-- Does a packet of queue pair n reach it: the port is up, firmware runs, the pair is ready? -/
def Pkg.qpReady (p : Pkg) (n : Nat) : Bool := p.answers && p.ownPort && (p.qp n).state == 1
/-- A RoCEv2 packet of the device leaves with BULK_PRIO (R429): 1 read response, 2 ACK, 3 NAK with its code (0 sequence,
1 invalid request, 2 remote access, 3 remote operation), 4 RNR NAK, 5 congestion notification. -/
def Pkg.roceOut (p : Pkg) (n op psn : Nat) (bs : List Byte) : Pkg := p.ethSend (some p.eth.bulkPrio) (.roce n op (psn % 2 ^ 24) bs)
/-- Is PSN a at or before PSN b? -/
def psnLe (a b : Nat) : Bool := decide ((b + 2 ^ 24 - a % 2 ^ 24) % 2 ^ 24 < 2 ^ 23)

/-- Take a request packet of queue pair n: the expected one is `fresh`, an earlier one a repeat, and a gap is answered once with
a NAK. -/
def Pkg.roceIn (p : Pkg) (n psn : Nat) (fresh again : Pkg → Pkg) : Pkg :=
  if !p.qpReady n then p else
  let q := p.qp n
  if psn = q.rqPsn then fresh (p.setQp n { q with nakSent := false })
  else if psnLe psn q.rqPsn then again p
  else if q.nakSent then p
  else (p.setQp n { q with nakSent := true }).roceOut n 3 q.rqPsn [0]
/-- The request of `count` PSNs has executed: the next is expected. -/
def Pkg.roceNext (p : Pkg) (n count : Nat) : Pkg := p.setQp n { p.qp n with rqPsn := ((p.qp n).rqPsn + count) % 2 ^ 24 }

/-- Pages of the open micro-batches of slot j that the host has written whole commit, and what is complete is posted (R62, R459). -/
def Pkg.hostPages (p : Pkg) (j : Nat) : Pkg :=
  let g := p.ing j 0
  let step (g : Ingress) (o : OpenMb) (page : Nat) : Ingress :=
    let i := page % g.pages
    let need := mhPageBytes o.head page
    if tabGet 0 g.hostEnd i < need || g.clSent ≤ page || (g.opens.any fun x => mhFirst x.head == mhFirst o.head && x.committed.contains page) then g
    else { (g.modOpen (mhFirst o.head) fun x => { x with
        committed := x.committed ++ [page], landed := tabSet 0 x.landed page (2 ^ ceilDiv need 8192 - 1) }) with
      hostEnd := tabSet 0 g.hostEnd i 0 }
  let g := g.opens.foldl (fun g o => (List.range (mhPages o.head)).foldl (fun g i => step g o (mhFirst o.head + i)) g) g
  let p := (p.setIng j 0 g).postReady j 0 (g.opens.length + 1)
  (p.ctxEval (p.slot j).ctx).swapEval
/-- The host's SEND of an MB_HEAD (R57, R60, R459): pages beyond the credit are violations. -/
def Pkg.hostHead (p : Pkg) (j : Nat) (h : Rec) : Pkg :=
  let g := p.ing j 0
  let overs := ((List.range (Nat.min 64 (mhPages h))).map (mhFirst h + ·)).filter fun page => decide (g.clSent ≤ page)
  let p := overs.foldl (fun p page => p.creditViol j page) p
  (p.openHead j 0 h).hostPages j

/-- ROCE_SEND_RECEIVE (R428, R459): on a queue pair that carries a slot, the MB_HEAD of a micro-batch; without a slot no receive is
posted. -/
def execRoceSendReceive (qpn : Nat) (psn : BitVec 24) (data : List Byte) (s : State) : Host.Outcome State Fault Refusal :=
  s.run fun p => p.roceIn qpn psn.toNat
    (fun p =>
      match (p.qp qpn).slot with
      | none => p.roceOut qpn 4 psn.toNat []
      | some j =>
        if data.length != 48 then (p.roceOut qpn 3 psn.toNat [1]).qpError qpn
        else
          let p := (p.roceNext qpn 1).roceOut qpn 2 psn.toNat []
          if p.hostFed j then p.hostHead j (leNat data) else p)
    fun p => p.roceOut qpn 2 psn.toNat []

/-- The key of a remote access, when it covers the range and allows the access (R428). -/
def Pkg.keyAllows (p : Pkg) (rkey a n permBit : Nat) : Bool :=
  p.eth.keys.any fun y => y.rkey == rkey && decide (y.base ≤ a) && decide (a + n ≤ y.base + 65536 * y.pages) && bit y.perm permBit
/-- A CE-marked packet is answered with a congestion notification, at most one per 50 µs (R430). -/
def Pkg.congestion (p : Pkg) (n : Nat) (ce : Bool) : Pkg :=
  let q := p.qp n
  let due := match q.cnpAt with | some t => decide (t + 50000 ≤ p.now) | none => true
  if ce && due && p.qpReady n then (p.setQp n { q with cnpAt := some p.now }).roceOut n 5 0 [] else p
/-- Bytes written at a landing address of the slot a queue pair carries count toward their page (R56, R459). -/
def Pkg.noteHost (p : Pkg) (n a len : Nat) : Pkg :=
  let p := p.noteTrack a len
  match (p.qp n).slot with
  | none => p
  | some j =>
    let g := p.ing j 0
    if !p.hostFed j || a < g.base || g.base + 65536 * g.pages ≤ a || len = 0 then p
    else
      let fst := (a - g.base) / 65536
      let lst := (a - g.base + len - 1) / 65536
      let ends := (List.range (lst + 1 - fst)).map fun i => (fst + i, Nat.min 65536 (a - g.base + len - (fst + i) * 65536))
      ((p.phaseTick j).setIng j 0 { g with hostEnd := ends.foldl (fun t e => if e.1 < g.pages then tabMod 0 t e.1 (Nat.max e.2) else t) g.hostEnd }).hostPages j

/-- First page beyond the credit that bytes written to the landing region of a host-fed slot would fill (R55, R58, R60): a region page stands
for the first page number, from the next to be posted on, that maps to it. -/
def Pkg.hostBeyond (p : Pkg) (n a len : Nat) : Option (Nat × Nat) :=
  match (p.qp n).slot with
  | none => none
  | some j =>
    let g := p.ing j 0
    if !p.hostFed j || a < g.base || g.base + 65536 * g.pages ≤ a || len = 0 then none
    else
      let fst := (a - g.base) / 65536
      let lst := (a - g.base + len - 1) / 65536
      (((List.range (lst + 1 - fst)).map fun i => g.nextPage + (fst + i + g.pages - g.nextPage % g.pages) % g.pages).find? fun page => decide (g.clSent ≤ page)).map fun page => (j, page)
/-- The bytes of an RDMA WRITE are stored, or dropped as beyond the credit of a host-fed slot (R55, R60, R459). -/
def Pkg.hostStore (p : Pkg) (n a : Nat) (data : List Byte) : Pkg :=
  match p.hostBeyond n a data.length with
  | some x => p.creditViol x.1 x.2
  | none => ((p.devTouch a data.length true 0).store a data).noteHost n a data.length

/-- ROCE_WRITE_RECEIVE (R428, R430, R459): one packet of an RDMA WRITE. -/
def execRoceWriteReceive (qpn : Nat) (psn : BitVec 24) (rkey : BitVec 32) (addr : BitVec 48) (data : List Byte) (ce : Bool) (s : State) :
    Host.Outcome State Fault Refusal :=
  s.run fun p =>
    let p := p.congestion qpn ce
    p.roceIn qpn psn.toNat
      (fun p =>
        let a := addr.toNat
        if (p.qp qpn).mtu < data.length then (p.roceOut qpn 3 psn.toNat [1]).qpError qpn
        else if !p.keyAllows rkey.toNat a data.length 0 then p.roceOut qpn 3 psn.toNat [2]
        else match (if data.isEmpty then .ok else p.memReady a data.length) with
          | .waits => p
          | .ok => ((p.roceNext qpn 1).roceOut qpn 2 psn.toNat []).hostStore qpn a data
          | _ => p.roceOut qpn 3 psn.toNat [3])
      fun p => p.roceOut qpn 2 psn.toNat []

/-- ROCE_READ_RECEIVE (R428): answered in pieces of the path MTU; a repeat is answered again. -/
def execRoceReadReceive (qpn : Nat) (psn : BitVec 24) (rkey : BitVec 32) (addr : BitVec 48) (len : Nat) (s : State) :
    Host.Outcome State Fault Refusal :=
  s.run fun p =>
    let serve (p : Pkg) (next : Bool) : Pkg :=
      let a := addr.toNat
      let m := (p.qp qpn).mtu
      let n := Nat.max 1 (ceilDiv len m)
      if !p.keyAllows rkey.toNat a len 1 then p.roceOut qpn 3 psn.toNat [2]
      else match (if len = 0 then .ok else p.memReady a len) with
        | .waits => p
        | .ok =>
          let bs := p.load a len
          let p := p.devTouch a len false 0
          let p := if next then p.roceNext qpn n else p
          (List.range n).foldl (fun p i => p.roceOut qpn 1 (psn.toNat + i) ((bs.drop (m * i)).take m)) p
        | _ => p.roceOut qpn 3 psn.toNat [3]
    p.roceIn qpn psn.toNat (fun p => serve p true) (fun p => serve p false)

/-- Send again everything that is not acknowledged. -/
def Pkg.roceResend (p : Pkg) (n : Nat) : Pkg := (p.qp n).unacked.foldl (fun p u => p.roceOut n 0 u.1 u.2) p
/-- One more retry, or the error state after 7 (R428). -/
def Pkg.roceRetry (p : Pkg) (n : Nat) : Pkg :=
  let q := p.qp n
  if 7 ≤ q.retries then p.qpError n else (p.setQp n { q with retries := q.retries + 1 }).roceResend n

/-- ROCE_ACK_RECEIVE (R428): 0 an acknowledgement up to PSN, 1 a NAK for a gap at PSN, 2 an RNR NAK at PSN, 3 a NAK for an error. -/
def execRoceAckReceive (qpn : Nat) (psn : BitVec 24) (kind : Fin 4) (s : State) : Host.Outcome State Fault Refusal :=
  s.run fun p =>
    if !p.qpReady qpn then p else
    let q := p.qp qpn
    let before := q.unacked.filter fun u => !psnLe u.1 psn.toNat || (kind != 0 && u.1 == psn.toNat)
    let q := { q with unacked := before, retries := if before.length < q.unacked.length then 0 else q.retries }
    let p := p.setQp qpn q
    if kind = 0 then p
    else if kind = 1 then p.roceRetry qpn
    else if kind = 2 then p.setQp qpn { q with rnrWait := true }
    else p.qpError qpn
/-- ROCE_ACK_TIMEOUT (R428). -/
def execRoceAckTimeout (qpn : Nat) (s : State) : Host.Outcome State Fault Refusal :=
  s.run fun p => if p.qpReady qpn && !(p.qp qpn).unacked.isEmpty && !(p.qp qpn).rnrWait then p.roceRetry qpn else p
/-- ROCE_RNR_TIMER (R428): the request is sent again, without limit. -/
def execRoceRnrTimer (qpn : Nat) (s : State) : Host.Outcome State Fault Refusal :=
  s.run fun p => if p.qpReady qpn && (p.qp qpn).rnrWait then (p.setQp qpn { p.qp qpn with rnrWait := false }).roceResend qpn else p

/-- CNP_RECEIVE (R430): the sending rate halves, to no less than 1 Gbit/s. -/
def execCnpReceive (qpn : Nat) (s : State) : Host.Outcome State Fault Refusal :=
  s.run fun p =>
    if !p.qpReady qpn then p else
    let q := p.qp qpn
    let r := Nat.max 1000000000 ((p.lineRate - q.rate) / 2)
    (p.setQp qpn { q with rate := p.lineRate - r }).bump .ethCnp p.eth.bulkPrio
/-- CNP_RATE_INCREASE (R430): 5 % of the line rate more, up to the line rate. -/
def execCnpRateIncrease (qpn : Nat) (s : State) : Host.Outcome State Fault Refusal :=
  s.run fun p => if p.qpReady qpn then p.setQp qpn { p.qp qpn with rate := (p.qp qpn).rate - p.lineRate / 20 } else p

/-! ## Flow control (R429) -/

/-- A paused priority goes on: what waited leaves in its order. -/
def Pkg.resumePrio (p : Pkg) (n : Nat) : Pkg :=
  let old := p.eth.held
  let p := { p with eth := { p.eth with paused := tabSet false p.eth.paused n false, held := old.filter fun e => e.1 != n } }
  (old.reverse.filter fun e => e.1 == n).foldl (fun p e => p.leave (some n) e.2) p
/-- PFC_FRAME_RECEIVE (R429): one of the two priorities stops for the quanta given; no quanta resume it. -/
def execPfcFrameReceive (prio : Fin 8) (quanta : BitVec 16) (s : State) : Host.Outcome State Fault Refusal :=
  s.run fun p =>
    if !p.ownPort || (prio.val != p.eth.bulkPrio && prio.val != p.eth.cmdPrio) then p
    else
      let p := p.bump .ethPfc prio
      if quanta = 0 then p.resumePrio prio else { p with eth := { p.eth with paused := tabSet false p.eth.paused prio true } }
/-- PFC_PAUSE_END (R429). -/
def execPfcPauseEnd (prio : Fin 8) (s : State) : Host.Outcome State Fault Refusal :=
  s.run fun p => if tabGet false p.eth.paused prio then p.resumePrio prio else p

/-! ## Frames (R424 to R427) -/

/-- ARP_REQUEST (R426). -/
def execArpRequest (target : BitVec 32) (vlan : Option (BitVec 16)) (s : State) : Host.Outcome State Fault Refusal :=
  s.run fun p =>
    if p.eth.ip4 = 0 || target.toNat != p.eth.ip4 then p
    else p.ethSend (tagPrio vlan) (.frame 0 vlan (p.macBytes ++ toBe 4 p.eth.ip4))
/-- NEIGHBOUR_SOLICITATION (R426). -/
def execNeighbourSolicitation (target : BitVec 128) (vlan : Option (BitVec 16)) (s : State) : Host.Outcome State Fault Refusal :=
  s.run fun p =>
    if target.toNat = p.linkLocal || (p.eth.ip6 != 0 && target.toNat == p.eth.ip6)
    then p.ethSend (tagPrio vlan) (.frame 1 vlan (toBe 16 target.toNat ++ p.macBytes)) else p
/-- ICMP_ECHO_REQUEST (R426): up to 1,024 bytes, at most 1,000 a second. -/
def execIcmpEchoRequest (v6 : Bool) (payload : List Byte) (vlan : Option (BitVec 16)) (s : State) : Host.Outcome State Fault Refusal :=
  s.run fun p =>
    let near := p.eth.echoes.filter fun t => decide (p.now < t + 1000000000)
    if 1024 < payload.length || 1000 ≤ near.length || (!v6 && p.eth.ip4 == 0) || !p.ownPort then p
    else { p with eth := { p.eth with echoes := p.now :: near } }.ethSend (tagPrio vlan) (.frame 2 vlan payload)
/-- FRAME_DROP (R426, R427): a fragment or an oversized datagram, or a datagram nobody takes. -/
def execFrameDrop (fragment : Bool) (s : State) : Host.Outcome State Fault Refusal :=
  s.run fun p => if p.ownPort then p.bump (if fragment then .ethFragDrop else .ethPortDrop) 0 else p

end Sys2Proof.Machine
end

