-- ==== Sys2Proof/Machine/Image.lean ====
section
/-! DEFINITION. Firmware images, the hand-back bundle and the identity certificate: their checks, and the start of firmware from them (R14,
R15, R211, R281, R293, R329, R338, R479 to R482, R494 to R499). -/

namespace Sys2Proof.Machine

/-! ## Firmware images (R496, R497) -/

/-- Bytes [a, a + n) of a list. -/
def slice (l : List Byte) (a n : Nat) : List Byte := (l.drop a).take n
/-- Header of an image (Table 19.2). -/
def imHdr (b : List Byte) : Rec := leNat (b.take 256)
def imBody (h : Rec) : Nat := fld h 128 32
def imCodeOff (h : Rec) : Nat := fld h 160 32
def imCodeLen (h : Rec) : Nat := fld h 192 32
def imPairOff (h : Rec) : Nat := fld h 224 32
def imPairN (h : Rec) : Nat := fld h 256 16
def imQualN (h : Rec) : Nat := fld h 272 16
def imQualOff (h : Rec) : Nat := fld h 288 32
/-- Sections of the body: offset and bytes. -/
def imSections (h : Rec) : List (Nat × Nat) := [(imCodeOff h, imCodeLen h), (imPairOff h, 16 * imPairN h), (imQualOff h, 8 * imQualN h)]
/-- Do ranges lie in a body without overlapping? -/
def disjointIn (size : Nat) : List (Nat × Nat) → Bool
  | [] => true
  | a :: rest => decide (a.1 + a.2 ≤ size) && !(rest.any fun b => overlaps a.1 a.2 b.1 b.2) && disjointIn size rest
/-- Step 1 of R497. -/
def imageLenOk (b : List Byte) (announced : Nat) : Bool :=
  decide (0x10000 ≤ b.length) && decide (b.length ≤ 0x10000000) && imBody (imHdr b) + 2124 == announced && b.length == announced
/-- Step 2 of R497. -/
def imageHdrOk (b : List Byte) : Bool :=
  let h := imHdr b
  fld h 0 32 == 0x46574C56 && fld h 32 16 == 1 && decide (fld h 48 8 < 2) && decide (fld h 56 8 < 2) && fld h 320 1728 == 0 &&
    imBody h % 64 == 0 && imCodeOff h % 64 == 0 && decide (imCodeLen h ≤ 58720256) && imPairOff h % 16 == 0 && imQualOff h % 8 == 0 &&
    decide (1 ≤ imPairN h) && decide (imPairN h ≤ 256) && decide (1 ≤ imQualN h) && decide (imQualN h ≤ 1024) && disjointIn (imBody h) (imSections h)
/-- The signed part of an image. -/
def imSigned (b : List Byte) : List Byte := b.take (256 + imBody (imHdr b))
/-- SHA-384 of the signed part. -/
def imDigest (b : List Byte) : Nat := Config.sha384 (imSigned b) % 2 ^ 384
/-- Steps 3 and 4 of R497. -/
def imageSigOk (b : List Byte) : Bool :=
  let h := imHdr b
  Config.ecdsaOk (Config.romEcdsaKey (fld h 48 8)) (Config.sha384 (imSigned b)) (leNat (slice b (256 + imBody h) 96)) &&
    Config.lmsOk (Config.romLmsKey (fld h 56 8)) (imSigned b) (slice b (352 + imBody h) 1772)
/-- The reason an image is rejected (R497): 0 none, 1 its length, 3 its header or a signature. -/
def imageReject (b : List Byte) (announced : Nat) : Nat :=
  if !imageLenOk b announced then 1 else if !imageHdrOk b || !imageSigOk b then 3 else 0
/-- Pairing table of an image (R338) and its list of qualified stacks. -/
def imPairs (b : List Byte) : List Rec := (List.range (imPairN (imHdr b))).map fun i => leNat (slice b (256 + imPairOff (imHdr b) + 16 * i) 16)
def imQuals (b : List Byte) : List Nat := (List.range (imQualN (imHdr b))).map fun i => leNat (slice b (256 + imQualOff (imHdr b) + 8 * i) 8)

/-- The first pairing entry that admits every admitted die (R338). -/
def Pkg.pairing (p : Pkg) (es : List Rec) : Option Nat :=
  let ds := (List.range 32).filter fun d => (p.die d).admitted
  es.findIdx? fun e => ds.all fun d => p.pairOk e d (p.die d).stepMajor

/-! ## The hand-back bundle (R480 to R482) -/

/-- Is a bundle whole and this device's (R482)? -/
def Pkg.bundleOk (p : Pkg) (b : List Byte) : Bool :=
  let h := leNat (b.take 128)
  fld h 0 32 == 0x4B424148 && fld h 32 16 == 1 && fld h 64 64 == p.serial && fld h 128 32 == b.length && decide (128 ≤ b.length) &&
    decide (b.length ≤ 4194304) && slice b 32 48 == toBe 48 (Config.sha384 (b.drop 128))
/-- Sections of a bundle: type and content, as far as they parse. -/
def hbSections : Nat → List Byte → List (Nat × List Byte)
  | 0, _ => []
  | n + 1, l =>
    let len := fld (leNat (l.take 8)) 32 32
    if l.length < 8 + len then [] else (leNat (l.take 2), slice l 8 len) :: hbSections n (l.drop (8 + roundUp len 8))
/-- Content of one section type. -/
def hbContent (ss : List (Nat × List Byte)) (ty : Nat) : List Byte := match ss.find? fun s => s.1 == ty with | some s => s.2 | none => []
/-- Entries of a section. -/
def hbEntries (ss : List (Nat × List Byte)) (ty size : Nat) : List Rec :=
  let c := hbContent ss ty
  (chunksOf size (c.length / size) c).map leNat
/-- A skipped entry (R482): its section and its number. -/
def Pkg.badEntry (p : Pkg) (ty n : Nat) : Pkg := (p.setFlag .pwrStatus p.primary 6).raise .hbEntryBad p.primary noCtx ty n
/-- Apply every entry of a section; one that has no meaning is skipped. -/
def Pkg.applyEntries (p : Pkg) (ty : Nat) (es : List Rec) (f : Pkg → Rec → Option Pkg) : Pkg :=
  es.zipIdx.foldl (fun p e => match f p e.1 with | some q => q | none => p.badEntry ty e.2) p

/-- A core exclusion (section 2). -/
def Pkg.hbExclude (p : Pkg) (e : Rec) : Option Pkg :=
  let d := fld e 26 5
  if dieKind d = 0 && !bit e 31 then some { p with pwr := { p.pwr with excl := tabMod 0 p.pwr.excl d fun v => v ||| fld e 0 26 } } else none
/-- A bundle map (section 3): taken where every spare it names passes; failed wires it leaves out get spares (R329). -/
def Pkg.hbBundle (p : Pkg) (e : Rec) : Option Pkg :=
  let d := fld e 0 5
  let b := fld e 5 9
  let wires := ((List.range 4).map fun s => (fld e (16 + 7 * s) 7, 66 + s)).filter fun x => x.1 != 127
  match (List.range (dieGroups d).length).find? fun g => decide (groupBase d g ≤ b) && decide (b < groupBase d g + (groupOf d g).2) with
  | none => none
  | some g =>
    let i := b - groupBase d g
    let old := tabGet ({} : Bundle) (p.group d g).bundles i
    if fld e 14 2 != 0 || fld e 44 20 != 0 || wires.any (fun x => decide (65 < x.1) || old.failed.contains x.2) || (wires.map (·.1)).eraseDups.length != wires.length
    then none
    else
      let new := ({ spares := wires } : Bundle).test old.failed
      let p := p.modGroup d g fun x => { x with bundles := tabSet {} x.bundles i new }
      some (if fld new.value 0 28 = fld e 16 28 then p else p.raiseHb .fabBundleMap d b new.value)
/-- Bundles with spares in use that the bundle gives no map for are new to the host (R329). -/
def Pkg.newBundles (p : Pkg) (given : List (Nat × Nat)) : Pkg :=
  (List.range 32).foldl (fun p d => (List.range (dieGroups d).length).foldl (fun p g =>
    (p.group d g).bundles.foldl (fun p e =>
      if given.contains (d, groupBase d g + e.1) || e.2.spares.isEmpty then p else p.raiseHb .fabBundleMap d (groupBase d g + e.1) e.2.value) p) p) p
/-- A lane map (section 4). -/
def Pkg.hbLane (p : Pkg) (e : Rec) : Option Pkg :=
  let n := fld e 0 8
  let m := put 0 60 (fld e 64 60) + put 60 60 (fld e 128 60)
  let ls := (List.range 18).map (laneOf m)
  if n < 16 && fld e 8 56 == 0 && fld e 124 4 == 0 && fld e 158 34 == 0 && ls.all (fun x => decide (x < 18))
  then some (p.modPort n fun q => { q with lanemap := m, hostMap := m }) else none
/-- A calibration entry (section 5) names an island of its die; whether the firmware reads its format is a free value. -/
def Pkg.hbCal (p : Pkg) (e : Rec) : Option Pkg :=
  let d := fld e 8 8
  let u := fld e 16 16
  let ok := match fld e 0 8 with
    | 0 => decide (d < 32) && decide (u < 288) && linkDie (u / 18) == d
    | 1 => decide (d < 32) && decide (u < 256) && dieOfStack (u / 16) == d
    | 2 => d == 15 && decide (u < 8)
    | _ => false
  let (f, q) := p.take 1
  if ok && f == 1 then some { q with pwr := { q.pwr with cal := q.pwr.cal ++ [e] } } else none
/-- A repair-map entry (R293): applied, or rejected with EV_MD_REPAIR_BAD. -/
def Pkg.hbRepair (p : Pkg) (e : Rec) : Pkg :=
  let s := fld e 2 4
  let k := p.stack s
  let loc : MemLoc := { channel := fld e 6 4, rank := fld e 10 2, bank := fld e 12 5, row := fld e 17 15, column := 0 }
  let bad := p.raise .mdRepairBad (dieOfStack s) noCtx s e
  if fld e 0 2 = 0 then p
  else if fld e 43 21 != 0 || loc.rank = 3 then bad
  else if fld e 0 2 = 1 then
    if fld e 36 7 != 0 || !(k.freeSpares loc).contains (fld e 32 4) then bad
    else p.modStack s fun k => { k with repairs := k.repairs ++ [e] }
  else if fld e 0 2 = 2 then
    let pin := fld e 36 7
    if fld e 12 24 != 0 || 72 ≤ pin || 2 ≤ (k.marksAt loc).length || (k.marksAt loc).contains pin then bad
    else p.modStack s fun k => { k with marks := k.marks ++ [(loc.channel, loc.rank, pin)] }
  else bad
/-- CERT_STATUS of a certificate section (R495). -/
def Pkg.certCheck (p : Pkg) (c : List Byte) : Nat :=
  if c.isEmpty then 0 else
  let a := (p.die 15).pufOk
  let b := (p.die 31).pufOk
  let okA := slice c 16 97 == sec1 (headframeKey 15) && slice c 8 8 == (toBe 48 (Config.sha384 (sec1 (headframeKey 15)))).take 8
  let okB := slice c 113 97 == sec1 (headframeKey 31)
  if c.length != 2092 || leNat (c.take 4) != 0x54434956 || leNat (slice c 4 2) != 1 || (a && !okA) || (b && !okB) then 2
  else if a && b then 1 else 3
/-- Apply a bundle (R479 order 11, R482). -/
def Pkg.applyBundle (p : Pkg) (b : List Byte) : Pkg :=
  let ss := hbSections (fld (leNat (b.take 8)) 48 16) (b.drop 128)
  let maps := hbEntries ss 3 8
  let p := p.applyEntries 2 (hbEntries ss 2 4) Pkg.hbExclude
  let p := (p.applyEntries 3 maps Pkg.hbBundle).newBundles (maps.map fun e => (fld e 0 5, fld e 5 9))
  let p := p.applyEntries 4 (hbEntries ss 4 24) Pkg.hbLane
  let p := p.applyEntries 5 (hbEntries ss 5 64) Pkg.hbCal
  let p := (hbEntries ss 1 8).foldl Pkg.hbRepair p
  let keys := hbContent ss 6
  let cert := hbContent ss 7
  let st := p.certCheck cert
  let p := if 16 < keys.length / 97 || keys.length % 97 != 0 then p.badEntry 6 16 else p
  let p := if st = 2 then p.badEntry 7 0 else p
  { p with
    pwr := { p.pwr with keySec := keys, certSec := cert }
    ident := { p.ident with
      opKeys := (chunksOf 97 (keys.length / 97) keys).take 16, keyDigest := Config.sha384 keys % 2 ^ 384
      certDigest := if cert.isEmpty then 0 else Config.sha384 cert % 2 ^ 384
      certStatus := st } }

/-! ## Start of firmware (R479, R281, R499) -/

/-- Qualify one stack (R281): not listed, not trained on every channel, or in service. -/
def Pkg.qualify (p : Pkg) (s : Nat) (r : Option StackReport) : Pkg :=
  let d := dieOfStack s
  let id := match r with | some r => r.ident.toNat | none => 0
  let ch := match r with | some r => r.chUp.toNat | none => 0
  let p := p.modStack s fun k => { k with ident := BitVec.ofNat 64 id, chUp := ch }
  if !p.dieUp d || ch != 0xFFFF && p.ident.qual.contains id then (p.modStack s fun k => { k with state := 5 }).raise .mdStackFailed d noCtx s ch
  else if !p.ident.qual.contains id then (p.modStack s fun k => { k with state := 4 }).raise .mdStackUnqualified d noCtx s id
  else p.modStack s fun k => { k with state := 0 }
/-- A per-boot key begins to be made at a firmware start (R499): GEN counts the generations since package start. -/
def Pkg.startKey (p : Pkg) : Pkg :=
  let p := if p.ident.fwStarts = 0 then p else p.newKey
  { p with ident := { p.ident with fwStarts := p.ident.fwStarts + 1 } }
/-- What the headframes keep of an image (R479). -/
def Pkg.keepImage (p : Pkg) (b : List Byte) (entry : Nat) : Pkg :=
  let h := imHdr b
  { p with
    admittedBy := entry
    ident := { p.ident with
      fwVersion := fld h 64 32, svn := fld h 96 32, ecdsaSlot := fld h 48 8, lmsSlot := fld h 56 8, digest := imDigest b
      pairing := imPairs b, qual := imQuals b } }
/-- The package feature level (R14): the least level of the admitted dies, on every die. -/
def Pkg.setFeature (p : Pkg) : Pkg :=
  let ds := (List.range 32).filter fun d => (p.die d).admitted
  let lv := ds.foldl (fun m d => Nat.min m (p.die d).feature) 255
  ds.foldl (fun p d => p.modDie d fun x => { x with pkgFeature := lv }) p

/-- Firmware starts, and the hand-back is applied (R479 orders 10 to 12). -/
def Pkg.firmwareStart (p : Pkg) (image bundle : List Byte) (entry : Nat) (stackTab : List (StackId × StackReport)) : Pkg :=
  let p := ((p.keepImage image entry).setFeature.startKey).applyBundle bundle
  let p := (List.range 32).foldl (fun p d => if dieKind d = 0 && (p.die d).admitted then p.coreMap d (p.die d).passing else p) p
  (List.range 16).foldl (fun p s => p.qualify s ((stackTab.find? fun x => x.1.val == s).map (·.2))) p

end Sys2Proof.Machine
end

