-- ==== Sys2Proof/Machine/Power.lean ====
section
/-! DEFINITION. Canaries, the rail loop, the power cap, thermal actions, domain faults (R39, R40, R471 to R478), and the heartbeat and takeover
of the headframes (R485 to R488). -/

namespace Sys2Proof.Machine

/-! ## Canaries and the rail loop (R39, R40) -/

/-- Slack of a rate against a target in units of 0.25 %, rounded down, and whether it fits eight signed bits. -/
def slackOf (rate target : Nat) : Int × Bool :=
  if target = 0 then (0, false) else
  let v := (((rate : Int) - target) * 400) / (target : Int)
  (v, decide (-128 ≤ v) && decide (v ≤ 127))
/-- Is a slack a whole number of units? -/
def slackExact (rate target : Nat) : Bool := target == 0 || (((rate : Int) - target) * 400) % (target : Int) == 0
/-- CANARY_UPDATE (R39): a canary reports its rate and its slack against the target of its domain. The rounding of the slack, and the
slack that the field cannot hold, are free values. -/
def execCanaryUpdate (d : DieId) (n : Fin 8) (rate : BitVec 16) (s : State) : Host.Outcome State Fault Refusal :=
  s.run fun p =>
    if !p.dieUp d then p else
    let dom := canaryDomain d n
    let target := tabGet 0 p.pwr.rate dom
    let sl := slackOf rate.toNat target
    let (x, p) := p.take 8
    let slack := if sl.2 then unsgn 8 (sl.1 + (if x % 2 = 1 && !slackExact rate.toNat target && decide (sl.1 < 127) then 1 else 0)) else x
    let v := BitVec.ofNat 64 (put 0 16 rate.toNat + put 16 16 target + put 32 8 slack + put 40 7 dom + put 47 1 1)
    p.modDie d fun x => { x with canary := tabSet (canaryDflt d n) x.canary n v }

/-- POWER_LOOP_TICK (R40): the loop runs for every compute domain whose die is in service. -/
def execPowerLoopTick (s : State) : Host.Outcome State Fault Refusal :=
  s.run fun p =>
    p.railLoops (List.range 32)

/-! ## The cap (R474) -/

/-- Die that a voltage domain supplies (Table 18.2); none for the seam stations. -/
def dieOfDomain (d : Nat) : Option Nat :=
  if d < 48 then some (dieOfCluster (d % 16))
  else if d < 80 then some (dieOfMem ((d - 48) % 8))
  else if d < 88 then some (12 + d % 2 + 16 * ((d - 80) % 4 / 2))
  else if d < 94 then some (if d < 90 then queueDie (d % 2) else 15 + 16 * (d % 2))
  else none
/-- Domains the cap lowers now, in the order of R474. -/
def Pkg.capPick (p : Pkg) : List Nat :=
  let hot := (List.range 32).filter fun d => decide (220 < p.railOf d)
  let idle := hot.filter fun d => (p.carriedBy d).isEmpty
  if !idle.isEmpty then idle
  else if !hot.isEmpty then hot
  else (List.range 96).filter fun d => domKind d == 1 && decide (260 < p.railOf d)
/-- Is a domain's die throttled for heat (R476)? -/
def Pkg.hotDomain (p : Pkg) (d : Nat) : Bool := match dieOfDomain d with | some x => (p.die x).throttle | none => false
/-- CAP_TICK (R474): v_cap falls by 10 mV where the cap is exceeded, rises by 5 mV below 97 % of it; the ceilings bound it. -/
def execCapTick (power : Nat) (s : State) : Host.Outcome State Fault Refusal :=
  s.run fun p =>
    if !p.answers then p else
    let p := p.noteCauses
    let p := if p.capping then p.addCtr .pwrCapNs 0 10000 else p
    let adj := (List.range 96).filter fun d => domKind d != 2
    let p := { p with pwr := { p.pwr with mean := power, capOver := p.pwr.capOver && decide (p.pwr.capW < power) } }
    let p :=
      if p.pwr.capW < power then p.capPick.foldl (fun p d => p.setVCap d (Nat.max (if d < 32 then 220 else 260) (p.vCapOf d - 4))) p
      else if 100 * power < 97 * p.pwr.capW then
        adj.foldl (fun p d => if p.hotDomain d then p else p.setVCap d (p.vCapOf d + 2)) p
      else p
    (adj.foldl (fun p d => p.setVCap d (Nat.min (p.vCapOf d) (p.ceilOf d))) p).noteCauses
/-- CAP_EXCEEDED (R474, R478): for 1 ms the power has stood above the cap with nothing left to lower. -/
def execCapExceeded (s : State) : Host.Outcome State Fault Refusal :=
  s.run fun p =>
    if p.answers && decide (p.pwr.capW < p.pwr.mean) && p.capPick.isEmpty
    then { p with pwr := { p.pwr with capOver := true } }.setFlag .pwrStatus p.primary 0 else p

/-! ## Reset of the package (R469) -/

/-- Every die is held in reset (R469): what the always-on domain and the board hold stays, every stack's contents are undefined,
and the package state stands until the next start. -/
def Pkg.packageReset (p : Pkg) : Pkg :=
  let keep (v : W64) : W64 := v &&& 0xC#64
  { ({} : Pkg) with
    free := p.free, out := p.out, tap := p.tap, pkgState := p.pkgState, refEthLost := p.refEthLost, clkStop := p.clkStop.map fun _ => 0, aHStep := p.aHStep, lnkLost := p.lnkLost
    flags := [15, 31].foldl (fun t d => tabSet 0 t (flagKey .pwrStatus d) (keep (p.flagReg .pwrStatus d))) []
    stackTab := (List.range 16).map fun n => (n, { undefAll := true })
    pwr := {
      resetLow := p.pwr.resetLow, pwrGood := p.pwr.pwrGood, vauxOk := p.pwr.vauxOk, vinOut := p.pwr.vinOut, vauxOut := p.pwr.vauxOut
      thermtrip := p.pwr.thermtrip, trip := p.pwr.trip } }

/-! ## Heat (R475 to R477) -/

/-- Domains of a die whose rail can move. -/
def domainsOf (die : Nat) : List Nat := (List.range 94).filter fun d => domKind d != 2 && dieOfDomain d == some die
/-- Thermal trip (R477): THERMTRIP_N, every regulator off, the package HALTED, memory lost; the record stays. -/
def Pkg.trip (p : Pkg) (d reading : Nat) : Pkg :=
  let p := { p with pwr := { p.pwr with thermtrip := true, trip := BitVec.ofNat 64 (put 0 5 d + put 5 1 1 + put 8 8 reading) } }
  p.packageReset.pkgTo 5
/-- The actions of R476 for one die after a reading; `was` is its junction before. -/
def Pkg.thermal (p : Pkg) (d was : Nat) : Pkg :=
  let j := (p.die d).hottest
  let p := p.modDie d fun x => { x with
    highest := Nat.max x.highest j
    throttle := decide (95 < j) || (x.throttle && decide (93 ≤ j))
    over105 := decide (105 < j) || (x.over105 && decide (100 ≤ j)) }
  let p := if 90 < j then p.setFlag .dlStatus p.primary 1 else p
  let p := if 95 < j then p.setFlag .pwrStatus p.primary 1 else p
  let p := if (p.die d).throttle then (domainsOf d).foldl (fun p k => p.setVCap k (Nat.max (domLow k) (p.vCapOf k - 4))) p else p
  if 110 ≤ j && 110 ≤ was then p.trip d j else p
/-- Sensors of a die (R475). -/
def sensorCount (d : Nat) : Nat := if dieKind d = 0 then 16 else 4
/-- THERMAL_READING (R475 to R477): every 10 µs the sensors are read, and the actions follow. -/
def execThermalReading (readings : List (DieId × Fin 16 × BitVec 8)) (s : State) : Host.Outcome State Fault Refusal :=
  s.run fun p =>
    if !p.pwr.vauxOk || p.pwr.thermtrip then p else
    let p := p.noteCauses
    let p := if p.throttling then p.addCtr .pwrThrottleNs 0 10000 else p
    let rs := readings.filter fun r => decide (r.2.1.val < sensorCount r.1)
    let p := (rs.map fun r => r.1.val).eraseDups.foldl (fun p d =>
      let was := (p.die d).hottest
      let p := p.modDie d fun x => { x with junction := (rs.filter fun r => r.1.val == d).foldl (fun t r => tabSet 0 t r.2.1.val r.2.2.toNat) x.junction }
      p.thermal d was) p
    p.noteCauses

/-- DOMAIN_FAULT (R471, R478): the die the domain supplies is reset, cause 6. -/
def execDomainFault (d : Fin 96) (s : State) : Host.Outcome State Fault Refusal :=
  s.run fun p =>
    if p.pwr.held then p else
    let p := ({ p with pwr := { p.pwr with domFaultNs := some p.now } }.setFlag .pwrStatus p.primary 4).bump .pwrDomainFault 0
    match dieOfDomain d with
    | some x => p.dieReset x 6 false
    | none => p

/-! ## Headframes (R485 to R488) -/

/-- HEARTBEAT_TIMER (R485): the primary's heartbeat, or one more the standby has missed. -/
def execHeartbeatTimer (s : State) : Host.Outcome State Fault Refusal :=
  s.run fun p =>
    if p.dieUp p.primary then { p with pwr := { p.pwr with missed := 0 } }.emit .heartbeat
    else if p.standby then { p with pwr := { p.pwr with missed := Nat.min 3 (p.pwr.missed + 1) } } else p

end Sys2Proof.Machine
end

