-- ==== Sys2Proof/Machine/Boot.lean ====
section
/-! DEFINITION. Package start, the network boot, and the change of primary headframe (R7, R433 to R437, R468, R469, R479, R485 to R488). -/

namespace Sys2Proof.Machine

/-! ## Boot messages (R433) -/

/-- A boot message of the device: header of Table 16.4 and body. -/
def Pkg.bootMsg (p : Pkg) (ty : Nat) (body : List Byte) : List Byte :=
  toLe 16 (put 0 16 0x4C42 + put 16 8 ty + put 24 8 1 + put 32 64 p.serial + put 96 32 p.eth.xid) ++ body
/-- The link-local group ff02::4c4a. -/
def bootGroup : Nat := put 112 16 0xFF02 + put 0 16 0x4C4A
/-- The 32-byte record of a relayed exchange (R432). -/
def relayRecord (ip port fab : Nat) : List Byte := toBe 16 ip ++ toLe 2 port ++ toLe 3 fab ++ toLe 11 0
/-- Send a packet on a port with a TAG of its own. -/
def Pkg.sendTagged (p : Pkg) (n : Nat) (k : LPkt) : Pkg :=
  { p with nextTag := p.nextTag + 1 }.sendOn n { k with tag := BitVec.ofNat 32 p.nextTag }
/-- A message to the server: a datagram, or through the neighbour that relays (R436). -/
def Pkg.bootSend (p : Pkg) (ty : Nat) (body : List Byte) : Pkg :=
  let m := p.bootMsg ty body
  if p.eth.bootPath = 0 then p.ethSend none (.udp 40312 p.eth.serverIp p.eth.serverPort m)
  else
    let n := match p.bootPortTo p.eth.relayFab with
      | some n => some n
      | none => (List.range 16).find? fun n => (p.port n).bootOpen && (p.port n).carrying
    match n with
    | none => p
    | some n =>
      let k := p.mkPkt p.eth.relayFab 13 0 0 (relayRecord p.eth.serverIp p.eth.serverPort p.eth.relayFab ++ m)
      p.sendTagged n { k with dst := BitVec.ofNat 24 p.eth.relayFab }
/-- The body of ANNOUNCE (Table 16.5). -/
def Pkg.announceBody (p : Pkg) : List Byte :=
  toLe 4 Config.bootRomVersion ++ toLe 1 p.eth.bootPath ++ toLe 1 p.primary ++
    ((List.range 32).map fun d => toLe 1 (fld (p.dieId d) 16 8)).flatten ++ p.identDigest.take 16
/-- Does the boot ROM run, in a given phase? -/
def Pkg.bootIn (p : Pkg) (phase : Nat) : Bool := p.pkgState == 0 && p.dieUp p.primary && p.eth.bootPhase == phase
/-- Does a boot message reach the ROM: on the port, or by relay? -/
def Pkg.bootHears (p : Pkg) : Bool := p.eth.bootPath == 1 || p.ownPort
/-- The boot returns to announcing (R434 order 3). -/
def Pkg.reannounce (p : Pkg) : Pkg :=
  { p with eth := { p.eth with bootPhase := 2, announceS := 1, blocks := [], asked := [], imageLen := 0, bundleLen := 0 } }
/-- REJECT with its reason, and a new cycle (R435). -/
def Pkg.reject (p : Pkg) (reason : Nat) : Pkg := (p.bootSend 6 (toLe 1 reason)).reannounce
/-- Every port that may train does (Table 4.6, R436). -/
def Pkg.trainAll (p : Pkg) : Pkg :=
  (List.range 16).foldl (fun p n =>
    if (p.port n).state == PState.down && !p.portHeld n && !(tabGet false p.lnkLost (n / 4)) then p.portTrain n false else p) p
/-- The boot takes PATH 1 (R434 order 2, R436). -/
def Pkg.bootByRelay (p : Pkg) : Pkg := ({ p with eth := { p.eth with bootPath := 1 } }.reannounce).trainAll
/-- The boot ROM of the primary starts at order 2 (R434): B.H has no port of its own. -/
def Pkg.bootBegin (p : Pkg) : Pkg :=
  let p := { p with eth := { p.eth with bootPath := 0, bootPhase := 1 } }
  if p.pwr.primaryB then p.bootByRelay else if p.eth.up then p.reannounce else p

/-! ## Pins and rails (R468, R469, R509) -/

/-- RESET_N_ASSERT (R469): a pulse below 1 µs is ignored, one of 2 µs resets the package, one between may do either. -/
def execResetNAssert (ns : Nat) (s : State) : Host.Outcome State Fault Refusal :=
  s.run fun p =>
    if !p.pwr.vauxOk || ns < 1000 then p
    else
      let (b, q) := p.take 1
      if 2000 ≤ ns then { p with pwr := { p.pwr with resetLow := true } }.packageReset
      else if b = 1 then { q with pwr := { q.pwr with resetLow := true } }.packageReset
      else q
/-- PWR_GOOD_ASSERT (R468). -/
def execPwrGoodAssert (s : State) : Host.Outcome State Fault Refusal :=
  s.run fun p => if p.pwr.vauxOk then { p with pwr := { p.pwr with pwrGood := true } } else p
/-- PWR_GOOD_DEASSERT (R469, R477, R520): the regulators turn off, every die is held, the latch of THERMTRIP_N clears. -/
def execPwrGoodDeassert (s : State) : Host.Outcome State Fault Refusal :=
  s.run fun p =>
    if !p.pwr.vauxOk then p else
    { p with pwr := { p.pwr with pwrGood := false, thermtrip := false }, tap := { p.tap with inst := 1 } }.packageReset
/-- RAIL_OUT_OF_RANGE (R469): a package reset with its flag; out of VAUX's range the trip record is lost (R477). -/
def execRailOutOfRange (vaux : Bool) (s : State) : Host.Outcome State Fault Refusal :=
  s.run fun p =>
    if !p.pwr.pwrGood then p else
    let p := p.setFlag .pwrStatus p.primary (if vaux then 3 else 2)
    let p := if vaux then { p with pwr := { p.pwr with vauxOut := true, vauxOk := false, trip := 0 } } else { p with pwr := { p.pwr with vinOut := true } }
    p.packageReset
/-- RAIL_BACK_IN_RANGE (R469, R478): the start may begin again. -/
def execRailBackInRange (vaux : Bool) (s : State) : Host.Outcome State Fault Refusal :=
  s.run fun p =>
    if vaux then { p with pwr := { p.pwr with vauxOut := false, vauxOk := true } } else { p with pwr := { p.pwr with vinOut := false } }
/-- VAUX_IN_RANGE (R479 order 2): the always-on domain arms. -/
def execVauxInRange (s : State) : Host.Outcome State Fault Refusal :=
  s.run fun p => if p.pwr.vauxOk then p else { p with pwr := { p.pwr with vauxOk := true, vauxOut := false, thermtrip := false } }
/-- VAUX_REMOVED (R468, R477, R509): at power-down, with PWR_GOOD low. -/
def execVauxRemoved (s : State) : Host.Outcome State Fault Refusal :=
  s.run fun p =>
    if p.pwr.pwrGood then p
    else { p with pwr := { p.pwr with vauxOk := false, trip := 0, thermtrip := false }, tap := {} }

/-! ## Package start (R7, R13, R27, R330, R479) -/

/-- One die's self-test and interconnect test at a start (R211, R328, R330): it is admitted, or stays out. -/
def Pkg.startDie (p : Pkg) (d : Nat) (r : DieReport) : Pkg :=
  let p := p.modDie d fun x => { x with
    stepMajor := r.stepMajor, stepMinor := r.stepMinor, feature := r.feature.toNat, pufOk := r.pufOk, passing := r.passing.toNat, state := 2 }
  let p := if d = 15 then { p with aHStep := some r.stepMajor } else p
  let p := (testedGroups d true).foldl (fun p g =>
    let base := wireBase d g
    let p := (List.range (groupOf d g).2).foldl (fun p i =>
      let fs := match r.failedWires.find? fun x => x.1 == base + i with | some x => x.2.map (·.val) | none => []
      p.modGroup d g fun x => { x with bundles := tabSet {} x.bundles i (({} : Bundle).test fs) }) p
    let n := (p.group d g).inService (groupOf d g).2
    let p := p.modGroup d g fun x => { x with failedF := decide (2 * n < (groupOf d g).2) }
    if n < (groupOf d g).2 then (p.setFlag .fabStatus d 3).raise .fabGroupNarrow d noCtx g n else p) p
  let ok := r.ok && p.dieGroupsOk d && (dieKind d != 0 || decide (24 ≤ popcount 26 r.passing.toNat))
  p.modDie d fun x => { x with admitted := ok, state := if ok then 0 else 3 }
/-- PACKAGE_START (R479): RESET_N is high, the dies are tested, the roles fixed, and the boot begins. A die without a report has
failed its self-test. -/
def execPackageStart (ethRate : Bool) (dies : List (DieId × DieReport)) (s : State) : Host.Outcome State Fault Refusal :=
  s.run fun p =>
    if !(p.pwr.held && p.pwr.pwrGood && p.pwr.vauxOk) || p.pwr.vinOut || p.pwr.vauxOut || p.pwr.thermtrip then p
    else
      let old := p.pkgState
      let p := p.packageReset
      let p := { p with
        pkgState := 0, pwr := { p.pwr with held := false, resetLow := false }, tap := { p.tap with inst := 1 }
        eth := { p.eth with rate800 := ethRate } }
      let p := (List.range 32).foldl (fun p d =>
        match dies.find? fun x => x.1.val == d with
        | some x => p.startDie d x.2
        | none => p.modDie d fun y => { y with state := 3 }) p
      let p := (p.seamFix 0).seamFix 1
      let p := { p with
        pwr := { p.pwr with primaryB := !(p.dieUp 15) }
        ident := { p.ident with keySource := b2n !(p.die 15).pufOk } }
      let p := p.raise .pkgState p.primary noCtx 0 old
      if p.dieUp p.primary then p.bootBegin else p

/-! ## The exchange (R434 to R436) -/

/-- BOOT_PORT_UP_TIMEOUT (R434 order 2). -/
def execBootPortUpTimeout (s : State) : Host.Outcome State Fault Refusal := s.run fun p => if p.bootIn 1 then p.bootByRelay else p
/-- ETH_LINK_CHANGE (R424, R432, R434): the port has the lock of all its lanes, or has lost it; a boot that waits for it goes on. -/
def execEthLinkChange (up : Bool) (s : State) : Host.Outcome State Fault Refusal :=
  s.run fun p =>
    if up && !p.dieUp 15 then p else
    let p := (if up then p.openXing 15 4 else p).ethTo up
    if up && p.bootIn 1 then p.reannounce else p
/-- ANNOUNCE_TIMER (R433, R434 order 3): a new XID, and twice the wait to the next. -/
def execAnnounceTimer (s : State) : Host.Outcome State Fault Refusal :=
  s.run fun p =>
    if !p.bootIn 2 then p else
    let (x, p) := p.take 32
    let p := { p with eth := { p.eth with xid := x, announceS := Nat.min 64 (2 * p.eth.announceS) } }
    let m := p.bootMsg 1 p.announceBody
    if p.eth.bootPath = 0 then p.ethSend none (.udp 40312 bootGroup 40312 m)
    else (List.range 16).foldl (fun p n =>
      let q := p.port n
      if !(q.bootOpen && q.carrying) then p else
      let dest := match q.lastHello with | some h => h.addr.toNat | none => 0
      p.sendTagged n { p.mkPkt dest 13 0 0 (toLe 32 0 ++ m) with dst := BitVec.ofNat 24 dest }) p

/-- Blocks of the image and the bundle (R433). -/
def Eth.total (e : Eth) : Nat := ceilDiv (e.imageLen + e.bundleLen) 8192
/-- Bytes of one block. -/
def Eth.blockLen (e : Eth) (n : Nat) : Nat := Nat.min 8192 (e.imageLen + e.bundleLen - 8192 * n)
/-- Are the lengths of an OFFER out of range (R433, R480)? -/
def offerBad (image bundle : Nat) : Bool := decide (image < 0x10000) || decide (0x10000000 < image) || decide (4194304 < bundle)
/-- BOOT_OFFER (R433 to R435): the first that carries the serial and the XID is taken. -/
def execBootOffer (serial : W64) (xid : BitVec 32) (server : BitVec 128) (port : BitVec 16) (imageLen : BitVec 32) (ip6 : Option (BitVec 128))
    (ip4 : Option (BitVec 32 × BitVec 6)) (bundleLen : BitVec 32) (s : State) : Host.Outcome State Fault Refusal :=
  s.run fun p =>
    if !(p.bootIn 2 && p.bootHears) || p.eth.announceS = 1 || serial.toNat != p.serial || xid.toNat != p.eth.xid then p
    else
      let p := { p with eth := { p.eth with serverIp := server.toNat, serverPort := port.toNat } }
      if offerBad imageLen.toNat bundleLen.toNat then p.reject 1
      else
        let e := { p.eth with
          bootPhase := 3, imageLen := imageLen.toNat, bundleLen := bundleLen.toNat
          ip6 := match ip6 with | some a => a.toNat | none => 0
          ip4 := match ip4 with | some a => a.1.toNat | none => 0
          ip4Len := match ip4 with | some a => a.2.toNat | none => 0 }
        let n := Nat.min 64 e.total
        { p with eth := { e with asked := List.range n } }.bootSend 3 (toLe 4 0 ++ toLe 4 n)
/-- BOOT_DATA (R433 to R435): a requested block is stored, and the next one requested; all of them await verification. -/
def execBootData (serial : W64) (xid : BitVec 32) (block : BitVec 32) (data : List Byte) (s : State) : Host.Outcome State Fault Refusal :=
  s.run fun p =>
    let b := block.toNat
    if !(p.bootIn 3 && p.bootHears) || serial.toNat != p.serial || xid.toNat != p.eth.xid || !p.eth.asked.contains b || data.length != p.eth.blockLen b then p
    else
      let next := p.eth.blocks.length + p.eth.asked.length
      let more := decide (next < p.eth.total)
      let asked := p.eth.asked.erase b
      let p := { p with eth := { p.eth with blocks := tabSet [] p.eth.blocks b data, asked := if more then asked ++ [next] else asked } }
      if more then p.bootSend 3 (toLe 4 next ++ toLe 4 1)
      else if p.eth.asked.isEmpty then { p with eth := { p.eth with bootPhase := 4 } } else p
/-- BOOT_BLOCK_TIMEOUT (R434 order 5). -/
def execBootBlockTimeout (block : BitVec 32) (s : State) : Host.Outcome State Fault Refusal :=
  s.run fun p => if p.bootIn 3 && p.eth.asked.contains block.toNat then p.bootSend 3 (toLe 4 block.toNat ++ toLe 4 1) else p
/-- BOOT_TRANSFER_TIMEOUT (R435): REJECT with reason 2. -/
def execBootTransferTimeout (s : State) : Host.Outcome State Fault Refusal :=
  s.run fun p => if p.bootIn 3 && !p.eth.asked.isEmpty then p.reject 2 else p

/-- The package is ready (R479 orders 14 and 15): FIRMWARE_READY, DONE, and under PATH 0 the ports train. -/
def Pkg.bootDone (p : Pkg) : Pkg :=
  let p := (p.pkgTo 1).bootSend 5 (toLe 1 0)
  let p := { p with eth := { p.eth with bootPhase := 0, blocks := [], asked := [], pairingFail := false } }
  if p.eth.bootPath = 0 then p.trainAll else p
/-- BOOT_VERIFY_DONE (R434 order 6, R435, R479 orders 9 to 12): REJECT with its reason, or firmware starts; with a standby the package
is ready once that is synchronised. -/
def execBootVerifyDone (stackTab : List (StackId × StackReport)) (s : State) : Host.Outcome State Fault Refusal :=
  s.run fun p =>
    if !p.bootIn 4 then p else
    let all := (p.eth.blocks.map fun e => e.2).flatten
    let image := all.take p.eth.imageLen
    let bundle := all.drop p.eth.imageLen
    if !p.bundleOk bundle then p.reject 2
    else if imageReject image p.eth.imageLen != 0 then p.reject (imageReject image p.eth.imageLen)
    else match p.pairing (imPairs image) with
      | none => { p with eth := { p.eth with pairingFail := true } }.reject 4
      | some n =>
        let p := p.firmwareStart image bundle n stackTab
        let p := { p with eth := { p.eth with blocks := [], bootPhase := 5 } }
        if p.standby then p else p.bootDone
/-- STANDBY_SYNC_DONE (R479 order 13, R485): the standby's copy ends. -/
def execStandbySyncDone (s : State) : Host.Outcome State Fault Refusal :=
  s.run fun p =>
    if !(p.answers || p.bootIn 5) then p else
    let p := { p with pwr := { p.pwr with synced := p.standby } }
    if p.bootIn 5 then p.bootDone else p

/-! ## Takeover (R486, R487) -/

/-- The new primary takes over (R486 orders 3 to 5); it makes its own per-boot key, or begins the boot again. -/
def Pkg.takeOver (p : Pkg) (old : Nat) (synced : Bool) : Pkg :=
  let p := { p with pwr := { p.pwr with primaryB := !p.pwr.primaryB, missed := 0, synced := false } }
  let p := ((p.raise .hfTakeover p.primary noCtx old 0).bump .hfTakeover 0).setFlag .pwrStatus p.primary 5
  if p.pkgState = 0 then p.bootBegin
  else if synced then p.newKey
  else ((p.newKey.killAll).refreshAll 5).pkgTo 5
/-- TAKEOVER (R437, R486, R487): after three missed heartbeats, or a reset of the primary, the standby fences it and takes its place. -/
def execTakeover (s : State) : Host.Outcome State Fault Refusal :=
  s.run fun p => if p.standby && decide (3 ≤ p.pwr.missed) then ((p.dieReset p.primary 5 false).excuseAll).takeOver p.primary p.pwr.synced else p

end Sys2Proof.Machine
end

