-- ==== Sys2Proof/Machine/Firmware.lean ====
section
/-! DEFINITION. FW_LOAD, ATTEST and the per-boot key (R451, R453, R499 to R503). -/

namespace Sys2Proof.Machine

/-! ## Attestation (R499 to R502) -/

/-- The key record (Table 19.3). -/
def Pkg.keyRecord (p : Pkg) : List Byte :=
  toLe 16 (put 0 32 0x4B425056 + put 32 16 p.ident.gen + put 64 64 p.serial) ++ toBe 56 (Config.lmsRoot p.ident.pbkSeed) ++ toLe 56 0
/-- The report body (Table 19.5). -/
def Pkg.reportBody (p : Pkg) (nonce : List Byte) : List Byte :=
  let i := p.ident
  toLe 16 (put 0 32 0x54544156 + put 32 16 1 + put 48 1 i.keySource + put 49 2 i.certStatus + put 51 1 p.eth.bootPath + put 52 1 (b2n p.pwr.primaryB)
      + put 56 8 (p.die p.primary).pkgFeature + put 64 64 p.serial)
    ++ nonce ++ toLe 8 (p.icount p.primary)
    ++ toLe 24 (put 0 32 i.fwVersion + put 32 32 i.svn + put 64 32 Config.bootRomVersion + put 96 8 i.ecdsaSlot + put 104 8 i.lmsSlot + put 112 16 i.gen
      + put 128 32 i.fwStarts)
    ++ toBe 48 i.digest ++ toBe 48 i.keyDigest ++ toBe 48 i.certDigest
    ++ ((List.range 32).map fun d => toLe 1 (fld (p.dieId d) 16 8)).flatten ++ toLe 256 0
/-- The report of 2,444 bytes (Table 19.4), signed with the next leaf; after the last leaf a new key is made (R499). -/
def Pkg.signReport (p : Pkg) (nonce : List Byte) : List Byte × Pkg :=
  let record := p.keyRecord
  let m := p.reportBody nonce ++ record ++ toBe 96 (Config.ecdsaSign p.identKey (Config.sha384 record))
  let rep := m ++ toBe 96 (Config.ecdsaSign p.identKey (Config.sha384 m)) ++ toBe 1612 (Config.lmsSign p.ident.pbkSeed p.ident.leaves m)
  let p := { p with ident := { p.ident with leaves := p.ident.leaves + 1 } }.bump .idAttest 0
  (rep, if p.ident.leaves < 32768 then p else p.newKey)
/-- Sign waiting ATTEST commands in decision order while a key is ready (R502, R503). -/
def Pkg.signWaiting (p : Pkg) : Nat → Pkg
  | 0 => p
  | fuel + 1 =>
    match p.ident.attests with
    | [] => p
    | (tk, nonce) :: rest =>
      if !p.ident.pbkReady then p
      else
        let r := { p with ident := { p.ident with attests := rest } }.signReport nonce
        (r.2.replyWaiting (some tk) 0 (tlv 0x81 r.1)).signWaiting fuel
/-- A per-boot key is ready (R499): its seed comes from the headframe's random-bit generator. -/
def Pkg.keyReady (p : Pkg) : Pkg :=
  let (seed, p) := p.take 384
  { p with ident := { p.ident with pbkSeed := seed, pbkReady := true, leaves := 0 } }.bump .idPbkGen 0

/-- ATTEST (R502): the report, at once or when a per-boot key is ready. -/
def execAttest (k : Pkt) (s : State) : Host.Outcome State Fault Refusal :=
  s.run fun p => p.luajo { code := 0xC1, req := [0x12], legal := 0 } k anyTlv noFmt fun p c =>
    if p.ident.pbkReady && p.ident.attests.isEmpty then
      let r := p.signReport (c.bytes 0x12)
      .ok r.2 (tlv 0x81 r.1)
    else .wait { p with ident := { p.ident with attests := p.ident.attests ++ [((c.place, c.w.seq), c.bytes 0x12)] } }
/-- PER_BOOT_KEY_READY (R499, R502). -/
def execPerBootKeyReady (s : State) : Host.Outcome State Fault Refusal :=
  s.run fun p => if p.answers && !p.ident.pbkReady then (p.keyReady).signWaiting p.ident.attests.length else p

/-! ## FW_LOAD (R451, R453, R497) -/

/-- FW_LOAD (R453): the image of a device region, kept for verification. -/
def execFwLoad (k : Pkt) (s : State) : Host.Outcome State Fault Refusal :=
  s.run fun p => p.luajo { code := 0xC0, req := [2], legal := 3 } k anyTlv noFmt fun p c =>
    .wait { p with ident := { p.ident with loading := some (c.body, (c.place, c.w.seq)) } }

/-- A port forgets its plan (R451): its peer is checked against the next one. -/
def Pkg.unplan (p : Pkg) (n : Nat) : Pkg :=
  let p := p.modPort n fun q => { q with
    planned := none, plannedAfter := none, stopOnFault := false, acceptSwap := false, v8 := false, minVersion := 0, bootServe := false, logical := n }
  let q := p.port n
  if q.state == .active || q.state == .narrow || q.state == .hello || q.state == .quarantine then (p.portHello n).linkLoss n false else p
/-- The restart from a new image (R445, R451): sessions close and all command state is discarded. -/
def Pkg.restart (p : Pkg) : Pkg :=
  let p := { p with
    sessions := [], undecided := 0, fabAddr := 0, epoch := 0, planHash := 0, topoSet := false, degraded := false, respLimit := 1000, routes := []
    transitQ := [], reqs := [], regions := [], ctxs := [], slots := [], dl := [], dlRecs := [], syncs := [], waiters := [], sumps := [], secure := {}
    thrs := [], swapHold := 100
    eth := { p.eth with qps := [], keys := [] }
    pwr := { p.pwr with capW := 6200, ceiling := [], floor := [], synced := false }
    ident := { p.ident with loading := none, attests := [] } }
  let p := (List.range 16).foldl (fun p n => p.modStack n fun k => { k with part := [] }) p
  (List.range 16).foldl Pkg.unplan p
/-- The restart with the pairing check of the new image (R15, R497): FIRMWARE_READY, or BOOTSTRAP and announcing. -/
def Pkg.fwReload (p : Pkg) (image : List Byte) : Pkg :=
  let p := p.restart
  match p.pairing (imPairs image) with
  | some n => ((p.keepImage image n).startKey).pkgTo 1
  | none => { p with eth := { p.eth with pairingFail := true } }.reannounce.pkgTo 0
/-- FW_LOAD_VERIFY_DONE (R497, R503): ST_FW_SIGNATURE, or the waiting reports and the reply go out and both headframes restart. -/
def execFwLoadVerifyDone (s : State) : Host.Outcome State Fault Refusal :=
  s.run fun p =>
    match p.ident.loading with
    | none => p
    | some (image, tk) =>
      let q := { p with ident := { p.ident with loading := none } }
      if imageReject image image.length != 0 then (q.bump .idFwReject 0).replyWaiting (some tk) stFwSignature []
      else
        let q := if q.ident.attests.isEmpty || q.ident.pbkReady then q else q.keyReady
        let q := q.signWaiting q.ident.attests.length
        (q.replyWaiting (some tk) 0 []).fwReload image

end Sys2Proof.Machine
end

