-- ==== Sys2Proof/Machine/Catalogue.lean ====
section
/-! DEFINITION. The catalogue of counters and events (R461, R340): names, source blocks, instance kinds and counts. The
manual numbers neither, so their order within a block is open. -/

namespace Sys2Proof.Machine

/-- A catalogue entry (R461): name, source block, instance kind, instances, key of the first instance's value. -/
structure CatEnt where
  name : String
  block : Nat
  kind : Nat
  count : Nat
  base : Option Nat

/-- Counters, part 0. -/
def ctrRows0 : List CatEnt := [
  ⟨"CNT_CH_CLOSED_DROP", 5, 2, 384, some (ctrKey .chClosedDrop 0)⟩
  , ⟨"CNT_CH_REFUSED", 5, 2, 384, some (ctrKey .chRefused 0)⟩
  , ⟨"CNT_CH_RING_WORDS", 5, 2, 384, some (ctrKey .chRingWords 0)⟩
  , ⟨"CNT_CH_STALE_DROP", 5, 2, 384, some (ctrKey .chStaleDrop 0)⟩
  , ⟨"CNT_CH_STALL", 5, 2, 384, some (ctrKey .chStall 0)⟩
  , ⟨"CNT_CORE_FAULT", 5, 2, 384, some (ctrKey .coreFault 0)⟩
  , ⟨"CNT_CORE_ICACHE_MISS", 5, 2, 384, some (ctrKey .coreIcacheMiss 0)⟩
  , ⟨"CNT_CORE_ISSUED", 5, 2, 384, some (ctrKey .coreIssued 0)⟩
  , ⟨"CNT_CORE_SP_CORR", 5, 2, 384, some (ctrKey .coreSpCorr 0)⟩
  , ⟨"CNT_CORE_SWITCH", 5, 2, 384, some (ctrKey .coreSwitch 0)⟩
  , ⟨"CNT_CTX_FREEZE_KILL", 1, 5, 256, some (ctrKey .ctxFreezeKill 0)⟩
  , ⟨"CNT_CTX_PREEMPT", 1, 5, 256, some (ctrKey .ctxPreempt 0)⟩
  , ⟨"CNT_CTX_SWAP_IN", 1, 5, 256, some (ctrKey .ctxSwapIn 0)⟩
  , ⟨"CNT_CTX_SWAP_OUT", 1, 5, 256, some (ctrKey .ctxSwapOut 0)⟩
  , ⟨"CNT_DL_BREACH", 1, 4, 64, some (ctrKey .dlBreach 0)⟩
  , ⟨"CNT_DL_CAUSE_NONE", 1, 0, 1, some (ctrKey .dlCauseNone 0)⟩
  , ⟨"CNT_DL_EXCUSED", 1, 4, 64, some (ctrKey .dlExcused 0)⟩
  , ⟨"CNT_DL_MET", 1, 4, 64, some (ctrKey .dlMet 0)⟩
  , ⟨"CNT_DL_PROGRAM", 1, 4, 64, some (ctrKey .dlProgram 0)⟩
  , ⟨"CNT_DL_RECORD_LOST", 1, 0, 1, some (ctrKey .dlRecordLost 0)⟩
  , ⟨"CNT_ENG_BUSY_STEPS", 5, 2, 384, some (ctrKey .engBusySteps 0)⟩
  , ⟨"CNT_ENG_EXP_LIMIT", 5, 2, 384, some (ctrKey .engExpLimit 0)⟩
  , ⟨"CNT_ENG_REPEAT", 5, 2, 384, some (ctrKey .engRepeat 0)⟩
  , ⟨"CNT_ENG_REVOKE", 5, 2, 384, some (ctrKey .engRevoke 0)⟩
  , ⟨"CNT_ENG_SAT_CELLS", 5, 2, 384, some (ctrKey .engSatCells 0)⟩
  , ⟨"CNT_ENG_SWAP_WAIT_STEPS", 5, 2, 384, some (ctrKey .engSwapWaitSteps 0)⟩
  , ⟨"CNT_ENG_TSEQ", 5, 2, 384, some (ctrKey .engTseq 0)⟩
  , ⟨"CNT_ETH_FRAG_DROP", 7, 0, 1, some (ctrKey .ethFragDrop 0)⟩
  , ⟨"CNT_ETH_PORT_DROP", 7, 0, 1, some (ctrKey .ethPortDrop 0)⟩
  , ⟨"CNT_ETH_RELAY_DENIED", 7, 0, 1, some (ctrKey .ethRelayDenied 0)⟩
  , ⟨"CNT_ETH_RELAY_LOST", 7, 0, 1, some (ctrKey .ethRelayLost 0)⟩
  , ⟨"CNT_ETH_RX_DROP", 7, 0, 1, none⟩
  , ⟨"CNT_ETH_PFC", 7, 0, 8, some (ctrKey .ethPfc 0)⟩
  , ⟨"CNT_ETH_CNP", 7, 0, 8, some (ctrKey .ethCnp 0)⟩
  , ⟨"CNT_EV_LOST", 1, 0, 1, some (ctrKey .evLost 0)⟩
  , ⟨"CNT_FAB_CORR", 6, 10, 1088, some (ctrKey .fabCorr 0)⟩
  , ⟨"CNT_FAB_RESEND", 6, 10, 1088, some (ctrKey .fabResend 0)⟩
  , ⟨"CNT_FAB_RETEST", 6, 1, 32, some (ctrKey .fabRetest 0)⟩
  , ⟨"CNT_FAB_REVOKE", 6, 12, Config.arbiterCount % 65536, some (ctrKey .fabRevoke 0)⟩
  , ⟨"CNT_FAB_REWIND", 6, 10, 1088, some (ctrKey .fabRewind 0)⟩]

/-- Counters, part 1. -/
def ctrRows1 : List CatEnt := [
  ⟨"CNT_FAB_UNCORR", 6, 10, 1088, some (ctrKey .fabUncorr 0)⟩
  , ⟨"CNT_FAB_XING_RESAMPLE", 6, 1, 32, some (ctrKey .fabXingResample 0)⟩
  , ⟨"CNT_FMT_TERN_INVALID", 1, 5, 256, some (ctrKey .fmtTernInvalid 0)⟩
  , ⟨"CNT_HF_TAKEOVER", 1, 0, 1, some (ctrKey .hfTakeover 0)⟩
  , ⟨"CNT_ID_ATTEST", 1, 0, 1, some (ctrKey .idAttest 0)⟩
  , ⟨"CNT_ID_FW_REJECT", 1, 0, 1, some (ctrKey .idFwReject 0)⟩
  , ⟨"CNT_ID_PBK_GEN", 1, 0, 1, some (ctrKey .idPbkGen 0)⟩
  , ⟨"CNT_LD_CRC_ERR", 3, 3, 16, some (ctrKey .ldCrcErr 0)⟩
  , ⟨"CNT_LD_EPOCH_DROP", 3, 3, 16, some (ctrKey .ldEpochDrop 0)⟩
  , ⟨"CNT_LD_FEC_CORR", 3, 3, 16, some (ctrKey .ldFecCorr 0)⟩
  , ⟨"CNT_LD_FEC_UNCORR", 3, 3, 16, some (ctrKey .ldFecUncorr 0)⟩
  , ⟨"CNT_LD_HOPS_DROP", 3, 3, 16, some (ctrKey .ldHopsDrop 0)⟩
  , ⟨"CNT_LD_LATE_RESP", 3, 3, 16, some (ctrKey .ldLateResp 0)⟩
  , ⟨"CNT_LD_PATH_LOST", 3, 3, 16, some (ctrKey .ldPathLost 0)⟩
  , ⟨"CNT_LD_REISSUE", 3, 3, 16, some (ctrKey .ldReissue 0)⟩
  , ⟨"CNT_LD_REPLAY", 3, 3, 16, some (ctrKey .ldReplay 0)⟩
  , ⟨"CNT_LD_RETRAIN", 3, 3, 16, some (ctrKey .ldRetrain 0)⟩
  , ⟨"CNT_LJ_AUTH_FAIL", 1, 0, 1, some (ctrKey .ljAuthFail 0)⟩
  , ⟨"CNT_LJ_BUSY", 1, 0, 1, some (ctrKey .ljBusy 0)⟩
  , ⟨"CNT_LJ_COMMANDS", 1, 0, 256, some (ctrKey .ljCommands 0)⟩
  , ⟨"CNT_LJ_DROP_HEADER", 1, 0, 1, some (ctrKey .ljDropHeader 0)⟩
  , ⟨"CNT_LJ_REPEAT", 1, 0, 1, some (ctrKey .ljRepeat 0)⟩
  , ⟨"CNT_LJ_REPEAT_PENDING", 1, 0, 1, some (ctrKey .ljRepeatPending 0)⟩
  , ⟨"CNT_LJ_SEQ_STALE", 1, 0, 1, some (ctrKey .ljSeqStale 0)⟩
  , ⟨"CNT_MD_CACHE_HIT", 4, 8, 256, some (ctrKey .mdCacheHit 0)⟩
  , ⟨"CNT_MD_CACHE_MISS", 4, 8, 256, some (ctrKey .mdCacheMiss 0)⟩
  , ⟨"CNT_MD_CE", 4, 7, 256, some (ctrKey .mdCe 0)⟩
  , ⟨"CNT_MD_HOTSPOT", 4, 6, 16, some (ctrKey .mdHotspot 0)⟩
  , ⟨"CNT_MD_KEEP_DENIED", 4, 8, 256, some (ctrKey .mdKeepDenied 0)⟩
  , ⟨"CNT_MD_MISCORRECT", 4, 7, 256, some (ctrKey .mdMiscorrect 0)⟩
  , ⟨"CNT_MD_PIN_CE", 4, 11, 18432, some (ctrKey .mdPinCe 0)⟩
  , ⟨"CNT_MD_REMOTE_RETRY", 2, 1, 32, some (ctrKey .mdRemoteRetry 0)⟩
  , ⟨"CNT_MD_REPAIRS", 4, 6, 16, some (ctrKey .mdRepairs 0)⟩
  , ⟨"CNT_MD_SCRUB_LINES", 4, 6, 16, some (ctrKey .mdScrubLines 0)⟩
  , ⟨"CNT_MD_TAG_ERR", 4, 7, 256, some (ctrKey .mdTagErr 0)⟩
  , ⟨"CNT_MD_THROTTLE_NS", 4, 6, 16, some (ctrKey .mdThrottleNs 0)⟩
  , ⟨"CNT_MD_UE", 4, 7, 256, some (ctrKey .mdUe 0)⟩
  , ⟨"CNT_PWR_CAP_NS", 1, 0, 1, some (ctrKey .pwrCapNs 0)⟩
  , ⟨"CNT_PWR_DOMAIN_FAULT", 1, 0, 1, some (ctrKey .pwrDomainFault 0)⟩
  , ⟨"CNT_PWR_THROTTLE_NS", 1, 0, 1, some (ctrKey .pwrThrottleNs 0)⟩]

/-- Counters, part 2. -/
def ctrRows2 : List CatEnt := [
  ⟨"CNT_QD_BAD_HEAD", 2, 4, 16, some (ctrKey .qdBadHead 0)⟩
  , ⟨"CNT_QD_CREDIT_VIOL", 2, 4, 16, some (ctrKey .qdCreditViol 0)⟩
  , ⟨"CNT_QD_EFFECT_GAP", 2, 4, 16, some (ctrKey .qdEffectGap 0)⟩
  , ⟨"CNT_QD_EFFECT_PUBLISH", 2, 4, 16, some (ctrKey .qdEffectPublish 0)⟩
  , ⟨"CNT_QD_EFFECT_SUPPRESS", 2, 4, 16, some (ctrKey .qdEffectSuppress 0)⟩
  , ⟨"CNT_QD_RECOMPUTE_MB", 2, 4, 16, some (ctrKey .qdRecomputeMb 0)⟩
  , ⟨"CNT_QD_SENDER_DROP", 2, 4, 16, some (ctrKey .qdSenderDrop 0)⟩
  , ⟨"CNT_QD_SPILL_PAGES", 2, 4, 16, some (ctrKey .qdSpillPages 0)⟩
  , ⟨"CNT_QD_STALE_DROP", 2, 4, 16, some (ctrKey .qdStaleDrop 0)⟩
  , ⟨"CNT_QD_STASH_HOLD_NS", 2, 4, 16, some (ctrKey .qdStashHoldNs 0)⟩
  , ⟨"CNT_SEC_ABANDONED", 1, 0, 1, some (ctrKey .secAbandoned 0)⟩
  , ⟨"CNT_SEC_CAPTURES", 1, 0, 1, some (ctrKey .secCaptures 0)⟩
  , ⟨"CNT_SEC_JOURNAL_PAGES", 1, 0, 1, some (ctrKey .secJournalPages 0)⟩
  , ⟨"CNT_SEC_PARITY_BYTES", 1, 0, 1, some (ctrKey .secParityBytes 0)⟩
  , ⟨"CNT_SEC_RESTORES", 1, 0, 1, some (ctrKey .secRestores 0)⟩
  , ⟨"CNT_SEC_STALE_PART", 1, 0, 1, some (ctrKey .secStalePart 0)⟩
  , ⟨"CNT_SERVE_JOINED", 1, 5, 256, some (ctrKey .serveJoined 0)⟩
  , ⟨"CNT_SERVE_LEFT", 1, 5, 256, some (ctrKey .serveLeft 0)⟩
  , ⟨"CNT_SERVE_PARKED", 1, 5, 256, some (ctrKey .serveParked 0)⟩
  , ⟨"CNT_STEP_ABORTED", 1, 5, 256, some (ctrKey .stepAborted 0)⟩
  , ⟨"CNT_STEP_COMMITTED", 1, 5, 256, some (ctrKey .stepCommitted 0)⟩
  , ⟨"CNT_STEP_FORCED", 1, 5, 256, some (ctrKey .stepForced 0)⟩
  , ⟨"CNT_STEP_NONFINITE", 1, 5, 256, some (ctrKey .stepNonfinite 0)⟩
  , ⟨"CNT_STEP_VOTE_TIMEOUT", 1, 5, 256, some (ctrKey .stepVoteTimeout 0)⟩
  , ⟨"CNT_SUMP_ELEMS", 2, 9, 32, some (ctrKey .sumpElems 0)⟩
  , ⟨"CNT_SUMP_MISMATCH", 2, 9, 32, some (ctrKey .sumpMismatch 0)⟩
  , ⟨"CNT_SUMP_RANGE", 2, 9, 32, some (ctrKey .sumpRange 0)⟩
  , ⟨"CNT_SUMP_REFUSED", 2, 9, 32, some (ctrKey .sumpRefused 0)⟩
  , ⟨"CNT_SUMP_SAT", 2, 9, 32, some (ctrKey .sumpSat 0)⟩
  , ⟨"CNT_SUMP_STALE", 2, 9, 32, some (ctrKey .sumpStale 0)⟩
  , ⟨"CNT_SYNC_DENIED", 2, 1, 32, some (ctrKey .syncDenied 0)⟩
  , ⟨"CNT_SYNC_OPS", 2, 1, 32, some (ctrKey .syncOps 0)⟩
  , ⟨"CNT_SYNC_RETRY", 2, 1, 32, some (ctrKey .syncRetry 0)⟩
  , ⟨"CNT_VEC_BUSY_STEPS", 5, 2, 384, some (ctrKey .vecBusySteps 0)⟩
  , ⟨"CNT_VEC_ELEMENTS", 5, 2, 384, some (ctrKey .vecElements 0)⟩
  , ⟨"CNT_VEC_INF_OUT", 5, 2, 384, some (ctrKey .vecInfOut 0)⟩
  , ⟨"CNT_VEC_INVALID", 5, 2, 384, some (ctrKey .vecInvalid 0)⟩
  , ⟨"CNT_VEC_NAN_OUT", 5, 2, 384, some (ctrKey .vecNanOut 0)⟩
  , ⟨"CNT_VEC_OVERFLOW", 5, 2, 384, some (ctrKey .vecOverflow 0)⟩
  , ⟨"CNT_VEC_REVOKE", 5, 2, 384, some (ctrKey .vecRevoke 0)⟩]

/-- Counters, part 3. -/
def ctrRows3 : List CatEnt := [
  ⟨"CNT_VEC_SAT", 5, 2, 384, some (ctrKey .vecSat 0)⟩
  , ⟨"CNT_DL_CAUSE_OVERRUN", 1, 0, 1, some (ctrKey .dlCause 1)⟩
  , ⟨"CNT_DL_CAUSE_STASH", 1, 0, 1, some (ctrKey .dlCause 2)⟩
  , ⟨"CNT_DL_CAUSE_HOTSPOT", 1, 0, 1, some (ctrKey .dlCause 3)⟩
  , ⟨"CNT_DL_CAUSE_THERMAL", 1, 0, 1, some (ctrKey .dlCause 16)⟩
  , ⟨"CNT_DL_CAUSE_CAP", 1, 0, 1, some (ctrKey .dlCause 17)⟩
  , ⟨"CNT_DL_CAUSE_CE_STORM", 1, 0, 1, some (ctrKey .dlCause 18)⟩
  , ⟨"CNT_DL_CAUSE_PREEMPT", 1, 0, 1, some (ctrKey .dlCause 19)⟩
  , ⟨"CNT_DL_CAUSE_DIE_RESET", 1, 0, 1, some (ctrKey .dlCause 20)⟩
  , ⟨"CNT_DL_CAUSE_LINK", 1, 0, 1, some (ctrKey .dlCause 21)⟩]

/-- Counts of each priority that the manual names no counter for (R439): frames and FEC, which the model does not follow. -/
def ctrRowsEth : List CatEnt := [⟨"CNT_ETH_FRAME", 7, 0, 8, none⟩, ⟨"CNT_ETH_FEC", 7, 0, 8, none⟩]

/-- Fields of a W1C register, bit 0 first, with the register's name, source block, instance kind and count. -/
def flagRows : List (FlagReg × String × Nat × Nat × Nat × List String) := [
  (.dlStatus, "HF_DL_STATUS", 1, 1, 32, ["CAP_SHORT", "THERM_90", "STORM"])
  , (.portStatus, "LD_PORT_STATUS", 3, 3, 16, ["REPLAYED", "RETRAINED", "NARROWED", "QUARANTINED", "REMAPPED", "PATH_LOST", "STOPPED", "LONG_RTT"])
  , (.engStatus, "CORE_ENG_STATUS", 5, 2, 384, ["ACC_SAT", "REPEATED", "NONFINITE", "REVOKED", "EXP_LIMIT", "DRAIN_ABANDONED"])
  , (.vecStatus, "CORE_VEC_STATUS", 5, 2, 384, ["NONFINITE", "INVALID", "OVERFLOW", "SATURATE", "REVOKED"])
  , (.coreStatus, "CORE_STATUS", 5, 2, 384, ["THREAD_FAULT", "SP_CORR", "SP_UNCORR"])
  , (.slotStatus, "QD_SLOT_STATUS", 2, 4, 16, ["STASH_SPILL", "STASH_RECOMPUTE", "STASH_HOLD", "CREDIT_VIOL", "STALE_DROP", "BAD_HEAD"])
  , (.sumpStatus, "QD_SUMP_STATUS", 2, 1, 32, ["MISMATCH", "REFUSED", "RANGE", "SAT", "SYNC_DENIED"])
  , (.mdStatus, "MD_STATUS", 4, 1, 32, ["CE_STORM", "UE", "MISCORRECT", "TAG_ERR", "HOTSPOT", "THROTTLED", "REPAIR_FULL", "POISON_CONSUMED"])
  , (.fabStatus, "FAB_STATUS", 6, 1, 32, ["CORR", "REWIND", "RETEST", "GROUP_NARROW", "CE_STORM", "PEER_RESET"])
  , (.schedStatus, "HF_SCHED_STATUS", 1, 1, 32, ["SWAPPED_OUT", "BE_LC_WAIT", "FREEZE_KILL", "PARKED"])
  , (.secStatus, "HF_SEC_STATUS", 1, 1, 32, ["CAPTURED", "ABANDONED", "OVERFLOW", "RESTORED", "REWOUND", "EXHAUSTED"])
  , (.ethStatus, "HF_ETH_STATUS", 7, 1, 32, ["LINK_CHANGE", "FEC_UNCORR", "RX_DROP", "RELAY_LOST", "QP_ERROR"])
  , (.ljStatus, "HF_LJ_STATUS", 1, 1, 32, ["AUTH_FAIL", "SEQ_STALE", "BUSY", "EV_LOST", "NOT_PERMITTED"])
  , (.pwrStatus, "HF_PWR_STATUS", 1, 1, 32, ["CAP_EXCEEDED", "JUNCTION_95", "VIN_RANGE", "VAUX_RANGE", "DOMAIN_FAULT", "TAKEOVER", "HANDBACK_ENTRY_BAD"])]
/-- Companion counters of the flags (R340), under register and field names. -/
def companionRows : List CatEnt :=
  (flagRows.map fun r => r.2.2.2.2.2.zipIdx.map fun f =>
    (⟨r.2.1 ++ "." ++ f.1, r.2.2.1, r.2.2.2.1, r.2.2.2.2.1, some (companionKey r.1 0 f.2)⟩ : CatEnt)).flatten

/-- Insert at a place of a list. -/
def insertAt {α : Type} (n : Nat) (a : α) (l : List α) : List α := l.take n ++ a :: l.drop n
/-- A list in the order the device gives it: every order is possible, the configuration fixes one. -/
def ordered {α : Type} (key : Nat) (l : List α) : List α :=
  l.foldl (fun acc x => insertAt (Config.catalogueOrder key acc.length % (acc.length + 1)) x acc) []
/-- Number the entries of blocks 1 to 7 (R461): source block in bits [15:8]. -/
def numbered {α : Type} (key : Nat) (block : α → Nat) (l : List α) : List (Nat × α) :=
  ((List.range 8).map fun b => (ordered (8 * key + b) (l.filter fun e => block e == b)).zipIdx.map fun x => (256 * b + x.2, x.1)).flatten

/-- The counter catalogue: IDs and entries. -/
def ctrCatalogue : List (Nat × CatEnt) := numbered 0 CatEnt.block (ctrRows0 ++ ctrRows1 ++ ctrRows2 ++ ctrRows3 ++ ctrRowsEth ++ companionRows)

/-- Names and source blocks of the events. -/
def evRows : List (Ev × String × Nat) := [
  (.cdCoreMap, "EV_CD_CORE_MAP", 5), (.chRingFull, "EV_CH_RING_FULL", 5), (.chStall, "EV_CH_STALL", 5), (.coreFault, "EV_CORE_FAULT", 5)
  , (.coreRetired, "EV_CORE_RETIRED", 5), (.ctxState, "EV_CTX_STATE", 1), (.ctxSwap, "EV_CTX_SWAP", 1), (.deadlineBreach, "EV_DEADLINE_BREACH", 1)
  , (.deadlineLate, "EV_DEADLINE_LATE", 2), (.deadlineMiss, "EV_DEADLINE_MISS", 1), (.ethLink, "EV_ETH_LINK", 7), (.fabBundleMap, "EV_FAB_BUNDLE_MAP", 6)
  , (.fabCeStorm, "EV_FAB_CE_STORM", 6), (.fabDieRejoin, "EV_FAB_DIE_REJOIN", 6), (.fabDieReset, "EV_FAB_DIE_RESET", 6), (.fabGroupNarrow, "EV_FAB_GROUP_NARROW", 6)
  , (.fabPairing, "EV_FAB_PAIRING", 6), (.fabRefclkLoss, "EV_FAB_REFCLK_LOSS", 6), (.hbChanged, "EV_HB_CHANGED", 1), (.hbEntryBad, "EV_HB_ENTRY_BAD", 1)
  , (.hfTakeover, "EV_HF_TAKEOVER", 1), (.ldLanemap, "EV_LD_LANEMAP", 3), (.ldLongRtt, "EV_LD_LONG_RTT", 3), (.ldNarrow, "EV_LD_NARROW", 3)
  , (.ldPathLost, "EV_LD_PATH_LOST", 3), (.ldPlanUnmet, "EV_LD_PLAN_UNMET", 3), (.ldPortState, "EV_LD_PORT_STATE", 3), (.ldQuarantine, "EV_LD_QUARANTINE", 3)
  , (.ldRemap, "EV_LD_REMAP", 3), (.ldRouteAlt, "EV_LD_ROUTE_ALT", 3), (.ldRoutePrimary, "EV_LD_ROUTE_PRIMARY", 3), (.ldStop, "EV_LD_STOP", 3)
  , (.ljAuthFail, "EV_LJ_AUTH_FAIL", 1), (.mdBadAddress, "EV_MD_BAD_ADDRESS", 4), (.mdCe, "EV_MD_CE", 4), (.mdCeStorm, "EV_MD_CE_STORM", 4)
  , (.mdPinMark, "EV_MD_PIN_MARK", 4), (.mdPinMarkFull, "EV_MD_PIN_MARK_FULL", 4), (.mdPoisonConsumed, "EV_MD_POISON_CONSUMED", 4), (.mdRepairBad, "EV_MD_REPAIR_BAD", 4)
  , (.mdRepairFull, "EV_MD_REPAIR_FULL", 4), (.mdRowRepair, "EV_MD_ROW_REPAIR", 4), (.mdStackFailed, "EV_MD_STACK_FAILED", 4), (.mdStackLost, "EV_MD_STACK_LOST", 4)
  , (.mdStackUnqualified, "EV_MD_STACK_UNQUALIFIED", 4), (.mdTagErr, "EV_MD_TAG_ERR", 4), (.mdUe, "EV_MD_UE", 4), (.memHotspot, "EV_MEM_HOTSPOT", 4)
  , (.pkgFloor, "EV_PKG_FLOOR", 1), (.pkgState, "EV_PKG_STATE", 1), (.qdBadHead, "EV_QD_BAD_HEAD", 2), (.qdCreditViol, "EV_QD_CREDIT_VIOL", 2)
  , (.reshardDone, "EV_RESHARD_DONE", 1), (.reshardFail, "EV_RESHARD_FAIL", 1), (.secureAbandon, "EV_SECURE_ABANDON", 1), (.secureDone, "EV_SECURE_DONE", 1)
  , (.secureOverflow, "EV_SECURE_OVERFLOW", 1), (.secureRewind, "EV_SECURE_REWIND", 1), (.serveJoined, "EV_SERVE_JOINED", 1), (.serveParked, "EV_SERVE_PARKED", 1)
  , (.stashExhausted, "EV_STASH_EXHAUSTED", 2), (.stepEnd, "EV_STEP_END", 1), (.stepForced, "EV_STEP_FORCED", 1), (.stepNonfinite, "EV_STEP_NONFINITE", 1)
  , (.stepVoteTimeout, "EV_STEP_VOTE_TIMEOUT", 1), (.sumpMismatch, "EV_SUMP_MISMATCH", 2), (.sumpRefused, "EV_SUMP_REFUSED", 2), (.syncDenied, "EV_SYNC_DENIED", 2)]
/-- The event catalogue: codes and entries. -/
def evCatalogue : List (Nat × (Ev × String × Nat)) := numbered 1 (fun e => e.2.2) evRows
/-- Code of an event by its number in the model's list of names. -/
def evCode (e : Nat) : Nat := match evCatalogue.find? fun x => x.2.1.ctorIdx == e with | some x => x.1 | none => 0

/-- ASCII bytes of a name, padded to 40. -/
def nameBytes (n : String) : List Byte :=
  let bs := n.toList.map fun c => BitVec.ofNat 8 c.toNat
  (bs ++ List.replicate 40 0).take 40
/-- The 48 bytes of a catalogue entry. -/
def ctrEntry (e : Nat × CatEnt) : List Byte := toLe 8 (put 0 16 e.1 + put 16 8 e.2.kind + put 32 16 e.2.count) ++ nameBytes e.2.name
def evEntry (e : Nat × (Ev × String × Nat)) : List Byte := toLe 8 (put 0 16 e.1) ++ nameBytes e.2.2.1

end Sys2Proof.Machine
end

