-- ==== Sys2Proof/Machine/SecCmd.lean ====
section
/-! DEFINITION. The securing commands: SECURE_POLICY, SECURE_NOW, RESTORE (R400 to R402, R411, R412, R415). -/

namespace Sys2Proof.Machine

/-- Tensor entries of a securing policy. -/
def scTensors (r : Rec) : List Rec := (List.range (fld r 216 11)).map fun i => fld r (512 + 32 * scN r + 256 * i) 256
/-- Member addresses of a securing policy. -/
def scMembers (r : Rec) : List Nat := (List.range (scN r)).map fun i => fld r (512 + 32 * i) 32
/-- Reserved bits and encodings of a securing policy (Tables 15.1, 15.2). -/
def secReserved (r : Rec) : Bool :=
  fld r 56 8 != 0 || fld r 94 2 != 0 || fld r 189 3 != 0 || fld r 204 4 != 0 || fld r 227 5 != 0 || fld r 368 144 != 0 ||
    ((scMembers r).any fun m => 2 ^ 24 ≤ m) ||
    (scTensors r).any fun t => fld t 48 16 != 0 || fld t 112 16 != 0 || tnPin t == 3 || fld t 163 5 != 0 || fld t 192 64 != 0
/-- Buffers of a tensor, once where both are one. -/
def tnBufs (t : Rec) : List (Nat × Nat) :=
  let n := 65536 * tnPages t
  if tnBuf t 0 = tnBuf t 1 then [(tnBuf t 0, n)] else [(tnBuf t 0, n), (tnBuf t 1, n)]
/-- No two ranges of a list share a byte. -/
def disjointAll : List (Nat × Nat) → Bool
  | [] => true
  | a :: l => l.all (fun b => !overlaps a.1 a.2 b.1 b.2) && disjointAll l
/-- The format tests of R402. -/
def Pkg.secOk (p : Pkg) (c : Nat) (r : Rec) (len : Nat) : Bool :=
  let ts := scTensors r
  len == 64 + 4 * scN r + 32 * ts.length &&
    decide (1 ≤ fld r 0 32) && decide (fld r 0 32 ≤ 100000000) && decide (1 ≤ fld r 32 24) &&
    decide (2 ≤ scK r) && decide (scK r ≤ 28) && decide (1 ≤ scM r) && decide (scM r ≤ 4) && decide (scN r ≤ 32) && decide (scMember r < scN r) &&
    decide (1 ≤ fld r 96 32) && decide (fld r 96 32 ≤ 3600000) && decide (scBase r + 2 ≤ 4095) &&
    ((List.range 3).all fun i => let o := p.sync (scBase r + i); o.owner == 0x1FF || o.owner == 0x100 || o.owner == c) &&
    decide (1 ≤ ts.length) && decide (ts.length ≤ 1024) && scStripe r % scK r == 0 &&
    fld r 256 48 % 65536 == 0 && p.inRegions c (fld r 256 48) (65536 * fld r 304 32) &&
    ts.all (fun t => decide (1 ≤ tnPages t) && tnBuf t 0 % 65536 == 0 && tnBuf t 1 % 65536 == 0 && (tnBuf t 0 != tnBuf t 1 || bit t 162) &&
      (tnBufs t).all fun b => p.inRegions c b.1 b.2) &&
    disjointAll (ts.map tnBufs).flatten

/-- SECURE_POLICY (R402): the policy is taken, COUNT starts at 0, the memory dies' tensor tables are filled. -/
def execSecurePolicy (k : Pkt) (s : State) : Host.Outcome State Fault Refusal :=
  s.run fun p => p.luajo { code := 0x80, either := true, ofCtx := true } k anyTlv
    (fun p c => firstBad [
      defect (secReserved c.strct) stReserved
      , defect (!p.secOk c.ctx c.strct c.body.length) stSecureFormat])
    fun p c =>
      let r := c.strct
      let ts := scTensors r
      let st := (p.ctx c.ctx).step.state
      if (p.ctx c.ctx).state = .empty || st = 1 || st = 2 || (p.secure.active && p.secure.ctx != c.ctx) then p.badState c stBadState
      else if fld r 304 32 < 2 * (scStripe r + scM r * (scStripe r / scK r)) + fld r 336 32 ||
          ((List.range 8).any fun m => decide (1024 < (rowsOfDie ts m).length)) ||
          scStripe r < ((ts.filter fun t => tnPin t == 1).map tnPages).sum then .no stSecureSpace []
      else
        let p := { p with secure := { active := true, ctx := c.ctx, hdr := r % 2 ^ 512, members := scMembers r, tensors := ts, nextPlanned := fld r 128 61, cost := fld r 96 32 } }
        let p := (List.range 3).foldl (fun p i => p.modSync (scBase r + i) fun o => { o with owner := 0x100 }) p
        .ok ((p.setObj (scBase r) 0).fillTensors ts) []

/-- SECURE_NOW (R411): the root plans its next capture for the open step, or the next one. -/
def execSecureNow (k : Pkt) (s : State) : Host.Outcome State Fault Refusal :=
  s.run fun p => p.luajo { code := 0x81, ofCtx := true, bound := true } k anyTlv noFmt fun p c =>
    let st := (p.ctx c.ctx).step
    if (p.ctx c.ctx).state = .empty then p.badState c stBadState
    else if !polRoot st.policy then .no stSecureRoot []
    else if !p.secure.active || p.secure.ctx != c.ctx then p.badState c stBadState
    else
      let n := if st.state = 1 then st.num else if st.begun then st.num + 1 else fld p.secure.hdr 128 61
      .ok { p with secure := { p.secure with nextPlanned := n } } (tlv 6 (toLe 8 n))

/-- Reserved bits of a restore record (Table 15.3). -/
def rstReserved (r : Rec) : Bool :=
  fld r 61 3 != 0 || fld r 112 16 != 0 || fld r 134 2 != 0 || fld r 147 13 != 0 || fld r 208 304 != 0

/-- RESTORE (R412, R413, R415): an attempt that runs is abandoned on the device; the reply waits for the tensors. -/
def execRestore (k : Pkt) (s : State) : Host.Outcome State Fault Refusal :=
  s.run fun p => p.luajo { code := 0x82, either := true, ofCtx := true, bound := true } k anyTlv
    (fun p c =>
      let r := c.strct
      firstBad [
        defect (c.body.length != 64 + 4 * fld r 128 6 + 4 * fld r 136 11) stBadParam
        , defect (rstReserved r) stReserved
        , defect (decide (32 < fld r 128 6) || decide (1024 < fld r 136 11) || !p.inRegions c.ctx (fld r 64 48) 1 ||
            !p.inRegions c.ctx (fld r 160 48) (Nat.max 1 (8 * p.secure.tensors.length))) stRange])
    fun p c =>
      let x := p.ctx c.ctx
      let y := p.secure
      let n := fld c.strct 0 61
      if x.state = .empty || x.state = .faulted || x.step.state = 1 || x.step.state = 2 || !y.active || y.ctx != c.ctx ||
          y.restoring.isSome || ((p.slotsOf c.ctx).any fun j => !(p.ing j 0).queue.isEmpty || !(p.ing j 1).queue.isEmpty ||
            !(p.egr j 0).queue.isEmpty || !(p.egr j 1).queue.isEmpty) then p.badState c stBadState
      else if y.lastDone.isSome && y.lastDone != some n && y.older != some n then .no stCaptureUnavailable []
      else
        let p := match y.attempt with | some a => p.stopCapture a.step | none => p
        .wait { p with secure := { p.secure with
          attempt := none, capOpen := false, reported := true, restoring := some c.strct, restoreReply := c.token, phase := if y.lastDone.isSome then 2 else 3 } }

end Sys2Proof.Machine
end

