-- ==== Sys2Proof/Machine/Info.lean ====
section
/-! DEFINITION. Information commands (R387, R461 to R463, R484): GET_INFO with the hand-back bundle, counters, events, tallies, debug reads. -/

namespace Sys2Proof.Machine

/-! ## GET_INFO (R461, R484) -/

/-- The summary of Table 17.12. -/
def Pkg.summary (p : Pkg) : List Byte :=
  toLe 8 p.serial ++ toLe 1 p.pkgState ++ toLe 1 (p.die p.primary).pkgFeature ++ toLe 1 p.primary
    ++ toLe 1 (b2n p.standby + 2 * b2n p.atFloor + 4 * b2n p.eth.up) ++ toLe 4 p.ident.fwVersion ++ toLe 4 Config.bootRomVersion ++ toLe 4 0
    ++ ((List.range 32).map fun d => toLe 8 (p.dieId d)).flatten ++ ((List.range 16).map fun s => toLe 1 (p.stack s).state).flatten
    ++ ((List.range 16).map fun n => toLe 1 (p.port n).state.ctorIdx).flatten ++ toLe 2 ctrCatalogue.length ++ toLe 2 evCatalogue.length

/-- One section of the hand-back bundle (R480): type, length, content padded to a multiple of 8 bytes. -/
def hbSection (ty : Nat) (content : List Byte) : List Byte :=
  toLe 8 (put 0 16 ty + put 32 32 content.length) ++ content ++ List.replicate (roundUp content.length 8 - content.length) 0
/-- A section as received, left out when the bundle had none. -/
def hbKept (ty : Nat) (content : List Byte) : List (List Byte) := if content.isEmpty then [] else [hbSection ty content]
/-- Repair map: row repairs and pin marks (Table 10.5). -/
def Pkg.hbRepairs (p : Pkg) : List Byte :=
  ((List.range 16).map fun s =>
    (((p.stack s).repairs ++ (p.stack s).marks.map fun m => markEnt s m.1 m.2.1 m.2.2).map (toLe 8)).flatten).flatten
/-- Core exclusions: the built cores not enabled (R484). -/
def Pkg.hbCores (p : Pkg) : List Byte :=
  (((List.range 32).filter fun d => dieKind d == 0 && (p.die d).enabled != 0).map fun d =>
    toLe 4 (put 0 26 (2 ^ 26 - 1 - (p.die d).enabled) + put 26 5 d)).flatten
/-- Bundle maps: every bundle with a spare in use. -/
def Pkg.hbBundles (p : Pkg) : List Byte :=
  ((List.range 32).map fun d =>
    ((List.range (dieGroups d).length).map fun g =>
      ((p.group d g).bundles.map fun e =>
        if e.2.spares.isEmpty then [] else toLe 8 (put 0 5 d + put 5 9 (groupBase d g + e.1) + put 16 28 e.2.value)).flatten).flatten).flatten
/-- Lane maps of the ports that have one. -/
def Pkg.hbLanes (p : Pkg) : List Byte :=
  (((List.range 16).filter fun n => (p.port n).lanemap != 0).map fun n =>
    toLe 8 n ++ toLe 8 (fld (p.port n).lanemap 0 60) ++ toLe 8 (fld (p.port n).lanemap 60 60)).flatten
/-- The hand-back bundle as it stands now (R480, R484). -/
def Pkg.bundle (p : Pkg) : List Byte :=
  let ss := [hbSection 1 p.hbRepairs, hbSection 2 p.hbCores, hbSection 3 p.hbBundles, hbSection 4 p.hbLanes, hbSection 5 ((p.pwr.cal.map (toLe 64)).flatten)]
    ++ hbKept 6 p.pwr.keySec ++ hbKept 7 p.pwr.certSec
  let body := ss.flatten
  toLe 32 (put 0 32 0x4B424148 + put 32 16 1 + put 48 16 ss.length + put 64 64 p.serial + put 128 32 (128 + body.length))
    ++ toBe 48 (Config.sha384 body) ++ toLe 48 0 ++ body

/-- What GET_INFO returns for a selector; none where it names no page. -/
def Pkg.infoPage (p : Pkg) (sel : Nat) : Option (List Byte) :=
  if sel = 0 then some p.summary
  else if sel < 0x100 then
    let es := ctrCatalogue.drop (128 * (sel - 1))
    if es.isEmpty then none else some ((es.take 128).map ctrEntry).flatten
  else if sel < 0x200 then
    let es := evCatalogue.drop (128 * (sel - 0x100))
    if es.isEmpty then none else some ((es.take 128).map evEntry).flatten
  else
    let bs := p.bundle.drop (8192 * (sel - 0x200))
    if bs.isEmpty then none else some (bs.take 8192)

/-- GET_INFO (R461, R484). -/
def execGetInfo (k : Pkt) (s : State) : Host.Outcome State Fault Refusal :=
  s.run fun p => p.luajo { code := 0x10, req := [0x15], bound := true, legal := 0 } k anyTlv
    (fun p c => if (p.infoPage (c.num 0x15)).isNone then some (stRange, []) else none)
    fun p c => .ok p (tlv 0x81 ((p.infoPage (c.num 0x15)).getD []))

/-! ## Counters, events, tallies (R461, R462, R387) -/

/-- READ_COUNTERS (R461): the interval counter, then one value per instance. -/
def execReadCounters (k : Pkt) (s : State) : Host.Outcome State Fault Refusal :=
  let ent (c : Cmd) : Option CatEnt := (ctrCatalogue.find? fun x => x.1 == fld (c.num 0x15) 0 16).map (·.2)
  s.run fun p => p.luajo { code := 0xA0, req := [0x15], legal := 0 } k anyTlv
    (fun _ c =>
      let v := c.num 0x15
      let n := fld v 32 16
      match ent c with
      | none => some (stRange, [])
      | some e => if fld v 48 16 != 0 || n = 0 || 1024 < n || e.count < fld v 16 16 + n then some (stRange, []) else none)
    fun p c =>
      let v := c.num 0x15
      let n := fld v 32 16
      match ent c with
      | none => .ok p []
      | some e =>
        let r := (List.range n).foldl (fun (r : Pkg × List Byte) i =>
          match e.base with
          | some b => (r.1, r.2 ++ toLe 8 (tabGet 0 r.1.ctrs (b + fld v 16 16 + i)))
          | none =>
            let x := r.1.take 64
            (x.2, r.2 ++ toLe 8 x.1)) (p, toLe 8 (p.icount p.primary))
        .ok r.1 (tlv 0x81 r.2)

/-- A status an event carries (R450, R462). -/
def evStatus (e : Nat) : Nat :=
  if e = Ev.serveParked.ctorIdx then stParked else if e = Ev.ldPathLost.ctorIdx then stPathLost else if e = Ev.fabPairing.ctorIdx then stPairing else 0
/-- The 64 bytes of an event record (Table 17.13): the deadline record, or object and detail, as payload. -/
def eventBytes (index ns ev die ctx payload : Nat) : List Byte :=
  toLe 64 (put 0 64 index + put 64 64 ns + put 128 16 (evCode ev) + put 144 5 die + (if ctx = noCtx then 0 else put 149 1 1 + put 150 8 ctx)
    + put 160 16 (evStatus ev) + put 256 256 payload)
def Event.bytes (e : Event) : List Byte :=
  let dl := e.ev == Ev.deadlineMiss.ctorIdx || e.ev == Ev.deadlineBreach.ctorIdx
  eventBytes e.index e.ns e.ev e.die e.ctx (if dl then e.data else put 0 64 e.obj + put 64 192 e.data)

/-- READ_EVENTS on one of its stores (R462): up to 128 records from the cursor on, and the cursor after them. -/
def Pkg.readStore (p : Pkg) (k : Pkt) (dl : Bool) (store : Pkg → List (Nat × List Byte)) : Pkg :=
  p.luajo { code := 0xA1, req := [0x16], opt := [0x0D], legal := 0 } k (fun ts => (match regTlv ts 0x0D with | some f => bit f 0 | none => false) == dl)
    (fun _ c => firstBad [defect (c.num 0x0D / 2 != 0) stReserved])
    fun p c =>
      let rs := ((store p).filter fun e => decide (c.num 0x16 ≤ e.1)).take 128
      let next := match rs.getLast? with | some e => e.1 + 1 | none => c.num 0x16
      .ok p (tlv 0x16 (toLe 8 next) ++ tlv 0x81 (rs.map (·.2)).flatten)
/-- READ_EVENTS of the event ring (R462). -/
def execReadEvents (k : Pkt) (s : State) : Host.Outcome State Fault Refusal :=
  s.run fun p => p.readStore k false fun p => p.events.reverse.map fun e => (e.index, e.bytes)
/-- READ_DEADLINE_RECORDS (R45, R462): the deadline store has an index of its own. -/
def execReadDeadlineRecords (k : Pkt) (s : State) : Host.Outcome State Fault Refusal :=
  s.run fun p => p.readStore k true fun p =>
    let base := p.ctr .dlRecordLost 0
    p.dlRecs.reverse.zipIdx.map fun x =>
      (base + x.2, eventBytes (base + x.2) (fld x.1 128 64) Ev.deadlineMiss.ctorIdx p.primary (fld x.1 32 8) x.1)

/-- The tally of Table 14.7: 128 bytes. -/
def Tally.bytes (t : Tally) : List Byte :=
  let slow := if t.expected = 0 then 0 else Nat.min 0xFFFFFFFF (t.actual * 65536 / t.expected)
  toLe 128 (put 0 64 t.itemsRun + put 64 64 t.queueWait + put 128 64 t.swapWait + put 192 32 t.beLcWaits + put 224 32 t.preemptKills + put 256 32 t.revokes
    + put 288 32 t.swapsOut + put 320 64 t.actual + put 384 64 t.expected + put 448 32 slow + put 480 32 t.parkedRounds + put 512 64 t.saveBytes)
/-- READ_TALLY (R387). -/
def execReadTally (k : Pkt) (s : State) : Host.Outcome State Fault Refusal :=
  s.run fun p => p.luajo { code := 0xA2, ofCtx := true, bound := true, legal := 0 } k anyTlv noFmt fun p c =>
    if (p.ctx c.ctx).state = .empty then p.badState c stBadState
    else .ok p (tlv 0x81 ((p.ctx c.ctx).tally.bytes ++ toLe 8 (p.icount p.primary)))

/-! ## DEBUG_PEEK (R463, Table 17.14) -/

/-- An accumulator cell: 64 bits of the sum as two's complement and its state. -/
def Cell.bytes (c : Cell) : List Byte := toLe 16 (put 0 120 (unsgn 120 c.acc) + put 120 8 c.st)
/-- Bytes of a packet that waits: its KSPEC and content. -/
def lpktBytes (k : LPkt) : List Byte := toLe 12 k.kspec.toNat ++ k.content
/-- Bytes of a list of numbers. -/
def words (l : List Nat) : List Byte := (l.map (toLe 8)).flatten

/-- Row of Table 10.4 that a decode falls under. -/
def lineOutcome : LineOut → Nat
  | .bad => 0
  | .crc => 1
  | .tag => 2
  | .good _ fixed => if fixed.isEmpty then 4 else 3

/-- The object of a class and index as bytes; none where the index names none. The layouts are the model's where the manual gives none. -/
def Pkg.peekObj (p : Pkg) (cls ix : Nat) : Option (List Byte) :=
  match cls with
  | 1 =>
    if !isStackAddr ix then none else
    let l := ix / 64
    let w := lineWord (p.lineBytes l) (p.linePoison l) l
    some (((w.take 68).map (BitVec.ofNat 8)) ++ toLe 4 (lineOutcome (decodeLine w ((p.stack (stackOf ix)).marksAt (locOf l)) l) + 8 * b2n (p.undefLine l)))
  | 2 =>
    if 24576 ≤ ix then none else
    let t := p.thr ix
    some (words ((List.range 32).map fun r => (tabGet 0 t.s r).toNat) ++ words ((List.range 8).map fun r => (tabGet 0 t.a r).toNat)
      ++ words [t.vl.toNat, t.vm.toNat, t.st.toNat, t.pc.toNat, t.pend.toNat, t.stateReg, t.fault.toNat, t.finst.toNat]
      ++ p.spBytes (coreOf ix) (0x3F0000 + 256 * threadIn ix) 256)
  | 3 =>
    let j := fld ix 0 4
    let q := fld ix 4 2
    let n := fld ix 6 6
    if 4096 ≤ ix then none else
    let d := if q < 2 then ((p.ing j q).queue[n]?).map Item.desc else ((p.egr j (q - 2)).queue[n]?).map EgrMb.desc
    d.map (toLe 64)
  | 4 =>
    let g := fld ix 0 9
    let set := if bit ix 9 then (p.core g).accB else (p.core g).accA
    if 384 ≤ g || 16384 ≤ ix / 1024 then none else some (tabGet ({} : Cell) set.cells (ix / 1024)).bytes
  | 5 =>
    let g := fld ix 0 9
    if 384 ≤ g || 32 ≤ ix / 512 then none else
    let e := tabGet ({} : Endpoint) (p.core g).eps (ix / 512)
    some (words [e.reg] ++ ((e.held.map (·.1) ++ e.unread.flatten).map fun w => p.wordBytes e w).flatten ++ (e.pendingOpen.map lpktBytes).flatten
      ++ words (e.conns.map fun c => c.1 + 2 ^ 24 * c.2.1 + 2 ^ 40 * c.2.2.1))
  | 6 =>
    match p.routes[ix / 2]? with
    | none => none
    | some r => some (toLe 16 r.ent ++ (r.pri ++ r.alt).map (BitVec.ofNat 8))
  | 7 =>
    let ws := ((((p.die (fld ix 0 5)).groups.map fun g => g.2.kept.map fun k => k.2).flatten).flatten).map BitVec.toNat
    (ws[ix / 32]?).map (toLe 8)
  | 8 =>
    if 4096 ≤ ix then none else
    some (toLe 8 (p.sync ix).ctr.toNat ++ toLe 8 (p.sync ix).cfg
      ++ ((p.waiters.filter fun w => w.obj == ix).map fun w => toLe 8 w.threshold.toNat ++ lpktBytes w.pkt).flatten)
  | 9 =>
    let e := p.sumpEng (16 * fld ix 0 1 + fld ix 1 4)
    let x := tabGet ({} : SumpSess) e.sess (fld ix 5 4)
    if 512 ≤ ix || !x.openF then none
    else some (((List.range (fld x.hdr 96 19)).map fun i => (tabGet ({} : Cell) e.acc (fld x.hdr 64 18 + i)).bytes).flatten)
  | 10 =>
    if 2 ^ 40 ≤ ix then none else
    match (p.ctx (fld ix 0 8)).seqs.find? fun q => q.id == fld ix 8 32 with
    | none => none
    | some q => some (words ([q.id, q.stream, b2n q.lc, q.prompt, q.tokens, q.state] ++ q.pages))
  | 11 =>
    let sec := p.secure
    let n := ix / 4
    if 1024 ≤ n then none else
    let log (l : List JPage) : List Byte := ((l.filter fun g => g.tensor == n).map fun g => words [g.fab, g.tensor, g.page, g.step] ++ g.data).flatten
    match ix % 4 with
    | 0 => if sec.active && n < scM sec.hdr then some (p.load (scPiece sec.hdr sec.gen n) (scPart sec.hdr)) else none
    | 1 => some (log sec.replica)
    | 2 => some (log (sec.pendLog ++ sec.newLog))
    | _ => none
  | 12 =>
    let d := fld ix 0 5
    if dieKind d != 1 then none else
    let m := memNo d
    let rs := ([2 * m, 2 * m + 1].map fun n => (p.stack n).repairs ++ (p.stack n).marks.map fun y => markEnt n y.1 y.2.1 y.2.2).flatten
    match rs[ix / 32]? with
    | some r => some (toLe 8 r)
    | none =>
      let w := ix / 32 - rs.length
      let pages := 2 * (stackSize / 65536)
      if pages ≤ 64 * w then none
      else some (toLe 8 (((List.range 64).map fun i => if p.pageDirty (m * pages + 64 * w + i) then 2 ^ i else 0).sum))
  | _ => none

/-- DEBUG_PEEK (R463): bytes of an object from an offset; nothing changes. -/
def execDebugPeek (k : Pkt) (s : State) : Host.Outcome State Fault Refusal :=
  s.run fun p => p.luajo { code := 0xD0, req := [0x0A, 0x15], legal := 0 } k anyTlv
    (fun p c =>
      let v := c.num 0x0A
      let n := fld v 32 16
      match p.peekObj (fld (c.num 0x15) 0 8) (fld (c.num 0x15) 8 56) with
      | none => some (stRange, [])
      | some bs => firstBad [defect (fld v 48 16 != 0) stReserved, defect (decide (n < 8) || decide (8192 < n) || decide (bs.length ≤ fld v 0 32)) stRange])
    fun p c =>
      let v := c.num 0x0A
      let bs := (p.peekObj (fld (c.num 0x15) 0 8) (fld (c.num 0x15) 8 56)).getD []
      .ok p (tlv 0x81 ((bs.drop (fld v 0 32)).take (fld v 32 16)))

end Sys2Proof.Machine
end

