-- ==== Sys2Proof/Machine/Relay.lean ====
section
/-! DEFINITION. Commands by relay (R431, R432, R436): a relaying device's requests and replies, and a relayed command at its target. -/

namespace Sys2Proof.Machine

/-! ## The relaying device -/

/-- Source address of a session: its host's own, or the one a relay's record holds. -/
def srcIp (s : Src) : Nat :=
  match s with
  | .own ip _ _ => ip.toNat
  | .relay r _ _ => leNat ((toLe 32 r.toNat).take 16).reverse
/-- Does a source address hold an open session (R431)? -/
def Pkg.holdsSession (p : Pkg) (ip : Nat) : Bool :=
  p.sessions.any fun e => e.2.openF && e.2.src.any fun s => srcIp s == ip
/-- RELAY_REQUEST (R431, R432): the inner packet goes on as one CMD_RELAY, routed or on a port. -/
def execRelayRequest (ip : BitVec 128) (port : BitVec 16) (header : W64) (inner : List Byte) (s : State) : Host.Outcome State Fault Refusal :=
  s.run fun p =>
    if !(p.answers && p.ownPort) || 8864 < inner.length then p
    else if !p.holdsSession ip.toNat then p.bump .ethRelayDenied 0
    else
      let h := header.toNat
      let content := relayRecord ip.toNat port.toNat p.fabAddr ++ inner
      if bit h 24 then
        let n := fld h 25 4
        let dest := (p.port n).peerAddr
        let dest := if (p.port n).serves then 0 else dest
        let k := { p.mkPkt dest 12 0 0 content with dst := BitVec.ofNat 24 dest, tag := BitVec.ofNat 32 p.nextTag }
        if !(p.port n).carrying then p
        else { p with reqs := tabSet none p.reqs (p.nextTag % 2 ^ 32) (some { pkt := k, who := .relay 0 }) }.sendTagged n k
      else (p.request (p.mkPkt (fld h 0 24) 12 0 0 content) (.relay 0)).2

/-- The host that opened a session on this device's own port last. -/
def Pkg.ownHost (p : Pkg) : Option Nat :=
  (p.sessions.foldl (fun (m : Option (Nat × Nat)) e =>
    match e.2.openF, e.2.src with
    | true, some (.own ip _ _) => if m.any fun x => decide (e.2.opened < x.1) then m else some (e.2.opened, ip.toNat)
    | _, _ => m) none).map (·.2)
/-- CMD_REPLY_RECEIVE (R432, R436): the reply goes to the recorded host behind a relay header that names the target; what a booting peer
says of itself goes to this device's own host. -/
def execCmdReplyReceive (k : LPkt) (s : State) : Host.Outcome State Fault Refusal :=
  s.run fun p => p.arrive k 13 fun p =>
    let p := match p.req k.tag.toNat with
      | some r => (match r.who with | .relay _ => p.endReq k.tag.toNat | _ => p)
      | none => p
    if !(p.answers && p.ownPort) then p
    else
      let ip := leNat (k.content.take 16).reverse
      let port := leNat (slice k.content 16 2)
      let open_ := (List.range 16).filter fun n => (p.port n).serves
      let (x, p) := p.take 8
      let hdr := if k.src = 0 then put 24 1 1 + put 25 4 (open_.getD (x % Nat.max 1 open_.length) 0) else put 0 24 k.src.toNat
      let msg := toLe 8 hdr ++ k.content.drop 32
      if ip != 0 then p.ethSend (some p.eth.cmdPrio) (.udp 40313 ip port msg)
      else match p.ownHost with
        | some h => p.ethSend (some p.eth.cmdPrio) (.udp 40313 h 40313 msg)
        | none => p

/-! ## The target -/

/-- Meanings of the rows of an opcode for one packet (Table 17.6). -/
def luajoRows (k : Pkt) (opcode : Nat) : List (State → Host.Outcome State Fault Refusal) :=
  match opcode with
  | 0x01 => [execSessionOpen k] | 0x02 => [execSessionClose k] | 0x10 => [execGetInfo k] | 0x11 => [execRegRead k]
  | 0x12 => [execRegWrite k, execFabResetReqOrderly k, execFabResetReqAbrupt k, execHandover k]
  | 0x20 => [execSetTopology k] | 0x21 => [execSetRoutes k]
  | 0x22 => [execPortRetrain k, execPortDark k, execPortWake k, execPortDisable k, execPortReset k, execPortRecheck k, execPortRebalance k,
      execPortLimits k, execPortBootServe k]
  | 0x30 => [execContextCreate k] | 0x31 => [execContextDestroy k] | 0x32 => [execContextSetClass k]
  | 0x40 => [execLoadProgram k] | 0x41 => [execBindSlot k] | 0x42 => [execSetDeadline k] | 0x43 => [execUnbindSlot k]
  | 0x50 => [execMemMapMap k, execMemMapUnmap k, execMemMapSetPartition k]
  | 0x51 => [execBulkCreateQp k, execBulkDestroyQp k, execBulkRegisterKey k, execBulkDeregisterKey k, execBulkBindSlot k, execBulkUnbindSlot k]
  | 0x60 => [execStepBegin k] | 0x61 => [execStepCommit k] | 0x62 => [execStepAbort k, execStepAbortForce k]
  | 0x70 => [execRun k] | 0x71 => [execPreempt k, execPreemptSwap k]
  | 0x80 => [execSecurePolicy k] | 0x81 => [execSecureNow k] | 0x82 => [execRestore k] | 0x83 => [execReshard k]
  | 0x90 => [execServeJoin k] | 0x91 => [execServeLeave k]
  | 0xA0 => [execReadCounters k] | 0xA1 => [execReadEvents k, execReadDeadlineRecords k] | 0xA2 => [execReadTally k]
  | 0xB0 => [execPowerPolicy k] | 0xC0 => [execFwLoad k] | 0xC1 => [execAttest k] | 0xD0 => [execDebugPeek k]
  | _ => [fun s => s.run fun p => p.luajo { code := opcode, legal := 0, known := false } k anyTlv noFmt fun p _ => .ok p []]
/-- The first of an opcode's rows that the packet is one of: the others leave the block as it is. -/
def firstRow : List (State → Host.Outcome State Fault Refusal) → State → Host.Outcome State Fault Refusal
  | [], s => s.skip
  | f :: fs, s =>
    match f s with
    | .next t => if t = s then firstRow fs s else .next t
    | .fault r => .fault r
    | .refused r => .refused r
/-- The Luajo packet inside a relay packet (R440, R432). -/
def innerPkt (k : LPkt) : Pkt :=
  let b := k.content.drop 32
  let h := leNat (b.take 24)
  { src := .relay (BitVec.ofNat 256 (leNat (k.content.take 32))) k.src k.tag, size := b.length
    magic := BitVec.ofNat 16 h, version := BitVec.ofNat 8 (fld h 16 8), reply := bit h 24, ctxF := bit h 25, rsv1 := BitVec.ofNat 6 (fld h 26 6)
    session := BitVec.ofNat 32 (fld h 32 32), context := BitVec.ofNat 8 (fld h 64 8), rsv2 := BitVec.ofNat 8 (fld h 72 8)
    seq := BitVec.ofNat 32 (fld h 96 32), length := BitVec.ofNat 16 (fld h 128 16), statusF := BitVec.ofNat 16 (fld h 144 16)
    rsv3 := BitVec.ofNat 32 (fld h 160 32), params := slice b 24 (b.length - 40), mac := BitVec.ofNat 128 (leNat (b.drop (b.length - 16))) }
/-- OPCODE of the Luajo packet inside a relay packet. -/
def innerOp (k : LPkt) : Nat := fld (leNat ((k.content.drop 32).take 24)) 80 16
/-- CMD_RELAY_RECEIVE (R432, R436): the target executes the inner packet as if it had come on its own port. A boot message for a boot ROM
is a boot command of its own. -/
def execCmdRelayReceive (k : LPkt) (s : State) : Host.Outcome State Fault Refusal :=
  if k.pkind != 12 || k.dst.toNat != s.pkg.fabAddr then s.skip
  else
    let s := { s with pkg := { s.pkg with eth := { s.pkg.eth with relayFab := k.src.toNat } } }
    if s.pkg.answers then firstRow (luajoRows (innerPkt k) (innerOp k)) s else .next s

end Sys2Proof.Machine
end

