-- ==== Sys2Proof/Machine/Scalar.lean ====
section
/-! DEFINITION. The scalar class (R228, Table 8.10). -/

namespace Sys2Proof.Machine

/-- The shape of a two-operand scalar instruction: RD := f RA (RB or IMM32). -/
def State.scalar2 (s : State) (t : Nat) (i : Instr) (f : FmtS) (g : W64 → W64 → W64) : Host.Outcome State Fault Refusal :=
  s.run fun p => p.issue t i fun p th => .ok (p.setThr t (th.setS f.rd.toNat (g (th.rs f.ra.toNat) (opB th f))))

/-- The shape of an instruction that only writes RD. -/
def State.scalar0 (s : State) (t : Nat) (i : Instr) (f : FmtS) (g : Pkg → Thr → W64) : Host.Outcome State Fault Refusal :=
  s.run fun p => p.issue t i fun p th => .ok (p.setThr t (th.setS f.rd.toNat (g p th)))

/-- Result of ADD (R228). -/
def resAdd (a b : W64) : W64 := a + b
/-- ADD (R228). -/
def execAdd (t : ThreadId) (f : FmtS) (s : State) : Host.Outcome State Fault Refusal := s.scalar2 t (.add t f) f resAdd
/-- Result of SUB (R228). -/
def resSub (a b : W64) : W64 := a - b
/-- SUB (R228). -/
def execSub (t : ThreadId) (f : FmtS) (s : State) : Host.Outcome State Fault Refusal := s.scalar2 t (.sub t f) f resSub
/-- Result of MUL: the low 64 bits (R228). -/
def resMul (a b : W64) : W64 := a * b
/-- MUL (R228). -/
def execMul (t : ThreadId) (f : FmtS) (s : State) : Host.Outcome State Fault Refusal := s.scalar2 t (.mul t f) f resMul
/-- Result of MULHU: the high 64 bits, unsigned (R228). -/
def resMulhu (a b : W64) : W64 := BitVec.ofNat 64 (a.toNat * b.toNat / 2 ^ 64)
/-- MULHU (R228). -/
def execMulhu (t : ThreadId) (f : FmtS) (s : State) : Host.Outcome State Fault Refusal := s.scalar2 t (.mulhu t f) f resMulhu
/-- Result of MULH: the high 64 bits, signed (R228). -/
def resMulh (a b : W64) : W64 := BitVec.ofInt 64 (a.toInt * b.toInt / 2 ^ 64)
/-- MULH (R228). -/
def execMulh (t : ThreadId) (f : FmtS) (s : State) : Host.Outcome State Fault Refusal := s.scalar2 t (.mulh t f) f resMulh
/-- Result of DIVU: divisor 0 gives all ones (R228). -/
def resDivu (a b : W64) : W64 := if b = 0 then BitVec.allOnes 64 else a / b
/-- DIVU (R228). -/
def execDivu (t : ThreadId) (f : FmtS) (s : State) : Host.Outcome State Fault Refusal := s.scalar2 t (.divu t f) f resDivu
/-- Result of DIV: truncating; divisor 0 gives all ones (R228). -/
def resDiv (a b : W64) : W64 := if b = 0 then BitVec.allOnes 64 else a.sdiv b
/-- DIV (R228). -/
def execDiv (t : ThreadId) (f : FmtS) (s : State) : Host.Outcome State Fault Refusal := s.scalar2 t (.div t f) f resDiv
/-- Result of REMU: divisor 0 gives RA (R228). -/
def resRemu (a b : W64) : W64 := if b = 0 then a else a % b
/-- REMU (R228). -/
def execRemu (t : ThreadId) (f : FmtS) (s : State) : Host.Outcome State Fault Refusal := s.scalar2 t (.remu t f) f resRemu
/-- Result of REM: divisor 0 gives RA (R228). -/
def resRem (a b : W64) : W64 := if b = 0 then a else a.srem b
/-- REM (R228). -/
def execRem (t : ThreadId) (f : FmtS) (s : State) : Host.Outcome State Fault Refusal := s.scalar2 t (.rem t f) f resRem
/-- Result of AND (R228). -/
def resAnd (a b : W64) : W64 := a &&& b
/-- AND (R228). -/
def execAnd (t : ThreadId) (f : FmtS) (s : State) : Host.Outcome State Fault Refusal := s.scalar2 t (.and t f) f resAnd
/-- Result of OR (R228). -/
def resOr (a b : W64) : W64 := a ||| b
/-- OR (R228). -/
def execOr (t : ThreadId) (f : FmtS) (s : State) : Host.Outcome State Fault Refusal := s.scalar2 t (.or t f) f resOr
/-- Result of XOR (R228). -/
def resXor (a b : W64) : W64 := a ^^^ b
/-- XOR (R228). -/
def execXor (t : ThreadId) (f : FmtS) (s : State) : Host.Outcome State Fault Refusal := s.scalar2 t (.xor t f) f resXor
/-- Result of SHL by RB[5:0] (R228). -/
def resShl (a b : W64) : W64 := a <<< (b.toNat % 64)
/-- SHL (R228). -/
def execShl (t : ThreadId) (f : FmtS) (s : State) : Host.Outcome State Fault Refusal := s.scalar2 t (.shl t f) f resShl
/-- Result of SHR by RB[5:0] (R228). -/
def resShr (a b : W64) : W64 := a >>> (b.toNat % 64)
/-- SHR (R228). -/
def execShr (t : ThreadId) (f : FmtS) (s : State) : Host.Outcome State Fault Refusal := s.scalar2 t (.shr t f) f resShr
/-- Result of SAR by RB[5:0] (R228). -/
def resSar (a b : W64) : W64 := a.sshiftRight (b.toNat % 64)
/-- SAR (R228). -/
def execSar (t : ThreadId) (f : FmtS) (s : State) : Host.Outcome State Fault Refusal := s.scalar2 t (.sar t f) f resSar
/-- Result of MIN, signed (R228). -/
def resMin (a b : W64) : W64 := if a.sle b then a else b
/-- MIN (R228). -/
def execMin (t : ThreadId) (f : FmtS) (s : State) : Host.Outcome State Fault Refusal := s.scalar2 t (.min t f) f resMin
/-- Result of MAX, signed (R228). -/
def resMax (a b : W64) : W64 := if b.sle a then a else b
/-- MAX (R228). -/
def execMax (t : ThreadId) (f : FmtS) (s : State) : Host.Outcome State Fault Refusal := s.scalar2 t (.max t f) f resMax
/-- Result of MINU (R228). -/
def resMinu (a b : W64) : W64 := if a ≤ b then a else b
/-- MINU (R228). -/
def execMinu (t : ThreadId) (f : FmtS) (s : State) : Host.Outcome State Fault Refusal := s.scalar2 t (.minu t f) f resMinu
/-- Result of MAXU (R228). -/
def resMaxu (a b : W64) : W64 := if b ≤ a then a else b
/-- MAXU (R228). -/
def execMaxu (t : ThreadId) (f : FmtS) (s : State) : Host.Outcome State Fault Refusal := s.scalar2 t (.maxu t f) f resMaxu
/-- Result of SLT (R228). -/
def resSlt (a b : W64) : W64 := if a.slt b then 1 else 0
/-- SLT (R228). -/
def execSlt (t : ThreadId) (f : FmtS) (s : State) : Host.Outcome State Fault Refusal := s.scalar2 t (.slt t f) f resSlt
/-- Result of SLTU (R228). -/
def resSltu (a b : W64) : W64 := if a < b then 1 else 0
/-- SLTU (R228). -/
def execSltu (t : ThreadId) (f : FmtS) (s : State) : Host.Outcome State Fault Refusal := s.scalar2 t (.sltu t f) f resSltu
/-- Result of SEQ (R228). -/
def resSeq (a b : W64) : W64 := if a = b then 1 else 0
/-- SEQ (R228). -/
def execSeq (t : ThreadId) (f : FmtS) (s : State) : Host.Outcome State Fault Refusal := s.scalar2 t (.seq t f) f resSeq
/-- Result of FADD (R228). -/
def resFadd (a b : W64) : W64 := w32 (fpAdd fFP32 (lo32 a) (lo32 b))
/-- FADD (R228). -/
def execFadd (t : ThreadId) (f : FmtS) (s : State) : Host.Outcome State Fault Refusal := s.scalar2 t (.fadd t f) f resFadd
/-- Result of FSUB (R228). -/
def resFsub (a b : W64) : W64 := w32 (fpSub fFP32 (lo32 a) (lo32 b))
/-- FSUB (R228). -/
def execFsub (t : ThreadId) (f : FmtS) (s : State) : Host.Outcome State Fault Refusal := s.scalar2 t (.fsub t f) f resFsub
/-- Result of FMUL (R228). -/
def resFmul (a b : W64) : W64 := w32 (fpMul fFP32 (lo32 a) (lo32 b))
/-- FMUL (R228). -/
def execFmul (t : ThreadId) (f : FmtS) (s : State) : Host.Outcome State Fault Refusal := s.scalar2 t (.fmul t f) f resFmul
/-- Result of FDIV (R228). -/
def resFdiv (a b : W64) : W64 := w32 (fpDiv fFP32 (lo32 a) (lo32 b))
/-- FDIV (R228). -/
def execFdiv (t : ThreadId) (f : FmtS) (s : State) : Host.Outcome State Fault Refusal := s.scalar2 t (.fdiv t f) f resFdiv
/-- Result of FMIN (R228). -/
def resFmin (a b : W64) : W64 := w32 (fpMinMax fFP32 false (lo32 a) (lo32 b))
/-- FMIN (R228). -/
def execFmin (t : ThreadId) (f : FmtS) (s : State) : Host.Outcome State Fault Refusal := s.scalar2 t (.fmin t f) f resFmin
/-- Result of FMAX (R228). -/
def resFmax (a b : W64) : W64 := w32 (fpMinMax fFP32 true (lo32 a) (lo32 b))
/-- FMAX (R228). -/
def execFmax (t : ThreadId) (f : FmtS) (s : State) : Host.Outcome State Fault Refusal := s.scalar2 t (.fmax t f) f resFmax
/-- Result of FLT (R228). -/
def resFlt (a b : W64) : W64 := if fpLt fFP32 (lo32 a) (lo32 b) then 1 else 0
/-- FLT (R228). -/
def execFlt (t : ThreadId) (f : FmtS) (s : State) : Host.Outcome State Fault Refusal := s.scalar2 t (.flt t f) f resFlt

/-- LI: RD := IMM48, sign-extended (R224, R228). -/
def execLi (t : ThreadId) (f : FmtL) (s : State) : Host.Outcome State Fault Refusal :=
  s.run fun p => p.issue t (.li t f) fun p th => .ok (p.setThr t (th.setS f.rd.toNat (f.imm.signExtend 64)))

/-- FFMA: RA × RB + RC with one rounding (R228). -/
def execFfma (t : ThreadId) (f : FmtS) (s : State) : Host.Outcome State Fault Refusal :=
  s.run fun p => p.issue t (.ffma t f) fun p th =>
    .ok (p.setThr t (th.setS f.rd.toNat (w32 (fpFma fFP32 false (lo32 (th.rs f.ra.toNat)) (lo32 (opB th f)) (lo32 (th.rs f.rc.toNat))))))

/-- Signed 64-bit integer rounded to FP32, RNE. -/
def resFcvtif (a : W64) : W64 := w32 (fltIeee fFP32 .rne (intVal 64 a.toNat)).code
/-- FCVTIF (R228). -/
def execFcvtif (t : ThreadId) (f : FmtS) (s : State) : Host.Outcome State Fault Refusal :=
  s.scalar0 t (.fcvtif t f) f fun _ th => resFcvtif (th.rs f.ra.toNat)

/-- FP32 rounded to a signed 64-bit integer, RNE, saturating; NaN gives 0. -/
def resFcvtfi (a : W64) : W64 := BitVec.ofNat 64 (intConv 64 .rne (fltDec fFP32 (lo32 a))).code
/-- FCVTFI (R228). -/
def execFcvtfi (t : ThreadId) (f : FmtS) (s : State) : Host.Outcome State Fault Refusal :=
  s.scalar0 t (.fcvtfi t f) f fun _ th => resFcvtfi (th.rs f.ra.toNat)

/-- SETVL: a value above 1,048,576 faults ILLEGAL_OPERAND (R190, R228). -/
def execSetvl (t : ThreadId) (f : FmtS) (s : State) : Host.Outcome State Fault Refusal :=
  s.run fun p => p.issue t (.setvl t f) fun p th =>
    if 1048576 < (opB th f).toNat then .fault fIllegalOperand
    else .ok (p.setThr t { th with vl := (opB th f).setWidth 21 })

/-- SETVM: non-zero reserved bits [62:22] fault ILLEGAL_OPERAND (R191, R228). -/
def execSetvm (t : ThreadId) (f : FmtS) (s : State) : Host.Outcome State Fault Refusal :=
  s.run fun p => p.issue t (.setvm t f) fun p th =>
    if fld (opB th f).toNat 22 41 != 0 then .fault fIllegalOperand
    else .ok (p.setThr t { th with vm := opB th f })

/-- GETVL (R228). -/
def execGetvl (t : ThreadId) (f : FmtS) (s : State) : Host.Outcome State Fault Refusal :=
  s.scalar0 t (.getvl t f) f fun _ th => th.vl.setWidth 64
/-- GETVM (R228). -/
def execGetvm (t : ThreadId) (f : FmtS) (s : State) : Host.Outcome State Fault Refusal :=
  s.scalar0 t (.getvm t f) f fun _ th => th.vm
/-- GETST: the status word (R216, R228). -/
def execGetst (t : ThreadId) (f : FmtS) (s : State) : Host.Outcome State Fault Refusal :=
  s.scalar0 t (.getst t f) f fun _ th => th.st
/-- CLRST clears the flags set in RB or IMM32 (R228). -/
def execClrst (t : ThreadId) (f : FmtS) (s : State) : Host.Outcome State Fault Refusal :=
  s.run fun p => p.issue t (.clrst t f) fun p th => .ok (p.setThr t { th with st := th.st &&& ~~~(opB th f) })

/-- Item value of RDINFO: rank, thread count, kind, context, slot, live-core count. -/
def infoOf (th : Thr) (sel : Nat) : Option Nat :=
  match sel with
  | 0 => some th.rank | 1 => some th.nthr | 2 => some th.kind | 3 => some th.ctx | 4 => some th.slot | 5 => some th.nlive
  | _ => none
/-- RDINFO; other selectors fault ILLEGAL_OPERAND (R228). -/
def execRdinfo (t : ThreadId) (f : FmtS) (s : State) : Host.Outcome State Fault Refusal :=
  s.run fun p => p.issue t (.rdinfo t f) fun p th =>
    match infoOf th (opB th f).toNat with
    | some v => .ok (p.setThr t (th.setS f.rd.toNat (BitVec.ofNat 64 v)))
    | none => .fault fIllegalOperand
/-- RDIC: the die's interval counter (R27, R228). -/
def execRdic (t : ThreadId) (f : FmtS) (s : State) : Host.Outcome State Fault Refusal :=
  s.scalar0 t (.rdic t f) f fun p _ => BitVec.ofNat 64 (p.icount (dieOfCore (coreOf t)))

end Sys2Proof.Machine
end

