-- ==== Sys2Proof/Machine/Tap.lean ====
section
/-! DEFINITION. The IEEE 1149.1 test access port (R517 to R520, R523). -/

namespace Sys2Proof.Machine

/-- Boundary cells (R519). -/
def tapCells : Nat := 602
/-- Select an instruction of Table 20.10; every input is ignored while VAUX is out of range (R509), and one that is not legal now acts
as BYPASS (R518). -/
def Pkg.tapSelect (p : Pkg) (code : Nat) (pins : Bool) : Pkg :=
  if !p.pwr.vauxOk then p
  else
    let code := if pins && !(p.pwr.pwrGood && p.pwr.resetLow) then 0xFF else code
    let p := { p with tap := { p.tap with inst := code } }
    if code = 0xFF then p.emit (.tdo [false]) else p
/-- The identification register (R517), bit 0 first. -/
def Pkg.idcode (p : Pkg) : List Bool :=
  let v := put 0 1 1 + put 1 11 Config.jedecId + put 12 16 0x5632 + put 28 4 (p.aHStep.getD Config.headStep.toNat)
  (List.range 32).map fun i => bit v i

/-- JTAG_IDCODE (R518). -/
def execJtagIdcode (s : State) : Host.Outcome State Fault Refusal :=
  s.run fun p => if p.pwr.vauxOk then (p.tapSelect 1 false).emit (.tdo p.idcode) else p
/-- JTAG_SAMPLE_PRELOAD (R518, R519): the lands as sampled, cell 0 first; the cells take what is shifted in. Levels of the lanes, clocks and
straps are free values. -/
def execJtagSamplePreload (cells : List Bool) (s : State) : Host.Outcome State Fault Refusal :=
  s.run fun p =>
    if !p.pwr.vauxOk then p
    else
      let (x, p) := (p.tapSelect 2 false).take tapCells
      let land (i : Nat) : Bool :=
        if i = 597 then p.pwr.pwrGood else if i = 598 then !p.pwr.resetLow else if i = 600 then !p.pwr.thermtrip
        else if i = 601 then !p.alert else bit x i
      let p := p.emit (.tdo ((List.range tapCells).map land))
      { p with tap := { p.tap with cells := ((cells.take tapCells).zipIdx).foldl (fun t c => tabSet false t c.2 c.1) p.tap.cells } }
/-- JTAG_EXTEST (R518). -/
def execJtagExtest (s : State) : Host.Outcome State Fault Refusal := s.run fun p => p.tapSelect 3 true
/-- JTAG_EXTEST_PULSE (R518). -/
def execJtagExtestPulse (s : State) : Host.Outcome State Fault Refusal := s.run fun p => p.tapSelect 4 true
/-- JTAG_EXTEST_TRAIN (R518). -/
def execJtagExtestTrain (s : State) : Host.Outcome State Fault Refusal := s.run fun p => p.tapSelect 5 true
/-- JTAG_CLAMP (R518). -/
def execJtagClamp (s : State) : Host.Outcome State Fault Refusal := s.run fun p => p.tapSelect 6 true
/-- JTAG_HIGHZ (R518). -/
def execJtagHighz (s : State) : Host.Outcome State Fault Refusal := s.run fun p => p.tapSelect 7 true
/-- JTAG_BYPASS (R518): also every code of no instruction. -/
def execJtagBypass (s : State) : Host.Outcome State Fault Refusal := s.run fun p => p.tapSelect 0xFF false
/-- TRST_N_ASSERT (R520, R523): Test-Logic-Reset, and the lands return to device control. -/
def execTrstNAssert (s : State) : Host.Outcome State Fault Refusal :=
  s.run fun p => if p.pwr.vauxOk then { p with tap := { p.tap with inst := 1 } } else p

end Sys2Proof.Machine
end

