-- ==== Sys2Proof/Machine/Tile.lean ====
section
/-! DEFINITION. The tile class and the matrix engine (chapter 6): TMMA, TGEMV, ACC_SWAP, and the engine's events. -/

namespace Sys2Proof.Machine

/-! ## Descriptor tests (R160, R163 to R165, R176, R232) -/

/-- Operand pairs of Table 6.1, in one order. -/
def pairHalf (a b : Nat) : Bool :=
  ((a == 0 || a == 1) && (b == 0 || b == 1)) || (a == 2 && b == 2) ||
    (decide (4 ≤ a) && decide (a ≤ 9) && (b == 0 || b == 1 || (decide (4 ≤ b) && decide (b ≤ 9)))) ||
    (a == 10 && (b == 10 || b == 2)) ||
    (a == 11 && (b == 11 || b == 0 || b == 1 || (decide (4 ≤ b) && decide (b ≤ 9)))) ||
    (a == 3 && (b == 10 || (decide (6 ≤ b) && decide (b ≤ 9))))
/-- Operand pairs of Table 6.1, in either order. -/
def fmtPairOk (a b : Nat) : Bool := pairHalf a b || pairHalf b a

/-- Reserved bits of a structure, as (low bit, width). -/
def resZero (d : Rec) (l : List (Nat × Nat)) : Bool := l.all fun x => fld d x.1 x.2 == 0

/-- Reserved bits of Table 6.2. -/
def tileRes (d : Rec) : Bool :=
  resZero d [(22, 10), (54, 10), (86, 10), (118, 10), (150, 10), (182, 10), (212, 12), (244, 12), (295, 1), (303, 1), (332, 4), (346, 6), (382, 130)]

/-- Operands A and B of a tile descriptor as arrays of stored rows. -/
def arrA (d : Rec) : Arr := ⟨fld d 320 4, fld d 0 22, fld d 32 22, fld d 64 22, fld d 352 8, fld d 192 20, fld d 256 16⟩
def arrB (d : Rec) : Arr := ⟨fld d 324 4, fld d 96 22, fld d 128 22, fld d 160 22, fld d 360 8, fld d 224 20, fld d 272 16⟩
def tileM (d : Rec) : Nat := fld d 288 7 + 1
def tileN (d : Rec) : Nat := fld d 296 7 + 1
def tileK (d : Rec) : Nat := fld d 304 16 + 1
def tileG (d : Rec) : Nat := fld d 368 14 + 1
/-- Stored rows of an operand, and their length in elements (R165, R180). -/
def shapeA (gemv : Bool) (d : Rec) : Nat × Nat :=
  if gemv then (tileG d, tileK d) else if bit d 328 then (tileK d, tileM d) else (tileM d, tileK d)
def shapeB (gemv : Bool) (d : Rec) : Nat × Nat :=
  if gemv then (1, tileK d) else if bit d 329 then (tileK d, tileN d) else (tileN d, tileK d)

/-- Scratchpad ranges of an array of n stored rows of m elements. -/
def arrRanges (a : Arr) (n m : Nat) : List (Nat × Nat) :=
  ((List.range n).map fun r =>
    [(a.base + r * a.pitch, rowBytes a.fmt m)] ++
      (if fmtBlock a.fmt then [(a.scale + r * a.spitch, scaleBytes a.fmt m)] else []) ++
      (if a.fmt = 1 then [(a.rscale + r, 1)] else [])).flatten
/-- First fault of a list of scratchpad ranges. -/
def Pkg.rangesTest (p : Pkg) (t : Nat) (rs : List (Nat × Nat)) (write : Bool) : Option Nat :=
  firstFault (rs.map fun r => p.spTest t r.1 r.2 write)
/-- Does a list of ranges hold an uncorrectable word? -/
def Pkg.rangesBad (p : Pkg) (g : Nat) (rs : List (Nat × Nat)) : Bool := rs.any fun r => p.spBadIn g r.1 r.2
def tileRanges (gemv : Bool) (d : Rec) : List (Nat × Nat) :=
  arrRanges (arrA d) (shapeA gemv d).1 (shapeA gemv d).2 ++ arrRanges (arrB d) (shapeB gemv d).1 (shapeB gemv d).2

/-- Faults of a tile descriptor at issue (R160, R164, R165, R180, R226, R232). -/
def Pkg.tileTest (p : Pkg) (t : Nat) (gemv : Bool) (d : Rec) : Option Nat :=
  let fa := fld d 320 4
  let fb := fld d 324 4
  if !tileRes d || 12 ≤ fa || 12 ≤ fb || !fmtPairOk fa fb then some fIllegalEncoding
  else if gemv && (bit d 328 || fld d 296 7 != 0) then some fIllegalEncoding
  else if !gemv && fld d 368 14 != 0 then some fIllegalEncoding
  else if fld d 0 3 != 0 || fld d 96 3 != 0 || fld d 192 3 != 0 || fld d 224 3 != 0 then some fAlignment
  else p.rangesTest t (tileRanges gemv d) false

/-! ## Issue -/

/-- TMMA or TGEMV for thread t (R162, R180, R182, R183). -/
def Pkg.tileIssue (p : Pkg) (t : Nat) (gemv : Bool) (i : Instr) (f : FmtD) (th : Thr) : IRes :=
  let g := coreOf t
  let w := (encode i).getD 0
  let c := p.core g
  let addr := (th.ra f.ar.toNat).toNat
  let owns := c.owner == some t && !(match c.swap with | some d => d.thr == t | none => false)
  let parkedOwn := c.parked.any fun o => o.thr == t
  match descTest g addr 64 with
  | some e => .fault e
  | none =>
    if p.spBadIn g (windowOff addr) 64 then .stop (p.spPoison t th.pc.toNat w) else
    let d := p.num addr 64
    match p.tileTest t gemv d with
    | some e => .fault e
    | none =>
      let start := bit d 330
      let op : TileOp := { thr := t, gemv := gemv, desc := d, pc := th.pc.toNat, inst := w, snap := if start then some (snapOf th (th.pc + 1)) else none }
      if owns then
        let c := c.widen op
        let c := if c.running.isEmpty then c.opHead op else c
        .ok ((p.spRead g (windowOff addr) 64).setCore g { c with running := c.running ++ [op] })
      else if !start then (if parkedOwn then .again p .park else .fault fEngineOwner)
      else match c.owner with
        | none => .ok ((p.spRead g (windowOff addr) 64).takeStart g op)
        | some o =>
          let p := (p.spRead g (windowOff addr) 64).setCore g { c with parked := c.parked ++ [op] }
          if p.thrLc t && !p.thrLc o then .ok ((p.engRevoke g).engGrant g none) else .ok p

/-- TMMA (R162). -/
def execTmma (t : ThreadId) (f : FmtD) (s : State) : Host.Outcome State Fault Refusal :=
  s.run fun p => p.issue t (.tmma t f) fun p th => p.tileIssue t false (.tmma t f) f th
/-- TGEMV (R180). -/
def execTgemv (t : ThreadId) (f : FmtD) (s : State) : Host.Outcome State Fault Refusal :=
  s.run fun p => p.issue t (.tgemv t f) fun p th => p.tileIssue t true (.tgemv t f) f th

/-- Rows and columns of the drained region of the open sequence (R175, R180). -/
def CoreS.region (c : CoreS) : Nat × Nat :=
  let gr := if c.seqGemv = 0 then (0, 0) else if c.seqGemv < 128 then (1, c.seqGemv) else (ceilDiv c.seqGemv 128, 128)
  (Nat.max c.seqRows gr.1, Nat.max c.seqCols gr.2)

/-- Entries of a context's tracking table. -/
def Pkg.trackCount (p : Pkg) (c : Nat) : Nat := match p.roleBase c 1 with | some r => Nat.min 4096 (r.pages * 512) | none => 0

/-- Reserved bits of Table 6.6. -/
def drainRes (d : Rec) : Bool := resZero d [(22, 10), (54, 10), (86, 10), (116, 12), (154, 2), (182, 10), (212, 12), (320, 192)]
/-- Scratchpad ranges of a drain's vector or records (R176, R179). -/
def drainVec (d : Drain) : List (Nat × Nat) :=
  let b := fld d.desc 160 22
  match fld d.desc 156 4 with
  | 1 => [(b, 4 * d.cols)] | 2 => [(b, 4 * d.rows)]
  | 3 => [(b, 16 * d.rows)] | 4 => [(b, 16 * d.rows)] | 5 => [(b, 16 * d.cols)] | 6 => [(b, 16 * d.cols)]
  | _ => []
/-- Faults of a drain descriptor at issue (R151, R164, R176, R226). -/
def Pkg.drainTest (p : Pkg) (t : Nat) (d : Drain) : Option Nat :=
  let k := d.desc
  let f := fld k 144 4
  let post := fld k 156 4
  let nw := bit k 152
  if !drainRes k || f = 3 || 14 ≤ f || fld k 148 2 = 3 || 7 ≤ post || (nw && post ≤ 2) then some fIllegalEncoding
  else if fld k 0 3 != 0 || fld k 96 3 != 0 then some fAlignment
  else if bit k 153 && p.trackCount (p.thr t).ctx ≤ fld k 200 12 then some fIllegalOperand
  else match p.rangesTest t (drainRanges d) true with
    | some c => some c
    | none => p.rangesTest t (drainVec d) (decide (3 ≤ post))

/-- ACC_SWAP: ends the thread's sequence; the swap waits for the engine (R175, R182). -/
def execAccSwap (t : ThreadId) (f : FmtD) (s : State) : Host.Outcome State Fault Refusal :=
  s.run fun p => p.issue t (.accSwap t f) fun p th => needTag th f.tag.toNat p <|
    let g := coreOf t
    let w := (encode (.accSwap t f)).getD 0
    let c := p.core g
    let addr := (th.ra f.ar.toNat).toNat
    let owns := c.owner == some t.val && !(match c.swap with | some d => d.thr == t.val | none => false)
    if !owns then (if c.parked.any fun o => o.thr == t.val then .again p .park else .fault fEngineOwner)
    else match descTest g addr 64 with
      | some e => .fault e
      | none =>
        if p.spBadIn g (windowOff addr) 64 then .stop (p.spPoison t th.pc.toNat w) else
        let rg := c.region
        let d : Drain := { thr := t, tag := f.tag.toNat, desc := p.num addr 64, pc := th.pc.toNat, inst := w, bgId := th.bgNext, rows := rg.1, cols := rg.2, gemvRows := c.seqGemv }
        match p.drainTest t d with
        | some e => .fault e
        | none => .ok (((p.spRead g (windowOff addr) 64).setThr t (th.addBg f.tag.toNat w .engine)).modCore g fun c => { c with swap := some d })

/-! ## A K-chunk (R166 to R172) -/

/-- Sum of a chunk's products in one cell: summation blocks of 16, each rounded to the least significant bit
(R166, R167), and the state they bring. -/
def chunkSum (e : Int) (av bv : List Val) : Int × Nat :=
  let ps := (av.zip bv).map fun x => valMul x.1 x.2
  let bs := blocksOf 16 ps.length ps
  (bs.foldl (fun c b => c + qRne (qShift (b.foldl (fun q v => qAdd q (valQ v)) qZero) (47 - e))) 0, ps.foldl (fun s v => combineSt s (valSt v)) 0)

/-- One cell after a chunk: key, chunk sum, new state, s, and its shift d (0 passes) (R170). -/
structure CellRes where
  key : Nat
  c : Int
  st : Nat
  s : Int
  d : Nat
  deriving DecidableEq, Repr
def inBits (k : Nat) (v : Int) : Bool := decide (-(2 ^ k : Nat) ≤ v) && decide (v < (2 ^ k : Nat))
def shiftOf (c s : Int) : Nat :=
  if !inBits 63 c then 17
  else if inBits 47 s then 0
  else ((List.range 17).find? fun d => inBits (48 + d) s).getD 16 + 1
def cellRes (set : AccSet) (key : Nat) (av bv : List Val) : CellRes :=
  let x := tabGet ({} : Cell) set.cells key
  let r := chunkSum set.exp av bv
  let st := combineSt x.st r.2
  let s := x.acc + r.1
  ⟨key, r.1, st, s, if st = 0 then shiftOf r.1 s else 0⟩
/-- Value a saturated cell takes (R171). -/
def satVal (r : CellRes) : Int :=
  let v := if inBits 63 r.c then r.s else r.c
  if 0 < v then 2 ^ 47 - 1 else -(2 ^ 47)

/-- Operand values of a chunk: L positions from k0, per row of C and per column of C (R165, R180). -/
def Pkg.chunkA (p : Pkg) (g : Nat) (op : TileOp) (k0 l : Nat) : List (List Val) :=
  let d := op.desc
  let n := if op.gemv then tileG d else tileM d
  (List.range n).map fun i => (List.range l).map fun k =>
    if !op.gemv && bit d 328 then p.eltVal g (arrA d) (k0 + k) i else p.eltVal g (arrA d) i (k0 + k)
def Pkg.chunkB (p : Pkg) (g : Nat) (op : TileOp) (k0 l : Nat) : List (List Val) :=
  let d := op.desc
  let n := if op.gemv then 1 else tileN d
  (List.range n).map fun j => (List.range l).map fun k =>
    if !op.gemv && bit d 329 then p.eltVal g (arrB d) (k0 + k) j else p.eltVal g (arrB d) j (k0 + k)
/-- Invalid ternary codes among a chunk's operands (R139). -/
def Pkg.chunkTern (p : Pkg) (g : Nat) (op : TileOp) (k0 l : Nat) : Nat :=
  let d := op.desc
  let cnt (a : Arr) (tr : Bool) (n : Nat) : Nat :=
    if a.fmt != 3 then 0 else
    ((List.range n).map fun i => ((List.range l).filter fun k =>
      (if tr then p.eltCode g a (k0 + k) i else p.eltCode g a i (k0 + k)) == 2).length).sum
  cnt (arrA d) (!op.gemv && bit d 328) (if op.gemv then tileG d else tileM d) +
    cnt (arrB d) (!op.gemv && bit d 329) (if op.gemv then 1 else tileN d)

/-- Largest finite magnitude of a chunk operand. -/
def chunkMax (xs : List (List Val)) : Nat × Nat := xs.foldl (fun m r => r.foldl (fun m v => magMax m (valMag v)) m) (0, 1)
/-- Smallest l with n ≤ 2^l. -/
def clog2 (n : Nat) : Nat := if n ≤ 1 then 0 else nlog2 (n - 1) + 1
/-- The tile exponent that R169 chooses. -/
def chooseExp (ma mb : Nat × Nat) (k : Nat) : Int :=
  clampI (flog2 ma.1 ma.2 + flog2 mb.1 mb.2 + 10 + clog2 (ceilDiv k 256)) (-512) 511

/-- The head operation leaves the engine; the next one comes to the head. -/
def CoreS.opDone (c : CoreS) : CoreS :=
  match c.running with
  | [] => c
  | _ :: [] => { c with running := [], chunk := 0, repeats := 0, chosen := true }
  | _ :: op :: rest => ({ c with running := op :: rest, chosen := true }).opHead op
/-- Write cells of the live set. -/
def setCells (set : AccSet) (ws : List (Nat × Cell)) : AccSet :=
  { set with cells := ws.foldl (fun t w => tabSet ({} : Cell) t w.1 w.2) set.cells }
/-- acc := acc / 2^d, nearest even (R170). -/
def rescale (d : Nat) (x : Cell) : Cell := { x with acc := qRne ⟨x.acc, 2 ^ d⟩ }

/-- Chunk end once the operands are known to be readable (R170, R171). -/
def Pkg.chunkRun (p : Pkg) (g : Nat) (op : TileOp) : Pkg :=
  let c := p.core g
  let k := tileK op.desc
  let k0 := 256 * c.chunk
  let l := Nat.min 256 (k - k0)
  let xa := p.chunkA g op k0 l
  let xb := p.chunkB g op k0 l
  let ma := chunkMax xa
  let mb := chunkMax xb
  let pick := !c.chosen && ma.1 != 0 && mb.1 != 0
  let c := if pick then ({ c with chosen := true }).setLive { c.live with exp := chooseExp ma mb k } else c
  let set := c.live
  let rs := (xa.zipIdx.map fun a => xb.zipIdx.map fun b => cellRes set (if op.gemv then a.2 else a.2 * 128 + b.2) a.1 b.1).flatten
  let d := rs.foldl (fun m r => Nat.max m r.d) 0
  let p := if c.repeats = 0 then p.addCtr .fmtTernInvalid (p.thr op.thr).ctx (p.chunkTern g op k0 l) else p
  let p := p.addFree .engBusySteps g
  let next (c : CoreS) : CoreS := if k ≤ k0 + 256 then c.opDone else { c with chunk := c.chunk + 1, repeats := 0 }
  let keep (r : CellRes) : Cell := if r.st = 0 then ⟨r.s, 0⟩ else ⟨(tabGet ({} : Cell) set.cells r.key).acc, r.st⟩
  if d = 0 then p.setCore g (next (c.setLive (setCells set (rs.map fun r => (r.key, keep r)))))
  else
    let limit := decide (511 < set.exp + d)
    if c.repeats < 3 && !limit then
      let cells := set.cells.foldl (fun t e => tabSet ({} : Cell) t e.1 (rescale d e.2)) []
      let c := c.setLive { cells := cells, exp := set.exp + d }
      ((p.setCore g { c with repeats := c.repeats + 1, seqRepeats := c.seqRepeats + 1 }).bump .engRepeat g).setFlag .engStatus g 1
    else
      let bad := rs.filter fun r => r.d != 0
      let c := c.setLive (setCells set (rs.map fun r => (r.key, if r.d = 0 then keep r else ⟨satVal r, 0⟩)))
      let p := p.setCore g { next c with seqSat := Nat.min 0xFFFF (c.seqSat + bad.length) }
      let p := ((p.addCtr .engSatCells g bad.length).setFlag .engStatus g 0).modThr op.thr fun t => { t with st := t.st ||| 1#64 }
      if limit && decide (c.repeats < 3) then (p.bump .engExpLimit g).setFlag .engStatus g 4 else p

/-- TILE_CHUNK_END: a K-chunk of the running operation ends (R170); an uncorrectable operand word faults (R245). -/
def execTileChunkEnd (c : CoreId) (s : State) : Host.Outcome State Fault Refusal :=
  s.run fun p =>
    match (p.core c).running with
    | [] => p
    | op :: _ =>
      if p.rangesBad c (tileRanges op.gemv op.desc) then p.spPoison op.thr op.pc op.inst
      else (p.chunkRun c op).spReads c (tileRanges op.gemv op.desc)

/-- SWAP_TAKE_EFFECT: live and shadow sets exchange, the drain starts, the engine decides (R175, R183). -/
def execSwapTakeEffect (c : CoreId) (s : State) : Host.Outcome State Fault Refusal :=
  s.run fun p =>
    let k := p.core c
    match k.swap with
    | none => p
    | some d =>
      if !k.running.isEmpty || k.drain.isSome then p else
      let k := { k with
        liveB := !k.liveB, swap := none, drain := some d
        engLast := BitVec.ofNat 64 (k.seqRepeats % 65536 + 65536 * k.seqSat) }
      ((p.setCore c k).engGrant c (some d.thr)).ctxEval (p.thr d.thr).ctx

/-! ## The drain (R177, R179) -/

/-- Exact value of a cell; a NaN cell has no sign the manual states. -/
def cellVal (e : Int) (key : Nat) (x : Cell) : Val :=
  match x.st with
  | 0 => qVal (qShift ⟨x.acc, 1⟩ (e - 47)) false
  | 1 => .inf false
  | 2 => .inf true
  | _ => .nan (Config.nanSign 300 key 0 0)

/-- Is candidate a strictly better than b (R179)? NaN wins. -/
def better (max : Bool) (a b : Val) : Bool :=
  if valNan b then false else if valNan a then true else if max then valLt b a else valLt a b
/-- A winner with its index: the earlier of equals. -/
def pick (max : Bool) (a b : Val × Nat × Rec) : Val × Nat × Rec :=
  if better max b.1 a.1 then b
  else if better max a.1 b.1 then a
  else if b.2.1 < a.2.1 then b else a

/-- A reduction record as value and index (Table 6.9). -/
def recVal (r : Rec) : Val :=
  match fld r 58 2 with
  | 0 => qVal (qShift ⟨sgn 48 (fld r 0 48), 1⟩ (sgn 10 (fld r 48 10) - 47)) false
  | 1 => .inf false
  | 2 => .inf true
  | _ => .nan (bit r 127)
/-- The record of a winning cell. -/
def mkRecord (acc e : Int) (st idx value : Nat) : Rec :=
  put 0 48 (unsgn 48 acc) + put 48 10 (unsgn 10 e) + put 58 2 st + put 60 1 1 + put 64 32 idx + put 96 32 value
/-- Merge a candidate into the record at an offset (R179). -/
def Pkg.mergeRecord (p : Pkg) (g off : Nat) (max : Bool) (cand : Val × Nat × Rec) : Pkg :=
  let old := p.spNum g off 16
  let win := if bit old 60 then pick max (recVal old, fld old 64 32, old) cand else cand
  if bit old 60 && win.2.2 == old then p else p.spStore g off (toLe 16 win.2.2)

/-- Key, seed and micro-batch of a thread's item for draws (R153, R203). -/
def Pkg.itemKeyOf (p : Pkg) (t : Nat) : Nat × Nat :=
  match p.theItem t with
  | some i => (itemKey (fld (p.ctx (p.thr t).ctx).record 128 128) (fld i.desc 256 64), dMb i.desc)
  | none => (0, 0)
/-- SCALE_CUR of a tracking entry (R155). -/
def Pkg.scaleCur (p : Pkg) (c idx : Nat) : Nat :=
  match p.roleBase c 1 with
  | some r => p.loadNum (r.base + 128 * idx + 18) 1
  | none => 127
/-- Tracking of a conversion by the thread's item, and the non-finite flag of its context (R156, R157). -/
def Pkg.trackConv (p : Pkg) (t : Nat) (en : Bool) (idx : Nat) (s : CvtStats) : Pkg :=
  let p := if en then p.modPos (p.itemOf t).1 (p.itemOf t).2 fun i => { i with track := tabMod 0 i.track idx fun r => trackAdd r s } else p
  if s.nonfin = 0 then p else p.nonfinite (p.thr t).ctx (dieOfCore (coreOf t)) (coreOf t)

/-- All writes of a drain, and its merges (R177, R179). -/
def Pkg.drainRun (p : Pkg) (g : Nat) (d : Drain) : Pkg :=
  let k := d.desc
  let set := (p.core g).shadow
  let t := d.thr
  let post := fld k 156 4
  let vb := fld k 160 22
  let key := p.itemKeyOf t
  let cell (i j : Nat) : Cell := tabGet ({} : Cell) set.cells (i * 128 + j)
  let raw (i j : Nat) : Val := cellVal set.exp (i * 128 + j) (cell i j)
  let vec (n : Nat) : Val := fltDec fFP32 (p.spNum g (vb + 4 * n) 4)
  let val (i j : Nat) : Val := if post = 1 then valMul (raw i j) (vec j) else if post = 2 then valMul (raw i j) (vec i) else raw i j
  let src (i j : Nat) : SrcEl := ⟨val i j, true, draw16 key.1 key.2 (fld k 224 32) 1 (fld k 288 32 + i * d.cols + j)⟩
  let en := bit k 153
  let sp : CvtSpec := ⟨fld k 144 4, fld k 148 2, bit k 150, if en then p.scaleCur (p.thr t).ctx (fld k 200 12) else fld k 192 8, false⟩
  let sh := drainShape d
  let rows := if bit k 152 then [] else (List.range sh.1).map fun r =>
    cvtRow sp ((List.range sh.2).map fun n => if bit k 151 then src n r else src r n)
  let q := rows.zipIdx.foldl (fun q x =>
    let q := q.putCodes g sp.fmt (fld k 0 22 + x.2 * fld k 96 20) 0 x.1.codes (x.1.codes.map fun _ => false)
    q.putScales g sp.fmt (fld k 32 22 + x.2 * fld k 128 16) (fld k 64 22 + x.2) x.1) p
  let stats := rows.foldl (fun a r => a.add r.stats) {}
  let q := q.trackConv t (en && !bit k 152) (fld k 200 12) stats
  let any := (List.range d.rows).any fun i => (List.range d.cols).any fun j => (cell i j).st != 0
  let q := if any then q.nonfinite (p.thr t).ctx (dieOfCore g) g else q
  let q := if any || stats.nonfin != 0 then q.setFlag .engStatus g 2 else q
  let cand (i j n : Nat) : Val × Nat × Rec :=
    let x := cell i j
    let acc : Int := if x.st = 0 then x.acc else (Config.freeValue (p.free + i * 128 + j) : Int)
    (raw i j, fld k 256 32 + n, mkRecord acc set.exp x.st (fld k 256 32 + n) (fltIeee fFP32 .rne (raw i j)).code)
  let red (q : Pkg) (max row : Bool) : Pkg :=
    let n := if row then d.rows else d.cols
    let m := if row then d.cols else d.rows
    (List.range n).foldl (fun q r =>
      let cs := (List.range m).map fun c => if row then cand r c c else cand c r c
      match cs with
      | [] => q
      | x :: xs => q.mergeRecord g (vb + 16 * r) max (xs.foldl (pick max) x)) { q with free := q.free + 16384 }
  match post with
  | 3 => red q true true | 4 => red q false true | 5 => red q true false | 6 => red q false false
  | _ => q

/-- DRAIN_COMPLETE: the last write finishes, records merge, the ACC_SWAP tag completes (R178, R179). -/
def execDrainComplete (c : CoreId) (s : State) : Host.Outcome State Fault Refusal :=
  s.run fun p =>
    match (p.core c).drain with
    | none => p
    | some d =>
      if p.rangesBad c (drainVec d) then p.spPoison d.thr d.pc d.inst else
      let p := ((p.drainRun c d).spReads c (drainVec d)).modCore c fun k => { k with drain := none }
      let p := if (p.core c).swap.isSome && (p.core c).running.isEmpty then p.addFree .engSwapWaitSteps c else p
      (p.endBg d.thr d.bgId).ctxEval (p.thr d.thr).ctx

end Sys2Proof.Machine
end

