-- ==== Sys2Proof/Machine/Trans.lean ====
section
/-! DEFINITION. The functions of R195, R196 and R201 (exponentials, logarithms, hyperbolic, circular and normal functions), as rationals that lie
within 2^−90 of an FP32 ulp of the exact value. They are computed in fixed point with 640 fraction bits by power series. -/

namespace Sys2Proof

/-! ## Fixed point -/

/-- One in fixed point. -/
def fxOne : Int := 2 ^ 640
def fxMul (a b : Int) : Int := a * b / fxOne
/-- A rational in fixed point. -/
def qFx (q : Q) : Int := q.n * fxOne / (q.d : Int)
def fxQ (x : Int) : Q := ⟨x, 2 ^ 640⟩
/-- Σ add n (t n), with t (n + 1) = next n (t n), over as many terms as the fuel. -/
def fxSum (next add : Nat → Int → Int) : Nat → Nat → Int → Int → Int
  | 0, _, _, acc => acc
  | fuel + 1, n, t, acc => fxSum next add fuel (n + 1) (next n t) (acc + add n t)
/-- e^r for r from 0 to ln 2. -/
def fxExp (r : Int) : Int := fxSum (fun n t => fxMul t r / ((n : Int) + 1)) (fun _ t => t) 160 0 fxOne 0
/-- 2 × artanh t for |t| at most 1/3. -/
def fxArtanh2 (t : Int) : Int := 2 * fxSum (fun _ u => fxMul u (fxMul t t)) (fun n u => u / (2 * (n : Int) + 1)) 210 0 t 0
/-- arctan (1 / k). -/
def fxArctan (k : Int) : Int := fxSum (fun _ u => -u / (k * k)) (fun n u => u / (2 * (n : Int) + 1)) 150 0 (fxOne / k) 0
def fxLn2 : Int := fxArtanh2 (fxOne / 3)
def fxPi : Int := 16 * fxArctan 5 - 4 * fxArctan 239
/-- √(2π) and √(2/π). -/
def fxSqrt2Pi : Int := (isqrt (2 * fxPi.toNat * 2 ^ 640) : Nat)
def fxSqrt2OverPi : Int := (isqrt (2 * 2 ^ 1920 / fxPi.toNat) : Nat)
/-- sin r and cos r for |r| at most π/4. -/
def fxSin (r : Int) : Int := fxSum (fun n t => -(fxMul t (fxMul r r)) / ((2 * (n : Int) + 2) * (2 * (n : Int) + 3))) (fun _ t => t) 70 0 r 0
def fxCos (r : Int) : Int := fxSum (fun n t => -(fxMul t (fxMul r r)) / ((2 * (n : Int) + 1) * (2 * (n : Int) + 2))) (fun _ t => t) 70 0 fxOne 0

/-! ## Functions of a rational -/

def qOne : Q := ⟨1, 1⟩
def qNeg (a : Q) : Q := ⟨-a.n, a.d⟩
def qSub (a b : Q) : Q := qAdd a (qNeg b)
/-- a / b for b > 0. -/
def qDivPos (a b : Q) : Q := ⟨a.n * (b.d : Int), a.d * b.n.toNat⟩
/-- The argument cut to ±b: beyond, an FP32 result no longer changes. -/
def qCut (b : Nat) (q : Q) : Q := if qLt ⟨b, 1⟩ q then ⟨b, 1⟩ else if qLt q ⟨-(b : Int), 1⟩ then ⟨-(b : Int), 1⟩ else q
def qExp (x : Q) : Q :=
  let f := qFx x
  let l := fxLn2
  let k := f / l
  qShift (fxQ (fxExp (f - k * l))) k
def qLn (x : Q) : Q :=
  let e := flog2 x.n.toNat x.d
  let m := qShift x (-e)
  let up := qLe ⟨3, 2⟩ m
  let y := qFx (if up then qShift m (-1) else m)
  fxQ (fxArtanh2 ((y - fxOne) * fxOne / (y + fxOne)) + (if up then e + 1 else e) * fxLn2)
def qExp2 (x : Q) : Q := qExp ⟨x.n * fxLn2, x.d * 2 ^ 640⟩
def qLog2 (x : Q) : Q := qDivPos (qLn x) (fxQ fxLn2)
/-- σ(x) = 1 / (1 + e^−x). -/
def qSigmoid (x : Q) : Q :=
  let e := qExp (qNeg (qCut 400 x))
  ⟨e.d, e.d + e.n.toNat⟩
def qTanh (x : Q) : Q :=
  let e := qExp (qShift (qCut 100 x) 1)
  ⟨e.n - e.d, e.d + e.n.toNat⟩
/-- Quadrant and rest of an angle. -/
def qAngle (x : Q) : Int × Int :=
  let f := qFx x
  let h := fxPi / 2
  let k := (f + h / 2) / h
  (k % 4, f - k * h)
def qSin (x : Q) : Q :=
  let a := qAngle x
  fxQ (if a.1 = 0 then fxSin a.2 else if a.1 = 1 then fxCos a.2 else if a.1 = 2 then -fxSin a.2 else -fxCos a.2)
def qCos (x : Q) : Q :=
  let a := qAngle x
  fxQ (if a.1 = 0 then fxCos a.2 else if a.1 = 1 then -fxSin a.2 else if a.1 = 2 then -fxCos a.2 else fxSin a.2)
/-- φ(x), the normal density. -/
def qPhi (x : Q) : Q := qDivPos (qExp (qNeg (qShift (qMul x x) (-1)))) (fxQ fxSqrt2Pi)
/-- Φ(x), the normal distribution, for |x| at most 24: 1/2 + φ(x) (x + x³/3 + x⁵/15 + …). -/
def qNormal (x : Q) : Q :=
  let f := qFx x
  let y := fxMul f f
  qAdd ⟨1, 2⟩ (qMul (qPhi x) (fxQ (fxSum (fun n t => fxMul t y / (2 * (n : Int) + 3)) (fun _ t => t) 1300 0 f 0)))
/-- 2u of GELU_T: 2√(2/π) (x + 0.044715 x³), and its derivative. -/
def qGeluArg (x : Q) : Q := qMul (fxQ (2 * fxSqrt2OverPi)) (qAdd x (qMul ⟨44715, 1000000⟩ (qMul x (qMul x x))))
def qGeluArgD (x : Q) : Q := qMul (fxQ (2 * fxSqrt2OverPi)) (qAdd qOne (qMul ⟨3 * 44715, 1000000⟩ (qMul x x)))
/-- A function that is 0 below −b and its argument (or 1) above b as far as an FP32 result shows. -/
def qTails (b : Nat) (x above : Q) (f : Q → Q) : Q := if qLt x ⟨-(b : Int), 1⟩ then qZero else if qLt ⟨b, 1⟩ x then above else f x

/-- The function of a transcendental operation (26 EXP to 37 COS) at a finite argument: none where the exact function has no value, or,
for SIN and COS, where R196 gives no bound. -/
def exactFn (op : Nat) (x : Q) : Option Q :=
  match op with
  | 26 => some (qExp (qCut 512 x))
  | 27 => some (qExp2 (qCut 512 x))
  | 28 => if 0 < x.n then some (qLn x) else none
  | 29 => if 0 < x.n then some (qLog2 x) else none
  | 30 => some (qTanh x)
  | 31 => some (qSigmoid x)
  | 32 => some (qTails 400 x x fun x => qMul x (qSigmoid x))
  | 33 => some (qTails 24 x x fun x => qMul x (qNormal x))
  | 34 => some (qTails 24 x x fun x => qMul x (qSigmoid (qGeluArg x)))
  | 35 => some (qTails 400 x x fun x => qLn (qAdd qOne (qExp x)))
  | 36 => if x.n.natAbs ≤ 2 ^ 20 * x.d then some (qSin x) else none
  | 37 => if x.n.natAbs ≤ 2 ^ 20 * x.d then some (qCos x) else none
  | _ => none
/-- The derivative of an activation at its input x (R201): 43 DSILU, 44 DGELU, 45 DGELU_T, 46 DSOFTPLUS. -/
def exactD (op : Nat) (x : Q) : Q :=
  match op with
  | 43 => qTails 400 x qOne fun x =>
      let s := qSigmoid x
      qMul s (qAdd qOne (qMul x (qSub qOne s)))
  | 44 => qTails 24 x qOne fun x => qAdd (qNormal x) (qMul x (qPhi x))
  | 45 => qTails 24 x qOne fun x =>
      let s := qSigmoid (qGeluArg x)
      qAdd s (qMul (qMul x (qGeluArgD x)) (qMul s (qSub qOne s)))
  | _ => qSigmoid x

end Sys2Proof
end

