-- ==== Sys2Proof/Machine/VecFn.lean ====
section
/-! DEFINITION. What one element of a vector operation computes (R195 to R201). -/

namespace Sys2Proof.Machine

/-- A free FP32 code for a value the manual does not fix to the bit (R196); a NaN is written in its canonical code (R142). -/
def freeCode (op a b : Nat) : Nat :=
  let c := Config.vecFn op a b % 2 ^ 32
  match fltDec fFP32 c with
  | .nan s => fltNan fFP32 s
  | _ => c
/-- Signed places of FP32: place j ≥ 0 is the code j, a negative one its negative; infinity stands at 2^128. -/
def placeQ (j : Int) : Q :=
  let m := if j.natAbs = fltInf fFP32 false then (2 ^ 128, 1) else fltMag fFP32 j.natAbs
  ⟨if j < 0 then -(m.1 : Int) else m.1, m.2⟩
/-- Does a place lie within k ulp of q, where q itself stands for a value within 2^−64 ulp of it? -/
def within (k : Nat) (q : Q) (j : Int) : Bool :=
  let e := if q.n = 0 then -126 else clampI (flog2 q.n.natAbs q.d) (-126) 127
  let d := qAdd (placeQ j) (qNeg q)
  qLe ⟨d.n.natAbs, d.d⟩ (qShift ⟨(k * 2 ^ 64 + 1 : Nat), 2 ^ 64⟩ (e - 23))
/-- The places within k ulp of q, from the four below to the four above the one next to it. -/
def places (k : Nat) (q : Q) : List Int :=
  let m : Int := (fltIeee fFP32 .rz (.fin false q.n.natAbs q.d)).code
  let m := if q.n < 0 then -m else m
  ((List.range 9).map fun (i : Nat) => m + (i : Int) - 4).filter fun j => decide (j.natAbs ≤ fltInf fFP32 false) && within k q j
/-- A code within k ulp of q (R196): which one of them is a fixed function of the operation and its operands that the manual leaves open,
as is the sign of a zero. Beyond the finite range it is an infinity. -/
def nearCode (op a b k : Nat) (q : Q) : Nat :=
  let c := Config.vecFn op a b
  let ps := places k q
  match ps[c % ps.length]? with
  | some j => signBit fFP32 (if j = 0 then c / 16 % 2 == 1 else decide (j < 0)) + j.natAbs
  | none => fltInf fFP32 (decide (q.n < 0))
/-- The canonical NaN of an operation on operands one of which is NaN (R142). -/
def nanCode (op a b : Nat) (vs : List Val) : Nat := (fltIeee fFP32 .rne (nanOf op a b 0 vs)).code
/-- A result that is an infinity or NaN by the rules of IEEE 754, or lies within k ulp of a finite one. -/
def extCode (op a b k : Nat) (vs : List Val) : Option Val → Nat
  | none => nanCode op a b vs
  | some (.fin s n d) => nearCode op a b k (valQ (.fin s n d))
  | some v => (fltIeee fFP32 .rne v).code

/-- RCP: within 1 ulp of 1 / a (R196). DEDUCED (log 16): at zeros and infinities as DIV is, by IEEE 754. -/
def fnRcp (a : Nat) : Nat :=
  let x := fltDec fFP32 a
  extCode 23 a 0 1 [x] (ieeeDiv (.fin false 1 1) x)
/-- RSQRT: within 1 ulp of 1 / √a (R196). DEDUCED (log 16): at zeros, infinities and negative values as SQRT and DIV are. -/
def fnRsqrt (a : Nat) : Nat :=
  let x := fltDec fFP32 a
  match x with
  | .fin false n d =>
    -- 1/√(n/d) = √(d·n)/n, the integer root being taken at 2^512 times its value
    if n = 0 then extCode 25 a 0 1 [x] (some (.inf false)) else nearCode 25 a 0 1 ⟨(isqrt (d * n * 4 ^ 512) : Nat), n * 2 ^ 512⟩
  | _ => extCode 25 a 0 1 [x] ((ieeeSqrt x).bind (ieeeDiv (.fin false 1 1)))
/-- A transcendental operation: within 2 ulp of the exact function (R196), a NaN of a NaN (R142); free where the manual states no value: at
an infinity, where the function has none, and for SIN and COS beyond 2^20. -/
def fnTrans (op a : Nat) : Nat :=
  let x := fltDec fFP32 a
  match x with
  | .nan _ => nanCode op a 0 [x]
  | .inf _ => freeCode op a 0
  | .fin _ _ _ => match exactFn op (valQ x) with | some q => nearCode op a 0 2 q | none => freeCode op a 0
/-- A derivative from the saved output: within 2 ulp of its formula (R200). DEDUCED (log 16): with an infinite operand the formula is taken by
the rules of IEEE 754. -/
def fnPoly (op a b : Nat) (vs : List Val) (v : Option Val) : Nat := extCode op a b 2 vs v
/-- Exact arithmetic on values by IEEE 754; none is its NaN. -/
def oMul (a b : Option Val) : Option Val := a.bind fun x => b.bind fun y => ieeeMul x y
def oSub (a b : Option Val) : Option Val := a.bind fun x => b.bind fun y => ieeeAdd x (valNegate y)
def vOne : Val := .fin false 1 1
/-- A derivative from the saved input (R201): within 2 ulp of dy times the exact derivative; free where dy or x is infinite. -/
def fnInput (op a b : Nat) : Nat :=
  let y := fltDec fFP32 a
  let x := fltDec fFP32 b
  if valNan y || valNan x then nanCode op a b [y, x]
  else if valFin y && valFin x then nearCode op a b 2 (qMul (valQ y) (exactD op (valQ x)))
  else freeCode op a b
/-- DRELU: dy when y > 0, else +0 (R200). -/
def fnDrelu (dy y : Nat) : Nat := if fpLt fFP32 0 y then canonical fFP32 dy else 0
/-- DSOFTMAX: y × (dy − s), within 2 ulp. -/
def fnDsoftmax (dy y s : Nat) : Nat :=
  let a := fltDec fFP32 dy
  let b := fltDec fFP32 y
  let c := fltDec fFP32 s
  fnPoly 42 dy y [a, b, c] (oMul (some b) (oSub (some a) (some c)))

/-- Result code of one element, and whether an integer saturated. -/
structure Elem where
  code : Nat
  sat : Bool := false
  deriving DecidableEq, Repr

/-- Integer operations of Table 7.2, of width w. -/
def intElem (op w a b c : Nat) : Elem :=
  let x := sgn w a
  let y := sgn w b
  let z := sgn w c
  let lim (v : Int) : Elem :=
    let r := clampI v (-(2 ^ (w - 1) : Nat)) ((2 ^ (w - 1) : Nat) - 1)
    ⟨unsgn w r, decide (r ≠ v)⟩
  match op with
  | 0 => ⟨unsgn w (x + y), false⟩ | 1 => ⟨unsgn w (x - y), false⟩ | 2 => ⟨unsgn w (x * y), false⟩
  | 3 => ⟨unsgn w (x * y + z), false⟩ | 4 => ⟨unsgn w (x * y - z), false⟩
  | 5 => ⟨unsgn w (-x), false⟩ | 6 => ⟨unsgn w x.natAbs, false⟩
  | 7 => ⟨if x ≤ y then a else b, false⟩ | 8 => ⟨if y ≤ x then a else b, false⟩
  | 9 => lim (x + y) | 10 => lim (x - y)
  | 11 => ⟨a &&& b, false⟩ | 12 => ⟨a ||| b, false⟩ | 13 => ⟨a ^^^ b, false⟩
  | 14 => ⟨a * 2 ^ (b % w) % 2 ^ w, false⟩ | 15 => ⟨a / 2 ^ (b % w), false⟩ | 16 => ⟨unsgn w (x / (2 ^ (b % w) : Nat)), false⟩
  | _ => ⟨a, false⟩
/-- Sign operation on a floating code: NaN gives the canonical NaN. -/
def signElem (f : Flt) (op a : Nat) (neg : Bool → Bool) : Nat :=
  let x := fltDec f a
  if valNan x then (fltIeee f .rne (nanOf op a 0 0 [x])).code
  else signBit f (neg (valNeg x)) + a % 2 ^ (f.eb + f.mb)
/-- Floating operations of Table 7.2 (R196, R200, R201). -/
def fltElem (op : Nat) (f : Flt) (a b c : Nat) : Nat :=
  match op with
  | 0 => fpAdd f a b | 1 => fpSub f a b | 2 => fpMul f a b | 3 => fpFma f false a b c | 4 => fpFma f true a b c
  | 5 => signElem f 5 a (!·) | 6 => signElem f 6 a (fun _ => false)
  | 7 => fpMinMax f false a b | 8 => fpMinMax f true a b
  | 22 => fpDiv f a b | 23 => fnRcp a | 24 => fpSqrt f a | 25 => fnRsqrt a
  | 38 => fnDrelu a b
  | 39 => fnPoly 39 a b [fltDec f a, fltDec f b] (oMul (oMul (some (fltDec f a)) (some (fltDec f b))) (oSub (some vOne) (some (fltDec f b))))
  | 40 => fnPoly 40 a b [fltDec f a, fltDec f b] (oMul (some (fltDec f a)) (oSub (some vOne) (oMul (some (fltDec f b)) (some (fltDec f b)))))
  | 41 => fnPoly 41 a b [fltDec f a, fltDec f b] (oMul (some (fltDec f a)) (some (fltDec f b)))
  | 51 => a
  | _ => if 43 ≤ op then fnInput op a b else fnTrans op a
/-- One element of an element-wise operation at format code `fmt`. -/
def vecElem (op fmt a b c : Nat) : Elem :=
  if fmtInt fmt != 0 then intElem op (fmtInt fmt) a b c else ⟨fltElem op (fmtFlt fmt) a b c, false⟩

/-- Compare operations (17 CMPEQ, 18 CMPLT, 19 CMPLE, 20 CMPUN). -/
def vecCmp (op fmt a b : Nat) : Bool :=
  if fmtInt fmt != 0 then
    let x := sgn (fmtInt fmt) a
    let y := sgn (fmtInt fmt) b
    match op with | 17 => decide (x = y) | 18 => decide (x < y) | 19 => decide (x ≤ y) | _ => false
  else
    let f := fmtFlt fmt
    match op with | 17 => fpEq f a b | 18 => fpLt f a b | 19 => fpLt f a b || fpEq f a b | _ => fpUn f a b

/-- DROP on one element: x × S rounded by RNE, or +0 (R204). Where the product is no integer of an integer format the manual states no
result (free, log 17). -/
def fnDrop (fmt x s thr r16 : Nat) : Nat :=
  let b := fltDec fFP32 s
  let w := fmtInt fmt
  if r16 < thr then 0
  else if w != 0 then
    let v := qRne (qMul ⟨sgn w x, 1⟩ (valQ b))
    if valFin b && clampI v (-(2 ^ (w - 1) : Nat)) ((2 ^ (w - 1) : Nat) - 1) == v then unsgn w v else Config.vecFn 100 x s % 2 ^ w
  else
    let f := fmtFlt fmt
    let a := fltDec f x
    match ieeeMul a b with
    | some v => (fltIeee f .rne v).code
    | none => (fltIeee f .rne (nanOf 2 x s 0 [a, b])).code

/-- One level of the balanced tree of R197: adjacent pairs, excluded elements absent. -/
def treeLevel : List (Option Nat) → List (Option Nat)
  | [] => []
  | x :: [] => [x]
  | x :: y :: l =>
    (match x, y with
     | some a, some b => some (fpAdd fFP32 a b)
     | some a, none => some a
     | none, b => b) :: treeLevel l
def treeSum : Nat → List (Option Nat) → Option Nat
  | 0, l => l.head?.join
  | n + 1, l => treeSum n (treeLevel l)
/-- SUM of a row in the order of R197. -/
def rowSum (xs : List (Option Nat)) : Nat :=
  (blocksOf 256 xs.length xs).foldl (fun acc g => match treeSum 8 g with | some v => fpAdd fFP32 acc v | none => acc) 0
/-- DOT: products rounded, then summed. -/
def rowDot (xs ys : List (Option Nat)) : Nat :=
  rowSum ((xs.zip ys).map fun x => match x.1, x.2 with | some a, some b => some (fpMul fFP32 a b) | _, _ => none)

end Sys2Proof.Machine
end

