-- ==== Sys2Proof/Machine/Vector.lean ====
section
/-! DEFINITION. The vector, random and convert classes: what an instruction is checked for and issues (R190 to
R194, R198, R204, R208, R225, R226, R233, R234), and one micro-operation (R189, R192, R193, R206, R207). -/

namespace Sys2Proof.Machine

/-! ## Operands -/

/-- Number of sources of a vector operation (R233). -/
def srcCount (op : Nat) : Nat :=
  if op = 3 || op = 4 || op = 21 then 3
  else if op = 5 || op = 6 || op = 47 || op = 49 || op = 50 || op = 51 then 1
  else if 23 ≤ op && op ≤ 37 then 1 else 2

/-- Broadcast kind and pitch of source n (0 A, 1 B, 2 C): C takes those of B (R194). -/
def VecOp.bc (o : VecOp) (n : Nat) : Nat := if !o.shaped then 0 else if n = 0 then fld o.shape 88 2 else fld o.shape 90 2
def VecOp.pitch (o : VecOp) (n : Nat) : Nat := if n = 0 then fld o.shape 40 22 else fld o.shape 64 22
def VecOp.dPitch (o : VecOp) : Nat := fld o.shape 16 22
def VecOp.kind (o : VecOp) (n : Nat) : Nat := if n = 0 then o.ak else if n = 1 then o.bk else o.ck
def VecOp.val (o : VecOp) (n : Nat) : Nat := if n = 0 then o.av else if n = 1 then o.bv else o.cv
/-- Bytes of one element at the working format. -/
def VecOp.e (o : VecOp) : Nat := fmtBits o.fmt / 8

/-- Scratchpad ranges of a stream source (R194). -/
def VecOp.srcRanges (o : VecOp) (n : Nat) : List (Nat × Nat) :=
  if o.kind n != 0 then [] else
  let b := o.val n
  match o.bc n with
  | 0 => (List.range o.rows).map fun r => (b + r * o.pitch n, o.vl * o.e)
  | 1 => [(b, o.vl * o.e)]
  | 2 => [(b, o.rows * o.e)]
  | _ => [(b, o.e)]
/-- Bytes of a bit array over every position. -/
def VecOp.maskBytes (o : VecOp) : Nat := ceilDiv (o.rows * o.vl) 8
/-- Is masking in force (R191)? -/
def VecOp.masked (o : VecOp) : Bool := o.msk != 0 && o.vm.getLsbD 63
def VecOp.maskBase (o : VecOp) : Nat := fld o.vm.toNat 0 22
/-- Is SEL's C a bit array of its own? -/
def VecOp.isSel (o : VecOp) : Bool := o.cls == 5 && o.opc == 21
/-- Scratchpad ranges the operation reads, mask included; those R208 compares with the destination leave the mask out. -/
def VecOp.sources (o : VecOp) : List (List (Nat × Nat)) :=
  let n := if o.cls = 5 then srcCount o.opc else if o.opc = 2 then 1 else 0
  (List.range n).map fun k => if k = 2 && o.isSel then [(o.cv, o.maskBytes)] else o.srcRanges k
/-- Destination ranges (R192, R194, R197). -/
def VecOp.dest (o : VecOp) : List (Nat × Nat) :=
  if o.cls = 5 && 17 ≤ o.opc && o.opc ≤ 20 then [(o.d, o.maskBytes)]
  else if o.cls = 5 && (o.opc = 47 || o.opc = 48) then [(o.d, 4 * o.rows)]
  else if o.cls = 5 && (o.opc = 49 || o.opc = 50) then [(o.d, 16 * o.rows)]
  else (List.range o.rows).map fun r => (o.d + r * o.dPitch, o.vl * o.e)

/-- Do two lists of ranges overlap without coinciding (R208)? -/
def clash (xs ys : List (Nat × Nat)) : Bool :=
  xs != ys && xs.any fun x => ys.any fun y => decide (x.1 < y.1 + y.2) && decide (y.1 < x.1 + x.2)

/-- Arrays of a conversion: source and destination (Table 7.3, R526). -/
def VecOp.cvtRows (o : VecOp) : Nat × Nat := (if o.shaped then fld o.shape 40 22 else 0, if o.shaped then fld o.shape 16 22 else 0)
def VecOp.cvtS (o : VecOp) : Arr :=
  let d := o.desc
  ⟨fld d 182 4, fld d 0 22, fld d 32 22, fld d 64 22, fld d 200 8, o.cvtRows.1, scaleBytes (fld d 182 4) o.vl⟩
def VecOp.cvtD (o : VecOp) : Arr :=
  let d := o.desc
  ⟨fld d 186 4, fld d 96 22, fld d 128 22, fld d 160 22, fld d 208 8, o.cvtRows.2, scaleBytes (fld d 186 4) o.vl⟩
/-- Element ranges, and scale ranges, of an array over every row. -/
def arrElts (a : Arr) (n m : Nat) : List (Nat × Nat) := (List.range n).map fun r => (a.base + r * a.pitch, rowBytes a.fmt m)
def arrScales (a : Arr) (n m : Nat) : List (Nat × Nat) :=
  (if fmtBlock a.fmt then [(a.scale, n * scaleBytes a.fmt m)] else []) ++ (if a.fmt = 1 then [(a.rscale, n)] else [])

/-! ## Steps -/

/-- Lanes at the operation's working width; a conversion works at its wider side (R188). -/
def VecOp.lanes (o : VecOp) : Nat :=
  let bits := if o.cls = 9 then Nat.max (fmtBits o.cvtS.fmt) (fmtBits o.cvtD.fmt) else fmtBits o.fmt
  if bits ≤ 8 then 1024 else if bits ≤ 16 then 512 else 256
/-- The reciprocal of the rate factor f (Table 7.2). -/
def VecOp.slow (o : VecOp) : Nat :=
  if o.cls = 5 && 22 ≤ o.opc && o.opc ≤ 37 then 4 else if o.cls = 5 && 38 ≤ o.opc && o.opc ≤ 46 then 2 else 1
/-- Bytes a micro-operation of m elements streams from scratchpad (R189), DSOFTMAX's in both its passes (R200). DESIGN CHOICE (log 33): SEL's bit array and the scale
arrays of a conversion are operands, the mask is none. -/
def VecOp.readBytes (o : VecOp) (m : Nat) : Nat :=
  if o.cls = 9 then rowBytes o.cvtS.fmt m + scaleBytes o.cvtS.fmt m else
  let n := if o.cls = 5 then srcCount o.opc else if o.opc = 2 then 1 else 0
  (if o.cls == 5 && o.opc == 42 then 2 else 1) * ((List.range n).map fun k => if k = 2 && o.isSel then ceilDiv m 8 else if o.kind k = 0 && o.bc k = 0 then m * o.e else 0).sum
/-- Bytes it writes. A reduction writes at its row's end, within one step. -/
def VecOp.writeBytes (o : VecOp) (m : Nat) : Nat :=
  if o.cls = 9 then rowBytes o.cvtD.fmt m + scaleBytes o.cvtD.fmt m
  else if o.cls = 5 && 17 ≤ o.opc && o.opc ≤ 20 then ceilDiv m 8
  else if o.cls = 5 && 47 ≤ o.opc && o.opc ≤ 50 then 0
  else m * o.e
/-- Steps of one micro-operation of m elements (R189). -/
def VecOp.mopSteps (o : VecOp) (m : Nat) : Nat :=
  Nat.max (ceilDiv (m * o.slow) o.lanes) (Nat.max (ceilDiv (o.readBytes m) 1024) (ceilDiv (o.writeBytes m) 1024))
/-- Steps of the operation: 8 of staging, then its micro-operations row by row (R189, R194). -/
def VecOp.steps (o : VecOp) : Nat :=
  8 + o.rows * ((List.range (ceilDiv o.vl 4096)).map fun k => o.mopSteps (Nat.min 4096 (o.vl - 4096 * k))).sum

/-! ## Issue -/

/-- Is endpoint e of core g held by the item of thread t (R251)? -/
def Pkg.readsEp (p : Pkg) (g e t : Nat) : Bool := (p.ep g e).state == 1 && (p.ep g e).reader == some (p.itemOf t)

/-- Shape descriptor of format V and of CVT: address register n (R194). -/
def Pkg.shapeTest (p : Pkg) (g addr : Nat) (zeroBc : Bool) (chA chB : Bool) : Option Nat :=
  match descTest g addr 32 with
  | some c => some c
  | none =>
    let d := p.num addr 32
    if !resZero d [(38, 2), (62, 2), (86, 2), (92, 4), (160, 96)] then some fIllegalEncoding
    else if (zeroBc || chA) && fld d 88 2 != 0 then some fIllegalEncoding
    else if (zeroBc || chB) && fld d 90 2 != 0 then some fIllegalEncoding
    else if fld d 16 3 != 0 then some fAlignment
    else none

/-- An operation enters the vector engine (R207, R325): an LC request revokes a BE micro-operation that has
consumed no channel words. -/
def Pkg.vecIssue (p : Pkg) (t : Nat) (o : VecOp) : Pkg :=
  let g := coreOf t
  let p := p.modThr t fun th => th.addBg o.tag o.inst .engine
  let p := p.modCore g fun c => { c with vops := c.vops ++ [o] }
  let p := match (p.core g).vrun with
    | some r =>
      if p.thrLc t && !p.thrLc r && !((firstOps [] (p.core g).vops).any fun v => v.thr == r && v.chan.isSome) then
        let p := ((p.modCore g fun c => { c with vrun := none }).bump .vecRevoke g).setFlag .vecStatus g 4
        p.modCtx (p.thr r).ctx fun x => { x with tally := { x.tally with revokes := (x.tally.revokes + 1) % 2 ^ 32 } }
      else p
    | none => p
  p.vecNext g

/-- CORE_VEC_LAST after an instruction completes (R210); one with `vl` = 0 has R189's 8 steps of staging and no micro-operation. -/
def Pkg.vecDone (p : Pkg) (g elements steps : Nat) : Pkg :=
  p.modCore g fun k => { k with vecLast := BitVec.ofNat 64 (put 0 32 elements + put 32 32 steps) }

/-- Offset operand of format V: bits [63:22] zero (R225). -/
def offTest (v : W64) : Option Nat := if v.toNat < 2 ^ 22 then none else some fIllegalOperand

/-- Faults of an operation whose operands are known (R190, R208, R226, R234). -/
def Pkg.vecTest (p : Pkg) (t : Nat) (o : VecOp) : Option Nat :=
  let g := coreOf t
  let mask := if o.masked then [(o.maskBase, o.maskBytes)] else []
  let ch := match o.chan with | some e => if p.readsEp g e t then none else some fIllegalOperand | none => none
  firstFault [ch, p.rangesTest t (o.sources.flatten ++ mask) false, p.rangesTest t o.dest true,
    if o.sources.any fun r => clash r o.dest then some fOverlap else none]

/-- Issue of a format V instruction of class `cls`, operation `opc` with n sources (R225, R233). -/
def State.vec (s : State) (t : ThreadId) (i : Instr) (cls opc n : Nat) (f : FmtV) : Host.Outcome State Fault Refusal :=
  s.run fun p => p.issue t i fun p th => needTag th f.tag.toNat p <|
    let g := coreOf t
    let w := (encode i).getD 0
    let xa := (th.ra f.x.toNat).toNat
    let ks (m : Nat) (k : BitVec 2) : Nat := if m < n then k.toNat else 1
    let vs (m : Nat) (k : BitVec 2) (r : BitVec 5) : W64 := if m < n then (if k = 2 then BitVec.ofNat 64 r.toNat else th.rs r.toNat) else 0
    let av := vs 0 f.aK f.a
    let bv := vs 1 f.bK f.b
    let cv := vs 2 f.cK f.c
    let zero := cls == 5 && opc == 42
    if 1048576 < th.vl.toNat then .fault fIllegalOperand
    else if th.vl = 0 then .ok (p.vecDone g 0 8)
    else
      let sh := if f.shape then p.shapeTest g xa zero (0 < n && f.aK = 2) ((1 < n && f.bK = 2) || (2 < n && f.cK = 2)) else none
      match firstFault [sh, offTest (th.rs f.d.toNat), if ks 0 f.aK = 0 then offTest av else none, if ks 1 f.bK = 0 then offTest bv else none, if ks 2 f.cK = 0 then offTest cv else none] with
      | some c => .fault c
      | none =>
        if f.shape && p.spBadIn g (windowOff xa) 32 then .stop (p.spPoison t th.pc.toNat w) else
        let d := if f.shape then p.num xa 32 else 0
        let xs := (th.rs f.x.toNat).toNat
        let o : VecOp := {
          thr := t, cls := cls, opc := opc, bgId := th.bgNext, tag := f.tag.toNat, pc := th.pc.toNat, inst := w, fmt := f.fmt.toNat
          d := (th.rs f.d.toNat).toNat, av := av.toNat, bv := bv.toNat, cv := cv.toNat, ak := ks 0 f.aK, bk := ks 1 f.bK, ck := ks 2 f.cK
          vl := th.vl.toNat, rows := if f.shape then fld d 0 16 + 1 else 1, shaped := f.shape, shape := d, msk := f.msk.toNat, vm := th.vm, nfx := f.nfx
          elemBase := if f.shape then fld d 96 32 else fld xs 0 32, stag := if f.shape then fld d 128 32 else fld xs 32 32 }
        let drop := cls == 8 && opc == 2
        if drop && (65535 < bv.toNat || 2 ^ 32 ≤ cv.toNat) then .fault fIllegalOperand
        else match p.vecTest t o with
          | some c => .fault c
          | none => .ok ((p.spRead g (windowOff xa) (if f.shape then 32 else 0)).vecIssue t o)

/-! ## A micro-operation -/

/-- Is position (row, column) active (R191)? -/
def Pkg.vecActive (p : Pkg) (g : Nat) (o : VecOp) (c : Nat) : Bool :=
  let n := o.row * o.vl + c
  !o.masked || fld (p.spNum g (o.maskBase + n / 8) 1) (n % 8) 1 == 1
/-- Scratchpad offset of source n at column c of the running row. -/
def VecOp.srcOff (o : VecOp) (n c : Nat) : Nat :=
  match o.bc n with
  | 0 => o.val n + o.row * (if o.shaped then o.pitch n else 0) + c * o.e
  | 1 => o.val n + c * o.e
  | 2 => o.val n + o.row * o.e
  | _ => o.val n
/-- Active elements of the running micro-operation; the others count nowhere (R192). -/
def Pkg.activeCount (p : Pkg) (g : Nat) (o : VecOp) : Nat := ((List.range o.size).filter fun k => p.vecActive g o (o.pos + k)).length
/-- Code of source n at column c of the running row; `c0` is the column where the held channel bytes begin. -/
def Pkg.vecSrc (p : Pkg) (g : Nat) (o : VecOp) (n c c0 : Nat) : Nat :=
  let e := o.e
  match o.kind n with
  | 1 => o.val n % 2 ^ fmtBits o.fmt
  | 2 => leNat ((o.carry.drop ((c - c0) * e)).take e)
  | _ => p.spNum g (o.srcOff n c) e
/-- Element index of column c (R194). -/
def VecOp.index (o : VecOp) (c : Nat) : Nat := o.elemBase + o.row * o.vl + c

/-- Class of a code: 0 finite, 1 Inf, 2 NaN; integers are finite. -/
def codeClass (fmt c : Nat) : Nat := if fmtInt fmt != 0 then 0 else outClass (fmtFlt fmt) c

/-- Counters and flags of written elements (R206). -/
def Pkg.vecCount (p : Pkg) (g t : Nat) (nfx : Bool) (nan inf invalid ovf sat : Nat) : Pkg :=
  let p := p.addCtr .vecNanOut g nan
  let p := p.addCtr .vecInfOut g inf
  let p := p.addCtr .vecInvalid g invalid
  let p := p.addCtr .vecOverflow g ovf
  let p := p.addCtr .vecSat g sat
  let p := if nan + inf = 0 then p else p.setFlag .vecStatus g 0
  let p := if invalid = 0 then p else p.setFlag .vecStatus g 1
  let p := if ovf = 0 then p else p.setFlag .vecStatus g 2
  let p := if sat = 0 then p else p.setFlag .vecStatus g 3
  if nan != 0 || (inf != 0 && !nfx) then p.nonfinite (p.thr t).ctx (dieOfCore g) g else p

/-- One computed element: result code, classes of its operands (0 finite, 1 infinite, 2 NaN), whether active, whether saturated. -/
structure Comp where
  code : Nat
  ops : List Nat
  act : Bool
  sat : Bool
  deriving DecidableEq, Repr

/-- Elements of the micro-operation, from column c0 for m columns. -/
def Pkg.vecComp (p : Pkg) (g : Nat) (o : VecOp) (c0 m : Nat) : List Comp :=
  let key := p.itemKeyOf o.thr
  (List.range m).map fun k =>
    let c := c0 + k
    if !p.vecActive g o c then ⟨0, [], false, false⟩ else
    let n := o.row * o.vl + c
    let s (j : Nat) : Nat := p.vecSrc g o j c c0
    let cl (code : Nat) : Nat := codeClass o.fmt code
    if o.cls = 8 then
      match o.opc with
      | 0 => -- u = ⌊r32 / 256⌋ × 2^-24
        ⟨(fltIeee fFP32 .rne (.fin false (draw32 key.1 key.2 o.stag 3 (o.index c) / 256) (2 ^ 24))).code, [], true, false⟩
      | 1 => ⟨draw32 key.1 key.2 o.stag 4 (o.index c), [], true, false⟩
      | _ => ⟨fnDrop o.fmt (s 0) (o.cv % 2 ^ 32) o.bv (draw16 key.1 key.2 o.stag 2 (o.index c)), [cl (s 0), codeClass 13 (o.cv % 2 ^ 32)], true, false⟩
    else if o.isSel then
      let b := fld (p.spNum g (o.cv + n / 8) 1) (n % 8) 1
      let v := if b = 1 then s 0 else s 1
      ⟨if fmtInt o.fmt != 0 then v else canonical (fmtFlt o.fmt) v, [cl v], true, false⟩
    else
      let k := srcCount o.opc
      let a := s 0
      let b := if 1 < k then s 1 else 0
      let c := if 2 < k then s 2 else 0
      let r := vecElem o.opc o.fmt a b c
      ⟨r.code, (([a, b, c] : List Nat).take k).map cl, true, r.sat⟩

/-- Write computed elements and count them (R192, R193, R206). -/
def Pkg.vecPut (p : Pkg) (g : Nat) (o : VecOp) (c0 : Nat) (xs : List Comp) : Pkg :=
  let at_ := o.d + o.row * (if o.shaped then o.dPitch else 0)
  let keep := xs.map fun x => !x.act && o.msk == 1
  let q := p.putCodes g o.fmt at_ c0 (xs.map (·.code)) keep
  let act := xs.filter (·.act)
  let nan := act.filter fun x => codeClass o.fmt x.code == 2
  let inf := act.filter fun x => codeClass o.fmt x.code == 1
  let inv := nan.filter fun x => x.ops.all (· != 2)
  let ovf := inf.filter fun x => x.ops.all (· == 0)
  q.vecCount g o.thr o.nfx nan.length inf.length inv.length ovf.length (act.filter (·.sat)).length

/-- Compare results as mask bits (R192): bits beyond the last position keep their value. -/
def Pkg.vecBits (p : Pkg) (g : Nat) (o : VecOp) (c0 m : Nat) : Pkg :=
  let n0 := o.row * o.vl + c0
  let bits := (List.range m).map fun k =>
    b2n (p.vecActive g o (c0 + k) && vecCmp o.opc o.fmt (p.vecSrc g o 0 (c0 + k) c0) (p.vecSrc g o 1 (c0 + k) c0))
  let first := n0 / 8
  let len := ceilDiv (n0 + m) 8 - first
  let v := bits.zipIdx.foldl (fun v b => setFld v (n0 + b.2 - 8 * first) 1 b.1) (p.spNum g (o.d + first) len)
  p.spStore g (o.d + first) (toLe len v)

/-- Record of MAXI or MINI for a winning code (R197). -/
def codeRecord (fmt code idx : Nat) : Rec :=
  if fmt = 14 then mkRecord (sgn 32 code) 47 0 idx code
  else match fltDec fFP32 code with
    | .nan _ => mkRecord 0 0 3 idx code
    | .inf s => mkRecord 0 0 (if s then 2 else 1) idx code
    | .fin s _ _ =>
      let ex : Nat := code / 2 ^ 23 % 256
      let mant : Nat := code % 2 ^ 23 + (if ex = 0 then 0 else 2 ^ 23)
      if mant = 0 then mkRecord 0 47 0 idx code
      else mkRecord (if s then -(mant : Int) else mant) ((if ex = 0 then -126 else (ex : Int) - 127) + 24) 0 idx code

/-- A row's end for the operations that write there: reductions and DSOFTMAX (R197, R200). -/
def Pkg.vecRow (p : Pkg) (g : Nat) (o : VecOp) : Pkg :=
  let cols := List.range o.vl
  let opt (n : Nat) : List (Option Nat) := cols.map fun c => if p.vecActive g o c then some (p.vecSrc g o n c 0) else none
  let xs := opt 0
  let scalar (v : Nat) (ops : List Nat) : Pkg :=
    let q := p.spStore g (o.d + 4 * o.row) (toLe 4 v)
    let cl := codeClass 13 v
    q.vecCount g o.thr o.nfx (b2n (cl == 2)) (b2n (cl == 1)) (b2n (cl == 2 && ops.all fun c => codeClass 13 c != 2)) (b2n (cl == 1 && ops.all fun c => codeClass 13 c == 0)) 0
  match o.opc with
  | 47 => scalar (rowSum xs) (xs.filterMap id)
  | 48 =>
    let ys := opt 1
    scalar (rowDot xs ys) (xs.filterMap id ++ ys.filterMap id)
  | 42 =>
    let ys := opt 1
    let sm := rowDot xs ys
    p.vecPut g o 0 ((xs.zip ys).map fun x => match x.1, x.2 with
      | some a, some b => ⟨fnDsoftmax a b sm, [codeClass 13 a, codeClass 13 b], true, false⟩
      | _, _ => ⟨0, [], false, false⟩)
  | _ =>
    let val (c : Nat) : Val := if o.fmt = 14 then intVal 32 c else fltDec fFP32 c
    let cs := (xs.zipIdx.filterMap fun x => x.1.map fun c => (val c, o.index x.2 % 2 ^ 32, codeRecord o.fmt c (o.index x.2)))
    let r := match cs with
      | [] => 0
      | y :: ys => (ys.foldl (pick (o.opc == 49)) y).2.2
    p.spStore g (o.d + 16 * o.row) (toLe 16 r)

/-- A conversion's slice of one row: columns c0 to c0 + m − 1 (R193, R198, R199, R526). -/
def Pkg.cvtSlice (p : Pkg) (g : Nat) (o : VecOp) (c0 m : Nat) : Pkg :=
  let a := o.cvtS
  let b := o.cvtD
  let r := o.row
  let t := o.thr
  let en := bit o.desc 193
  let idx := fld o.desc 216 12
  let pts := if en then p.scaleCur (p.thr t).ctx idx else b.pts
  let act := (List.range m).map fun k => p.vecActive g o (c0 + k)
  let keep := act.map fun x => !x && o.msk == 1
  let codes := (List.range m).map fun k => p.eltCode g a r (c0 + k)
  let vals := (List.range m).map fun k => p.eltVal g a r (c0 + k)
  let p := if a.fmt = 3 then p.addCtr .fmtTernInvalid (p.thr t).ctx ((codes.zip act).filter fun x => x.2 && x.1 == 2).length else p
  -- a copy, but for what no conversion writes: code 0b10 (R139), shifts and codes under E_row 255 (R145), codes under a NaN scale (R146)
  let same := a.fmt == b.fmt && (!fmtTensor a.fmt || (a.pts == pts && pts != 255))
  let nanRow := a.fmt == 1 && p.spNum g (a.rscale + r) 1 == 255
  if same then
    let w := (codes.zip act).map fun x => if !x.2 || nanRow || (a.fmt == 3 && x.1 == 2) then 0 else x.1
    let q := p.putCodes g b.fmt (b.base + r * b.pitch) c0 w keep
    let q :=
      if fmtMx b.fmt then q.spStore g (b.scale + r * b.spitch + c0 / 32) (p.spBytes g (a.scale + r * a.spitch + c0 / 32) (ceilDiv m 32))
      else if b.fmt = 3 then q.spStore g (b.scale + r * b.spitch + 2 * (c0 / 32)) (p.spBytes g (a.scale + r * a.spitch + 2 * (c0 / 32)) (2 * ceilDiv m 32))
      else if b.fmt = 1 then
        q.putScales g 1 (b.scale + r * b.spitch) (b.rscale + r)
          ⟨[], (List.range (ceilDiv m 16)).map fun n => if nanRow then 0 else p.pipShift g a r (16 * n), p.spNum g (a.rscale + r) 1, {}⟩
      else q
    let vs := (vals.zip act).filter (·.2)
    let nan := (vs.filter fun x => valNan x.1).length
    let inf := (vs.filter fun x => valInf x.1).length
    q.vecCount g t false nan inf 0 0 0
  else
    let key := p.itemKeyOf t
    let src := (vals.zip act).zipIdx.map fun x => (⟨x.1.1, x.1.2, draw16 key.1 key.2 (fld o.desc 256 32) 1 (fld o.desc 288 32 + r * o.vl + c0 + x.2)⟩ : SrcEl)
    let row := cvtRow ⟨b.fmt, fld o.desc 190 2, bit o.desc 192, pts, true⟩ src
    let q := p.putCodes g b.fmt (b.base + r * b.pitch) c0 row.codes keep
    let q := q.putScales g b.fmt (b.scale + r * b.spitch + (if fmtMx b.fmt then c0 / 32 else if b.fmt = 3 then 2 * (c0 / 32) else 0)) (b.rscale + r) row
    -- DESIGN CHOICE (log 163): an overflow to BF16, FP16 or FP32 counts in CNT_VEC_OVERFLOW (R524) and not in CNT_VEC_SAT as well
    let s := row.stats
    let q := q.trackConv t en idx s
    q.vecCount g t false s.nan s.inf s.invalid s.ovf (if s.ovf = 0 then s.sat else 0)

/-- Is a conversion written at the row's end? A Pip4 row scale needs the whole row. -/
def VecOp.atRowEnd (o : VecOp) : Bool := o.rowLevel || (o.cls == 9 && o.cvtD.fmt == 1)

/-- Columns whose operands the running micro-operation reads: a row's at its end where it is written there. -/
def VecOp.columns (o : VecOp) : List Nat :=
  if o.atRowEnd then (if o.vl ≤ o.pos + o.size then List.range o.vl else []) else (List.range o.size).map (o.pos + ·)
/-- Ranges that column c of a source or of a conversion's arrays stands in. -/
def VecOp.columnReads (o : VecOp) (c : Nat) : List (Nat × Nat) :=
  let n := o.row * o.vl + c
  if o.cls = 9 then
    let a := o.cvtS
    let w := fmtBits a.fmt
    let sc := a.scale + o.row * a.spitch
    (a.base + o.row * a.pitch + w * c / 8, ceilDiv (w * c % 8 + w) 8) ::
      (if fmtMx a.fmt then [(sc + c / 32, 1)] else if a.fmt = 3 then [(sc + 2 * (c / 32), 2)] else if a.fmt = 1 then [(sc + c / 32, 1), (a.rscale + o.row, 1)] else [])
  else
    let k := if o.cls = 5 then srcCount o.opc else if o.opc = 2 then 1 else 0
    ((List.range k).map fun j => if j = 2 && o.isSel then [(o.cv + n / 8, 1)] else if o.kind j = 0 then [(o.srcOff j c, o.e)] else []).flatten
/-- Ranges the running micro-operation reads, for the uncorrectable-word test (R214, R245): its mask bits, and the operands of its active
elements, for an inactive one reads none (R192). -/
def Pkg.vecReads (p : Pkg) (g : Nat) (o : VecOp) : List (Nat × Nat) :=
  let cs := o.columns
  let n := o.row * o.vl + cs.headD 0
  let mask := if o.masked && !cs.isEmpty then [(o.maskBase + n / 8, (n + cs.length + 7) / 8 - n / 8)] else []
  mask ++ ((cs.filter (p.vecActive g o)).map o.columnReads).flatten
/-- The write phase of the running micro-operation (R207). -/
def Pkg.vecWrite (p : Pkg) (g : Nat) (o : VecOp) : Pkg :=
  let m := o.size
  let last := decide (o.vl ≤ o.pos + m)
  if o.cls = 9 then
    if o.atRowEnd then (if last then p.cvtSlice g o 0 o.vl else p) else p.cvtSlice g o o.pos m
  else if o.rowLevel then (if last then p.vecRow g o else p)
  else if o.cls = 5 && 17 ≤ o.opc && o.opc ≤ 20 then p.vecBits g o o.pos m
  else p.vecPut g o o.pos (p.vecComp g o o.pos m)

/-- The operation after its micro-operation: none when it is over. -/
def VecOp.next (o : VecOp) : Option VecOp :=
  let m := o.size
  let last := decide (o.vl ≤ o.pos + m)
  let carry := if o.rowLevel then (if last then o.carry.drop (o.vl * o.e) else o.carry) else o.carry.drop (m * o.e)
  if last then (if o.row + 1 < o.rows then some { o with row := o.row + 1, pos := 0, carry := carry } else none)
  else some { o with pos := o.pos + m, carry := carry }

/-- VECTOR_MICROOP_END: the running micro-operation writes; the engine takes its next one (R189, R207, R325). -/
def execVectorMicroopEnd (c : CoreId) (s : State) : Host.Outcome State Fault Refusal :=
  s.run fun p =>
    match (p.core c).vrun with
    | none => p
    | some t =>
      match (p.core c).vops.find? fun o => o.thr == t with
      | none => (p.modCore c fun k => { k with vrun := none }).vecNext c
      | some o =>
        if p.rangesBad c (p.vecReads c o) then p.spPoison t o.pc o.inst else
        let p := ((p.vecWrite c o).spReads c (p.vecReads c o)).addCtr .vecElements c (p.activeCount c o)
        let p := p.addFree .vecBusySteps c
        let mine := (p.core c).vops.filter fun v => v.thr == t && v.bgId != o.bgId
        let rest := (p.core c).vops.filter fun v => v.thr != t
        match o.next with
        | some n =>
          let p := p.modCore c fun k => { k with vrun := none, vops := rest ++ n :: mine }
          (p.vecNext c).ctxEval (p.thr t).ctx
        | none =>
          let p := (p.modCore c fun k => { k with vrun := none, vops := rest ++ mine }).vecDone c (o.rows * o.vl) o.steps
          ((p.endBg t o.bgId).vecNext c).ctxEval (p.thr t).ctx

/-! ## The instructions -/


/-- V_ADD (R195, R233, Table 8.15). -/
def execVAdd (t : ThreadId) (f : FmtV) (s : State) : Host.Outcome State Fault Refusal := s.vec t (.vAdd t f) 5 0 (srcCount 0) f

/-- V_SUB (R195, R233, Table 8.15). -/
def execVSub (t : ThreadId) (f : FmtV) (s : State) : Host.Outcome State Fault Refusal := s.vec t (.vSub t f) 5 1 (srcCount 1) f

/-- V_MUL (R195, R233, Table 8.15). -/
def execVMul (t : ThreadId) (f : FmtV) (s : State) : Host.Outcome State Fault Refusal := s.vec t (.vMul t f) 5 2 (srcCount 2) f

/-- V_FMA (R195, R233, Table 8.15). -/
def execVFma (t : ThreadId) (f : FmtV) (s : State) : Host.Outcome State Fault Refusal := s.vec t (.vFma t f) 5 3 (srcCount 3) f

/-- V_FMS (R195, R233, Table 8.15). -/
def execVFms (t : ThreadId) (f : FmtV) (s : State) : Host.Outcome State Fault Refusal := s.vec t (.vFms t f) 5 4 (srcCount 4) f

/-- V_NEG (R195, R233, Table 8.15). -/
def execVNeg (t : ThreadId) (f : FmtV) (s : State) : Host.Outcome State Fault Refusal := s.vec t (.vNeg t f) 5 5 (srcCount 5) f

/-- V_ABS (R195, R233, Table 8.15). -/
def execVAbs (t : ThreadId) (f : FmtV) (s : State) : Host.Outcome State Fault Refusal := s.vec t (.vAbs t f) 5 6 (srcCount 6) f

/-- V_MIN (R195, R233, Table 8.15). -/
def execVMin (t : ThreadId) (f : FmtV) (s : State) : Host.Outcome State Fault Refusal := s.vec t (.vMin t f) 5 7 (srcCount 7) f

/-- V_MAX (R195, R233, Table 8.15). -/
def execVMax (t : ThreadId) (f : FmtV) (s : State) : Host.Outcome State Fault Refusal := s.vec t (.vMax t f) 5 8 (srcCount 8) f

/-- V_ADDS (R195, R233, Table 8.15). -/
def execVAdds (t : ThreadId) (f : FmtV) (s : State) : Host.Outcome State Fault Refusal := s.vec t (.vAdds t f) 5 9 (srcCount 9) f

/-- V_SUBS (R195, R233, Table 8.15). -/
def execVSubs (t : ThreadId) (f : FmtV) (s : State) : Host.Outcome State Fault Refusal := s.vec t (.vSubs t f) 5 10 (srcCount 10) f

/-- V_AND (R195, R233, Table 8.15). -/
def execVAnd (t : ThreadId) (f : FmtV) (s : State) : Host.Outcome State Fault Refusal := s.vec t (.vAnd t f) 5 11 (srcCount 11) f

/-- V_OR (R195, R233, Table 8.15). -/
def execVOr (t : ThreadId) (f : FmtV) (s : State) : Host.Outcome State Fault Refusal := s.vec t (.vOr t f) 5 12 (srcCount 12) f

/-- V_XOR (R195, R233, Table 8.15). -/
def execVXor (t : ThreadId) (f : FmtV) (s : State) : Host.Outcome State Fault Refusal := s.vec t (.vXor t f) 5 13 (srcCount 13) f

/-- V_SHL (R195, R233, Table 8.15). -/
def execVShl (t : ThreadId) (f : FmtV) (s : State) : Host.Outcome State Fault Refusal := s.vec t (.vShl t f) 5 14 (srcCount 14) f

/-- V_SHR (R195, R233, Table 8.15). -/
def execVShr (t : ThreadId) (f : FmtV) (s : State) : Host.Outcome State Fault Refusal := s.vec t (.vShr t f) 5 15 (srcCount 15) f

/-- V_SAR (R195, R233, Table 8.15). -/
def execVSar (t : ThreadId) (f : FmtV) (s : State) : Host.Outcome State Fault Refusal := s.vec t (.vSar t f) 5 16 (srcCount 16) f

/-- V_CMPEQ (R195, R233, Table 8.15). -/
def execVCmpeq (t : ThreadId) (f : FmtV) (s : State) : Host.Outcome State Fault Refusal := s.vec t (.vCmpeq t f) 5 17 (srcCount 17) f

/-- V_CMPLT (R195, R233, Table 8.15). -/
def execVCmplt (t : ThreadId) (f : FmtV) (s : State) : Host.Outcome State Fault Refusal := s.vec t (.vCmplt t f) 5 18 (srcCount 18) f

/-- V_CMPLE (R195, R233, Table 8.15). -/
def execVCmple (t : ThreadId) (f : FmtV) (s : State) : Host.Outcome State Fault Refusal := s.vec t (.vCmple t f) 5 19 (srcCount 19) f

/-- V_CMPUN (R195, R233, Table 8.15). -/
def execVCmpun (t : ThreadId) (f : FmtV) (s : State) : Host.Outcome State Fault Refusal := s.vec t (.vCmpun t f) 5 20 (srcCount 20) f

/-- V_SEL (R195, R233, Table 8.15). -/
def execVSel (t : ThreadId) (f : FmtV) (s : State) : Host.Outcome State Fault Refusal := s.vec t (.vSel t f) 5 21 (srcCount 21) f

/-- V_DIV (R195, R233, Table 8.15). -/
def execVDiv (t : ThreadId) (f : FmtV) (s : State) : Host.Outcome State Fault Refusal := s.vec t (.vDiv t f) 5 22 (srcCount 22) f

/-- V_RCP (R195, R233, Table 8.15). -/
def execVRcp (t : ThreadId) (f : FmtV) (s : State) : Host.Outcome State Fault Refusal := s.vec t (.vRcp t f) 5 23 (srcCount 23) f

/-- V_SQRT (R195, R233, Table 8.15). -/
def execVSqrt (t : ThreadId) (f : FmtV) (s : State) : Host.Outcome State Fault Refusal := s.vec t (.vSqrt t f) 5 24 (srcCount 24) f

/-- V_RSQRT (R195, R233, Table 8.15). -/
def execVRsqrt (t : ThreadId) (f : FmtV) (s : State) : Host.Outcome State Fault Refusal := s.vec t (.vRsqrt t f) 5 25 (srcCount 25) f

/-- V_EXP (R195, R233, Table 8.15). -/
def execVExp (t : ThreadId) (f : FmtV) (s : State) : Host.Outcome State Fault Refusal := s.vec t (.vExp t f) 5 26 (srcCount 26) f

/-- V_EXP2 (R195, R233, Table 8.15). -/
def execVExp2 (t : ThreadId) (f : FmtV) (s : State) : Host.Outcome State Fault Refusal := s.vec t (.vExp2 t f) 5 27 (srcCount 27) f

/-- V_LOG (R195, R233, Table 8.15). -/
def execVLog (t : ThreadId) (f : FmtV) (s : State) : Host.Outcome State Fault Refusal := s.vec t (.vLog t f) 5 28 (srcCount 28) f

/-- V_LOG2 (R195, R233, Table 8.15). -/
def execVLog2 (t : ThreadId) (f : FmtV) (s : State) : Host.Outcome State Fault Refusal := s.vec t (.vLog2 t f) 5 29 (srcCount 29) f

/-- V_TANH (R195, R233, Table 8.15). -/
def execVTanh (t : ThreadId) (f : FmtV) (s : State) : Host.Outcome State Fault Refusal := s.vec t (.vTanh t f) 5 30 (srcCount 30) f

/-- V_SIGMOID (R195, R233, Table 8.15). -/
def execVSigmoid (t : ThreadId) (f : FmtV) (s : State) : Host.Outcome State Fault Refusal := s.vec t (.vSigmoid t f) 5 31 (srcCount 31) f

/-- V_SILU (R195, R233, Table 8.15). -/
def execVSilu (t : ThreadId) (f : FmtV) (s : State) : Host.Outcome State Fault Refusal := s.vec t (.vSilu t f) 5 32 (srcCount 32) f

/-- V_GELU (R195, R233, Table 8.15). -/
def execVGelu (t : ThreadId) (f : FmtV) (s : State) : Host.Outcome State Fault Refusal := s.vec t (.vGelu t f) 5 33 (srcCount 33) f

/-- V_GELU_T (R195, R233, Table 8.15). -/
def execVGeluT (t : ThreadId) (f : FmtV) (s : State) : Host.Outcome State Fault Refusal := s.vec t (.vGeluT t f) 5 34 (srcCount 34) f

/-- V_SOFTPLUS (R195, R233, Table 8.15). -/
def execVSoftplus (t : ThreadId) (f : FmtV) (s : State) : Host.Outcome State Fault Refusal := s.vec t (.vSoftplus t f) 5 35 (srcCount 35) f

/-- V_SIN (R195, R233, Table 8.15). -/
def execVSin (t : ThreadId) (f : FmtV) (s : State) : Host.Outcome State Fault Refusal := s.vec t (.vSin t f) 5 36 (srcCount 36) f

/-- V_COS (R195, R233, Table 8.15). -/
def execVCos (t : ThreadId) (f : FmtV) (s : State) : Host.Outcome State Fault Refusal := s.vec t (.vCos t f) 5 37 (srcCount 37) f

/-- V_DRELU (R195, R233, Table 8.15). -/
def execVDrelu (t : ThreadId) (f : FmtV) (s : State) : Host.Outcome State Fault Refusal := s.vec t (.vDrelu t f) 5 38 (srcCount 38) f

/-- V_DSIGMOID (R195, R233, Table 8.15). -/
def execVDsigmoid (t : ThreadId) (f : FmtV) (s : State) : Host.Outcome State Fault Refusal := s.vec t (.vDsigmoid t f) 5 39 (srcCount 39) f

/-- V_DTANH (R195, R233, Table 8.15). -/
def execVDtanh (t : ThreadId) (f : FmtV) (s : State) : Host.Outcome State Fault Refusal := s.vec t (.vDtanh t f) 5 40 (srcCount 40) f

/-- V_DEXP (R195, R233, Table 8.15). -/
def execVDexp (t : ThreadId) (f : FmtV) (s : State) : Host.Outcome State Fault Refusal := s.vec t (.vDexp t f) 5 41 (srcCount 41) f

/-- V_DSOFTMAX (R195, R233, Table 8.15). -/
def execVDsoftmax (t : ThreadId) (f : FmtV) (s : State) : Host.Outcome State Fault Refusal := s.vec t (.vDsoftmax t f) 5 42 (srcCount 42) f

/-- V_DSILU (R195, R233, Table 8.15). -/
def execVDsilu (t : ThreadId) (f : FmtV) (s : State) : Host.Outcome State Fault Refusal := s.vec t (.vDsilu t f) 5 43 (srcCount 43) f

/-- V_DGELU (R195, R233, Table 8.15). -/
def execVDgelu (t : ThreadId) (f : FmtV) (s : State) : Host.Outcome State Fault Refusal := s.vec t (.vDgelu t f) 5 44 (srcCount 44) f

/-- V_DGELU_T (R195, R233, Table 8.15). -/
def execVDgeluT (t : ThreadId) (f : FmtV) (s : State) : Host.Outcome State Fault Refusal := s.vec t (.vDgeluT t f) 5 45 (srcCount 45) f

/-- V_DSOFTPLUS (R195, R233, Table 8.15). -/
def execVDsoftplus (t : ThreadId) (f : FmtV) (s : State) : Host.Outcome State Fault Refusal := s.vec t (.vDsoftplus t f) 5 46 (srcCount 46) f

/-- V_SUM (R195, R233, Table 8.15). -/
def execVSum (t : ThreadId) (f : FmtV) (s : State) : Host.Outcome State Fault Refusal := s.vec t (.vSum t f) 5 47 (srcCount 47) f

/-- V_DOT (R195, R233, Table 8.15). -/
def execVDot (t : ThreadId) (f : FmtV) (s : State) : Host.Outcome State Fault Refusal := s.vec t (.vDot t f) 5 48 (srcCount 48) f

/-- V_MAXI (R195, R233, Table 8.15). -/
def execVMaxi (t : ThreadId) (f : FmtV) (s : State) : Host.Outcome State Fault Refusal := s.vec t (.vMaxi t f) 5 49 (srcCount 49) f

/-- V_MINI (R195, R233, Table 8.15). -/
def execVMini (t : ThreadId) (f : FmtV) (s : State) : Host.Outcome State Fault Refusal := s.vec t (.vMini t f) 5 50 (srcCount 50) f

/-- V_MOV (R195, R233, Table 8.15). -/
def execVMov (t : ThreadId) (f : FmtV) (s : State) : Host.Outcome State Fault Refusal := s.vec t (.vMov t f) 5 51 (srcCount 51) f

/-- RNDU: u := ⌊r32 / 256⌋ × 2^−24 (R204). -/
def execRndu (t : ThreadId) (f : FmtV) (s : State) : Host.Outcome State Fault Refusal := s.vec t (.rndu t f) 8 0 0 f
/-- RNDB: the INT32 with the bits of r32 (R204). -/
def execRndb (t : ThreadId) (f : FmtV) (s : State) : Host.Outcome State Fault Refusal := s.vec t (.rndb t f) 8 1 0 f
/-- DROP: dx := (r16 ≥ THR) ? x × S : +0 (R204). -/
def execDrop (t : ThreadId) (f : FmtV) (s : State) : Host.Outcome State Fault Refusal := s.vec t (.drop t f) 8 2 3 f

/-- Reserved bits of Table 7.3. -/
def cvtRes (d : Rec) : Bool := resZero d [(22, 10), (54, 10), (86, 10), (118, 10), (150, 10), (194, 6), (228, 28), (320, 192)]
/-- Faults of a conversion at issue (R151, R192, R198, R208, R526). -/
def Pkg.cvtTest (p : Pkg) (t : Nat) (o : VecOp) : Option Nat :=
  let d := o.desc
  let a := o.cvtS
  let b := o.cvtD
  let mask := if o.masked then [(o.maskBase, o.maskBytes)] else []
  let es := arrElts a o.rows o.vl
  let ss := arrScales a o.rows o.vl
  let ed := arrElts b o.rows o.vl
  let sd := arrScales b o.rows o.vl
  if !cvtRes d || 15 ≤ a.fmt || 15 ≤ b.fmt || fld d 190 2 = 3 || (o.msk = 1 && fmtBlock b.fmt) then some fIllegalEncoding
  else if fld d 0 3 != 0 || fld d 96 3 != 0 then some fAlignment
  else if bit d 193 && p.trackCount (p.thr t).ctx ≤ fld d 216 12 then some fIllegalOperand
  else firstFault [p.rangesTest t (es ++ ss ++ mask) false, p.rangesTest t (ed ++ sd) true,
    if clash es ed || clash ss sd || clash es sd || clash ss ed then some fOverlap else none]

/-- CVT: converts a row, or rows of a shape, between two formats (R198, R199, R526). -/
def execCvt (t : ThreadId) (f : FmtD) (s : State) : Host.Outcome State Fault Refusal :=
  s.run fun p => p.issue t (.cvt t f) fun p th => needTag th f.tag.toNat p <|
    let g := coreOf t
    let w := (encode (.cvt t f)).getD 0
    let da := (th.ra f.ar.toNat).toNat
    let sa := (th.ra f.ar2.toNat).toNat
    if 1048576 < th.vl.toNat then .fault fIllegalOperand
    else if th.vl = 0 then .ok (p.vecDone g 0 8)
    else match firstFault [descTest g da 64, if f.shape then p.shapeTest g sa false true false else none] with
      | some c => .fault c
      | none =>
        if p.spBadIn g (windowOff da) 64 || (f.shape && p.spBadIn g (windowOff sa) 32) then .stop (p.spPoison t th.pc.toNat w) else
        let sh := if f.shape then p.num sa 32 else 0
        let o : VecOp := {
          thr := t, cls := 9, opc := 0, bgId := th.bgNext, tag := f.tag.toNat, pc := th.pc.toNat, inst := w, ak := 1, bk := 1, ck := 1
          vl := th.vl.toNat, rows := if f.shape then fld sh 0 16 + 1 else 1, shaped := f.shape, shape := sh, msk := f.msk.toNat, vm := th.vm
          desc := p.num da 64 }
        match p.cvtTest t o with
        | some c => .fault c
        | none => .ok (((p.spRead g (windowOff da) 64).spRead g (windowOff sa) (if f.shape then 32 else 0)).vecIssue t o)

end Sys2Proof.Machine
end

