-- ==== Sys2Proof/Machine/Dispatch.lean ====
section
/-! DEFINITION. One arm per command: the meaning it calls. -/

namespace Sys2Proof.Machine

/-- The effect of a command on everything but the queue. -/
def exec (i : Instr) (s : State) : Host.Outcome State Fault Refusal :=
  match i with
  | .add t f => Sys2Proof.Machine.execAdd t f s
  | .sub t f => Sys2Proof.Machine.execSub t f s
  | .mul t f => Sys2Proof.Machine.execMul t f s
  | .mulhu t f => Sys2Proof.Machine.execMulhu t f s
  | .mulh t f => Sys2Proof.Machine.execMulh t f s
  | .divu t f => Sys2Proof.Machine.execDivu t f s
  | .div t f => Sys2Proof.Machine.execDiv t f s
  | .remu t f => Sys2Proof.Machine.execRemu t f s
  | .rem t f => Sys2Proof.Machine.execRem t f s
  | .and t f => Sys2Proof.Machine.execAnd t f s
  | .or t f => Sys2Proof.Machine.execOr t f s
  | .xor t f => Sys2Proof.Machine.execXor t f s
  | .shl t f => Sys2Proof.Machine.execShl t f s
  | .shr t f => Sys2Proof.Machine.execShr t f s
  | .sar t f => Sys2Proof.Machine.execSar t f s
  | .min t f => Sys2Proof.Machine.execMin t f s
  | .max t f => Sys2Proof.Machine.execMax t f s
  | .minu t f => Sys2Proof.Machine.execMinu t f s
  | .maxu t f => Sys2Proof.Machine.execMaxu t f s
  | .slt t f => Sys2Proof.Machine.execSlt t f s
  | .sltu t f => Sys2Proof.Machine.execSltu t f s
  | .seq t f => Sys2Proof.Machine.execSeq t f s
  | .li t f => Sys2Proof.Machine.execLi t f s
  | .fadd t f => Sys2Proof.Machine.execFadd t f s
  | .fsub t f => Sys2Proof.Machine.execFsub t f s
  | .fmul t f => Sys2Proof.Machine.execFmul t f s
  | .fdiv t f => Sys2Proof.Machine.execFdiv t f s
  | .ffma t f => Sys2Proof.Machine.execFfma t f s
  | .fmin t f => Sys2Proof.Machine.execFmin t f s
  | .fmax t f => Sys2Proof.Machine.execFmax t f s
  | .flt t f => Sys2Proof.Machine.execFlt t f s
  | .fcvtif t f => Sys2Proof.Machine.execFcvtif t f s
  | .fcvtfi t f => Sys2Proof.Machine.execFcvtfi t f s
  | .setvl t f => Sys2Proof.Machine.execSetvl t f s
  | .setvm t f => Sys2Proof.Machine.execSetvm t f s
  | .getvl t f => Sys2Proof.Machine.execGetvl t f s
  | .getvm t f => Sys2Proof.Machine.execGetvm t f s
  | .getst t f => Sys2Proof.Machine.execGetst t f s
  | .clrst t f => Sys2Proof.Machine.execClrst t f s
  | .rdinfo t f => Sys2Proof.Machine.execRdinfo t f s
  | .rdic t f => Sys2Proof.Machine.execRdic t f s
  | .aadd t f => Sys2Proof.Machine.execAadd t f s
  | .amov t f => Sys2Proof.Machine.execAmov t f s
  | .ard t f => Sys2Proof.Machine.execArd t f s
  | .ali t f => Sys2Proof.Machine.execAli t f s
  | .awin t f => Sys2Proof.Machine.execAwin t f s
  | .br t f => Sys2Proof.Machine.execBr t f s
  | .jal t f => Sys2Proof.Machine.execJal t f s
  | .jalr t f => Sys2Proof.Machine.execJalr t f s
  | .lds t f => Sys2Proof.Machine.execLds t f s
  | .sts t f => Sys2Proof.Machine.execSts t f s
  | .mld t f => Sys2Proof.Machine.execMld t f s
  | .mst t f => Sys2Proof.Machine.execMst t f s
  | .pref t f => Sys2Proof.Machine.execPref t f s
  | .stashAlloc t f => Sys2Proof.Machine.execStashAlloc t f s
  | .stashFind t f => Sys2Proof.Machine.execStashFind t f s
  | .tmma t f => Sys2Proof.Machine.execTmma t f s
  | .tgemv t f => Sys2Proof.Machine.execTgemv t f s
  | .accSwap t f => Sys2Proof.Machine.execAccSwap t f s
  | .vAdd t f => Sys2Proof.Machine.execVAdd t f s
  | .vSub t f => Sys2Proof.Machine.execVSub t f s
  | .vMul t f => Sys2Proof.Machine.execVMul t f s
  | .vFma t f => Sys2Proof.Machine.execVFma t f s
  | .vFms t f => Sys2Proof.Machine.execVFms t f s
  | .vNeg t f => Sys2Proof.Machine.execVNeg t f s
  | .vAbs t f => Sys2Proof.Machine.execVAbs t f s
  | .vMin t f => Sys2Proof.Machine.execVMin t f s
  | .vMax t f => Sys2Proof.Machine.execVMax t f s
  | .vAdds t f => Sys2Proof.Machine.execVAdds t f s
  | .vSubs t f => Sys2Proof.Machine.execVSubs t f s
  | .vAnd t f => Sys2Proof.Machine.execVAnd t f s
  | .vOr t f => Sys2Proof.Machine.execVOr t f s
  | .vXor t f => Sys2Proof.Machine.execVXor t f s
  | .vShl t f => Sys2Proof.Machine.execVShl t f s
  | .vShr t f => Sys2Proof.Machine.execVShr t f s
  | .vSar t f => Sys2Proof.Machine.execVSar t f s
  | .vCmpeq t f => Sys2Proof.Machine.execVCmpeq t f s
  | .vCmplt t f => Sys2Proof.Machine.execVCmplt t f s
  | .vCmple t f => Sys2Proof.Machine.execVCmple t f s
  | .vCmpun t f => Sys2Proof.Machine.execVCmpun t f s
  | .vSel t f => Sys2Proof.Machine.execVSel t f s
  | .vDiv t f => Sys2Proof.Machine.execVDiv t f s
  | .vRcp t f => Sys2Proof.Machine.execVRcp t f s
  | .vSqrt t f => Sys2Proof.Machine.execVSqrt t f s
  | .vRsqrt t f => Sys2Proof.Machine.execVRsqrt t f s
  | .vExp t f => Sys2Proof.Machine.execVExp t f s
  | .vExp2 t f => Sys2Proof.Machine.execVExp2 t f s
  | .vLog t f => Sys2Proof.Machine.execVLog t f s
  | .vLog2 t f => Sys2Proof.Machine.execVLog2 t f s
  | .vTanh t f => Sys2Proof.Machine.execVTanh t f s
  | .vSigmoid t f => Sys2Proof.Machine.execVSigmoid t f s
  | .vSilu t f => Sys2Proof.Machine.execVSilu t f s
  | .vGelu t f => Sys2Proof.Machine.execVGelu t f s
  | .vGeluT t f => Sys2Proof.Machine.execVGeluT t f s
  | .vSoftplus t f => Sys2Proof.Machine.execVSoftplus t f s
  | .vSin t f => Sys2Proof.Machine.execVSin t f s
  | .vCos t f => Sys2Proof.Machine.execVCos t f s
  | .vDrelu t f => Sys2Proof.Machine.execVDrelu t f s
  | .vDsigmoid t f => Sys2Proof.Machine.execVDsigmoid t f s
  | .vDtanh t f => Sys2Proof.Machine.execVDtanh t f s
  | .vDexp t f => Sys2Proof.Machine.execVDexp t f s
  | .vDsoftmax t f => Sys2Proof.Machine.execVDsoftmax t f s
  | .vDsilu t f => Sys2Proof.Machine.execVDsilu t f s
  | .vDgelu t f => Sys2Proof.Machine.execVDgelu t f s
  | .vDgeluT t f => Sys2Proof.Machine.execVDgeluT t f s
  | .vDsoftplus t f => Sys2Proof.Machine.execVDsoftplus t f s
  | .vSum t f => Sys2Proof.Machine.execVSum t f s
  | .vDot t f => Sys2Proof.Machine.execVDot t f s
  | .vMaxi t f => Sys2Proof.Machine.execVMaxi t f s
  | .vMini t f => Sys2Proof.Machine.execVMini t f s
  | .vMov t f => Sys2Proof.Machine.execVMov t f s
  | .rndu t f => Sys2Proof.Machine.execRndu t f s
  | .rndb t f => Sys2Proof.Machine.execRndb t f s
  | .drop t f => Sys2Proof.Machine.execDrop t f s
  | .rndx t f => Sys2Proof.Machine.execRndx t f s
  | .cvt t f => Sys2Proof.Machine.execCvt t f s
  | .chOpen t f => Sys2Proof.Machine.execChOpen t f s
  | .chOpenReader t f => Sys2Proof.Machine.execChOpenReader t f s
  | .chSend t f => Sys2Proof.Machine.execChSend t f s
  | .chRecv t f => Sys2Proof.Machine.execChRecv t f s
  | .chClose t f => Sys2Proof.Machine.execChClose t f s
  | .chPoll t f => Sys2Proof.Machine.execChPoll t f s
  | .sumpAdd t f => Sys2Proof.Machine.execSumpAdd t f s
  | .signal t f => Sys2Proof.Machine.execSignal t f s
  | .wait t f => Sys2Proof.Machine.execWait t f s
  | .arm t f => Sys2Proof.Machine.execArm t f s
  | .read t f => Sys2Proof.Machine.execRead t f s
  | .cas t f => Sys2Proof.Machine.execCas t f s
  | .commit t f => Sys2Proof.Machine.execCommit t f s
  | .fence t f => Sys2Proof.Machine.execFence t f s
  | .waittag t f => Sys2Proof.Machine.execWaittag t f s
  | .done t f => Sys2Proof.Machine.execDone t f s
  | .yield t f => Sys2Proof.Machine.execYield t f s
  | .issueQuantumExpiry c => Sys2Proof.Machine.execIssueQuantumExpiry c s
  | .icacheMissFill t => Sys2Proof.Machine.execIcacheMissFill t s
  | .tagComplete t op e => Sys2Proof.Machine.execTagComplete t op e s
  | .tileChunkEnd c => Sys2Proof.Machine.execTileChunkEnd c s
  | .swapTakeEffect c => Sys2Proof.Machine.execSwapTakeEffect c s
  | .drainComplete c => Sys2Proof.Machine.execDrainComplete c s
  | .vectorMicroopEnd c => Sys2Proof.Machine.execVectorMicroopEnd c s
  | .coreRetire c => Sys2Proof.Machine.execCoreRetire c s
  | .sessionOpen p => Sys2Proof.Machine.execSessionOpen p s
  | .sessionClose p => Sys2Proof.Machine.execSessionClose p s
  | .sessionIdleTimeout place => Sys2Proof.Machine.execSessionIdleTimeout place s
  | .getInfo p => Sys2Proof.Machine.execGetInfo p s
  | .regRead p => Sys2Proof.Machine.execRegRead p s
  | .regWrite p => Sys2Proof.Machine.execRegWrite p s
  | .fabResetReqOrderly p => Sys2Proof.Machine.execFabResetReqOrderly p s
  | .fabResetReqAbrupt p => Sys2Proof.Machine.execFabResetReqAbrupt p s
  | .handover p => Sys2Proof.Machine.execHandover p s
  | .setTopology p => Sys2Proof.Machine.execSetTopology p s
  | .setRoutes p => Sys2Proof.Machine.execSetRoutes p s
  | .portRetrain p => Sys2Proof.Machine.execPortRetrain p s
  | .portDark p => Sys2Proof.Machine.execPortDark p s
  | .portWake p => Sys2Proof.Machine.execPortWake p s
  | .portDisable p => Sys2Proof.Machine.execPortDisable p s
  | .portReset p => Sys2Proof.Machine.execPortReset p s
  | .portRecheck p => Sys2Proof.Machine.execPortRecheck p s
  | .portRebalance p => Sys2Proof.Machine.execPortRebalance p s
  | .portLimits p => Sys2Proof.Machine.execPortLimits p s
  | .portBootServe p => Sys2Proof.Machine.execPortBootServe p s
  | .contextCreate p => Sys2Proof.Machine.execContextCreate p s
  | .contextDestroy p => Sys2Proof.Machine.execContextDestroy p s
  | .contextSetClass p => Sys2Proof.Machine.execContextSetClass p s
  | .loadProgram p => Sys2Proof.Machine.execLoadProgram p s
  | .bindSlot p => Sys2Proof.Machine.execBindSlot p s
  | .setDeadline p => Sys2Proof.Machine.execSetDeadline p s
  | .unbindSlot p => Sys2Proof.Machine.execUnbindSlot p s
  | .memMapMap p => Sys2Proof.Machine.execMemMapMap p s
  | .memMapUnmap p => Sys2Proof.Machine.execMemMapUnmap p s
  | .memMapSetPartition p => Sys2Proof.Machine.execMemMapSetPartition p s
  | .bulkCreateQp p => Sys2Proof.Machine.execBulkCreateQp p s
  | .bulkDestroyQp p => Sys2Proof.Machine.execBulkDestroyQp p s
  | .bulkRegisterKey p => Sys2Proof.Machine.execBulkRegisterKey p s
  | .bulkDeregisterKey p => Sys2Proof.Machine.execBulkDeregisterKey p s
  | .bulkBindSlot p => Sys2Proof.Machine.execBulkBindSlot p s
  | .bulkUnbindSlot p => Sys2Proof.Machine.execBulkUnbindSlot p s
  | .stepBegin p => Sys2Proof.Machine.execStepBegin p s
  | .stepCommit p => Sys2Proof.Machine.execStepCommit p s
  | .stepAbort p => Sys2Proof.Machine.execStepAbort p s
  | .stepAbortForce p => Sys2Proof.Machine.execStepAbortForce p s
  | .run p => Sys2Proof.Machine.execRun p s
  | .preempt p => Sys2Proof.Machine.execPreempt p s
  | .preemptSwap p => Sys2Proof.Machine.execPreemptSwap p s
  | .securePolicy p => Sys2Proof.Machine.execSecurePolicy p s
  | .secureNow p => Sys2Proof.Machine.execSecureNow p s
  | .restore p => Sys2Proof.Machine.execRestore p s
  | .reshard p => Sys2Proof.Machine.execReshard p s
  | .serveJoin p => Sys2Proof.Machine.execServeJoin p s
  | .serveLeave p => Sys2Proof.Machine.execServeLeave p s
  | .readCounters p => Sys2Proof.Machine.execReadCounters p s
  | .readEvents p => Sys2Proof.Machine.execReadEvents p s
  | .readDeadlineRecords p => Sys2Proof.Machine.execReadDeadlineRecords p s
  | .readTally p => Sys2Proof.Machine.execReadTally p s
  | .powerPolicy p => Sys2Proof.Machine.execPowerPolicy p s
  | .fwLoad p => Sys2Proof.Machine.execFwLoad p s
  | .fwLoadVerifyDone => Sys2Proof.Machine.execFwLoadVerifyDone s
  | .attest p => Sys2Proof.Machine.execAttest p s
  | .debugPeek p => Sys2Proof.Machine.execDebugPeek p s
  | .flitReceive port wire => Sys2Proof.Machine.execFlitReceive port wire s
  | .replayTimeout port => Sys2Proof.Machine.execReplayTimeout port s
  | .nakRepeatTimeout port => Sys2Proof.Machine.execNakRepeatTimeout port s
  | .idleFlitTimer port => Sys2Proof.Machine.execIdleFlitTimer port s
  | .helloTimer port => Sys2Proof.Machine.execHelloTimer port s
  | .helloReceive port h => Sys2Proof.Machine.execHelloReceive port h s
  | .helloAcceptTimeout port => Sys2Proof.Machine.execHelloAcceptTimeout port s
  | .helloWaitTimeout port => Sys2Proof.Machine.execHelloWaitTimeout port s
  | .linkCtlReceive port m => Sys2Proof.Machine.execLinkCtlReceive port m s
  | .linkCtlRepeat port => Sys2Proof.Machine.execLinkCtlRepeat port s
  | .laneLockLoss port lane => Sys2Proof.Machine.execLaneLockLoss port lane s
  | .trainingAttemptEnd port passing peerWidth locked rttNs => Sys2Proof.Machine.execTrainingAttemptEnd port passing peerWidth locked rttNs s
  | .v8FallbackTimeout port => Sys2Proof.Machine.execV8FallbackTimeout port s
  | .retrainLimitExpiry port => Sys2Proof.Machine.execRetrainLimitExpiry port s
  | .downRetryTimer port => Sys2Proof.Machine.execDownRetryTimer port s
  | .signalDetect port => Sys2Proof.Machine.execSignalDetect port s
  | .noSignalTimeout port => Sys2Proof.Machine.execNoSignalTimeout port s
  | .darkNoticeRepeat port => Sys2Proof.Machine.execDarkNoticeRepeat port s
  | .darkNoticeReceive port ns => Sys2Proof.Machine.execDarkNoticeReceive port ns s
  | .darkDrainComplete port => Sys2Proof.Machine.execDarkDrainComplete port s
  | .darkDrainLimit port => Sys2Proof.Machine.execDarkDrainLimit port s
  | .darkWindowEnd port => Sys2Proof.Machine.execDarkWindowEnd port s
  | .refclkLnkLoss k => Sys2Proof.Machine.execRefclkLnkLoss k s
  | .packetRoute ingress half sub p => Sys2Proof.Machine.execPacketRoute ingress half sub p s
  | .lossReceive p => Sys2Proof.Machine.execLossReceive p s
  | .responseLimitExpiry tag => Sys2Proof.Machine.execResponseLimitExpiry tag s
  | .mbResendTimeout slot dir => Sys2Proof.Machine.execMbResendTimeout slot dir s
  | .mbHeadReceive p => Sys2Proof.Machine.execMbHeadReceive p s
  | .pageWriteReceive p => Sys2Proof.Machine.execPageWriteReceive p s
  | .landingPageCommit slot q page => Sys2Proof.Machine.execLandingPageCommit slot q page s
  | .creditRepeatTimer slot q => Sys2Proof.Machine.execCreditRepeatTimer slot q s
  | .creditReceive p => Sys2Proof.Machine.execCreditReceive p s
  | .sequencerDispatch half => Sys2Proof.Machine.execSequencerDispatch half s
  | .egressPageCommit slot dir page => Sys2Proof.Machine.execEgressPageCommit slot dir page s
  | .egressStream slot dir => Sys2Proof.Machine.execEgressStream slot dir s
  | .stashWaitGranted slot => Sys2Proof.Machine.execStashWaitGranted slot s
  | .spillFetchComplete slot mb => Sys2Proof.Machine.execSpillFetchComplete slot mb s
  | .kvRelayForward slot => Sys2Proof.Machine.execKvRelayForward slot s
  | .deadlineLate slot backward => Sys2Proof.Machine.execDeadlineLate slot backward s
  | .groupReceive slot idx => Sys2Proof.Machine.execGroupReceive slot idx s
  | .commitAnswer t => Sys2Proof.Machine.execCommitAnswer t s
  | .effectResponseReceive p => Sys2Proof.Machine.execEffectResponseReceive p s
  | .chMsgReceive p => Sys2Proof.Machine.execChMsgReceive p s
  | .chOpenRequestReceive p => Sys2Proof.Machine.execChOpenRequestReceive p s
  | .chCloseRequestReceive p => Sys2Proof.Machine.execChCloseRequestReceive p s
  | .chAckReceive p => Sys2Proof.Machine.execChAckReceive p s
  | .chOpenRetryTimer c n => Sys2Proof.Machine.execChOpenRetryTimer c n s
  | .chStallExpiry t => Sys2Proof.Machine.execChStallExpiry t s
  | .syncOpApply p => Sys2Proof.Machine.execSyncOpApply p s
  | .syncRespReceive p => Sys2Proof.Machine.execSyncRespReceive p s
  | .syncRetryTimer t => Sys2Proof.Machine.execSyncRetryTimer t s
  | .sumpAddPacket p => Sys2Proof.Machine.execSumpAddPacket p s
  | .sumpDeliveryComplete half engine sess => Sys2Proof.Machine.execSumpDeliveryComplete half engine sess s
  | .memLineAccess a => Sys2Proof.Machine.execMemLineAccess a s
  | .rowRepairCopyDone stack channel rank bank row => Sys2Proof.Machine.execRowRepairCopyDone stack channel rank bank row s
  | .memRemoteRequest r => Sys2Proof.Machine.execMemRemoteRequest r s
  | .memRespReceive p => Sys2Proof.Machine.execMemRespReceive p s
  | .memRetryTimer tag => Sys2Proof.Machine.execMemRetryTimer tag s
  | .scrubStep stack err => Sys2Proof.Machine.execScrubStep stack err s
  | .mdCeIntervalEnd stack => Sys2Proof.Machine.execMdCeIntervalEnd stack s
  | .hotspotWindowEnd stack requests waiting partition => Sys2Proof.Machine.execHotspotWindowEnd stack requests waiting partition s
  | .stackTempRead stack readings => Sys2Proof.Machine.execStackTempRead stack readings s
  | .orderlyResetWaitExpiry d => Sys2Proof.Machine.execOrderlyResetWaitExpiry d s
  | .stackInitComplete d => Sys2Proof.Machine.execStackInitComplete d s
  | .diePacketReceive d group lanes bundle trailer corrected uncorrectable => Sys2Proof.Machine.execDiePacketReceive d group lanes bundle trailer corrected uncorrectable s
  | .hopControlWord d group w => Sys2Proof.Machine.execHopControlWord d group w s
  | .groupRetestDone d group failed => Sys2Proof.Machine.execGroupRetestDone d group failed s
  | .fabCeIntervalEnd d => Sys2Proof.Machine.execFabCeIntervalEnd d s
  | .dieAbruptReset d => Sys2Proof.Machine.execDieAbruptReset d s
  | .watchdogExpiry d => Sys2Proof.Machine.execWatchdogExpiry d s
  | .clockLoss d island => Sys2Proof.Machine.execClockLoss d island s
  | .dieRejoin d r => Sys2Proof.Machine.execDieRejoin d r s
  | .refclkEthStop => Sys2Proof.Machine.execRefclkEthStop s
  | .refclkEthReturn => Sys2Proof.Machine.execRefclkEthReturn s
  | .refclkHoldoverEnd => Sys2Proof.Machine.execRefclkHoldoverEnd s
  | .sealVote ctx => Sys2Proof.Machine.execSealVote ctx s
  | .sealLimitExpiry ctx => Sys2Proof.Machine.execSealLimitExpiry ctx s
  | .verdictApply ctx => Sys2Proof.Machine.execVerdictApply ctx s
  | .swapHoldExpiry ctx => Sys2Proof.Machine.execSwapHoldExpiry ctx s
  | .freezeWaitExpiry ctx => Sys2Proof.Machine.execFreezeWaitExpiry ctx s
  | .swapSaveComplete ctx => Sys2Proof.Machine.execSwapSaveComplete ctx s
  | .swapInComplete ctx => Sys2Proof.Machine.execSwapInComplete ctx s
  | .captureLocalCopyDone => Sys2Proof.Machine.execCaptureLocalCopyDone s
  | .parityPartReceive p => Sys2Proof.Machine.execParityPartReceive p s
  | .journalPageReceive fab tensor page step data => Sys2Proof.Machine.execJournalPageReceive fab tensor page step data s
  | .captureReport => Sys2Proof.Machine.execCaptureReport s
  | .captureAbandon => Sys2Proof.Machine.execCaptureAbandon s
  | .restoreComplete ctx results => Sys2Proof.Machine.execRestoreComplete ctx results s
  | .reshardChunkAck ctx status pathLost => Sys2Proof.Machine.execReshardChunkAck ctx status pathLost s
  | .powerLoopTick => Sys2Proof.Machine.execPowerLoopTick s
  | .canaryUpdate d n rate => Sys2Proof.Machine.execCanaryUpdate d n rate s
  | .capTick power => Sys2Proof.Machine.execCapTick power s
  | .capExceeded => Sys2Proof.Machine.execCapExceeded s
  | .thermalReading readings => Sys2Proof.Machine.execThermalReading readings s
  | .resetNAssert ns => Sys2Proof.Machine.execResetNAssert ns s
  | .pwrGoodDeassert => Sys2Proof.Machine.execPwrGoodDeassert s
  | .railOutOfRange vaux => Sys2Proof.Machine.execRailOutOfRange vaux s
  | .domainFault d => Sys2Proof.Machine.execDomainFault d s
  | .packageStart ethRate dies => Sys2Proof.Machine.execPackageStart ethRate dies s
  | .heartbeatTimer => Sys2Proof.Machine.execHeartbeatTimer s
  | .takeover => Sys2Proof.Machine.execTakeover s
  | .standbySyncDone => Sys2Proof.Machine.execStandbySyncDone s
  | .ethLinkChange up => Sys2Proof.Machine.execEthLinkChange up s
  | .arpRequest target vlan => Sys2Proof.Machine.execArpRequest target vlan s
  | .neighbourSolicitation target vlan => Sys2Proof.Machine.execNeighbourSolicitation target vlan s
  | .icmpEchoRequest v6 payload vlan => Sys2Proof.Machine.execIcmpEchoRequest v6 payload vlan s
  | .frameDrop fragment => Sys2Proof.Machine.execFrameDrop fragment s
  | .relayRequest ip port header inner => Sys2Proof.Machine.execRelayRequest ip port header inner s
  | .cmdRelayReceive p => Sys2Proof.Machine.execCmdRelayReceive p s
  | .cmdReplyReceive p => Sys2Proof.Machine.execCmdReplyReceive p s
  | .roceSendReceive qpn psn data => Sys2Proof.Machine.execRoceSendReceive qpn psn data s
  | .roceWriteReceive qpn psn rkey addr data ce => Sys2Proof.Machine.execRoceWriteReceive qpn psn rkey addr data ce s
  | .roceReadReceive qpn psn rkey addr len => Sys2Proof.Machine.execRoceReadReceive qpn psn rkey addr len s
  | .roceAckReceive qpn psn kind => Sys2Proof.Machine.execRoceAckReceive qpn psn kind s
  | .roceAckTimeout qpn => Sys2Proof.Machine.execRoceAckTimeout qpn s
  | .roceRnrTimer qpn => Sys2Proof.Machine.execRoceRnrTimer qpn s
  | .pfcFrameReceive prio quanta => Sys2Proof.Machine.execPfcFrameReceive prio quanta s
  | .cnpReceive qpn => Sys2Proof.Machine.execCnpReceive qpn s
  | .cnpRateIncrease qpn => Sys2Proof.Machine.execCnpRateIncrease qpn s
  | .bootPortUpTimeout => Sys2Proof.Machine.execBootPortUpTimeout s
  | .announceTimer => Sys2Proof.Machine.execAnnounceTimer s
  | .bootOffer serial xid server port imageLen ip6 ip4 bundleLen => Sys2Proof.Machine.execBootOffer serial xid server port imageLen ip6 ip4 bundleLen s
  | .bootData serial xid block data => Sys2Proof.Machine.execBootData serial xid block data s
  | .bootBlockTimeout block => Sys2Proof.Machine.execBootBlockTimeout block s
  | .bootTransferTimeout => Sys2Proof.Machine.execBootTransferTimeout s
  | .bootVerifyDone stackTab => Sys2Proof.Machine.execBootVerifyDone stackTab s
  | .perBootKeyReady => Sys2Proof.Machine.execPerBootKeyReady s
  | .jtagIdcode => Sys2Proof.Machine.execJtagIdcode s
  | .jtagSamplePreload cells => Sys2Proof.Machine.execJtagSamplePreload cells s
  | .jtagExtest => Sys2Proof.Machine.execJtagExtest s
  | .jtagExtestPulse => Sys2Proof.Machine.execJtagExtestPulse s
  | .jtagExtestTrain => Sys2Proof.Machine.execJtagExtestTrain s
  | .jtagClamp => Sys2Proof.Machine.execJtagClamp s
  | .jtagHighz => Sys2Proof.Machine.execJtagHighz s
  | .jtagBypass => Sys2Proof.Machine.execJtagBypass s
  | .trstNAssert => Sys2Proof.Machine.execTrstNAssert s
  | .selfRefreshExit d => Sys2Proof.Machine.execSelfRefreshExit d s
  | .ringTransfer c e => Sys2Proof.Machine.execRingTransfer c e s
  | .stashSpillDone slot mb => Sys2Proof.Machine.execStashSpillDone slot mb s
  | .preemptionDone ctx => Sys2Proof.Machine.execPreemptionDone ctx s
  | .refclkLnkReturn k => Sys2Proof.Machine.execRefclkLnkReturn k s
  | .pwrGoodAssert => Sys2Proof.Machine.execPwrGoodAssert s
  | .vauxInRange => Sys2Proof.Machine.execVauxInRange s
  | .vauxRemoved => Sys2Proof.Machine.execVauxRemoved s
  | .railBackInRange vaux => Sys2Proof.Machine.execRailBackInRange vaux s
  | .pfcPauseEnd prio => Sys2Proof.Machine.execPfcPauseEnd prio s

end Sys2Proof.Machine
end

