-- ==== Sys2Proof/Safety.lean ====
section
/-! DEFINITION. The words in which claims are stated: when an instruction issues and what issuing changes, when a
Luajo command is taken up and what its answer changes, and what a command leaves alone. -/

namespace Sys2Proof.Machine

/-- Instruction `i` is the one thread `t`'s core issues now: the thread is selected (R218), its PC lies in the
program's code (R226, R230), and the word is a legal encoding (R225). -/
def Issues (p : Pkg) (t : Nat) (i : Instr) : Prop :=
  p.selected t = true ∧ (p.thr t).pcOut = false ∧ (p.thr t).pc.toNat < (p.slot (p.thr t).slot).codeWords ∧ i.wf = true

/-- The PC of the next instruction. -/
def Thr.nextPc (t : Thr) : Int := t.pc.toNat + 1

/-- What issuing one instruction that its thread completes changes (R218, R378): the thread becomes `th`, every
other thread stays; the core's issue slot and its CNT_CORE_ISSUED move on; items are marked pre-empted only where an LC
thread takes the slot; nothing else of the package changes. -/
def Retired (p q : Pkg) (t : Nat) (th : Thr) : Prop :=
  q.thr t = th ∧ (∀ k, k ≠ t → q.thr k = p.thr k) ∧
  q.core (coreOf t) = (p.core (coreOf t)).issued (threadIn t) true ∧
  (∀ g, g ≠ coreOf t → q.core g = p.core g) ∧
  q.ctr .coreIssued (coreOf t) = (p.ctr .coreIssued (coreOf t) + 1) % 2 ^ 64 ∧
  (p.thrLc t = false → q.slots = p.slots) ∧
  q = { p with thrs := q.thrs, cores := q.cores, ctrs := q.ctrs, slots := q.slots }

/-- Instruction `i` of thread `t` completes with the effect `e`: the package is `e` with the PC of `t` advanced by one and
the instruction accounted (R218, R235). -/
def Completes (s : State) (t : Nat) (i : Instr) (e : Pkg) : Prop := exec i s = .next { s with pkg := e.retire t }

/-- Instruction `i` of thread `t` has issued with the effect `e` and the thread waits: it is blocked on `w`, its PC names the
next instruction, nothing else of its record and no memory differs from `e`. -/
def IssuesAndWaits (s : State) (t : Nat) (i : Instr) (e : Pkg) (w : Wait) : Prop :=
  ∃ q, exec i s = .next { s with pkg := q } ∧
    q.thr t = { (e.thr t).goto (e.thr t).nextPc with
      state := .blocked, wait := w, waitPc := (s.pkg.thr t).pc.toNat, waitInst := (encode i).getD 0 } ∧
    (∀ k, k ≠ t → q.thr k = e.thr k) ∧ q.mem = e.mem ∧ q.syncs = e.syncs ∧ q.reqs = e.reqs ∧ q.out = e.out

/-- Instruction `i` has not issued: its thread is blocked on `w`, its PC still names the instruction (R218). -/
def MustWait (s : State) (t : Nat) (i : Instr) (w : Wait) : Prop :=
  ∃ q, exec i s = .next { s with pkg := q } ∧
    q.thr t = { s.pkg.thr t with state := .blocked, wait := w, waitPc := (s.pkg.thr t).pc.toNat, waitInst := (encode i).getD 0 } ∧
    (∀ k, k ≠ t → q.thr k = s.pkg.thr k) ∧ q.mem = s.pkg.mem ∧ q.out = s.pkg.out

/-- Instruction `i` faults its thread before any effect: cause `c` is recorded with its PC and word (R245). -/
def Traps (s : State) (t : Nat) (i : Instr) (c : Nat) : Prop :=
  exec i s = .next { s with pkg := s.pkg.thrFault t c (s.pkg.thr t).pc.toNat ((encode i).getD 0) }

/-! ## Luajo -/

/-- The package once a command of session place `i` is counted (R439, R466). -/
def Pkg.taken (p : Pkg) (op : LjOp) (k : Pkt) : Pkg := (p.arrivedBy k.src).ljDecided op

/-- Packet `k` is a command of row `op` that session place `i` takes up: it reaches the firmware (R424, R427), its header and
MAC are right (R442, R444), a place for it is free and no image is under verification (R447), its number is fresh (R446), the
session may issue it (R445), its parameters `ts` pass every format rule of R525 order 5, and the package state
allows it (Table 17.5b). -/
def Ready (p : Pkg) (op : LjOp) (k : Pkt) (i : Nat) (ts : List TlvE) : Prop :=
  p.hears k.src = true ∧ pktBadHeader k = false ∧ p.placeOf k = some i ∧
  mac16 (p.session i).kCmd (pktHeader k op.code ++ k.params) = toLe 16 k.mac.toNat ∧
  p.undecided < 256 ∧ (p.ident.loading = none ∨ op.legal = 0) ∧
  k.seq.toNat ≠ 0 ∧ (p.session i).high < k.seq.toNat + 64 ∧
  (∀ e ∈ (p.session i).cache, e.1 ≠ k.seq.toNat) ∧ (∀ w ∈ (p.session i).waiting, w.seq ≠ k.seq.toNat) ∧
  ((p.session i).bound = true → op.bound = true ∧ (op.ofCtx = true → k.context.toNat = (p.session i).ctx)) ∧
  (p.taken op k).ljFormat op k = (none, ts) ∧ (p.taken op k).legalIn op.legal = true

/-- Command `x` commits: the package becomes `q` and the command is answered OK with the parameters `ps`, its reply MACed,
kept and sent (R446, R448). -/
def Commits (s : State) (x : Instr) (op : LjOp) (k : Pkt) (i : Nat) (q : Pkg) (ps : List Byte) : Prop :=
  exec x s = .next { s with pkg := q.reply i (pktWait k op.code) 0 ps }
/-- Command `x` commits as `q` and its reply waits (R449). -/
def Pends (s : State) (x : Instr) (op : LjOp) (k : Pkt) (i : Nat) (q : Pkg) : Prop :=
  exec x s = .next { s with pkg := q.ljWait i (pktWait k op.code) }
/-- Command `x` is refused with a status and reply parameters, and changes nothing else (R448). -/
def Refuses (s : State) (x : Instr) (op : LjOp) (k : Pkt) (i st : Nat) (ps : List Byte) : Prop :=
  exec x s = .next { s with pkg := (s.pkg.taken op k).reply i (pktWait k op.code) st ps }

/-! ## Events and packets -/

/-- Command `x` completes: the package becomes `q`, and what waits in the queue stays. -/
def Makes (s : State) (x : Instr) (q : Pkg) : Prop := exec x s = .next { s with pkg := q }
/-- Packet `k` is one of kind `kind` for this device, of the accepted epoch where its kind carries one (R129). -/
def Reaches (p : Pkg) (k : LPkt) (kind : Nat) : Prop :=
  k.pkind.toNat = kind ∧ k.dst.toNat = p.fabAddr ∧ (kind = 12 ∨ kind = 13 ∨ k.epoch.toNat = p.epoch)

end Sys2Proof.Machine
end

