-- ==== Sys2Proof/Certificates/Slice0/Obligations.lean ====
section
/-! DEFINITION. The statements about the package, for the provers. Each docstring names the rules it formalises. -/

open Sys2Proof Sys2Proof.Machine

/-! ## The scalar, address and branch classes (R228 to R230) -/

/-- R228 (Table 8.10): every two-operand scalar instruction that issues writes RD with its result of RA and of RB or
the sign-extended IMM32, the PC advances by one, and nothing else of the package changes but what issuing accounts. R228: FADD, FSUB, FMUL, FDIV, FFMA, FMIN, FMAX, FLT, FCVTIF and FCVTFI write RD with the FP32 result of the low 32
bits of their operands, upper bits zero (FCVTFI: the 64-bit integer); issuing changes nothing else. -/
def Obligations.ScalarValueResults : Prop :=
  (
    ∀ (s : State) (t : ThreadId) (f : FmtS), ∀ r ∈ ([
        (.add, fun a b => a + b), (.sub, fun a b => a - b), (.mul, fun a b => a * b),
        (.mulhu, fun a b => BitVec.ofNat 64 (a.toNat * b.toNat / 2 ^ 64)),
        (.mulh, fun a b => BitVec.ofInt 64 (a.toInt * b.toInt / 2 ^ 64)),
        (.divu, fun a b => if b = 0 then BitVec.allOnes 64 else a / b),
        (.div, fun a b => if b = 0 then BitVec.allOnes 64 else a.sdiv b),
        (.remu, fun a b => if b = 0 then a else a % b),
        (.rem, fun a b => if b = 0 then a else a.srem b),
        (.and, fun a b => a &&& b), (.or, fun a b => a ||| b), (.xor, fun a b => a ^^^ b),
        (.shl, fun a b => a <<< (b.toNat % 64)), (.shr, fun a b => a >>> (b.toNat % 64)),
        (.sar, fun a b => a.sshiftRight (b.toNat % 64)),
        (.min, fun a b => if a.toInt ≤ b.toInt then a else b), (.max, fun a b => if b.toInt ≤ a.toInt then a else b),
        (.minu, fun a b => if a.toNat ≤ b.toNat then a else b), (.maxu, fun a b => if b.toNat ≤ a.toNat then a else b),
        (.slt, fun a b => if a.toInt < b.toInt then 1 else 0), (.sltu, fun a b => if a.toNat < b.toNat then 1 else 0),
        (.seq, fun a b => if a = b then 1 else 0)] : List ((ThreadId → FmtS → Instr) × (W64 → W64 → W64))),
      Issues s.pkg t (r.1 t f) →
      ∃ q, exec (r.1 t f) s = .next { s with pkg := q } ∧ Retired s.pkg q t
        (((s.pkg.thr t).setS f.rd.toNat (r.2 ((s.pkg.thr t).rs f.ra.toNat)
          (if f.i then f.imm.signExtend 64 else (s.pkg.thr t).rs f.rb.toNat))).goto (s.pkg.thr t).nextPc)) ∧
  (
    ∀ (s : State) (t : ThreadId) (f : FmtS), ∀ r ∈ ([
        (.fadd, fun a b _ => w32 (fpAdd fFP32 (lo32 a) (lo32 b))), (.fsub, fun a b _ => w32 (fpSub fFP32 (lo32 a) (lo32 b))),
        (.fmul, fun a b _ => w32 (fpMul fFP32 (lo32 a) (lo32 b))), (.fdiv, fun a b _ => w32 (fpDiv fFP32 (lo32 a) (lo32 b))),
        (.ffma, fun a b c => w32 (fpFma fFP32 false (lo32 a) (lo32 b) (lo32 c))),
        (.fmin, fun a b _ => w32 (fpMinMax fFP32 false (lo32 a) (lo32 b))), (.fmax, fun a b _ => w32 (fpMinMax fFP32 true (lo32 a) (lo32 b))),
        (.flt, fun a b _ => if fpLt fFP32 (lo32 a) (lo32 b) then 1 else 0),
        (.fcvtif, fun a _ _ => w32 (fltIeee fFP32 .rne (intVal 64 a.toNat)).code),
        (.fcvtfi, fun a _ _ => BitVec.ofNat 64 (intConv 64 .rne (fltDec fFP32 (lo32 a))).code)] :
          List ((ThreadId → FmtS → Instr) × (W64 → W64 → W64 → W64))),
      Issues s.pkg t (r.1 t f) →
      ∃ q, exec (r.1 t f) s = .next { s with pkg := q } ∧ Retired s.pkg q t
        (((s.pkg.thr t).setS f.rd.toNat (r.2 ((s.pkg.thr t).rs f.ra.toNat)
          (if f.i then f.imm.signExtend 64 else (s.pkg.thr t).rs f.rb.toNat) ((s.pkg.thr t).rs f.rc.toNat))).goto (s.pkg.thr t).nextPc))

/-- R190, R191, R216, R228: LI, the reads of VL, VM, the status word and the interval counter, SETVL, SETVM, CLRST and
RDINFO on operands they allow: the register named takes its value, the PC advances, and nothing else changes. -/
def Obligations.ScalarStateResults : Prop :=
  ∀ (s : State) (t : ThreadId) (f : FmtS) (l : FmtL),
    let th := s.pkg.thr t
    let b := opB th f
    let done (i : Instr) (v : Thr) : Prop :=
      Issues s.pkg t i → ∃ q, exec i s = .next { s with pkg := q } ∧ Retired s.pkg q t (v.goto th.nextPc)
    done (.li t l) (th.setS l.rd.toNat (l.imm.signExtend 64)) ∧
    done (.getvl t f) (th.setS f.rd.toNat (th.vl.setWidth 64)) ∧
    done (.getvm t f) (th.setS f.rd.toNat th.vm) ∧
    done (.getst t f) (th.setS f.rd.toNat th.st) ∧
    done (.rdic t f) (th.setS f.rd.toNat (BitVec.ofNat 64 (s.pkg.icount (dieOfCore (coreOf t))))) ∧
    done (.clrst t f) { th with st := th.st &&& ~~~b } ∧
    (b.toNat ≤ 1048576 → done (.setvl t f) { th with vl := b.setWidth 21 }) ∧
    (fld b.toNat 22 41 = 0 → done (.setvm t f) { th with vm := b }) ∧
    (∀ v, ([(0, th.rank), (1, th.nthr), (2, th.kind), (3, th.ctx), (4, th.slot), (5, th.nlive)] : List (Nat × Nat)).lookup b.toNat = some v →
      done (.rdinfo t f) (th.setS f.rd.toNat (BitVec.ofNat 64 v)))

/-- R228, R245: SETVL above 1,048,576, SETVM with a reserved bit set and RDINFO of another selector fault their thread
with ILLEGAL_OPERAND; a word that is not well formed faults it with ILLEGAL_ENCODING before any effect (R225). R231: an address or length that is no multiple of 8 bytes faults with ALIGNMENT, a length below 8 or above 4,128,768
bytes with ILLEGAL_OPERAND, a local range that the context may not reach with ADDRESS; an instruction that names a pending
tag waits for it (R236). -/
def Obligations.OperandTraps : Prop :=
  (
    ∀ (s : State) (t : ThreadId) (f : FmtS) (i : Instr), i ∈ [Instr.setvl t f, .setvm t f, .rdinfo t f, .add t f] →
      s.pkg.selected t = true → (s.pkg.thr t).pcOut = false →
      (s.pkg.thr t).pc.toNat < (s.pkg.slot (s.pkg.thr t).slot).codeWords →
      let trap (c : Nat) : Prop := exec i s = .next { s with pkg := s.pkg.thrFault t c (s.pkg.thr t).pc.toNat ((encode i).getD 0) }
      (i.wf = false → trap fIllegalEncoding) ∧
      (i = .setvl t f → i.wf = true → 1048576 < (opB (s.pkg.thr t) f).toNat → trap fIllegalOperand) ∧
      (i = .setvm t f → i.wf = true → fld (opB (s.pkg.thr t) f).toNat 22 41 ≠ 0 → trap fIllegalOperand) ∧
      (i = .rdinfo t f → i.wf = true → 5 < (opB (s.pkg.thr t) f).toNat → trap fIllegalOperand)) ∧
  (
    ∀ (s : State) (t : ThreadId) (f : FmtM), ∀ r ∈ ([(.mld, false), (.mst, true)] : List ((ThreadId → FmtM → Instr) × Bool)),
      let p := s.pkg
      let th := p.thr t
      let a := effAddr th f
      let v := (th.rs f.rl.toNat).toNat
      let n := v % 2 ^ 32
      Issues p t (r.1 t f) →
      (th.tagPending f.tag.toNat = true → MustWait s t (r.1 t f) (.tags (1#64 <<< f.tag.toNat))) ∧
      (th.tagPending f.tag.toNat = false → (th.rs f.rs.toNat).toNat % 8 = 0 →
        (a % 8 ≠ 0 ∨ n % 8 ≠ 0 → Traps s t (r.1 t f) fAlignment) ∧
        (a % 8 = 0 → n % 8 = 0 → n < 8 ∨ 4128768 < n → Traps s t (r.1 t f) fIllegalOperand) ∧
        (a % 8 = 0 → n % 8 = 0 → 8 ≤ n → n ≤ 4128768 → p.isRemote (fld v 32 24) = false →
          p.progAccess th.ctx (p.ctxCores th.ctx) a n r.2 = .address → Traps s t (r.1 t f) fAddress)))

/-- R229: AADD, AMOV, ALI and AWIN write an address register modulo 2^48, ARD writes an s-register with an address
register zero-extended; issuing changes nothing else. R230: BR goes to PC + OFF40 exactly when its condition holds of RA and RB and to PC + 1 otherwise; JAL and JALR
write PC + 1 to RD and go to PC + OFF40 and to RA + OFF40, RA read first; nothing else changes. -/
def Obligations.AddressAndBranch : Prop :=
  (
    ∀ (s : State) (t : ThreadId) (f : FmtS) (l : FmtL),
      let th := s.pkg.thr t
      let b := opB th f
      let done (i : Instr) (v : Thr) : Prop :=
        Issues s.pkg t i → ∃ q, exec i s = .next { s with pkg := q } ∧ Retired s.pkg q t (v.goto th.nextPc)
      done (.aadd t f) (th.setA f.rd.toNat (BitVec.ofNat 48 ((th.ra f.ra.toNat).toNat + b.toNat))) ∧
      done (.amov t f) (th.setA f.rd.toNat (BitVec.ofNat 48 b.toNat)) ∧
      done (.ard t f) (th.setS f.rd.toNat (BitVec.ofNat 64 (th.ra f.ra.toNat).toNat)) ∧
      done (.ali t l) (th.setA l.rd.toNat l.imm) ∧
      done (.awin t f) (th.setA f.rd.toNat (BitVec.ofNat 48 (0x8000_0000_0000 + coreOf t * 0x40_0000 + b.toNat)))) ∧
  (
    ∀ (s : State) (t : ThreadId) (f : FmtB),
      let th := s.pkg.thr t
      let a := th.rs f.ra.toNat
      let b := th.rs f.rb.toNat
      let done (i : Instr) (v : Thr) : Prop :=
        Issues s.pkg t i → ∃ q, exec i s = .next { s with pkg := q } ∧ Retired s.pkg q t v
      (∀ k ∈ ([(0, a = b), (1, a ≠ b), (2, a.toInt < b.toInt), (3, b.toInt ≤ a.toInt), (4, a.toNat < b.toNat), (5, b.toNat ≤ a.toNat)] : List (Nat × Prop)),
        f.cond.toNat = k.1 →
        (k.2 → done (.br t f) (th.goto (th.pc.toNat + f.off.toInt))) ∧ (¬k.2 → done (.br t f) (th.goto th.nextPc))) ∧
      done (.jal t f) ((th.setS f.ra.toNat (BitVec.ofNat 64 (th.pc.toNat + 1))).goto (th.pc.toNat + f.off.toInt)) ∧
      done (.jalr t f) ((th.setS f.ra.toNat (BitVec.ofNat 64 (th.pc.toNat + 1))).goto (b.toNat + f.off.toInt)))

/-! ## The memory and tile classes (R231, R232) -/

/-- R231, R282: local memory instructions whose operands pass their tests. LDS from the core's own window returns the
8 bytes at once; from a stack it issues and waits. STS, MLD and MST start a background operation on TAG that remembers
address, length and offset. R231, R238, R299: with another device's fabric address STS and MST stage an effect of the open group, MLD sends its
MEM_READ requests. -/
def Obligations.MemoryInstructions : Prop :=
  (
    ∀ (s : State) (t : ThreadId) (f : FmtM),
      let p := s.pkg
      let th := p.thr t
      let a := effAddr th f
      let v := (th.rs f.rl.toNat).toNat
      let n := v % 2 ^ 32
      let off := (th.rs f.rs.toNat).toNat
      let word (i : Instr) : W64 := (encode i).getD 0
      (Issues p t (.lds t f) → p.memTest t a 8 false = none →
        (isWindowAddr a = true → windowCore a = coreOf t → p.spBadIn (coreOf t) (windowOff a) 8 = false →
          Completes s t (.lds t f) ((p.setThr t (th.setS f.rs.toNat (BitVec.ofNat 64 (p.num a 8)))).spRead (coreOf t) (windowOff a) 8)) ∧
        (isWindowAddr a = false → IssuesAndWaits s t (.lds t f)
          (p.setThr t (th.addBg 0 (word (.lds t f)) (.loadWord f.rs.toNat a f.hint.toNat))) (.memData f.rs.toNat th.bgNext))) ∧
      (th.tagPending f.tag.toNat = false →
        (p.isRemote (stsFab th f) = false → Issues p t (.sts t f) → p.memTest t a 8 true = none →
          Completes s t (.sts t f) (p.setThr t (th.addBg f.tag.toNat (word (.sts t f)) (.storeWord a (th.rs f.rs.toNat) f.hint.toNat)))) ∧
        (p.isRemote (fld v 32 24) = false → Issues p t (.mld t f) → off % 8 = 0 → p.memTest t a n false = none → p.spTest t off n true = none →
          Completes s t (.mld t f) (p.setThr t (th.addParts f.tag.toNat (word (.mld t f)) a n fun x => .load (a + x.1) (off + x.1) x.2 f.hint.toNat))) ∧
        (p.isRemote (fld v 32 24) = false → Issues p t (.mst t f) → off % 8 = 0 → p.memTest t a n true = none → p.spTest t off n false = none →
          Completes s t (.mst t f) (p.setThr t (th.addParts f.tag.toNat (word (.mst t f)) a n fun x => .store (a + x.1) (off + x.1) x.2 f.hint.toNat))))) ∧
  (
    ∀ (s : State) (t : ThreadId) (f : FmtM),
      let p := s.pkg
      let th := p.thr t
      let a := effAddr th f
      let v := (th.rs f.rl.toNat).toNat
      let n := v % 2 ^ 32
      let fab := fld v 32 24
      let off := (th.rs f.rs.toNat).toNat
      let word (i : Instr) : W64 := (encode i).getD 0
      (th.tagPending f.tag.toNat = false →
        (p.isRemote fab = true → Issues p t (.mld t f) → off % 8 = 0 → memLimits a n = none → p.spTest t off n true = none →
          Completes s t (.mld t f) ((p.setThr t (th.addBg f.tag.toNat (word (.mld t f)) (.remote (pieces n).length))).remoteRead
            t th.bgNext fab a off n f.hint.toNat)) ∧
        (p.seqOpen t = false → th.grp.length < 64 →
          (p.isRemote (stsFab th f) = true → Issues p t (.sts t f) → memLimits a 8 = none → th.grpBytes + 8 ≤ 0x20_0000 →
            Completes s t (.sts t f) (p.setThr t (Thr.addBg
              { th with grp := th.grp ++ [.writeWord (stsFab th f) a (th.rs f.rs.toNat) f.hint.toNat], grpBytes := th.grpBytes + 8 }
              f.tag.toNat (word (.sts t f)) (.staged none)))) ∧
          (p.isRemote fab = true → Issues p t (.mst t f) → off % 8 = 0 → memLimits a n = none → p.spTest t off n false = none → th.grpBytes + n ≤ 0x20_0000 →
            Completes s t (.mst t f) (p.setThr t (Thr.addBg
              { th with grp := th.grp ++ [.write fab a off n f.hint.toNat], grpBytes := th.grpBytes + n }
              f.tag.toNat (word (.mst t f)) (.staged none)))))))

/-- R231, R296: PREF of a resident range touches the memory-side cache line by line and returns no data. R79, R81:
STASH_ALLOC answers an address, or 0 with STASH_RC for recompute; STASH_FIND answers the address of the micro-batch's
allocation, or 0. -/
def Obligations.PrefetchAndStash : Prop :=
  ∀ (s : State) (t : ThreadId) (f : FmtM),
    let p := s.pkg
    let th := p.thr t
    let a := effAddr th f
    let v := (th.rs f.rl.toNat).toNat
    let n := v % 2 ^ 32
    let mb := match p.theItem t with | some i => dMb i.desc | none => 0
    (Issues p t (.pref t f) → p.isRemote (fld v 32 24) = false → p.memTest t a n false = none → isStackAddr a = true →
      p.stackTest a n = .ok →
      Completes s t (.pref t f)
        ((p.devTouch a n false f.hint.toNat).lastUse f.hint.toNat a n)) ∧
    (Issues p t (.stashAlloc t f) → n % 8 = 0 → 8 ≤ n → n ≤ 4128768 →
      (∀ x q, p.stashAlloc th.slot mb (fld v 32 16) (fld v 48 1) (ceilDiv n 65536) = (.addr x, q) →
        Completes s t (.stashAlloc t f) (q.modThr t fun th => th.setS f.rs.toNat (BitVec.ofNat 64 x))) ∧
      (∀ q, p.stashAlloc th.slot mb (fld v 32 16) (fld v 48 1) (ceilDiv n 65536) = (.recompute, q) →
        Completes s t (.stashAlloc t f) (q.modThr t fun th => { th.setS f.rs.toNat 0 with st := th.st ||| 2#64 }))) ∧
    (Issues p t (.stashFind t f) →
      (∀ x, (p.slot th.slot).stashOf mb (fld v 32 16) (fld v 48 1) = some x →
        x.spilled = false →
        Completes s t (.stashFind t f)
          (p.setThr t (th.setS f.rs.toNat (BitVec.ofNat 64 ((p.slot th.slot).stashBase + x.first * 65536))))) ∧
      ((p.slot th.slot).stashOf mb (fld v 32 16) (fld v 48 1) = none →
        Completes s t (.stashFind t f) (p.setThr t (th.setS f.rs.toNat 0))))

/-- R162, R180, R182, R183: a START of a thread whose core's engine is free opens a sequence; an operation of the owner
joins the running ones; one that opens nothing and owns nothing faults with ENGINE_OWNER. R175: ACC_SWAP of the owner
leaves a swap to the engine, its drain on TAG. -/
def Obligations.TileIssue : Prop :=
  ∀ (s : State) (t : ThreadId) (f : FmtD), ∀ r ∈ ([(.tmma, false), (.tgemv, true)] : List ((ThreadId → FmtD → Instr) × Bool)),
    let p := s.pkg
    let th := p.thr t
    let g := coreOf t
    let c := p.core g
    let addr := (th.ra f.ar.toNat).toNat
    let d := p.num addr 64
    descTest g addr 64 = none → p.spBadIn g (windowOff addr) 64 = false →
    (Issues p t (r.1 t f) → p.tileTest t r.2 d = none →
      let op : TileOp := { thr := t, gemv := r.2, desc := d, pc := th.pc.toNat, inst := (encode (r.1 t f)).getD 0,
                           snap := if bit d 330 then some (snapOf th (th.pc + 1)) else none }
      (c.owner = none →
        (bit d 330 = true → Completes s t (r.1 t f) ((p.spRead g (windowOff addr) 64).takeStart g op)) ∧
        (bit d 330 = false → (c.parked.any fun o => o.thr == t.val) = false → Traps s t (r.1 t f) fEngineOwner)) ∧
      (c.owner = some t.val → c.swap = none → bit d 330 = false → c.running ≠ [] →
        Completes s t (r.1 t f) ((p.spRead g (windowOff addr) 64).setCore g { c.widen op with running := c.running ++ [op] }))) ∧
    (Issues p t (.accSwap t f) → th.tagPending f.tag.toNat = false → c.owner = some t.val → c.swap = none →
      let k : Drain := { thr := t, tag := f.tag.toNat, desc := d, pc := th.pc.toNat, inst := (encode (.accSwap t f)).getD 0,
                         bgId := th.bgNext, rows := c.region.1, cols := c.region.2, gemvRows := c.seqGemv }
      p.drainTest t k = none →
      Completes s t (.accSwap t f) (((p.spRead g (windowOff addr) 64).setThr t (th.addBg f.tag.toNat k.inst .engine)).modCore g fun c => { c with swap := some k }))

/-! ## The vector, random and convert classes (R233, Table 8.15) -/

/-- R189, R225, R233: a vector, RNDU, RNDB or DROP instruction whose operands pass their tests enters the vector engine with
its own operation, sources and offsets, its format, mask and shape, and completes on TAG; with VL = 0 it is done at once. -/
def Obligations.VectorIssue : Prop :=
  ∀ (s : State) (t : ThreadId) (f : FmtV), ∀ r ∈ ([
      (.vAdd, 5, 0, 2), (.vSub, 5, 1, 2), (.vMul, 5, 2, 2), (.vFma, 5, 3, 3), (.vFms, 5, 4, 3), (.vNeg, 5, 5, 1), (.vAbs, 5, 6, 1),
      (.vMin, 5, 7, 2), (.vMax, 5, 8, 2), (.vAdds, 5, 9, 2), (.vSubs, 5, 10, 2), (.vAnd, 5, 11, 2), (.vOr, 5, 12, 2),
      (.vXor, 5, 13, 2), (.vShl, 5, 14, 2), (.vShr, 5, 15, 2), (.vSar, 5, 16, 2), (.vCmpeq, 5, 17, 2), (.vCmplt, 5, 18, 2),
      (.vCmple, 5, 19, 2), (.vCmpun, 5, 20, 2), (.vSel, 5, 21, 3), (.vDiv, 5, 22, 2), (.vRcp, 5, 23, 1), (.vSqrt, 5, 24, 1),
      (.vRsqrt, 5, 25, 1), (.vExp, 5, 26, 1), (.vExp2, 5, 27, 1), (.vLog, 5, 28, 1), (.vLog2, 5, 29, 1), (.vTanh, 5, 30, 1),
      (.vSigmoid, 5, 31, 1), (.vSilu, 5, 32, 1), (.vGelu, 5, 33, 1), (.vGeluT, 5, 34, 1), (.vSoftplus, 5, 35, 1),
      (.vSin, 5, 36, 1), (.vCos, 5, 37, 1), (.vDrelu, 5, 38, 2), (.vDsigmoid, 5, 39, 2), (.vDtanh, 5, 40, 2), (.vDexp, 5, 41, 2),
      (.vDsoftmax, 5, 42, 2), (.vDsilu, 5, 43, 2), (.vDgelu, 5, 44, 2), (.vDgeluT, 5, 45, 2), (.vDsoftplus, 5, 46, 2),
      (.vSum, 5, 47, 1), (.vDot, 5, 48, 2), (.vMaxi, 5, 49, 1), (.vMini, 5, 50, 1), (.vMov, 5, 51, 1),
      (.rndu, 8, 0, 0), (.rndb, 8, 1, 0), (.drop, 8, 2, 3)] : List ((ThreadId → FmtV → Instr) × Nat × Nat × Nat)),
    let p := s.pkg
    let th := p.thr t
    let g := coreOf t
    let n := r.2.2.2
    let xa := (th.ra f.x.toNat).toNat
    let x := (th.rs f.x.toNat).toNat
    let d := if f.shape then p.num xa 32 else 0
    let src (k : Nat) (kind : BitVec 2) (v : BitVec 5) : Nat := if k < n then (if kind = 2 then v.toNat else (th.rs v.toNat).toNat) else 0
    let o : VecOp := {
      thr := t, cls := r.2.1, opc := r.2.2.1, bgId := th.bgNext, tag := f.tag.toNat, pc := th.pc.toNat, inst := (encode (r.1 t f)).getD 0
      fmt := f.fmt.toNat, d := (th.rs f.d.toNat).toNat, av := src 0 f.aK f.a, bv := src 1 f.bK f.b, cv := src 2 f.cK f.c
      ak := if 0 < n then f.aK.toNat else 1, bk := if 1 < n then f.bK.toNat else 1, ck := if 2 < n then f.cK.toNat else 1
      vl := th.vl.toNat, rows := if f.shape then fld d 0 16 + 1 else 1, shaped := f.shape, shape := d, msk := f.msk.toNat, vm := th.vm
      nfx := f.nfx, elemBase := if f.shape then fld d 96 32 else fld x 0 32, stag := if f.shape then fld d 128 32 else fld x 32 32 }
    Issues p t (r.1 t f) → th.tagPending f.tag.toNat = false →
    (th.vl = 0 → Completes s t (r.1 t f) (p.vecDone (coreOf t) 0 8)) ∧
    (1048576 < th.vl.toNat → Traps s t (r.1 t f) fIllegalOperand) ∧
    (0 < th.vl.toNat → th.vl.toNat ≤ 1048576 → f.shape = false → o.d < 2 ^ 22 →
      (o.ak = 0 → o.av < 2 ^ 22) → (o.bk = 0 → o.bv < 2 ^ 22) → (o.ck = 0 → o.cv < 2 ^ 22) →
      (o.cls = 8 → o.opc = 2 → o.bv ≤ 65535 ∧ o.cv < 2 ^ 32) →
      p.vecTest t o = none → Completes s t (r.1 t f) (p.vecIssue t o)) ∧
    (0 < th.vl.toNat → th.vl.toNat ≤ 1048576 → f.shape = true → o.d < 2 ^ 22 →
      p.shapeTest g xa (r.2.1 == 5 && r.2.2.1 == 42) (decide (0 < n) && f.aK == 2)
        ((decide (1 < n) && f.bK == 2) || (decide (2 < n) && f.cK == 2)) = none →
      p.spBadIn g (windowOff xa) 32 = false →
      (o.ak = 0 → o.av < 2 ^ 22) → (o.bk = 0 → o.bv < 2 ^ 22) → (o.ck = 0 → o.cv < 2 ^ 22) →
      (o.cls = 8 → o.opc = 2 → o.bv ≤ 65535 ∧ o.cv < 2 ^ 32) →
      p.vecTest t o = none → Completes s t (r.1 t f) ((p.spRead g (windowOff xa) 32).vecIssue t o))

/-- R198, R208, R526: CVT whose descriptor and rows pass their tests enters the vector engine as a conversion and completes
on TAG. R205: RNDX writes RC outputs of the context's explicit stream RB, in order, at scratchpad offset RA, and the item
holds the stream at the next offset. -/
def Obligations.ConvertAndRandom : Prop :=
  ∀ (s : State) (t : ThreadId) (f : FmtD) (x : FmtS),
    let p := s.pkg
    let th := p.thr t
    let g := coreOf t
    let da := (th.ra f.ar.toNat).toNat
    let sa := (th.ra f.ar2.toNat).toNat
    let sh := if f.shape then p.num sa 32 else 0
    let o : VecOp := {
      thr := t, cls := 9, opc := 0, bgId := th.bgNext, tag := f.tag.toNat, pc := th.pc.toNat, inst := (encode (.cvt t f)).getD 0
      ak := 1, bk := 1, ck := 1, vl := th.vl.toNat, rows := if f.shape then fld sh 0 16 + 1 else 1, shaped := f.shape, shape := sh
      msk := f.msk.toNat, vm := th.vm, desc := p.num da 64 }
    (Issues p t (.cvt t f) → th.tagPending f.tag.toNat = false → 0 < th.vl.toNat → th.vl.toNat ≤ 1048576 →
      descTest g da 64 = none → (f.shape = true → p.shapeTest g sa false true false = none ∧ p.spBadIn g (windowOff sa) 32 = false) →
      p.spBadIn g (windowOff da) 64 = false → p.cvtTest t o = none →
      Completes s t (.cvt t f) (((p.spRead g (windowOff da) 64).spRead g (windowOff sa) (if f.shape then 32 else 0)).vecIssue t o)) ∧
    (let off := (th.rs x.ra.toNat).toNat
     let i := (opB th x).toNat
     let k := (th.rs x.rc.toNat).toNat
     let me := p.itemOf t
     ∀ a, Issues p t (.rndx t x) → p.seqOpen t = false → i < 64 → 16 * k ≤ 0x40_0000 → p.streamAddr th.ctx i = some a →
      p.spTest t off (16 * k) true = none → p.streamHeld th.ctx i me = false →
      let e := match p.theItem t with | some y => tabGet 0 y.streams i | none => 0
      let next := fld e 0 64 - 1
      let base := fld e 64 128
      Completes s t (.rndx t x)
        ((p.modPos me.1 me.2 fun y => { y with streams := tabSet 0 y.streams i (put 64 128 base + put 0 64 (next + k + 1)) }).spStore g off
          ((List.range k).map fun j => toLe 16 (gen (p.loadNum a 16) ((base + next + j) % 2 ^ 128))).flatten))

/-! ## The channel, sump, sync and commit classes (R235) -/

/-- R249, R252, R254: CH_OPEN of a free entry opens it towards its target and sends an OPEN request; with READER set it claims
a free endpoint for the item under the descriptor's key and answers the kept requests of that key. R253, R255, R258: CH_SEND takes its credits and stages the message, or waits for credits; CH_RECV returns the rest of the
head message and its words, 0 when every connection has closed, or waits; CH_CLOSE marks the entry; CH_POLL counts. -/
def Obligations.ChannelInstructions : Prop :=
  (
    ∀ (s : State) (t : ThreadId) (f : FmtS), ∀ c ∈ ([.chOpen, .chOpenReader] : List (ThreadId → FmtS → Instr)),
      let p := s.pkg
      let th := p.thr t
      let g := coreOf t
      let n := (th.rs f.rc.toNat).toNat
      let fl := opB th f
      let tgt := th.rs f.ra.toNat
      let us := fld fl.toNat 8 20
      let off := tgt.toNat
      let d := p.spNum g off 32
      let ep := p.ep g n
      Issues p t (c t f) → n < 32 → fld fl.toNat 2 6 = 0 → fld fl.toNat 28 36 = 0 →
      (bit fl.toNat 0 = false → fld tgt.toNat 24 9 < 384 → fld tgt.toNat 62 2 = 0 → us = 0 ∨ (10 ≤ us ∧ us ≤ 1000000) →
        (p.conn g n).state = 0 →
        Completes s t (c t f) ((p.setConn g n { state := 1, item := p.itemOf t, target := tgt, flags := fl, opening := (p.conn g n).opening + 1 }).sendOpen g n)) ∧
      (bit fl.toNat 0 = true → p.spTest t off 32 false = none → p.spBadIn g off 32 = false →
        fld d 2 6 = 0 → fld d 32 128 = 0 → fld d 160 96 = 0 → fld d 8 24 ≠ 0 → bit d 1 = false → ep.state ≠ 1 →
        Completes s t (c t f)
          ((ep.pendingOpen.filter fun q => fld q.kspec.toNat 32 24 == fld d 8 24).foldl (fun p q => p.openReq g n q)
            ((p.spRead g off 32).setEp g n {
              state := 1, reader := some (p.itemOf t), multi := bit d 0, key := fld d 8 24, lastKey := ep.lastKey
              pendingOpen := ep.pendingOpen.filter fun q => fld q.kspec.toNat 32 24 != fld d 8 24 })))) ∧
  (
    ∀ (s : State) (t : ThreadId) (f : FmtS),
      let p := s.pkg
      let th := p.thr t
      let g := coreOf t
      let n := (th.rs f.ra.toNat).toNat
      let off := (opB th f).toNat
      let w := (th.rs f.rc.toNat).toNat
      let c := p.conn g n
      let ep := p.ep g n
      (Issues p t (.chSend t f) → p.seqOpen t = false → n < 32 → 0 < w → w ≤ 16 → p.spTest t off (64 * w) false = none →
        c.state = 1 ∨ c.state = 2 → c.item = p.itemOf t → c.closing = false →
        (w ≤ c.credits → th.grp.length < 64 → th.grpBytes + 64 * w ≤ 0x20_0000 →
          Completes s t (.chSend t f) ((p.setConn g n { c with credits := c.credits - w }).setThr t
            { th with grp := th.grp ++ [.send n off w c.target c.opening], grpBytes := th.grpBytes + 64 * w })) ∧
        (c.credits < w → MustWait s t (.chSend t f) (.chSend n p.now w))) ∧
      (Issues p t (.chRecv t f) → p.readerOf t n = true →
        (epUnread ep = 0 → ep.everOpened = true → ep.conns = [] → Completes s t (.chRecv t f) (p.setThr t (th.setS f.rd.toNat 0))) ∧
        (epUnread ep = 0 → ep.conns ≠ [] → MustWait s t (.chRecv t f) (.chRecv n)) ∧
        (∀ m, epUnread ep ≠ 0 → (ep.unread.filter fun m => !m.isEmpty).head? = some m → p.spTest t off (64 * m.length) true = none →
          Completes s t (.chRecv t f)
            ((((p.epTake g n m.length).epGrants g n).spStore g off (p.epBytes g n m.length)).modThr t
              fun th => th.setS f.rd.toNat (BitVec.ofNat 64 m.length)))) ∧
      (Issues p t (.chClose t f) → n < 32 → c.state ≠ 0 → c.item = p.itemOf t →
        Completes s t (.chClose t f) ((p.setConn g n { c with closing := true }).closeConn g n)) ∧
      (Issues p t (.chPoll t f) → p.readerOf t n = true →
        Completes s t (.chPoll t f) (p.setThr t (th.setS f.rd.toNat (BitVec.ofNat 64 (epUnread ep))))))

/-- R238, R266, R274: SUMP_ADD, SIGNAL, ARM and CAS stage one effect in the thread's open group, which keeps at most 64
effects and 2 MiB; READ and WAIT send their SYNC_OP request and wait for the answer. -/
def Obligations.SyncAndSumpIssue : Prop :=
  ∀ (s : State) (t : ThreadId) (f : FmtS),
    let p := s.pkg
    let th := p.thr t
    let d := (th.rs f.ra.toNat).toNat
    let b := (opB th f).toNat
    let c := (th.rs f.rc.toNat).toNat
    let stage (e : Effect) (bytes : Nat) : Pkg := p.setThr t { th with grp := th.grp ++ [e], grpBytes := th.grpBytes + bytes }
    let desig : Prop := fld d 12 4 = 0 ∧ fld d 40 24 = 0
    let ask (op a : Nat) : LPkt := p.mkPkt (fld d 16 24) 6 th.slot (syncSpec (fld d 0 12) op (coreOf t) (threadIn t) th.ctx) (toLe 8 a)
    p.seqOpen t = false →
    (th.grp.length < 64 →
      (desig → th.grpBytes ≤ 0x20_0000 →
        (Issues p t (.signal t f) → Completes s t (.signal t f) (stage (.sync 0 d b 0) 0)) ∧
        (Issues p t (.arm t f) → Completes s t (.arm t f) (stage (.sync 2 d b 0) 0)) ∧
        (Issues p t (.cas t f) → Completes s t (.cas t f) (stage (.sync 4 d b c) 0))) ∧
      (Issues p t (.sumpAdd t f) → d < 2 ^ 29 → 68 ≤ c → c ≤ 2097152 → th.grpBytes + c ≤ 0x20_0000 → p.spTest t b c false = none →
        p.spBadIn (coreOf t) b 64 = false → sumpElt (fld (p.spNum (coreOf t) b 64) 40 2) ≠ 0 →
        (c - 64) % sumpElt (fld (p.spNum (coreOf t) b 64) 40 2) = 0 →
        Completes s t (.sumpAdd t f) ((p.spRead (coreOf t) b 64).setThr t
          { th with grp := th.grp ++ [.sump d b c], grpBytes := th.grpBytes + c }))) ∧
    (th.grp.length = 64 → desig → ∀ i ∈ [Instr.signal t f, .arm t f, .cas t f], Issues p t i → Traps s t i fEffectLimit) ∧
    (desig →
      (Issues p t (.wait t f) →
        IssuesAndWaits s t (.wait t f) (p.request (ask 1 b) (.sync t)).2 (.sync (p.request (ask 1 b) (.sync t)).1 none)) ∧
      (Issues p t (.read t f) →
        IssuesAndWaits s t (.read t f) (p.request (ask 3 0) (.sync t)).2 (.sync (p.request (ask 3 0) (.sync t)).1 (some f.rd.toNat))))

/-- R218, R235, R236, R238, R243: COMMIT closes the open group under its stream's next index, ships it and waits for the
answer; FENCE and WAITTAG complete when what they name is over and wait otherwise; DONE ends the thread once its group
is empty and no tag is pending, and may end the item; YIELD gives the issue slot up. -/
def Obligations.CommitClass : Prop :=
  ∀ (s : State) (t : ThreadId) (f : FmtS),
    let p := s.pkg
    let th := p.thr t
    let me := p.itemOf t
    let st := (th.rs f.ra.toNat).toNat
    let m := opB th f &&& ~~~(1#64)
    let ix := (match p.theItem t with | some i => tabGet 0 i.commitIdx st | none => 0) + 1
    let grp : Group := {
      id := (p.slot me.1).groupNext, thr := t, attempt := (match p.theItem t with | some i => i.attempt | none => 0), qpos := me.2
      ctx := th.ctx, stream := st, index := ix, pkts := (th.grp.map fun e => p.effPkts t th e).flatten
      owner := p.owners t th th.grp th.openWrites, sends := (th.grp.map Effect.sends).flatten }
    (Issues p t (.commit t f) → p.seqOpen t = false → st < 1024 →
      (th.grp.any fun e => p.spBadIn (coreOf t) e.range.1 e.range.2) = false →
      IssuesAndWaits s t (.commit t f)
        ((((p.spReads (coreOf t) (th.grp.map Effect.range)).modPos me.1 me.2 fun i => { i with commitIdx := tabSet 0 i.commitIdx st ix, undecided := i.undecided + 1 }).modSlot me.1
          fun x => { x with transit := x.transit ++ [grp], groupNext := x.groupNext + 1 }).setThr t { th with
            grp := [], grpBytes := 0, unacked := th.unacked + 1
            bg := th.bg.map fun b => match b.kind with | .staged none => { b with kind := .staged (some (st, ix)) } | _ => b })
        (.commit st)) ∧
    (Issues p t (.fence t f) → p.seqOpen t = false →
      (p.waitOver t { th with wait := .fence f.imm.toNat } = true → Completes s t (.fence t f) p) ∧
      (p.waitOver t { th with wait := .fence f.imm.toNat } = false → MustWait s t (.fence t f) (.fence f.imm.toNat))) ∧
    (Issues p t (.waittag t f) →
      (th.pend &&& m = 0 → Completes s t (.waittag t f) p) ∧ (th.pend &&& m ≠ 0 → MustWait s t (.waittag t f) (.tags m))) ∧
    (Issues p t (.done t f) →
      (th.grp ≠ [] → Traps s t (.done t f) fUncommitted) ∧
      (th.grp = [] → th.pend ≠ 0 → MustWait s t (.done t f) (.tags th.pend)) ∧
      (th.grp = [] → th.pend = 0 → exec (.done t f) s = .next { s with pkg :=
        ((((p.setThr t { th.goto th.nextPc with doneFlag := true, state := .idle, wait := .none }).countIssue t false).tryEnd
          me.1 me.2).ctxEval th.ctx).swapEval })) ∧
    (Issues p t (.yield t f) →
      ∃ q, exec (.yield t f) s = .next { s with pkg := q } ∧ q.thr t = th.goto th.nextPc ∧ (∀ k : Nat, k ≠ t → q.thr k = p.thr k) ∧
        q.core (coreOf t) = (p.core (coreOf t)).issued (threadIn t) false)

/-! ## Events of a core and of its engines (chapters 6 to 8) -/

/-- R212, R218, R259: a thread that has issued QUANTUM instructions in a row yields the slot; a miss costs its thread the
slot and is counted; a core retires with its items, its endpoints and EV_CORE_RETIRED; consumed words of a ring channel
are copied and its grants renewed. R214, R231, R236, R245, R288: a background operation that ends well moves its data, reads passing the memory-side cache and their
codewords, and completes its tag; one that meets a poisoned line or an uncorrectable scratchpad word faults its thread with POISON,
one that loses its path with PATH_LOST, each with the PC and word of its instruction; one that its memory makes wait stays. -/
def Obligations.CoreAndBackground : Prop :=
  (
    ∀ (s : State) (c : CoreId) (t : ThreadId) (e : Fin 32),
      let p := s.pkg
      let k := p.core c
      let h := p.core (coreOf t)
      (k.issuer.isSome = true → k.curQuantum ≤ k.consec → Makes s (.issueQuantumExpiry c) (p.setCore c { k with issuer := none, consec := 0 })) ∧
      (p.selected t = true → (p.thr t).wait ≠ .fetch → Makes s (.icacheMissFill t)
        (((p.setCore (coreOf t) { h with issuer := none, lastIssuer := threadIn t, consec := 0 }).bump .coreIcacheMiss (coreOf t)).blockThr t .fetch)) ∧
      ((p.thr t).wait = .fetch → Makes s (.icacheMissFill t) (p.resume t id)) ∧
      (k.retired = false → Makes s (.coreRetire c)
        ((((((p.causeItems 0x14 (dieOfCore c) fun j _ => (p.slot j).cores.contains c.val).killOn fun g => g == c.val).closeCoreEps c).modCore c
          fun k => { k with retired := true, issuer := none }).raise .coreRetired (dieOfCore c) noCtx c 0).floorEval)) ∧
      ((p.ep c e).state = 1 → Makes s (.ringTransfer c e) ((p.ringMove c e).epGrants c e))) ∧
  (
    ∀ (s : State) (t : ThreadId) (n : Nat) (b : Bg) (a off len hint x : Nat) (v : W64) (es : List (Nat × LineErr)),
      let p := s.pkg
      let g := coreOf t
      let r := p.memRead a len hint es
      (p.thr t).bg.find? (fun b => b.id == n) = some b →
      (b.kind = .load a off len hint →
        (p.bgTest a len = .ok → p.windowBad a len = false →
          (r.2.1 = false → Makes s (.tagComplete t n (.done es))
            (((((r.2.2.windowRead a len).countMem t a len).spStore g off r.1)).endBg t b.id)) ∧
          (r.2.1 = true → Makes s (.tagComplete t n (.done es)) (r.2.2.thrFault t fPoison b.pc b.inst))) ∧
        (p.bgTest a len = .ok → p.windowBad a len = true → Makes s (.tagComplete t n (.done es))
          ((p.setFlag .coreStatus (windowCore a) 2).thrFault t fPoison b.pc b.inst)) ∧
        (p.bgTest a len = .waits → Makes s (.tagComplete t n (.done es)) p) ∧
        (p.bgTest a len = .unavailable → Makes s (.tagComplete t n (.done es)) (p.thrFault t fPathLost b.pc b.inst)) ∧
        Makes s (.tagComplete t n .pathLost) (p.thrFault t fPathLost b.pc b.inst)) ∧
      (b.kind = .store a off len hint → p.bgTest a len = .ok →
        (p.spBadIn g off len = false → Makes s (.tagComplete t n (.done es))
          (((((p.spRead g off len).memWrite a (p.spBytes g off len) hint es).noteEgress t a len).countMem t a len).endBg t b.id)) ∧
        (p.spBadIn g off len = true → Makes s (.tagComplete t n (.done es)) ((p.setFlag .coreStatus g 2).thrFault t fPoison b.pc b.inst))) ∧
      (b.kind = .storeWord a v hint → p.bgTest a 8 = .ok → Makes s (.tagComplete t n (.done es))
        ((((p.memWrite a (toLe 8 v.toNat) hint es).noteEgress t a 8).countMem t a 8).endBg t b.id)) ∧
      (x < 0x40_0000 → Makes s (.tagComplete t n (.spUncorrectable x))
        (((p.modCore g fun c => { c with spBad := tabSet false c.spBad (x / 32) true }).setFlag .coreStatus g 2).thrFault t fPoison b.pc b.inst)))

/-- R170, R175, R178, R183, R189, R207: a K-chunk whose operands are readable accumulates; a swap takes effect once the queue
is drained, exchanging the live and shadow sets and recording the sequence's repeats and saturations; a drain ends with its
writes and its tag; a vector micro-operation writes and the engine goes on, or records
the operation's elements and steps. An uncorrectable operand word faults with POISON. -/
def Obligations.EngineEvents : Prop :=
  ∀ (s : State) (c : CoreId),
    let p := s.pkg
    let k := p.core c
    (∀ op ops, k.running = op :: ops →
      (p.rangesBad c (tileRanges op.gemv op.desc) = true → Makes s (.tileChunkEnd c) (p.spPoison op.thr op.pc op.inst)) ∧
      (p.rangesBad c (tileRanges op.gemv op.desc) = false → Makes s (.tileChunkEnd c) ((p.chunkRun c op).spReads c (tileRanges op.gemv op.desc)))) ∧
    (∀ d, k.swap = some d → k.running = [] → k.drain = none → Makes s (.swapTakeEffect c)
      (((p.setCore c { k with
          liveB := !k.liveB, swap := none, drain := some d
          engLast := BitVec.ofNat 64 (k.seqRepeats % 65536 + 65536 * k.seqSat) }).engGrant c (some d.thr)).ctxEval (p.thr d.thr).ctx)) ∧
    (∀ d, k.drain = some d → k.swap = none →
      (p.rangesBad c (drainVec d) = true → Makes s (.drainComplete c) (p.spPoison d.thr d.pc d.inst)) ∧
      (p.rangesBad c (drainVec d) = false → ((p.drainRun c d).core c).swap = none →
        let q := ((p.drainRun c d).spReads c (drainVec d)).modCore c fun k => { k with drain := none }
        Makes s (.drainComplete c) ((q.endBg d.thr d.bgId).ctxEval (q.thr d.thr).ctx))) ∧
    (∀ t o n, k.vrun = some t → k.vops.find? (fun o => o.thr == t) = some o → p.rangesBad c (p.vecReads c o) = false → o.next = some n →
      let q := (((p.vecWrite c o).spReads c (p.vecReads c o)).addCtr .vecElements c (p.activeCount c o)).addFree .vecBusySteps c
      let ops := (q.core c).vops
      let r := q.modCore c fun k => { k with
        vrun := none, vops := ops.filter (fun v => v.thr != t) ++ n :: ops.filter (fun v => v.thr == t && v.bgId != o.bgId) }
      Makes s (.vectorMicroopEnd c) ((r.vecNext c).ctxEval (r.thr t).ctx)) ∧
    (∀ t o, k.vrun = some t → k.vops.find? (fun o => o.thr == t) = some o → p.rangesBad c (p.vecReads c o) = false → o.next = none →
      let q := (((p.vecWrite c o).spReads c (p.vecReads c o)).addCtr .vecElements c (p.activeCount c o)).addFree .vecBusySteps c
      let ops := (q.core c).vops
      let r := (q.modCore c fun k => { k with
        vrun := none, vops := ops.filter (fun v => v.thr != t) ++ ops.filter (fun v => v.thr == t && v.bgId != o.bgId) }).vecDone c (o.rows * o.vl) o.steps
      Makes s (.vectorMicroopEnd c) (((r.endBg t o.bgId).vecNext c).ctxEval (r.thr t).ctx))

/-! ## Stage links (chapter 4) -/

/-- R96 to R98, R103, R106: a flit whose codewords do not correct, or whose CRC fails under the expected number, is discarded, counted, and
asks for a replay; of a flit that passes the acknowledgement and credits are taken, then its hello, its LINK_CTL message or its packet
content. R100: a port that takes no flits, or whose receive crossing is not ready (R331), ignores it. R97, R98, R109, R110, R112, R124: what a port sends by its timers: its hello, an IDLE flit, the NAK again, its LINK_CTL request again,
its dark notice again; a replay timeout replays from the oldest unacknowledged flit. -/
def Obligations.FlitsAndTimers : Prop :=
  (
    ∀ (s : State) (n : PortId) (wire bs : List Byte) (m : Nat),
      let p := s.pkg
      let q := p.port n
      let r := p.addCtr .ldFecCorr n m
      let hdr := leNat (bs.take 4)
      let body := (bs.drop 4).take 248
      let t := fld hdr 0 4
      (q.talks = false ∨ (p.xing (linkDie n) (n % 4)).ready = false → Makes s (.flitReceive n wire) p) ∧
      (q.talks = true → (p.xing (linkDie n) (n % 4)).ready = true →
        (fromWire (laneCount q.width) wire = none → Makes s (.flitReceive n wire) ((p.bump .ldFecUncorr n).discardFlit n)) ∧
        (fromWire (laneCount q.width) wire = some (bs, m) →
          (flitCrcOk bs q.rxSeq.toNat = false → Makes s (.flitReceive n wire) (((p.addCtr .ldFecCorr n m).bump .ldCrcErr n).discardFlit n)) ∧
          (flitCrcOk bs q.rxSeq.toNat = true → q.state = .active ∨ q.state = .narrow →
            (t = 0 → Makes s (.flitReceive n wire) (r.takeAck n hdr)) ∧
            (t = 5 → Makes s (.flitReceive n wire) ((r.takeAck n hdr).hello n (bytesHello body))) ∧
            (∀ c, t = 6 → Config.linkCtlOf body = some c → Makes s (.flitReceive n wire) ((r.takeAck n hdr).linkCtl n c)) ∧
            (((r.takeAck n hdr).port n).carrying = true → 1 ≤ t ∧ t ≤ 4 ∨ t = 7 →
              Makes s (.flitReceive n wire) ((r.takeAck n hdr).takeFlit n hdr body)))))) ∧
  (
    ∀ (s : State) (n : PortId) (w : Nat × Bool),
      let p := s.pkg
      let q := p.port n
      (q.talks = true → Makes s (.helloTimer n) (p.sendFlit n { ftype := 5, bclass := 0, payload := helloBytes (p.ownHello n) } false)) ∧
      (q.talks = true → q.state ≠ .hello → Makes s (.idleFlitTimer n) (p.sendFlit n idleFlit false)) ∧
      (q.carrying = true → q.nakWait = true →
        Makes s (.nakRepeatTimeout n) ((p.setPort n { q with nakPending := true }).sendFlit n idleFlit false)) ∧
      (q.carrying = true → q.replayBuf ≠ [] → Makes s (.replayTimeout n) (p.replay n)) ∧
      (q.ctlOut = some w → Makes s (.linkCtlRepeat n)
        (p.ctlFlit n (.request (widthFin w.1) (BitVec.ofNat 64 p.serial) (BitVec.ofNat 4 n)))) ∧
      (q.darkNoticeOut = true → Makes s (.darkNoticeRepeat n) (p.ctlFlit n (.darkNotice q.darkLen))))

/-- R113 to R116, R131, R134: in HELLO a hello of an unsupported version, or of version 1 on a port that does not run at 64 Gbit/s, quarantines
the port with its reason; so does one of another peer, and one of a planned neighbour whose logical port another port carries; the planned
neighbour of another logical port makes this port carry it, with EV_LD_REMAP, where swaps are accepted. Another epoch or plan quarantines; the
right peer's hello passes, and an accepting one activates the port; without one in time the port is quarantined, without any hello it
goes down. R107 to R111, R115, R131, R133, R136: training: an attempt in which both ends find lanes offers its width by LINK_CTL and reaches HELLO at the
narrowest offer, keeping its lane map when all its lanes passed and the host gave none, with no failures counted; a failed fast attempt is
followed by a full one at 128 Gbit/s, a failed full one counts, up to 8, and goes DOWN; the retry timer trains again, or holds the port DEAD
after eight failures; a signal starts training and its absence in time ends it. Whether a full training found a new calibration, and so raises
EV_LD_LANEMAP, is a free value (log entry 182). -/
def Obligations.HelloAndTraining : Prop :=
  (
    ∀ (s : State) (n : PortId) (h : Hello),
      let p := s.pkg
      let q := p.port n
      let v := q.versionWith h
      q.state = .hello → q.bootOpen = false → q.draining = false →
      (q.accepted = false →
        (v < q.minVersion ∨ v < 1 ∨ v < h.verMin.toNat ∨ (v == 1) ≠ q.rate64 → Makes s (.helloReceive n h) (p.quarantine n 3 (some h))) ∧
        (1 ≤ v → q.minVersion ≤ v → h.verMin.toNat ≤ v → (v == 1) = q.rate64 →
          (q.planned = none → Makes s (.helloReceive n h) (p.quarantine n 1 (some h))) ∧
          (q.planned ≠ none → helloIs h q.planned = false →
            (p.swapPort n h = none → Makes s (.helloReceive n h) (p.quarantine n 1 (some h))) ∧
            (∀ k, p.swapPort n h = some k →
              (q.acceptSwap = false → Makes s (.helloReceive n h) (p.quarantine n 2 (some h))) ∧
              (q.acceptSwap = true → q.logical ≠ k → h.epoch.toNat = p.epoch → h.planHash.toNat = p.planHash → h.accepted = false →
                Makes s (.helloReceive n h)
                  ((((p.setPort n { q with logical := k }).setFlag .portStatus n 4).raise .ldRemap (linkDie n) noCtx n k).modPort n fun x =>
                    { x with accepted := true, lastHello := some h })))) ∧
          (helloIs h q.planned = true → p.carriedElse n n = true → Makes s (.helloReceive n h) (p.quarantine n 1 (some h))) ∧
          (helloIs h q.planned = true → p.carriedElse n n = false →
            (h.epoch.toNat ≠ p.epoch ∨ h.planHash.toNat ≠ p.planHash → Makes s (.helloReceive n h) (p.quarantine n 4 (some h))) ∧
            (h.epoch.toNat = p.epoch → h.planHash.toNat = p.planHash →
              (h.accepted = false → Makes s (.helloReceive n h) (p.setPort n { q with accepted := true, lastHello := some h })) ∧
              (h.accepted = true → Makes s (.helloReceive n h) ((p.setPort n { q with accepted := true, lastHello := some h }).activate n h))))) ∧
        Makes s (.helloWaitTimeout n) (p.portDown n false)) ∧
      (q.accepted = true → Makes s (.helloAcceptTimeout n) (p.quarantine n 5 q.lastHello))) ∧
  (
    ∀ (s : State) (n : PortId) (passing : BitVec 18) (b : Fin 3) (rtt : Nat),
      let p := s.pkg
      let q := p.port n
      let lanes := bitsOf 18 passing.toNat
      (q.state = .training → q.draining = false →
        (∀ a, q.fastRetrain = false → widthFor lanes.length q.rate64 = some a →
          let w := Nat.max (Nat.max a b) (q.peerOffer.getD 0)
          let old := (List.range (laneCount w)).map (laneOf q.lanemap)
          let r := p.ctlFlit n (.request (widthFin a) (BitVec.ofNat 64 p.serial) (BitVec.ofNat 4 n))
          (w = 2 → q.rate64 = false) → q.hostMap = 0 → old.all lanes.contains = true → old.eraseDups.length = laneCount w →
          let x := r.take 1
          let y := x.2.modPort n fun q => { q with
            width := w, rtt := rtt, rttNew := true, fastRetrain := false, ctlOut := none, trainFails := 0, lanemap := laneMapOf old }
          Makes s (.trainingAttemptEnd n passing (some b) true rtt)
            ((if x.1 = 0 then y else y.raiseHb .ldLanemap (linkDie n) n (y.port n).lanemap).portHello n)) ∧
        (∀ w l, q.fastRetrain = true → widthFor ((((List.range (laneCount q.width)).map (laneOf q.lanemap)).filter lanes.contains).length) q.rate64 = none →
          Makes s (.trainingAttemptEnd n passing w l rtt) (p.setPort n { q with fastRetrain := false, rate64 := false, peerOffer := none })) ∧
        (∀ w l, q.fastRetrain = false → widthFor lanes.length q.rate64 = none →
          Makes s (.trainingAttemptEnd n passing w l rtt) ((p.setPort n { q with trainFails := Nat.min 8 (q.trainFails + 1) }).portDown n false)) ∧
        (q.v8 = true → q.fastRetrain = false → Makes s (.v8FallbackTimeout n) (p.setPort n { q with rate64 := true })) ∧
        (q.retrainFrom.isSome = true → Makes s (.retrainLimitExpiry n) (p.portDown n true)) ∧
        (q.planned.isSome = true → Makes s (.noSignalTimeout n) (p.portTo n .absent))) ∧
      (q.state = .absent → Makes s (.signalDetect n) (p.portTrain n false)) ∧
      (q.state = .down → tabGet false p.lnkLost (n / 4) = false → p.portHeld n = false →
        (8 ≤ q.trainFails → Makes s (.downRetryTimer n) ((p.portTo n .dead).linkLoss n true)) ∧
        (q.trainFails < 8 → Makes s (.downRetryTimer n) (p.portTrain n false))))

/-- R109, R110: a lane of the map that loses lock, and the peer's request, start a fast retrain of a port that carries; two
requests that cross are led by the lower serial; a request or an acknowledgement brings the peer's offer. R124, R125: a peer's dark notice is
acknowledged and drains the port; the longer of two windows holds; an acknowledgement ends the repeats. R124: a drained port enters DARK; one whose drain limit passes loses its traffic first; the window ends in a full training.
R118: the loss of a link clock puts its four ports DOWN, whatever their state, and its return lets them train. -/
def Obligations.LinkControlAndDark : Prop :=
  (
    ∀ (s : State) (n : PortId) (lane : Fin 18) (w : Fin 3) (serial : W64) (pp : BitVec 4) (ns : Nat),
      let p := s.pkg
      let q := p.port n
      let ack : LinkCtl := .ack (widthFin (Nat.max q.width w))
      let opened (len : Nat) : Pkg :=
        ((p.ctlFlit n .darkAck).modPort n fun x => Port.abandon { x with darkPending := true, darkLen := len }).linkItems n none
      (lane.val ∈ (List.range (laneCount q.width)).map (laneOf q.lanemap) →
        Makes s (.laneLockLoss n lane) (p.retrain n true true)) ∧
      (q.talks = true → q.darkPending = false → q.ctlOut = none →
        Makes s (.linkCtlReceive n (.request w serial pp))
          (((p.ctlFlit n ack).retrain n true false).modPort n fun x => { x with peerOffer := some w.val })) ∧
      (∀ o, q.talks = true → q.darkPending = false → q.ctlOut = some o →
        (p.serial < serial.toNat → Makes s (.linkCtlReceive n (.request w serial pp)) p) ∧
        (serial.toNat < p.serial → Makes s (.linkCtlReceive n (.request w serial pp))
          ((p.setPort n { q with ctlOut := none, peerOffer := some w.val }).ctlFlit n ack))) ∧
      Makes s (.linkCtlReceive n (.ack w)) (p.setPort n { q with ctlOut := none, peerOffer := some w.val }) ∧
      Makes s (.linkCtlReceive n .darkAck) (p.setPort n { q with darkNoticeOut := false }) ∧
      (q.state ≠ .dead → q.state ≠ .dark →
        (q.darkPending = true → ∀ x ∈ [Instr.linkCtlReceive n (.darkNotice ns), .darkNoticeReceive n ns], Makes s x (opened (Nat.max q.darkLen ns))) ∧
        (q.darkPending = false → ∀ x ∈ [Instr.linkCtlReceive n (.darkNotice ns), .darkNoticeReceive n ns], Makes s x
          ((((opened ns).routesFix.regrant (opened ns)).reroute n).drainTransit)))) ∧
  (
    ∀ (s : State) (n : PortId) (k : Fin 4),
      let p := s.pkg
      let q := p.port n
      (q.darkPending = true →
        (q.replayBuf = [] → (∀ e ∈ q.txWait, ∀ t ∈ e.2, t.started = false) → Makes s (.darkDrainComplete n) (p.darkEnter n)) ∧
        Makes s (.darkDrainLimit n) ((p.linkLoss n false).darkEnter n)) ∧
      (q.state = .dark → Makes s (.darkWindowEnd n) ((p.setPort n { q with darkLeft := 0 }).portTrain n false)) ∧
      (let r := { p with lnkLost := tabSet false p.lnkLost k true }
       let down (p : Pkg) (n : Nat) : Pkg := (p.modPort n fun q => { q with darkPending := false, darkNoticeOut := false }).portDown n false
       Makes s (.refclkLnkLoss k) (down (down (down (down r (4 * k)) (4 * k + 1)) (4 * k + 2)) (4 * k + 3))) ∧
      Makes s (.refclkLnkReturn k) { p with lnkLost := tabSet false p.lnkLost k false })

/-- R119 to R123: a packet for this device is delivered; a transit packet without hops left is dropped, counted, and its source told
with reason 2; one without a route with reason 1; one whose lists hold no usable port waits for a port that may return, else it is dropped
with reason 3; otherwise it takes the chosen port, one hop fewer in transit, and its receive buffers go back to the sender. -/
def Obligations.PacketRouting : Prop :=
  ∀ (s : State) (port : Option PortId) (half : Half) (sub : Bool) (k : LPkt),
    let p := s.pkg
    let from_ := port.map (·.val)
    let x : Instr := .packetRoute port half sub k
    (k.dst.toNat = p.fabAddr → Makes s x (((p.emit (.pkt none half sub k)).deliver from_ k).giveBack from_ sub k)) ∧
    (k.dst.toNat ≠ p.fabAddr →
      (∀ n, port = some n → k.hops = 0 → Makes s x (((p.bump .ldHopsDrop n).sendLoss k 2).giveBack from_ sub k)) ∧
      (k.hops ≠ 0 ∨ port = none →
        (p.routeOf k.dst.toNat = none → p.topoSet = true → Makes s x ((p.sendLoss k 1).giveBack from_ sub k)) ∧
        (∀ i r, p.routeOf k.dst.toNat = some i → p.routes[i]? = some r → r.choose k = none →
          (p.mayWait r = true → Makes s x { p with transitQ := p.transitQ ++ [(from_, half, sub, k)] }) ∧
          (p.mayWait r = false → Makes s x ((p.sendLoss k 3).giveBack from_ sub k))) ∧
        (∀ i r lp, p.routeOf k.dst.toNat = some i → p.routes[i]? = some r → r.choose k = some lp →
          let n := p.physPort lp
          let p := (p.noteList i (b2n half) n r.pri.isEmpty).sentBy from_ k n
          let sub' := if rtAct r.ent lp = 1 then true else if rtAct r.ent lp = 2 then false else sub
          let k' := if port.isSome then { k with hops := k.hops - 1 } else k
          let q := p.port n
          let c := q.cls (classOf k' sub')
          let t : TxPkt := { pkt := k', sub := sub', half := half, left := cutPkt k' c }
          Makes s x ((((p.setPort n { q with txWait := tabMod [] q.txWait c fun l => l ++ [t] }).emit (.pkt (some n) half sub' k')).pumpTx n).giveBack
            from_ sub k))))

/-- R127, R128, R135: a LOSS, or the response limit, reissues an idempotent request with a fresh TAG up to three times and then, as for any
other at once, completes it with ST_PATH_LOST, counted at the port it left by and raised; a LOSS for nothing outstanding is counted as late. -/
def Obligations.LostRequests : Prop :=
  ∀ (s : State) (k : LPkt) (tag : BitVec 32),
    let p := s.pkg
    let n := fld k.kspec.toNat 0 32
    let gone (t : Nat) (r : Req) : Pkg :=
      let port := r.via
      (((((p.endReq t).bump .ldPathLost port).setFlag .portStatus port 5).raise .ldPathLost (linkDie port) noCtx t stPathLost).whoLost r)
    (Reaches p k 14 →
      (∀ r, p.req n = some r →
        (isIdempotent r.pkt = true → r.reissues < 3 →
          Makes s (.lossReceive k) ((p.bump .ldReissue r.via).retag n { r with reissues := r.reissues + 1 })) ∧
        (isIdempotent r.pkt = false ∨ 3 ≤ r.reissues → Makes s (.lossReceive k) (gone n r))) ∧
      (p.req n = none → 2 ≤ fld k.kspec.toNat 32 4 → Makes s (.lossReceive k) (p.bump .ldLateResp (p.inPort k)))) ∧
    (∀ r, p.req tag.toNat = some r → r.retry = false →
      (isIdempotent r.pkt = true → r.reissues < 3 →
        Makes s (.responseLimitExpiry tag) ((p.bump .ldReissue r.via).retag tag.toNat { r with reissues := r.reissues + 1 })) ∧
      (isIdempotent r.pkt = false ∨ 3 ≤ r.reissues → Makes s (.responseLimitExpiry tag) (gone tag.toNat r)))

/-! ## Slots and queues (chapter 3) -/

/-- R18, R51, R53, R56, R57, R60, R62, R64: nothing lands while the slot's home queue die is out of service. A micro-batch packet for an unbound slot, or from another sender than the queue's, is dropped and
counted. A header opens its micro-batch in page order; a malformed one is counted, raised, and faults the context with
cause 10; a known one changes nothing. A page write beyond the grant is a credit violation, one below the next page stale;
otherwise its bytes land in the ring. A page commits once all its segments have landed. -/
def Obligations.Landing : Prop :=
  ∀ (s : State) (k : LPkt) (slot : SlotId) (q : Fin 3) (page : Nat) (o : OpenMb),
    let p := s.pkg
    let j := fld k.kspec.toNat 0 4
    let n := fld k.kspec.toNat 4 2
    let g := p.ing j n
    let h := leNat (k.content.take 48)
    let pg := fld k.kspec.toNat 16 64
    let seg := fld k.kspec.toNat 8 3
    let dieQ := queueDie (halfOfSlot j)
    (∀ r ∈ ([(.mbHeadReceive, 0), (.pageWriteReceive, 1)] : List ((LPkt → Instr) × Nat)), Reaches p k r.2 →
      (p.homeUp j = false → Makes s (r.1 k) p) ∧
      (p.homeUp j = true → (p.slot j).bound = false → Makes s (r.1 k) ((p.bump .qdStaleDrop j).setFlag .slotStatus j 4)) ∧
      (p.homeUp j = true → (p.slot j).bound = true → n ≠ 3 → k.src.toNat ≠ g.sender → Makes s (r.1 k) (p.bump .qdSenderDrop j))) ∧
    (p.homeUp j = true → (p.slot j).bound = true → n ≠ 3 → k.src.toNat = g.sender →
      (Reaches p k 0 → g.opens = [] → g.nextPage ≤ mhFirst h →
        (p.badHead j n h = true →
          let b := (((p.bump .qdBadHead j).setFlag .slotStatus j 5).raise .qdBadHead dieQ (p.slot j).ctx j h).ctxFault (p.slot j).ctx 10
          Makes s (.mbHeadReceive k) (b.postReady j n ((b.ing j n).opens.length + 1))) ∧
        (p.badHead j n h = false → n ≠ 2 → p.stale j (mhStep h) = false → mhPages h ≠ 0 →
          Makes s (.mbHeadReceive k) ((p.phaseTick j).modIng j n fun g => { g with opens := insOpen { head := h } g.opens }))) ∧
      (Reaches p k 1 →
        (g.clSent ≤ pg → Makes s (.pageWriteReceive k)
          (((p.bump .qdCreditViol j).setFlag .slotStatus j 3).raise .qdCreditViol dieQ (p.slot j).ctx j pg)) ∧
        (pg < g.clSent → pg < g.nextPage → Makes s (.pageWriteReceive k) ((p.bump .qdStaleDrop j).setFlag .slotStatus j 4)) ∧
        (pg < g.clSent → g.nextPage ≤ pg → n ≠ 2 →
          g.opens.find? (fun o => decide (mhFirst o.head ≤ pg) && decide (pg < mhFirst o.head + mhPages o.head)) = some o →
          p.stale j (mhStep o.head) = false → o.committed.contains pg = false → k.content.length ≤ 8192 → g.pages ≠ 0 →
          Makes s (.pageWriteReceive k)
            (((p.phaseTick j).deviceWrite (p.slot j).ctx (g.base + pg % g.pages * 65536 + seg * 8192) k.content 0).modIng j n fun g =>
              g.modOpen (mhFirst o.head) fun x => { x with landed := tabMod 0 x.landed pg fun v => v ||| 2 ^ seg })))) ∧
    (let g := p.ing slot q
     let need := 2 ^ ceilDiv (mhPageBytes o.head page) 8192 - 1
     g.opens.find? (fun o => decide (mhFirst o.head ≤ page) && decide (page < mhFirst o.head + mhPages o.head)) = some o →
     p.homeUp slot = true → o.committed.contains page = false → tabGet 0 o.landed page &&& need = need →
     Makes s (.landingPageCommit slot q page)
       ((((p.modIng slot q fun g => g.modOpen (mhFirst o.head) fun x => { x with committed := x.committed ++ [page] }).postReady slot q (g.opens.length + 1)).ctxEval
         (p.slot slot).ctx).swapEval))

/-- R58, R59, R67, R68, R128: the latest grant is repeated while a sender has anything to land; a CREDIT of the peer raises each limit
to the greater, frees the micro-batches that COMMIT_MB has passed, its STASH_HOLD bit is kept and marks the items that wait under it; one for
an unbound slot is dropped and counted (R51). R66, R67, R128: a bound
slot streams its egress queue as far as credits allow, and streams a micro-batch again when its commit does not come. R45, R70: the sequencer of a half dispatches its choice. A started item, running or queued, whose window has passed without its end event is
marked late, once, with EV_DEADLINE_LATE. -/
def Obligations.CreditsAndDispatch : Prop :=
  (
    ∀ (s : State) (slot : SlotId) (q : Fin 3) (dir : Fin 2) (k : LPkt) (page : Nat) (m : EgrMb) (i : Item),
      let p := s.pkg
      let j := fld k.kspec.toNat 0 4
      let n := fld k.kspec.toNat 4 2
      let e := p.egr j n
      let c := k.content
      let g := p.ing slot q
      (p.homeUp slot = true → (p.slot slot).bound = true → g.pages ≠ 0 → g.opens ≠ [] ∨ g.nextPage < g.clSent →
        Makes s (.creditRepeatTimer slot q) (p.sendGrant slot q)) ∧
      (Reaches p k 2 → p.homeUp j = true → (p.slot j).bound = false → Makes s (.creditReceive k) ((p.bump .qdStaleDrop j).setFlag .slotStatus j 4)) ∧
      (Reaches p k 2 → p.homeUp j = true → (p.slot j).bound = true → e.peer = k.src.toNat → n < 2 → leNat ((c.drop 16).take 4) % 2 = 0 →
        Makes s (.creditReceive k)
          ((((((p.phaseTick j).setEgr j n { e with
              cl := Nat.max e.cl (leNat (c.take 8)), dl := Nat.max e.dl (leNat ((c.drop 8).take 4))
              commitMb := Nat.max e.commitMb (leNat ((c.drop 12).take 4)), hold := false }).egrFree j n).markHold j 0).markHold j 1).ctxEval (p.slot j).ctx)) ∧
      (p.homeUp slot = true → (p.slot slot).bound = true → Makes s (.egressStream slot dir) (p.stream slot dir)) ∧
      (p.homeUp slot = true → (p.egr slot dir).queue.find? (fun m => m.headSent && m.sent == m.pages && !m.noResend) = some m → Makes s (.mbResendTimeout slot dir)
        (((p.setEgr slot dir { p.egr slot dir with
            queue := (p.egr slot dir).queue.map fun x => if x.seq = m.seq then { x with headSent := false, sent := 0, tags := [] } else x }).bump .ldReissue
          ((p.portTowards (p.egr slot dir).peer (p.egr slot dir).peerSlot).getD 0)).stream slot dir)) ∧
      (p.homeUp slot = true → (p.slot slot).pos dir = some i → tabGet 0 i.egrWritten page ≠ 0 → i.egrDone.contains page = false →
        Makes s (.egressPageCommit slot dir page) (((p.modPos slot dir fun i => { i with egrDone := i.egrDone ++ [page] }).tryEnd slot dir).swapEval))) ∧
  (
    ∀ (s : State) (half : Half) (slot : SlotId) (b : Bool) (x : Nat × Nat) (i : Item) (t : Nat),
      let p := s.pkg
      let d := queueDie (halfOfSlot slot)
      let g := p.ing slot (b2n b)
      let isLate (y : Item) : Bool := y.window != 0 && !y.late && y.startNs.any fun st => decide (st + y.window < p.icount d)
      (p.seqChoice (b2n half) = some x → Makes s (.sequencerDispatch half) (p.dispatchItem x.1 x.2)) ∧
      (p.seqChoice (b2n half) = none → Makes s (.sequencerDispatch half) p) ∧
      ((p.slot slot).pos (b2n b) = some i → i.startNs = some t → i.window ≠ 0 →
        (i.late = false → t + i.window < p.icount d → Makes s (.deadlineLate slot b)
          ((p.modPos slot (b2n b) fun i => { i with late := true }).raise .deadlineLate d (p.slot slot).ctx slot i.desc)) ∧
        (i.late = true ∨ p.icount d ≤ t + i.window → (∀ y ∈ g.queue, isLate y = false) → Makes s (.deadlineLate slot b) p)) ∧
      (∀ n y, ((p.slot slot).pos (b2n b)).all (fun i => !isLate i) = true → g.queue.findIdx? isLate = some n → g.queue[n]? = some y → Makes s (.deadlineLate slot b)
        ((p.modIng slot (b2n b) fun g => { g with queue := g.queue.set n { y with late := true } }).raise .deadlineLate d (p.slot slot).ctx slot y.desc)))

/-- R79 to R83: allocations that waited for stash releases are tried again in order; a spilled micro-batch is back when its fetch is
answered, and a spill that ends, its bytes copied where the off-load area is on this device, frees its pages; a relayed key/value block goes
on when its bytes are here and the peer's credits allow it, and is kept for a resend. -/
def Obligations.StashAndRelay : Prop :=
  ∀ (s : State) (slot : SlotId) (mb : BitVec 24) (b : RelayBlk),
    let p := s.pkg
    let x := p.slot slot
    let e := p.egr slot 2
    let n := mhPages b.head
    Makes s (.stashWaitGranted slot) ((p.stashRetry slot x.stashWait).holdEnd slot x.holding) ∧
    (p.stashBusy slot mb.toNat = false →
      (x.offFab ≠ 0 → Makes s (.spillFetchComplete slot mb) ((p.stashBack slot mb.toNat).findAnswer slot)) ∧
      (let gone := x.stash.filterMap fun a => if a.mb = mb.toNat then a.spillAt.map fun f => (x.stashBase + f * 65536, x.offBase + a.first * 65536, a.pages * 65536) else none
       let freed (p : Pkg) : Pkg := (p.modSlot slot fun s => { s with
         stash := (s.stash.filter fun a => !(a.mb == mb.toNat && a.dead)).map fun a => if a.mb = mb.toNat then { a with spillAt := none } else a })
       let after (p : Pkg) : Pkg := (p.stashRetry slot (p.slot slot).stashPend).stashFetchAll slot
       (x.offFab ≠ 0 ∨ gone = [] → Makes s (.stashSpillDone slot mb) (after (freed p))) ∧
       (∀ y, x.offFab = 0 → gone = [y] → p.devTest x.ctx y.1 y.2.2 = .ok → p.devTest x.ctx y.2.1 y.2.2 = .ok →
         Makes s (.stashSpillDone slot mb) (after (freed (p.copyBytes y.1 y.2.1 y.2.2)))))) ∧
    (x.relay.find? (fun b => b.sentAs.isNone) = some b → p.homeUp slot = true → b.whole = true → e.pageSeq + n ≤ e.cl → e.seq < e.dl →
      let y := p.kvSend slot b e.pageSeq
      Makes s (.kvRelayForward slot)
        ((y.2.setEgr slot 2 { y.2.egr slot 2 with seq := e.seq + 1, pageSeq := e.pageSeq + n }).modSlot slot fun s => { s with
          relay := s.relay.map fun x => if x.page0 = b.page0 then { x with sentAs := some (e.seq, e.pageSeq), tags := [y.1] } else x }))

/-! ## Groups, channels, synchronisation objects and sumps (chapters 8 and 9) -/

/-- R239, R242: a whole group at the home queue die is published when its index is the next of its stream, suppressed when it
is at or below the stream's count, and a gap when it is beyond; the waiting thread is answered. R264: a DELIVERED answer completes its channel message, and an answered SYNC_OP its effect; a denied one is counted,
flagged, raised, and faults the context with cause 5; an answer for nothing outstanding is counted as late. -/
def Obligations.GroupsAndEffects : Prop :=
  (
    ∀ (s : State) (slot : SlotId) (n : Nat) (g : Group) (t : ThreadId) (w : Nat),
      let p := s.pkg
      let count := match (p.slot slot).pos g.qpos with | some i => tabGet 0 i.recordC g.stream | none => 0
      let q := (p.modSlot slot fun s => { s with transit := s.transit.filter fun x => x.id != n }).modPos slot g.qpos fun i => { i with undecided := i.undecided - 1 }
      ((p.slot slot).transit.find? (fun g => g.id == n) = some g → g.sends = [] →
        (g.index = count + 1 →
          let q := q.modPos slot g.qpos fun i => { i with recordC := tabSet 0 i.recordC g.stream g.index }
          let q := ((q.modSlot slot fun s => { s with published := s.published ++ [g] }).bump .qdEffectPublish slot).pump slot
          Makes s (.groupReceive slot n) (q.tryEnd slot g.qpos)) ∧
        (g.index ≤ count → Makes s (.groupReceive slot n) (((q.bump .qdEffectSuppress slot).groupAcked slot g).tryEnd slot g.qpos)) ∧
        (count + 1 < g.index → Makes s (.groupReceive slot n) (((q.bump .qdEffectGap slot).groupAcked slot g).tryEnd slot g.qpos))) ∧
      ((p.thr t).wait = .commit w → (∀ g ∈ (p.slot (p.thr t).slot).transit, g.thr ≠ t.val) → Makes s (.commitAnswer t) (p.resume t id))) ∧
  (
    ∀ (s : State) (k : LPkt) (r : Req) (j gid eff : Nat),
      let p := s.pkg
      let tag := k.tag.toNat
      let y := r.pkt.kspec.toNat
      let d := queueDie (halfOfSlot j)
      let res := fld k.kspec.toNat 15 3
      let ctx := match (p.slot j).published.find? fun g => g.id == gid with | some g => g.ctx | none => (p.slot j).ctx
      (Reaches p k 5 → fld k.kspec.toNat 14 2 = 3 →
        (p.req tag = none → Makes s (.effectResponseReceive k) (p.bump .ldLateResp (p.inPort k))) ∧
        (p.req tag = some r → r.who = .effect j gid eff →
          Makes s (.effectResponseReceive k) (((p.endReq tag).msgAcked (fld y 16 9) (fld y 25 5)
            (match p.pubGroup j gid with | some g => g.ownerOf eff | none => 0) false).effAcked j gid eff))) ∧
      (Reaches p k 7 → p.req tag = some r → r.who = .effect j gid eff →
        (res < 3 → Makes s (.effectResponseReceive k) ((p.endReq tag).effAcked j gid eff)) ∧
        (res = 3 → fld k.kspec.toNat 12 3 ≠ 7 → Makes s (.effectResponseReceive k)
          (((((((p.endReq tag).setFlag .sumpStatus d 4).bump .syncDenied d).raise .syncDenied d ctx (fld y 0 12) 0).ctxFault ctx 5).effAcked j gid eff)))))

/-- R253 to R261: a message of a known connection with the endpoint's key is appended, its words beyond the SRAM counted in the ring, and
acknowledged; any other is dropped, counted, and acknowledged too. An OPEN request is the endpoint's, or CLOSED for a die in
reset; a CLOSE request forgets the connection. An acknowledgement opens, credits, refuses or closes the sender's entry; an OPEN
answered RETRY goes again; a send stalled beyond its time faults its thread. -/
def Obligations.ChannelPackets : Prop :=
  ∀ (s : State) (k : LPkt) (c : CoreId) (m : Fin 32) (t : ThreadId),
    let p := s.pkg
    let x := k.kspec.toNat
    let g := fld x 0 9
    let e := fld x 9 5
    let ep := p.ep g e
    let n := fld x 56 4 + 1
    let key := fld x 32 24
    let is (c : Nat × Nat × Nat × Nat × Nat) : Bool := c.1 == k.src.toNat && c.2.1 == fld x 16 9 && c.2.2.1 == fld x 25 5
    let th := p.thr t
    (Reaches p k 4 → g ≤ 383 →
      (fld x 14 2 = 0 → k.content.length = 64 * n →
        (ep.state = 1 → ep.key = key → ep.conns.any is = true → p.dieUp (dieOfCore g) = true →
          let ws := chunksOf 64 n k.content
          let room := 32 - epHeldSram ep
          let overs := n - room
          Makes s (.chMsgReceive k)
            ((((((p.ringPut ep (epRing ep) ((ws.drop room).map fun w => { data := w })).setEp g e { ep with
                unread := ep.unread ++ [(ws.take room).map (fun w => { data := w }) ++ (List.range overs).map fun i => { ring := some (epRing ep + i) }]
                conns := ep.conns.map fun c => if is c then (c.1, c.2.1, c.2.2.1, c.2.2.2.1 + n, c.2.2.2.2) else c }).addCtr .chRingWords g overs).epGrants
              g e).wakeRecv g e).delivered k)) ∧
        (ep.state = 1 → ep.key ≠ key → Makes s (.chMsgReceive k) ((p.bump .chStaleDrop g).delivered k)) ∧
        (ep.state ≠ 1 → ep.lastKey = key → Makes s (.chMsgReceive k) ((p.bump .chClosedDrop g).delivered k))) ∧
      (fld x 14 2 = 1 →
        (p.dieUp (dieOfCore g) = true → Makes s (.chOpenRequestReceive k) (p.openReq g e k)) ∧
        (p.dieUp (dieOfCore g) = false →
          Makes s (.chOpenRequestReceive k) (p.answer k 5 (ackSpec (fld x 16 9) (fld x 25 5) 1 false 0) []))) ∧
      (fld x 14 2 = 2 → ep.state = 1 → ep.key = key → ep.pendingOpen = [] → Makes s (.chCloseRequestReceive k)
        (((p.setEp g e { ep with conns := ep.conns.filter fun c => !is c, lastGranted := keepLast is ep.conns ep.lastGranted }).epGrants g e).wakeRecv g e))) ∧
    (Reaches p k 5 → g ≤ 383 → bit x 16 = false → p.req k.tag.toNat = none → (p.conn g e).state = 1 ∨ (p.conn g e).state = 2 →
      let c := p.conn g e
      let up := fld x 32 32 - c.grant
      (fld x 14 2 = 0 → Makes s (.chAckReceive k)
        ((p.setConn g e { c with state := 2, grant := c.grant + up, credits := c.credits + up }).wakeSend g e)) ∧
      (fld x 14 2 = 1 → Makes s (.chAckReceive k) ((p.setConn g e { c with state := 3 }).wakeSend g e)) ∧
      (fld x 14 2 = 2 → Makes s (.chAckReceive k) (((p.setConn g e { c with state := 3 }).wakeSend g e).bump .chRefused g))) ∧
    (∀ y, p.reqs.find? (openRetry c m) = some y →
      ((p.conn c m).state = 1 → Makes s (.chOpenRetryTimer c m) ((p.endReq y.1).sendOpen c m)) ∧
      ((p.conn c m).state ≠ 1 → Makes s (.chOpenRetryTimer c m) (p.endReq y.1))) ∧
    (∀ a b d, th.wait = .chSend a b d → th.state = .blocked → Makes s (.chStallExpiry t)
      (((p.bump .chStall (coreOf t)).raise .chStall (dieOfCore (coreOf t)) th.ctx t a).thrFault t fChStall th.waitPc th.waitInst))

/-- R274 to R276: a sync operation at its object's home. An object of another owner, or a core's change of one bound as count
object or sump object, is denied. A SIGNAL adds, an ARM sets the threshold, a CAS exchanges; a READ changes nothing; a WAIT whose
threshold is reached is answered at once, else it waits, or is answered RETRY when the waiter table is full. R264, R276: the answer of a sync operation that a thread waits for gives the counter to its register and the thread goes
on; RETRY keeps the request for its timer, which sends it again; DENIED faults the thread with ADDRESS, an unavailable home loses
the path. -/
def Obligations.SyncObjects : Prop :=
  (
    ∀ (s : State) (k : LPkt),
      let p := s.pkg
      let x := k.kspec.toNat
      let o := fld x 0 12
      let op := fld x 12 3
      let d := queueDie (halfOfObj o)
      let a := leNat (k.content.take 8)
      let b := leNat ((k.content.drop 8).take 8)
      let ob := p.sync o
      let q := p.bump .syncOps d
      let ans (p : Pkg) (res : Nat) : Pkg := p.answer k 7 (respSpec o op res (fld x 16 9) (fld x 25 6)) (toLe 8 (p.sync o).ctr.toNat)
      Reaches p k 6 → op ≤ 4 → p.dieUp d = true →
      (ob.owner ≠ fld x 32 8 → fld x 16 9 ≠ 0x1FF → Makes s (.syncOpApply k) (ans q 3).reshardAll) ∧
      (ob.owner = fld x 32 8 →
        (fld x 16 9 ≠ 0x1FF → op = 0 ∨ op = 2 ∨ op = 4 → ob.binding = 1 ∨ ob.binding = 3 → Makes s (.syncOpApply k) (ans q 3).reshardAll) ∧
        (ob.binding ≠ 1 → ob.binding ≠ 3 →
          (op = 0 → Makes s (.syncOpApply k) (ans (q.signalObj o (BitVec.ofNat 64 a)) 0).swapEval.reshardAll) ∧
          (op = 2 → Makes s (.syncOpApply k) (ans (q.armObj o (a % 2 ^ 32)) 0).swapEval.reshardAll) ∧
          (op = 4 → Makes s (.syncOpApply k) (ans (q.casObj o (BitVec.ofNat 64 a) (BitVec.ofNat 64 b)) 0).swapEval.reshardAll)) ∧
        (op = 3 → Makes s (.syncOpApply k) (ans q 0).reshardAll) ∧
        (op = 1 →
          ((BitVec.ofNat 64 a).toInt ≤ ob.ctr.toInt → Makes s (.syncOpApply k) (ans q 1).reshardAll) ∧
          (ob.ctr.toInt < (BitVec.ofNat 64 a).toInt →
            ((p.waiters.filter fun w => halfOfObj w.obj == halfOfObj o).length < waiterMax →
              Makes s (.syncOpApply k) ({ q with waiters := p.waiters ++ [{ obj := o, threshold := BitVec.ofNat 64 a, pkt := k }] } : Pkg).reshardAll) ∧
            (waiterMax ≤ (p.waiters.filter fun w => halfOfObj w.obj == halfOfObj o).length →
              Makes s (.syncOpApply k) (ans (q.bump .syncRetry d) 2).reshardAll))))) ∧
  (
    ∀ (s : State) (k : LPkt) (t : Nat) (r : Req) (rd : Option Nat) (u : ThreadId) (y : Nat),
      let p := s.pkg
      let tag := k.tag.toNat
      let th := p.thr t
      let res := fld k.kspec.toNat 15 3
      let v : W64 := BitVec.ofNat 64 (leNat (k.content.take 8))
      (Reaches p k 7 → p.req tag = none → Makes s (.syncRespReceive k) (p.bump .ldLateResp (p.inPort k))) ∧
      (Reaches p k 7 → p.req tag = some r → r.who = .sync t → th.wait = .sync tag rd → th.state = .blocked →
        (res < 2 → Makes s (.syncRespReceive k)
          ((p.endReq tag).resume t fun th => match rd with | some d => th.setS d v | none => th)) ∧
        (res = 2 → Makes s (.syncRespReceive k) { p with reqs := tabSet none p.reqs tag (some { r with retry := true }) }) ∧
        (res = 3 → Makes s (.syncRespReceive k) ((p.endReq tag).thrFault t fAddress th.waitPc th.waitInst)) ∧
        (res = 4 → Makes s (.syncRespReceive k) (p.pathLost tag r))) ∧
      (p.reqs.find? (syncRetry u) = some (y, some r) →
        let z := (p.endReq y).request r.pkt (.sync u)
        Makes s (.syncRetryTimer u)
          (z.2.modThr u fun th => match th.wait with | .sync _ rd => { th with wait := .sync z.1 rd } | _ => th)))

/-- R268 to R271: a SUMP_ADD packet of an open session with the same header adds its elements exactly to the session's accumulators, counts them,
and is acknowledged; one of another step than the context's is counted as stale and acknowledged; one that differs from its session's header
is refused as a mismatch. A fired session whose writes are all acknowledged signals DONE_OBJ and closes. -/
def Obligations.SumpPackets : Prop :=
  ∀ (s : State) (k : LPkt) (half : Half) (e i : Fin 16),
    let p := s.pkg
    let n := fld k.kspec.toNat 4 1
    let eng := 16 * n + fld k.kspec.toNat 0 4
    let h := leNat (k.content.take 64)
    let bs := k.content.drop 64
    let obj := fld h 160 12
    let ctx := fld h 32 8
    let f := fld h 40 2
    let el := sumpElt f
    let st := (p.ctx ctx).step
    let staleStep : Bool := (st.state = 1 || st.state = 2) && 2 ^ 31 ≤ (fld h 192 32 + 2 ^ 32 - st.num % 2 ^ 32) % 2 ^ 32
    let ss := tabGet ({} : SumpSess) (p.sumpEng eng).sess i
    let m := bs.length / el
    (Reaches p k 3 → p.halted = false → p.dieUp (queueDie n) = true → 64 ≤ k.content.length →
      (staleStep = true → Makes s (.sumpAddPacket k) ((p.bump .sumpStale eng).sumpAck k obj 0)) ∧
      (staleStep = false →
        ((List.range 16).find? fun i => (tabGet ({} : SumpSess) (p.sumpEng eng).sess i).openF &&
          fld (tabGet ({} : SumpSess) (p.sumpEng eng).sess i).hdr 0 32 == fld h 0 32) = some i.val →
        (ss.hdr ≠ setFld h 128 19 0 → Makes s (.sumpAddPacket k) (p.sumpDrop k eng obj ctx true)) ∧
        (ss.hdr = setFld h 128 19 0 → el ≠ 0 → bs.length % el = 0 → fld h 128 19 + m ≤ fld h 96 19 → ss.delivering = false →
          (ss.added + m) / fld h 96 19 = ss.added / fld h 96 19 →
          let r := sumpAddAll f (sgn 9 (fld h 48 9)) (fld h 64 18 + fld h 128 19) (p.sumpEng eng).acc (sumpVals f m bs)
          r.2.1 = 0 →
          Makes s (.sumpAddPacket k)
            ((((p.modSumpEng eng fun e => { e with
                acc := r.1, sess := tabSet ({} : SumpSess) e.sess i { ss with added := ss.added + m, nonfin := ss.nonfin || r.2.2 } }).addCtr
              .sumpElems eng m).addCtr .sumpRange eng 0).sumpAck k obj 0)))) ∧
    (let eng := 16 * b2n half + e
     let x := tabGet ({} : SumpSess) (p.sumpEng eng).sess i
     p.halted = false → x.openF = true → x.delivering = true → x.tags = [] → x.writes = 0 → x.held = false → p.isRemote (fld x.hdr 320 24) = false →
     Makes s (.sumpDeliveryComplete half e i) (((p.signalObj (fld x.hdr 304 12) 1).sumpClose eng i).swapEval.reshardAll))

/-! ## Memory and the package fabric (chapters 10 and 11) -/

/-- R282, R293, R294, R310: a line access beside every stack answers BAD_ADDRESS, one to a lost stack UNAVAILABLE; one that its
stack, a row copy or an earlier access to its line makes wait is held. A write stores its bytes and is acknowledged. R287, R288:
a read of a line whose codeword is right answers its 64 bytes, with POISON when the line carries it. -/
def Obligations.LineAccess : Prop :=
  ∀ (s : State) (a : LineAcc) (w : List Nat),
    let p := s.pkg
    let addr := a.line * 64
    let q := p.lineCache a.line a.write a.hint a.partition (p.lineErrs a)
    let answer (p : Pkg) (bs : List Byte) (n : Nat) : Pkg := p.emit (.memRead bs n)
    (isStackAddr addr = false → a.device = false → Makes s (.memLineAccess a) (answer p [] 3)) ∧
    (isStackAddr addr = true →
      (∀ c, a.device = true → a.ctx = some c → p.devRegion c addr 64 = false → Makes s (.memLineAccess a)
        (((answer p [] 3).raise .mdBadAddress p.primary c a.line 0).ctxFault c 7)) ∧
      (a.device = false →
        (p.memReady addr 64 = .unavailable → Makes s (.memLineAccess a) (answer p [] 4)) ∧
        (p.memReady addr 64 = .waits → Makes s (.memLineAccess a) (p.holdAcc (memDieOfStack (stackOf addr)) (.line a))) ∧
        ((p.stack (stackOf addr)).rowHeld (locOf a.line) = true → p.stackTest addr 64 = .ok →
          Makes s (.memLineAccess a) (p.holdAcc (memDieOfStack (stackOf addr)) (.line a))) ∧
        (p.memReady addr 64 = .ok →
          (a.write = true → a.off = 0 → a.data.length = 64 → Makes s (.memLineAccess a) (answer (q.store addr a.data) [] 0)) ∧
          (a.write = false →
            decodeLine (withErrs (lineWord (q.load addr 64) (q.linePoison a.line) a.line) a.err.first) ((q.stack (stackOf addr)).marksAt (locOf a.line)) a.line = .good w [] →
            Makes s (.memLineAccess a)
              ((answer q ((w.take 64).map (BitVec.ofNat 8)) (if w.getD 64 0 != 0 then 2 else 0)).lastUse a.hint addr 64)))))

/-- R299, R300: a request of another device is answered: DENIED when its length, its alignment or its context's regions do
not allow it, UNAVAILABLE for a stack that is gone; one that its memory makes wait is held; RETRY comes from a stack still in its orderly
reset; else it is performed through the memory-side cache. The request table of the queue die may answer RETRY at any time. R231, R299, R300: an answered read of a thread puts its bytes into the scratchpad and, with its last piece, completes the
tag; POISON, DENIED and UNAVAILABLE fault the thread with POISON, ADDRESS and PATH_LOST; RETRY keeps the
request, and its timer counts it and sends it again. -/
def Obligations.RemoteMemoryExchange : Prop :=
  (
    ∀ (s : State) (k : LPkt) (es : List (Nat × LineErr)),
      let p := (s.pkg.take 1).2
      let busy := (s.pkg.take 1).1
      let x := k.kspec.toNat
      let a := fld x 0 48
      let n := fld x 52 14
      let c := fld x 66 8
      let early : Bool := (stacksOf a n).any fun s => (p.stack s).state == 1 && !(p.memDie (memDieOfStack s)).expired
      let rd (p : Pkg) (st : Nat) (data : List Byte) : Pkg := p.answer k 9 (put 0 48 a + put 48 8 st + put 56 14 data.length) data
      let wr (p : Pkg) (st : Nat) : Pkg := p.answer k 11 (put 0 48 a + put 48 8 st) []
      (Reaches s.pkg k 8 → k.pkind = 8 →
        (busy = 1 → Makes s (.memRemoteRequest ⟨k, es⟩) (rd p 1 [])) ∧
        (busy ≠ 1 →
          (n < 8 ∨ 8832 < n ∨ n % 8 ≠ 0 ∨ p.covered c a n 2 = false → Makes s (.memRemoteRequest ⟨k, es⟩) (rd p 3 [])) ∧
          (8 ≤ n → n ≤ 8832 → n % 8 = 0 → p.covered c a n 2 = true →
            (early = true → Makes s (.memRemoteRequest ⟨k, es⟩) (rd p 1 [])) ∧
            (early = false →
              (p.memReady a n = .unavailable → Makes s (.memRemoteRequest ⟨k, es⟩) (rd p 4 [])) ∧
              (p.memReady a n = .waits → Makes s (.memRemoteRequest ⟨k, es⟩) (p.holdAcc (memDieOfStack (stackOf a)) (.remote k es))) ∧
              (p.memReady a n = .ok →
                let r := p.memRead a n (fld x 48 2) es
                Makes s (.memRemoteRequest ⟨k, es⟩) (rd r.2.2 (if r.2.1 then 2 else 0) r.1)))))) ∧
      (Reaches s.pkg k 10 → k.pkind = 10 → s.pkg.inPieces a = false → busy ≠ 1 → 8 ≤ n → n ≤ 8832 → n % 8 = 0 →
        (k.content.length ≠ n ∨ p.covered c a n 3 = false → Makes s (.memRemoteRequest ⟨k, es⟩) (wr p 3)) ∧
        (k.content.length = n → p.covered c a n 3 = true → early = false → p.memReady a n = .ok →
          Makes s (.memRemoteRequest ⟨k, es⟩) (wr (p.memWrite a k.content (fld x 48 2) es) 0)))) ∧
  (
    ∀ (s : State) (k : LPkt) (r : Req) (t bg off : Nat) (b : Bg) (tag : BitVec 32),
      let p := s.pkg
      let st := fld k.kspec.toNat 48 8
      let q := p.endReq k.tag.toNat
      (∀ kind, (kind = 9 ∨ kind = 11) → Reaches p k kind →
        (p.req k.tag.toNat = none → Makes s (.memRespReceive k) (p.bump .ldLateResp (p.inPort k))) ∧
        (p.req k.tag.toNat = some r → r.who = .mem t bg off → (q.thr t).bg.find? (fun b => b.id == bg) = some b →
          (st = 1 → Makes s (.memRespReceive k) { p with reqs := tabSet none p.reqs k.tag.toNat (some { r with retry := true }) }) ∧
          (∀ c ∈ ([(2, fPoison), (3, fAddress), (4, fPathLost)] : List (Nat × Nat)), st = c.1 →
            Makes s (.memRespReceive k) (q.bgFault t b c.2)) ∧
          (st = 0 →
            b.kind = .remote 1 → Makes s (.memRespReceive k) ((q.spStore (coreOf t) off k.content).endBg t bg)))) ∧
      (p.req tag.toNat = some r → r.retry = true → r.pkt.pkind = 8 ∨ r.pkt.pkind = 10 →
        Makes s (.memRetryTimer tag) ((p.bump .mdRemoteRetry r.who.queue).retag tag.toNat r)))

/-- R289 to R293, R305, R306: scrubbing reads the next line of an ONLINE stack and moves on, a dirty line unread; a copied row is
remapped to its bank's first free spare and its accesses go on; more than 4,096 corrections in an interval begin a storm, once; the
third window of one busiest channel is a hot spot; temperatures above 85 °C double refresh, above 90 °C throttle until one below 88 °C. R310, R311, Table 11.9: accesses that wait for a memory die in its orderly reset complete as UNAVAILABLE when the wait expires; after
self-refresh its stacks are ONLINE again with an empty cache and every dirty bit set, and what waited is served; after an abrupt reset
every line of its stacks is poisoned with undefined contents. -/
def Obligations.MemoryDies : Prop :=
  (
    ∀ (s : State) (n : StackId) (ch : Fin 16) (rank : Fin 3) (bank : Fin 32) (row : BitVec 15) (sp : Nat) (err : LineErr) (ts : List (BitVec 8))
      (reqs : List (Fin 16 × Nat)) (wait : BitVec 16) (part : Fin 16),
      let p := s.pkg
      let k := p.stack n
      let d := dieOfStack n
      let m : MemLoc := { channel := ch, rank := rank, bank := bank, row := row.toNat, column := 0 }
      let line := n.val * (stackSize / 64) + k.scrubPos
      let t := ts.foldl (fun m r => Nat.max m r.toNat) 0
      let dirty := (tabGet [] (p.memDie (memDieOfStack n)).cache (setOf line)).any fun w => w.line == line && w.dirty
      let nextLine (k : Stack) : Stack :=
        if k.scrubPos + 1 < stackSize / 64 then { k with scrubPos := k.scrubPos + 1 } else { k with scrubPos := 0, pinCe := [], rowCe := [] }
      let count (c : Nat) : Nat := ((reqs.filter fun r => r.1.val == c).map (·.2)).sum
      let busy := (List.range 16).foldl (fun m c => if count m < count c then c else m) 0
      let total := ((List.range 16).map count).sum
      (k.state = 0 →
        (dirty = true ∨ k.rowHeld (locOf line) = true → Makes s (.scrubStep n err) (p.setStack n (nextLine k))) ∧
        (dirty = false → k.rowHeld (locOf line) = false →
          Makes s (.scrubStep n err) ((((p.lineRead line err).2.2).bump .mdScrubLines n).modStack n nextLine))) ∧
      (k.rowHeld m = true → (k.freeSpares m).head? = some sp →
        let e := repairEnt n m sp
        Makes s (.rowRepairCopyDone n ch rank bank row)
          ((((p.setStack n { k with
              repairs := k.repairs.filter (fun x => !(inBank x m && fld x 17 15 == m.row)) ++ [e]
              repairing := k.repairing.filter fun x => x != (m.channel, m.rank, m.bank, m.row) }).bump .mdRepairs n).raiseHb .mdRowRepair d n e).serveWaiting
            (memDieOfStack n))) ∧
      (k.storm = false →
        (k.ce ≤ 4096 → Makes s (.mdCeIntervalEnd n) (p.setStack n { k with ce := 0, storm := false })) ∧
        (4096 < k.ce → Makes s (.mdCeIntervalEnd n)
          (((((p.causeItems 0x12 d fun j i => p.itemUses j d i).modStack n fun k => { k with ce := 0, storm := true }).setFlag .mdStatus d 0).setFlag .dlStatus p.primary 2).raise .mdCeStorm d
            noCtx n k.ce))) ∧
      (k.storm = true → Makes s (.mdCeIntervalEnd n)
        ((p.causeItems 0x12 d fun j i => p.itemUses j d i).modStack n fun y => { y with ce := 0, storm := decide (4096 < k.ce) })) ∧
      (wait.getLsbD busy = true → total < 4 * count busy →
        let run := if k.hotRun ≠ 0 ∧ k.hotCh = busy then k.hotRun + 1 else 1
        let q := p.setStack n { k with hotRun := run, hotCh := busy, hotF := decide (3 ≤ run) }
        (run ≠ 3 → Makes s (.hotspotWindowEnd n reqs wait part) q) ∧
        (run = 3 →
          let q := q.causeItems 3 d fun j i => q.itemUses j d i
          Makes s (.hotspotWindowEnd n reqs wait part)
            ((((q.modStack n fun k => { k with hot := BitVec.ofNat 64 (put 0 4 busy + put 4 4 part + put 32 32 (q.icount d)) }).setFlag .mdStatus d 4).bump
              .mdHotspot n).raise .memHotspot d noCtx n (busy + 16 * part.val)))) ∧
      (wait.getLsbD busy = false ∨ 4 * count busy ≤ total →
        Makes s (.hotspotWindowEnd n reqs wait part) (p.setStack n { k with hotRun := 0, hotF := false })) ∧
      (k.throttled = false →
        (t ≤ 90 → Makes s (.stackTempRead n ts) (p.setStack n { k with temp := t, refresh2x := decide (85 < t), throttled := false, throttleAt := p.now })) ∧
        (90 < t → Makes s (.stackTempRead n ts)
          (((p.causeItems 0x10 d fun j i => p.itemUses j d i).modStack n fun k => { k with
            temp := t, refresh2x := true, throttled := true, throttleAt := p.now }).setFlag .mdStatus d 5))) ∧
      (k.throttled = true →
        let q := p.addCtr .mdThrottleNs n (p.now - k.throttleAt)
        Makes s (.stackTempRead n ts) ((q.causeItems 0x10 d fun j i => q.itemUses j d i).modStack n fun k => { k with
          temp := t, refresh2x := decide (85 < t), throttled := decide (88 ≤ t), throttleAt := p.now }))) ∧
  (
    ∀ (s : State) (d : DieId),
      let p := s.pkg
      let m := memNo d
      dieKind d = 1 →
      ((p.memDie m).orderlyAt.isSome = true →
        Makes s (.orderlyResetWaitExpiry d) ((p.setMemDie m { p.memDie m with expired := true }).failWaiting m) ∧
        (p.dieUp d = true →
          let up (p : Pkg) (n : Nat) : Pkg := if (p.stack n).state = 1 then (p.dirtyStack n).modStack n fun k => { k with state := 0 } else p
          let q := up (up p (2 * m)) (2 * m + 1)
          Makes s (.selfRefreshExit d) (((q.modMemDie m fun x => { x with
            cache := [], accepting := true, orderlyAt := none, expired := false
            changed := x.tensors.foldl (fun t e => tabSet 0 t e.1 e.2.2.2) [] }).serveWaiting m).floorEval))) ∧
      (∃ q : Pkg, Makes s (.stackInitComplete d) q.floorEval ∧ (q.memDie m).accepting = true ∧
        ∀ n, n = 2 * m ∨ n = 2 * m + 1 → (p.stack n).state = 3 →
          (q.stack n).state = 0 ∧ (q.stack n).poisonAll = true ∧ (q.stack n).undefAll = true ∧ (q.stack n).dirtyAll = true))

/-- R317: the words of a packet, each sent on its in-service bundle, come back in stream order by position. -/
def Obligations.FabricStream : Prop :=
  ∀ (serving : List Nat) (pos : Nat) (ws : List W64), serving ≠ [] → serving.Nodup →
    gather (serving.map fun i => ((spread serving pos ws).filter fun x => x.1 == i).map (·.2)) pos = ws

/-- R319 to R324, R327, R329: a die packet with a wrong CRC is rewound: counted, and a RESEND sent; an uncorrectable one likewise; a right
one is answered DONE and packed by its unit, or forwarded until it is at its die. A RESEND sends the oldest packet again, the third one starts
a retest; DONE frees it; an ABORT rewinds once. A storm begins above 4,096 corrections. R333, R334, R336, R337, R339: a die is reset abruptly by an internal error (cause 2) or the loss of its interval counter's clock (3), orderly
by the watchdog (5), a memory die then leaving its stacks in self-refresh; the loss of a port's clock puts it DOWN. A die that fails its tests stays OUT; one that passes is
admitted, raises EV_FAB_DIE_REJOIN, and the floor is judged again. The Ethernet reference's stop starts the holdover, its return
within it loses nothing, and its end halts the package. -/
def Obligations.FabricAndDies : Prop :=
  (
    ∀ (s : State) (d : DieId) (g : Nat) (lanes : List (List W64)) (b : Nat) (end_ header trailer : W64) (payload : List W64) (u : Bool) (ws : List W64) (n : Nat)
      (rest : List HopPkt) (fs : List (Nat × List (Fin 70))),
      let p := s.pkg
      let x := p.group d g
      let took := p.modGroup d g fun x => { x with rcvdAt := x.rcvdAt + (payload.length + 2), rewound := false }
      let right : Prop := dieCrc header payload = fld trailer.toNat 0 32 ∧ payload.length = fld header.toNat 32 6 + 1
      (stationGroup g = true ∨ (p.die d).state = 0 → groupIs d g = true → gather (trailed lanes b end_) x.rcvdAt = header :: payload ++ [trailer] →
        (¬right → ∀ c, Makes s (.diePacketReceive d g lanes b end_ c u)
          (((((took.modGroup d g fun x => { x with rewound := true }).bump .fabRewind (groupInst d g)).setFlag .fabStatus d 1).fabCount d g 1).emit
            (.hop d g .resend))) ∧
        (right →
          (u = true → Makes s (.diePacketReceive d g lanes b end_ 0 u) ((took.bump .fabUncorr (groupInst d g)).emit (.hop d g .resend))) ∧
          (u = false → stationGroup g = false → fld header.toNat 0 5 = d.val → Makes s (.diePacketReceive d g lanes b end_ 0 u)
            ((took.emit (.hop d g .done)).emit
              (.wide d (fld header.toNat 10 9) (bit header.toNat 28) (fld header.toNat 38 4) (wideWords (validBytes payload trailer))))) ∧
          (u = false → stationGroup g = true ∨ fld header.toNat 0 5 ≠ d.val → Makes s (.diePacketReceive d g lanes b end_ 0 u)
            ((took.emit (.hop d g .done)).forwardPkt d (stationGroup g) (header :: payload ++ [trailer]))))) ∧
      (x.kept = ⟨true, ws, n⟩ :: rest →
        (x.resend ≠ 2 → Makes s (.hopControlWord d g .resend)
          (((p.bump .fabResend (groupInst d g)).modGroup d g fun x => { x with resend := x.resend + 1 }).carry d g ws)) ∧
        (x.resend = 2 → Makes s (.hopControlWord d g .resend)
          (((p.bump .fabResend (groupInst d g)).modGroup d g fun x => { x with kept := x.kept.map fun k => { k with sent := false } }).retestStart d g)) ∧
        Makes s (.hopControlWord d g .done) ((p.modGroup d g fun x => { x with kept := rest, resend := 0 }).pumpGrp d g (rest.length + 1))) ∧
      (x.rewound = false → Makes s (.hopControlWord d g .abort) ((p.bump .fabRewind (groupInst d g)).setFlag .fabStatus d 1)) ∧
      (x.retesting = true → groupIs d g = true →
        let q := ((p.modGroup d g fun x => { x with retesting := false }).testGroup d g fs).groupEval d g (x.inService (groupOf d g).2)
        Makes s (.groupRetestDone d g fs) (q.pumpGrp d g (q.group d g).kept.length)) ∧
      ((p.die d).storm = false →
        ((p.die d).ce ≤ 4096 → Makes s (.fabCeIntervalEnd d) (p.modDie d fun x => { x with ce := 0, storm := false })) ∧
        (4096 < (p.die d).ce → Makes s (.fabCeIntervalEnd d)
          (((((p.causeItems 0x12 d fun j i => p.itemUses j d i).modDie d fun x => { x with ce := 0, storm := true }).setFlag .fabStatus d 4).setFlag .dlStatus p.primary 2).raise .fabCeStorm d noCtx d
            (p.die d).ce)))) ∧
  (
    ∀ (s : State) (d : DieId) (isl : Fin 4) (r : DieReport) (e : Rec),
      let p := s.pkg
      let x := p.die d
      let lossOf (k : Nat) : Pkg :=
        let r := p.modXing d k fun c => { c with clocked := false }
        r.causeItems 0x14 d fun j i => r.itemUses j d i || d == r.primary
      (x.admitted = true → x.state = 0 →
        Makes s (.dieAbruptReset d) (p.dieReset d 2 false) ∧ Makes s (.watchdogExpiry d) (p.dieReset d 5 true) ∧ Makes s (.clockLoss d 5) ((lossOf 5).dieReset d 3 false)) ∧
      (let n := d.val / 16 * 8 + (d.val % 16 - 12) * 4 + isl.val
       dieKind d = 2 → Makes s (.clockLoss d ⟨isl.val, by omega⟩)
         ((lossOf isl).portCut n)) ∧
      (dieKind d = 1 → x.admitted = true → x.state = 0 → ∃ q, Makes s (.watchdogExpiry d) q ∧
        (q.die d).state = 1 ∧ (q.die d).cause = 5 ∧ (q.die d).admitted = false ∧ (q.die d).orderly = true ∧
        (q.memDie (memNo d)).accepting = false ∧ (q.memDie (memNo d)).cache = [] ∧
        ∀ n, n = 2 * memNo d ∨ n = 2 * memNo d + 1 → (p.stack n).state = 0 → (q.stack n).state = 1) ∧
      (x.state ≠ 0 → x.state ≠ 3 →
        let q := p.modDie d fun x => { x with stepMajor := r.stepMajor, stepMinor := r.stepMinor, feature := r.feature.toNat, pufOk := r.pufOk }
        let q := (if d = 15 then { q with aHStep := some r.stepMajor } else q).testDie d r.failedWires
        (r.ok = false → Makes s (.dieRejoin d r) (q.dieTo d 3)) ∧
        (r.ok = true → q.dieGroupsOk d = true → dieKind d = 4 → q.ident.pairing[q.admittedBy]? = some e → q.pairOk e d r.stepMajor = true →
          (q.die q.primary).pkgFeature ≤ r.feature.toNat →
          Makes s (.dieRejoin d r) ((((q.dieTo d 0).modDie d fun x => { x with
            admitted := true, pkgFeature := ((q.dieTo d 0).die (q.dieTo d 0).primary).pkgFeature, skew := 0, xings := [] }).raise .fabDieRejoin d noCtx d 0).floorEval))) ∧
      (p.refEthLost = false → Makes s .refclkEthStop { p.excuseAll with holdover := true, refEthLost := true }) ∧
      (p.holdover = true →
        (p.clkStop = none → Makes s .refclkEthReturn { p.excuseAll with holdover := false, refEthLost := false }) ∧
        (let q := (({ p with holdover := false } : Pkg).refreshAll 3).killAll
         q.pkgState ≠ 0 → Makes s .refclkHoldoverEnd
          (let r := (q.pkgTo 5).raise .fabRefclkLoss (q.pkgTo 5).primary noCtx 0 0
           { r with clkStop := some r.now }))))

/-! ## Steps, contexts, securing and resharding (chapters 12 to 15) -/

/-- R362, R363, R365: a locally ready device of a committed step votes once its children have: as the root it decides verdict 3 when
any cause is other, 2 when some value is not finite, 1 otherwise, and writes VERDICT = 4·STEP + verdict; under a parent it sends its
causes first, or counts at once when it has none. At its limit a missing child or missing readiness adds the cause other. A verdict
that is here is applied, and the step ends under it. R379, R381 to R385: a preemption's end answers its commands; a context held long enough may be swapped; candidates that have not come to
rest are killed when the freeze wait ends, each counted; a save whose frozen items are at rest ends in SWAPPED and answers; a
swap-in ends once no context is being saved. -/
def Obligations.VerdictAndSwap : Prop :=
  (
    ∀ (s : State) (c : CtxId),
      let p := s.pkg
      let st := (p.ctx c).step
      let pol := st.policy
      let par := st.num % 2
      let count := (p.sync (polBase pol + par)).ctr
      let mine := if st.localCause = 2 ∨ (p.ctx c).state = .faulted then 2 ^ 32 else if st.nonfinite = true then 1 else 0
      let sum := (p.sync (polBase pol + 2 + par)).ctr.toNat + mine
      let v := if 2 ^ 32 ≤ sum then 3 else if sum % 2 ^ 32 ≠ 0 then 2 else 1
      let q := p.modStep c fun s => { s with
        voted := true, ready := true, localCause := if mine = 2 ^ 32 then 2 else if mine = 1 then 1 else 0, causeSent := sum != 0, children := count.toNat }
      st.state = 2 →
      (st.voted = false → p.localReady c = true → (polChildren pol : Int) ≤ count.toInt →
        (∀ x ∈ [Instr.sealVote c, .sealLimitExpiry c],
          (polRoot pol = true → Makes s x
            (((if v = 1 then q.orderCapture c st.num else q).setObj (polBase pol + 4) (BitVec.ofNat 64 (4 * st.num + v))).modStep c
              fun s => { s with verdict := v, verdictIn := true })) ∧
          (polRoot pol = false →
            (sum ≠ 0 → Makes s x (q.devSync (polParent pol) (polParentBase pol + 2 + par) 0 c sum (.seal c 1))) ∧
            (sum = 0 → Makes s x (q.voteCount c))))) ∧
      (st.voted = false → count.toInt < (polChildren pol : Int) →
        Makes s (.sealVote c) p ∧
        Makes s (.sealLimitExpiry c) (((p.raise .stepVoteTimeout p.primary c c st.num).bump .stepVoteTimeout c).vote c (!p.localReady c) true)) ∧
      (st.verdictIn = true → Makes s (.verdictApply c) (p.applyVerdict c st.verdict false))) ∧
  (
    ∀ (s : State) (c : CtxId),
      let p := s.pkg
      let x := p.ctx c
      (x.preempting = true → Makes s (.preemptionDone c)
        ((x.preemptReply.foldl (fun p t => p.replyWaiting (some t) 0 []) (p.setCtx c { x with preempting := false, preemptReply := [] })).swapEval)) ∧
      (x.resident = true → x.state = .blocked ∨ x.state = .loaded → Makes s (.swapHoldExpiry c) (p.setCtx c { x with holdDone := true }).swapEval) ∧
      (x.freezeWait = true → (∀ i ∈ x.frozenItems, p.quiescent i.1 i.2 = true) → Makes s (.freezeWaitExpiry c) (p.setCtx c { x with freezeWait := false })) ∧
      (∀ i, x.freezeWait = true → x.frozenItems = [i] → p.quiescent i.1 i.2 = false → Makes s (.freezeWaitExpiry c)
        ((((p.preemptItem i.1 i.2 x.swapByLc).bump .ctxFreezeKill c).setFlag .schedStatus p.primary 2).modCtx c
          fun x => { x with freezeWait := false, frozenItems := x.frozenItems.filter fun j => j != i })) ∧
      (x.saving = true → (∀ i ∈ x.frozenItems, p.quiescent i.1 i.2 = true) → p.imageWaits c = true → Makes s (.swapSaveComplete c) p) ∧
      (x.saving = true → (∀ i ∈ x.frozenItems, p.quiescent i.1 i.2 = true) → p.imageWaits c = false → ((p.saveDone c).ctx c).state ≠ .faulted →
        Makes s (.swapSaveComplete c)
        ((x.swapReply.foldl (fun p t => p.replyWaiting (some t) 0 []) (((p.saveDone c).ctxTo c .swapped).modCtx c fun x => { x with swapReply := [] })).swapEval)) ∧
      (x.swapIn = true → (∀ e ∈ p.ctxs, e.2.swapping = false) → (x.hasImage = true → p.imageWaits c = false) → Makes s (.swapInComplete c) ((p.restoreDone c).swapEval)))

/-- R406, R408 to R410: a capture's local copy marks its parts ready and sends each to its holders; a part of the running attempt is
multiplied and added into its piece and acknowledged, any other is counted as stale; a journal page goes to the pending log, or to the
new one when it is later than the attempt, and is refused when the logs are full and hold none of its page; an attempt all of whose children reported is reported to the parent; one without DONE
after 8 steps is abandoned by the root, and ends for a root that has reported. R413 to R415: a restore without a usable source for some tensor reports it and answers ST_GROUP_EXHAUSTED; its report names the
source of every tensor. With a source for each, one whose seal's streams differ from those in memory is answered ST_SEAL_MISMATCH unless the
policy lets it rewind them; otherwise the captured state stands and its step is answered. R350, R351: a chunk whose packets are all answered is written and the next one goes; a refused one fails
the reshard, an unanswered one is sent again and fails it at the third time. -/
def Obligations.SecuringEvents : Prop :=
  (
    ∀ (s : State) (fab : BitVec 24) (tensor page step e : Nat) (data : List Byte) (k : LPkt) (a : Capture),
      let p := s.pkg
      let x := p.secure
      let h := x.hdr
      let g : JPage := ⟨fab.toNat, tensor, page, step, data⟩
      let pol := (p.ctx x.ctx).step.policy
      let count := (p.sync (scBase h)).ctr.toNat
      let n := k.content.length - 8
      let tr := leNat (k.content.drop n)
      let q := fld tr 48 5
      let d := fld tr 53 5
      let addr := fld k.kspec.toNat 0 48
      x.active = true →
      (x.attempt = some a → a.copyDone = false → a.stopped = false → p.halted = false →
        (∀ t ∈ x.tensors, p.devTest x.ctx (tnBuf t a.par) (tnPages t * 65536) ≠ .waits) →
        let y := (x.tensors.zipIdx).foldl (fun (p : Pkg) (t, i) =>
          if a.methods.getD i 0 = 1 then
            (p.deviceCheck x.ctx (tnBuf t a.par) (tnPages t * 65536)).copyBytes (tnBuf t a.par) (scGenBase h a.gen + (tabGet 1 a.place i - 1) * 65536) (tnPages t * 65536)
          else p) p
        Makes s .captureLocalCopyDone ((List.range (scK h)).foldl (fun p d => p.sendPart a d) { y with secure := { y.secure with attempt := some { a with copyDone := true } } })) ∧
      (fld h 336 32 ≤ x.replica.length + x.pendLog.length + x.newLog.length →
        (∀ y ∈ x.replica ++ x.pendLog ++ x.newLog, ¬(y.fab = fab.toNat ∧ y.tensor = tensor ∧ y.page = page)) →
        Makes s (.journalPageReceive fab tensor page step data) p) ∧
      (x.replica.length + x.pendLog.length + x.newLog.length < fld h 336 32 →
        (x.attempt = none → Makes s (.journalPageReceive fab tensor page step data)
          (({ p with secure := { x with pendLog := jPut x.pendLog g } } : Pkg).bump .secJournalPages 0)) ∧
        (x.attempt = some a → a.step < step → Makes s (.journalPageReceive fab tensor page step data)
          (({ p with secure := { x with newLog := jPut x.newLog g } } : Pkg).bump .secJournalPages 0))) ∧
      (Reaches p k 10 → p.halted = false →
        (x.attempt = none → Makes s (.parityPartReceive k) (p.bump .secStalePart 0)) ∧
        (x.attempt = some a → a.stopped = false → fld tr 0 48 = a.step % 2 ^ 48 → d < scK h → 8 ≤ k.content.length →
          (List.range (scM h)).find? (fun e => scRotOfPiece h e == q && decide (scPiece h a.gen e ≤ addr) && decide (addr + n ≤ scPiece h a.gen e + scPart h)) = some e →
          let y := (p.store addr (gfAxpy (scCoef h e d) (k.content.take n) (p.load addr n))).addCtr .secParityBytes 0 n
          Makes s (.parityPartReceive k)
            (({ y with secure := { y.secure with attempt := some { a with pieces := tabMod 0 a.pieces (32 * e + d) fun v => v + n } } } : Pkg).answer k 11 (put 0 48 addr) []))) ∧
      (x.attempt = some a → x.completed = true → x.reported = false → polRoot pol = false → polChildren pol * x.ordered ≤ count % 2 ^ 32 + count / 2 ^ 32 →
        count / 2 ^ 32 = x.lost0 → a.stopped = false → Makes s .captureReport
          (({ p with secure := { x with reported := true, lost0 := count / 2 ^ 32 } } : Pkg).devSignal (polParent pol) (scBase h) 0 1 .doneObj)) ∧
      (polRoot pol = true → x.capOpen = true → x.stopSent = false → 8 ≤ x.sinceCap →
        let y := (((p.bump .secAbandoned 0).setFlag .secStatus p.primary 1).raise .secureAbandon p.primary x.ctx 0 x.capStep).setObj
          (scBase h + 2) (BitVec.ofNat 64 (x.capStep + 2 ^ 62))
        Makes s .captureAbandon { y with secure := { y.secure with
          stopSent := true, capOpen := !x.reported, attempt := if x.reported then none else y.secure.attempt } })) ∧
  (
    ∀ (s : State) (c : CtxId) (rs : List TensorRestore) (rec : Rec) (st : BitVec 8) (lost : Bool) (w : Chunk),
      let p := s.pkg
      let x := p.secure
      let hosted := (List.range (fld rec 136 11)).map fun i => fld rec (512 + 32 * fld rec 128 6 + 32 * i) 32
      let codes := (List.range x.tensors.length).map fun i => x.sourceOf (hosted.contains i) i (rs.getD i ⟨false, false, false, false, []⟩)
      let report := ((codes.zipIdx).map fun (k, i) => toLe 8 (put 0 10 i + put 10 3 k + put 13 3 (b2n (k == 0)))).flatten
      let r := (p.ctx c).reshard
      (x.restoring = some rec → x.ctx = c → codes.any (· == 0) = true →
        let w := p.deviceWrite c (fld rec 160 48) report 1
        let w := if rs.zipIdx.any (fun e => e.1.poisoned && codes.getD e.2 0 == 0) then (w.raise .mdPoisonConsumed w.primary c 0 0).ctxFault c 6 else w
        let q := w.setFlag .secStatus w.primary 5
        Makes s (.restoreComplete c rs)
          (({ q with secure := { q.secure with restoring := none, restoreReply := none, phase := 0 } } : Pkg).replyWaiting x.restoreReply stGroupExhausted [])) ∧
      (x.restoring = some rec → x.ctx = c → (∀ k ∈ codes, k ≠ 0) → rs.length ≤ x.tensors.length →
        let a := fld rec 64 48
        let q := (p.deviceWrite c (fld rec 160 48) report 1).deviceRead c a 128 1
        let sl := leNat (q.load a (fld (leNat (q.load a 8)) 32 32))
        let bad := (sealStreams sl).any fun e => match q.streamAddr c e.1 with | some a => q.loadNum (a + 16) 16 != e.2 | none => true
        let ends (q : Pkg) (st : Nat) (ps : List Byte) : Pkg :=
          ({ q with secure := { q.secure with restoring := none, restoreReply := none, phase := 0 } } : Pkg).replyWaiting x.restoreReply st ps
        (bad = true → bit x.hdr 93 = false → Makes s (.restoreComplete c rs) (ends q stSealMismatch [])) ∧
        (bad = false ∨ bit x.hdr 93 = true →
          let slots := (q.slotsOf c).filter fun j => (q.slot j).vers.all fun e => e.2.state == 0
          (q.objsFor slots = true →
            Makes s (.restoreComplete c rs) (ends (q.restoreApply x c (fld rec 0 61) sl bad codes rs) 0 (tlv 6 (toLe 8 (fld rec 0 61))))) ∧
          (q.objsFor slots = false → Makes s (.restoreComplete c rs) (ends p stVersionObjects [])))) ∧
      (r.writing = some w → r.out = 0 → r.active = true → p.pkgState ≠ 5 →
        (lost = false → st ≠ 0 → st ≠ 1 → Makes s (.reshardChunkAck c st lost) (p.reshardFail c)) ∧
        (lost = true ∨ st = 1 →
          (2 ≤ r.tries → Makes s (.reshardChunkAck c st lost) (p.reshardFail c)) ∧
          (r.tries < 2 → Makes s (.reshardChunkAck c st lost) ((p.modReshard c fun r => { r with tries := r.tries + 1 }).reshardSend c w))) ∧
        (lost = false → st = 0 → r.again = false → Makes s (.reshardChunkAck c st lost) ((p.reshardAcked c w).reshardAdvance c))))

/-! ## Power, heat, start and boot (chapters 16, 18 and 20) -/

/-- R39, R40, R474 to R477, R485: a canary reports its rate against its domain's target; above the cap the listed domains lose 10 mV each
tick, bounded below by 550 mV and by their ceilings; a cap that cannot be met is flagged; a reading is recorded and judged by the
thermal limits; a domain fault resets the die it supplies with cause 6; the primary beats, and each beat missed
by its standby counts to three. R468, R469, R477 to R479: a RESET_N pulse below 1 µs is ignored and one from 2 µs resets the package; PWR_GOOD and the rails arm it, and
their loss resets it, out of VAUX's range the trip record is lost. A package reset keeps the package state, the trip
record and the output and clears every command's state. A start with the rails good and RESET_N released tests the dies, reports
PKG_STATE BOOTSTRAP, and begins the boot when the primary headframe is up; a tripped package does not start. -/
def Obligations.PowerAndStart : Prop :=
  (
    ∀ (s : State) (d : DieId) (n : Fin 8) (rate : BitVec 16) (power : Nat) (dom : Fin 96) (sens : Fin 16) (temp : BitVec 8),
      let p := s.pkg
      let cd := canaryDomain d n
      let target := tabGet 0 p.pwr.rate cd
      let sl := slackOf rate.toNat target
      let canary (slack : Nat) : W64 := BitVec.ofNat 64 (put 0 16 rate.toNat + put 16 16 target + put 32 8 slack + put 40 7 cd + put 47 1 1)
      (p.dieUp d = true → ∃ slack, Makes s (.canaryUpdate d n rate)
          ((p.take 8).2.modDie d fun x => { x with canary := tabSet (canaryDflt d n) x.canary n (canary slack) }) ∧
        (sl.2 = true → slack = unsgn 8 sl.1 ∨ slack = unsgn 8 (sl.1 + 1))) ∧
      (p.answers = true →
        Makes s .powerLoopTick ((List.range 32).foldl (fun p d => if p.dieUp (dieOfCluster (d % 16)) then p.railLoop d else p) p.stepsNow.noteCauses).noteCauses ∧
        (p.capping = false → p.pwr.capW < power →
          let q : Pkg := { p.noteCauses with pwr := { p.pwr with mean := power } }
          let q := q.capPick.foldl (fun p d => p.setVCap d (Nat.max (if d < 32 then 220 else 260) (p.vCapOf d - 4))) q
          Makes s (.capTick power) (((List.range 96).filter fun d => domKind d != 2).foldl (fun p d => p.setVCap d (Nat.min (p.vCapOf d) (p.ceilOf d))) q).noteCauses) ∧
        (p.pwr.capW < p.pwr.mean → p.capPick = [] →
          Makes s .capExceeded (({ p with pwr := { p.pwr with capOver := true } } : Pkg).setFlag .pwrStatus p.primary 0))) ∧
      (p.pwr.vauxOk = true → p.pwr.thermtrip = false → p.throttling = false → sens.val < sensorCount d →
        let q := p.noteCauses.modDie d fun x => { x with junction := tabSet 0 x.junction sens.val temp.toNat }
        Makes s (.thermalReading [(d, sens, temp)]) (q.thermal d (p.die d).hottest).noteCauses) ∧
      (p.pwr.held = false →
        let q := (({ p with pwr := { p.pwr with domFaultNs := some p.now } } : Pkg).setFlag .pwrStatus p.primary 4).bump .pwrDomainFault 0
        (∀ x, dieOfDomain dom = some x → Makes s (.domainFault dom) (q.dieReset x 6 false)) ∧
        (dieOfDomain dom = none → Makes s (.domainFault dom) q)) ∧
      (p.dieUp p.primary = true → Makes s .heartbeatTimer (({ p with pwr := { p.pwr with missed := 0 } } : Pkg).emit .heartbeat)) ∧
      (p.dieUp p.primary = false → p.standby = true →
        Makes s .heartbeatTimer { p with pwr := { p.pwr with missed := Nat.min 3 (p.pwr.missed + 1) } })) ∧
  (
    ∀ (s : State) (ns : Nat) (vaux rate : Bool) (dies : List (DieId × DieReport)),
      let p := s.pkg
      (ns < 1000 → Makes s (.resetNAssert ns) p) ∧
      (p.pwr.vauxOk = true → 2000 ≤ ns → Makes s (.resetNAssert ns) (({ p with pwr := { p.pwr with resetLow := true } } : Pkg).packageReset)) ∧
      (p.pwr.vauxOk = true →
        Makes s .pwrGoodAssert { p with pwr := { p.pwr with pwrGood := true } } ∧
        Makes s .pwrGoodDeassert
          (({ p with pwr := { p.pwr with pwrGood := false, thermtrip := false }, tap := { p.tap with inst := 1 } } : Pkg).packageReset)) ∧
      (p.pwr.pwrGood = true → ∃ q, Makes s (.railOutOfRange vaux) q ∧ q.pkgState = p.pkgState ∧ q.sessions = [] ∧ q.slots = [] ∧ q.thrs = [] ∧
        (vaux = true → q.pwr.vauxOut = true ∧ q.pwr.vauxOk = false ∧ q.pwr.trip = 0) ∧ (vaux = false → q.pwr.vinOut = true ∧ q.pwr.trip = p.pwr.trip)) ∧
      Makes s (.railBackInRange true) { p with pwr := { p.pwr with vauxOut := false, vauxOk := true } } ∧
      Makes s (.railBackInRange false) { p with pwr := { p.pwr with vinOut := false } } ∧
      (p.pwr.vauxOk = false → Makes s .vauxInRange { p with pwr := { p.pwr with vauxOk := true, vauxOut := false, thermtrip := false } }) ∧
      (p.pwr.pwrGood = false → Makes s .vauxRemoved { p with pwr := { p.pwr with vauxOk := false, trip := 0, thermtrip := false }, tap := {} }) ∧
      (p.pwr.thermtrip = true → Makes s (.packageStart rate dies) p) ∧
      (p.pwr.held = true → p.pwr.pwrGood = true → p.pwr.vauxOk = true → p.pwr.vinOut = false → p.pwr.vauxOut = false → p.pwr.thermtrip = false →
        let q := p.packageReset
        let q : Pkg := { q with
          pkgState := 0, pwr := { q.pwr with held := false, resetLow := false }, tap := { q.tap with inst := 1 }, eth := { q.eth with rate800 := rate } }
        let q := (List.range 32).foldl (fun p d =>
          match dies.find? fun x => x.1.val == d with
          | some x => p.startDie d x.2
          | none => p.modDie d fun y => { y with state := 3 }) q
        let q := (q.seamFix 0).seamFix 1
        let q : Pkg := { q with pwr := { q.pwr with primaryB := !(q.dieUp 15) }, ident := { q.ident with keySource := b2n !(q.die 15).pufOk } }
        let q := q.raise .pkgState q.primary noCtx 0 p.pkgState
        Makes s (.packageStart rate dies) (if q.dieUp q.primary then q.bootBegin else q)))

/-- R433 to R437, R479, R485, R486: the boot ROM announces itself with a new XID and twice the wait; takes the OFFER that carries its serial and XID, rejecting
lengths out of range with reason 1, and requests its first blocks; stores each requested block and requests the next, awaiting verification when
all have come; repeats a request, or rejects with reason 2 when the transfer stops; verifies, rejecting with its reason or starting
firmware; is ready once a standby is synchronised. A standby takes over after three missed beats. -/
def Obligations.BootExchange : Prop :=
  ∀ (s : State) (up : Bool) (serial : W64) (xid : BitVec 32) (server : BitVec 128) (port : BitVec 16) (il bl block : BitVec 32) (data : List Byte)
    (stackTab : List (StackId × StackReport)),
    let p := s.pkg
    let e := p.eth
    let on := (p.openXing 15 4).ethTo true
    (p.bootIn 1 = true → Makes s .bootPortUpTimeout p.bootByRelay) ∧
    (Makes s (.ethLinkChange false) (p.ethTo false)) ∧
    (p.dieUp 15 = true → on.bootIn 1 = false → Makes s (.ethLinkChange true) on) ∧
    (p.dieUp 15 = true → on.bootIn 1 = true → Makes s (.ethLinkChange true) on.reannounce) ∧
    (p.bootIn 2 = true → e.bootPath = 0 →
      let y := p.take 32
      let q : Pkg := { y.2 with eth := { e with xid := y.1, announceS := Nat.min 64 (2 * e.announceS) } }
      Makes s .announceTimer (q.ethSend none (.udp 40312 bootGroup 40312 (q.bootMsg 1 q.announceBody)))) ∧
    (p.bootIn 2 = true → p.bootHears = true → e.announceS ≠ 1 → serial.toNat = p.serial → xid.toNat = e.xid →
      let q : Pkg := { p with eth := { e with serverIp := server.toNat, serverPort := port.toNat } }
      (offerBad il.toNat bl.toNat = true → Makes s (.bootOffer serial xid server port il none none bl) (q.reject 1)) ∧
      (offerBad il.toNat bl.toNat = false →
        let f : Eth := { q.eth with bootPhase := 3, imageLen := il.toNat, bundleLen := bl.toNat, ip6 := 0, ip4 := 0, ip4Len := 0 }
        Makes s (.bootOffer serial xid server port il none none bl)
          (({ q with eth := { f with asked := List.range (Nat.min 64 f.total) } } : Pkg).bootSend 3 (toLe 4 0 ++ toLe 4 (Nat.min 64 f.total))))) ∧
    (p.bootIn 3 = true →
      (p.bootHears = true → serial.toNat = p.serial → xid.toNat = e.xid → e.asked.contains block.toNat = true → data.length = e.blockLen block.toNat →
        let next := e.blocks.length + e.asked.length
        let asked := e.asked.erase block.toNat
        let got := tabSet [] e.blocks block.toNat data
        (next < e.total → Makes s (.bootData serial xid block data)
          (({ p with eth := { e with blocks := got, asked := asked ++ [next] } } : Pkg).bootSend 3 (toLe 4 next ++ toLe 4 1))) ∧
        (e.total ≤ next → asked ≠ [] → Makes s (.bootData serial xid block data) { p with eth := { e with blocks := got, asked := asked } }) ∧
        (e.total ≤ next → asked = [] → Makes s (.bootData serial xid block data) { p with eth := { e with blocks := got, asked := [], bootPhase := 4 } })) ∧
      (e.asked.contains block.toNat = true → Makes s (.bootBlockTimeout block) (p.bootSend 3 (toLe 4 block.toNat ++ toLe 4 1))) ∧
      (e.asked ≠ [] → Makes s .bootTransferTimeout (p.reject 2))) ∧
    (p.bootIn 4 = true →
      let all := (e.blocks.map fun x => x.2).flatten
      let image := all.take e.imageLen
      let bundle := all.drop e.imageLen
      (p.bundleOk bundle = false → Makes s (.bootVerifyDone stackTab) (p.reject 2)) ∧
      (p.bundleOk bundle = true →
        (imageReject image e.imageLen ≠ 0 → Makes s (.bootVerifyDone stackTab) (p.reject (imageReject image e.imageLen))) ∧
        (imageReject image e.imageLen = 0 →
          (p.pairing (imPairs image) = none → Makes s (.bootVerifyDone stackTab) (({ p with eth := { e with pairingFail := true } } : Pkg).reject 4)) ∧
          (∀ n, p.pairing (imPairs image) = some n →
            let q := p.firmwareStart image bundle n stackTab
            let q : Pkg := { q with eth := { q.eth with blocks := [], bootPhase := 5 } }
            Makes s (.bootVerifyDone stackTab) (if q.standby then q else q.bootDone))))) ∧
    (p.bootIn 5 = true → ({ p with pwr := { p.pwr with synced := p.standby } } : Pkg).bootIn 5 = true →
      Makes s .standbySyncDone (({ p with pwr := { p.pwr with synced := p.standby } } : Pkg).bootDone)) ∧
    (p.answers = true → p.bootIn 5 = false → ({ p with pwr := { p.pwr with synced := p.standby } } : Pkg).bootIn 5 = false →
      Makes s .standbySyncDone { p with pwr := { p.pwr with synced := p.standby } }) ∧
    (p.standby = true → 3 ≤ p.pwr.missed → Makes s .takeover (((p.dieReset p.primary 5 false).excuseAll).takeOver p.primary p.pwr.synced))

/-! ## The host port (chapter 16) -/

/-- R424 to R427, R429: an ARP request, a neighbour solicitation or an echo for an address of the port is answered, echoes up to 1,024
bytes and 1,000 a second; a fragment or a datagram for nobody is counted. A PFC frame stops one of the two priorities, and what waited
leaves in order when the pause ends. R431, R432, R436: a relay request of an address without a session is counted as denied; one with a session goes on as a CMD_RELAY to the
device its header names, its host recorded; the target executes the packet inside as its row's meaning; the reply goes to the recorded
host behind a header that names the target. -/
def Obligations.HostPortPackets : Prop :=
  (
    ∀ (s : State) (ip4 : BitVec 32) (ip6 : BitVec 128) (vlan : Option (BitVec 16)) (v6 frag : Bool) (pay : List Byte) (prio : Fin 8) (q : BitVec 16),
      let p := s.pkg
      let near := p.eth.echoes.filter fun t => decide (p.now < t + 1000000000)
      (p.eth.ip4 ≠ 0 → ip4.toNat = p.eth.ip4 → Makes s (.arpRequest ip4 vlan) (p.ethSend (tagPrio vlan) (.frame 0 vlan (p.macBytes ++ toBe 4 p.eth.ip4)))) ∧
      (ip6.toNat = p.linkLocal ∨ (p.eth.ip6 ≠ 0 ∧ ip6.toNat = p.eth.ip6) →
        Makes s (.neighbourSolicitation ip6 vlan) (p.ethSend (tagPrio vlan) (.frame 1 vlan (toBe 16 ip6.toNat ++ p.macBytes)))) ∧
      (p.ownPort = true →
        (pay.length ≤ 1024 → near.length < 1000 → v6 = true ∨ p.eth.ip4 ≠ 0 → Makes s (.icmpEchoRequest v6 pay vlan)
          (({ p with eth := { p.eth with echoes := p.now :: near } } : Pkg).ethSend (tagPrio vlan) (.frame 2 vlan pay))) ∧
        (1024 < pay.length ∨ 1000 ≤ near.length → Makes s (.icmpEchoRequest v6 pay vlan) p) ∧
        Makes s (.frameDrop frag) (p.bump (if frag then .ethFragDrop else .ethPortDrop) 0) ∧
        (prio.val = p.eth.bulkPrio ∨ prio.val = p.eth.cmdPrio →
          (q ≠ 0 → ∃ r, Makes s (.pfcFrameReceive prio q) r ∧ r.eth = { p.eth with paused := tabSet false p.eth.paused prio true } ∧
            r.ctr .ethPfc prio = (p.ctr .ethPfc prio + 1) % 2 ^ 64) ∧
          (q = 0 → Makes s (.pfcFrameReceive prio q) ((p.bump .ethPfc prio).resumePrio prio)))) ∧
      (tabGet false p.eth.paused prio = true → Makes s (.pfcPauseEnd prio) (p.resumePrio prio))) ∧
  (
    ∀ (s : State) (ip : BitVec 128) (port : BitVec 16) (h : W64) (inner : List Byte) (k : LPkt),
      let p := s.pkg
      (p.answers = true → p.ownPort = true → inner.length ≤ 8864 →
        (p.holdsSession ip.toNat = false → Makes s (.relayRequest ip port h inner) (p.bump .ethRelayDenied 0)) ∧
        (p.holdsSession ip.toNat = true → bit h.toNat 24 = false → Makes s (.relayRequest ip port h inner)
          (p.request (p.mkPkt (fld h.toNat 0 24) 12 0 0 (relayRecord ip.toNat port.toNat p.fabAddr ++ inner)) (.relay 0)).2)) ∧
      (k.pkind = 12 → k.dst.toNat = p.fabAddr → p.answers = true →
        let q : Pkg := { p with eth := { p.eth with relayFab := k.src.toNat } }
        (∀ r ∈ ([(0x01, .sessionOpen), (0x02, .sessionClose), (0x10, .getInfo), (0x11, .regRead), (0x20, .setTopology), (0x30, .contextCreate),
            (0x40, .loadProgram), (0x60, .stepBegin), (0x61, .stepCommit), (0x70, .run), (0xA0, .readCounters), (0xC1, .attest)] : List (Nat × (Pkt → Instr))),
          innerOp k = r.1 → exec (.cmdRelayReceive k) s = exec (r.2 (innerPkt k)) { s with pkg := q }) ∧
        (∀ t, innerOp k = 0x71 → exec (.preempt (innerPkt k)) { s with pkg := q } = .next t →
          (t ≠ { s with pkg := q } → exec (.cmdRelayReceive k) s = .next t) ∧
          (t = { s with pkg := q } → exec (.cmdRelayReceive k) s = exec (.preemptSwap (innerPkt k)) { s with pkg := q }))) ∧
      (Reaches p k 13 → p.req k.tag.toNat = none → p.answers = true → p.ownPort = true → k.src ≠ 0 → leNat (k.content.take 16).reverse ≠ 0 →
        let q := (p.take 8).2
        Makes s (.cmdReplyReceive k)
          (q.ethSend (some q.eth.cmdPrio) (.udp 40313 (leNat (k.content.take 16).reverse) (leNat (slice k.content 16 2)) (toLe 8 (put 0 24 k.src.toNat) ++ k.content.drop 32)))))

/-- R428, R430, R459: a request with the expected PSN executes and is acknowledged, an earlier one is acknowledged again, and a gap answered once with a NAK. A
SEND on a pair without a slot is answered RNR; a WRITE that its key does not allow a remote-access NAK, one whose stack is gone a
remote-operation NAK; a READ returns its bytes in pieces of the path MTU. R428, R430: an acknowledgement releases what it covers and restarts the retries; a NAK for a gap and a timeout send the rest again, in error
after seven retries; an RNR NAK waits for its timer; an error NAK ends the pair. A congestion notification halves the rate, to no less than
1 Gbit/s, and each increase gives back 5 % of the line rate. -/
def Obligations.RocePackets : Prop :=
  (
    ∀ (s : State) (n : Nat) (psn : BitVec 24) (data : List Byte) (key : BitVec 32) (addr : BitVec 48) (len : Nat),
      let p := s.pkg
      let y := p.qp n
      let q := p.setQp n { y with nakSent := false }
      let a := addr.toNat
      let nak (p : Pkg) (c : Nat) : Pkg := p.roceOut n 3 psn.toNat [BitVec.ofNat 8 c]
      p.qpReady n = true →
      (∀ x ∈ [Instr.roceSendReceive n psn data, .roceWriteReceive n psn key addr data false], psn.toNat ≠ y.rqPsn →
        (psnLe psn.toNat y.rqPsn = true → Makes s x (p.roceOut n 2 psn.toNat [])) ∧
        (psnLe psn.toNat y.rqPsn = false → y.nakSent = false → Makes s x ((p.setQp n { y with nakSent := true }).roceOut n 3 y.rqPsn [0])) ∧
        (psnLe psn.toNat y.rqPsn = false → y.nakSent = true → Makes s x p)) ∧
      (psn.toNat = y.rqPsn →
        (y.slot = none → Makes s (.roceSendReceive n psn data) (q.roceOut n 4 psn.toNat [])) ∧
        (∀ j, y.slot = some j → data.length = 48 →
          let r := (q.roceNext n 1).roceOut n 2 psn.toNat []
          Makes s (.roceSendReceive n psn data) (if r.hostFed j then r.hostHead j (leNat data) else r)) ∧
        (data.length ≤ y.mtu → data ≠ [] →
          (q.keyAllows key.toNat a data.length 0 = false → Makes s (.roceWriteReceive n psn key addr data false) (nak q 2)) ∧
          (q.keyAllows key.toNat a data.length 0 = true →
            (q.memReady a data.length = .ok → Makes s (.roceWriteReceive n psn key addr data false)
              (((q.roceNext n 1).roceOut n 2 psn.toNat []).hostStore n a data)) ∧
            (q.memReady a data.length = .waits → Makes s (.roceWriteReceive n psn key addr data false) q) ∧
            (q.memReady a data.length = .unavailable → Makes s (.roceWriteReceive n psn key addr data false) (nak q 3)))) ∧
        (len ≠ 0 →
          (q.keyAllows key.toNat a len 1 = false → Makes s (.roceReadReceive n psn key addr len) (nak q 2)) ∧
          (q.keyAllows key.toNat a len 1 = true → q.memReady a len = .ok →
            let m := Nat.max 1 (ceilDiv len y.mtu)
            Makes s (.roceReadReceive n psn key addr len)
              ((List.range m).foldl (fun p i => p.roceOut n 1 (psn.toNat + i) (((q.load a len).drop (y.mtu * i)).take y.mtu)) ((q.devTouch a len false 0).roceNext n m)))))) ∧
  (
    ∀ (s : State) (n : Nat) (psn : BitVec 24) (ce : Fin 4),
      let p := s.pkg
      let y := p.qp n
      let left := y.unacked.filter fun u => !psnLe u.1 psn.toNat || (ce != 0 && u.1 == psn.toNat)
      let z := { y with unacked := left, retries := if left.length < y.unacked.length then 0 else y.retries }
      let again (p : Pkg) (q : Qp) : Pkg := if 7 ≤ q.retries then p.qpError n else (p.setQp n { q with retries := q.retries + 1 }).roceResend n
      p.qpReady n = true →
      (ce = 0 → Makes s (.roceAckReceive n psn ce) (p.setQp n z)) ∧
      (ce = 1 → Makes s (.roceAckReceive n psn ce) (again (p.setQp n z) z)) ∧
      (ce = 2 → Makes s (.roceAckReceive n psn ce) ((p.setQp n z).setQp n { z with rnrWait := true })) ∧
      (ce = 3 → Makes s (.roceAckReceive n psn ce) ((p.setQp n z).qpError n)) ∧
      (y.unacked ≠ [] → y.rnrWait = false → Makes s (.roceAckTimeout n) (again p y)) ∧
      (y.rnrWait = true → Makes s (.roceRnrTimer n) ((p.setQp n { y with rnrWait := false }).roceResend n)) ∧
      Makes s (.cnpReceive n) ((p.setQp n { y with rate := p.lineRate - Nat.max 1000000000 ((p.lineRate - y.rate) / 2) }).bump .ethCnp p.eth.bulkPrio) ∧
      Makes s (.cnpRateIncrease n) (p.setQp n { y with rate := y.rate - p.lineRate / 20 }))

/-- R509, R517 to R520, R523: while VAUX is in range IDCODE shifts out the identification register; SAMPLE/PRELOAD shifts out the lands and takes the
cells; the pin instructions act with PWR_GOOD high and RESET_N low and are BYPASS otherwise; BYPASS shifts one bit 0; TRST_N selects
IDCODE. Out of range every input is ignored. -/
def Obligations.TestAccess : Prop :=
  ∀ (s : State) (cells : List Bool),
    let p := s.pkg
    let sel (p : Pkg) (n : Nat) : Pkg := { p with tap := { p.tap with inst := n } }
    (p.pwr.vauxOk = true →
      Makes s .jtagIdcode ((sel p 1).emit (.tdo p.idcode)) ∧
      (cells.length ≤ tapCells → ∃ q, Makes s (.jtagSamplePreload cells) q ∧ q.tap.inst = 2 ∧ q.free = p.free + 1 ∧
        (∀ i, i < cells.length → tabGet false q.tap.cells i = cells.getD i false) ∧
        (∀ i, cells.length ≤ i → tabGet false q.tap.cells i = tabGet false p.tap.cells i) ∧
        ∃ out, q.out = (p.emit (.tdo out)).out ∧ out.length = tapCells ∧
          out.getD 597 false = p.pwr.pwrGood ∧ out.getD 598 false = !p.pwr.resetLow ∧ out.getD 600 false = !p.pwr.thermtrip) ∧
      (∀ x ∈ ([(.jtagExtest, 3), (.jtagExtestPulse, 4), (.jtagExtestTrain, 5), (.jtagClamp, 6), (.jtagHighz, 7)] : List (Instr × Nat)),
        (p.pwr.pwrGood = true → p.pwr.resetLow = true → Makes s x.1 (sel p x.2)) ∧
        (p.pwr.pwrGood = false ∨ p.pwr.resetLow = false → Makes s x.1 ((sel p 0xFF).emit (.tdo [false])))) ∧
      Makes s .jtagBypass ((sel p 0xFF).emit (.tdo [false])) ∧
      Makes s .trstNAssert (sel p 1)) ∧
    (p.pwr.vauxOk = false → ∀ x ∈ [Instr.jtagIdcode, .jtagSamplePreload cells, .jtagExtest, .jtagExtestPulse, .jtagExtestTrain, .jtagClamp, .jtagHighz,
      .jtagBypass, .trstNAssert], Makes s x p)

/-! ## Luajo: steps, contexts and serving (Table 17.6) -/

/-- R355 to R361, R367: STEP_BEGIN of a context whose step is settled opens the step it names, while every planned port is met or the plan may run degraded, which raises an event for each unmet one; STEP_COMMIT of the open step
enters SEALING and waits for the verdict; STEP_ABORT takes the step out with cause other and waits, and with FORCE a
device that has voted and holds no verdict leaves SEALING at once with verdict 3. R349, R350: RESHARD in an open step without a plan takes a well-formed plan whose cores are admitted and whose rebinds
break no admitted deadline, and its moves begin beside the step. -/
def Obligations.StepAndReshardCommands : Prop :=
  (
    ∀ (s : State) (k : Pkt) (i : Nat) (ts : List TlvE),
      (let op : LjOp := { code := 0x60, req := [6, 0x17], opt := [1], ofCtx := true, bound := true }
       let p := s.pkg.taken op k
       let c := p.cmdOf op k i ts
       let x := p.ctx c.ctx
       Ready s.pkg op k i ts → (c.has 1 = true → polReserved c.strct = false ∧ p.polOk c.ctx c.strct c.body.length = true) →
        (c.has 1 = false → x.step.hasPolicy = true) → x.step.state ≠ 1 → x.step.state ≠ 2 → x.state ≠ .empty → x.state ≠ .faulted →
        c.num 6 < 2 ^ 61 → (x.step.begun = true → c.num 6 = x.step.num + 1) →
        (∀ j ∈ p.optSlots c.ctx, (p.slot j).freeEntry ≠ none) → p.objsFor (p.optSlots c.ctx) = true →
        (∀ e es, p.degraded = false → p.planUnmet = e :: es → Refuses s (.stepBegin k) op k i stPlanUnmet (tlv 0x85 (toLe 4 e))) ∧
        (p.degraded = true ∨ p.planUnmet = [] → p.secBusy c.ctx (c.num 6) = false →
         Commits s (.stepBegin k) op k i
          ((p.planUnmet.foldl (fun p e => p.raise .ldPlanUnmet p.primary c.ctx e 0) p).stepBegin c.ctx (c.num 6) (c.bytes 0x17) (if c.has 1 then some c.strct else none)).stopAbsent [])) ∧
      (let op : LjOp := { code := 0x61, req := [6], ofCtx := true, bound := true }
       let p := s.pkg.taken op k
       let c := p.cmdOf op k i ts
       let x := p.ctx c.ctx
       Ready s.pkg op k i ts →
        (x.step.state = 1 → x.step.num = c.num 6 → (x.reshard.given = true → x.reshard.failed = false ∧ x.reshard.complete = true) →
          Pends s (.stepCommit k) op k i (p.modStep c.ctx fun y => { y with state := 2, sealNs := p.now, replyCommit := some (i, k.seq.toNat) })) ∧
        (x.step.state ≠ 1 ∨ x.step.num ≠ c.num 6 → Refuses s (.stepCommit k) op k i stBadState
          (p.stateTlv (if k.ctxF then some k.context.toNat else none) c.port)) ∧
        (x.step.state = 1 → x.step.num = c.num 6 → x.reshard.given = true → x.reshard.failed = true →
          Refuses s (.stepCommit k) op k i stReshardFailed []) ∧
        (x.step.state = 1 → x.step.num = c.num 6 → x.reshard.given = true → x.reshard.failed = false → x.reshard.complete = false →
          Refuses s (.stepCommit k) op k i stReshardPending [])) ∧
      (let op : LjOp := { code := 0x62, req := [6], opt := [0x0D], ofCtx := true, bound := true }
       let p := s.pkg.taken op k
       let c := p.cmdOf op k i ts
       let y := (p.ctx c.ctx).step
       let force := ((parseTlvs (k.params.length + 1) k.params).getD []).any fun e => e.1 == 0x0D && bit (leNat e.2) 0
       Ready s.pkg op k i ts → c.num 0x0D < 2 → y.state = 1 ∨ y.state = 2 → y.num = c.num 6 →
        (force = false → Pends s (.stepAbort k) op k i (p.stepAbort c.ctx (some (i, k.seq.toNat)))) ∧
        (force = true → y.voted = true → y.verdictIn = false → Commits s (.stepAbortForce k) op k i
          (((p.raise .stepForced p.primary c.ctx c.ctx y.num).bump .stepForced c.ctx).applyVerdict c.ctx 3 true) (stepTlvs y.num 3 none)) ∧
        (force = true → y.voted = false ∨ y.verdictIn = true →
          Pends s (.stepAbortForce k) op k i (p.stepAbort c.ctx (some (i, k.seq.toNat)))))) ∧
  (
    ∀ (s : State) (k : Pkt) (i : Nat) (ts : List TlvE),
      let op : LjOp := { code := 0x83, req := [2], ofCtx := true, bound := true }
      let p := s.pkg.taken op k
      let c := p.cmdOf op k i ts
      let r := c.strct
      let x := p.ctx c.ctx
      Ready s.pkg op k i ts → planReserved r = false → p.planOk c.ctx r c.body.length = true → x.step.state = 1 →
      (x.reshard.given = true → Refuses s (.reshard k) op k i stReshardActive []) ∧
      (x.reshard.given = false → (∀ b ∈ planRebinds r, ∀ g ∈ bitsOf 384 (fld b 64 384), (p.die (dieOfCore g)).admitted = true) →
        newFails p ((planRebinds r).foldl (fun p b => p.modSlot (fld b 0 4) fun s => { s with bind := setFld s.bind 0 384 (fld b 64 384) }) p) = [] →
        Commits s (.reshard k) op k i ((p.modReshard c.ctx fun _ => {
          given := true, active := true, hdr := r % 2 ^ 512, moves := planMoves r, rebinds := planRebinds r, planAt := c.ref, planLen := c.body.length }).reshardAdvance c.ctx) []))

/-- R374, R375, R377: CONTEXT_CREATE of an EMPTY context with a well-formed record, free objects and large enough save areas
makes it LOADED or SWAPPED; CONTEXT_DESTROY of one with no step and no slot drops its regions, objects and waiters;
CONTEXT_SET_CLASS changes its class unless admitted windows of one class would share cores. -/
def Obligations.ContextCommands : Prop :=
  ∀ (s : State) (k : Pkt) (i : Nat) (ts : List TlvE),
    (let op : LjOp := { code := 0x30, req := [1], ofCtx := true }
     let p := s.pkg.taken op k
     let c := p.cmdOf op k i ts
     let r := c.strct
     Ready s.pkg op k i ts → ctxReserved r = false → p.ctxOk c.ctx r c.body.length = true → (p.ctx c.ctx).state = .empty →
      (p.ctxs.filter fun e => e.2.state != .empty).length < 256 →
      (∀ o, recObjBase r ≤ o → o < recObjBase r + recObjCount r →
        ((p.sync o).owner = 0x1FF ∨ (p.sync o).owner = c.ctx) ∧ p.dieUp (queueDie (halfOfObj o)) = true) →
      (2048 ≤ recObjBase r ∨ recObjBase r + recObjCount r ≤ 2048) →
      (∀ n < 16, saveCores r n = [] ∨
        (p.inRegions c.ctx (recExt r n) (saveNeed r n) = true ∧ stackOf (recExt r n + saveNeed r n - 1) = n)) →
      Commits s (.contextCreate k) op k i (p.ctxCreate c.ctx r) []) ∧
    (let op : LjOp := { code := 0x31, ofCtx := true }
     let p := s.pkg.taken op k
     let x := p.ctx k.context.toNat
     Ready s.pkg op k i ts → x.state ≠ .empty → x.step.state ≠ 1 → x.step.state ≠ 2 → p.slotsOf k.context.toNat = [] →
      ∃ q : Pkg, Commits s (.contextDestroy k) op k i q.swapEval [] ∧ (q.ctx k.context.toNat).state = .empty ∧
        q.regions = p.regions.filter (fun r => r.owner != k.context.toNat) ∧
        q.syncs = p.syncs.filter (fun e => e.2.owner != k.context.toNat) ∧ q.mem = p.mem ∧
        ∀ n : Nat, n ≠ k.context.toNat → q.ctx n = p.ctx n) ∧
    (let op : LjOp := { code := 0x32, req := [0x10], ofCtx := true }
     let p := s.pkg.taken op k
     let c := p.cmdOf op k i ts
     let q := p.modCtx c.ctx fun x => { x with lc := c.num 0x10 == 1 }
     Ready s.pkg op k i ts → (p.ctx c.ctx).state ≠ .empty →
      (q.classShared = false ∨ p.classShared = true → Commits s (.contextSetClass k) op k i q.swapEval []) ∧
      (q.classShared = true → p.classShared = false → Refuses s (.contextSetClass k) op k i stDeadlineShared []))

/-- R375, R379, R382, R451: RUN schedules a LOADED context, marks a SWAPPED one to run, and starts a CONFIGURED package;
PREEMPT kills the items of a resident context, which is LOADED, and waits; with SWAP the context is saved. R392, R393: SERVE_JOIN of a new sequence of a serving context with room for it is pending until a round admits it;
SERVE_LEAVE cancels a pending join, or lets a sequence leave at the later of the round named and the current one. -/
def Obligations.RunAndServeCommands : Prop :=
  (
    ∀ (s : State) (k : Pkt) (i : Nat) (ts : List TlvE),
      (let op : LjOp := { code := 0x70, ofCtx := true, bound := true }
       let p := s.pkg.taken op k
       let n := k.context.toNat
       let x := p.ctx n
       let q := if p.pkgState = 2 then p.pkgTo (if p.atFloor then 3 else 4) else p
       Ready s.pkg op k i ts →
        (x.state = .swapped → Commits s (.run k) op k i (q.setCtx n { x with runGiven := true }).swapEval []) ∧
        (x.state = .loaded → Commits s (.run k) op k i
          (((q.setCtx n { x with runGiven := true, scheduled := true }).ctxTo n .blocked).ctxEval n).swapEval []) ∧
        (x.state ≠ .loaded → x.state ≠ .swapped → Refuses s (.run k) op k i stBadState (p.stateTlv (if k.ctxF then some n else none)
          (p.cmdOf op k i ts).port))) ∧
      (let op : LjOp := { code := 0x71, opt := [0x0D], ofCtx := true }
       let p := s.pkg.taken op k
       let c := p.cmdOf op k i ts
       let n := k.context.toNat
       let x := p.ctx n
       let swap := ((parseTlvs (k.params.length + 1) k.params).getD []).any fun e => e.1 == 0x0D && bit (leNat e.2) 0
       let token := (i, k.seq.toNat)
       let b := p.bump .ctxPreempt n
       Ready s.pkg op k i ts → c.num 0x0D < 2 → x.resident = true → x.state ≠ .faulted → x.state ≠ .empty →
        (swap = true → Pends s (.preemptSwap k) op k i
          ((b.swapOut n false).modCtx n fun x => { x with runGiven := false, swapReply := x.swapReply ++ [token] })) ∧
        (swap = false →
          let m := b.modCtx n fun x => { x with
            preempting := true, scheduled := false, runGiven := false, runnableSince := none, preemptReply := x.preemptReply ++ [token] }
          Pends s (.preempt k) op k i (((m.slotsOf n).foldl (fun p j => [0, 1].foldl (fun p q =>
            if ((p.slot j).pos q).isSome then p.preemptItem j q false else p) p) m).ctxTo n .loaded)))) ∧
  (
    ∀ (s : State) (k : Pkt) (i : Nat) (ts : List TlvE),
      (let op : LjOp := { code := 0x90, req := [0x0A, 0x0E, 0x0F, 0x10], ofCtx := true, bound := true }
       let p := s.pkg.taken op k
       let c := p.cmdOf op k i ts
       let x := p.ctx c.ctx
       let v := c.num 0x0A
       let j : Join := { id := c.num 0x0E, stream := fld v 32 6, lc := c.num 0x10 == 1, prompt := fld v 0 32, roundAt := c.num 0x0F, reply := some (i, k.seq.toNat) }
       Ready s.pkg op k i ts → fld v 38 26 = 0 → c.num 0x0E ≠ 0xFFFF_FFFF → fld v 0 32 ≠ 0 → x.state ≠ .empty → bit x.record 1 = true →
        fld v 0 32 ≤ svMaxTok x.serve → fld v 32 6 < svStreams x.serve →
        (x.knows j.id = true → Refuses s (.serveJoin k) op k i stSeqExists []) ∧
        (x.knows j.id = false → svMaxSeq x.serve ≤ x.seqs.length + x.joins.length → Refuses s (.serveJoin k) op k i stSeqTableFull []) ∧
        (x.knows j.id = false → x.seqs.length + x.joins.length < svMaxSeq x.serve → joinNeed x.serve j ≤ (svPool x.serve).length →
          Pends s (.serveJoin k) op k i (p.setCtx c.ctx { x with joins := x.joins ++ [j] }))) ∧
      (let op : LjOp := { code := 0x91, req := [0x0E, 0x0F], ofCtx := true, bound := true }
       let p := s.pkg.taken op k
       let c := p.cmdOf op k i ts
       let x := p.ctx c.ctx
       let id := c.num 0x0E
       let last := Nat.max (c.num 0x0F) x.round
       Ready s.pkg op k i ts → id ≠ 0xFFFF_FFFF →
        (∀ j, x.joins.find? (fun j => j.id == id) = some j → Commits s (.serveLeave k) op k i
          ((p.setCtx c.ctx { x with joins := x.joins.filter fun y => y.id != id }).replyWaiting j.reply stSeqUnknown []) (tlv 0x0F (toLe 8 last))) ∧
        ((∀ j ∈ x.joins, j.id ≠ id) → (∃ y ∈ x.seqs, y.id = id) → Commits s (.serveLeave k) op k i
          (p.setCtx c.ctx { x with seqs := x.seqs.map fun s => if s.id = id then { s with leaveAt := some last } else s }) (tlv 0x0F (toLe 8 last))) ∧
        ((∀ j ∈ x.joins, j.id ≠ id) → (∀ y ∈ x.seqs, y.id ≠ id) → Refuses s (.serveLeave k) op k i stSeqUnknown [])))

/-! ## Luajo: programs, slots, memory, power, securing, ports (Table 17.6) -/

/-- R35 to R38, R50, R51, R221 to R223: LOAD_PROGRAM installs a well-formed image on a quiet slot that its context may
use; BIND_SLOT binds a loaded slot whose record, cores, regions, stash and threads suffice; UNBIND_SLOT releases a quiescent
one; SET_DEADLINE admits a feasible window, and 0 removes it. -/
def Obligations.SlotCommands : Prop :=
  ∀ (s : State) (k : Pkt) (i : Nat) (ts : List TlvE),
    (let op : LjOp := { code := 0x40, req := [2, 3], ofCtx := true, bound := true }
     let p := s.pkg.taken op k
     let c := p.cmdOf op k i ts
     let j := c.num 3
     let x := p.slot j
     Ready s.pkg op k i ts → p.homeUp j = true → imgReserved c.body = false → imgOk c.body = true →
      fld (leNat (c.body.take 64)) 48 8 ≤ (p.die p.primary).pkgFeature → imgPairs c.body = true → (p.ctx c.ctx).state ≠ .empty →
      (x.bound = true → x.ctx = c.ctx) → x.fwd = none → x.bwd = none → (p.ing j 0).queue = [] → (p.ing j 1).queue = [] →
      (p.ctx c.ctx).step.state ≠ 2 → newFails p (p.install c.ctx j c.ref c.body) = [] →
      Commits s (.loadProgram k) op k i ((p.install c.ctx j c.ref c.body).reAdmit p) []) ∧
    (let op : LjOp := { code := 0x41, req := [1, 3], ofCtx := true }
     let p := s.pkg.taken op k
     let c := p.cmdOf op k i ts
     let j := c.num 3
     let x := p.slot j
     let r := c.strct
     let cores := bitsOf 384 (fld r 0 384)
     Ready s.pkg op k i ts → p.homeUp j = true → c.body.length = 256 → bindReserved r = false → p.bindOk c.ctx r = true → (p.ctx c.ctx).state ≠ .empty →
      x.hasImage = true → x.imgCtx = c.ctx → newFails p (p.modSlot j fun s => { s with bind := r, bound := true, ctx := c.ctx }) = [] →
      x.bound = false → (∀ g ∈ cores, (p.die (dieOfCore g)).admitted = true ∧ hdrThreads x.hdr ≤ (p.freeThreads g).length ∧
        bit (recFoot (p.ctx c.ctx).record) g = true) →
      fld x.res 0 32 ≤ fld r 576 32 → fld x.res 32 32 ≤ fld r 704 32 → fld x.res 128 64 ≤ 65536 * fld r 960 32 →
      Commits s (.bindSlot k) op k i (p.bindSlot c.ctx j r) []) ∧
    (let op : LjOp := { code := 0x43, req := [3], ofCtx := true }
     let p := s.pkg.taken op k
     let c := p.cmdOf op k i ts
     let j := c.num 3
     let x := p.slot j
     let st := (p.ctx c.ctx).step.state
     Ready s.pkg op k i ts → x.bound = true → x.ctx = c.ctx →
      (p.slotQuiet j = false → Refuses s (.unbindSlot k) op k i stSlotActive []) ∧
      (p.slotQuiet j = true → st ≠ 1 → st ≠ 2 → (∀ e < 8, (x.ver e).state ≠ 1) →
        Commits s (.unbindSlot k) op k i (p.unbindSlot j).swapEval [])) ∧
    (let op : LjOp := { code := 0x42, req := [3, 4, 5], ofCtx := true, bound := true }
     let p := s.pkg.taken op k
     let c := p.cmdOf op k i ts
     let j := c.num 3
     let n := 4 * j + c.num 4
     let x := p.slot j
     let w := x.workOf (c.num 4)
     let a := p.admission x.bind w (c.num 5)
     Ready s.pkg op k i ts → c.num 5 = 0 ∨ 1000 ≤ c.num 5 → x.bound = true → x.ctx = c.ctx →
      (c.num 5 = 0 → Commits s (.setDeadline k) op k i (p.setDlWin n {}) (tlv 0x83 (toLe 2 0))) ∧
      (c.num 5 ≠ 0 → w.valid = true → a.ok = false → Refuses s (.setDeadline k) op k i stDeadlineInfeasible (tlv 0x82 (toLe 4 a.wmin))) ∧
      (c.num 5 ≠ 0 → w.valid = true → a.ok = true → p.sharedWith j = false →
        Commits s (.setDeadline k) op k i (p.setDlWin n { w := c.num 5, vreq := a.vreq }) (tlv 0x83 (toLe 2 a.vreq))))

/-- R283, R302, R458: MEM_MAP map adds a region that overlaps no other and whose stacks serve; unmap removes the region of its
BASE when the device holds no range in it, and its lines lose their stickiness; set partition sets RATE and BURST on the
stacks named while no stack is overcommitted. R460, R473: POWER_POLICY takes a record in range and is never refused for a window. -/
def Obligations.MemoryAndPowerCommands : Prop :=
  ∀ (s : State) (k : Pkt) (i : Nat) (ts : List TlvE),
    (let op : LjOp := { code := 0x50, req := [1, 8], ofCtx := true, legal := 1 }
     let p := s.pkg.taken op k
     let c := p.cmdOf op k i ts
     let r := regOf c.strct
     let row (n : Nat) : Prop := rowIs 8 n 2 ((parseTlvs (k.params.length + 1) k.params).getD []) = true
     Ready s.pkg op k i ts →
      (row 0 → c.num 8 = 0 → c.body.length = 32 → regReserved c.strct = false → r.base % 65536 = 0 → r.pages ≠ 0 → r.owner ≤ 0x100 →
        r.base + r.len ≤ 16 * stackSize → p.overlapping r = [] → (∀ n ∈ stacksOf r.base r.len, (p.stack n).state = 0) → p.regions.length < 4096 →
        newFails p (Pkg.trackInit { p with regions := p.regions ++ [r] } r) = [] →
        Commits s (.memMapMap k) op k i ((Pkg.trackInit { p with regions := p.regions ++ [r] } r).reAdmit p) []) ∧
      (row 1 → c.num 8 = 1 → c.body.length = 32 → regReserved c.strct = false → ∀ x, p.regions.find? (fun x => x.base == r.base) = some x →
        ((∃ h ∈ p.heldRanges, overlaps h.1 h.2 x.base x.len = true) → Refuses s (.memMapUnmap k) op k i stRegionInUse []) ∧
        ((∀ h ∈ p.heldRanges, overlaps h.1 h.2 x.base x.len = false) → newFails p ({ p with regions := p.regions.erase x }.unstick x) = [] →
          Commits s (.memMapUnmap k) op k i (({ p with regions := p.regions.erase x }.unstick x).reAdmit p) [])) ∧
      (let v := c.strct
       let q := (bitsOf 16 (fld v 4 16)).foldl (fun p s => p.modStack s fun y => { y with part := tabSet (0, 0) y.part (fld v 0 4) (fld v 20 32, fld v 52 17) }) p
       row 2 → c.num 8 = 2 → c.body.length = 16 → fld v 69 59 = 0 → 16 ≤ fld v 52 17 → fld v 52 17 ≤ 65536 →
        (∀ n ∈ bitsOf 16 (fld v 4 16), (((p.stack n).part.filter fun e => e.1 != fld v 0 4).map fun e => e.2.1).sum + fld v 20 32 ≤ 1310720) →
        newFails p q = [] → Commits s (.memMapSetPartition k) op k i (q.reAdmit p) [])) ∧
    (let op : LjOp := { code := 0xB0, req := [1], legal := 1 }
     let p := s.pkg.taken op k
     let c := p.cmdOf op k i ts
     let r := c.strct
     Ready s.pkg op k i ts → c.body.length = 388 → fld r 16 16 = 0 → 1500 ≤ polCap r → polCap r ≤ 6200 →
      (∀ d < 96, polCeil r d ≤ 360 ∧ polFloor r d ≤ polCeil r d) →
      Commits s (.powerPolicy k) op k i (p.noteCauses.powerPolicy r).1.noteCauses
        (tlv 0x86 (((p.noteCauses.powerPolicy r).2.map fun y => toLe 8 (put 0 4 y.1 + put 4 2 y.2.1 + put 32 32 y.2.2)).flatten)))

/-- R402, R411, R412: SECURE_POLICY takes a well-formed policy that fits its space, its three objects pass to the device and
COUNT starts at 0; SECURE_NOW at the root plans the next capture and answers its step; RESTORE of a capture that stands stops
the attempt in progress and waits for the tensors. -/
def Obligations.SecuringCommands : Prop :=
  ∀ (s : State) (k : Pkt) (i : Nat) (ts : List TlvE),
    (let op : LjOp := { code := 0x80, either := true, ofCtx := true }
     let p := s.pkg.taken op k
     let c := p.cmdOf op k i ts
     let r := c.strct
     let st := (p.ctx c.ctx).step.state
     let q := (List.range 3).foldl (fun p i => p.modSync (scBase r + i) fun o => { o with owner := 0x100 })
       { p with secure := { active := true, ctx := c.ctx, hdr := r % 2 ^ 512, members := scMembers r, tensors := scTensors r, nextPlanned := fld r 128 61, cost := fld r 96 32 } }
     Ready s.pkg op k i ts → secReserved r = false → p.secOk c.ctx r c.body.length = true → (p.ctx c.ctx).state ≠ .empty → st ≠ 1 → st ≠ 2 →
      (p.secure.active = true → p.secure.ctx = c.ctx) →
      2 * (scStripe r + scM r * (scStripe r / scK r)) + fld r 336 32 ≤ fld r 304 32 →
      (∀ m < 8, (rowsOfDie (scTensors r) m).length ≤ 1024) → (((scTensors r).filter fun t => tnPin t == 1).map tnPages).sum ≤ scStripe r →
      Commits s (.securePolicy k) op k i ((q.setObj (scBase r) 0).fillTensors (scTensors r)) []) ∧
    (let op : LjOp := { code := 0x81, ofCtx := true, bound := true }
     let p := s.pkg.taken op k
     let st := (p.ctx k.context.toNat).step
     let n := if st.state = 1 then st.num else if st.begun then st.num + 1 else fld p.secure.hdr 128 61
     Ready s.pkg op k i ts → (p.ctx k.context.toNat).state ≠ .empty →
      (polRoot st.policy = false → Refuses s (.secureNow k) op k i stSecureRoot []) ∧
      (polRoot st.policy = true → p.secure.active = true → p.secure.ctx = k.context.toNat →
        Commits s (.secureNow k) op k i { p with secure := { p.secure with nextPlanned := n } } (tlv 6 (toLe 8 n)))) ∧
    (let op : LjOp := { code := 0x82, either := true, ofCtx := true, bound := true }
     let p := s.pkg.taken op k
     let c := p.cmdOf op k i ts
     let r := c.strct
     let x := p.ctx c.ctx
     let y := p.secure
     let q := match y.attempt with | some a => p.stopCapture a.step | none => p
     Ready s.pkg op k i ts → c.body.length = 64 + 4 * fld r 128 6 + 4 * fld r 136 11 → rstReserved r = false → fld r 128 6 ≤ 32 → fld r 136 11 ≤ 1024 →
      p.inRegions c.ctx (fld r 64 48) 1 = true → p.inRegions c.ctx (fld r 160 48) (Nat.max 1 (8 * y.tensors.length)) = true →
      x.state ≠ .empty → x.state ≠ .faulted → x.step.state ≠ 1 → x.step.state ≠ 2 → y.active = true → y.ctx = c.ctx → y.restoring = none →
      (∀ j ∈ p.slotsOf c.ctx, (p.ing j 0).queue = [] ∧ (p.ing j 1).queue = [] ∧ (p.egr j 0).queue = [] ∧ (p.egr j 1).queue = []) →
      (y.lastDone = none ∨ y.lastDone = some (fld r 0 61) ∨ y.older = some (fld r 0 61) →
        Pends s (.restore k) op k i { q with secure := { q.secure with
          attempt := none, capOpen := false, reported := true, restoring := some r, restoreReply := some (i, k.seq.toNat)
          phase := if y.lastDone.isSome then 2 else 3 } }) ∧
      (y.lastDone ≠ none → y.lastDone ≠ some (fld r 0 61) → y.older ≠ some (fld r 0 61) →
        Refuses s (.restore k) op k i stCaptureUnavailable []))

/-- R119, R121, R451, R454, R455: SET_TOPOLOGY takes the device's address, epoch and plan hash and each port's plan, checks every
port against it, and a FIRMWARE_READY package is CONFIGURED; SET_ROUTES replaces the table between steps and drains what waited. R108, R115, R121, R124, R436, R456 (Table 17.8): each action of PORT_CONTROL from a state it is legal from acts on the physical
port that carries the logical one, and its reply shows the port's state; from any other state it is refused with that state. -/
def Obligations.TopologyAndPortCommands : Prop :=
  (
    ∀ (s : State) (k : Pkt) (i : Nat) (ts : List TlvE),
      (let op : LjOp := { code := 0x20, req := [1], legal := 2 }
       let p := s.pkg.taken op k
       let c := p.cmdOf op k i ts
       let r := c.strct
       let a := { p with fabAddr := fld r 0 24, epoch := fld r 32 32, planHash := fld r 64 64, topoSet := true, degraded := bit r 133 }
       let b := (List.range 16).foldl (fun p n => p.modPort n fun q => { q with
         planned := topPeer (topEntry r n), stopOnFault := bit (topEntry r n) 69, v8 := bit (topEntry r n) 70, minVersion := fld r 128 4, acceptSwap := bit r 132 }) a
       let q := (List.range 16).foldl Pkg.planCheck b
       Ready s.pkg op k i ts → topReserved r = false → topOk r c.body.length = true →
        Commits s (.setTopology k) op k i (if q.pkgState = 1 then q.pkgTo 2 else q) []) ∧
      (let op : LjOp := { code := 0x21, either := true }
       let p := s.pkg.taken op k
       let c := p.cmdOf op k i ts
       let r := c.strct
       let n := fld r 0 32
       let es := (List.range ((c.body.length - 16) / 16)).map (rtEntry r)
       Ready s.pkg op k i ts → c.body.length = 16 + 16 * n → fld r 52 76 = 0 → (∀ e ∈ es, rtReserved e = false ∧ rtPrefix e = true) →
        (fld r 32 20 = 0 ∨ (100 ≤ fld r 32 20 ∧ fld r 32 20 ≤ 100000)) →
        es.Pairwise (fun x y => ¬(rtDest x = rtDest y ∧ rtPlen x = rtPlen y)) → p.stepActive = false → n ≤ 65536 →
        Commits s (.setRoutes k) op k i
          (({ p with routes := (List.range n).map fun j => { ent := rtEntry r j }, respLimit := if fld r 32 20 = 0 then 1000 else fld r 32 20 }.routesBuild.regrant p).drainTransit) [])) ∧
  (
    ∀ (s : State) (k : Pkt) (i : Nat) (ts : List TlvE), ∀ r ∈ ([
        (.portRetrain, 0, false, notDeadDark), (.portDark, 1, true, notDeadDark), (.portWake, 2, false, fun st => st == .dark),
        (.portDisable, 3, false, fun _ => true), (.portReset, 4, false, fun st => st == .dead), (.portRecheck, 5, false, fun st => st == .quarantine),
        (.portRebalance, 6, false, fun _ => !s.pkg.stepActive), (.portLimits, 7, true, fun _ => true), (.portBootServe, 8, true, fun _ => true)] :
          List ((Pkt → Instr) × Nat × Bool × (PState → Bool))),
      let op : LjOp := { code := 0x22, req := if r.2.2.1 then [7, 8, 10] else [7, 8], opt := if r.2.2.1 then [1] else [1, 10] }
      let p := s.pkg.taken op k
      let c := p.cmdOf op k i ts
      let n := p.physPort (c.num 7)
      let st := (p.port n).state
      let v := c.num 10
      let does (a : Nat) (q : Pkg) : Prop := r.2.1 = a → Commits s (r.1 k) op k i q (q.stateTlv none (some n))
      Ready s.pkg op k i ts → rowIs 8 r.2.1 8 ((parseTlvs (k.params.length + 1) k.params).getD []) = true → c.num 8 = r.2.1 →
      (r.2.2.2 st = false → r.2.1 ≠ 1 → r.2.2.1 = false → Refuses s (r.1 k) op k i stBadState (p.stateTlv none (some n))) ∧
      (r.2.2.2 st = true →
        (st = .active ∨ st = .narrow → does 0 (p.retrain n false true)) ∧
        ((p.port n).draining = false → st ≠ .active → st ≠ .narrow → st ≠ .down → does 0 (p.portTrain n false)) ∧
        (fld v 30 34 = 0 → fld v 0 20 ≠ 0 → fld v 0 20 ≤ 1000000 → fld v 20 10 ≤ 1000 → c.has 1 = false →
          does 1 (p.darkBegin n (1000 * fld v 0 20) none)) ∧
        does 2 (p.darkEnd n) ∧
        does 3 (((((p.linkItems n none).modPort n fun q => { q with darkPending := false, darkNoticeOut := false, darkLeft := 0 }).portTo n .dead).linkLoss n true).floorEval) ∧
        does 4 ((p.modPort n fun q => { q with trainFails := 0 }).portTo n .down).floorEval ∧
        does 5 (p.portHello n) ∧
        does 6 (p.routesBuild.regrant p).drainTransit ∧
        (fld v 44 20 = 0 → 10 ≤ fld v 0 24 → fld v 0 24 ≤ 10000 → fld v 24 20 ≠ 0 → fld v 24 20 ≤ 1000 →
          does 7 (p.modPort n fun q => { q with retrainUs := fld v 0 24, drainUs := fld v 24 20 })) ∧
        (v < 2 → does 8 (p.modPort n fun q =>
          let q := { q with bootServe := bit v 0 }
          if q.serves then (if q.bootOpen then q else q.openBoot) else { q with bootOpen := false }))))

/-! ## Luajo: registers, sessions, information, firmware, bulk data (Table 17.6) -/

/-- R464, R334, R488: REG_READ of one readable register returns its value; REG_WRITE merges an RW register
under its mask and clears the ones written of a W1C register, and nothing else changes; a reset request resets the die it
names, orderly or abrupt; HANDOVER makes the synchronised standby primary with a new per-boot key. R45, R387, R461 to R463, R484: GET_INFO, READ_COUNTERS, READ_EVENTS, READ_DEADLINE_RECORDS, READ_TALLY and DEBUG_PEEK answer what
they read, and change nothing beyond the command's own account. -/
def Obligations.RegisterAndReadCommands : Prop :=
  (
    ∀ (s : State) (k : Pkt) (i : Nat) (ts : List TlvE),
      (let op : LjOp := { code := 0x11, req := [9], opt := [12], legal := 0 }
       let p := s.pkg.taken op k
       let c := p.cmdOf op k i ts
       let a := c.num 9
       ∀ acc v, Ready s.pkg op k i ts → c.has 12 = false → a % 8 = 0 → regOff a + 8 ≤ 65536 → p.reg a = some (acc, v) → acc ≠ .wo → p.regDown a true = false →
        Commits s (.regRead k) op k i { p.regTouch a with free := (p.regTouch a).free + 1 } (tlv 0x81 (toLe 8 v))) ∧
      (let op : LjOp := { code := 0x12, req := [9, 10], opt := [11], legal := 1 }
       let p := s.pkg.taken op k
       let c := p.cmdOf op k i ts
       let a := c.num 9
       let v := c.num 10
       let mask := if c.has 11 then c.num 11 else 2 ^ 64 - 1
       let tl := (parseTlvs (k.params.length + 1) k.params).getD []
       let d := fld v 0 5
       regTlv tl 9 = some a → regTlv tl 10 = some v → Ready s.pkg op k i ts → a % 8 = 0 →
        (isResetReq a = false → isHandover a = false →
          (∀ w old q, p.reg a = some (.rw w, old) → p.regPut a (rwMerge old v mask w) = some q →
            (p.regDown a false = false → Commits s (.regWrite k) op k i q []) ∧
            (p.regDown a false = true → Refuses s (.regWrite k) op k i stDieUnavailable [])) ∧
          (∀ f n bits old, p.reg a = some (.w1c f n bits, old) → p.regDown a false = false →
            Commits s (.regWrite k) op k i (p.clearFlags f n (BitVec.ofNat 64 (v &&& mask &&& bits))) []) ∧
          (∀ old, p.reg a = some (.ro, old) → Refuses s (.regWrite k) op k i stBadRegister [])) ∧
        (isResetReq a = true → (∃ old, p.reg a = some (.wo, old)) → p.regDown a false = false → d ≠ p.primary → p.dieUp d = true →
          (bit v 5 = true → Commits s (.fabResetReqOrderly k) op k i (p.dieReset d 1 true) []) ∧
          (bit v 5 = false → Commits s (.fabResetReqAbrupt k) op k i (p.dieReset d 1 false) [])) ∧
        (isHandover a = true → (∃ old, p.reg a = some (.wo, old)) → p.regDown a false = false →
          (bit v 0 = true → p.pwr.primaryB = true → p.dieUp 15 = true → p.pwr.synced = true → p.eth.up = true →
            Commits s (.handover k) op k i { p with pwr := { p.pwr with primaryB := false, missed := 0 } }.newKey []) ∧
          (p.pwr.primaryB = false → Refuses s (.handover k) op k i stRegRefused [])))) ∧
  (
    ∀ (s : State) (k : Pkt) (i : Nat) (ts : List TlvE),
      (let op : LjOp := { code := 0x10, req := [0x15], bound := true, legal := 0 }
       let p := s.pkg.taken op k
       ∀ pg, Ready s.pkg op k i ts → p.infoPage ((p.cmdOf op k i ts).num 0x15) = some pg →
        Commits s (.getInfo k) op k i p (tlv 0x81 pg)) ∧
      (let op : LjOp := { code := 0xA0, req := [0x15], legal := 0 }
       let p := s.pkg.taken op k
       let v := (p.cmdOf op k i ts).num 0x15
       ∀ e b, Ready s.pkg op k i ts → (ctrCatalogue.find? fun x => x.1 == fld v 0 16) = some e → e.2.base = some b →
        fld v 48 16 = 0 → fld v 32 16 = 1 → fld v 16 16 < e.2.count →
        Commits s (.readCounters k) op k i p (tlv 0x81 (toLe 8 (p.icount p.primary) ++ toLe 8 (tabGet 0 p.ctrs (b + fld v 16 16))))) ∧
      (let op : LjOp := { code := 0xA1, req := [0x16], opt := [0x0D], legal := 0 }
       let p := s.pkg.taken op k
       let c := p.cmdOf op k i ts
       let dl := match regTlv ((parseTlvs (k.params.length + 1) k.params).getD []) 0x0D with | some f => bit f 0 | none => false
       let ans (store : List (Nat × List Byte)) : List Byte :=
         let rs := (store.filter fun e => decide (c.num 0x16 ≤ e.1)).take 128
         tlv 0x16 (toLe 8 (match rs.getLast? with | some e => e.1 + 1 | none => c.num 0x16)) ++ tlv 0x81 (rs.map (·.2)).flatten
       Ready s.pkg op k i ts → c.num 0x0D < 2 →
        (dl = false → Commits s (.readEvents k) op k i p (ans (p.events.reverse.map fun e => (e.index, e.bytes)))) ∧
        (dl = true → Commits s (.readDeadlineRecords k) op k i p (ans (p.dlRecs.reverse.zipIdx.map fun x =>
          (p.ctr .dlRecordLost 0 + x.2, eventBytes (p.ctr .dlRecordLost 0 + x.2) (fld x.1 128 64) Ev.deadlineMiss.ctorIdx p.primary (fld x.1 32 8) x.1))))) ∧
      (let op : LjOp := { code := 0xA2, ofCtx := true, bound := true, legal := 0 }
       let p := s.pkg.taken op k
       Ready s.pkg op k i ts → (p.ctx k.context.toNat).state ≠ .empty →
        Commits s (.readTally k) op k i p (tlv 0x81 ((p.ctx k.context.toNat).tally.bytes ++ toLe 8 (p.icount p.primary)))) ∧
      (let op : LjOp := { code := 0xD0, req := [0x0A, 0x15], legal := 0 }
       let p := s.pkg.taken op k
       let c := p.cmdOf op k i ts
       let v := c.num 0x0A
       ∀ bs, Ready s.pkg op k i ts → p.peekObj (fld (c.num 0x15) 0 8) (fld (c.num 0x15) 8 56) = some bs → fld v 48 16 = 0 →
        8 ≤ fld v 32 16 → fld v 32 16 ≤ 8192 → fld v 0 32 < bs.length →
        Commits s (.debugPeek k) op k i p (tlv 0x81 ((bs.drop (fld v 0 32)).take (fld v 32 16)))))

/-- R443, R445: SESSION_OPEN with a known key completes: when the signature verifies and the exchange succeeds, a session of a fresh
identifier and its derived keys opens in the first free place, bound to the packet's context when it names one, and the signed answer
carries its MAC; with no place free it is ST_SESSION_FULL; with a signature that fails, ST_AUTH_KEY and no session. SESSION_CLOSE
answers OK and its session is gone; the idle timeout closes a session that has decided no command. -/
def Obligations.SessionCommands : Prop :=
  ∀ (s : State),
    (∀ (k : Pkt) (ts : List TlvE) (key : List Byte),
      let op : LjOp := { code := 1, req := [0x11, 0x12, 0x13, 0x14], legal := 0 }
      let p := s.pkg.taken op k
      let w := pktWait k 1
      let val (ty : Nat) : List Byte := match ts.find? fun e => e.1 == ty with | some e => e.2 | none => []
      let sec := Config.freeValue p.free % 2 ^ 384
      let dn := toLe 32 (Config.freeValue (p.free + 1) % 2 ^ 256)
      let dpub : List Byte := 4 :: toBe 96 (Config.ecPub sec)
      let text := Config.sha384 (txtOpen ++ toLe 8 p.serial ++ val 0x11 ++ val 0x12)
      let q := { p with free := p.free + 3 }
      s.pkg.hears k.src = true → pktBadHeader k = false → k.session = 0 → s.pkg.undecided < 256 → p.ljFormat op k = (none, ts) →
      p.ident.opKeys[leNat (val 0x14)]? = some key →
      (Config.ecdsaOk (leNat key) text (leNat (val 0x13)) = false → Makes s (.sessionOpen k) (q.replyBare w stAuthKey [])) ∧
      (∀ x, Config.ecdsaOk (leNat key) text (leNat (val 0x13)) = true → Config.ecdh sec (val 0x11) = some x →
        ((∀ n < 64, (s.pkg.session n).openF = true) → Makes s (.sessionOpen k) (q.replyBare w stSessionFull [])) ∧
        (∀ j, (List.range 64).find? (fun n => !(s.pkg.session n).openF) = some j →
          ∃ sid, 0 < sid ∧ sid < 2 ^ 32 ∧ (∀ n < 64, (s.pkg.session n).id.toNat ≠ sid) ∧
            (let info := leNat (txtLj1 ++ toLe 8 p.serial ++ toLe 4 sid)
             let kr := Config.hkdf x (val 0x12 ++ dn) (2 * info + 1) % 2 ^ 384
             let sig := Config.ecdsaSign p.identKey (Config.sha384 (txtAccept ++ toLe 8 p.serial ++ (toLe 4 sid ++ val 0x11 ++ val 0x12 ++ dpub ++ dn)))
             let ps := tlv 0x11 dpub ++ tlv 0x12 dn ++ tlv 0x13 (toBe 96 sig) ++ tlv 0x84 (toLe 4 sid)
             let body := replyHeader w 0 0 ps.length ++ ps
             Makes s (.sessionOpen k) ((q.setSession j {
               openF := true, id := BitVec.ofNat 32 sid, bound := k.ctxF, ctx := if k.ctxF then k.context.toNat else 0, keyId := leNat (val 0x14)
               kCmd := Config.hkdf x (val 0x12 ++ dn) (2 * info) % 2 ^ 384, kRep := kr
               opened := p.now, lastNs := p.now, src := some w.src }).sendReply w.src (body ++ mac16 kr body)))))) ∧
    (∀ (k : Pkt) (i : Nat) (ts : List TlvE),
      let op : LjOp := { code := 2, bound := true, legal := 0 }
      Ready s.pkg op k i ts → ∃ q, exec (.sessionClose k) s = .next { s with pkg := q } ∧ q.session i = {} ∧
        q = ((s.pkg.taken op k).reply i (pktWait k 2) 0 []).closeSession i) ∧
    (∀ n : Fin 64, (s.pkg.session n).openF = true →
      ((s.pkg.session n).decided = false → exec (.sessionIdleTimeout n) s = .next { s with pkg := s.pkg.closeSession n }) ∧
      ((s.pkg.session n).decided = true → exec (.sessionIdleTimeout n) s = .next s))

/-- R453, R497, R502, R503: FW_LOAD keeps the image and waits for its verification; its end answers ST_FW_SIGNATURE and
nothing restarts when the image is refused; ATTEST signs a report at once while a per-boot key is ready and no other
waits, and waits otherwise; a key that becomes ready signs the waiting ones. -/
def Obligations.FirmwareCommands : Prop :=
  ∀ (s : State),
    (∀ (k : Pkt) (i : Nat) (ts : List TlvE),
      let op : LjOp := { code := 0xC0, req := [2], legal := 3 }
      let p := s.pkg.taken op k
      Ready s.pkg op k i ts → Pends s (.fwLoad k) op k i
        { p with ident := { p.ident with loading := some ((p.cmdOf op k i ts).body, (i, k.seq.toNat)) } }) ∧
    (∀ (k : Pkt) (i : Nat) (ts : List TlvE),
      let op : LjOp := { code := 0xC1, req := [0x12], legal := 0 }
      let p := s.pkg.taken op k
      let nonce := (p.cmdOf op k i ts).bytes 0x12
      Ready s.pkg op k i ts →
        (p.ident.pbkReady = true → p.ident.attests = [] →
          Commits s (.attest k) op k i (p.signReport nonce).2 (tlv 0x81 (p.signReport nonce).1)) ∧
        (p.ident.pbkReady = false ∨ p.ident.attests ≠ [] →
          Pends s (.attest k) op k i { p with ident := { p.ident with attests := p.ident.attests ++ [((i, k.seq.toNat), nonce)] } })) ∧
    (s.pkg.answers = true → s.pkg.ident.pbkReady = false →
      exec .perBootKeyReady s = .next { s with pkg := s.pkg.keyReady.signWaiting s.pkg.ident.attests.length }) ∧
    (∀ image tk, s.pkg.ident.loading = some (image, tk) →
      let p := { s.pkg with ident := { s.pkg.ident with loading := none } }
      (imageReject image image.length ≠ 0 →
        exec .fwLoadVerifyDone s = .next { s with pkg := (p.bump .idFwReject 0).replyWaiting (some tk) stFwSignature [] }) ∧
      (imageReject image image.length = 0 →
        let q := if p.ident.attests = [] ∨ p.ident.pbkReady = true then p else p.keyReady
        exec .fwLoadVerifyDone s = .next { s with pkg := ((q.signWaiting q.ident.attests.length).replyWaiting (some tk) 0 []).fwReload image }))

/-- R428, R430, R459: the six actions of BULK_DESCRIBE while the host port is up, each on the queue pair, key or slot its record names;
while it is down each is refused with ST_HOST_PORT_DOWN. -/
def Obligations.BulkCommands : Prop :=
  ∀ (s : State) (k : Pkt) (i : Nat) (ts : List TlvE), ∀ r ∈ ([
      (.bulkCreateQp, 0), (.bulkDestroyQp, 1), (.bulkRegisterKey, 2), (.bulkDeregisterKey, 3), (.bulkBindSlot, 4), (.bulkUnbindSlot, 5)] :
        List ((Pkt → Instr) × Nat)),
    let op : LjOp := { code := 0x51, req := [1], ofCtx := true, legal := 1 }
    let p := s.pkg.taken op k
    let c := p.cmdOf op k i ts
    let v := c.strct
    let n := bkQpn v
    let j := bkSlot v
    let q := p.qp n
    let known : Prop := 1 ≤ n ∧ n ≤ 4096 ∧ q.state ≠ 0
    let does (a : Nat) (q : Pkg) : Prop := r.2 = a → Commits s (r.1 k) op k i q []
    Ready s.pkg op k i ts → bulkRow r.2 ((parseTlvs (k.params.length + 1) k.params).getD []) = true → c.body.length = 64 → bkReserved v = false →
    fld v 0 4 = r.2 →
    (p.ownPort = false →
      (r.2 = 0 → 1 ≤ n → n ≤ 4096 → fld v 48 2 ≠ 3 → q.state = 0 → Refuses s (r.1 k) op k i stHostPortDown []) ∧
      (r.2 = 1 ∨ r.2 = 4 ∨ r.2 = 5 → known → Refuses s (r.1 k) op k i stHostPortDown []) ∧
      (r.2 = 2 → bkKey v ≠ 0 → p.keyFits v = true → Refuses s (r.1 k) op k i stHostPortDown []) ∧
      (r.2 = 3 → (∃ y ∈ p.eth.keys, y.rkey = bkKey v) → Refuses s (r.1 k) op k i stHostPortDown [])) ∧
    (p.ownPort = true →
      (1 ≤ n → n ≤ 4096 → fld v 48 2 ≠ 3 → q.state = 0 →
        does 0 (p.setQp n { state := 1, rqpn := fld v 24 24, mtu := 1024 * 2 ^ fld v 48 2, sqPsn := fld v 64 24, rqPsn := fld v 88 24, ip := fld v 128 128 })) ∧
      (known → (q.slot = none → does 1 (p.setQp n {})) ∧ (∀ j, q.slot = some j → does 1 ((p.dropUnposted j).setQp n {}))) ∧
      (bkKey v ≠ 0 → p.keyFits v = true → does 2 { p with eth := { p.eth with
        keys := ⟨bkKey v, bkBase v, bkPages v, fld v 368 2⟩ :: p.eth.keys.filter fun (y : BulkKey) => y.rkey != bkKey v } }) ∧
      ((∃ y ∈ p.eth.keys, y.rkey = bkKey v) → does 3 { p with eth := { p.eth with keys := p.eth.keys.filter fun (y : BulkKey) => y.rkey != bkKey v } }) ∧
      (known → q.state = 1 → p.hostFed j = true → q.slot = none → (∀ e ∈ p.eth.qps, e.2.slot ≠ some j) →
        does 4 ((p.setQp n { q with slot := some j }).sendGrant j 0)) ∧
      (known → q.slot = some j → does 5 ((p.setQp n { q with slot := none }).dropUnposted j)))

/-! ## Luajo: where each command completes (R448, R525) -/

/-- R448, R449, R525 with each row's own rules (Tables 17.6, 13.2): each command of steps, contexts, serving, slots, memory, power, securing, sessions,
firmware and bulk data COMPLETES: under the conditions its rules set on the state and the packet, exec of its constructor is a next state in
which it is answered OK, or, for those whose answer waits, in which it is taken and waits. The results are in the statements before. -/
def Obligations.LuajoRowsComplete : Prop :=
  ∀ (s : State) (k : Pkt) (i : Nat) (ts : List TlvE),
    let tl := (parseTlvs (k.params.length + 1) k.params).getD []
    let n := k.context.toNat
    let done (x : Instr) (code : Nat) : Prop := ∃ (q : Pkg) (ps : List Byte), exec x s = .next { s with pkg := q.reply i (pktWait k code) 0 ps }
    let waits (x : Instr) (code : Nat) : Prop := ∃ q : Pkg, exec x s = .next { s with pkg := q.ljWait i (pktWait k code) }
    -- steps
    (let op : LjOp := { code := 0x60, req := [6, 0x17], opt := [1], ofCtx := true, bound := true }
     let p := s.pkg.taken op k
     let c := p.cmdOf op k i ts
     let x := p.ctx n
     Ready s.pkg op k i ts → (c.has 1 = true → polReserved c.strct = false ∧ p.polOk n c.strct c.body.length = true) →
      (c.has 1 = false → x.step.hasPolicy = true) → x.step.state ≠ 1 → x.step.state ≠ 2 → x.state ≠ .empty → x.state ≠ .faulted →
      c.num 6 < 2 ^ 61 → (x.step.begun = true → c.num 6 = x.step.num + 1) → (∀ j ∈ p.optSlots n, (p.slot j).freeEntry ≠ none) →
      p.objsFor (p.optSlots n) = true → (p.degraded = true ∨ p.planUnmet = []) → p.secBusy n (c.num 6) = false → done (.stepBegin k) 0x60) ∧
    (let op : LjOp := { code := 0x61, req := [6], ofCtx := true, bound := true }
     let p := s.pkg.taken op k
     let x := p.ctx n
     Ready s.pkg op k i ts → x.step.state = 1 → x.step.num = (p.cmdOf op k i ts).num 6 → 
      (x.reshard.given = true → x.reshard.failed = false ∧ x.reshard.complete = true) → waits (.stepCommit k) 0x61) ∧
    (let op : LjOp := { code := 0x62, req := [6], opt := [0x0D], ofCtx := true, bound := true }
     let p := s.pkg.taken op k
     let c := p.cmdOf op k i ts
     let y := (p.ctx n).step
     let force := tl.any fun e => e.1 == 0x0D && bit (leNat e.2) 0
     Ready s.pkg op k i ts → c.num 0x0D < 2 → y.state = 1 ∨ y.state = 2 → y.num = c.num 6 →
      (force = false → waits (.stepAbort k) 0x62) ∧
      (force = true → y.voted = true → y.verdictIn = false → done (.stepAbortForce k) 0x62)) ∧
    (let op : LjOp := { code := 0x83, req := [2], ofCtx := true, bound := true }
     let p := s.pkg.taken op k
     let c := p.cmdOf op k i ts
     let x := p.ctx n
     Ready s.pkg op k i ts → planReserved c.strct = false → p.planOk n c.strct c.body.length = true → x.step.state = 1 → x.reshard.given = false →
      (∀ b ∈ planRebinds c.strct, ∀ g ∈ bitsOf 384 (fld b 64 384), (p.die (dieOfCore g)).admitted = true) →
      newFails p ((planRebinds c.strct).foldl (fun p b => p.modSlot (fld b 0 4) fun s => { s with bind := setFld s.bind 0 384 (fld b 64 384) }) p) = [] →
      done (.reshard k) 0x83) ∧
    -- contexts and serving
    (let op : LjOp := { code := 0x30, req := [1], ofCtx := true }
     let p := s.pkg.taken op k
     let c := p.cmdOf op k i ts
     let r := c.strct
     Ready s.pkg op k i ts → ctxReserved r = false → p.ctxOk n r c.body.length = true → (p.ctx n).state = .empty →
      (p.ctxs.filter fun e => e.2.state != .empty).length < 256 →
      (∀ o, recObjBase r ≤ o → o < recObjBase r + recObjCount r →
        ((p.sync o).owner = 0x1FF ∨ (p.sync o).owner = n) ∧ p.dieUp (queueDie (halfOfObj o)) = true) →
      (2048 ≤ recObjBase r ∨ recObjBase r + recObjCount r ≤ 2048) →
      (∀ m < 16, saveCores r m = [] ∨ (p.inRegions n (recExt r m) (saveNeed r m) = true ∧ stackOf (recExt r m + saveNeed r m - 1) = m)) →
      done (.contextCreate k) 0x30) ∧
    (let op : LjOp := { code := 0x31, ofCtx := true }
     let p := s.pkg.taken op k
     Ready s.pkg op k i ts → (p.ctx n).state ≠ .empty → (p.ctx n).step.state ≠ 1 → (p.ctx n).step.state ≠ 2 → p.slotsOf n = [] →
      done (.contextDestroy k) 0x31) ∧
    (let op : LjOp := { code := 0x32, req := [0x10], ofCtx := true }
     let p := s.pkg.taken op k
     Ready s.pkg op k i ts → (p.ctx n).state ≠ .empty →
      ((p.modCtx n fun x => { x with lc := (p.cmdOf op k i ts).num 0x10 == 1 }).classShared = false ∨ p.classShared = true) →
      done (.contextSetClass k) 0x32) ∧
    (let op : LjOp := { code := 0x70, ofCtx := true, bound := true }
     let p := s.pkg.taken op k
     Ready s.pkg op k i ts → (p.ctx n).state = .loaded ∨ (p.ctx n).state = .swapped → done (.run k) 0x70) ∧
    (let op : LjOp := { code := 0x71, opt := [0x0D], ofCtx := true }
     let p := s.pkg.taken op k
     let swap := tl.any fun e => e.1 == 0x0D && bit (leNat e.2) 0
     Ready s.pkg op k i ts → (p.cmdOf op k i ts).num 0x0D < 2 → (p.ctx n).resident = true → (p.ctx n).state ≠ .faulted → (p.ctx n).state ≠ .empty →
      (swap = false → waits (.preempt k) 0x71) ∧ (swap = true → waits (.preemptSwap k) 0x71)) ∧
    (let op : LjOp := { code := 0x90, req := [0x0A, 0x0E, 0x0F, 0x10], ofCtx := true, bound := true }
     let p := s.pkg.taken op k
     let c := p.cmdOf op k i ts
     let x := p.ctx n
     let v := c.num 0x0A
     Ready s.pkg op k i ts → fld v 38 26 = 0 → c.num 0x0E ≠ 0xFFFF_FFFF → fld v 0 32 ≠ 0 → x.state ≠ .empty → bit x.record 1 = true →
      fld v 0 32 ≤ svMaxTok x.serve → fld v 32 6 < svStreams x.serve → x.knows (c.num 0x0E) = false → x.seqs.length + x.joins.length < svMaxSeq x.serve →
      joinNeed x.serve { id := c.num 0x0E, stream := fld v 32 6, lc := c.num 0x10 == 1, prompt := fld v 0 32, roundAt := c.num 0x0F, reply := some (i, k.seq.toNat) } ≤
        (svPool x.serve).length → waits (.serveJoin k) 0x90) ∧
    (let op : LjOp := { code := 0x91, req := [0x0E, 0x0F], ofCtx := true, bound := true }
     let p := s.pkg.taken op k
     let x := p.ctx n
     let id := (p.cmdOf op k i ts).num 0x0E
     Ready s.pkg op k i ts → id ≠ 0xFFFF_FFFF → ((∃ j ∈ x.joins, j.id = id) ∨ ∃ y ∈ x.seqs, y.id = id) → done (.serveLeave k) 0x91) ∧
    -- slots
    (let op : LjOp := { code := 0x40, req := [2, 3], ofCtx := true, bound := true }
     let p := s.pkg.taken op k
     let c := p.cmdOf op k i ts
     let j := c.num 3
     let x := p.slot j
     Ready s.pkg op k i ts → p.homeUp j = true → imgReserved c.body = false → imgOk c.body = true →
      fld (leNat (c.body.take 64)) 48 8 ≤ (p.die p.primary).pkgFeature → imgPairs c.body = true → (p.ctx n).state ≠ .empty →
      (x.bound = true → x.ctx = n) → x.fwd = none → x.bwd = none → (p.ing j 0).queue = [] → (p.ing j 1).queue = [] →
      (p.ctx n).step.state ≠ 2 → newFails p (p.install n j c.ref c.body) = [] → done (.loadProgram k) 0x40) ∧
    (let op : LjOp := { code := 0x41, req := [1, 3], ofCtx := true }
     let p := s.pkg.taken op k
     let c := p.cmdOf op k i ts
     let j := c.num 3
     let x := p.slot j
     let r := c.strct
     Ready s.pkg op k i ts → p.homeUp j = true → c.body.length = 256 → bindReserved r = false → p.bindOk n r = true → (p.ctx n).state ≠ .empty →
      x.hasImage = true → x.imgCtx = n → newFails p (p.modSlot j fun s => { s with bind := r, bound := true, ctx := n }) = [] → x.bound = false →
      (∀ g ∈ bitsOf 384 (fld r 0 384), (p.die (dieOfCore g)).admitted = true ∧ hdrThreads x.hdr ≤ (p.freeThreads g).length ∧
        bit (recFoot (p.ctx n).record) g = true) →
      fld x.res 0 32 ≤ fld r 576 32 → fld x.res 32 32 ≤ fld r 704 32 → fld x.res 128 64 ≤ 65536 * fld r 960 32 → done (.bindSlot k) 0x41) ∧
    (let op : LjOp := { code := 0x43, req := [3], ofCtx := true }
     let p := s.pkg.taken op k
     let j := (p.cmdOf op k i ts).num 3
     let x := p.slot j
     Ready s.pkg op k i ts → x.bound = true → x.ctx = n → p.slotQuiet j = true → (p.ctx n).step.state ≠ 1 → (p.ctx n).step.state ≠ 2 →
      (∀ e < 8, (x.ver e).state ≠ 1) → done (.unbindSlot k) 0x43) ∧
    (let op : LjOp := { code := 0x42, req := [3, 4, 5], ofCtx := true, bound := true }
     let p := s.pkg.taken op k
     let c := p.cmdOf op k i ts
     let x := p.slot (c.num 3)
     let w := x.workOf (c.num 4)
     Ready s.pkg op k i ts → x.bound = true → x.ctx = n →
      (c.num 5 = 0 ∨ (1000 ≤ c.num 5 ∧ w.valid = true ∧ (p.admission x.bind w (c.num 5)).ok = true ∧ p.sharedWith (c.num 3) = false)) →
      done (.setDeadline k) 0x42) ∧
    -- memory and power
    (let op : LjOp := { code := 0x50, req := [1, 8], ofCtx := true, legal := 1 }
     let p := s.pkg.taken op k
     let c := p.cmdOf op k i ts
     let r := regOf c.strct
     let v := c.strct
     let q := (bitsOf 16 (fld v 4 16)).foldl (fun p s => p.modStack s fun y => { y with part := tabSet (0, 0) y.part (fld v 0 4) (fld v 20 32, fld v 52 17) }) p
     Ready s.pkg op k i ts →
      (rowIs 8 0 2 tl = true → c.num 8 = 0 → c.body.length = 32 → regReserved v = false → r.base % 65536 = 0 → r.pages ≠ 0 → r.owner ≤ 0x100 →
        r.base + r.len ≤ 16 * stackSize → p.overlapping r = [] → (∀ m ∈ stacksOf r.base r.len, (p.stack m).state = 0) → p.regions.length < 4096 →
        newFails p (Pkg.trackInit { p with regions := p.regions ++ [r] } r) = [] → done (.memMapMap k) 0x50) ∧
      (rowIs 8 1 2 tl = true → c.num 8 = 1 → c.body.length = 32 → regReserved v = false → ∀ x, p.regions.find? (fun x => x.base == r.base) = some x →
        (∀ h ∈ p.heldRanges, overlaps h.1 h.2 x.base x.len = false) → newFails p ({ p with regions := p.regions.erase x }.unstick x) = [] →
        done (.memMapUnmap k) 0x50) ∧
      (rowIs 8 2 2 tl = true → c.num 8 = 2 → c.body.length = 16 → fld v 69 59 = 0 → 16 ≤ fld v 52 17 → fld v 52 17 ≤ 65536 →
        (∀ m ∈ bitsOf 16 (fld v 4 16), (((p.stack m).part.filter fun e => e.1 != fld v 0 4).map fun e => e.2.1).sum + fld v 20 32 ≤ 1310720) →
        newFails p q = [] → done (.memMapSetPartition k) 0x50)) ∧
    (let op : LjOp := { code := 0xB0, req := [1], legal := 1 }
     let c := (s.pkg.taken op k).cmdOf op k i ts
     Ready s.pkg op k i ts → c.body.length = 388 → fld c.strct 16 16 = 0 → 1500 ≤ polCap c.strct → polCap c.strct ≤ 6200 →
      (∀ d < 96, polCeil c.strct d ≤ 360 ∧ polFloor c.strct d ≤ polCeil c.strct d) → done (.powerPolicy k) 0xB0) ∧
    -- securing
    (let op : LjOp := { code := 0x80, either := true, ofCtx := true }
     let p := s.pkg.taken op k
     let c := p.cmdOf op k i ts
     let r := c.strct
     Ready s.pkg op k i ts → secReserved r = false → p.secOk n r c.body.length = true → (p.ctx n).state ≠ .empty → (p.ctx n).step.state ≠ 1 →
      (p.ctx n).step.state ≠ 2 → (p.secure.active = true → p.secure.ctx = n) →
      2 * (scStripe r + scM r * (scStripe r / scK r)) + fld r 336 32 ≤ fld r 304 32 → (∀ m < 8, (rowsOfDie (scTensors r) m).length ≤ 1024) →
      (((scTensors r).filter fun t => tnPin t == 1).map tnPages).sum ≤ scStripe r → done (.securePolicy k) 0x80) ∧
    (let op : LjOp := { code := 0x81, ofCtx := true, bound := true }
     let p := s.pkg.taken op k
     Ready s.pkg op k i ts → (p.ctx n).state ≠ .empty → polRoot (p.ctx n).step.policy = true → p.secure.active = true → p.secure.ctx = n →
      done (.secureNow k) 0x81) ∧
    (let op : LjOp := { code := 0x82, either := true, ofCtx := true, bound := true }
     let p := s.pkg.taken op k
     let c := p.cmdOf op k i ts
     let r := c.strct
     let x := p.ctx n
     let y := p.secure
     Ready s.pkg op k i ts → c.body.length = 64 + 4 * fld r 128 6 + 4 * fld r 136 11 → rstReserved r = false → fld r 128 6 ≤ 32 → fld r 136 11 ≤ 1024 →
      p.inRegions n (fld r 64 48) 1 = true → p.inRegions n (fld r 160 48) (Nat.max 1 (8 * y.tensors.length)) = true →
      x.state ≠ .empty → x.state ≠ .faulted → x.step.state ≠ 1 → x.step.state ≠ 2 → y.active = true → y.ctx = n → y.restoring = none →
      (∀ j ∈ p.slotsOf n, (p.ing j 0).queue = [] ∧ (p.ing j 1).queue = [] ∧ (p.egr j 0).queue = [] ∧ (p.egr j 1).queue = []) →
      (y.lastDone = none ∨ y.lastDone = some (fld r 0 61) ∨ y.older = some (fld r 0 61)) → waits (.restore k) 0x82) ∧
    -- sessions and firmware
    (let op : LjOp := { code := 1, req := [0x11, 0x12, 0x13, 0x14], legal := 0 }
     let p := s.pkg.taken op k
     let val (ty : Nat) : List Byte := match ts.find? fun e => e.1 == ty with | some e => e.2 | none => []
     ∀ key x, s.pkg.hears k.src = true → pktBadHeader k = false → k.session = 0 → s.pkg.undecided < 256 → p.ljFormat op k = (none, ts) →
      p.ident.opKeys[leNat (val 0x14)]? = some key → (s.pkg.session i).openF = false → i < 64 →
      Config.ecdsaOk (leNat key) (Config.sha384 (txtOpen ++ toLe 8 p.serial ++ val 0x11 ++ val 0x12)) (leNat (val 0x13)) = true →
      Config.ecdh (Config.freeValue p.free % 2 ^ 384) (val 0x11) = some x →
      ∃ j q, exec (.sessionOpen k) s = .next { s with pkg := q } ∧ (s.pkg.session j).openF = false ∧ (q.session j).openF = true) ∧
    (Ready s.pkg { code := 2, bound := true, legal := 0 } k i ts →
      ∃ q, exec (.sessionClose k) s = .next { s with pkg := q } ∧ (q.session i).openF = false) ∧
    (∀ m : Fin 64, (s.pkg.session m).openF = true → (s.pkg.session m).decided = false →
      exec (.sessionIdleTimeout m) s = .next { s with pkg := s.pkg.closeSession m }) ∧
    (Ready s.pkg { code := 0xC0, req := [2], legal := 3 } k i ts → waits (.fwLoad k) 0xC0) ∧
    (let op : LjOp := { code := 0xC1, req := [0x12], legal := 0 }
     let p := s.pkg.taken op k
     Ready s.pkg op k i ts → (p.ident.pbkReady = true → p.ident.attests = [] → done (.attest k) 0xC1) ∧
      (p.ident.pbkReady = false ∨ p.ident.attests ≠ [] → waits (.attest k) 0xC1)) ∧
    (s.pkg.answers = true → s.pkg.ident.pbkReady = false →
      exec .perBootKeyReady s = .next { s with pkg := s.pkg.keyReady.signWaiting s.pkg.ident.attests.length }) ∧
    (∀ image tk, s.pkg.ident.loading = some (image, tk) → imageReject image image.length = 0 →
      ∃ q : Pkg, exec .fwLoadVerifyDone s = .next { s with pkg := (q.replyWaiting (some tk) 0 []).fwReload image }) ∧
    -- bulk data
    (let op : LjOp := { code := 0x51, req := [1], ofCtx := true, legal := 1 }
     let p := s.pkg.taken op k
     let c := p.cmdOf op k i ts
     let v := c.strct
     let q := p.qp (bkQpn v)
     let known : Prop := 1 ≤ bkQpn v ∧ bkQpn v ≤ 4096 ∧ q.state ≠ 0
     Ready s.pkg op k i ts → bulkRow (fld v 0 4) tl = true → c.body.length = 64 → bkReserved v = false → p.ownPort = true →
      (fld v 0 4 = 0 → 1 ≤ bkQpn v → bkQpn v ≤ 4096 → fld v 48 2 ≠ 3 → q.state = 0 → done (.bulkCreateQp k) 0x51) ∧
      (fld v 0 4 = 1 → known → done (.bulkDestroyQp k) 0x51) ∧
      (fld v 0 4 = 2 → bkKey v ≠ 0 → p.keyFits v = true → done (.bulkRegisterKey k) 0x51) ∧
      (fld v 0 4 = 3 → (∃ y ∈ p.eth.keys, y.rkey = bkKey v) → done (.bulkDeregisterKey k) 0x51) ∧
      (fld v 0 4 = 4 → known → q.state = 1 → p.hostFed (bkSlot v) = true → done (.bulkBindSlot k) 0x51) ∧
      (fld v 0 4 = 5 → known → q.slot = some (bkSlot v) → done (.bulkUnbindSlot k) 0x51))

/-! ## The block as a whole -/

/-- A step runs the command at the front of the queue on the state with the queue's rest; with an empty queue one nanosecond of the
package count passes and nothing else happens (log entry 2). -/
def Obligations.StepRunsTheFront : Prop :=
  (∀ (s : State) (c : Instr) (rest : List Instr), s.pending = c :: rest → step s = exec c { s with pending := rest }) ∧
  ∀ s : State, s.pending = [] → step s = .next { s with pkg := { s.pkg with now := s.pkg.now + 1 } }

/-- Every command completes, from every state: what it makes of the package is a function of the package alone, and the
commands that wait behind it stay as they are, in their order. -/
def Obligations.EveryCommandCompletes : Prop :=
  ∀ i : Instr, ∃ f : Pkg → Pkg, ∀ s : State, exec i s = .next { s with pkg := f s.pkg }

/-- R218, R225, R226, R230, R245: a word that decodes to a thread's instruction has no effect while the core issues another thread; it
faults its thread with ADDRESS when the PC lies outside the program's code, with ILLEGAL_ENCODING when it is not well formed; a
fault leaves the thread's context FAULTED with cause 1, unscheduled, its step not OPEN, none of its waits kept here. -/
def Obligations.IssueTests : Prop :=
  ∀ (s : State) (t : ThreadId) (w : W64) (i : Instr), decodeInstr t w = some i →
    let p := s.pkg
    let th := p.thr t
    let c := th.ctx
    (p.selected t = false → Makes s i p) ∧
    (p.selected t = true →
      (th.pcOut = true ∨ (p.slot th.slot).codeWords ≤ th.pc.toNat → Traps s t i fAddress) ∧
      (th.pcOut = false → th.pc.toNat < (p.slot th.slot).codeWords → i.wf = false → Traps s t i fIllegalEncoding ∧
        ∀ q, exec i s = .next { s with pkg := q } → (p.ctx c).state ≠ .faulted → (p.ctx c).state ≠ .empty →
          (q.ctx c).state = .faulted ∧ (q.ctx c).cause = 1 ∧ (q.ctx c).scheduled = false ∧ (q.ctx c).step.state ≠ 1 ∧
          ∀ x ∈ q.waiters, fld x.pkt.kspec.toNat 32 8 ≠ c ∨ x.pkt.src.toNat ≠ q.fabAddr))

/-- R224, R227 to R235: every instruction word is read whole: what the encoder writes for an instruction decodes to it, with
every operand at every value, and every word that decodes is the word of its instruction. CH_OPEN's two rows are one
operation, told apart by a register (R249, R252). -/
def Obligations.DecodeEncodeAgree : Prop :=
  (∀ (i : Instr) (w : W64), encode i = some w → (∀ t f, i ≠ .chOpenReader t f) → ∃ t, decodeInstr t w = some i) ∧
  (∀ (t : ThreadId) (f : FmtS), encode (.chOpenReader t f) = encode (.chOpen t f)) ∧
  ∀ (t : ThreadId) (w : W64) (i : Instr), decodeInstr t w = some i → encode i = some w

/-- R224, R227 to R235: words written out field by field from Tables 8.8 and 8.10 to 8.16 decode to what they stand for; reserved classes and
operations decode to nothing. -/
def Obligations.WordsDecode : Prop :=
  ∀ t : ThreadId,
    decodeInstr t 0b00000000000000000000000000000000_0_0_00000_00010_00001_00011_000000_0000 = some (.add t ⟨3, 1, 2, 0, false, false, 0⟩) ∧
    decodeInstr t 0b00000000000000000000000000000000_1_0_00000_00110_00101_00100_001100_0000 = some (.shl t ⟨4, 5, 6, 0, false, true, 0⟩) ∧
    (Instr.shl t ⟨4, 5, 6, 0, false, true, 0⟩).wf = false ∧
    decodeInstr t 0b11111111111111111111111111111110_0_1_00000_00000_00101_00100_001100_0000 = some (.shl t ⟨4, 5, 0, 0, true, false, 0xFFFFFFFE⟩) ∧
    decodeInstr t 0b000000000000000000000000000000000000000000000111_0_00010_000011_0001 = some (.ali t ⟨2, false, 7⟩) ∧
    decodeInstr t 0b1111111111111111111111111111111111111111_0001_00111_00110_000000_0010 = some (.br t ⟨6, 7, 1, 0xFFFFFFFFFF⟩) ∧
    decodeInstr t 0b00000000000000000000000000010000_0_11_000101_01001_010_01000_000010_0011 = some (.mld t ⟨8, 2, 9, 5, 3, false, 16⟩) ∧
    decodeInstr t 0b000000000000000000000000000000000000000_000111_00_0_000_011_000010_0100 = some (.accSwap t ⟨3, 0, false, 0, 7, 0⟩) ∧
    decodeInstr t 0b000000000_000001_00000_1_0_00_1101_00_01_00_00000_00011_00010_00001_000000_0101 =
      some (.vAdd t ⟨1, 2, 3, 0, 0, 1, 0, 13, 0, false, true, 0, 1, 0⟩) ∧
        decodeInstr t 0b00000000000000000000000000000111_0_1_00000_00000_00000_00000_000001_1010 = some (.fence t ⟨0, 0, 0, 0, true, false, 7⟩) ∧
    decodeInstr t 0b00000000000000000000000000000000_0_0_00000_00000_00000_00000_000000_1011 = none ∧
    decodeInstr t 0b00000000000000000000000000000000_0_0_00000_00000_00000_00000_101001_0000 = none

/-- R288, R297, R307: a write to memory keeps the memory's canonical form; reads return its bytes from its address on; every other byte reads
as before; no line it touches stays undefined; it clears POISON of the lines it covers, and sets the dirty bit of each page it touches;
nothing of the threads changes. -/
def Obligations.MemoryWrites : Prop :=
  ∀ (p : Pkg) (a : Nat) (bs : List Byte), a + bs.length ≤ 2 ^ 48 →
    let q := p.store a bs
    (Memory.wf p.mem = true → Memory.wf q.mem = true) ∧
    (∀ n < bs.length, q.loadByte (a + n) = bs.getD n 0) ∧
    (∀ x < 2 ^ 48, x < a ∨ a + bs.length ≤ x → q.loadByte x = p.loadByte x) ∧
    (isStackAddr a = true →
      (∀ l ∈ linesOf a bs.length, q.undefLine l = false) ∧
      (∀ l ∈ wholeLines a bs.length, q.linePoison l = false) ∧
      (∀ l, l ∉ wholeLines a bs.length → q.linePoison l = p.linePoison l) ∧
      (∀ n ∈ pagesOf a bs.length, q.pageDirty n = true) ∧
      (∀ n, n ∉ pagesOf a bs.length → q.pageDirty n = p.pageDirty n)) ∧
    q.thrs = p.thrs ∧ q.slots = p.slots ∧ q.ctxs = p.ctxs ∧ q.regions = p.regions

/-- R282, R286: memory stays in its canonical form: whatever command a step takes, or none, a memory in canonical form is in canonical
form after it. -/
def Obligations.MemoryStaysCanonical : Prop :=
  ∀ s t : State, Memory.wf s.pkg.mem = true → step s = .next t → Memory.wf t.pkg.mem = true

/-- R273, R343, R355, R372, R424, R433, R443, R451, R468 (Reset columns): after reset no command waits and memory lists nothing; the package is in BOOTSTRAP with every
die held; no context, slot, thread, session, region, route or request exists, every object is owned by nobody, every counter and
flag is 0; the firmware answers nothing until a start. -/
def Obligations.ResetState : Prop :=
  let p := State.reset.pkg
  State.reset.pending = [] ∧ Memory.wf p.mem = true ∧ p.mem = [] ∧ p.pkgState = 0 ∧ p.pwr.held = true ∧ p.answers = false ∧
  (∀ d, (p.die d).admitted = false) ∧ (∀ c, (p.ctx c).state = .empty ∧ (p.ctx c).step.state = 0) ∧
  (∀ j, (p.slot j).bound = false ∧ (p.slot j).hasImage = false) ∧ (∀ t, (p.thr t).state = .free) ∧
  (∀ n, (p.session n).openF = false) ∧ p.regions = [] ∧ p.routes = [] ∧ (∀ n, p.req n = none) ∧
  (∀ o, (p.sync o).owner = 0x1FF ∧ (p.sync o).ctr = 0) ∧ (∀ c n, p.ctr c n = 0) ∧ p.flags = [] ∧ p.events = [] ∧
  (∀ n, (p.port n).state = .down) ∧ (∀ c, (p.core c).quantum = 32 ∧ (p.core c).retired = false)

/-- R424, R427, R439, R442, R445 to R447, R525: the path of a Luajo datagram before its own rules. One that the firmware does not hear changes nothing; a bad
header is dropped and counted; an unknown session or a wrong MAC is an authentication failure; a full house answers BUSY
and keeps nothing; a number out of the window is stale; a decided one is answered again with the reply kept and nothing
else happens; one still undecided moves its reply; a session bound to a context may not issue what is not its context's. -/
def Obligations.LuajoAdmission : Prop :=
  ∀ (s : State) (k : Pkt) (i : Nat), ∀ r ∈ ([
      (.getInfo, 0x10, true, false), (.regRead, 0x11, false, false), (.setTopology, 0x20, false, false), (.setRoutes, 0x21, false, false),
      (.contextCreate, 0x30, false, true), (.contextDestroy, 0x31, false, true), (.contextSetClass, 0x32, false, true), (.loadProgram, 0x40, true, true),
      (.bindSlot, 0x41, false, true), (.setDeadline, 0x42, true, true), (.unbindSlot, 0x43, false, true), (.stepBegin, 0x60, true, true),
      (.stepCommit, 0x61, true, true), (.run, 0x70, true, true), (.securePolicy, 0x80, false, true), (.secureNow, 0x81, true, true),
      (.restore, 0x82, true, true), (.reshard, 0x83, true, true), (.serveJoin, 0x90, true, true), (.serveLeave, 0x91, true, true),
      (.readCounters, 0xA0, false, false), (.readTally, 0xA2, true, true), (.powerPolicy, 0xB0, false, false), (.fwLoad, 0xC0, false, false),
      (.attest, 0xC1, false, false), (.debugPeek, 0xD0, false, false)] : List ((Pkt → Instr) × Nat × Bool × Bool)),
    let p := s.pkg
    let q := p.arrivedBy k.src
    let y := p.session i
    let w := pktWait k r.2.1
    let n := k.seq.toNat
    let right : Prop := mac16 y.kCmd (pktHeader k r.2.1 ++ k.params) = toLe 16 k.mac.toNat
    let old : Prop := n = 0 ∨ (64 ≤ y.high ∧ n + 64 ≤ y.high)
    (p.hears k.src = false → Makes s (r.1 k) p) ∧
    (p.hears k.src = true →
      (pktBadHeader k = true → Makes s (r.1 k) (p.bump .ljDropHeader 0)) ∧
      (pktBadHeader k = false →
        (p.placeOf k = none → Makes s (r.1 k) p.authFail) ∧
        (p.placeOf k = some i →
          (¬right → Makes s (r.1 k) q.authFail) ∧
          (right → 256 ≤ p.undecided → Makes s (r.1 k) (q.replyBusy i w)) ∧
          (right → p.undecided < 256 → p.ident.loading = none →
            (old → Makes s (r.1 k) (((q.bump .ljSeqStale 0).setFlag .ljStatus q.primary 1).reply i w stSeqStale [])) ∧
            (¬old →
              (∀ e, y.cache.find? (fun e => e.1 == n) = some e → Makes s (r.1 k) ((q.bump .ljRepeat 0).sendReply k.src e.2)) ∧
              ((∀ e ∈ y.cache, e.1 ≠ n) →
                ((∃ x ∈ y.waiting, x.seq = n) → Makes s (r.1 k)
                  ((q.bump .ljRepeatPending 0).setSession i { y with waiting := y.waiting.map fun x => if x.seq = n then w else x })) ∧
                ((∀ x ∈ y.waiting, x.seq ≠ n) → y.bound = true → r.2.2.1 = false ∨ (r.2.2.2 = true ∧ k.context.toNat ≠ y.ctx) →
                  Makes s (r.1 k) (((q.bump .ljCommands r.2.1).setFlag .ljStatus q.primary 4).reply i w stNotPermitted [])))))))) 
end

