-- ==== Sys2Proof/Laws/Bits.lean ====
section
/-! SUPPORT. The laws of bit fields and of byte order (R3). -/

namespace Sys2Proof.Machine

/-- A field is below its width's power. -/
theorem fld_lt (r : Rec) (lo w : Nat) : fld r lo w < 2 ^ w := Nat.mod_lt _ (Nat.two_pow_pos w)

/-- A field as quotient and remainder. -/
theorem fld_eq (r : Rec) (lo w : Nat) : fld r lo w = r / 2 ^ lo % 2 ^ w := by simp only [fld, Nat.shiftRight_eq_div_pow]

/-- A placed value as a product. -/
theorem put_eq (lo w v : Nat) : put lo w v = v % 2 ^ w * 2 ^ lo := by simp only [put, Nat.shiftLeft_eq]

/-- The number of n bytes is below 256^n. -/
theorem leNat_lt (l : List Byte) : leNat l < 256 ^ l.length := by
  induction l with
  | nil => decide
  | cons b bs ih =>
    have := b.isLt
    simp only [leNat, List.length_cons, Nat.pow_succ] at *
    omega

/-- The first bytes of two runs are the lower ones. -/
theorem leNat_append (a b : List Byte) : leNat (a ++ b) = leNat a + 256 ^ a.length * leNat b := by
  induction a with
  | nil => simp [leNat]
  | cons x xs ih =>
    simp only [List.cons_append, leNat, ih, List.length_cons, Nat.pow_succ, Nat.mul_add]
    rw [Nat.mul_comm (256 ^ xs.length) 256, Nat.mul_assoc]
    omega

/-- `toLe n` gives n bytes. -/
@[simp] theorem length_toLe (n v : Nat) : (toLe n v).length = n := by
  induction n generalizing v with
  | zero => rfl
  | succ n ih => simp [toLe, ih]

/-- A number written to n bytes reads back modulo 256^n. -/
theorem leNat_toLe (n v : Nat) : leNat (toLe n v) = v % 256 ^ n := by
  induction n generalizing v with
  | zero => simp [toLe, leNat, Nat.mod_one]
  | succ n ih =>
    simp only [toLe, leNat, ih, BitVec.toNat_ofNat]
    rw [show 256 ^ (n + 1) = 256 * 256 ^ n by rw [Nat.pow_succ, Nat.mul_comm], Nat.mod_mul]

/-- Bytes written from the number they spell are the bytes. -/
theorem toLe_leNat (l : List Byte) : toLe l.length (leNat l) = l := by
  induction l with
  | nil => rfl
  | cons b bs ih =>
    have hb := b.isLt
    have h1 : (b.toNat + 256 * leNat bs) / 256 = leNat bs := by omega
    simp only [List.length_cons, toLe, leNat, h1, ih]
    congr 1
    apply BitVec.eq_of_toNat_eq
    simp only [BitVec.toNat_ofNat]
    omega

end Sys2Proof.Machine
end

