-- ==== Sys2Proof/Laws/Catalogue.lean ====
section
/-! SUPPORT. The catalogues' order is open (R461): what holds of them in any order. -/

namespace Sys2Proof.Machine

/-- Inserting adds exactly the one entry. -/
theorem insertAt_perm {α : Type} (n : Nat) (a : α) (l : List α) : (insertAt n a l).Perm (a :: l) := by
  have h := List.perm_middle (a := a) (l₁ := l.take n) (l₂ := l.drop n)
  rwa [List.take_append_drop] at h

theorem ordered_foldl_perm {α : Type} (key : Nat) (l acc : List α) :
    (l.foldl (fun acc x => insertAt (Config.catalogueOrder key acc.length % (acc.length + 1)) x acc) acc).Perm (l ++ acc) := by
  induction l generalizing acc with
  | nil => exact .refl _
  | cons x l ih => exact (ih _).trans (((insertAt_perm _ _ _).append_left l).trans List.perm_middle)

/-- Whatever order the device gives, the entries are those listed. -/
theorem ordered_perm {α : Type} (key : Nat) (l : List α) : (ordered key l).Perm l := by
  simpa [ordered] using ordered_foldl_perm key l []

/-- The entry at place `i` of a numbered block is found under the number `c + i`. -/
theorem find_zipIdx {α : Type} (c : Nat) (l : List α) (i n : Nat) (h : i < l.length) :
    ((l.zipIdx n).map fun x => (c + x.2, x.1)).find? (fun x => x.1 == c + (n + i)) = some (c + (n + i), l[i]) := by
  induction l generalizing i n with
  | nil => simp at h
  | cons a l ih =>
    cases i with
    | zero => simp
    | succ i =>
      have h' : i < l.length := by simpa using h
      have e := ih i (n + 1) h'
      have q : n + 1 + i = n + (i + 1) := by omega
      rw [q] at e
      have ne : ¬ c + n = c + (n + (i + 1)) := by omega
      simp only [List.zipIdx_cons, List.map_cons, List.find?_cons]
      rw [show (c + n == c + (n + (i + 1))) = false by simp]
      simpa using e

/-- Every counter's source block is one of 1 to 7. -/
theorem ctrRows_block : (ctrRows0 ++ ctrRows1 ++ ctrRows2 ++ ctrRows3 ++ ctrRowsEth ++ companionRows).all (fun e => e.block != 0) = true := by
  decide +kernel

/-- A listed entry of block 1 is found in the catalogue under some number of that block. -/
theorem numbered_block1 {α : Type} (key : Nat) (block : α → Nat) (l : List α) (e : α) (h : e ∈ l) (hb : block e = 1)
    (h0 : l.all (fun e => block e != 0) = true) : ∃ i, (numbered key block l).find? (fun x => x.1 == 256 + i) = some (256 + i, e) := by
  have h0' : l.filter (fun e => block e == 0) = [] := by
    simp only [List.all_eq_true, bne_iff_ne, ne_eq] at h0
    simpa using h0
  have m : e ∈ ordered (8 * key + 1) (l.filter fun e => block e == 1) := (ordered_perm _ _).mem_iff.2 (by simp [h, hb])
  obtain ⟨i, hi, rfl⟩ := List.mem_iff_getElem.1 m
  refine ⟨i, ?_⟩
  have f := find_zipIdx 256 (ordered (8 * key + 1) (l.filter fun e => block e == 1)) i 0 hi
  simp only [Nat.zero_add] at f
  unfold numbered
  rw [show List.range 8 = 0 :: 1 :: [2, 3, 4, 5, 6, 7] by rfl]
  simp only [List.map_cons, List.flatten_cons, h0']
  simp only [ordered, List.foldl_nil, List.zipIdx_nil, List.map_nil, List.nil_append, List.find?_append]
  simp only [ordered] at f
  rw [f]
  rfl

end Sys2Proof.Machine
end

