-- ==== Sys2Proof/Laws/Tab.lean ====
section
/-! SUPPORT. The laws of the finite tables: read after write, other keys, the canonical form. -/

namespace Sys2Proof

variable {α : Type} [DecidableEq α]

omit [DecidableEq α] in
/-- Dropping low keys leaves what higher keys read. -/
theorem tabGet_tabDropLe (d : α) (k j : Nat) (t : Tab α) (h : k < j) : tabGet d (tabDropLe k t) j = tabGet d t j := by
  induction t with
  | nil => rfl
  | cons e t ih =>
    obtain ⟨a, v⟩ := e
    by_cases ha : a ≤ k
    · simp only [tabDropLe, ha, if_true, ih, tabGet]
      rw [if_neg (by omega), if_neg (by omega)]
    · simp [tabDropLe, ha]

omit [DecidableEq α] in
/-- A key at or below the dropped ones reads as the default. -/
theorem tabGet_tabDropLe_low (d : α) (k j : Nat) (t : Tab α) (h : j ≤ k) : tabGet d (tabDropLe k t) j = d := by
  induction t with
  | nil => rfl
  | cons e t ih =>
    obtain ⟨a, v⟩ := e
    by_cases ha : a ≤ k
    · simp only [tabDropLe, ha, if_true, ih]
    · simp only [tabDropLe, ha, if_false, tabGet]
      rw [if_neg (by omega), if_pos (by omega)]

/-- Read after write at the same key. -/
@[simp] theorem tabGet_tabSet_same (d v : α) (t : Tab α) (k : Nat) : tabGet d (tabSet d t k v) k = v := by
  induction t with
  | nil => simp only [tabSet]; split <;> simp_all [tabGet]
  | cons e t ih =>
    obtain ⟨a, w⟩ := e
    simp only [tabSet]
    split
    · split
      · simp_all [tabGet]; omega
      · simp [tabGet]
    · split
      · split
        · simp_all [tabGet_tabDropLe_low]
        · simp [tabGet]
      · simp only [tabGet]
        rw [if_neg (by assumption), if_neg (by assumption), ih]

/-- A write leaves every other key alone. -/
theorem tabGet_tabSet_ne (d v : α) (t : Tab α) (k j : Nat) (h : j ≠ k) : tabGet d (tabSet d t k v) j = tabGet d t j := by
  induction t with
  | nil => simp only [tabSet]; split <;> simp [tabGet, h]
  | cons e t ih =>
    obtain ⟨a, w⟩ := e
    simp only [tabSet]
    split
    · split
      · rfl
      · simp only [tabGet, h, if_false]
        split
        · rw [if_neg (by omega), if_pos (by omega)]
        · rfl
    · split
      · subst a
        split
        · rcases Nat.lt_or_gt_of_ne h with hl | hl
          · rw [tabGet_tabDropLe_low _ _ _ _ (by omega)]; simp [tabGet, h, hl]
          · rw [tabGet_tabDropLe _ _ _ _ hl]; simp [tabGet, h]; omega
        · simp [tabGet, h]
      · simp only [tabGet, ih]

/-- Read after write at any key. -/
theorem tabGet_tabSet (d v : α) (t : Tab α) (k j : Nat) : tabGet d (tabSet d t k v) j = if j = k then v else tabGet d t j := by
  split
  · subst j; exact tabGet_tabSet_same d v t k
  · exact tabGet_tabSet_ne d v t k j ‹_›

omit [DecidableEq α] in
/-- What lies above a key lies above a lower one. -/
theorem tabAbove_mono {j k : Nat} {t : Tab α} (h : tabAbove k t = true) (hjk : j ≤ k) : tabAbove j t = true := by
  induction t with
  | nil => rfl
  | cons e t ih => simp [tabAbove] at *; exact ⟨by omega, ih h.2⟩

/-- In a canonical table nothing at or below the head's key follows it, so dropping changes nothing. -/
theorem tabDropLe_above {k : Nat} {t : Tab α} (h : tabAbove k t = true) : tabDropLe k t = t := by
  cases t with
  | nil => rfl
  | cons e t => simp [tabAbove] at h; simp [tabDropLe]; omega

/-- A write above a bound keeps everything above it. -/
theorem tabAbove_tabSet (d v : α) {j k : Nat} {t : Tab α} (h : tabAbove j t = true) (hk : j < k) :
    tabAbove j (tabSet d t k v) = true := by
  induction t with
  | nil => simp only [tabSet]; split <;> simp [tabAbove, hk]
  | cons e t ih =>
    obtain ⟨a, w⟩ := e
    simp [tabAbove] at h
    simp only [tabSet]
    split
    · split <;> simp [tabAbove, h, hk]
    · split
      · split
        · have : ∀ t : Tab α, tabAbove j t = true → tabAbove j (tabDropLe k t) = true := by
            intro t ht
            induction t with
            | nil => rfl
            | cons e t ih' =>
              simp [tabAbove] at ht
              simp only [tabDropLe]; split
              · exact ih' ht.2
              · simp [tabAbove, ht]
          exact this t h.2
        · simp [tabAbove, h, hk]
      · simp [tabAbove, h, ih h.2]

/-- Every write keeps the canonical form. -/
theorem tabWf_tabSet (d v : α) (k : Nat) {t : Tab α} (h : tabWf d t = true) : tabWf d (tabSet d t k v) = true := by
  induction t with
  | nil => simp only [tabSet]; split <;> simp_all [tabWf, tabAbove]
  | cons e t ih =>
    obtain ⟨a, w⟩ := e
    simp [tabWf] at h
    obtain ⟨⟨h1, h2⟩, h3⟩ := h
    simp only [tabSet]
    split
    · split
      · simp [tabWf, h1, h2, h3]
      · simp_all [tabWf, tabAbove]; exact tabAbove_mono h1 (by omega)
    · split
      · subst a
        split
        · rw [tabDropLe_above h1]; exact h3
        · simp_all [tabWf]
      · simp [tabWf, h2, ih h3]
        exact tabAbove_tabSet d v h1 (by omega)

end Sys2Proof
end

