-- ==== Sys2Proof/Laws/State.lean ====
section
/-! SUPPORT. What each update of the package changes and what it leaves: one lemma per update and reading, so that no proof
unfolds a record update. -/

namespace Sys2Proof.Machine


/-! ## Thr -/

@[simp] theorem Pkg.modThr_eq (p : Pkg) (k : Nat) (f : Thr → Thr) : p.modThr k f = p.setThr k (f (p.thr k)) := rfl
@[simp] theorem Pkg.thr_setThr (p : Pkg) (k j : Nat) (v : Thr) : (p.setThr k v).thr j = if j = k then v else p.thr j := by
  simp [Pkg.thr, Pkg.setThr, tabGet_tabSet]
@[simp] theorem Pkg.core_setThr (p : Pkg) (k j : Nat) (v : Thr) : (p.setThr k v).core j = p.core j := rfl
@[simp] theorem Pkg.slot_setThr (p : Pkg) (k j : Nat) (v : Thr) : (p.setThr k v).slot j = p.slot j := rfl
@[simp] theorem Pkg.sync_setThr (p : Pkg) (k j : Nat) (v : Thr) : (p.setThr k v).sync j = p.sync j := rfl
@[simp] theorem Pkg.sumpEng_setThr (p : Pkg) (k j : Nat) (v : Thr) : (p.setThr k v).sumpEng j = p.sumpEng j := rfl
@[simp] theorem Pkg.port_setThr (p : Pkg) (k j : Nat) (v : Thr) : (p.setThr k v).port j = p.port j := rfl
@[simp] theorem Pkg.die_setThr (p : Pkg) (k j : Nat) (v : Thr) : (p.setThr k v).die j = p.die j := rfl
@[simp] theorem Pkg.stack_setThr (p : Pkg) (k j : Nat) (v : Thr) : (p.setThr k v).stack j = p.stack j := rfl
@[simp] theorem Pkg.memDie_setThr (p : Pkg) (k j : Nat) (v : Thr) : (p.setThr k v).memDie j = p.memDie j := rfl
@[simp] theorem Pkg.ctx_setThr (p : Pkg) (k j : Nat) (v : Thr) : (p.setThr k v).ctx j = p.ctx j := rfl
@[simp] theorem Pkg.session_setThr (p : Pkg) (k j : Nat) (v : Thr) : (p.setThr k v).session j = p.session j := rfl
@[simp] theorem Pkg.dlWin_setThr (p : Pkg) (k j : Nat) (v : Thr) : (p.setThr k v).dlWin j = p.dlWin j := rfl
@[simp] theorem Pkg.now_setThr (p : Pkg) (k : Nat) (v : Thr) : (p.setThr k v).now = p.now := rfl
@[simp] theorem Pkg.free_setThr (p : Pkg) (k : Nat) (v : Thr) : (p.setThr k v).free = p.free := rfl
@[simp] theorem Pkg.mem_setThr (p : Pkg) (k : Nat) (v : Thr) : (p.setThr k v).mem = p.mem := rfl
@[simp] theorem Pkg.poison_setThr (p : Pkg) (k : Nat) (v : Thr) : (p.setThr k v).poison = p.poison := rfl
@[simp] theorem Pkg.tagBad_setThr (p : Pkg) (k : Nat) (v : Thr) : (p.setThr k v).tagBad = p.tagBad := rfl
@[simp] theorem Pkg.dirtyPg_setThr (p : Pkg) (k : Nat) (v : Thr) : (p.setThr k v).dirtyPg = p.dirtyPg := rfl
@[simp] theorem Pkg.flags_setThr (p : Pkg) (k : Nat) (v : Thr) : (p.setThr k v).flags = p.flags := rfl
@[simp] theorem Pkg.ctrs_setThr (p : Pkg) (k : Nat) (v : Thr) : (p.setThr k v).ctrs = p.ctrs := rfl
@[simp] theorem Pkg.pkgState_setThr (p : Pkg) (k : Nat) (v : Thr) : (p.setThr k v).pkgState = p.pkgState := rfl
@[simp] theorem Pkg.pkgEntered_setThr (p : Pkg) (k : Nat) (v : Thr) : (p.setThr k v).pkgEntered = p.pkgEntered := rfl
@[simp] theorem Pkg.authNs_setThr (p : Pkg) (k : Nat) (v : Thr) : (p.setThr k v).authNs = p.authNs := rfl
@[simp] theorem Pkg.dlRecs_setThr (p : Pkg) (k : Nat) (v : Thr) : (p.setThr k v).dlRecs = p.dlRecs := rfl
@[simp] theorem Pkg.waiters_setThr (p : Pkg) (k : Nat) (v : Thr) : (p.setThr k v).waiters = p.waiters := rfl
@[simp] theorem Pkg.fabAddr_setThr (p : Pkg) (k : Nat) (v : Thr) : (p.setThr k v).fabAddr = p.fabAddr := rfl
@[simp] theorem Pkg.epoch_setThr (p : Pkg) (k : Nat) (v : Thr) : (p.setThr k v).epoch = p.epoch := rfl
@[simp] theorem Pkg.planHash_setThr (p : Pkg) (k : Nat) (v : Thr) : (p.setThr k v).planHash = p.planHash := rfl
@[simp] theorem Pkg.topoSet_setThr (p : Pkg) (k : Nat) (v : Thr) : (p.setThr k v).topoSet = p.topoSet := rfl
@[simp] theorem Pkg.degraded_setThr (p : Pkg) (k : Nat) (v : Thr) : (p.setThr k v).degraded = p.degraded := rfl
@[simp] theorem Pkg.respLimit_setThr (p : Pkg) (k : Nat) (v : Thr) : (p.setThr k v).respLimit = p.respLimit := rfl
@[simp] theorem Pkg.routes_setThr (p : Pkg) (k : Nat) (v : Thr) : (p.setThr k v).routes = p.routes := rfl
@[simp] theorem Pkg.inbox_setThr (p : Pkg) (k : Nat) (v : Thr) : (p.setThr k v).inbox = p.inbox := rfl
@[simp] theorem Pkg.transitQ_setThr (p : Pkg) (k : Nat) (v : Thr) : (p.setThr k v).transitQ = p.transitQ := rfl
@[simp] theorem Pkg.reqs_setThr (p : Pkg) (k : Nat) (v : Thr) : (p.setThr k v).reqs = p.reqs := rfl
@[simp] theorem Pkg.nextTag_setThr (p : Pkg) (k : Nat) (v : Thr) : (p.setThr k v).nextTag = p.nextTag := rfl
@[simp] theorem Pkg.regions_setThr (p : Pkg) (k : Nat) (v : Thr) : (p.setThr k v).regions = p.regions := rfl
@[simp] theorem Pkg.seam_setThr (p : Pkg) (k : Nat) (v : Thr) : (p.setThr k v).seam = p.seam := rfl
@[simp] theorem Pkg.seamTab_setThr (p : Pkg) (k : Nat) (v : Thr) : (p.setThr k v).seamTab = p.seamTab := rfl
@[simp] theorem Pkg.admittedBy_setThr (p : Pkg) (k : Nat) (v : Thr) : (p.setThr k v).admittedBy = p.admittedBy := rfl
@[simp] theorem Pkg.dramLost_setThr (p : Pkg) (k : Nat) (v : Thr) : (p.setThr k v).dramLost = p.dramLost := rfl
@[simp] theorem Pkg.swapHold_setThr (p : Pkg) (k : Nat) (v : Thr) : (p.setThr k v).swapHold = p.swapHold := rfl
@[simp] theorem Pkg.secure_setThr (p : Pkg) (k : Nat) (v : Thr) : (p.setThr k v).secure = p.secure := rfl
@[simp] theorem Pkg.undecided_setThr (p : Pkg) (k : Nat) (v : Thr) : (p.setThr k v).undecided = p.undecided := rfl
@[simp] theorem Pkg.events_setThr (p : Pkg) (k : Nat) (v : Thr) : (p.setThr k v).events = p.events := rfl
@[simp] theorem Pkg.eventIdx_setThr (p : Pkg) (k : Nat) (v : Thr) : (p.setThr k v).eventIdx = p.eventIdx := rfl
@[simp] theorem Pkg.eventLost_setThr (p : Pkg) (k : Nat) (v : Thr) : (p.setThr k v).eventLost = p.eventLost := rfl
@[simp] theorem Pkg.holdover_setThr (p : Pkg) (k : Nat) (v : Thr) : (p.setThr k v).holdover = p.holdover := rfl
@[simp] theorem Pkg.refEthLost_setThr (p : Pkg) (k : Nat) (v : Thr) : (p.setThr k v).refEthLost = p.refEthLost := rfl
@[simp] theorem Pkg.clkStop_setThr (p : Pkg) (k : Nat) (v : Thr) : (p.setThr k v).clkStop = p.clkStop := rfl
@[simp] theorem Pkg.clkLost_setThr (p : Pkg) (k : Nat) (v : Thr) : (p.setThr k v).clkLost = p.clkLost := rfl
@[simp] theorem Pkg.aHStep_setThr (p : Pkg) (k : Nat) (v : Thr) : (p.setThr k v).aHStep = p.aHStep := rfl
@[simp] theorem Pkg.lnkLost_setThr (p : Pkg) (k : Nat) (v : Thr) : (p.setThr k v).lnkLost = p.lnkLost := rfl
@[simp] theorem Pkg.eth_setThr (p : Pkg) (k : Nat) (v : Thr) : (p.setThr k v).eth = p.eth := rfl
@[simp] theorem Pkg.pwr_setThr (p : Pkg) (k : Nat) (v : Thr) : (p.setThr k v).pwr = p.pwr := rfl
@[simp] theorem Pkg.ident_setThr (p : Pkg) (k : Nat) (v : Thr) : (p.setThr k v).ident = p.ident := rfl
@[simp] theorem Pkg.tap_setThr (p : Pkg) (k : Nat) (v : Thr) : (p.setThr k v).tap = p.tap := rfl
@[simp] theorem Pkg.out_setThr (p : Pkg) (k : Nat) (v : Thr) : (p.setThr k v).out = p.out := rfl

/-! ## Core -/

@[simp] theorem Pkg.modCore_eq (p : Pkg) (k : Nat) (f : CoreS → CoreS) : p.modCore k f = p.setCore k (f (p.core k)) := rfl
@[simp] theorem Pkg.thr_setCore (p : Pkg) (k j : Nat) (v : CoreS) : (p.setCore k v).thr j = p.thr j := rfl
@[simp] theorem Pkg.core_setCore (p : Pkg) (k j : Nat) (v : CoreS) : (p.setCore k v).core j = if j = k then v else p.core j := by
  simp [Pkg.core, Pkg.setCore, tabGet_tabSet]
@[simp] theorem Pkg.slot_setCore (p : Pkg) (k j : Nat) (v : CoreS) : (p.setCore k v).slot j = p.slot j := rfl
@[simp] theorem Pkg.sync_setCore (p : Pkg) (k j : Nat) (v : CoreS) : (p.setCore k v).sync j = p.sync j := rfl
@[simp] theorem Pkg.sumpEng_setCore (p : Pkg) (k j : Nat) (v : CoreS) : (p.setCore k v).sumpEng j = p.sumpEng j := rfl
@[simp] theorem Pkg.port_setCore (p : Pkg) (k j : Nat) (v : CoreS) : (p.setCore k v).port j = p.port j := rfl
@[simp] theorem Pkg.die_setCore (p : Pkg) (k j : Nat) (v : CoreS) : (p.setCore k v).die j = p.die j := rfl
@[simp] theorem Pkg.stack_setCore (p : Pkg) (k j : Nat) (v : CoreS) : (p.setCore k v).stack j = p.stack j := rfl
@[simp] theorem Pkg.memDie_setCore (p : Pkg) (k j : Nat) (v : CoreS) : (p.setCore k v).memDie j = p.memDie j := rfl
@[simp] theorem Pkg.ctx_setCore (p : Pkg) (k j : Nat) (v : CoreS) : (p.setCore k v).ctx j = p.ctx j := rfl
@[simp] theorem Pkg.session_setCore (p : Pkg) (k j : Nat) (v : CoreS) : (p.setCore k v).session j = p.session j := rfl
@[simp] theorem Pkg.dlWin_setCore (p : Pkg) (k j : Nat) (v : CoreS) : (p.setCore k v).dlWin j = p.dlWin j := rfl
@[simp] theorem Pkg.now_setCore (p : Pkg) (k : Nat) (v : CoreS) : (p.setCore k v).now = p.now := rfl
@[simp] theorem Pkg.free_setCore (p : Pkg) (k : Nat) (v : CoreS) : (p.setCore k v).free = p.free := rfl
@[simp] theorem Pkg.mem_setCore (p : Pkg) (k : Nat) (v : CoreS) : (p.setCore k v).mem = p.mem := rfl
@[simp] theorem Pkg.poison_setCore (p : Pkg) (k : Nat) (v : CoreS) : (p.setCore k v).poison = p.poison := rfl
@[simp] theorem Pkg.tagBad_setCore (p : Pkg) (k : Nat) (v : CoreS) : (p.setCore k v).tagBad = p.tagBad := rfl
@[simp] theorem Pkg.dirtyPg_setCore (p : Pkg) (k : Nat) (v : CoreS) : (p.setCore k v).dirtyPg = p.dirtyPg := rfl
@[simp] theorem Pkg.flags_setCore (p : Pkg) (k : Nat) (v : CoreS) : (p.setCore k v).flags = p.flags := rfl
@[simp] theorem Pkg.ctrs_setCore (p : Pkg) (k : Nat) (v : CoreS) : (p.setCore k v).ctrs = p.ctrs := rfl
@[simp] theorem Pkg.pkgState_setCore (p : Pkg) (k : Nat) (v : CoreS) : (p.setCore k v).pkgState = p.pkgState := rfl
@[simp] theorem Pkg.pkgEntered_setCore (p : Pkg) (k : Nat) (v : CoreS) : (p.setCore k v).pkgEntered = p.pkgEntered := rfl
@[simp] theorem Pkg.authNs_setCore (p : Pkg) (k : Nat) (v : CoreS) : (p.setCore k v).authNs = p.authNs := rfl
@[simp] theorem Pkg.dlRecs_setCore (p : Pkg) (k : Nat) (v : CoreS) : (p.setCore k v).dlRecs = p.dlRecs := rfl
@[simp] theorem Pkg.waiters_setCore (p : Pkg) (k : Nat) (v : CoreS) : (p.setCore k v).waiters = p.waiters := rfl
@[simp] theorem Pkg.fabAddr_setCore (p : Pkg) (k : Nat) (v : CoreS) : (p.setCore k v).fabAddr = p.fabAddr := rfl
@[simp] theorem Pkg.epoch_setCore (p : Pkg) (k : Nat) (v : CoreS) : (p.setCore k v).epoch = p.epoch := rfl
@[simp] theorem Pkg.planHash_setCore (p : Pkg) (k : Nat) (v : CoreS) : (p.setCore k v).planHash = p.planHash := rfl
@[simp] theorem Pkg.topoSet_setCore (p : Pkg) (k : Nat) (v : CoreS) : (p.setCore k v).topoSet = p.topoSet := rfl
@[simp] theorem Pkg.degraded_setCore (p : Pkg) (k : Nat) (v : CoreS) : (p.setCore k v).degraded = p.degraded := rfl
@[simp] theorem Pkg.respLimit_setCore (p : Pkg) (k : Nat) (v : CoreS) : (p.setCore k v).respLimit = p.respLimit := rfl
@[simp] theorem Pkg.routes_setCore (p : Pkg) (k : Nat) (v : CoreS) : (p.setCore k v).routes = p.routes := rfl
@[simp] theorem Pkg.inbox_setCore (p : Pkg) (k : Nat) (v : CoreS) : (p.setCore k v).inbox = p.inbox := rfl
@[simp] theorem Pkg.transitQ_setCore (p : Pkg) (k : Nat) (v : CoreS) : (p.setCore k v).transitQ = p.transitQ := rfl
@[simp] theorem Pkg.reqs_setCore (p : Pkg) (k : Nat) (v : CoreS) : (p.setCore k v).reqs = p.reqs := rfl
@[simp] theorem Pkg.nextTag_setCore (p : Pkg) (k : Nat) (v : CoreS) : (p.setCore k v).nextTag = p.nextTag := rfl
@[simp] theorem Pkg.regions_setCore (p : Pkg) (k : Nat) (v : CoreS) : (p.setCore k v).regions = p.regions := rfl
@[simp] theorem Pkg.seam_setCore (p : Pkg) (k : Nat) (v : CoreS) : (p.setCore k v).seam = p.seam := rfl
@[simp] theorem Pkg.seamTab_setCore (p : Pkg) (k : Nat) (v : CoreS) : (p.setCore k v).seamTab = p.seamTab := rfl
@[simp] theorem Pkg.admittedBy_setCore (p : Pkg) (k : Nat) (v : CoreS) : (p.setCore k v).admittedBy = p.admittedBy := rfl
@[simp] theorem Pkg.dramLost_setCore (p : Pkg) (k : Nat) (v : CoreS) : (p.setCore k v).dramLost = p.dramLost := rfl
@[simp] theorem Pkg.swapHold_setCore (p : Pkg) (k : Nat) (v : CoreS) : (p.setCore k v).swapHold = p.swapHold := rfl
@[simp] theorem Pkg.secure_setCore (p : Pkg) (k : Nat) (v : CoreS) : (p.setCore k v).secure = p.secure := rfl
@[simp] theorem Pkg.undecided_setCore (p : Pkg) (k : Nat) (v : CoreS) : (p.setCore k v).undecided = p.undecided := rfl
@[simp] theorem Pkg.events_setCore (p : Pkg) (k : Nat) (v : CoreS) : (p.setCore k v).events = p.events := rfl
@[simp] theorem Pkg.eventIdx_setCore (p : Pkg) (k : Nat) (v : CoreS) : (p.setCore k v).eventIdx = p.eventIdx := rfl
@[simp] theorem Pkg.eventLost_setCore (p : Pkg) (k : Nat) (v : CoreS) : (p.setCore k v).eventLost = p.eventLost := rfl
@[simp] theorem Pkg.holdover_setCore (p : Pkg) (k : Nat) (v : CoreS) : (p.setCore k v).holdover = p.holdover := rfl
@[simp] theorem Pkg.refEthLost_setCore (p : Pkg) (k : Nat) (v : CoreS) : (p.setCore k v).refEthLost = p.refEthLost := rfl
@[simp] theorem Pkg.clkStop_setCore (p : Pkg) (k : Nat) (v : CoreS) : (p.setCore k v).clkStop = p.clkStop := rfl
@[simp] theorem Pkg.clkLost_setCore (p : Pkg) (k : Nat) (v : CoreS) : (p.setCore k v).clkLost = p.clkLost := rfl
@[simp] theorem Pkg.aHStep_setCore (p : Pkg) (k : Nat) (v : CoreS) : (p.setCore k v).aHStep = p.aHStep := rfl
@[simp] theorem Pkg.lnkLost_setCore (p : Pkg) (k : Nat) (v : CoreS) : (p.setCore k v).lnkLost = p.lnkLost := rfl
@[simp] theorem Pkg.eth_setCore (p : Pkg) (k : Nat) (v : CoreS) : (p.setCore k v).eth = p.eth := rfl
@[simp] theorem Pkg.pwr_setCore (p : Pkg) (k : Nat) (v : CoreS) : (p.setCore k v).pwr = p.pwr := rfl
@[simp] theorem Pkg.ident_setCore (p : Pkg) (k : Nat) (v : CoreS) : (p.setCore k v).ident = p.ident := rfl
@[simp] theorem Pkg.tap_setCore (p : Pkg) (k : Nat) (v : CoreS) : (p.setCore k v).tap = p.tap := rfl
@[simp] theorem Pkg.out_setCore (p : Pkg) (k : Nat) (v : CoreS) : (p.setCore k v).out = p.out := rfl

/-! ## Slot -/

@[simp] theorem Pkg.modSlot_eq (p : Pkg) (k : Nat) (f : SlotS → SlotS) : p.modSlot k f = p.setSlot k (f (p.slot k)) := rfl
@[simp] theorem Pkg.thr_setSlot (p : Pkg) (k j : Nat) (v : SlotS) : (p.setSlot k v).thr j = p.thr j := rfl
@[simp] theorem Pkg.core_setSlot (p : Pkg) (k j : Nat) (v : SlotS) : (p.setSlot k v).core j = p.core j := rfl
@[simp] theorem Pkg.slot_setSlot (p : Pkg) (k j : Nat) (v : SlotS) : (p.setSlot k v).slot j = if j = k then v else p.slot j := by
  simp [Pkg.slot, Pkg.setSlot, tabGet_tabSet]
@[simp] theorem Pkg.sync_setSlot (p : Pkg) (k j : Nat) (v : SlotS) : (p.setSlot k v).sync j = p.sync j := rfl
@[simp] theorem Pkg.sumpEng_setSlot (p : Pkg) (k j : Nat) (v : SlotS) : (p.setSlot k v).sumpEng j = p.sumpEng j := rfl
@[simp] theorem Pkg.port_setSlot (p : Pkg) (k j : Nat) (v : SlotS) : (p.setSlot k v).port j = p.port j := rfl
@[simp] theorem Pkg.die_setSlot (p : Pkg) (k j : Nat) (v : SlotS) : (p.setSlot k v).die j = p.die j := rfl
@[simp] theorem Pkg.stack_setSlot (p : Pkg) (k j : Nat) (v : SlotS) : (p.setSlot k v).stack j = p.stack j := rfl
@[simp] theorem Pkg.memDie_setSlot (p : Pkg) (k j : Nat) (v : SlotS) : (p.setSlot k v).memDie j = p.memDie j := rfl
@[simp] theorem Pkg.ctx_setSlot (p : Pkg) (k j : Nat) (v : SlotS) : (p.setSlot k v).ctx j = p.ctx j := rfl
@[simp] theorem Pkg.session_setSlot (p : Pkg) (k j : Nat) (v : SlotS) : (p.setSlot k v).session j = p.session j := rfl
@[simp] theorem Pkg.dlWin_setSlot (p : Pkg) (k j : Nat) (v : SlotS) : (p.setSlot k v).dlWin j = p.dlWin j := rfl
@[simp] theorem Pkg.now_setSlot (p : Pkg) (k : Nat) (v : SlotS) : (p.setSlot k v).now = p.now := rfl
@[simp] theorem Pkg.free_setSlot (p : Pkg) (k : Nat) (v : SlotS) : (p.setSlot k v).free = p.free := rfl
@[simp] theorem Pkg.mem_setSlot (p : Pkg) (k : Nat) (v : SlotS) : (p.setSlot k v).mem = p.mem := rfl
@[simp] theorem Pkg.poison_setSlot (p : Pkg) (k : Nat) (v : SlotS) : (p.setSlot k v).poison = p.poison := rfl
@[simp] theorem Pkg.tagBad_setSlot (p : Pkg) (k : Nat) (v : SlotS) : (p.setSlot k v).tagBad = p.tagBad := rfl
@[simp] theorem Pkg.dirtyPg_setSlot (p : Pkg) (k : Nat) (v : SlotS) : (p.setSlot k v).dirtyPg = p.dirtyPg := rfl
@[simp] theorem Pkg.flags_setSlot (p : Pkg) (k : Nat) (v : SlotS) : (p.setSlot k v).flags = p.flags := rfl
@[simp] theorem Pkg.ctrs_setSlot (p : Pkg) (k : Nat) (v : SlotS) : (p.setSlot k v).ctrs = p.ctrs := rfl
@[simp] theorem Pkg.pkgState_setSlot (p : Pkg) (k : Nat) (v : SlotS) : (p.setSlot k v).pkgState = p.pkgState := rfl
@[simp] theorem Pkg.pkgEntered_setSlot (p : Pkg) (k : Nat) (v : SlotS) : (p.setSlot k v).pkgEntered = p.pkgEntered := rfl
@[simp] theorem Pkg.authNs_setSlot (p : Pkg) (k : Nat) (v : SlotS) : (p.setSlot k v).authNs = p.authNs := rfl
@[simp] theorem Pkg.dlRecs_setSlot (p : Pkg) (k : Nat) (v : SlotS) : (p.setSlot k v).dlRecs = p.dlRecs := rfl
@[simp] theorem Pkg.waiters_setSlot (p : Pkg) (k : Nat) (v : SlotS) : (p.setSlot k v).waiters = p.waiters := rfl
@[simp] theorem Pkg.fabAddr_setSlot (p : Pkg) (k : Nat) (v : SlotS) : (p.setSlot k v).fabAddr = p.fabAddr := rfl
@[simp] theorem Pkg.epoch_setSlot (p : Pkg) (k : Nat) (v : SlotS) : (p.setSlot k v).epoch = p.epoch := rfl
@[simp] theorem Pkg.planHash_setSlot (p : Pkg) (k : Nat) (v : SlotS) : (p.setSlot k v).planHash = p.planHash := rfl
@[simp] theorem Pkg.topoSet_setSlot (p : Pkg) (k : Nat) (v : SlotS) : (p.setSlot k v).topoSet = p.topoSet := rfl
@[simp] theorem Pkg.degraded_setSlot (p : Pkg) (k : Nat) (v : SlotS) : (p.setSlot k v).degraded = p.degraded := rfl
@[simp] theorem Pkg.respLimit_setSlot (p : Pkg) (k : Nat) (v : SlotS) : (p.setSlot k v).respLimit = p.respLimit := rfl
@[simp] theorem Pkg.routes_setSlot (p : Pkg) (k : Nat) (v : SlotS) : (p.setSlot k v).routes = p.routes := rfl
@[simp] theorem Pkg.inbox_setSlot (p : Pkg) (k : Nat) (v : SlotS) : (p.setSlot k v).inbox = p.inbox := rfl
@[simp] theorem Pkg.transitQ_setSlot (p : Pkg) (k : Nat) (v : SlotS) : (p.setSlot k v).transitQ = p.transitQ := rfl
@[simp] theorem Pkg.reqs_setSlot (p : Pkg) (k : Nat) (v : SlotS) : (p.setSlot k v).reqs = p.reqs := rfl
@[simp] theorem Pkg.nextTag_setSlot (p : Pkg) (k : Nat) (v : SlotS) : (p.setSlot k v).nextTag = p.nextTag := rfl
@[simp] theorem Pkg.regions_setSlot (p : Pkg) (k : Nat) (v : SlotS) : (p.setSlot k v).regions = p.regions := rfl
@[simp] theorem Pkg.seam_setSlot (p : Pkg) (k : Nat) (v : SlotS) : (p.setSlot k v).seam = p.seam := rfl
@[simp] theorem Pkg.seamTab_setSlot (p : Pkg) (k : Nat) (v : SlotS) : (p.setSlot k v).seamTab = p.seamTab := rfl
@[simp] theorem Pkg.admittedBy_setSlot (p : Pkg) (k : Nat) (v : SlotS) : (p.setSlot k v).admittedBy = p.admittedBy := rfl
@[simp] theorem Pkg.dramLost_setSlot (p : Pkg) (k : Nat) (v : SlotS) : (p.setSlot k v).dramLost = p.dramLost := rfl
@[simp] theorem Pkg.swapHold_setSlot (p : Pkg) (k : Nat) (v : SlotS) : (p.setSlot k v).swapHold = p.swapHold := rfl
@[simp] theorem Pkg.secure_setSlot (p : Pkg) (k : Nat) (v : SlotS) : (p.setSlot k v).secure = p.secure := rfl
@[simp] theorem Pkg.undecided_setSlot (p : Pkg) (k : Nat) (v : SlotS) : (p.setSlot k v).undecided = p.undecided := rfl
@[simp] theorem Pkg.events_setSlot (p : Pkg) (k : Nat) (v : SlotS) : (p.setSlot k v).events = p.events := rfl
@[simp] theorem Pkg.eventIdx_setSlot (p : Pkg) (k : Nat) (v : SlotS) : (p.setSlot k v).eventIdx = p.eventIdx := rfl
@[simp] theorem Pkg.eventLost_setSlot (p : Pkg) (k : Nat) (v : SlotS) : (p.setSlot k v).eventLost = p.eventLost := rfl
@[simp] theorem Pkg.holdover_setSlot (p : Pkg) (k : Nat) (v : SlotS) : (p.setSlot k v).holdover = p.holdover := rfl
@[simp] theorem Pkg.refEthLost_setSlot (p : Pkg) (k : Nat) (v : SlotS) : (p.setSlot k v).refEthLost = p.refEthLost := rfl
@[simp] theorem Pkg.clkStop_setSlot (p : Pkg) (k : Nat) (v : SlotS) : (p.setSlot k v).clkStop = p.clkStop := rfl
@[simp] theorem Pkg.clkLost_setSlot (p : Pkg) (k : Nat) (v : SlotS) : (p.setSlot k v).clkLost = p.clkLost := rfl
@[simp] theorem Pkg.aHStep_setSlot (p : Pkg) (k : Nat) (v : SlotS) : (p.setSlot k v).aHStep = p.aHStep := rfl
@[simp] theorem Pkg.lnkLost_setSlot (p : Pkg) (k : Nat) (v : SlotS) : (p.setSlot k v).lnkLost = p.lnkLost := rfl
@[simp] theorem Pkg.eth_setSlot (p : Pkg) (k : Nat) (v : SlotS) : (p.setSlot k v).eth = p.eth := rfl
@[simp] theorem Pkg.pwr_setSlot (p : Pkg) (k : Nat) (v : SlotS) : (p.setSlot k v).pwr = p.pwr := rfl
@[simp] theorem Pkg.ident_setSlot (p : Pkg) (k : Nat) (v : SlotS) : (p.setSlot k v).ident = p.ident := rfl
@[simp] theorem Pkg.tap_setSlot (p : Pkg) (k : Nat) (v : SlotS) : (p.setSlot k v).tap = p.tap := rfl
@[simp] theorem Pkg.out_setSlot (p : Pkg) (k : Nat) (v : SlotS) : (p.setSlot k v).out = p.out := rfl

/-! ## Sync -/

@[simp] theorem Pkg.modSync_eq (p : Pkg) (k : Nat) (f : SyncObj → SyncObj) : p.modSync k f = p.setSync k (f (p.sync k)) := rfl
@[simp] theorem Pkg.thr_setSync (p : Pkg) (k j : Nat) (v : SyncObj) : (p.setSync k v).thr j = p.thr j := rfl
@[simp] theorem Pkg.core_setSync (p : Pkg) (k j : Nat) (v : SyncObj) : (p.setSync k v).core j = p.core j := rfl
@[simp] theorem Pkg.slot_setSync (p : Pkg) (k j : Nat) (v : SyncObj) : (p.setSync k v).slot j = p.slot j := rfl
@[simp] theorem Pkg.sync_setSync (p : Pkg) (k j : Nat) (v : SyncObj) : (p.setSync k v).sync j = if j = k then v else p.sync j := by
  simp [Pkg.sync, Pkg.setSync, tabGet_tabSet]
@[simp] theorem Pkg.sumpEng_setSync (p : Pkg) (k j : Nat) (v : SyncObj) : (p.setSync k v).sumpEng j = p.sumpEng j := rfl
@[simp] theorem Pkg.port_setSync (p : Pkg) (k j : Nat) (v : SyncObj) : (p.setSync k v).port j = p.port j := rfl
@[simp] theorem Pkg.die_setSync (p : Pkg) (k j : Nat) (v : SyncObj) : (p.setSync k v).die j = p.die j := rfl
@[simp] theorem Pkg.stack_setSync (p : Pkg) (k j : Nat) (v : SyncObj) : (p.setSync k v).stack j = p.stack j := rfl
@[simp] theorem Pkg.memDie_setSync (p : Pkg) (k j : Nat) (v : SyncObj) : (p.setSync k v).memDie j = p.memDie j := rfl
@[simp] theorem Pkg.ctx_setSync (p : Pkg) (k j : Nat) (v : SyncObj) : (p.setSync k v).ctx j = p.ctx j := rfl
@[simp] theorem Pkg.session_setSync (p : Pkg) (k j : Nat) (v : SyncObj) : (p.setSync k v).session j = p.session j := rfl
@[simp] theorem Pkg.dlWin_setSync (p : Pkg) (k j : Nat) (v : SyncObj) : (p.setSync k v).dlWin j = p.dlWin j := rfl
@[simp] theorem Pkg.now_setSync (p : Pkg) (k : Nat) (v : SyncObj) : (p.setSync k v).now = p.now := rfl
@[simp] theorem Pkg.free_setSync (p : Pkg) (k : Nat) (v : SyncObj) : (p.setSync k v).free = p.free := rfl
@[simp] theorem Pkg.mem_setSync (p : Pkg) (k : Nat) (v : SyncObj) : (p.setSync k v).mem = p.mem := rfl
@[simp] theorem Pkg.poison_setSync (p : Pkg) (k : Nat) (v : SyncObj) : (p.setSync k v).poison = p.poison := rfl
@[simp] theorem Pkg.tagBad_setSync (p : Pkg) (k : Nat) (v : SyncObj) : (p.setSync k v).tagBad = p.tagBad := rfl
@[simp] theorem Pkg.dirtyPg_setSync (p : Pkg) (k : Nat) (v : SyncObj) : (p.setSync k v).dirtyPg = p.dirtyPg := rfl
@[simp] theorem Pkg.flags_setSync (p : Pkg) (k : Nat) (v : SyncObj) : (p.setSync k v).flags = p.flags := rfl
@[simp] theorem Pkg.ctrs_setSync (p : Pkg) (k : Nat) (v : SyncObj) : (p.setSync k v).ctrs = p.ctrs := rfl
@[simp] theorem Pkg.pkgState_setSync (p : Pkg) (k : Nat) (v : SyncObj) : (p.setSync k v).pkgState = p.pkgState := rfl
@[simp] theorem Pkg.pkgEntered_setSync (p : Pkg) (k : Nat) (v : SyncObj) : (p.setSync k v).pkgEntered = p.pkgEntered := rfl
@[simp] theorem Pkg.authNs_setSync (p : Pkg) (k : Nat) (v : SyncObj) : (p.setSync k v).authNs = p.authNs := rfl
@[simp] theorem Pkg.dlRecs_setSync (p : Pkg) (k : Nat) (v : SyncObj) : (p.setSync k v).dlRecs = p.dlRecs := rfl
@[simp] theorem Pkg.waiters_setSync (p : Pkg) (k : Nat) (v : SyncObj) : (p.setSync k v).waiters = p.waiters := rfl
@[simp] theorem Pkg.fabAddr_setSync (p : Pkg) (k : Nat) (v : SyncObj) : (p.setSync k v).fabAddr = p.fabAddr := rfl
@[simp] theorem Pkg.epoch_setSync (p : Pkg) (k : Nat) (v : SyncObj) : (p.setSync k v).epoch = p.epoch := rfl
@[simp] theorem Pkg.planHash_setSync (p : Pkg) (k : Nat) (v : SyncObj) : (p.setSync k v).planHash = p.planHash := rfl
@[simp] theorem Pkg.topoSet_setSync (p : Pkg) (k : Nat) (v : SyncObj) : (p.setSync k v).topoSet = p.topoSet := rfl
@[simp] theorem Pkg.degraded_setSync (p : Pkg) (k : Nat) (v : SyncObj) : (p.setSync k v).degraded = p.degraded := rfl
@[simp] theorem Pkg.respLimit_setSync (p : Pkg) (k : Nat) (v : SyncObj) : (p.setSync k v).respLimit = p.respLimit := rfl
@[simp] theorem Pkg.routes_setSync (p : Pkg) (k : Nat) (v : SyncObj) : (p.setSync k v).routes = p.routes := rfl
@[simp] theorem Pkg.inbox_setSync (p : Pkg) (k : Nat) (v : SyncObj) : (p.setSync k v).inbox = p.inbox := rfl
@[simp] theorem Pkg.transitQ_setSync (p : Pkg) (k : Nat) (v : SyncObj) : (p.setSync k v).transitQ = p.transitQ := rfl
@[simp] theorem Pkg.reqs_setSync (p : Pkg) (k : Nat) (v : SyncObj) : (p.setSync k v).reqs = p.reqs := rfl
@[simp] theorem Pkg.nextTag_setSync (p : Pkg) (k : Nat) (v : SyncObj) : (p.setSync k v).nextTag = p.nextTag := rfl
@[simp] theorem Pkg.regions_setSync (p : Pkg) (k : Nat) (v : SyncObj) : (p.setSync k v).regions = p.regions := rfl
@[simp] theorem Pkg.seam_setSync (p : Pkg) (k : Nat) (v : SyncObj) : (p.setSync k v).seam = p.seam := rfl
@[simp] theorem Pkg.seamTab_setSync (p : Pkg) (k : Nat) (v : SyncObj) : (p.setSync k v).seamTab = p.seamTab := rfl
@[simp] theorem Pkg.admittedBy_setSync (p : Pkg) (k : Nat) (v : SyncObj) : (p.setSync k v).admittedBy = p.admittedBy := rfl
@[simp] theorem Pkg.dramLost_setSync (p : Pkg) (k : Nat) (v : SyncObj) : (p.setSync k v).dramLost = p.dramLost := rfl
@[simp] theorem Pkg.swapHold_setSync (p : Pkg) (k : Nat) (v : SyncObj) : (p.setSync k v).swapHold = p.swapHold := rfl
@[simp] theorem Pkg.secure_setSync (p : Pkg) (k : Nat) (v : SyncObj) : (p.setSync k v).secure = p.secure := rfl
@[simp] theorem Pkg.undecided_setSync (p : Pkg) (k : Nat) (v : SyncObj) : (p.setSync k v).undecided = p.undecided := rfl
@[simp] theorem Pkg.events_setSync (p : Pkg) (k : Nat) (v : SyncObj) : (p.setSync k v).events = p.events := rfl
@[simp] theorem Pkg.eventIdx_setSync (p : Pkg) (k : Nat) (v : SyncObj) : (p.setSync k v).eventIdx = p.eventIdx := rfl
@[simp] theorem Pkg.eventLost_setSync (p : Pkg) (k : Nat) (v : SyncObj) : (p.setSync k v).eventLost = p.eventLost := rfl
@[simp] theorem Pkg.holdover_setSync (p : Pkg) (k : Nat) (v : SyncObj) : (p.setSync k v).holdover = p.holdover := rfl
@[simp] theorem Pkg.refEthLost_setSync (p : Pkg) (k : Nat) (v : SyncObj) : (p.setSync k v).refEthLost = p.refEthLost := rfl
@[simp] theorem Pkg.clkStop_setSync (p : Pkg) (k : Nat) (v : SyncObj) : (p.setSync k v).clkStop = p.clkStop := rfl
@[simp] theorem Pkg.clkLost_setSync (p : Pkg) (k : Nat) (v : SyncObj) : (p.setSync k v).clkLost = p.clkLost := rfl
@[simp] theorem Pkg.aHStep_setSync (p : Pkg) (k : Nat) (v : SyncObj) : (p.setSync k v).aHStep = p.aHStep := rfl
@[simp] theorem Pkg.lnkLost_setSync (p : Pkg) (k : Nat) (v : SyncObj) : (p.setSync k v).lnkLost = p.lnkLost := rfl
@[simp] theorem Pkg.eth_setSync (p : Pkg) (k : Nat) (v : SyncObj) : (p.setSync k v).eth = p.eth := rfl
@[simp] theorem Pkg.pwr_setSync (p : Pkg) (k : Nat) (v : SyncObj) : (p.setSync k v).pwr = p.pwr := rfl
@[simp] theorem Pkg.ident_setSync (p : Pkg) (k : Nat) (v : SyncObj) : (p.setSync k v).ident = p.ident := rfl
@[simp] theorem Pkg.tap_setSync (p : Pkg) (k : Nat) (v : SyncObj) : (p.setSync k v).tap = p.tap := rfl
@[simp] theorem Pkg.out_setSync (p : Pkg) (k : Nat) (v : SyncObj) : (p.setSync k v).out = p.out := rfl

/-! ## SumpEng -/

@[simp] theorem Pkg.modSumpEng_eq (p : Pkg) (k : Nat) (f : SumpEng → SumpEng) : p.modSumpEng k f = p.setSumpEng k (f (p.sumpEng k)) := rfl
@[simp] theorem Pkg.thr_setSumpEng (p : Pkg) (k j : Nat) (v : SumpEng) : (p.setSumpEng k v).thr j = p.thr j := rfl
@[simp] theorem Pkg.core_setSumpEng (p : Pkg) (k j : Nat) (v : SumpEng) : (p.setSumpEng k v).core j = p.core j := rfl
@[simp] theorem Pkg.slot_setSumpEng (p : Pkg) (k j : Nat) (v : SumpEng) : (p.setSumpEng k v).slot j = p.slot j := rfl
@[simp] theorem Pkg.sync_setSumpEng (p : Pkg) (k j : Nat) (v : SumpEng) : (p.setSumpEng k v).sync j = p.sync j := rfl
@[simp] theorem Pkg.sumpEng_setSumpEng (p : Pkg) (k j : Nat) (v : SumpEng) : (p.setSumpEng k v).sumpEng j = if j = k then v else p.sumpEng j := by
  simp [Pkg.sumpEng, Pkg.setSumpEng, tabGet_tabSet]
@[simp] theorem Pkg.port_setSumpEng (p : Pkg) (k j : Nat) (v : SumpEng) : (p.setSumpEng k v).port j = p.port j := rfl
@[simp] theorem Pkg.die_setSumpEng (p : Pkg) (k j : Nat) (v : SumpEng) : (p.setSumpEng k v).die j = p.die j := rfl
@[simp] theorem Pkg.stack_setSumpEng (p : Pkg) (k j : Nat) (v : SumpEng) : (p.setSumpEng k v).stack j = p.stack j := rfl
@[simp] theorem Pkg.memDie_setSumpEng (p : Pkg) (k j : Nat) (v : SumpEng) : (p.setSumpEng k v).memDie j = p.memDie j := rfl
@[simp] theorem Pkg.ctx_setSumpEng (p : Pkg) (k j : Nat) (v : SumpEng) : (p.setSumpEng k v).ctx j = p.ctx j := rfl
@[simp] theorem Pkg.session_setSumpEng (p : Pkg) (k j : Nat) (v : SumpEng) : (p.setSumpEng k v).session j = p.session j := rfl
@[simp] theorem Pkg.dlWin_setSumpEng (p : Pkg) (k j : Nat) (v : SumpEng) : (p.setSumpEng k v).dlWin j = p.dlWin j := rfl
@[simp] theorem Pkg.now_setSumpEng (p : Pkg) (k : Nat) (v : SumpEng) : (p.setSumpEng k v).now = p.now := rfl
@[simp] theorem Pkg.free_setSumpEng (p : Pkg) (k : Nat) (v : SumpEng) : (p.setSumpEng k v).free = p.free := rfl
@[simp] theorem Pkg.mem_setSumpEng (p : Pkg) (k : Nat) (v : SumpEng) : (p.setSumpEng k v).mem = p.mem := rfl
@[simp] theorem Pkg.poison_setSumpEng (p : Pkg) (k : Nat) (v : SumpEng) : (p.setSumpEng k v).poison = p.poison := rfl
@[simp] theorem Pkg.tagBad_setSumpEng (p : Pkg) (k : Nat) (v : SumpEng) : (p.setSumpEng k v).tagBad = p.tagBad := rfl
@[simp] theorem Pkg.dirtyPg_setSumpEng (p : Pkg) (k : Nat) (v : SumpEng) : (p.setSumpEng k v).dirtyPg = p.dirtyPg := rfl
@[simp] theorem Pkg.flags_setSumpEng (p : Pkg) (k : Nat) (v : SumpEng) : (p.setSumpEng k v).flags = p.flags := rfl
@[simp] theorem Pkg.ctrs_setSumpEng (p : Pkg) (k : Nat) (v : SumpEng) : (p.setSumpEng k v).ctrs = p.ctrs := rfl
@[simp] theorem Pkg.pkgState_setSumpEng (p : Pkg) (k : Nat) (v : SumpEng) : (p.setSumpEng k v).pkgState = p.pkgState := rfl
@[simp] theorem Pkg.pkgEntered_setSumpEng (p : Pkg) (k : Nat) (v : SumpEng) : (p.setSumpEng k v).pkgEntered = p.pkgEntered := rfl
@[simp] theorem Pkg.authNs_setSumpEng (p : Pkg) (k : Nat) (v : SumpEng) : (p.setSumpEng k v).authNs = p.authNs := rfl
@[simp] theorem Pkg.dlRecs_setSumpEng (p : Pkg) (k : Nat) (v : SumpEng) : (p.setSumpEng k v).dlRecs = p.dlRecs := rfl
@[simp] theorem Pkg.waiters_setSumpEng (p : Pkg) (k : Nat) (v : SumpEng) : (p.setSumpEng k v).waiters = p.waiters := rfl
@[simp] theorem Pkg.fabAddr_setSumpEng (p : Pkg) (k : Nat) (v : SumpEng) : (p.setSumpEng k v).fabAddr = p.fabAddr := rfl
@[simp] theorem Pkg.epoch_setSumpEng (p : Pkg) (k : Nat) (v : SumpEng) : (p.setSumpEng k v).epoch = p.epoch := rfl
@[simp] theorem Pkg.planHash_setSumpEng (p : Pkg) (k : Nat) (v : SumpEng) : (p.setSumpEng k v).planHash = p.planHash := rfl
@[simp] theorem Pkg.topoSet_setSumpEng (p : Pkg) (k : Nat) (v : SumpEng) : (p.setSumpEng k v).topoSet = p.topoSet := rfl
@[simp] theorem Pkg.degraded_setSumpEng (p : Pkg) (k : Nat) (v : SumpEng) : (p.setSumpEng k v).degraded = p.degraded := rfl
@[simp] theorem Pkg.respLimit_setSumpEng (p : Pkg) (k : Nat) (v : SumpEng) : (p.setSumpEng k v).respLimit = p.respLimit := rfl
@[simp] theorem Pkg.routes_setSumpEng (p : Pkg) (k : Nat) (v : SumpEng) : (p.setSumpEng k v).routes = p.routes := rfl
@[simp] theorem Pkg.inbox_setSumpEng (p : Pkg) (k : Nat) (v : SumpEng) : (p.setSumpEng k v).inbox = p.inbox := rfl
@[simp] theorem Pkg.transitQ_setSumpEng (p : Pkg) (k : Nat) (v : SumpEng) : (p.setSumpEng k v).transitQ = p.transitQ := rfl
@[simp] theorem Pkg.reqs_setSumpEng (p : Pkg) (k : Nat) (v : SumpEng) : (p.setSumpEng k v).reqs = p.reqs := rfl
@[simp] theorem Pkg.nextTag_setSumpEng (p : Pkg) (k : Nat) (v : SumpEng) : (p.setSumpEng k v).nextTag = p.nextTag := rfl
@[simp] theorem Pkg.regions_setSumpEng (p : Pkg) (k : Nat) (v : SumpEng) : (p.setSumpEng k v).regions = p.regions := rfl
@[simp] theorem Pkg.seam_setSumpEng (p : Pkg) (k : Nat) (v : SumpEng) : (p.setSumpEng k v).seam = p.seam := rfl
@[simp] theorem Pkg.seamTab_setSumpEng (p : Pkg) (k : Nat) (v : SumpEng) : (p.setSumpEng k v).seamTab = p.seamTab := rfl
@[simp] theorem Pkg.admittedBy_setSumpEng (p : Pkg) (k : Nat) (v : SumpEng) : (p.setSumpEng k v).admittedBy = p.admittedBy := rfl
@[simp] theorem Pkg.dramLost_setSumpEng (p : Pkg) (k : Nat) (v : SumpEng) : (p.setSumpEng k v).dramLost = p.dramLost := rfl
@[simp] theorem Pkg.swapHold_setSumpEng (p : Pkg) (k : Nat) (v : SumpEng) : (p.setSumpEng k v).swapHold = p.swapHold := rfl
@[simp] theorem Pkg.secure_setSumpEng (p : Pkg) (k : Nat) (v : SumpEng) : (p.setSumpEng k v).secure = p.secure := rfl
@[simp] theorem Pkg.undecided_setSumpEng (p : Pkg) (k : Nat) (v : SumpEng) : (p.setSumpEng k v).undecided = p.undecided := rfl
@[simp] theorem Pkg.events_setSumpEng (p : Pkg) (k : Nat) (v : SumpEng) : (p.setSumpEng k v).events = p.events := rfl
@[simp] theorem Pkg.eventIdx_setSumpEng (p : Pkg) (k : Nat) (v : SumpEng) : (p.setSumpEng k v).eventIdx = p.eventIdx := rfl
@[simp] theorem Pkg.eventLost_setSumpEng (p : Pkg) (k : Nat) (v : SumpEng) : (p.setSumpEng k v).eventLost = p.eventLost := rfl
@[simp] theorem Pkg.holdover_setSumpEng (p : Pkg) (k : Nat) (v : SumpEng) : (p.setSumpEng k v).holdover = p.holdover := rfl
@[simp] theorem Pkg.refEthLost_setSumpEng (p : Pkg) (k : Nat) (v : SumpEng) : (p.setSumpEng k v).refEthLost = p.refEthLost := rfl
@[simp] theorem Pkg.clkStop_setSumpEng (p : Pkg) (k : Nat) (v : SumpEng) : (p.setSumpEng k v).clkStop = p.clkStop := rfl
@[simp] theorem Pkg.clkLost_setSumpEng (p : Pkg) (k : Nat) (v : SumpEng) : (p.setSumpEng k v).clkLost = p.clkLost := rfl
@[simp] theorem Pkg.aHStep_setSumpEng (p : Pkg) (k : Nat) (v : SumpEng) : (p.setSumpEng k v).aHStep = p.aHStep := rfl
@[simp] theorem Pkg.lnkLost_setSumpEng (p : Pkg) (k : Nat) (v : SumpEng) : (p.setSumpEng k v).lnkLost = p.lnkLost := rfl
@[simp] theorem Pkg.eth_setSumpEng (p : Pkg) (k : Nat) (v : SumpEng) : (p.setSumpEng k v).eth = p.eth := rfl
@[simp] theorem Pkg.pwr_setSumpEng (p : Pkg) (k : Nat) (v : SumpEng) : (p.setSumpEng k v).pwr = p.pwr := rfl
@[simp] theorem Pkg.ident_setSumpEng (p : Pkg) (k : Nat) (v : SumpEng) : (p.setSumpEng k v).ident = p.ident := rfl
@[simp] theorem Pkg.tap_setSumpEng (p : Pkg) (k : Nat) (v : SumpEng) : (p.setSumpEng k v).tap = p.tap := rfl
@[simp] theorem Pkg.out_setSumpEng (p : Pkg) (k : Nat) (v : SumpEng) : (p.setSumpEng k v).out = p.out := rfl

/-! ## Port -/

@[simp] theorem Pkg.modPort_eq (p : Pkg) (k : Nat) (f : Port → Port) : p.modPort k f = p.setPort k (f (p.port k)) := rfl
@[simp] theorem Pkg.thr_setPort (p : Pkg) (k j : Nat) (v : Port) : (p.setPort k v).thr j = p.thr j := rfl
@[simp] theorem Pkg.core_setPort (p : Pkg) (k j : Nat) (v : Port) : (p.setPort k v).core j = p.core j := rfl
@[simp] theorem Pkg.slot_setPort (p : Pkg) (k j : Nat) (v : Port) : (p.setPort k v).slot j = p.slot j := rfl
@[simp] theorem Pkg.sync_setPort (p : Pkg) (k j : Nat) (v : Port) : (p.setPort k v).sync j = p.sync j := rfl
@[simp] theorem Pkg.sumpEng_setPort (p : Pkg) (k j : Nat) (v : Port) : (p.setPort k v).sumpEng j = p.sumpEng j := rfl
@[simp] theorem Pkg.port_setPort (p : Pkg) (k : Nat) (v : Port) : (p.setPort k v).port k = v := by simp [Pkg.port, Pkg.setPort]
@[simp] theorem Pkg.die_setPort (p : Pkg) (k j : Nat) (v : Port) : (p.setPort k v).die j = p.die j := rfl
@[simp] theorem Pkg.stack_setPort (p : Pkg) (k j : Nat) (v : Port) : (p.setPort k v).stack j = p.stack j := rfl
@[simp] theorem Pkg.memDie_setPort (p : Pkg) (k j : Nat) (v : Port) : (p.setPort k v).memDie j = p.memDie j := rfl
@[simp] theorem Pkg.ctx_setPort (p : Pkg) (k j : Nat) (v : Port) : (p.setPort k v).ctx j = p.ctx j := rfl
@[simp] theorem Pkg.session_setPort (p : Pkg) (k j : Nat) (v : Port) : (p.setPort k v).session j = p.session j := rfl
@[simp] theorem Pkg.dlWin_setPort (p : Pkg) (k j : Nat) (v : Port) : (p.setPort k v).dlWin j = p.dlWin j := rfl
@[simp] theorem Pkg.now_setPort (p : Pkg) (k : Nat) (v : Port) : (p.setPort k v).now = p.now := rfl
@[simp] theorem Pkg.free_setPort (p : Pkg) (k : Nat) (v : Port) : (p.setPort k v).free = p.free := rfl
@[simp] theorem Pkg.mem_setPort (p : Pkg) (k : Nat) (v : Port) : (p.setPort k v).mem = p.mem := rfl
@[simp] theorem Pkg.poison_setPort (p : Pkg) (k : Nat) (v : Port) : (p.setPort k v).poison = p.poison := rfl
@[simp] theorem Pkg.tagBad_setPort (p : Pkg) (k : Nat) (v : Port) : (p.setPort k v).tagBad = p.tagBad := rfl
@[simp] theorem Pkg.dirtyPg_setPort (p : Pkg) (k : Nat) (v : Port) : (p.setPort k v).dirtyPg = p.dirtyPg := rfl
@[simp] theorem Pkg.flags_setPort (p : Pkg) (k : Nat) (v : Port) : (p.setPort k v).flags = p.flags := rfl
@[simp] theorem Pkg.ctrs_setPort (p : Pkg) (k : Nat) (v : Port) : (p.setPort k v).ctrs = p.ctrs := rfl
@[simp] theorem Pkg.pkgState_setPort (p : Pkg) (k : Nat) (v : Port) : (p.setPort k v).pkgState = p.pkgState := rfl
@[simp] theorem Pkg.pkgEntered_setPort (p : Pkg) (k : Nat) (v : Port) : (p.setPort k v).pkgEntered = p.pkgEntered := rfl
@[simp] theorem Pkg.authNs_setPort (p : Pkg) (k : Nat) (v : Port) : (p.setPort k v).authNs = p.authNs := rfl
@[simp] theorem Pkg.dlRecs_setPort (p : Pkg) (k : Nat) (v : Port) : (p.setPort k v).dlRecs = p.dlRecs := rfl
@[simp] theorem Pkg.waiters_setPort (p : Pkg) (k : Nat) (v : Port) : (p.setPort k v).waiters = p.waiters := rfl
@[simp] theorem Pkg.fabAddr_setPort (p : Pkg) (k : Nat) (v : Port) : (p.setPort k v).fabAddr = p.fabAddr := rfl
@[simp] theorem Pkg.epoch_setPort (p : Pkg) (k : Nat) (v : Port) : (p.setPort k v).epoch = p.epoch := rfl
@[simp] theorem Pkg.planHash_setPort (p : Pkg) (k : Nat) (v : Port) : (p.setPort k v).planHash = p.planHash := rfl
@[simp] theorem Pkg.topoSet_setPort (p : Pkg) (k : Nat) (v : Port) : (p.setPort k v).topoSet = p.topoSet := rfl
@[simp] theorem Pkg.degraded_setPort (p : Pkg) (k : Nat) (v : Port) : (p.setPort k v).degraded = p.degraded := rfl
@[simp] theorem Pkg.respLimit_setPort (p : Pkg) (k : Nat) (v : Port) : (p.setPort k v).respLimit = p.respLimit := rfl
@[simp] theorem Pkg.routes_setPort (p : Pkg) (k : Nat) (v : Port) : (p.setPort k v).routes = p.routes := rfl
@[simp] theorem Pkg.inbox_setPort (p : Pkg) (k : Nat) (v : Port) : (p.setPort k v).inbox = p.inbox := rfl
@[simp] theorem Pkg.transitQ_setPort (p : Pkg) (k : Nat) (v : Port) : (p.setPort k v).transitQ = p.transitQ := rfl
@[simp] theorem Pkg.reqs_setPort (p : Pkg) (k : Nat) (v : Port) : (p.setPort k v).reqs = p.reqs := rfl
@[simp] theorem Pkg.nextTag_setPort (p : Pkg) (k : Nat) (v : Port) : (p.setPort k v).nextTag = p.nextTag := rfl
@[simp] theorem Pkg.regions_setPort (p : Pkg) (k : Nat) (v : Port) : (p.setPort k v).regions = p.regions := rfl
@[simp] theorem Pkg.seam_setPort (p : Pkg) (k : Nat) (v : Port) : (p.setPort k v).seam = p.seam := rfl
@[simp] theorem Pkg.seamTab_setPort (p : Pkg) (k : Nat) (v : Port) : (p.setPort k v).seamTab = p.seamTab := rfl
@[simp] theorem Pkg.admittedBy_setPort (p : Pkg) (k : Nat) (v : Port) : (p.setPort k v).admittedBy = p.admittedBy := rfl
@[simp] theorem Pkg.dramLost_setPort (p : Pkg) (k : Nat) (v : Port) : (p.setPort k v).dramLost = p.dramLost := rfl
@[simp] theorem Pkg.swapHold_setPort (p : Pkg) (k : Nat) (v : Port) : (p.setPort k v).swapHold = p.swapHold := rfl
@[simp] theorem Pkg.secure_setPort (p : Pkg) (k : Nat) (v : Port) : (p.setPort k v).secure = p.secure := rfl
@[simp] theorem Pkg.undecided_setPort (p : Pkg) (k : Nat) (v : Port) : (p.setPort k v).undecided = p.undecided := rfl
@[simp] theorem Pkg.events_setPort (p : Pkg) (k : Nat) (v : Port) : (p.setPort k v).events = p.events := rfl
@[simp] theorem Pkg.eventIdx_setPort (p : Pkg) (k : Nat) (v : Port) : (p.setPort k v).eventIdx = p.eventIdx := rfl
@[simp] theorem Pkg.eventLost_setPort (p : Pkg) (k : Nat) (v : Port) : (p.setPort k v).eventLost = p.eventLost := rfl
@[simp] theorem Pkg.holdover_setPort (p : Pkg) (k : Nat) (v : Port) : (p.setPort k v).holdover = p.holdover := rfl
@[simp] theorem Pkg.refEthLost_setPort (p : Pkg) (k : Nat) (v : Port) : (p.setPort k v).refEthLost = p.refEthLost := rfl
@[simp] theorem Pkg.clkStop_setPort (p : Pkg) (k : Nat) (v : Port) : (p.setPort k v).clkStop = p.clkStop := rfl
@[simp] theorem Pkg.clkLost_setPort (p : Pkg) (k : Nat) (v : Port) : (p.setPort k v).clkLost = p.clkLost := rfl
@[simp] theorem Pkg.aHStep_setPort (p : Pkg) (k : Nat) (v : Port) : (p.setPort k v).aHStep = p.aHStep := rfl
@[simp] theorem Pkg.lnkLost_setPort (p : Pkg) (k : Nat) (v : Port) : (p.setPort k v).lnkLost = p.lnkLost := rfl
@[simp] theorem Pkg.eth_setPort (p : Pkg) (k : Nat) (v : Port) : (p.setPort k v).eth = p.eth := rfl
@[simp] theorem Pkg.pwr_setPort (p : Pkg) (k : Nat) (v : Port) : (p.setPort k v).pwr = p.pwr := rfl
@[simp] theorem Pkg.ident_setPort (p : Pkg) (k : Nat) (v : Port) : (p.setPort k v).ident = p.ident := rfl
@[simp] theorem Pkg.tap_setPort (p : Pkg) (k : Nat) (v : Port) : (p.setPort k v).tap = p.tap := rfl
@[simp] theorem Pkg.out_setPort (p : Pkg) (k : Nat) (v : Port) : (p.setPort k v).out = p.out := rfl

/-! ## Die -/

@[simp] theorem Pkg.modDie_eq (p : Pkg) (k : Nat) (f : Die → Die) : p.modDie k f = p.setDie k (f (p.die k)) := rfl
@[simp] theorem Pkg.thr_setDie (p : Pkg) (k j : Nat) (v : Die) : (p.setDie k v).thr j = p.thr j := rfl
@[simp] theorem Pkg.core_setDie (p : Pkg) (k j : Nat) (v : Die) : (p.setDie k v).core j = p.core j := rfl
@[simp] theorem Pkg.slot_setDie (p : Pkg) (k j : Nat) (v : Die) : (p.setDie k v).slot j = p.slot j := rfl
@[simp] theorem Pkg.sync_setDie (p : Pkg) (k j : Nat) (v : Die) : (p.setDie k v).sync j = p.sync j := rfl
@[simp] theorem Pkg.sumpEng_setDie (p : Pkg) (k j : Nat) (v : Die) : (p.setDie k v).sumpEng j = p.sumpEng j := rfl
@[simp] theorem Pkg.port_setDie (p : Pkg) (k j : Nat) (v : Die) : (p.setDie k v).port j = p.port j := rfl
@[simp] theorem Pkg.die_setDie (p : Pkg) (k : Nat) (v : Die) : (p.setDie k v).die k = v := by simp [Pkg.die, Pkg.setDie]
@[simp] theorem Pkg.stack_setDie (p : Pkg) (k j : Nat) (v : Die) : (p.setDie k v).stack j = p.stack j := rfl
@[simp] theorem Pkg.memDie_setDie (p : Pkg) (k j : Nat) (v : Die) : (p.setDie k v).memDie j = p.memDie j := rfl
@[simp] theorem Pkg.ctx_setDie (p : Pkg) (k j : Nat) (v : Die) : (p.setDie k v).ctx j = p.ctx j := rfl
@[simp] theorem Pkg.session_setDie (p : Pkg) (k j : Nat) (v : Die) : (p.setDie k v).session j = p.session j := rfl
@[simp] theorem Pkg.dlWin_setDie (p : Pkg) (k j : Nat) (v : Die) : (p.setDie k v).dlWin j = p.dlWin j := rfl
@[simp] theorem Pkg.now_setDie (p : Pkg) (k : Nat) (v : Die) : (p.setDie k v).now = p.now := rfl
@[simp] theorem Pkg.free_setDie (p : Pkg) (k : Nat) (v : Die) : (p.setDie k v).free = p.free := rfl
@[simp] theorem Pkg.mem_setDie (p : Pkg) (k : Nat) (v : Die) : (p.setDie k v).mem = p.mem := rfl
@[simp] theorem Pkg.poison_setDie (p : Pkg) (k : Nat) (v : Die) : (p.setDie k v).poison = p.poison := rfl
@[simp] theorem Pkg.tagBad_setDie (p : Pkg) (k : Nat) (v : Die) : (p.setDie k v).tagBad = p.tagBad := rfl
@[simp] theorem Pkg.dirtyPg_setDie (p : Pkg) (k : Nat) (v : Die) : (p.setDie k v).dirtyPg = p.dirtyPg := rfl
@[simp] theorem Pkg.flags_setDie (p : Pkg) (k : Nat) (v : Die) : (p.setDie k v).flags = p.flags := rfl
@[simp] theorem Pkg.ctrs_setDie (p : Pkg) (k : Nat) (v : Die) : (p.setDie k v).ctrs = p.ctrs := rfl
@[simp] theorem Pkg.pkgState_setDie (p : Pkg) (k : Nat) (v : Die) : (p.setDie k v).pkgState = p.pkgState := rfl
@[simp] theorem Pkg.pkgEntered_setDie (p : Pkg) (k : Nat) (v : Die) : (p.setDie k v).pkgEntered = p.pkgEntered := rfl
@[simp] theorem Pkg.authNs_setDie (p : Pkg) (k : Nat) (v : Die) : (p.setDie k v).authNs = p.authNs := rfl
@[simp] theorem Pkg.dlRecs_setDie (p : Pkg) (k : Nat) (v : Die) : (p.setDie k v).dlRecs = p.dlRecs := rfl
@[simp] theorem Pkg.waiters_setDie (p : Pkg) (k : Nat) (v : Die) : (p.setDie k v).waiters = p.waiters := rfl
@[simp] theorem Pkg.fabAddr_setDie (p : Pkg) (k : Nat) (v : Die) : (p.setDie k v).fabAddr = p.fabAddr := rfl
@[simp] theorem Pkg.epoch_setDie (p : Pkg) (k : Nat) (v : Die) : (p.setDie k v).epoch = p.epoch := rfl
@[simp] theorem Pkg.planHash_setDie (p : Pkg) (k : Nat) (v : Die) : (p.setDie k v).planHash = p.planHash := rfl
@[simp] theorem Pkg.topoSet_setDie (p : Pkg) (k : Nat) (v : Die) : (p.setDie k v).topoSet = p.topoSet := rfl
@[simp] theorem Pkg.degraded_setDie (p : Pkg) (k : Nat) (v : Die) : (p.setDie k v).degraded = p.degraded := rfl
@[simp] theorem Pkg.respLimit_setDie (p : Pkg) (k : Nat) (v : Die) : (p.setDie k v).respLimit = p.respLimit := rfl
@[simp] theorem Pkg.routes_setDie (p : Pkg) (k : Nat) (v : Die) : (p.setDie k v).routes = p.routes := rfl
@[simp] theorem Pkg.inbox_setDie (p : Pkg) (k : Nat) (v : Die) : (p.setDie k v).inbox = p.inbox := rfl
@[simp] theorem Pkg.transitQ_setDie (p : Pkg) (k : Nat) (v : Die) : (p.setDie k v).transitQ = p.transitQ := rfl
@[simp] theorem Pkg.reqs_setDie (p : Pkg) (k : Nat) (v : Die) : (p.setDie k v).reqs = p.reqs := rfl
@[simp] theorem Pkg.nextTag_setDie (p : Pkg) (k : Nat) (v : Die) : (p.setDie k v).nextTag = p.nextTag := rfl
@[simp] theorem Pkg.regions_setDie (p : Pkg) (k : Nat) (v : Die) : (p.setDie k v).regions = p.regions := rfl
@[simp] theorem Pkg.seam_setDie (p : Pkg) (k : Nat) (v : Die) : (p.setDie k v).seam = p.seam := rfl
@[simp] theorem Pkg.seamTab_setDie (p : Pkg) (k : Nat) (v : Die) : (p.setDie k v).seamTab = p.seamTab := rfl
@[simp] theorem Pkg.admittedBy_setDie (p : Pkg) (k : Nat) (v : Die) : (p.setDie k v).admittedBy = p.admittedBy := rfl
@[simp] theorem Pkg.dramLost_setDie (p : Pkg) (k : Nat) (v : Die) : (p.setDie k v).dramLost = p.dramLost := rfl
@[simp] theorem Pkg.swapHold_setDie (p : Pkg) (k : Nat) (v : Die) : (p.setDie k v).swapHold = p.swapHold := rfl
@[simp] theorem Pkg.secure_setDie (p : Pkg) (k : Nat) (v : Die) : (p.setDie k v).secure = p.secure := rfl
@[simp] theorem Pkg.undecided_setDie (p : Pkg) (k : Nat) (v : Die) : (p.setDie k v).undecided = p.undecided := rfl
@[simp] theorem Pkg.events_setDie (p : Pkg) (k : Nat) (v : Die) : (p.setDie k v).events = p.events := rfl
@[simp] theorem Pkg.eventIdx_setDie (p : Pkg) (k : Nat) (v : Die) : (p.setDie k v).eventIdx = p.eventIdx := rfl
@[simp] theorem Pkg.eventLost_setDie (p : Pkg) (k : Nat) (v : Die) : (p.setDie k v).eventLost = p.eventLost := rfl
@[simp] theorem Pkg.holdover_setDie (p : Pkg) (k : Nat) (v : Die) : (p.setDie k v).holdover = p.holdover := rfl
@[simp] theorem Pkg.refEthLost_setDie (p : Pkg) (k : Nat) (v : Die) : (p.setDie k v).refEthLost = p.refEthLost := rfl
@[simp] theorem Pkg.clkStop_setDie (p : Pkg) (k : Nat) (v : Die) : (p.setDie k v).clkStop = p.clkStop := rfl
@[simp] theorem Pkg.clkLost_setDie (p : Pkg) (k : Nat) (v : Die) : (p.setDie k v).clkLost = p.clkLost := rfl
@[simp] theorem Pkg.aHStep_setDie (p : Pkg) (k : Nat) (v : Die) : (p.setDie k v).aHStep = p.aHStep := rfl
@[simp] theorem Pkg.lnkLost_setDie (p : Pkg) (k : Nat) (v : Die) : (p.setDie k v).lnkLost = p.lnkLost := rfl
@[simp] theorem Pkg.eth_setDie (p : Pkg) (k : Nat) (v : Die) : (p.setDie k v).eth = p.eth := rfl
@[simp] theorem Pkg.pwr_setDie (p : Pkg) (k : Nat) (v : Die) : (p.setDie k v).pwr = p.pwr := rfl
@[simp] theorem Pkg.ident_setDie (p : Pkg) (k : Nat) (v : Die) : (p.setDie k v).ident = p.ident := rfl
@[simp] theorem Pkg.tap_setDie (p : Pkg) (k : Nat) (v : Die) : (p.setDie k v).tap = p.tap := rfl
@[simp] theorem Pkg.out_setDie (p : Pkg) (k : Nat) (v : Die) : (p.setDie k v).out = p.out := rfl

/-! ## Stack -/

@[simp] theorem Pkg.modStack_eq (p : Pkg) (k : Nat) (f : Stack → Stack) : p.modStack k f = p.setStack k (f (p.stack k)) := rfl
@[simp] theorem Pkg.thr_setStack (p : Pkg) (k j : Nat) (v : Stack) : (p.setStack k v).thr j = p.thr j := rfl
@[simp] theorem Pkg.core_setStack (p : Pkg) (k j : Nat) (v : Stack) : (p.setStack k v).core j = p.core j := rfl
@[simp] theorem Pkg.slot_setStack (p : Pkg) (k j : Nat) (v : Stack) : (p.setStack k v).slot j = p.slot j := rfl
@[simp] theorem Pkg.sync_setStack (p : Pkg) (k j : Nat) (v : Stack) : (p.setStack k v).sync j = p.sync j := rfl
@[simp] theorem Pkg.sumpEng_setStack (p : Pkg) (k j : Nat) (v : Stack) : (p.setStack k v).sumpEng j = p.sumpEng j := rfl
@[simp] theorem Pkg.port_setStack (p : Pkg) (k j : Nat) (v : Stack) : (p.setStack k v).port j = p.port j := rfl
@[simp] theorem Pkg.die_setStack (p : Pkg) (k j : Nat) (v : Stack) : (p.setStack k v).die j = p.die j := rfl
@[simp] theorem Pkg.stack_setStack (p : Pkg) (k j : Nat) (v : Stack) : (p.setStack k v).stack j = if j = k then v else p.stack j := by
  simp [Pkg.stack, Pkg.setStack, tabGet_tabSet]
@[simp] theorem Pkg.memDie_setStack (p : Pkg) (k j : Nat) (v : Stack) : (p.setStack k v).memDie j = p.memDie j := rfl
@[simp] theorem Pkg.ctx_setStack (p : Pkg) (k j : Nat) (v : Stack) : (p.setStack k v).ctx j = p.ctx j := rfl
@[simp] theorem Pkg.session_setStack (p : Pkg) (k j : Nat) (v : Stack) : (p.setStack k v).session j = p.session j := rfl
@[simp] theorem Pkg.dlWin_setStack (p : Pkg) (k j : Nat) (v : Stack) : (p.setStack k v).dlWin j = p.dlWin j := rfl
@[simp] theorem Pkg.now_setStack (p : Pkg) (k : Nat) (v : Stack) : (p.setStack k v).now = p.now := rfl
@[simp] theorem Pkg.free_setStack (p : Pkg) (k : Nat) (v : Stack) : (p.setStack k v).free = p.free := rfl
@[simp] theorem Pkg.mem_setStack (p : Pkg) (k : Nat) (v : Stack) : (p.setStack k v).mem = p.mem := rfl
@[simp] theorem Pkg.poison_setStack (p : Pkg) (k : Nat) (v : Stack) : (p.setStack k v).poison = p.poison := rfl
@[simp] theorem Pkg.tagBad_setStack (p : Pkg) (k : Nat) (v : Stack) : (p.setStack k v).tagBad = p.tagBad := rfl
@[simp] theorem Pkg.dirtyPg_setStack (p : Pkg) (k : Nat) (v : Stack) : (p.setStack k v).dirtyPg = p.dirtyPg := rfl
@[simp] theorem Pkg.flags_setStack (p : Pkg) (k : Nat) (v : Stack) : (p.setStack k v).flags = p.flags := rfl
@[simp] theorem Pkg.ctrs_setStack (p : Pkg) (k : Nat) (v : Stack) : (p.setStack k v).ctrs = p.ctrs := rfl
@[simp] theorem Pkg.pkgState_setStack (p : Pkg) (k : Nat) (v : Stack) : (p.setStack k v).pkgState = p.pkgState := rfl
@[simp] theorem Pkg.pkgEntered_setStack (p : Pkg) (k : Nat) (v : Stack) : (p.setStack k v).pkgEntered = p.pkgEntered := rfl
@[simp] theorem Pkg.authNs_setStack (p : Pkg) (k : Nat) (v : Stack) : (p.setStack k v).authNs = p.authNs := rfl
@[simp] theorem Pkg.dlRecs_setStack (p : Pkg) (k : Nat) (v : Stack) : (p.setStack k v).dlRecs = p.dlRecs := rfl
@[simp] theorem Pkg.waiters_setStack (p : Pkg) (k : Nat) (v : Stack) : (p.setStack k v).waiters = p.waiters := rfl
@[simp] theorem Pkg.fabAddr_setStack (p : Pkg) (k : Nat) (v : Stack) : (p.setStack k v).fabAddr = p.fabAddr := rfl
@[simp] theorem Pkg.epoch_setStack (p : Pkg) (k : Nat) (v : Stack) : (p.setStack k v).epoch = p.epoch := rfl
@[simp] theorem Pkg.planHash_setStack (p : Pkg) (k : Nat) (v : Stack) : (p.setStack k v).planHash = p.planHash := rfl
@[simp] theorem Pkg.topoSet_setStack (p : Pkg) (k : Nat) (v : Stack) : (p.setStack k v).topoSet = p.topoSet := rfl
@[simp] theorem Pkg.degraded_setStack (p : Pkg) (k : Nat) (v : Stack) : (p.setStack k v).degraded = p.degraded := rfl
@[simp] theorem Pkg.respLimit_setStack (p : Pkg) (k : Nat) (v : Stack) : (p.setStack k v).respLimit = p.respLimit := rfl
@[simp] theorem Pkg.routes_setStack (p : Pkg) (k : Nat) (v : Stack) : (p.setStack k v).routes = p.routes := rfl
@[simp] theorem Pkg.inbox_setStack (p : Pkg) (k : Nat) (v : Stack) : (p.setStack k v).inbox = p.inbox := rfl
@[simp] theorem Pkg.transitQ_setStack (p : Pkg) (k : Nat) (v : Stack) : (p.setStack k v).transitQ = p.transitQ := rfl
@[simp] theorem Pkg.reqs_setStack (p : Pkg) (k : Nat) (v : Stack) : (p.setStack k v).reqs = p.reqs := rfl
@[simp] theorem Pkg.nextTag_setStack (p : Pkg) (k : Nat) (v : Stack) : (p.setStack k v).nextTag = p.nextTag := rfl
@[simp] theorem Pkg.regions_setStack (p : Pkg) (k : Nat) (v : Stack) : (p.setStack k v).regions = p.regions := rfl
@[simp] theorem Pkg.seam_setStack (p : Pkg) (k : Nat) (v : Stack) : (p.setStack k v).seam = p.seam := rfl
@[simp] theorem Pkg.seamTab_setStack (p : Pkg) (k : Nat) (v : Stack) : (p.setStack k v).seamTab = p.seamTab := rfl
@[simp] theorem Pkg.admittedBy_setStack (p : Pkg) (k : Nat) (v : Stack) : (p.setStack k v).admittedBy = p.admittedBy := rfl
@[simp] theorem Pkg.dramLost_setStack (p : Pkg) (k : Nat) (v : Stack) : (p.setStack k v).dramLost = p.dramLost := rfl
@[simp] theorem Pkg.swapHold_setStack (p : Pkg) (k : Nat) (v : Stack) : (p.setStack k v).swapHold = p.swapHold := rfl
@[simp] theorem Pkg.secure_setStack (p : Pkg) (k : Nat) (v : Stack) : (p.setStack k v).secure = p.secure := rfl
@[simp] theorem Pkg.undecided_setStack (p : Pkg) (k : Nat) (v : Stack) : (p.setStack k v).undecided = p.undecided := rfl
@[simp] theorem Pkg.events_setStack (p : Pkg) (k : Nat) (v : Stack) : (p.setStack k v).events = p.events := rfl
@[simp] theorem Pkg.eventIdx_setStack (p : Pkg) (k : Nat) (v : Stack) : (p.setStack k v).eventIdx = p.eventIdx := rfl
@[simp] theorem Pkg.eventLost_setStack (p : Pkg) (k : Nat) (v : Stack) : (p.setStack k v).eventLost = p.eventLost := rfl
@[simp] theorem Pkg.holdover_setStack (p : Pkg) (k : Nat) (v : Stack) : (p.setStack k v).holdover = p.holdover := rfl
@[simp] theorem Pkg.refEthLost_setStack (p : Pkg) (k : Nat) (v : Stack) : (p.setStack k v).refEthLost = p.refEthLost := rfl
@[simp] theorem Pkg.clkStop_setStack (p : Pkg) (k : Nat) (v : Stack) : (p.setStack k v).clkStop = p.clkStop := rfl
@[simp] theorem Pkg.clkLost_setStack (p : Pkg) (k : Nat) (v : Stack) : (p.setStack k v).clkLost = p.clkLost := rfl
@[simp] theorem Pkg.aHStep_setStack (p : Pkg) (k : Nat) (v : Stack) : (p.setStack k v).aHStep = p.aHStep := rfl
@[simp] theorem Pkg.lnkLost_setStack (p : Pkg) (k : Nat) (v : Stack) : (p.setStack k v).lnkLost = p.lnkLost := rfl
@[simp] theorem Pkg.eth_setStack (p : Pkg) (k : Nat) (v : Stack) : (p.setStack k v).eth = p.eth := rfl
@[simp] theorem Pkg.pwr_setStack (p : Pkg) (k : Nat) (v : Stack) : (p.setStack k v).pwr = p.pwr := rfl
@[simp] theorem Pkg.ident_setStack (p : Pkg) (k : Nat) (v : Stack) : (p.setStack k v).ident = p.ident := rfl
@[simp] theorem Pkg.tap_setStack (p : Pkg) (k : Nat) (v : Stack) : (p.setStack k v).tap = p.tap := rfl
@[simp] theorem Pkg.out_setStack (p : Pkg) (k : Nat) (v : Stack) : (p.setStack k v).out = p.out := rfl

/-! ## MemDie -/

@[simp] theorem Pkg.modMemDie_eq (p : Pkg) (k : Nat) (f : MemDie → MemDie) : p.modMemDie k f = p.setMemDie k (f (p.memDie k)) := rfl
@[simp] theorem Pkg.thr_setMemDie (p : Pkg) (k j : Nat) (v : MemDie) : (p.setMemDie k v).thr j = p.thr j := rfl
@[simp] theorem Pkg.core_setMemDie (p : Pkg) (k j : Nat) (v : MemDie) : (p.setMemDie k v).core j = p.core j := rfl
@[simp] theorem Pkg.slot_setMemDie (p : Pkg) (k j : Nat) (v : MemDie) : (p.setMemDie k v).slot j = p.slot j := rfl
@[simp] theorem Pkg.sync_setMemDie (p : Pkg) (k j : Nat) (v : MemDie) : (p.setMemDie k v).sync j = p.sync j := rfl
@[simp] theorem Pkg.sumpEng_setMemDie (p : Pkg) (k j : Nat) (v : MemDie) : (p.setMemDie k v).sumpEng j = p.sumpEng j := rfl
@[simp] theorem Pkg.port_setMemDie (p : Pkg) (k j : Nat) (v : MemDie) : (p.setMemDie k v).port j = p.port j := rfl
@[simp] theorem Pkg.die_setMemDie (p : Pkg) (k j : Nat) (v : MemDie) : (p.setMemDie k v).die j = p.die j := rfl
@[simp] theorem Pkg.stack_setMemDie (p : Pkg) (k j : Nat) (v : MemDie) : (p.setMemDie k v).stack j = p.stack j := rfl
@[simp] theorem Pkg.memDie_setMemDie (p : Pkg) (k j : Nat) (v : MemDie) : (p.setMemDie k v).memDie j = if j = k then v else p.memDie j := by
  simp [Pkg.memDie, Pkg.setMemDie, tabGet_tabSet]
@[simp] theorem Pkg.ctx_setMemDie (p : Pkg) (k j : Nat) (v : MemDie) : (p.setMemDie k v).ctx j = p.ctx j := rfl
@[simp] theorem Pkg.session_setMemDie (p : Pkg) (k j : Nat) (v : MemDie) : (p.setMemDie k v).session j = p.session j := rfl
@[simp] theorem Pkg.dlWin_setMemDie (p : Pkg) (k j : Nat) (v : MemDie) : (p.setMemDie k v).dlWin j = p.dlWin j := rfl
@[simp] theorem Pkg.now_setMemDie (p : Pkg) (k : Nat) (v : MemDie) : (p.setMemDie k v).now = p.now := rfl
@[simp] theorem Pkg.free_setMemDie (p : Pkg) (k : Nat) (v : MemDie) : (p.setMemDie k v).free = p.free := rfl
@[simp] theorem Pkg.mem_setMemDie (p : Pkg) (k : Nat) (v : MemDie) : (p.setMemDie k v).mem = p.mem := rfl
@[simp] theorem Pkg.poison_setMemDie (p : Pkg) (k : Nat) (v : MemDie) : (p.setMemDie k v).poison = p.poison := rfl
@[simp] theorem Pkg.tagBad_setMemDie (p : Pkg) (k : Nat) (v : MemDie) : (p.setMemDie k v).tagBad = p.tagBad := rfl
@[simp] theorem Pkg.dirtyPg_setMemDie (p : Pkg) (k : Nat) (v : MemDie) : (p.setMemDie k v).dirtyPg = p.dirtyPg := rfl
@[simp] theorem Pkg.flags_setMemDie (p : Pkg) (k : Nat) (v : MemDie) : (p.setMemDie k v).flags = p.flags := rfl
@[simp] theorem Pkg.ctrs_setMemDie (p : Pkg) (k : Nat) (v : MemDie) : (p.setMemDie k v).ctrs = p.ctrs := rfl
@[simp] theorem Pkg.pkgState_setMemDie (p : Pkg) (k : Nat) (v : MemDie) : (p.setMemDie k v).pkgState = p.pkgState := rfl
@[simp] theorem Pkg.pkgEntered_setMemDie (p : Pkg) (k : Nat) (v : MemDie) : (p.setMemDie k v).pkgEntered = p.pkgEntered := rfl
@[simp] theorem Pkg.authNs_setMemDie (p : Pkg) (k : Nat) (v : MemDie) : (p.setMemDie k v).authNs = p.authNs := rfl
@[simp] theorem Pkg.dlRecs_setMemDie (p : Pkg) (k : Nat) (v : MemDie) : (p.setMemDie k v).dlRecs = p.dlRecs := rfl
@[simp] theorem Pkg.waiters_setMemDie (p : Pkg) (k : Nat) (v : MemDie) : (p.setMemDie k v).waiters = p.waiters := rfl
@[simp] theorem Pkg.fabAddr_setMemDie (p : Pkg) (k : Nat) (v : MemDie) : (p.setMemDie k v).fabAddr = p.fabAddr := rfl
@[simp] theorem Pkg.epoch_setMemDie (p : Pkg) (k : Nat) (v : MemDie) : (p.setMemDie k v).epoch = p.epoch := rfl
@[simp] theorem Pkg.planHash_setMemDie (p : Pkg) (k : Nat) (v : MemDie) : (p.setMemDie k v).planHash = p.planHash := rfl
@[simp] theorem Pkg.topoSet_setMemDie (p : Pkg) (k : Nat) (v : MemDie) : (p.setMemDie k v).topoSet = p.topoSet := rfl
@[simp] theorem Pkg.degraded_setMemDie (p : Pkg) (k : Nat) (v : MemDie) : (p.setMemDie k v).degraded = p.degraded := rfl
@[simp] theorem Pkg.respLimit_setMemDie (p : Pkg) (k : Nat) (v : MemDie) : (p.setMemDie k v).respLimit = p.respLimit := rfl
@[simp] theorem Pkg.routes_setMemDie (p : Pkg) (k : Nat) (v : MemDie) : (p.setMemDie k v).routes = p.routes := rfl
@[simp] theorem Pkg.inbox_setMemDie (p : Pkg) (k : Nat) (v : MemDie) : (p.setMemDie k v).inbox = p.inbox := rfl
@[simp] theorem Pkg.transitQ_setMemDie (p : Pkg) (k : Nat) (v : MemDie) : (p.setMemDie k v).transitQ = p.transitQ := rfl
@[simp] theorem Pkg.reqs_setMemDie (p : Pkg) (k : Nat) (v : MemDie) : (p.setMemDie k v).reqs = p.reqs := rfl
@[simp] theorem Pkg.nextTag_setMemDie (p : Pkg) (k : Nat) (v : MemDie) : (p.setMemDie k v).nextTag = p.nextTag := rfl
@[simp] theorem Pkg.regions_setMemDie (p : Pkg) (k : Nat) (v : MemDie) : (p.setMemDie k v).regions = p.regions := rfl
@[simp] theorem Pkg.seam_setMemDie (p : Pkg) (k : Nat) (v : MemDie) : (p.setMemDie k v).seam = p.seam := rfl
@[simp] theorem Pkg.seamTab_setMemDie (p : Pkg) (k : Nat) (v : MemDie) : (p.setMemDie k v).seamTab = p.seamTab := rfl
@[simp] theorem Pkg.admittedBy_setMemDie (p : Pkg) (k : Nat) (v : MemDie) : (p.setMemDie k v).admittedBy = p.admittedBy := rfl
@[simp] theorem Pkg.dramLost_setMemDie (p : Pkg) (k : Nat) (v : MemDie) : (p.setMemDie k v).dramLost = p.dramLost := rfl
@[simp] theorem Pkg.swapHold_setMemDie (p : Pkg) (k : Nat) (v : MemDie) : (p.setMemDie k v).swapHold = p.swapHold := rfl
@[simp] theorem Pkg.secure_setMemDie (p : Pkg) (k : Nat) (v : MemDie) : (p.setMemDie k v).secure = p.secure := rfl
@[simp] theorem Pkg.undecided_setMemDie (p : Pkg) (k : Nat) (v : MemDie) : (p.setMemDie k v).undecided = p.undecided := rfl
@[simp] theorem Pkg.events_setMemDie (p : Pkg) (k : Nat) (v : MemDie) : (p.setMemDie k v).events = p.events := rfl
@[simp] theorem Pkg.eventIdx_setMemDie (p : Pkg) (k : Nat) (v : MemDie) : (p.setMemDie k v).eventIdx = p.eventIdx := rfl
@[simp] theorem Pkg.eventLost_setMemDie (p : Pkg) (k : Nat) (v : MemDie) : (p.setMemDie k v).eventLost = p.eventLost := rfl
@[simp] theorem Pkg.holdover_setMemDie (p : Pkg) (k : Nat) (v : MemDie) : (p.setMemDie k v).holdover = p.holdover := rfl
@[simp] theorem Pkg.refEthLost_setMemDie (p : Pkg) (k : Nat) (v : MemDie) : (p.setMemDie k v).refEthLost = p.refEthLost := rfl
@[simp] theorem Pkg.clkStop_setMemDie (p : Pkg) (k : Nat) (v : MemDie) : (p.setMemDie k v).clkStop = p.clkStop := rfl
@[simp] theorem Pkg.clkLost_setMemDie (p : Pkg) (k : Nat) (v : MemDie) : (p.setMemDie k v).clkLost = p.clkLost := rfl
@[simp] theorem Pkg.aHStep_setMemDie (p : Pkg) (k : Nat) (v : MemDie) : (p.setMemDie k v).aHStep = p.aHStep := rfl
@[simp] theorem Pkg.lnkLost_setMemDie (p : Pkg) (k : Nat) (v : MemDie) : (p.setMemDie k v).lnkLost = p.lnkLost := rfl
@[simp] theorem Pkg.eth_setMemDie (p : Pkg) (k : Nat) (v : MemDie) : (p.setMemDie k v).eth = p.eth := rfl
@[simp] theorem Pkg.pwr_setMemDie (p : Pkg) (k : Nat) (v : MemDie) : (p.setMemDie k v).pwr = p.pwr := rfl
@[simp] theorem Pkg.ident_setMemDie (p : Pkg) (k : Nat) (v : MemDie) : (p.setMemDie k v).ident = p.ident := rfl
@[simp] theorem Pkg.tap_setMemDie (p : Pkg) (k : Nat) (v : MemDie) : (p.setMemDie k v).tap = p.tap := rfl
@[simp] theorem Pkg.out_setMemDie (p : Pkg) (k : Nat) (v : MemDie) : (p.setMemDie k v).out = p.out := rfl

/-! ## Ctx -/

@[simp] theorem Pkg.modCtx_eq (p : Pkg) (k : Nat) (f : Ctx → Ctx) : p.modCtx k f = p.setCtx k (f (p.ctx k)) := rfl
@[simp] theorem Pkg.thr_setCtx (p : Pkg) (k j : Nat) (v : Ctx) : (p.setCtx k v).thr j = p.thr j := rfl
@[simp] theorem Pkg.core_setCtx (p : Pkg) (k j : Nat) (v : Ctx) : (p.setCtx k v).core j = p.core j := rfl
@[simp] theorem Pkg.slot_setCtx (p : Pkg) (k j : Nat) (v : Ctx) : (p.setCtx k v).slot j = p.slot j := rfl
@[simp] theorem Pkg.sync_setCtx (p : Pkg) (k j : Nat) (v : Ctx) : (p.setCtx k v).sync j = p.sync j := rfl
@[simp] theorem Pkg.sumpEng_setCtx (p : Pkg) (k j : Nat) (v : Ctx) : (p.setCtx k v).sumpEng j = p.sumpEng j := rfl
@[simp] theorem Pkg.port_setCtx (p : Pkg) (k j : Nat) (v : Ctx) : (p.setCtx k v).port j = p.port j := rfl
@[simp] theorem Pkg.die_setCtx (p : Pkg) (k j : Nat) (v : Ctx) : (p.setCtx k v).die j = p.die j := rfl
@[simp] theorem Pkg.stack_setCtx (p : Pkg) (k j : Nat) (v : Ctx) : (p.setCtx k v).stack j = p.stack j := rfl
@[simp] theorem Pkg.memDie_setCtx (p : Pkg) (k j : Nat) (v : Ctx) : (p.setCtx k v).memDie j = p.memDie j := rfl
@[simp] theorem Pkg.ctx_setCtx (p : Pkg) (k j : Nat) (v : Ctx) : (p.setCtx k v).ctx j = if j = k then v else p.ctx j := by
  simp [Pkg.ctx, Pkg.setCtx, tabGet_tabSet]
@[simp] theorem Pkg.session_setCtx (p : Pkg) (k j : Nat) (v : Ctx) : (p.setCtx k v).session j = p.session j := rfl
@[simp] theorem Pkg.dlWin_setCtx (p : Pkg) (k j : Nat) (v : Ctx) : (p.setCtx k v).dlWin j = p.dlWin j := rfl
@[simp] theorem Pkg.now_setCtx (p : Pkg) (k : Nat) (v : Ctx) : (p.setCtx k v).now = p.now := rfl
@[simp] theorem Pkg.free_setCtx (p : Pkg) (k : Nat) (v : Ctx) : (p.setCtx k v).free = p.free := rfl
@[simp] theorem Pkg.mem_setCtx (p : Pkg) (k : Nat) (v : Ctx) : (p.setCtx k v).mem = p.mem := rfl
@[simp] theorem Pkg.poison_setCtx (p : Pkg) (k : Nat) (v : Ctx) : (p.setCtx k v).poison = p.poison := rfl
@[simp] theorem Pkg.tagBad_setCtx (p : Pkg) (k : Nat) (v : Ctx) : (p.setCtx k v).tagBad = p.tagBad := rfl
@[simp] theorem Pkg.dirtyPg_setCtx (p : Pkg) (k : Nat) (v : Ctx) : (p.setCtx k v).dirtyPg = p.dirtyPg := rfl
@[simp] theorem Pkg.flags_setCtx (p : Pkg) (k : Nat) (v : Ctx) : (p.setCtx k v).flags = p.flags := rfl
@[simp] theorem Pkg.ctrs_setCtx (p : Pkg) (k : Nat) (v : Ctx) : (p.setCtx k v).ctrs = p.ctrs := rfl
@[simp] theorem Pkg.pkgState_setCtx (p : Pkg) (k : Nat) (v : Ctx) : (p.setCtx k v).pkgState = p.pkgState := rfl
@[simp] theorem Pkg.pkgEntered_setCtx (p : Pkg) (k : Nat) (v : Ctx) : (p.setCtx k v).pkgEntered = p.pkgEntered := rfl
@[simp] theorem Pkg.authNs_setCtx (p : Pkg) (k : Nat) (v : Ctx) : (p.setCtx k v).authNs = p.authNs := rfl
@[simp] theorem Pkg.dlRecs_setCtx (p : Pkg) (k : Nat) (v : Ctx) : (p.setCtx k v).dlRecs = p.dlRecs := rfl
@[simp] theorem Pkg.waiters_setCtx (p : Pkg) (k : Nat) (v : Ctx) : (p.setCtx k v).waiters = p.waiters := rfl
@[simp] theorem Pkg.fabAddr_setCtx (p : Pkg) (k : Nat) (v : Ctx) : (p.setCtx k v).fabAddr = p.fabAddr := rfl
@[simp] theorem Pkg.epoch_setCtx (p : Pkg) (k : Nat) (v : Ctx) : (p.setCtx k v).epoch = p.epoch := rfl
@[simp] theorem Pkg.planHash_setCtx (p : Pkg) (k : Nat) (v : Ctx) : (p.setCtx k v).planHash = p.planHash := rfl
@[simp] theorem Pkg.topoSet_setCtx (p : Pkg) (k : Nat) (v : Ctx) : (p.setCtx k v).topoSet = p.topoSet := rfl
@[simp] theorem Pkg.degraded_setCtx (p : Pkg) (k : Nat) (v : Ctx) : (p.setCtx k v).degraded = p.degraded := rfl
@[simp] theorem Pkg.respLimit_setCtx (p : Pkg) (k : Nat) (v : Ctx) : (p.setCtx k v).respLimit = p.respLimit := rfl
@[simp] theorem Pkg.routes_setCtx (p : Pkg) (k : Nat) (v : Ctx) : (p.setCtx k v).routes = p.routes := rfl
@[simp] theorem Pkg.inbox_setCtx (p : Pkg) (k : Nat) (v : Ctx) : (p.setCtx k v).inbox = p.inbox := rfl
@[simp] theorem Pkg.transitQ_setCtx (p : Pkg) (k : Nat) (v : Ctx) : (p.setCtx k v).transitQ = p.transitQ := rfl
@[simp] theorem Pkg.reqs_setCtx (p : Pkg) (k : Nat) (v : Ctx) : (p.setCtx k v).reqs = p.reqs := rfl
@[simp] theorem Pkg.nextTag_setCtx (p : Pkg) (k : Nat) (v : Ctx) : (p.setCtx k v).nextTag = p.nextTag := rfl
@[simp] theorem Pkg.regions_setCtx (p : Pkg) (k : Nat) (v : Ctx) : (p.setCtx k v).regions = p.regions := rfl
@[simp] theorem Pkg.seam_setCtx (p : Pkg) (k : Nat) (v : Ctx) : (p.setCtx k v).seam = p.seam := rfl
@[simp] theorem Pkg.seamTab_setCtx (p : Pkg) (k : Nat) (v : Ctx) : (p.setCtx k v).seamTab = p.seamTab := rfl
@[simp] theorem Pkg.admittedBy_setCtx (p : Pkg) (k : Nat) (v : Ctx) : (p.setCtx k v).admittedBy = p.admittedBy := rfl
@[simp] theorem Pkg.dramLost_setCtx (p : Pkg) (k : Nat) (v : Ctx) : (p.setCtx k v).dramLost = p.dramLost := rfl
@[simp] theorem Pkg.swapHold_setCtx (p : Pkg) (k : Nat) (v : Ctx) : (p.setCtx k v).swapHold = p.swapHold := rfl
@[simp] theorem Pkg.secure_setCtx (p : Pkg) (k : Nat) (v : Ctx) : (p.setCtx k v).secure = p.secure := rfl
@[simp] theorem Pkg.undecided_setCtx (p : Pkg) (k : Nat) (v : Ctx) : (p.setCtx k v).undecided = p.undecided := rfl
@[simp] theorem Pkg.events_setCtx (p : Pkg) (k : Nat) (v : Ctx) : (p.setCtx k v).events = p.events := rfl
@[simp] theorem Pkg.eventIdx_setCtx (p : Pkg) (k : Nat) (v : Ctx) : (p.setCtx k v).eventIdx = p.eventIdx := rfl
@[simp] theorem Pkg.eventLost_setCtx (p : Pkg) (k : Nat) (v : Ctx) : (p.setCtx k v).eventLost = p.eventLost := rfl
@[simp] theorem Pkg.holdover_setCtx (p : Pkg) (k : Nat) (v : Ctx) : (p.setCtx k v).holdover = p.holdover := rfl
@[simp] theorem Pkg.refEthLost_setCtx (p : Pkg) (k : Nat) (v : Ctx) : (p.setCtx k v).refEthLost = p.refEthLost := rfl
@[simp] theorem Pkg.clkStop_setCtx (p : Pkg) (k : Nat) (v : Ctx) : (p.setCtx k v).clkStop = p.clkStop := rfl
@[simp] theorem Pkg.clkLost_setCtx (p : Pkg) (k : Nat) (v : Ctx) : (p.setCtx k v).clkLost = p.clkLost := rfl
@[simp] theorem Pkg.aHStep_setCtx (p : Pkg) (k : Nat) (v : Ctx) : (p.setCtx k v).aHStep = p.aHStep := rfl
@[simp] theorem Pkg.lnkLost_setCtx (p : Pkg) (k : Nat) (v : Ctx) : (p.setCtx k v).lnkLost = p.lnkLost := rfl
@[simp] theorem Pkg.eth_setCtx (p : Pkg) (k : Nat) (v : Ctx) : (p.setCtx k v).eth = p.eth := rfl
@[simp] theorem Pkg.pwr_setCtx (p : Pkg) (k : Nat) (v : Ctx) : (p.setCtx k v).pwr = p.pwr := rfl
@[simp] theorem Pkg.ident_setCtx (p : Pkg) (k : Nat) (v : Ctx) : (p.setCtx k v).ident = p.ident := rfl
@[simp] theorem Pkg.tap_setCtx (p : Pkg) (k : Nat) (v : Ctx) : (p.setCtx k v).tap = p.tap := rfl
@[simp] theorem Pkg.out_setCtx (p : Pkg) (k : Nat) (v : Ctx) : (p.setCtx k v).out = p.out := rfl

/-! ## Session -/

@[simp] theorem Pkg.modSession_eq (p : Pkg) (k : Nat) (f : Session → Session) : p.modSession k f = p.setSession k (f (p.session k)) := rfl
@[simp] theorem Pkg.thr_setSession (p : Pkg) (k j : Nat) (v : Session) : (p.setSession k v).thr j = p.thr j := rfl
@[simp] theorem Pkg.core_setSession (p : Pkg) (k j : Nat) (v : Session) : (p.setSession k v).core j = p.core j := rfl
@[simp] theorem Pkg.slot_setSession (p : Pkg) (k j : Nat) (v : Session) : (p.setSession k v).slot j = p.slot j := rfl
@[simp] theorem Pkg.sync_setSession (p : Pkg) (k j : Nat) (v : Session) : (p.setSession k v).sync j = p.sync j := rfl
@[simp] theorem Pkg.sumpEng_setSession (p : Pkg) (k j : Nat) (v : Session) : (p.setSession k v).sumpEng j = p.sumpEng j := rfl
@[simp] theorem Pkg.port_setSession (p : Pkg) (k j : Nat) (v : Session) : (p.setSession k v).port j = p.port j := rfl
@[simp] theorem Pkg.die_setSession (p : Pkg) (k j : Nat) (v : Session) : (p.setSession k v).die j = p.die j := rfl
@[simp] theorem Pkg.stack_setSession (p : Pkg) (k j : Nat) (v : Session) : (p.setSession k v).stack j = p.stack j := rfl
@[simp] theorem Pkg.memDie_setSession (p : Pkg) (k j : Nat) (v : Session) : (p.setSession k v).memDie j = p.memDie j := rfl
@[simp] theorem Pkg.ctx_setSession (p : Pkg) (k j : Nat) (v : Session) : (p.setSession k v).ctx j = p.ctx j := rfl
@[simp] theorem Pkg.session_setSession (p : Pkg) (k j : Nat) (v : Session) : (p.setSession k v).session j = if j = k then v else p.session j := by
  simp [Pkg.session, Pkg.setSession, tabGet_tabSet]
@[simp] theorem Pkg.dlWin_setSession (p : Pkg) (k j : Nat) (v : Session) : (p.setSession k v).dlWin j = p.dlWin j := rfl
@[simp] theorem Pkg.now_setSession (p : Pkg) (k : Nat) (v : Session) : (p.setSession k v).now = p.now := rfl
@[simp] theorem Pkg.free_setSession (p : Pkg) (k : Nat) (v : Session) : (p.setSession k v).free = p.free := rfl
@[simp] theorem Pkg.mem_setSession (p : Pkg) (k : Nat) (v : Session) : (p.setSession k v).mem = p.mem := rfl
@[simp] theorem Pkg.poison_setSession (p : Pkg) (k : Nat) (v : Session) : (p.setSession k v).poison = p.poison := rfl
@[simp] theorem Pkg.tagBad_setSession (p : Pkg) (k : Nat) (v : Session) : (p.setSession k v).tagBad = p.tagBad := rfl
@[simp] theorem Pkg.dirtyPg_setSession (p : Pkg) (k : Nat) (v : Session) : (p.setSession k v).dirtyPg = p.dirtyPg := rfl
@[simp] theorem Pkg.flags_setSession (p : Pkg) (k : Nat) (v : Session) : (p.setSession k v).flags = p.flags := rfl
@[simp] theorem Pkg.ctrs_setSession (p : Pkg) (k : Nat) (v : Session) : (p.setSession k v).ctrs = p.ctrs := rfl
@[simp] theorem Pkg.pkgState_setSession (p : Pkg) (k : Nat) (v : Session) : (p.setSession k v).pkgState = p.pkgState := rfl
@[simp] theorem Pkg.pkgEntered_setSession (p : Pkg) (k : Nat) (v : Session) : (p.setSession k v).pkgEntered = p.pkgEntered := rfl
@[simp] theorem Pkg.authNs_setSession (p : Pkg) (k : Nat) (v : Session) : (p.setSession k v).authNs = p.authNs := rfl
@[simp] theorem Pkg.dlRecs_setSession (p : Pkg) (k : Nat) (v : Session) : (p.setSession k v).dlRecs = p.dlRecs := rfl
@[simp] theorem Pkg.waiters_setSession (p : Pkg) (k : Nat) (v : Session) : (p.setSession k v).waiters = p.waiters := rfl
@[simp] theorem Pkg.fabAddr_setSession (p : Pkg) (k : Nat) (v : Session) : (p.setSession k v).fabAddr = p.fabAddr := rfl
@[simp] theorem Pkg.epoch_setSession (p : Pkg) (k : Nat) (v : Session) : (p.setSession k v).epoch = p.epoch := rfl
@[simp] theorem Pkg.planHash_setSession (p : Pkg) (k : Nat) (v : Session) : (p.setSession k v).planHash = p.planHash := rfl
@[simp] theorem Pkg.topoSet_setSession (p : Pkg) (k : Nat) (v : Session) : (p.setSession k v).topoSet = p.topoSet := rfl
@[simp] theorem Pkg.degraded_setSession (p : Pkg) (k : Nat) (v : Session) : (p.setSession k v).degraded = p.degraded := rfl
@[simp] theorem Pkg.respLimit_setSession (p : Pkg) (k : Nat) (v : Session) : (p.setSession k v).respLimit = p.respLimit := rfl
@[simp] theorem Pkg.routes_setSession (p : Pkg) (k : Nat) (v : Session) : (p.setSession k v).routes = p.routes := rfl
@[simp] theorem Pkg.inbox_setSession (p : Pkg) (k : Nat) (v : Session) : (p.setSession k v).inbox = p.inbox := rfl
@[simp] theorem Pkg.transitQ_setSession (p : Pkg) (k : Nat) (v : Session) : (p.setSession k v).transitQ = p.transitQ := rfl
@[simp] theorem Pkg.reqs_setSession (p : Pkg) (k : Nat) (v : Session) : (p.setSession k v).reqs = p.reqs := rfl
@[simp] theorem Pkg.nextTag_setSession (p : Pkg) (k : Nat) (v : Session) : (p.setSession k v).nextTag = p.nextTag := rfl
@[simp] theorem Pkg.regions_setSession (p : Pkg) (k : Nat) (v : Session) : (p.setSession k v).regions = p.regions := rfl
@[simp] theorem Pkg.seam_setSession (p : Pkg) (k : Nat) (v : Session) : (p.setSession k v).seam = p.seam := rfl
@[simp] theorem Pkg.seamTab_setSession (p : Pkg) (k : Nat) (v : Session) : (p.setSession k v).seamTab = p.seamTab := rfl
@[simp] theorem Pkg.admittedBy_setSession (p : Pkg) (k : Nat) (v : Session) : (p.setSession k v).admittedBy = p.admittedBy := rfl
@[simp] theorem Pkg.dramLost_setSession (p : Pkg) (k : Nat) (v : Session) : (p.setSession k v).dramLost = p.dramLost := rfl
@[simp] theorem Pkg.swapHold_setSession (p : Pkg) (k : Nat) (v : Session) : (p.setSession k v).swapHold = p.swapHold := rfl
@[simp] theorem Pkg.secure_setSession (p : Pkg) (k : Nat) (v : Session) : (p.setSession k v).secure = p.secure := rfl
@[simp] theorem Pkg.undecided_setSession (p : Pkg) (k : Nat) (v : Session) : (p.setSession k v).undecided = p.undecided := rfl
@[simp] theorem Pkg.events_setSession (p : Pkg) (k : Nat) (v : Session) : (p.setSession k v).events = p.events := rfl
@[simp] theorem Pkg.eventIdx_setSession (p : Pkg) (k : Nat) (v : Session) : (p.setSession k v).eventIdx = p.eventIdx := rfl
@[simp] theorem Pkg.eventLost_setSession (p : Pkg) (k : Nat) (v : Session) : (p.setSession k v).eventLost = p.eventLost := rfl
@[simp] theorem Pkg.holdover_setSession (p : Pkg) (k : Nat) (v : Session) : (p.setSession k v).holdover = p.holdover := rfl
@[simp] theorem Pkg.refEthLost_setSession (p : Pkg) (k : Nat) (v : Session) : (p.setSession k v).refEthLost = p.refEthLost := rfl
@[simp] theorem Pkg.clkStop_setSession (p : Pkg) (k : Nat) (v : Session) : (p.setSession k v).clkStop = p.clkStop := rfl
@[simp] theorem Pkg.clkLost_setSession (p : Pkg) (k : Nat) (v : Session) : (p.setSession k v).clkLost = p.clkLost := rfl
@[simp] theorem Pkg.aHStep_setSession (p : Pkg) (k : Nat) (v : Session) : (p.setSession k v).aHStep = p.aHStep := rfl
@[simp] theorem Pkg.lnkLost_setSession (p : Pkg) (k : Nat) (v : Session) : (p.setSession k v).lnkLost = p.lnkLost := rfl
@[simp] theorem Pkg.eth_setSession (p : Pkg) (k : Nat) (v : Session) : (p.setSession k v).eth = p.eth := rfl
@[simp] theorem Pkg.pwr_setSession (p : Pkg) (k : Nat) (v : Session) : (p.setSession k v).pwr = p.pwr := rfl
@[simp] theorem Pkg.ident_setSession (p : Pkg) (k : Nat) (v : Session) : (p.setSession k v).ident = p.ident := rfl
@[simp] theorem Pkg.tap_setSession (p : Pkg) (k : Nat) (v : Session) : (p.setSession k v).tap = p.tap := rfl
@[simp] theorem Pkg.out_setSession (p : Pkg) (k : Nat) (v : Session) : (p.setSession k v).out = p.out := rfl

/-! ## DlWin -/

@[simp] theorem Pkg.modDlWin_eq (p : Pkg) (k : Nat) (f : DlWin → DlWin) : p.modDlWin k f = p.setDlWin k (f (p.dlWin k)) := rfl
@[simp] theorem Pkg.thr_setDlWin (p : Pkg) (k j : Nat) (v : DlWin) : (p.setDlWin k v).thr j = p.thr j := rfl
@[simp] theorem Pkg.core_setDlWin (p : Pkg) (k j : Nat) (v : DlWin) : (p.setDlWin k v).core j = p.core j := rfl
@[simp] theorem Pkg.slot_setDlWin (p : Pkg) (k j : Nat) (v : DlWin) : (p.setDlWin k v).slot j = p.slot j := rfl
@[simp] theorem Pkg.sync_setDlWin (p : Pkg) (k j : Nat) (v : DlWin) : (p.setDlWin k v).sync j = p.sync j := rfl
@[simp] theorem Pkg.sumpEng_setDlWin (p : Pkg) (k j : Nat) (v : DlWin) : (p.setDlWin k v).sumpEng j = p.sumpEng j := rfl
@[simp] theorem Pkg.port_setDlWin (p : Pkg) (k j : Nat) (v : DlWin) : (p.setDlWin k v).port j = p.port j := rfl
@[simp] theorem Pkg.die_setDlWin (p : Pkg) (k j : Nat) (v : DlWin) : (p.setDlWin k v).die j = p.die j := rfl
@[simp] theorem Pkg.stack_setDlWin (p : Pkg) (k j : Nat) (v : DlWin) : (p.setDlWin k v).stack j = p.stack j := rfl
@[simp] theorem Pkg.memDie_setDlWin (p : Pkg) (k j : Nat) (v : DlWin) : (p.setDlWin k v).memDie j = p.memDie j := rfl
@[simp] theorem Pkg.ctx_setDlWin (p : Pkg) (k j : Nat) (v : DlWin) : (p.setDlWin k v).ctx j = p.ctx j := rfl
@[simp] theorem Pkg.session_setDlWin (p : Pkg) (k j : Nat) (v : DlWin) : (p.setDlWin k v).session j = p.session j := rfl
@[simp] theorem Pkg.dlWin_setDlWin (p : Pkg) (k j : Nat) (v : DlWin) : (p.setDlWin k v).dlWin j = if j = k then v else p.dlWin j := by
  simp [Pkg.dlWin, Pkg.setDlWin, tabGet_tabSet]
@[simp] theorem Pkg.now_setDlWin (p : Pkg) (k : Nat) (v : DlWin) : (p.setDlWin k v).now = p.now := rfl
@[simp] theorem Pkg.free_setDlWin (p : Pkg) (k : Nat) (v : DlWin) : (p.setDlWin k v).free = p.free := rfl
@[simp] theorem Pkg.mem_setDlWin (p : Pkg) (k : Nat) (v : DlWin) : (p.setDlWin k v).mem = p.mem := rfl
@[simp] theorem Pkg.poison_setDlWin (p : Pkg) (k : Nat) (v : DlWin) : (p.setDlWin k v).poison = p.poison := rfl
@[simp] theorem Pkg.tagBad_setDlWin (p : Pkg) (k : Nat) (v : DlWin) : (p.setDlWin k v).tagBad = p.tagBad := rfl
@[simp] theorem Pkg.dirtyPg_setDlWin (p : Pkg) (k : Nat) (v : DlWin) : (p.setDlWin k v).dirtyPg = p.dirtyPg := rfl
@[simp] theorem Pkg.flags_setDlWin (p : Pkg) (k : Nat) (v : DlWin) : (p.setDlWin k v).flags = p.flags := rfl
@[simp] theorem Pkg.ctrs_setDlWin (p : Pkg) (k : Nat) (v : DlWin) : (p.setDlWin k v).ctrs = p.ctrs := rfl
@[simp] theorem Pkg.pkgState_setDlWin (p : Pkg) (k : Nat) (v : DlWin) : (p.setDlWin k v).pkgState = p.pkgState := rfl
@[simp] theorem Pkg.pkgEntered_setDlWin (p : Pkg) (k : Nat) (v : DlWin) : (p.setDlWin k v).pkgEntered = p.pkgEntered := rfl
@[simp] theorem Pkg.authNs_setDlWin (p : Pkg) (k : Nat) (v : DlWin) : (p.setDlWin k v).authNs = p.authNs := rfl
@[simp] theorem Pkg.dlRecs_setDlWin (p : Pkg) (k : Nat) (v : DlWin) : (p.setDlWin k v).dlRecs = p.dlRecs := rfl
@[simp] theorem Pkg.waiters_setDlWin (p : Pkg) (k : Nat) (v : DlWin) : (p.setDlWin k v).waiters = p.waiters := rfl
@[simp] theorem Pkg.fabAddr_setDlWin (p : Pkg) (k : Nat) (v : DlWin) : (p.setDlWin k v).fabAddr = p.fabAddr := rfl
@[simp] theorem Pkg.epoch_setDlWin (p : Pkg) (k : Nat) (v : DlWin) : (p.setDlWin k v).epoch = p.epoch := rfl
@[simp] theorem Pkg.planHash_setDlWin (p : Pkg) (k : Nat) (v : DlWin) : (p.setDlWin k v).planHash = p.planHash := rfl
@[simp] theorem Pkg.topoSet_setDlWin (p : Pkg) (k : Nat) (v : DlWin) : (p.setDlWin k v).topoSet = p.topoSet := rfl
@[simp] theorem Pkg.degraded_setDlWin (p : Pkg) (k : Nat) (v : DlWin) : (p.setDlWin k v).degraded = p.degraded := rfl
@[simp] theorem Pkg.respLimit_setDlWin (p : Pkg) (k : Nat) (v : DlWin) : (p.setDlWin k v).respLimit = p.respLimit := rfl
@[simp] theorem Pkg.routes_setDlWin (p : Pkg) (k : Nat) (v : DlWin) : (p.setDlWin k v).routes = p.routes := rfl
@[simp] theorem Pkg.inbox_setDlWin (p : Pkg) (k : Nat) (v : DlWin) : (p.setDlWin k v).inbox = p.inbox := rfl
@[simp] theorem Pkg.transitQ_setDlWin (p : Pkg) (k : Nat) (v : DlWin) : (p.setDlWin k v).transitQ = p.transitQ := rfl
@[simp] theorem Pkg.reqs_setDlWin (p : Pkg) (k : Nat) (v : DlWin) : (p.setDlWin k v).reqs = p.reqs := rfl
@[simp] theorem Pkg.nextTag_setDlWin (p : Pkg) (k : Nat) (v : DlWin) : (p.setDlWin k v).nextTag = p.nextTag := rfl
@[simp] theorem Pkg.regions_setDlWin (p : Pkg) (k : Nat) (v : DlWin) : (p.setDlWin k v).regions = p.regions := rfl
@[simp] theorem Pkg.seam_setDlWin (p : Pkg) (k : Nat) (v : DlWin) : (p.setDlWin k v).seam = p.seam := rfl
@[simp] theorem Pkg.seamTab_setDlWin (p : Pkg) (k : Nat) (v : DlWin) : (p.setDlWin k v).seamTab = p.seamTab := rfl
@[simp] theorem Pkg.admittedBy_setDlWin (p : Pkg) (k : Nat) (v : DlWin) : (p.setDlWin k v).admittedBy = p.admittedBy := rfl
@[simp] theorem Pkg.dramLost_setDlWin (p : Pkg) (k : Nat) (v : DlWin) : (p.setDlWin k v).dramLost = p.dramLost := rfl
@[simp] theorem Pkg.swapHold_setDlWin (p : Pkg) (k : Nat) (v : DlWin) : (p.setDlWin k v).swapHold = p.swapHold := rfl
@[simp] theorem Pkg.secure_setDlWin (p : Pkg) (k : Nat) (v : DlWin) : (p.setDlWin k v).secure = p.secure := rfl
@[simp] theorem Pkg.undecided_setDlWin (p : Pkg) (k : Nat) (v : DlWin) : (p.setDlWin k v).undecided = p.undecided := rfl
@[simp] theorem Pkg.events_setDlWin (p : Pkg) (k : Nat) (v : DlWin) : (p.setDlWin k v).events = p.events := rfl
@[simp] theorem Pkg.eventIdx_setDlWin (p : Pkg) (k : Nat) (v : DlWin) : (p.setDlWin k v).eventIdx = p.eventIdx := rfl
@[simp] theorem Pkg.eventLost_setDlWin (p : Pkg) (k : Nat) (v : DlWin) : (p.setDlWin k v).eventLost = p.eventLost := rfl
@[simp] theorem Pkg.holdover_setDlWin (p : Pkg) (k : Nat) (v : DlWin) : (p.setDlWin k v).holdover = p.holdover := rfl
@[simp] theorem Pkg.refEthLost_setDlWin (p : Pkg) (k : Nat) (v : DlWin) : (p.setDlWin k v).refEthLost = p.refEthLost := rfl
@[simp] theorem Pkg.clkStop_setDlWin (p : Pkg) (k : Nat) (v : DlWin) : (p.setDlWin k v).clkStop = p.clkStop := rfl
@[simp] theorem Pkg.clkLost_setDlWin (p : Pkg) (k : Nat) (v : DlWin) : (p.setDlWin k v).clkLost = p.clkLost := rfl
@[simp] theorem Pkg.aHStep_setDlWin (p : Pkg) (k : Nat) (v : DlWin) : (p.setDlWin k v).aHStep = p.aHStep := rfl
@[simp] theorem Pkg.lnkLost_setDlWin (p : Pkg) (k : Nat) (v : DlWin) : (p.setDlWin k v).lnkLost = p.lnkLost := rfl
@[simp] theorem Pkg.eth_setDlWin (p : Pkg) (k : Nat) (v : DlWin) : (p.setDlWin k v).eth = p.eth := rfl
@[simp] theorem Pkg.pwr_setDlWin (p : Pkg) (k : Nat) (v : DlWin) : (p.setDlWin k v).pwr = p.pwr := rfl
@[simp] theorem Pkg.ident_setDlWin (p : Pkg) (k : Nat) (v : DlWin) : (p.setDlWin k v).ident = p.ident := rfl
@[simp] theorem Pkg.tap_setDlWin (p : Pkg) (k : Nat) (v : DlWin) : (p.setDlWin k v).tap = p.tap := rfl
@[simp] theorem Pkg.out_setDlWin (p : Pkg) (k : Nat) (v : DlWin) : (p.setDlWin k v).out = p.out := rfl

/-! ## What leaves, counters and free values -/

@[simp] theorem Pkg.thr_emit (p : Pkg) (o : Out) (j : Nat) : (p.emit o).thr j = p.thr j := rfl
@[simp] theorem Pkg.core_emit (p : Pkg) (o : Out) (j : Nat) : (p.emit o).core j = p.core j := rfl
@[simp] theorem Pkg.slot_emit (p : Pkg) (o : Out) (j : Nat) : (p.emit o).slot j = p.slot j := rfl
@[simp] theorem Pkg.sync_emit (p : Pkg) (o : Out) (j : Nat) : (p.emit o).sync j = p.sync j := rfl
@[simp] theorem Pkg.sumpEng_emit (p : Pkg) (o : Out) (j : Nat) : (p.emit o).sumpEng j = p.sumpEng j := rfl
@[simp] theorem Pkg.port_emit (p : Pkg) (o : Out) (j : Nat) : (p.emit o).port j = p.port j := rfl
@[simp] theorem Pkg.die_emit (p : Pkg) (o : Out) (j : Nat) : (p.emit o).die j = p.die j := rfl
@[simp] theorem Pkg.stack_emit (p : Pkg) (o : Out) (j : Nat) : (p.emit o).stack j = p.stack j := rfl
@[simp] theorem Pkg.memDie_emit (p : Pkg) (o : Out) (j : Nat) : (p.emit o).memDie j = p.memDie j := rfl
@[simp] theorem Pkg.ctx_emit (p : Pkg) (o : Out) (j : Nat) : (p.emit o).ctx j = p.ctx j := rfl
@[simp] theorem Pkg.session_emit (p : Pkg) (o : Out) (j : Nat) : (p.emit o).session j = p.session j := rfl
@[simp] theorem Pkg.dlWin_emit (p : Pkg) (o : Out) (j : Nat) : (p.emit o).dlWin j = p.dlWin j := rfl
@[simp] theorem Pkg.now_emit (p : Pkg) (o : Out) : (p.emit o).now = p.now := rfl
@[simp] theorem Pkg.free_emit (p : Pkg) (o : Out) : (p.emit o).free = p.free := rfl
@[simp] theorem Pkg.mem_emit (p : Pkg) (o : Out) : (p.emit o).mem = p.mem := rfl
@[simp] theorem Pkg.poison_emit (p : Pkg) (o : Out) : (p.emit o).poison = p.poison := rfl
@[simp] theorem Pkg.tagBad_emit (p : Pkg) (o : Out) : (p.emit o).tagBad = p.tagBad := rfl
@[simp] theorem Pkg.dirtyPg_emit (p : Pkg) (o : Out) : (p.emit o).dirtyPg = p.dirtyPg := rfl
@[simp] theorem Pkg.flags_emit (p : Pkg) (o : Out) : (p.emit o).flags = p.flags := rfl
@[simp] theorem Pkg.ctrs_emit (p : Pkg) (o : Out) : (p.emit o).ctrs = p.ctrs := rfl
@[simp] theorem Pkg.pkgState_emit (p : Pkg) (o : Out) : (p.emit o).pkgState = p.pkgState := rfl
@[simp] theorem Pkg.pkgEntered_emit (p : Pkg) (o : Out) : (p.emit o).pkgEntered = p.pkgEntered := rfl
@[simp] theorem Pkg.authNs_emit (p : Pkg) (o : Out) : (p.emit o).authNs = p.authNs := rfl
@[simp] theorem Pkg.dlRecs_emit (p : Pkg) (o : Out) : (p.emit o).dlRecs = p.dlRecs := rfl
@[simp] theorem Pkg.waiters_emit (p : Pkg) (o : Out) : (p.emit o).waiters = p.waiters := rfl
@[simp] theorem Pkg.fabAddr_emit (p : Pkg) (o : Out) : (p.emit o).fabAddr = p.fabAddr := rfl
@[simp] theorem Pkg.epoch_emit (p : Pkg) (o : Out) : (p.emit o).epoch = p.epoch := rfl
@[simp] theorem Pkg.planHash_emit (p : Pkg) (o : Out) : (p.emit o).planHash = p.planHash := rfl
@[simp] theorem Pkg.topoSet_emit (p : Pkg) (o : Out) : (p.emit o).topoSet = p.topoSet := rfl
@[simp] theorem Pkg.degraded_emit (p : Pkg) (o : Out) : (p.emit o).degraded = p.degraded := rfl
@[simp] theorem Pkg.respLimit_emit (p : Pkg) (o : Out) : (p.emit o).respLimit = p.respLimit := rfl
@[simp] theorem Pkg.routes_emit (p : Pkg) (o : Out) : (p.emit o).routes = p.routes := rfl
@[simp] theorem Pkg.inbox_emit (p : Pkg) (o : Out) : (p.emit o).inbox = p.inbox := rfl
@[simp] theorem Pkg.transitQ_emit (p : Pkg) (o : Out) : (p.emit o).transitQ = p.transitQ := rfl
@[simp] theorem Pkg.reqs_emit (p : Pkg) (o : Out) : (p.emit o).reqs = p.reqs := rfl
@[simp] theorem Pkg.nextTag_emit (p : Pkg) (o : Out) : (p.emit o).nextTag = p.nextTag := rfl
@[simp] theorem Pkg.regions_emit (p : Pkg) (o : Out) : (p.emit o).regions = p.regions := rfl
@[simp] theorem Pkg.seam_emit (p : Pkg) (o : Out) : (p.emit o).seam = p.seam := rfl
@[simp] theorem Pkg.seamTab_emit (p : Pkg) (o : Out) : (p.emit o).seamTab = p.seamTab := rfl
@[simp] theorem Pkg.admittedBy_emit (p : Pkg) (o : Out) : (p.emit o).admittedBy = p.admittedBy := rfl
@[simp] theorem Pkg.dramLost_emit (p : Pkg) (o : Out) : (p.emit o).dramLost = p.dramLost := rfl
@[simp] theorem Pkg.swapHold_emit (p : Pkg) (o : Out) : (p.emit o).swapHold = p.swapHold := rfl
@[simp] theorem Pkg.secure_emit (p : Pkg) (o : Out) : (p.emit o).secure = p.secure := rfl
@[simp] theorem Pkg.undecided_emit (p : Pkg) (o : Out) : (p.emit o).undecided = p.undecided := rfl
@[simp] theorem Pkg.events_emit (p : Pkg) (o : Out) : (p.emit o).events = p.events := rfl
@[simp] theorem Pkg.eventIdx_emit (p : Pkg) (o : Out) : (p.emit o).eventIdx = p.eventIdx := rfl
@[simp] theorem Pkg.eventLost_emit (p : Pkg) (o : Out) : (p.emit o).eventLost = p.eventLost := rfl
@[simp] theorem Pkg.holdover_emit (p : Pkg) (o : Out) : (p.emit o).holdover = p.holdover := rfl
@[simp] theorem Pkg.refEthLost_emit (p : Pkg) (o : Out) : (p.emit o).refEthLost = p.refEthLost := rfl
@[simp] theorem Pkg.clkStop_emit (p : Pkg) (o : Out) : (p.emit o).clkStop = p.clkStop := rfl
@[simp] theorem Pkg.clkLost_emit (p : Pkg) (o : Out) : (p.emit o).clkLost = p.clkLost := rfl
@[simp] theorem Pkg.aHStep_emit (p : Pkg) (o : Out) : (p.emit o).aHStep = p.aHStep := rfl
@[simp] theorem Pkg.lnkLost_emit (p : Pkg) (o : Out) : (p.emit o).lnkLost = p.lnkLost := rfl
@[simp] theorem Pkg.eth_emit (p : Pkg) (o : Out) : (p.emit o).eth = p.eth := rfl
@[simp] theorem Pkg.pwr_emit (p : Pkg) (o : Out) : (p.emit o).pwr = p.pwr := rfl
@[simp] theorem Pkg.ident_emit (p : Pkg) (o : Out) : (p.emit o).ident = p.ident := rfl
@[simp] theorem Pkg.tap_emit (p : Pkg) (o : Out) : (p.emit o).tap = p.tap := rfl
@[simp] theorem Pkg.thr_bump (p : Pkg) (c : Ctr) (i : Nat) (j : Nat) : (p.bump c i).thr j = p.thr j := rfl
@[simp] theorem Pkg.core_bump (p : Pkg) (c : Ctr) (i : Nat) (j : Nat) : (p.bump c i).core j = p.core j := rfl
@[simp] theorem Pkg.slot_bump (p : Pkg) (c : Ctr) (i : Nat) (j : Nat) : (p.bump c i).slot j = p.slot j := rfl
@[simp] theorem Pkg.sync_bump (p : Pkg) (c : Ctr) (i : Nat) (j : Nat) : (p.bump c i).sync j = p.sync j := rfl
@[simp] theorem Pkg.sumpEng_bump (p : Pkg) (c : Ctr) (i : Nat) (j : Nat) : (p.bump c i).sumpEng j = p.sumpEng j := rfl
@[simp] theorem Pkg.port_bump (p : Pkg) (c : Ctr) (i : Nat) (j : Nat) : (p.bump c i).port j = p.port j := rfl
@[simp] theorem Pkg.die_bump (p : Pkg) (c : Ctr) (i : Nat) (j : Nat) : (p.bump c i).die j = p.die j := rfl
@[simp] theorem Pkg.stack_bump (p : Pkg) (c : Ctr) (i : Nat) (j : Nat) : (p.bump c i).stack j = p.stack j := rfl
@[simp] theorem Pkg.memDie_bump (p : Pkg) (c : Ctr) (i : Nat) (j : Nat) : (p.bump c i).memDie j = p.memDie j := rfl
@[simp] theorem Pkg.ctx_bump (p : Pkg) (c : Ctr) (i : Nat) (j : Nat) : (p.bump c i).ctx j = p.ctx j := rfl
@[simp] theorem Pkg.session_bump (p : Pkg) (c : Ctr) (i : Nat) (j : Nat) : (p.bump c i).session j = p.session j := rfl
@[simp] theorem Pkg.dlWin_bump (p : Pkg) (c : Ctr) (i : Nat) (j : Nat) : (p.bump c i).dlWin j = p.dlWin j := rfl
@[simp] theorem Pkg.now_bump (p : Pkg) (c : Ctr) (i : Nat) : (p.bump c i).now = p.now := rfl
@[simp] theorem Pkg.free_bump (p : Pkg) (c : Ctr) (i : Nat) : (p.bump c i).free = p.free := rfl
@[simp] theorem Pkg.mem_bump (p : Pkg) (c : Ctr) (i : Nat) : (p.bump c i).mem = p.mem := rfl
@[simp] theorem Pkg.poison_bump (p : Pkg) (c : Ctr) (i : Nat) : (p.bump c i).poison = p.poison := rfl
@[simp] theorem Pkg.tagBad_bump (p : Pkg) (c : Ctr) (i : Nat) : (p.bump c i).tagBad = p.tagBad := rfl
@[simp] theorem Pkg.dirtyPg_bump (p : Pkg) (c : Ctr) (i : Nat) : (p.bump c i).dirtyPg = p.dirtyPg := rfl
@[simp] theorem Pkg.flags_bump (p : Pkg) (c : Ctr) (i : Nat) : (p.bump c i).flags = p.flags := rfl
@[simp] theorem Pkg.pkgState_bump (p : Pkg) (c : Ctr) (i : Nat) : (p.bump c i).pkgState = p.pkgState := rfl
@[simp] theorem Pkg.pkgEntered_bump (p : Pkg) (c : Ctr) (i : Nat) : (p.bump c i).pkgEntered = p.pkgEntered := rfl
@[simp] theorem Pkg.authNs_bump (p : Pkg) (c : Ctr) (i : Nat) : (p.bump c i).authNs = p.authNs := rfl
@[simp] theorem Pkg.dlRecs_bump (p : Pkg) (c : Ctr) (i : Nat) : (p.bump c i).dlRecs = p.dlRecs := rfl
@[simp] theorem Pkg.waiters_bump (p : Pkg) (c : Ctr) (i : Nat) : (p.bump c i).waiters = p.waiters := rfl
@[simp] theorem Pkg.fabAddr_bump (p : Pkg) (c : Ctr) (i : Nat) : (p.bump c i).fabAddr = p.fabAddr := rfl
@[simp] theorem Pkg.epoch_bump (p : Pkg) (c : Ctr) (i : Nat) : (p.bump c i).epoch = p.epoch := rfl
@[simp] theorem Pkg.planHash_bump (p : Pkg) (c : Ctr) (i : Nat) : (p.bump c i).planHash = p.planHash := rfl
@[simp] theorem Pkg.topoSet_bump (p : Pkg) (c : Ctr) (i : Nat) : (p.bump c i).topoSet = p.topoSet := rfl
@[simp] theorem Pkg.degraded_bump (p : Pkg) (c : Ctr) (i : Nat) : (p.bump c i).degraded = p.degraded := rfl
@[simp] theorem Pkg.respLimit_bump (p : Pkg) (c : Ctr) (i : Nat) : (p.bump c i).respLimit = p.respLimit := rfl
@[simp] theorem Pkg.routes_bump (p : Pkg) (c : Ctr) (i : Nat) : (p.bump c i).routes = p.routes := rfl
@[simp] theorem Pkg.inbox_bump (p : Pkg) (c : Ctr) (i : Nat) : (p.bump c i).inbox = p.inbox := rfl
@[simp] theorem Pkg.transitQ_bump (p : Pkg) (c : Ctr) (i : Nat) : (p.bump c i).transitQ = p.transitQ := rfl
@[simp] theorem Pkg.reqs_bump (p : Pkg) (c : Ctr) (i : Nat) : (p.bump c i).reqs = p.reqs := rfl
@[simp] theorem Pkg.nextTag_bump (p : Pkg) (c : Ctr) (i : Nat) : (p.bump c i).nextTag = p.nextTag := rfl
@[simp] theorem Pkg.regions_bump (p : Pkg) (c : Ctr) (i : Nat) : (p.bump c i).regions = p.regions := rfl
@[simp] theorem Pkg.seam_bump (p : Pkg) (c : Ctr) (i : Nat) : (p.bump c i).seam = p.seam := rfl
@[simp] theorem Pkg.seamTab_bump (p : Pkg) (c : Ctr) (i : Nat) : (p.bump c i).seamTab = p.seamTab := rfl
@[simp] theorem Pkg.admittedBy_bump (p : Pkg) (c : Ctr) (i : Nat) : (p.bump c i).admittedBy = p.admittedBy := rfl
@[simp] theorem Pkg.dramLost_bump (p : Pkg) (c : Ctr) (i : Nat) : (p.bump c i).dramLost = p.dramLost := rfl
@[simp] theorem Pkg.swapHold_bump (p : Pkg) (c : Ctr) (i : Nat) : (p.bump c i).swapHold = p.swapHold := rfl
@[simp] theorem Pkg.secure_bump (p : Pkg) (c : Ctr) (i : Nat) : (p.bump c i).secure = p.secure := rfl
@[simp] theorem Pkg.undecided_bump (p : Pkg) (c : Ctr) (i : Nat) : (p.bump c i).undecided = p.undecided := rfl
@[simp] theorem Pkg.events_bump (p : Pkg) (c : Ctr) (i : Nat) : (p.bump c i).events = p.events := rfl
@[simp] theorem Pkg.eventIdx_bump (p : Pkg) (c : Ctr) (i : Nat) : (p.bump c i).eventIdx = p.eventIdx := rfl
@[simp] theorem Pkg.eventLost_bump (p : Pkg) (c : Ctr) (i : Nat) : (p.bump c i).eventLost = p.eventLost := rfl
@[simp] theorem Pkg.holdover_bump (p : Pkg) (c : Ctr) (i : Nat) : (p.bump c i).holdover = p.holdover := rfl
@[simp] theorem Pkg.refEthLost_bump (p : Pkg) (c : Ctr) (i : Nat) : (p.bump c i).refEthLost = p.refEthLost := rfl
@[simp] theorem Pkg.clkStop_bump (p : Pkg) (c : Ctr) (i : Nat) : (p.bump c i).clkStop = p.clkStop := rfl
@[simp] theorem Pkg.clkLost_bump (p : Pkg) (c : Ctr) (i : Nat) : (p.bump c i).clkLost = p.clkLost := rfl
@[simp] theorem Pkg.aHStep_bump (p : Pkg) (c : Ctr) (i : Nat) : (p.bump c i).aHStep = p.aHStep := rfl
@[simp] theorem Pkg.lnkLost_bump (p : Pkg) (c : Ctr) (i : Nat) : (p.bump c i).lnkLost = p.lnkLost := rfl
@[simp] theorem Pkg.eth_bump (p : Pkg) (c : Ctr) (i : Nat) : (p.bump c i).eth = p.eth := rfl
@[simp] theorem Pkg.pwr_bump (p : Pkg) (c : Ctr) (i : Nat) : (p.bump c i).pwr = p.pwr := rfl
@[simp] theorem Pkg.ident_bump (p : Pkg) (c : Ctr) (i : Nat) : (p.bump c i).ident = p.ident := rfl
@[simp] theorem Pkg.tap_bump (p : Pkg) (c : Ctr) (i : Nat) : (p.bump c i).tap = p.tap := rfl
@[simp] theorem Pkg.out_bump (p : Pkg) (c : Ctr) (i : Nat) : (p.bump c i).out = p.out := rfl
@[simp] theorem Pkg.thr_addCtr (p : Pkg) (c : Ctr) (i n : Nat) (j : Nat) : (p.addCtr c i n).thr j = p.thr j := rfl
@[simp] theorem Pkg.core_addCtr (p : Pkg) (c : Ctr) (i n : Nat) (j : Nat) : (p.addCtr c i n).core j = p.core j := rfl
@[simp] theorem Pkg.slot_addCtr (p : Pkg) (c : Ctr) (i n : Nat) (j : Nat) : (p.addCtr c i n).slot j = p.slot j := rfl
@[simp] theorem Pkg.sync_addCtr (p : Pkg) (c : Ctr) (i n : Nat) (j : Nat) : (p.addCtr c i n).sync j = p.sync j := rfl
@[simp] theorem Pkg.sumpEng_addCtr (p : Pkg) (c : Ctr) (i n : Nat) (j : Nat) : (p.addCtr c i n).sumpEng j = p.sumpEng j := rfl
@[simp] theorem Pkg.port_addCtr (p : Pkg) (c : Ctr) (i n : Nat) (j : Nat) : (p.addCtr c i n).port j = p.port j := rfl
@[simp] theorem Pkg.die_addCtr (p : Pkg) (c : Ctr) (i n : Nat) (j : Nat) : (p.addCtr c i n).die j = p.die j := rfl
@[simp] theorem Pkg.stack_addCtr (p : Pkg) (c : Ctr) (i n : Nat) (j : Nat) : (p.addCtr c i n).stack j = p.stack j := rfl
@[simp] theorem Pkg.memDie_addCtr (p : Pkg) (c : Ctr) (i n : Nat) (j : Nat) : (p.addCtr c i n).memDie j = p.memDie j := rfl
@[simp] theorem Pkg.ctx_addCtr (p : Pkg) (c : Ctr) (i n : Nat) (j : Nat) : (p.addCtr c i n).ctx j = p.ctx j := rfl
@[simp] theorem Pkg.session_addCtr (p : Pkg) (c : Ctr) (i n : Nat) (j : Nat) : (p.addCtr c i n).session j = p.session j := rfl
@[simp] theorem Pkg.dlWin_addCtr (p : Pkg) (c : Ctr) (i n : Nat) (j : Nat) : (p.addCtr c i n).dlWin j = p.dlWin j := rfl
@[simp] theorem Pkg.now_addCtr (p : Pkg) (c : Ctr) (i n : Nat) : (p.addCtr c i n).now = p.now := rfl
@[simp] theorem Pkg.free_addCtr (p : Pkg) (c : Ctr) (i n : Nat) : (p.addCtr c i n).free = p.free := rfl
@[simp] theorem Pkg.mem_addCtr (p : Pkg) (c : Ctr) (i n : Nat) : (p.addCtr c i n).mem = p.mem := rfl
@[simp] theorem Pkg.poison_addCtr (p : Pkg) (c : Ctr) (i n : Nat) : (p.addCtr c i n).poison = p.poison := rfl
@[simp] theorem Pkg.tagBad_addCtr (p : Pkg) (c : Ctr) (i n : Nat) : (p.addCtr c i n).tagBad = p.tagBad := rfl
@[simp] theorem Pkg.dirtyPg_addCtr (p : Pkg) (c : Ctr) (i n : Nat) : (p.addCtr c i n).dirtyPg = p.dirtyPg := rfl
@[simp] theorem Pkg.flags_addCtr (p : Pkg) (c : Ctr) (i n : Nat) : (p.addCtr c i n).flags = p.flags := rfl
@[simp] theorem Pkg.pkgState_addCtr (p : Pkg) (c : Ctr) (i n : Nat) : (p.addCtr c i n).pkgState = p.pkgState := rfl
@[simp] theorem Pkg.pkgEntered_addCtr (p : Pkg) (c : Ctr) (i n : Nat) : (p.addCtr c i n).pkgEntered = p.pkgEntered := rfl
@[simp] theorem Pkg.authNs_addCtr (p : Pkg) (c : Ctr) (i n : Nat) : (p.addCtr c i n).authNs = p.authNs := rfl
@[simp] theorem Pkg.dlRecs_addCtr (p : Pkg) (c : Ctr) (i n : Nat) : (p.addCtr c i n).dlRecs = p.dlRecs := rfl
@[simp] theorem Pkg.waiters_addCtr (p : Pkg) (c : Ctr) (i n : Nat) : (p.addCtr c i n).waiters = p.waiters := rfl
@[simp] theorem Pkg.fabAddr_addCtr (p : Pkg) (c : Ctr) (i n : Nat) : (p.addCtr c i n).fabAddr = p.fabAddr := rfl
@[simp] theorem Pkg.epoch_addCtr (p : Pkg) (c : Ctr) (i n : Nat) : (p.addCtr c i n).epoch = p.epoch := rfl
@[simp] theorem Pkg.planHash_addCtr (p : Pkg) (c : Ctr) (i n : Nat) : (p.addCtr c i n).planHash = p.planHash := rfl
@[simp] theorem Pkg.topoSet_addCtr (p : Pkg) (c : Ctr) (i n : Nat) : (p.addCtr c i n).topoSet = p.topoSet := rfl
@[simp] theorem Pkg.degraded_addCtr (p : Pkg) (c : Ctr) (i n : Nat) : (p.addCtr c i n).degraded = p.degraded := rfl
@[simp] theorem Pkg.respLimit_addCtr (p : Pkg) (c : Ctr) (i n : Nat) : (p.addCtr c i n).respLimit = p.respLimit := rfl
@[simp] theorem Pkg.routes_addCtr (p : Pkg) (c : Ctr) (i n : Nat) : (p.addCtr c i n).routes = p.routes := rfl
@[simp] theorem Pkg.inbox_addCtr (p : Pkg) (c : Ctr) (i n : Nat) : (p.addCtr c i n).inbox = p.inbox := rfl
@[simp] theorem Pkg.transitQ_addCtr (p : Pkg) (c : Ctr) (i n : Nat) : (p.addCtr c i n).transitQ = p.transitQ := rfl
@[simp] theorem Pkg.reqs_addCtr (p : Pkg) (c : Ctr) (i n : Nat) : (p.addCtr c i n).reqs = p.reqs := rfl
@[simp] theorem Pkg.nextTag_addCtr (p : Pkg) (c : Ctr) (i n : Nat) : (p.addCtr c i n).nextTag = p.nextTag := rfl
@[simp] theorem Pkg.regions_addCtr (p : Pkg) (c : Ctr) (i n : Nat) : (p.addCtr c i n).regions = p.regions := rfl
@[simp] theorem Pkg.seam_addCtr (p : Pkg) (c : Ctr) (i n : Nat) : (p.addCtr c i n).seam = p.seam := rfl
@[simp] theorem Pkg.seamTab_addCtr (p : Pkg) (c : Ctr) (i n : Nat) : (p.addCtr c i n).seamTab = p.seamTab := rfl
@[simp] theorem Pkg.admittedBy_addCtr (p : Pkg) (c : Ctr) (i n : Nat) : (p.addCtr c i n).admittedBy = p.admittedBy := rfl
@[simp] theorem Pkg.dramLost_addCtr (p : Pkg) (c : Ctr) (i n : Nat) : (p.addCtr c i n).dramLost = p.dramLost := rfl
@[simp] theorem Pkg.swapHold_addCtr (p : Pkg) (c : Ctr) (i n : Nat) : (p.addCtr c i n).swapHold = p.swapHold := rfl
@[simp] theorem Pkg.secure_addCtr (p : Pkg) (c : Ctr) (i n : Nat) : (p.addCtr c i n).secure = p.secure := rfl
@[simp] theorem Pkg.undecided_addCtr (p : Pkg) (c : Ctr) (i n : Nat) : (p.addCtr c i n).undecided = p.undecided := rfl
@[simp] theorem Pkg.events_addCtr (p : Pkg) (c : Ctr) (i n : Nat) : (p.addCtr c i n).events = p.events := rfl
@[simp] theorem Pkg.eventIdx_addCtr (p : Pkg) (c : Ctr) (i n : Nat) : (p.addCtr c i n).eventIdx = p.eventIdx := rfl
@[simp] theorem Pkg.eventLost_addCtr (p : Pkg) (c : Ctr) (i n : Nat) : (p.addCtr c i n).eventLost = p.eventLost := rfl
@[simp] theorem Pkg.holdover_addCtr (p : Pkg) (c : Ctr) (i n : Nat) : (p.addCtr c i n).holdover = p.holdover := rfl
@[simp] theorem Pkg.refEthLost_addCtr (p : Pkg) (c : Ctr) (i n : Nat) : (p.addCtr c i n).refEthLost = p.refEthLost := rfl
@[simp] theorem Pkg.clkStop_addCtr (p : Pkg) (c : Ctr) (i n : Nat) : (p.addCtr c i n).clkStop = p.clkStop := rfl
@[simp] theorem Pkg.clkLost_addCtr (p : Pkg) (c : Ctr) (i n : Nat) : (p.addCtr c i n).clkLost = p.clkLost := rfl
@[simp] theorem Pkg.aHStep_addCtr (p : Pkg) (c : Ctr) (i n : Nat) : (p.addCtr c i n).aHStep = p.aHStep := rfl
@[simp] theorem Pkg.lnkLost_addCtr (p : Pkg) (c : Ctr) (i n : Nat) : (p.addCtr c i n).lnkLost = p.lnkLost := rfl
@[simp] theorem Pkg.eth_addCtr (p : Pkg) (c : Ctr) (i n : Nat) : (p.addCtr c i n).eth = p.eth := rfl
@[simp] theorem Pkg.pwr_addCtr (p : Pkg) (c : Ctr) (i n : Nat) : (p.addCtr c i n).pwr = p.pwr := rfl
@[simp] theorem Pkg.ident_addCtr (p : Pkg) (c : Ctr) (i n : Nat) : (p.addCtr c i n).ident = p.ident := rfl
@[simp] theorem Pkg.tap_addCtr (p : Pkg) (c : Ctr) (i n : Nat) : (p.addCtr c i n).tap = p.tap := rfl
@[simp] theorem Pkg.out_addCtr (p : Pkg) (c : Ctr) (i n : Nat) : (p.addCtr c i n).out = p.out := rfl
@[simp] theorem Pkg.thr_take (p : Pkg) (w : Nat) (j : Nat) : (p.take w).2.thr j = p.thr j := rfl
@[simp] theorem Pkg.core_take (p : Pkg) (w : Nat) (j : Nat) : (p.take w).2.core j = p.core j := rfl
@[simp] theorem Pkg.slot_take (p : Pkg) (w : Nat) (j : Nat) : (p.take w).2.slot j = p.slot j := rfl
@[simp] theorem Pkg.sync_take (p : Pkg) (w : Nat) (j : Nat) : (p.take w).2.sync j = p.sync j := rfl
@[simp] theorem Pkg.sumpEng_take (p : Pkg) (w : Nat) (j : Nat) : (p.take w).2.sumpEng j = p.sumpEng j := rfl
@[simp] theorem Pkg.port_take (p : Pkg) (w : Nat) (j : Nat) : (p.take w).2.port j = p.port j := rfl
@[simp] theorem Pkg.die_take (p : Pkg) (w : Nat) (j : Nat) : (p.take w).2.die j = p.die j := rfl
@[simp] theorem Pkg.stack_take (p : Pkg) (w : Nat) (j : Nat) : (p.take w).2.stack j = p.stack j := rfl
@[simp] theorem Pkg.memDie_take (p : Pkg) (w : Nat) (j : Nat) : (p.take w).2.memDie j = p.memDie j := rfl
@[simp] theorem Pkg.ctx_take (p : Pkg) (w : Nat) (j : Nat) : (p.take w).2.ctx j = p.ctx j := rfl
@[simp] theorem Pkg.session_take (p : Pkg) (w : Nat) (j : Nat) : (p.take w).2.session j = p.session j := rfl
@[simp] theorem Pkg.dlWin_take (p : Pkg) (w : Nat) (j : Nat) : (p.take w).2.dlWin j = p.dlWin j := rfl
@[simp] theorem Pkg.now_take (p : Pkg) (w : Nat) : (p.take w).2.now = p.now := rfl
@[simp] theorem Pkg.mem_take (p : Pkg) (w : Nat) : (p.take w).2.mem = p.mem := rfl
@[simp] theorem Pkg.poison_take (p : Pkg) (w : Nat) : (p.take w).2.poison = p.poison := rfl
@[simp] theorem Pkg.tagBad_take (p : Pkg) (w : Nat) : (p.take w).2.tagBad = p.tagBad := rfl
@[simp] theorem Pkg.dirtyPg_take (p : Pkg) (w : Nat) : (p.take w).2.dirtyPg = p.dirtyPg := rfl
@[simp] theorem Pkg.flags_take (p : Pkg) (w : Nat) : (p.take w).2.flags = p.flags := rfl
@[simp] theorem Pkg.ctrs_take (p : Pkg) (w : Nat) : (p.take w).2.ctrs = p.ctrs := rfl
@[simp] theorem Pkg.pkgState_take (p : Pkg) (w : Nat) : (p.take w).2.pkgState = p.pkgState := rfl
@[simp] theorem Pkg.pkgEntered_take (p : Pkg) (w : Nat) : (p.take w).2.pkgEntered = p.pkgEntered := rfl
@[simp] theorem Pkg.authNs_take (p : Pkg) (w : Nat) : (p.take w).2.authNs = p.authNs := rfl
@[simp] theorem Pkg.dlRecs_take (p : Pkg) (w : Nat) : (p.take w).2.dlRecs = p.dlRecs := rfl
@[simp] theorem Pkg.waiters_take (p : Pkg) (w : Nat) : (p.take w).2.waiters = p.waiters := rfl
@[simp] theorem Pkg.fabAddr_take (p : Pkg) (w : Nat) : (p.take w).2.fabAddr = p.fabAddr := rfl
@[simp] theorem Pkg.epoch_take (p : Pkg) (w : Nat) : (p.take w).2.epoch = p.epoch := rfl
@[simp] theorem Pkg.planHash_take (p : Pkg) (w : Nat) : (p.take w).2.planHash = p.planHash := rfl
@[simp] theorem Pkg.topoSet_take (p : Pkg) (w : Nat) : (p.take w).2.topoSet = p.topoSet := rfl
@[simp] theorem Pkg.degraded_take (p : Pkg) (w : Nat) : (p.take w).2.degraded = p.degraded := rfl
@[simp] theorem Pkg.respLimit_take (p : Pkg) (w : Nat) : (p.take w).2.respLimit = p.respLimit := rfl
@[simp] theorem Pkg.routes_take (p : Pkg) (w : Nat) : (p.take w).2.routes = p.routes := rfl
@[simp] theorem Pkg.inbox_take (p : Pkg) (w : Nat) : (p.take w).2.inbox = p.inbox := rfl
@[simp] theorem Pkg.transitQ_take (p : Pkg) (w : Nat) : (p.take w).2.transitQ = p.transitQ := rfl
@[simp] theorem Pkg.reqs_take (p : Pkg) (w : Nat) : (p.take w).2.reqs = p.reqs := rfl
@[simp] theorem Pkg.nextTag_take (p : Pkg) (w : Nat) : (p.take w).2.nextTag = p.nextTag := rfl
@[simp] theorem Pkg.regions_take (p : Pkg) (w : Nat) : (p.take w).2.regions = p.regions := rfl
@[simp] theorem Pkg.seam_take (p : Pkg) (w : Nat) : (p.take w).2.seam = p.seam := rfl
@[simp] theorem Pkg.seamTab_take (p : Pkg) (w : Nat) : (p.take w).2.seamTab = p.seamTab := rfl
@[simp] theorem Pkg.admittedBy_take (p : Pkg) (w : Nat) : (p.take w).2.admittedBy = p.admittedBy := rfl
@[simp] theorem Pkg.dramLost_take (p : Pkg) (w : Nat) : (p.take w).2.dramLost = p.dramLost := rfl
@[simp] theorem Pkg.swapHold_take (p : Pkg) (w : Nat) : (p.take w).2.swapHold = p.swapHold := rfl
@[simp] theorem Pkg.secure_take (p : Pkg) (w : Nat) : (p.take w).2.secure = p.secure := rfl
@[simp] theorem Pkg.undecided_take (p : Pkg) (w : Nat) : (p.take w).2.undecided = p.undecided := rfl
@[simp] theorem Pkg.events_take (p : Pkg) (w : Nat) : (p.take w).2.events = p.events := rfl
@[simp] theorem Pkg.eventIdx_take (p : Pkg) (w : Nat) : (p.take w).2.eventIdx = p.eventIdx := rfl
@[simp] theorem Pkg.eventLost_take (p : Pkg) (w : Nat) : (p.take w).2.eventLost = p.eventLost := rfl
@[simp] theorem Pkg.holdover_take (p : Pkg) (w : Nat) : (p.take w).2.holdover = p.holdover := rfl
@[simp] theorem Pkg.refEthLost_take (p : Pkg) (w : Nat) : (p.take w).2.refEthLost = p.refEthLost := rfl
@[simp] theorem Pkg.clkStop_take (p : Pkg) (w : Nat) : (p.take w).2.clkStop = p.clkStop := rfl
@[simp] theorem Pkg.clkLost_take (p : Pkg) (w : Nat) : (p.take w).2.clkLost = p.clkLost := rfl
@[simp] theorem Pkg.aHStep_take (p : Pkg) (w : Nat) : (p.take w).2.aHStep = p.aHStep := rfl
@[simp] theorem Pkg.lnkLost_take (p : Pkg) (w : Nat) : (p.take w).2.lnkLost = p.lnkLost := rfl
@[simp] theorem Pkg.eth_take (p : Pkg) (w : Nat) : (p.take w).2.eth = p.eth := rfl
@[simp] theorem Pkg.pwr_take (p : Pkg) (w : Nat) : (p.take w).2.pwr = p.pwr := rfl
@[simp] theorem Pkg.ident_take (p : Pkg) (w : Nat) : (p.take w).2.ident = p.ident := rfl
@[simp] theorem Pkg.tap_take (p : Pkg) (w : Nat) : (p.take w).2.tap = p.tap := rfl
@[simp] theorem Pkg.out_take (p : Pkg) (w : Nat) : (p.take w).2.out = p.out := rfl
@[simp] theorem Pkg.out_emit (p : Pkg) (o : Out) : (p.emit o).out = o :: p.out := rfl
@[simp] theorem Pkg.free_take (p : Pkg) (w : Nat) : (p.take w).2.free = p.free + 1 := rfl
/-- A counter reads one more after its increment. -/
theorem Pkg.ctr_bump (p : Pkg) (c d : Ctr) (i j : Nat) :
    (p.bump c i).ctr d j = if ctrKey d j = ctrKey c i then (p.ctr c i + 1) % 2 ^ 64 else p.ctr d j := by
  simp only [Pkg.ctr, Pkg.bump, Pkg.addCtr, tabMod, tabGet_tabSet]

/-! ## The queue -/

@[simp] theorem State.run_eq (s : State) (f : Pkg → Pkg) : s.run f = .next { s with pkg := f s.pkg } := rfl
@[simp] theorem State.skip_eq (s : State) : s.skip = .next s := rfl

end Sys2Proof.Machine
end

