-- ==== Sys2Proof/Laws/Issue.lean ====
section
/-! SUPPORT. What issuing does, once for every instruction. -/

namespace Sys2Proof.Machine

/-- An instruction that is selected, in code and well formed runs its own effect. -/
theorem Pkg.issue_ok {p q : Pkg} {t : Nat} {i : Instr} {body : Pkg → Thr → IRes} (h : Issues p t i)
    (hb : body p (p.thr t) = .ok q) : p.issue t i body = q.retire t := by
  obtain ⟨h1, h2, h3, h4⟩ := h
  simp [Pkg.issue, h1, h2, h4, hb, Nat.not_le.mpr h3]

/-- Marking pre-emption touches the slots alone. -/
theorem foldl_markPreempt (l : List Nat) (p : Pkg) :
    ∃ sl, l.foldl Pkg.markPreempt p = { p with slots := sl } := by
  induction l generalizing p with
  | nil => exact ⟨p.slots, rfl⟩
  | cons a l ih =>
    obtain ⟨sl, h⟩ := ih (p.markPreempt a)
    exact ⟨sl, by simp only [List.foldl_cons, h]; rfl⟩

/-- Marking what a taken slot pre-empts touches the slots alone. -/
theorem Pkg.markTaken_eq (p : Pkg) (t : Nat) : ∃ sl, p.markTaken t = { p with slots := sl } := foldl_markPreempt _ p

/-- Accounting an issued instruction. -/
theorem Pkg.countIssue_frame (p : Pkg) (t : Nat) (keep : Bool) :
    ∃ cs sl, p.countIssue t keep = { p.setCore (coreOf t) ((p.core (coreOf t)).issued (threadIn t) keep) with ctrs := cs, slots := sl } ∧
      tabGet 0 cs (ctrKey .coreIssued (coreOf t)) = (p.ctr .coreIssued (coreOf t) + 1) % 2 ^ 64 ∧
      (p.thrLc t = false → sl = p.slots) := by
  have hk : ctrKey .coreSwitch (coreOf t) ≠ ctrKey .coreIssued (coreOf t) := by
    simp [ctrKey, Ctr.ctorIdx]
  unfold Pkg.countIssue
  dsimp only
  generalize (p.core (coreOf t)).issued (threadIn t) keep = c
  have key : ∀ q : Pkg, (∃ sl, q = { (p.setCore (coreOf t) c).bump .coreIssued (coreOf t) with slots := sl } ∧
      (p.thrLc t = false → sl = p.slots)) → ∀ sw : Bool,
      ∃ cs sl, (if sw then q.bump .coreSwitch (coreOf t) else q) = { p.setCore (coreOf t) c with ctrs := cs, slots := sl } ∧
      tabGet 0 cs (ctrKey .coreIssued (coreOf t)) = (p.ctr .coreIssued (coreOf t) + 1) % 2 ^ 64 ∧
      (p.thrLc t = false → sl = p.slots) := by
    rintro q ⟨sl, rfl, hsl⟩ sw
    cases sw
    · refine ⟨_, sl, rfl, ?_, hsl⟩
      simp only [Pkg.bump, Pkg.addCtr, tabMod, tabGet_tabSet_same]; rfl
    · refine ⟨_, sl, rfl, ?_, hsl⟩
      simp only [Pkg.bump, Pkg.addCtr, tabMod]
      rw [tabGet_tabSet_ne _ _ _ _ _ (Ne.symm hk), tabGet_tabSet_same]; rfl
  apply key
  split
  · rename_i hh
    obtain ⟨sl, h⟩ := ((p.setCore (coreOf t) c).bump .coreIssued (coreOf t)).markTaken_eq t
    refine ⟨sl, h, fun hf => ?_⟩
    have h2 : p.thrLc t = true := by simpa using (Bool.and_eq_true _ _ ▸ hh).2
    simp_all
  · exact ⟨p.slots, rfl, fun _ => rfl⟩

/-- An instruction that only changes its own thread's record retires with that record and the next PC. -/
theorem Pkg.retire_setThr (p : Pkg) (t : Nat) (th : Thr) (hc : th.ctx = (p.thr t).ctx) :
    Retired p ((p.setThr t th).retire t) t (th.goto th.nextPc) := by
  have e : (p.setThr t th).retire t = (p.setThr t th |>.setThr t (th.goto th.nextPc)).countIssue t true := by
    simp [Pkg.retire, Pkg.modThr, Thr.nextPc]
  rw [e]
  obtain ⟨cs, sl, h, hctr, hsl⟩ := Pkg.countIssue_frame ((p.setThr t th).setThr t (th.goto th.nextPc)) t true
  rw [h]
  refine ⟨?_, ?_, ?_, ?_, hctr, ?_, rfl⟩
  · change ((p.setThr t th).setThr t (th.goto th.nextPc)).thr t = _; simp
  · intro k hk; change ((p.setThr t th).setThr t (th.goto th.nextPc)).thr k = _; simp [hk]
  · change ((((p.setThr t th).setThr t (th.goto th.nextPc))).setCore (coreOf t) _).core (coreOf t) = _; simp
  · intro g hg; change ((((p.setThr t th).setThr t (th.goto th.nextPc))).setCore (coreOf t) _).core g = _; simp [hg]
  · intro hf
    refine hsl ?_
    have : (((p.setThr t th).setThr t (th.goto th.nextPc)).thr t).ctx = (p.thr t).ctx := by simp [Thr.goto, hc]
    unfold Pkg.thrLc; rw [this]; exact hf

/-- Raising an event touches the event log, counters and flags alone. -/
theorem Pkg.raise_eq (p : Pkg) (e : Ev) (d c o v : Nat) :
    ∃ es n cs fs, p.raise e d c o v = { p with events := es, eventIdx := n, ctrs := cs, flags := fs } := by
  unfold Pkg.raise
  dsimp only
  split
  · exact ⟨_, _, _, _, rfl⟩
  · exact ⟨_, _, p.ctrs, p.flags, rfl⟩

/-- Moving a context's state touches its record, the event log, counters and flags alone. -/
theorem Pkg.ctxEval_eq (p : Pkg) (c : Nat) :
    ∃ cx es n cs fs, p.ctxEval c = { p with ctxs := cx, events := es, eventIdx := n, ctrs := cs, flags := fs } := by
  have dest : ∀ st, ∃ cx es n cs fs, p.ctxTo c st = { p with ctxs := cx, events := es, eventIdx := n, ctrs := cs, flags := fs } := by
    intro st
    unfold Pkg.ctxTo
    dsimp only
    split
    · exact ⟨p.ctxs, p.events, p.eventIdx, p.ctrs, p.flags, rfl⟩
    · generalize ({ p.ctx c with state := st, enteredNs := p.icount p.primary % 2 ^ 32, holdDone := false } : Ctx) = x
      obtain ⟨es, n, cs, fs, h⟩ := (p.setCtx c x).raise_eq .ctxState p.primary c c ((p.ctx c).state.ctorIdx + 16 * st.ctorIdx + 256 * (p.ctx c).cause)
      exact ⟨_, es, n, cs, fs, h⟩
  unfold Pkg.ctxEval
  dsimp only
  split
  · exact ⟨p.ctxs, p.events, p.eventIdx, p.ctrs, p.flags, rfl⟩
  · split
    · exact dest _
    · split
      · exact dest _
      · exact dest _

/-- Marking a wait under STASH_HOLD touches slots alone (R68). -/
theorem Pkg.markHold_eq (p : Pkg) (j q : Nat) : ∃ sl, p.markHold j q = { p with slots := sl } := by
  unfold Pkg.markHold
  split
  · exact ⟨_, rfl⟩
  · exact ⟨p.slots, rfl⟩

/-- Accounting phase times touches slots alone (R85). -/
theorem Pkg.phaseTick_eq (p : Pkg) (j : Nat) : ∃ sl, p.phaseTick j = { p with slots := sl } := by
  unfold Pkg.phaseTick
  dsimp only
  obtain ⟨a, ha⟩ := p.markHold_eq j 0
  obtain ⟨b, hb⟩ := (p.markHold j 0).markHold_eq j 1
  rw [ha] at hb
  split
  · exact ⟨_, rfl⟩
  · rw [ha, hb]; exact ⟨_, rfl⟩

/-- Blocking a thread. -/
theorem Pkg.blockThr_eq (p : Pkg) (t : Nat) (w : Wait) :
    ∃ cx es n cs fs sl, p.blockThr t w = { p.setThr t { p.thr t with state := .blocked, wait := w } with
      ctxs := cx, events := es, eventIdx := n, ctrs := cs, flags := fs, slots := sl } := by
  unfold Pkg.blockThr
  obtain ⟨sl, hs⟩ := p.phaseTick_eq (p.thr t).slot
  rw [hs]
  obtain ⟨cx, es, n, cs, fs, h⟩ := Pkg.ctxEval_eq ((({ p with slots := sl } : Pkg).modThr t fun th => { th with state := .blocked, wait := w }))
    ((({ p with slots := sl } : Pkg).modThr t fun th => { th with state := .blocked, wait := w }).thr t).ctx
  exact ⟨cx, es, n, cs, fs, sl, h⟩

end Sys2Proof.Machine
end

