-- ==== Sys2Proof/Laws/Luajo.lean ====
section
/-! SUPPORT. The path of a Luajo command, once for every row (R525). -/

namespace Sys2Proof.Machine

/-- The session table does not see how a command came, nor that it was counted. -/
@[simp] theorem Pkg.session_arrivedBy (p : Pkg) (s : Src) (i : Nat) : (p.arrivedBy s).session i = p.session i := rfl
@[simp] theorem Pkg.session_taken (p : Pkg) (op : LjOp) (k : Pkt) (i : Nat) : (p.taken op k).session i = p.session i := rfl

/-- A command that is ready and passes its row's own format rules is decided by its row's preconditions and effect. -/
theorem Pkg.luajo_ready {p : Pkg} {op : LjOp} {k : Pkt} {i : Nat} {ts : List TlvE} {mine : List TlvE → Bool}
    {fmt : Pkg → Cmd → Option (Nat × List Byte)} {run : Pkg → Cmd → Ans} (h : Ready p op k i ts)
    (hm : mine ((parseTlvs (k.params.length + 1) k.params).getD []) = true)
    (hf : fmt (p.taken op k) ((p.taken op k).cmdOf op k i ts) = none) :
    p.luajo op k mine fmt run = match run (p.taken op k) ((p.taken op k).cmdOf op k i ts) with
      | .no st ps => (p.taken op k).reply i (pktWait k op.code) st ps
      | .ok q ps => q.reply i (pktWait k op.code) 0 ps
      | .wait q => q.ljWait i (pktWait k op.code) := by
  obtain ⟨h1, h2, h3, h4, h5, h6, h7, h8, h9, h10, h11, h12, h13⟩ := h
  have e3 : ¬((decide (256 ≤ p.undecided) || (p.ident.loading.isSome && op.legal != 0)) = true) := by
    rcases h6 with h6 | h6 <;> simp [h6, h5]
  have e4 : ¬((decide (k.seq.toNat = 0) || (decide (64 ≤ (p.session i).high) && decide (k.seq.toNat ≤ (p.session i).high - 64))) = true) := by
    simp [h7]; omega
  have e5 : (p.session i).cache.find? (fun e => e.1 == k.seq.toNat) = none := by
    rw [List.find?_eq_none]; intro e he; simpa using h9 e he
  have e6 : (p.session i).waiting.any (fun x => x.seq == k.seq.toNat) = false := by
    rw [List.any_eq_false]; intro w hw; simpa using h10 w hw
  have e7 : ((p.session i).bound && (!op.bound || (op.ofCtx && k.context.toNat != (p.session i).ctx))) = false := by
    cases hb : (p.session i).bound
    · rfl
    · obtain ⟨a, b⟩ := h11 hb
      cases ho : op.ofCtx <;> simp_all
  unfold Pkg.luajo
  dsimp only
  rw [if_neg (by simp [h1, hm]), if_neg (by simp [h2]), h3]
  change (if (mac16 (p.session i).kCmd (pktHeader k op.code ++ k.params) != toLe 16 k.mac.toNat) = true then _ else
    if (decide (256 ≤ p.undecided) || (p.ident.loading.isSome && op.legal != 0)) = true then _ else
    if (decide (k.seq.toNat = 0) || (decide (64 ≤ (p.session i).high) && decide (k.seq.toNat ≤ (p.session i).high - 64))) = true then _ else
    match (p.session i).cache.find? (fun e => e.1 == k.seq.toNat) with
    | some e => _
    | none => if (p.session i).waiting.any (fun x => x.seq == k.seq.toNat) = true then _ else
      if ((p.session i).bound && (!op.bound || (op.ofCtx && k.context.toNat != (p.session i).ctx))) = true then _ else _) = _
  rw [if_neg (by simp [h4]), if_neg e3, if_neg e4]
  simp only [e5, e6, e7, Bool.false_eq_true, if_false]
  unfold Pkg.ljRun
  simp only [Pkg.taken] at h12 h13 hf ⊢
  simp only [h12, hf, h13, Bool.not_true, Bool.false_eq_true, if_false]
  all_goals (cases run ((p.arrivedBy k.src).ljDecided op) (((p.arrivedBy k.src).ljDecided op).cmdOf op k i ts) <;> rfl)

end Sys2Proof.Machine
end

