-- ==== Sys2Proof/Laws/Memory.lean ====
section
/-! SUPPORT. The laws of the memory: what a store lists, that every memory operation keeps the canonical form, and that reset
memory has it. -/

namespace Sys2Proof.Machine

/-- Storing bytes keeps the canonical form. -/
theorem memPut_wf (m : List Host.Cell) (a : Nat) (bs : List Byte) (h : Memory.wf m = true) : Memory.wf (memPut m a bs) = true := by
  induction bs generalizing m a with
  | nil => exact h
  | cons b bs ih => exact ih _ _ (tabWf_tabSet _ _ _ h)

/-- A byte that the stored range does not meet reads as before. -/
theorem memPut_other (m : List Host.Cell) (a x : Nat) (bs : List Byte) (h : ∀ n < bs.length, (a + n) % 2 ^ 48 ≠ x) :
    tabGet (0 : Byte) (memPut m a bs) x = tabGet 0 m x := by
  induction bs generalizing m a with
  | nil => rfl
  | cons b bs ih =>
    simp only [memPut]
    rw [ih]
    · exact tabGet_tabSet_ne _ _ _ _ _ (fun e => h 0 (by simp) (by simpa using e.symm))
    · intro n hn
      have := h (n + 1) (by simpa using hn)
      rwa [show a + (n + 1) = a + 1 + n by omega] at this

/-- A stored byte reads back. -/
theorem memPut_same (m : List Host.Cell) (a n : Nat) (bs : List Byte) (ha : a + bs.length ≤ 2 ^ 48) (h : n < bs.length) :
    tabGet (0 : Byte) (memPut m a bs) (a + n) = bs.getD n 0 := by
  induction bs generalizing m a n with
  | nil => simp at h
  | cons b bs ih =>
    simp only [memPut]
    simp only [List.length_cons] at ha h
    cases n with
    | zero =>
      rw [memPut_other]
      · have e : a % 2 ^ 48 = a + 0 := Nat.mod_eq_of_lt (by omega)
        rw [e, tabGet_tabSet_same]; rfl
      · intro k hk; rw [Nat.mod_eq_of_lt (by omega)]; omega
    | succ n =>
      rw [show a + (n + 1) = a + 1 + n by omega, ih _ _ _ (by omega) (by omega)]
      rfl

/-- A fold of steps that leave the memory alone leaves it alone. -/
theorem foldl_mem {α : Type} (f : Pkg → α → Pkg) (h : ∀ p x, (f p x).mem = p.mem) (l : List α) (p : Pkg) : (l.foldl f p).mem = p.mem := by
  induction l generalizing p with
  | nil => rfl
  | cons x l ih => rw [List.foldl_cons, ih, h]
/-- A fold of steps that keep the canonical form keeps it. -/
theorem foldl_wf {α : Type} (f : Pkg → α → Pkg) (h : ∀ p x, Memory.wf p.mem = true → Memory.wf (f p x).mem = true) (l : List α) (p : Pkg)
    (hp : Memory.wf p.mem = true) : Memory.wf (l.foldl f p).mem = true := by
  induction l generalizing p with
  | nil => exact hp
  | cons x l ih => exact ih _ (h _ _ hp)

@[simp] theorem Pkg.markPage_mem (p : Pkg) (n : Nat) : (p.markPage n).mem = p.mem := by
  unfold Pkg.markPage; dsimp only; split <;> rfl
@[simp] theorem Pkg.markLine_mem (p : Pkg) (n : Nat) : (p.markLine n).mem = p.mem := rfl

@[simp] theorem Pkg.setUndef_mem (p : Pkg) (l : Nat) (v : Bool) : (p.setUndef l v).mem = p.mem := rfl
/-- Defining a line keeps the canonical form. -/
theorem Pkg.defineLine_wf (p : Pkg) (l : Nat) (h : Memory.wf p.mem = true) : Memory.wf (p.defineLine l).mem = true := by
  unfold Pkg.defineLine
  generalize p.lineBytes l = bs
  split
  · rw [Pkg.setUndef_mem]; exact memPut_wf _ _ _ h
  · exact h
/-- A store keeps the canonical form. -/
theorem Pkg.store_wf (p : Pkg) (a : Nat) (bs : List Byte) (h : Memory.wf p.mem = true) : Memory.wf (p.store a bs).mem = true := by
  have e : (p.store a bs).mem = memPut (if isStackAddr a then (linesOf a bs.length).foldl Pkg.defineLine p else p).mem a bs := by
    unfold Pkg.store
    dsimp only
    split
    · rw [foldl_mem _ (fun p x => Pkg.markLine_mem p x), foldl_mem _ (fun p x => Pkg.markPage_mem p x),
        foldl_mem (fun p l => p.setPoison l false) (fun _ _ => rfl)]
    · split <;> rfl
  rw [e]
  refine memPut_wf _ _ _ ?_
  split
  · exact foldl_wf _ (fun p x hp => Pkg.defineLine_wf p x hp) _ _ h
  · exact h
theorem Pkg.spStore_wf (p : Pkg) (g a : Nat) (bs : List Byte) (h : Memory.wf p.mem = true) : Memory.wf (p.spStore g a bs).mem = true :=
  Pkg.store_wf _ _ _ h
/-- A package whose count of free values alone differs has the same memory. (Proofs cite this for a generic package: the kernel
would otherwise compare the fields of a scratchpad store one by one.) -/
theorem Pkg.mem_of_free {p q : Pkg} {n : Nat} (h : q = { p with free := n }) : q.mem = p.mem := by rw [h]
theorem Pkg.spFree_wf (p : Pkg) (g a n : Nat) (h : Memory.wf p.mem = true) : Memory.wf (p.spFree g a n).mem = true := by
  have e : (p.spFree g a n).mem = (p.spStore g a ((List.range n).map fun i => BitVec.ofNat 8 (Config.freeValue (p.free + i)))).mem :=
    Pkg.mem_of_free rfl
  rw [e]; exact Pkg.spStore_wf _ _ _ _ h

/-- Reading leaves the memory alone, whatever it leaves undefined (R297). -/
@[simp] theorem Pkg.lastUse_mem (p : Pkg) (hint a n : Nat) : (p.lastUse hint a n).mem = p.mem := by
  unfold Pkg.lastUse
  split
  · rw [foldl_mem (fun p l => p.setUndef l true) (fun _ _ => rfl)]
  · rfl

/-- The memory after reset is in canonical form. -/
theorem reset_wf : Memory.wf State.reset.pkg.mem = true := rfl

end Sys2Proof.Machine
end

