-- ==== Sys2Proof/Laws/Operands.lean ====
section
/-! SUPPORT. What the shared operand forms answer. -/

namespace Sys2Proof.Machine

/-- An effect is staged when no sequence is open and the group has room (R182, R238). -/
theorem stageEff_ok {p : Pkg} {t : Nat} {e : Effect} {n : Nat} {k : Thr → Thr} (hq : p.seqOpen t = false)
    (hg : (p.thr t).grp.length < 64) (hb : (p.thr t).grpBytes + n ≤ 0x20_0000) :
    stageEff p t e n k = .ok (p.setThr t (k { p.thr t with grp := (p.thr t).grp ++ [e], grpBytes := (p.thr t).grpBytes + n })) := by
  have h : (decide (64 ≤ (p.thr t).grp.length) || decide (groupBytes < (p.thr t).grpBytes + n)) = false := by
    have : groupBytes = 0x20_0000 := rfl
    simp only [Bool.or_eq_false_iff, decide_eq_false_iff_not]; omega
  simp only [stageEff, hq, h, Bool.false_eq_true, if_false]

/-- A full group faults with EFFECT_LIMIT (R238). -/
theorem stageEff_full {p : Pkg} {t : Nat} {e : Effect} {n : Nat} {k : Thr → Thr} (hq : p.seqOpen t = false)
    (h : 64 ≤ (p.thr t).grp.length ∨ 0x20_0000 < (p.thr t).grpBytes + n) : stageEff p t e n k = .fault fEffectLimit := by
  have h : (decide (64 ≤ (p.thr t).grp.length) || decide (groupBytes < (p.thr t).grpBytes + n)) = true := by
    simp only [Bool.or_eq_true, decide_eq_true_eq]; exact h
  simp only [stageEff, hq, h, Bool.false_eq_true, if_false, if_true]

/-- The first fault of a list that starts with a test that passed. -/
@[simp] theorem firstFault_none_cons (l : List (Option Nat)) : firstFault (none :: l) = firstFault l := rfl
@[simp] theorem firstFault_some_cons (c : Nat) (l : List (Option Nat)) : firstFault (some c :: l) = some c := rfl
@[simp] theorem firstFault_nil : firstFault [] = none := rfl

end Sys2Proof.Machine
end

