-- ==== Sys2Proof/Laws/PerInstr.lean ====
section
/-! SUPPORT. Statements made per command: one lemma per constructor of Instr. -/

namespace Sys2Proof.Laws.WordOrEvent

/-- A command has an instruction word, or it is a datagram, a packet or an event, which its meaning judges and which is always well
formed (R224, R225). -/
def Statement (i : Instr) : Prop := encode i = none → i.wf = true

theorem add (t : ThreadId) (f : FmtS) : Statement (.add t f) := nofun
theorem sub (t : ThreadId) (f : FmtS) : Statement (.sub t f) := nofun
theorem mul (t : ThreadId) (f : FmtS) : Statement (.mul t f) := nofun
theorem mulhu (t : ThreadId) (f : FmtS) : Statement (.mulhu t f) := nofun
theorem mulh (t : ThreadId) (f : FmtS) : Statement (.mulh t f) := nofun
theorem divu (t : ThreadId) (f : FmtS) : Statement (.divu t f) := nofun
theorem div (t : ThreadId) (f : FmtS) : Statement (.div t f) := nofun
theorem remu (t : ThreadId) (f : FmtS) : Statement (.remu t f) := nofun
theorem rem (t : ThreadId) (f : FmtS) : Statement (.rem t f) := nofun
theorem and (t : ThreadId) (f : FmtS) : Statement (.and t f) := nofun
theorem or (t : ThreadId) (f : FmtS) : Statement (.or t f) := nofun
theorem xor (t : ThreadId) (f : FmtS) : Statement (.xor t f) := nofun
theorem shl (t : ThreadId) (f : FmtS) : Statement (.shl t f) := nofun
theorem shr (t : ThreadId) (f : FmtS) : Statement (.shr t f) := nofun
theorem sar (t : ThreadId) (f : FmtS) : Statement (.sar t f) := nofun
theorem min (t : ThreadId) (f : FmtS) : Statement (.min t f) := nofun
theorem max (t : ThreadId) (f : FmtS) : Statement (.max t f) := nofun
theorem minu (t : ThreadId) (f : FmtS) : Statement (.minu t f) := nofun
theorem maxu (t : ThreadId) (f : FmtS) : Statement (.maxu t f) := nofun
theorem slt (t : ThreadId) (f : FmtS) : Statement (.slt t f) := nofun
theorem sltu (t : ThreadId) (f : FmtS) : Statement (.sltu t f) := nofun
theorem seq (t : ThreadId) (f : FmtS) : Statement (.seq t f) := nofun
theorem li (t : ThreadId) (f : FmtL) : Statement (.li t f) := nofun
theorem fadd (t : ThreadId) (f : FmtS) : Statement (.fadd t f) := nofun
theorem fsub (t : ThreadId) (f : FmtS) : Statement (.fsub t f) := nofun
theorem fmul (t : ThreadId) (f : FmtS) : Statement (.fmul t f) := nofun
theorem fdiv (t : ThreadId) (f : FmtS) : Statement (.fdiv t f) := nofun
theorem ffma (t : ThreadId) (f : FmtS) : Statement (.ffma t f) := nofun
theorem fmin (t : ThreadId) (f : FmtS) : Statement (.fmin t f) := nofun
theorem fmax (t : ThreadId) (f : FmtS) : Statement (.fmax t f) := nofun
theorem flt (t : ThreadId) (f : FmtS) : Statement (.flt t f) := nofun
theorem fcvtif (t : ThreadId) (f : FmtS) : Statement (.fcvtif t f) := nofun
theorem fcvtfi (t : ThreadId) (f : FmtS) : Statement (.fcvtfi t f) := nofun
theorem setvl (t : ThreadId) (f : FmtS) : Statement (.setvl t f) := nofun
theorem setvm (t : ThreadId) (f : FmtS) : Statement (.setvm t f) := nofun
theorem getvl (t : ThreadId) (f : FmtS) : Statement (.getvl t f) := nofun
theorem getvm (t : ThreadId) (f : FmtS) : Statement (.getvm t f) := nofun
theorem getst (t : ThreadId) (f : FmtS) : Statement (.getst t f) := nofun
theorem clrst (t : ThreadId) (f : FmtS) : Statement (.clrst t f) := nofun
theorem rdinfo (t : ThreadId) (f : FmtS) : Statement (.rdinfo t f) := nofun
theorem rdic (t : ThreadId) (f : FmtS) : Statement (.rdic t f) := nofun
theorem aadd (t : ThreadId) (f : FmtS) : Statement (.aadd t f) := nofun
theorem amov (t : ThreadId) (f : FmtS) : Statement (.amov t f) := nofun
theorem ard (t : ThreadId) (f : FmtS) : Statement (.ard t f) := nofun
theorem ali (t : ThreadId) (f : FmtL) : Statement (.ali t f) := nofun
theorem awin (t : ThreadId) (f : FmtS) : Statement (.awin t f) := nofun
theorem br (t : ThreadId) (f : FmtB) : Statement (.br t f) := nofun
theorem jal (t : ThreadId) (f : FmtB) : Statement (.jal t f) := nofun
theorem jalr (t : ThreadId) (f : FmtB) : Statement (.jalr t f) := nofun
theorem lds (t : ThreadId) (f : FmtM) : Statement (.lds t f) := nofun
theorem sts (t : ThreadId) (f : FmtM) : Statement (.sts t f) := nofun
theorem mld (t : ThreadId) (f : FmtM) : Statement (.mld t f) := nofun
theorem mst (t : ThreadId) (f : FmtM) : Statement (.mst t f) := nofun
theorem pref (t : ThreadId) (f : FmtM) : Statement (.pref t f) := nofun
theorem stashAlloc (t : ThreadId) (f : FmtM) : Statement (.stashAlloc t f) := nofun
theorem stashFind (t : ThreadId) (f : FmtM) : Statement (.stashFind t f) := nofun
theorem tmma (t : ThreadId) (f : FmtD) : Statement (.tmma t f) := nofun
theorem tgemv (t : ThreadId) (f : FmtD) : Statement (.tgemv t f) := nofun
theorem accSwap (t : ThreadId) (f : FmtD) : Statement (.accSwap t f) := nofun
theorem vAdd (t : ThreadId) (f : FmtV) : Statement (.vAdd t f) := nofun
theorem vSub (t : ThreadId) (f : FmtV) : Statement (.vSub t f) := nofun
theorem vMul (t : ThreadId) (f : FmtV) : Statement (.vMul t f) := nofun
theorem vFma (t : ThreadId) (f : FmtV) : Statement (.vFma t f) := nofun
theorem vFms (t : ThreadId) (f : FmtV) : Statement (.vFms t f) := nofun
theorem vNeg (t : ThreadId) (f : FmtV) : Statement (.vNeg t f) := nofun
theorem vAbs (t : ThreadId) (f : FmtV) : Statement (.vAbs t f) := nofun
theorem vMin (t : ThreadId) (f : FmtV) : Statement (.vMin t f) := nofun
theorem vMax (t : ThreadId) (f : FmtV) : Statement (.vMax t f) := nofun
theorem vAdds (t : ThreadId) (f : FmtV) : Statement (.vAdds t f) := nofun
theorem vSubs (t : ThreadId) (f : FmtV) : Statement (.vSubs t f) := nofun
theorem vAnd (t : ThreadId) (f : FmtV) : Statement (.vAnd t f) := nofun
theorem vOr (t : ThreadId) (f : FmtV) : Statement (.vOr t f) := nofun
theorem vXor (t : ThreadId) (f : FmtV) : Statement (.vXor t f) := nofun
theorem vShl (t : ThreadId) (f : FmtV) : Statement (.vShl t f) := nofun
theorem vShr (t : ThreadId) (f : FmtV) : Statement (.vShr t f) := nofun
theorem vSar (t : ThreadId) (f : FmtV) : Statement (.vSar t f) := nofun
theorem vCmpeq (t : ThreadId) (f : FmtV) : Statement (.vCmpeq t f) := nofun
theorem vCmplt (t : ThreadId) (f : FmtV) : Statement (.vCmplt t f) := nofun
theorem vCmple (t : ThreadId) (f : FmtV) : Statement (.vCmple t f) := nofun
theorem vCmpun (t : ThreadId) (f : FmtV) : Statement (.vCmpun t f) := nofun
theorem vSel (t : ThreadId) (f : FmtV) : Statement (.vSel t f) := nofun
theorem vDiv (t : ThreadId) (f : FmtV) : Statement (.vDiv t f) := nofun
theorem vRcp (t : ThreadId) (f : FmtV) : Statement (.vRcp t f) := nofun
theorem vSqrt (t : ThreadId) (f : FmtV) : Statement (.vSqrt t f) := nofun
theorem vRsqrt (t : ThreadId) (f : FmtV) : Statement (.vRsqrt t f) := nofun
theorem vExp (t : ThreadId) (f : FmtV) : Statement (.vExp t f) := nofun
theorem vExp2 (t : ThreadId) (f : FmtV) : Statement (.vExp2 t f) := nofun
theorem vLog (t : ThreadId) (f : FmtV) : Statement (.vLog t f) := nofun
theorem vLog2 (t : ThreadId) (f : FmtV) : Statement (.vLog2 t f) := nofun
theorem vTanh (t : ThreadId) (f : FmtV) : Statement (.vTanh t f) := nofun
theorem vSigmoid (t : ThreadId) (f : FmtV) : Statement (.vSigmoid t f) := nofun
theorem vSilu (t : ThreadId) (f : FmtV) : Statement (.vSilu t f) := nofun
theorem vGelu (t : ThreadId) (f : FmtV) : Statement (.vGelu t f) := nofun
theorem vGeluT (t : ThreadId) (f : FmtV) : Statement (.vGeluT t f) := nofun
theorem vSoftplus (t : ThreadId) (f : FmtV) : Statement (.vSoftplus t f) := nofun
theorem vSin (t : ThreadId) (f : FmtV) : Statement (.vSin t f) := nofun
theorem vCos (t : ThreadId) (f : FmtV) : Statement (.vCos t f) := nofun
theorem vDrelu (t : ThreadId) (f : FmtV) : Statement (.vDrelu t f) := nofun
theorem vDsigmoid (t : ThreadId) (f : FmtV) : Statement (.vDsigmoid t f) := nofun
theorem vDtanh (t : ThreadId) (f : FmtV) : Statement (.vDtanh t f) := nofun
theorem vDexp (t : ThreadId) (f : FmtV) : Statement (.vDexp t f) := nofun
theorem vDsoftmax (t : ThreadId) (f : FmtV) : Statement (.vDsoftmax t f) := nofun
theorem vDsilu (t : ThreadId) (f : FmtV) : Statement (.vDsilu t f) := nofun
theorem vDgelu (t : ThreadId) (f : FmtV) : Statement (.vDgelu t f) := nofun
theorem vDgeluT (t : ThreadId) (f : FmtV) : Statement (.vDgeluT t f) := nofun
theorem vDsoftplus (t : ThreadId) (f : FmtV) : Statement (.vDsoftplus t f) := nofun
theorem vSum (t : ThreadId) (f : FmtV) : Statement (.vSum t f) := nofun
theorem vDot (t : ThreadId) (f : FmtV) : Statement (.vDot t f) := nofun
theorem vMaxi (t : ThreadId) (f : FmtV) : Statement (.vMaxi t f) := nofun
theorem vMini (t : ThreadId) (f : FmtV) : Statement (.vMini t f) := nofun
theorem vMov (t : ThreadId) (f : FmtV) : Statement (.vMov t f) := nofun
theorem rndu (t : ThreadId) (f : FmtV) : Statement (.rndu t f) := nofun
theorem rndb (t : ThreadId) (f : FmtV) : Statement (.rndb t f) := nofun
theorem drop (t : ThreadId) (f : FmtV) : Statement (.drop t f) := nofun
theorem rndx (t : ThreadId) (f : FmtS) : Statement (.rndx t f) := nofun
theorem cvt (t : ThreadId) (f : FmtD) : Statement (.cvt t f) := nofun
theorem chOpen (t : ThreadId) (f : FmtS) : Statement (.chOpen t f) := nofun
theorem chOpenReader (t : ThreadId) (f : FmtS) : Statement (.chOpenReader t f) := nofun
theorem chSend (t : ThreadId) (f : FmtS) : Statement (.chSend t f) := nofun
theorem chRecv (t : ThreadId) (f : FmtS) : Statement (.chRecv t f) := nofun
theorem chClose (t : ThreadId) (f : FmtS) : Statement (.chClose t f) := nofun
theorem chPoll (t : ThreadId) (f : FmtS) : Statement (.chPoll t f) := nofun
theorem sumpAdd (t : ThreadId) (f : FmtS) : Statement (.sumpAdd t f) := nofun
theorem signal (t : ThreadId) (f : FmtS) : Statement (.signal t f) := nofun
theorem wait (t : ThreadId) (f : FmtS) : Statement (.wait t f) := nofun
theorem arm (t : ThreadId) (f : FmtS) : Statement (.arm t f) := nofun
theorem read (t : ThreadId) (f : FmtS) : Statement (.read t f) := nofun
theorem cas (t : ThreadId) (f : FmtS) : Statement (.cas t f) := nofun
theorem commit (t : ThreadId) (f : FmtS) : Statement (.commit t f) := nofun
theorem fence (t : ThreadId) (f : FmtS) : Statement (.fence t f) := nofun
theorem waittag (t : ThreadId) (f : FmtS) : Statement (.waittag t f) := nofun
theorem done (t : ThreadId) (f : FmtS) : Statement (.done t f) := nofun
theorem yield (t : ThreadId) (f : FmtS) : Statement (.yield t f) := nofun
theorem issueQuantumExpiry (c : CoreId) : Statement (.issueQuantumExpiry c) := fun _ => rfl
theorem icacheMissFill (t : ThreadId) : Statement (.icacheMissFill t) := fun _ => rfl
theorem tagComplete (t : ThreadId) (op : Nat) (e : BgEnd) : Statement (.tagComplete t op e) := fun _ => rfl
theorem tileChunkEnd (c : CoreId) : Statement (.tileChunkEnd c) := fun _ => rfl
theorem swapTakeEffect (c : CoreId) : Statement (.swapTakeEffect c) := fun _ => rfl
theorem drainComplete (c : CoreId) : Statement (.drainComplete c) := fun _ => rfl
theorem vectorMicroopEnd (c : CoreId) : Statement (.vectorMicroopEnd c) := fun _ => rfl
theorem coreRetire (c : CoreId) : Statement (.coreRetire c) := fun _ => rfl
theorem sessionOpen (p : Pkt) : Statement (.sessionOpen p) := fun _ => rfl
theorem sessionClose (p : Pkt) : Statement (.sessionClose p) := fun _ => rfl
theorem sessionIdleTimeout (place : Fin 64) : Statement (.sessionIdleTimeout place) := fun _ => rfl
theorem getInfo (p : Pkt) : Statement (.getInfo p) := fun _ => rfl
theorem regRead (p : Pkt) : Statement (.regRead p) := fun _ => rfl
theorem regWrite (p : Pkt) : Statement (.regWrite p) := fun _ => rfl
theorem fabResetReqOrderly (p : Pkt) : Statement (.fabResetReqOrderly p) := fun _ => rfl
theorem fabResetReqAbrupt (p : Pkt) : Statement (.fabResetReqAbrupt p) := fun _ => rfl
theorem handover (p : Pkt) : Statement (.handover p) := fun _ => rfl
theorem setTopology (p : Pkt) : Statement (.setTopology p) := fun _ => rfl
theorem setRoutes (p : Pkt) : Statement (.setRoutes p) := fun _ => rfl
theorem portRetrain (p : Pkt) : Statement (.portRetrain p) := fun _ => rfl
theorem portDark (p : Pkt) : Statement (.portDark p) := fun _ => rfl
theorem portWake (p : Pkt) : Statement (.portWake p) := fun _ => rfl
theorem portDisable (p : Pkt) : Statement (.portDisable p) := fun _ => rfl
theorem portReset (p : Pkt) : Statement (.portReset p) := fun _ => rfl
theorem portRecheck (p : Pkt) : Statement (.portRecheck p) := fun _ => rfl
theorem portRebalance (p : Pkt) : Statement (.portRebalance p) := fun _ => rfl
theorem portLimits (p : Pkt) : Statement (.portLimits p) := fun _ => rfl
theorem portBootServe (p : Pkt) : Statement (.portBootServe p) := fun _ => rfl
theorem contextCreate (p : Pkt) : Statement (.contextCreate p) := fun _ => rfl
theorem contextDestroy (p : Pkt) : Statement (.contextDestroy p) := fun _ => rfl
theorem contextSetClass (p : Pkt) : Statement (.contextSetClass p) := fun _ => rfl
theorem loadProgram (p : Pkt) : Statement (.loadProgram p) := fun _ => rfl
theorem bindSlot (p : Pkt) : Statement (.bindSlot p) := fun _ => rfl
theorem setDeadline (p : Pkt) : Statement (.setDeadline p) := fun _ => rfl
theorem unbindSlot (p : Pkt) : Statement (.unbindSlot p) := fun _ => rfl
theorem memMapMap (p : Pkt) : Statement (.memMapMap p) := fun _ => rfl
theorem memMapUnmap (p : Pkt) : Statement (.memMapUnmap p) := fun _ => rfl
theorem memMapSetPartition (p : Pkt) : Statement (.memMapSetPartition p) := fun _ => rfl
theorem bulkCreateQp (p : Pkt) : Statement (.bulkCreateQp p) := fun _ => rfl
theorem bulkDestroyQp (p : Pkt) : Statement (.bulkDestroyQp p) := fun _ => rfl
theorem bulkRegisterKey (p : Pkt) : Statement (.bulkRegisterKey p) := fun _ => rfl
theorem bulkDeregisterKey (p : Pkt) : Statement (.bulkDeregisterKey p) := fun _ => rfl
theorem bulkBindSlot (p : Pkt) : Statement (.bulkBindSlot p) := fun _ => rfl
theorem bulkUnbindSlot (p : Pkt) : Statement (.bulkUnbindSlot p) := fun _ => rfl
theorem stepBegin (p : Pkt) : Statement (.stepBegin p) := fun _ => rfl
theorem stepCommit (p : Pkt) : Statement (.stepCommit p) := fun _ => rfl
theorem stepAbort (p : Pkt) : Statement (.stepAbort p) := fun _ => rfl
theorem stepAbortForce (p : Pkt) : Statement (.stepAbortForce p) := fun _ => rfl
theorem run (p : Pkt) : Statement (.run p) := fun _ => rfl
theorem preempt (p : Pkt) : Statement (.preempt p) := fun _ => rfl
theorem preemptSwap (p : Pkt) : Statement (.preemptSwap p) := fun _ => rfl
theorem securePolicy (p : Pkt) : Statement (.securePolicy p) := fun _ => rfl
theorem secureNow (p : Pkt) : Statement (.secureNow p) := fun _ => rfl
theorem restore (p : Pkt) : Statement (.restore p) := fun _ => rfl
theorem reshard (p : Pkt) : Statement (.reshard p) := fun _ => rfl
theorem serveJoin (p : Pkt) : Statement (.serveJoin p) := fun _ => rfl
theorem serveLeave (p : Pkt) : Statement (.serveLeave p) := fun _ => rfl
theorem readCounters (p : Pkt) : Statement (.readCounters p) := fun _ => rfl
theorem readEvents (p : Pkt) : Statement (.readEvents p) := fun _ => rfl
theorem readDeadlineRecords (p : Pkt) : Statement (.readDeadlineRecords p) := fun _ => rfl
theorem readTally (p : Pkt) : Statement (.readTally p) := fun _ => rfl
theorem powerPolicy (p : Pkt) : Statement (.powerPolicy p) := fun _ => rfl
theorem fwLoad (p : Pkt) : Statement (.fwLoad p) := fun _ => rfl
theorem fwLoadVerifyDone  : Statement (.fwLoadVerifyDone) := fun _ => rfl
theorem attest (p : Pkt) : Statement (.attest p) := fun _ => rfl
theorem debugPeek (p : Pkt) : Statement (.debugPeek p) := fun _ => rfl
theorem flitReceive (port : PortId) (wire : List Byte) : Statement (.flitReceive port wire) := fun _ => rfl
theorem replayTimeout (port : PortId) : Statement (.replayTimeout port) := fun _ => rfl
theorem nakRepeatTimeout (port : PortId) : Statement (.nakRepeatTimeout port) := fun _ => rfl
theorem idleFlitTimer (port : PortId) : Statement (.idleFlitTimer port) := fun _ => rfl
theorem helloTimer (port : PortId) : Statement (.helloTimer port) := fun _ => rfl
theorem helloReceive (port : PortId) (h : Hello) : Statement (.helloReceive port h) := fun _ => rfl
theorem helloAcceptTimeout (port : PortId) : Statement (.helloAcceptTimeout port) := fun _ => rfl
theorem helloWaitTimeout (port : PortId) : Statement (.helloWaitTimeout port) := fun _ => rfl
theorem linkCtlReceive (port : PortId) (m : LinkCtl) : Statement (.linkCtlReceive port m) := fun _ => rfl
theorem linkCtlRepeat (port : PortId) : Statement (.linkCtlRepeat port) := fun _ => rfl
theorem laneLockLoss (port : PortId) (lane : Fin 18) : Statement (.laneLockLoss port lane) := fun _ => rfl
theorem trainingAttemptEnd (port : PortId) (passing : BitVec 18) (peerWidth : Option (Fin 3)) (locked : Bool) (rttNs : Nat) : Statement (.trainingAttemptEnd port passing peerWidth locked rttNs) := fun _ => rfl
theorem v8FallbackTimeout (port : PortId) : Statement (.v8FallbackTimeout port) := fun _ => rfl
theorem retrainLimitExpiry (port : PortId) : Statement (.retrainLimitExpiry port) := fun _ => rfl
theorem downRetryTimer (port : PortId) : Statement (.downRetryTimer port) := fun _ => rfl
theorem signalDetect (port : PortId) : Statement (.signalDetect port) := fun _ => rfl
theorem noSignalTimeout (port : PortId) : Statement (.noSignalTimeout port) := fun _ => rfl
theorem darkNoticeRepeat (port : PortId) : Statement (.darkNoticeRepeat port) := fun _ => rfl
theorem darkNoticeReceive (port : PortId) (ns : Nat) : Statement (.darkNoticeReceive port ns) := fun _ => rfl
theorem darkDrainComplete (port : PortId) : Statement (.darkDrainComplete port) := fun _ => rfl
theorem darkDrainLimit (port : PortId) : Statement (.darkDrainLimit port) := fun _ => rfl
theorem darkWindowEnd (port : PortId) : Statement (.darkWindowEnd port) := fun _ => rfl
theorem refclkLnkLoss (k : Fin 4) : Statement (.refclkLnkLoss k) := fun _ => rfl
theorem packetRoute (ingress : Option PortId) (half : Half) (sub : Bool) (p : LPkt) : Statement (.packetRoute ingress half sub p) := fun _ => rfl
theorem lossReceive (p : LPkt) : Statement (.lossReceive p) := fun _ => rfl
theorem responseLimitExpiry (tag : BitVec 32) : Statement (.responseLimitExpiry tag) := fun _ => rfl
theorem mbResendTimeout (slot : SlotId) (dir : Fin 2) : Statement (.mbResendTimeout slot dir) := fun _ => rfl
theorem mbHeadReceive (p : LPkt) : Statement (.mbHeadReceive p) := fun _ => rfl
theorem pageWriteReceive (p : LPkt) : Statement (.pageWriteReceive p) := fun _ => rfl
theorem landingPageCommit (slot : SlotId) (q : Fin 3) (page : Nat) : Statement (.landingPageCommit slot q page) := fun _ => rfl
theorem creditRepeatTimer (slot : SlotId) (q : Fin 3) : Statement (.creditRepeatTimer slot q) := fun _ => rfl
theorem creditReceive (p : LPkt) : Statement (.creditReceive p) := fun _ => rfl
theorem sequencerDispatch (half : Half) : Statement (.sequencerDispatch half) := fun _ => rfl
theorem egressPageCommit (slot : SlotId) (dir : Fin 2) (page : Nat) : Statement (.egressPageCommit slot dir page) := fun _ => rfl
theorem egressStream (slot : SlotId) (dir : Fin 2) : Statement (.egressStream slot dir) := fun _ => rfl
theorem stashWaitGranted (slot : SlotId) : Statement (.stashWaitGranted slot) := fun _ => rfl
theorem spillFetchComplete (slot : SlotId) (mb : BitVec 24) : Statement (.spillFetchComplete slot mb) := fun _ => rfl
theorem kvRelayForward (slot : SlotId) : Statement (.kvRelayForward slot) := fun _ => rfl
theorem deadlineLate (slot : SlotId) (backward : Bool) : Statement (.deadlineLate slot backward) := fun _ => rfl
theorem groupReceive (slot : SlotId) (idx : Nat) : Statement (.groupReceive slot idx) := fun _ => rfl
theorem commitAnswer (t : ThreadId) : Statement (.commitAnswer t) := fun _ => rfl
theorem effectResponseReceive (p : LPkt) : Statement (.effectResponseReceive p) := fun _ => rfl
theorem chMsgReceive (p : LPkt) : Statement (.chMsgReceive p) := fun _ => rfl
theorem chOpenRequestReceive (p : LPkt) : Statement (.chOpenRequestReceive p) := fun _ => rfl
theorem chCloseRequestReceive (p : LPkt) : Statement (.chCloseRequestReceive p) := fun _ => rfl
theorem chAckReceive (p : LPkt) : Statement (.chAckReceive p) := fun _ => rfl
theorem chOpenRetryTimer (c : CoreId) (n : Fin 32) : Statement (.chOpenRetryTimer c n) := fun _ => rfl
theorem chStallExpiry (t : ThreadId) : Statement (.chStallExpiry t) := fun _ => rfl
theorem syncOpApply (p : LPkt) : Statement (.syncOpApply p) := fun _ => rfl
theorem syncRespReceive (p : LPkt) : Statement (.syncRespReceive p) := fun _ => rfl
theorem syncRetryTimer (t : ThreadId) : Statement (.syncRetryTimer t) := fun _ => rfl
theorem sumpAddPacket (p : LPkt) : Statement (.sumpAddPacket p) := fun _ => rfl
theorem sumpDeliveryComplete (half : Half) (engine : Fin 16) (sess : Fin 16) : Statement (.sumpDeliveryComplete half engine sess) := fun _ => rfl
theorem memLineAccess (a : LineAcc) : Statement (.memLineAccess a) := fun _ => rfl
theorem rowRepairCopyDone (stack : StackId) (channel : Fin 16) (rank : Fin 3) (bank : Fin 32) (row : BitVec 15) : Statement (.rowRepairCopyDone stack channel rank bank row) := fun _ => rfl
theorem memRemoteRequest (r : RemoteReq) : Statement (.memRemoteRequest r) := fun _ => rfl
theorem memRespReceive (p : LPkt) : Statement (.memRespReceive p) := fun _ => rfl
theorem memRetryTimer (tag : BitVec 32) : Statement (.memRetryTimer tag) := fun _ => rfl
theorem scrubStep (stack : StackId) (err : LineErr) : Statement (.scrubStep stack err) := fun _ => rfl
theorem mdCeIntervalEnd (stack : StackId) : Statement (.mdCeIntervalEnd stack) := fun _ => rfl
theorem hotspotWindowEnd (stack : StackId) (requests : List (Fin 16 × Nat)) (waiting : BitVec 16) (partition : Fin 16) : Statement (.hotspotWindowEnd stack requests waiting partition) := fun _ => rfl
theorem stackTempRead (stack : StackId) (readings : List (BitVec 8)) : Statement (.stackTempRead stack readings) := fun _ => rfl
theorem orderlyResetWaitExpiry (d : DieId) : Statement (.orderlyResetWaitExpiry d) := fun _ => rfl
theorem stackInitComplete (d : DieId) : Statement (.stackInitComplete d) := fun _ => rfl
theorem diePacketReceive (d : DieId) (group : Nat) (lanes : List (List W64)) (bundle : Nat) (trailer : W64) (corrected : Nat) (uncorrectable : Bool) :
    Statement (.diePacketReceive d group lanes bundle trailer corrected uncorrectable) := fun _ => rfl
theorem hopControlWord (d : DieId) (group : Nat) (w : HopWord) : Statement (.hopControlWord d group w) := fun _ => rfl
theorem groupRetestDone (d : DieId) (group : Nat) (failed : List (Nat × List (Fin 70))) : Statement (.groupRetestDone d group failed) := fun _ => rfl
theorem fabCeIntervalEnd (d : DieId) : Statement (.fabCeIntervalEnd d) := fun _ => rfl
theorem dieAbruptReset (d : DieId) : Statement (.dieAbruptReset d) := fun _ => rfl
theorem watchdogExpiry (d : DieId) : Statement (.watchdogExpiry d) := fun _ => rfl
theorem clockLoss (d : DieId) (island : Fin 6) : Statement (.clockLoss d island) := fun _ => rfl
theorem dieRejoin (d : DieId) (r : DieReport) : Statement (.dieRejoin d r) := fun _ => rfl
theorem refclkEthStop  : Statement (.refclkEthStop) := fun _ => rfl
theorem refclkEthReturn  : Statement (.refclkEthReturn) := fun _ => rfl
theorem refclkHoldoverEnd  : Statement (.refclkHoldoverEnd) := fun _ => rfl
theorem sealVote (ctx : CtxId) : Statement (.sealVote ctx) := fun _ => rfl
theorem sealLimitExpiry (ctx : CtxId) : Statement (.sealLimitExpiry ctx) := fun _ => rfl
theorem verdictApply (ctx : CtxId) : Statement (.verdictApply ctx) := fun _ => rfl
theorem swapHoldExpiry (ctx : CtxId) : Statement (.swapHoldExpiry ctx) := fun _ => rfl
theorem freezeWaitExpiry (ctx : CtxId) : Statement (.freezeWaitExpiry ctx) := fun _ => rfl
theorem swapSaveComplete (ctx : CtxId) : Statement (.swapSaveComplete ctx) := fun _ => rfl
theorem swapInComplete (ctx : CtxId) : Statement (.swapInComplete ctx) := fun _ => rfl
theorem captureLocalCopyDone  : Statement (.captureLocalCopyDone) := fun _ => rfl
theorem parityPartReceive (p : LPkt) : Statement (.parityPartReceive p) := fun _ => rfl
theorem journalPageReceive (fab : BitVec 24) (tensor : Nat) (page : Nat) (step : Nat) (data : List Byte) : Statement (.journalPageReceive fab tensor page step data) := fun _ => rfl
theorem captureReport  : Statement (.captureReport) := fun _ => rfl
theorem captureAbandon  : Statement (.captureAbandon) := fun _ => rfl
theorem restoreComplete (ctx : CtxId) (results : List TensorRestore) : Statement (.restoreComplete ctx results) := fun _ => rfl
theorem reshardChunkAck (ctx : CtxId) (status : BitVec 8) (pathLost : Bool) : Statement (.reshardChunkAck ctx status pathLost) := fun _ => rfl
theorem powerLoopTick  : Statement (.powerLoopTick) := fun _ => rfl
theorem canaryUpdate (d : DieId) (n : Fin 8) (rate : BitVec 16) : Statement (.canaryUpdate d n rate) := fun _ => rfl
theorem capTick (power : Nat) : Statement (.capTick power) := fun _ => rfl
theorem capExceeded  : Statement (.capExceeded) := fun _ => rfl
theorem thermalReading (readings : List (DieId × Fin 16 × BitVec 8)) : Statement (.thermalReading readings) := fun _ => rfl
theorem resetNAssert (ns : Nat) : Statement (.resetNAssert ns) := fun _ => rfl
theorem pwrGoodDeassert  : Statement (.pwrGoodDeassert) := fun _ => rfl
theorem railOutOfRange (vaux : Bool) : Statement (.railOutOfRange vaux) := fun _ => rfl
theorem domainFault (d : Fin 96) : Statement (.domainFault d) := fun _ => rfl
theorem packageStart (ethRate : Bool) (dies : List (DieId × DieReport)) : Statement (.packageStart ethRate dies) := fun _ => rfl
theorem heartbeatTimer  : Statement (.heartbeatTimer) := fun _ => rfl
theorem takeover  : Statement (.takeover) := fun _ => rfl
theorem standbySyncDone  : Statement (.standbySyncDone) := fun _ => rfl
theorem ethLinkChange (up : Bool) : Statement (.ethLinkChange up) := fun _ => rfl
theorem arpRequest (target : BitVec 32) (vlan : Option (BitVec 16)) : Statement (.arpRequest target vlan) := fun _ => rfl
theorem neighbourSolicitation (target : BitVec 128) (vlan : Option (BitVec 16)) : Statement (.neighbourSolicitation target vlan) := fun _ => rfl
theorem icmpEchoRequest (v6 : Bool) (payload : List Byte) (vlan : Option (BitVec 16)) : Statement (.icmpEchoRequest v6 payload vlan) := fun _ => rfl
theorem frameDrop (fragment : Bool) : Statement (.frameDrop fragment) := fun _ => rfl
theorem relayRequest (ip : BitVec 128) (port : BitVec 16) (header : W64) (inner : List Byte) : Statement (.relayRequest ip port header inner) := fun _ => rfl
theorem cmdRelayReceive (p : LPkt) : Statement (.cmdRelayReceive p) := fun _ => rfl
theorem cmdReplyReceive (p : LPkt) : Statement (.cmdReplyReceive p) := fun _ => rfl
theorem roceSendReceive (qpn : Nat) (psn : BitVec 24) (data : List Byte) : Statement (.roceSendReceive qpn psn data) := fun _ => rfl
theorem roceWriteReceive (qpn : Nat) (psn : BitVec 24) (rkey : BitVec 32) (addr : BitVec 48) (data : List Byte) (ce : Bool) : Statement (.roceWriteReceive qpn psn rkey addr data ce) := fun _ => rfl
theorem roceReadReceive (qpn : Nat) (psn : BitVec 24) (rkey : BitVec 32) (addr : BitVec 48) (len : Nat) : Statement (.roceReadReceive qpn psn rkey addr len) := fun _ => rfl
theorem roceAckReceive (qpn : Nat) (psn : BitVec 24) (kind : Fin 4) : Statement (.roceAckReceive qpn psn kind) := fun _ => rfl
theorem roceAckTimeout (qpn : Nat) : Statement (.roceAckTimeout qpn) := fun _ => rfl
theorem roceRnrTimer (qpn : Nat) : Statement (.roceRnrTimer qpn) := fun _ => rfl
theorem pfcFrameReceive (prio : Fin 8) (quanta : BitVec 16) : Statement (.pfcFrameReceive prio quanta) := fun _ => rfl
theorem cnpReceive (qpn : Nat) : Statement (.cnpReceive qpn) := fun _ => rfl
theorem cnpRateIncrease (qpn : Nat) : Statement (.cnpRateIncrease qpn) := fun _ => rfl
theorem bootPortUpTimeout  : Statement (.bootPortUpTimeout) := fun _ => rfl
theorem announceTimer  : Statement (.announceTimer) := fun _ => rfl
theorem bootOffer (serial : W64) (xid : BitVec 32) (server : BitVec 128) (port : BitVec 16) (imageLen : BitVec 32) (ip6 : Option (BitVec 128)) (ip4 : Option (BitVec 32 × BitVec 6)) (bundleLen : BitVec 32) : Statement (.bootOffer serial xid server port imageLen ip6 ip4 bundleLen) := fun _ => rfl
theorem bootData (serial : W64) (xid : BitVec 32) (block : BitVec 32) (data : List Byte) : Statement (.bootData serial xid block data) := fun _ => rfl
theorem bootBlockTimeout (block : BitVec 32) : Statement (.bootBlockTimeout block) := fun _ => rfl
theorem bootTransferTimeout  : Statement (.bootTransferTimeout) := fun _ => rfl
theorem bootVerifyDone (stackTab : List (StackId × StackReport)) : Statement (.bootVerifyDone stackTab) := fun _ => rfl
theorem perBootKeyReady  : Statement (.perBootKeyReady) := fun _ => rfl
theorem jtagIdcode  : Statement (.jtagIdcode) := fun _ => rfl
theorem jtagSamplePreload (cells : List Bool) : Statement (.jtagSamplePreload cells) := fun _ => rfl
theorem jtagExtest  : Statement (.jtagExtest) := fun _ => rfl
theorem jtagExtestPulse  : Statement (.jtagExtestPulse) := fun _ => rfl
theorem jtagExtestTrain  : Statement (.jtagExtestTrain) := fun _ => rfl
theorem jtagClamp  : Statement (.jtagClamp) := fun _ => rfl
theorem jtagHighz  : Statement (.jtagHighz) := fun _ => rfl
theorem jtagBypass  : Statement (.jtagBypass) := fun _ => rfl
theorem trstNAssert  : Statement (.trstNAssert) := fun _ => rfl
theorem selfRefreshExit (d : DieId) : Statement (.selfRefreshExit d) := fun _ => rfl
theorem ringTransfer (c : CoreId) (e : Fin 32) : Statement (.ringTransfer c e) := fun _ => rfl
theorem stashSpillDone (slot : SlotId) (mb : BitVec 24) : Statement (.stashSpillDone slot mb) := fun _ => rfl
theorem preemptionDone (ctx : CtxId) : Statement (.preemptionDone ctx) := fun _ => rfl
theorem refclkLnkReturn (k : Fin 4) : Statement (.refclkLnkReturn k) := fun _ => rfl
theorem pwrGoodAssert  : Statement (.pwrGoodAssert) := fun _ => rfl
theorem vauxInRange  : Statement (.vauxInRange) := fun _ => rfl
theorem vauxRemoved  : Statement (.vauxRemoved) := fun _ => rfl
theorem railBackInRange (vaux : Bool) : Statement (.railBackInRange vaux) := fun _ => rfl
theorem pfcPauseEnd (prio : Fin 8) : Statement (.pfcPauseEnd prio) := fun _ => rfl

end Sys2Proof.Laws.WordOrEvent
end

