-- ==== Sys2Proof/Tests/Slice0.lean ====
section
/-! SUPPORT. The model's own tests: ill-formed words that the check refuses, words written out bit by bit from the format tables,
single steps, and for every statement with hypotheses a state and operands that meet them. -/

namespace Sys2Proof.Machine.Tests

set_option Elab.async false

/-! ## Well-formedness (R224 to R226, R231 to R235): an ill-formed word for each check -/

/-- A word of format S with fields RD, RA, RB, RC. -/
def fS (rd ra rb rc : BitVec 5) : FmtS := ⟨rd, ra, rb, rc, false, false, 0⟩
/-- The same with IMM32 in place of RB. -/
def fI (rd ra rc : BitVec 5) (imm : BitVec 32) : FmtS := ⟨rd, ra, 0, rc, true, false, imm⟩
def fM (rs : BitVec 5) (ar : BitVec 3) (rl : BitVec 5) (tag : BitVec 6) : FmtM := ⟨rs, ar, rl, tag, 0, false, 0⟩
def fD (ar : BitVec 3) (tag : BitVec 6) : FmtD := ⟨ar, 0, false, 0, tag, 0⟩
/-- A word of format V in FP32 with offset operands. -/
def fV (d a b c : BitVec 5) : FmtV := ⟨d, a, b, c, 0, 0, 0, 13, 0, false, false, 0, 1, 0⟩

theorem test_wf_s : ∀ i ∈ [Instr.add 0 { fS 1 2 3 0 with res := true }, .add 0 (fS 1 2 3 4), .add 0 { fI 1 2 0 5 with rb := 3 },
    .add 0 { fS 1 2 3 0 with imm := 1 }, .getvl 0 (fS 1 2 0 0), .getvl 0 (fI 1 0 0 5), .aadd 0 (fS 8 1 2 0), .fence 0 (fS 0 0 0 0),
    .fence 0 (fI 0 0 0 8), .done 0 (fS 1 0 0 0)], i.wf = false := by decide
theorem test_wf_lb : ∀ i ∈ [Instr.li 0 ⟨1, true, 5⟩, .ali 0 ⟨8, false, 5⟩, .br 0 ⟨1, 2, 6, 0⟩, .jal 0 ⟨1, 2, 0, 0⟩, .jal 0 ⟨1, 0, 1, 0⟩, .jalr 0 ⟨1, 2, 1, 0⟩],
    i.wf = false := by decide
theorem test_wf_m : ∀ i ∈ [Instr.mld 0 { fM 1 2 3 4 with res := true }, .pref 0 (fM 1 2 3 0), .pref 0 (fM 0 2 3 4), .stashAlloc 0 (fM 1 2 3 0),
    .stashFind 0 { fM 1 0 3 0 with hint := 1 }], i.wf = false := by decide
theorem test_wf_d : ∀ i ∈ [Instr.tmma 0 { fD 1 0 with res := 1 }, .tmma 0 (fD 1 4), .tgemv 0 { fD 1 0 with shape := true }, .accSwap 0 { fD 1 4 with msk := 1 },
    .cvt 0 { fD 1 4 with msk := 3 }, .cvt 0 { fD 1 4 with ar2 := 2 }], i.wf = false := by decide
theorem test_wf_v : ∀ i ∈ [Instr.vAdd 0 { fV 1 2 3 0 with res := 1 }, .vAdd 0 { fV 1 2 3 0 with fmt := 9 }, .vAdd 0 { fV 1 2 3 0 with msk := 3 },
    .vAdd 0 { fV 1 2 3 0 with shape := true, x := 8 }, .vAdd 0 (fV 1 2 3 4), .vAdd 0 { fV 1 2 3 0 with bK := 3 },
    .vAdd 0 { fV 1 2 3 0 with aK := 2, bK := 2 }, .vSel 0 { fV 1 2 3 4 with cK := 1 }, .drop 0 { fV 1 2 3 4 with bK := 1 }, .vDsoftmax 0 (fV 1 2 3 0),
    .rndu 0 (fV 1 2 0 0), .vAnd 0 (fV 1 2 3 0)], i.wf = false := by decide
theorem test_wf_good : ∀ i ∈ [Instr.add 0 (fS 1 2 3 0), .add 0 (fI 1 2 0 5), .fence 0 (fI 0 0 0 7), .ali 0 ⟨7, false, 5⟩, .br 0 ⟨1, 2, 5, 0⟩, .mld 0 (fM 1 2 3 4),
    .tmma 0 (fD 1 0), .accSwap 0 (fD 1 63), .vAdd 0 (fV 1 2 3 0), .drop 0 { fV 1 2 3 4 with bK := 1, cK := 1 },
    .vDsoftmax 0 { fV 1 2 3 0 with shape := true, x := 7 }], i.wf = true := by decide

/-! ## Words written out from Table 8.8, one per family -/

theorem test_word_scalar : decodeInstr 0 0b00000000000000000000000000000000_0_0_00000_00010_00001_00011_000001_0000 = some (.sub 0 (fS 3 1 2 0)) := rfl
theorem test_word_li : decodeInstr 0 0b111111111111111111111111111111111111111111111111_0_11111_010110_0000 = some (.li 0 ⟨31, false, -1⟩) := rfl
theorem test_word_address : decodeInstr 0 0b00000000000000000000000001000000_0_1_00000_00000_00000_00101_000100_0001 = some (.awin 0 (fI 5 0 0 64)) := rfl
theorem test_word_branch : decodeInstr 0 0b1111111111111111111111111111111111111110_0000_01001_00001_000010_0010 = some (.jalr 0 ⟨1, 9, 0, -2⟩) := rfl
theorem test_word_memory : decodeInstr 0 0b00000000000000000000000000001000_0_01_111111_00011_111_00010_000011_0011 =
    some (.mst 0 ⟨2, 7, 3, 63, 1, false, 8⟩) := rfl
theorem test_word_tile : decodeInstr 0 0b000000000000000000000000000000000000000_000000_00_0_000_110_000001_0100 = some (.tgemv 0 (fD 6 0)) := rfl
theorem test_word_vector : decodeInstr 0 0b000000000_000010_00100_0_1_01_1110_00_01_10_00000_00011_00010_00001_000111_0101 =
    some (.vMin 0 ⟨1, 2, 3, 0, 2, 1, 0, 14, 1, true, false, 4, 2, 0⟩) := rfl
theorem test_word_channel : decodeInstr 0 0b00000000000000000000000000000000_0_0_00101_00100_00011_00000_000001_0110 = some (.chSend 0 (fS 0 3 4 5)) := rfl
theorem test_word_sync : decodeInstr 0 0b00000000000000000000000000000000_0_0_00101_00100_00011_00000_000100_0111 = some (.cas 0 (fS 0 3 4 5)) := rfl
theorem test_word_random : decodeInstr 0 0b000000000_000001_00010_1_0_00_1101_00_00_00_00000_00000_00000_00001_000000_1000 =
    some (.rndu 0 ⟨1, 0, 0, 0, 0, 0, 0, 13, 0, false, true, 2, 1, 0⟩) := rfl
theorem test_word_convert : decodeInstr 0 0b000000000000000000000000000000000000000_000001_10_1_010_001_000000_1001 = some (.cvt 0 ⟨1, 2, true, 2, 1, 0⟩) := rfl
theorem test_word_commit : decodeInstr 0 0b00000000000000000000000000000000_0_0_00000_00000_00111_00000_000000_1010 = some (.commit 0 (fS 0 7 0 0)) := rfl

/-! ## States for single steps -/

/-- A record whose scratchpad range is all of the scratchpad but its last bytes. -/
def recSp : Rec := put 96 22 0x3F_FFFF
/-- Every die admitted. -/
def upDies : Tab Die := (List.range 32).map fun d => (d, { dieDflt d with admitted := true })
/-- A package whose thread 0, with record `th`, is the only ready one: context 0 runs, slot 0 holds ten words of code. -/
def one (th : Thr) : Pkg := {
  pkgState := 3, dies := upDies, ctxs := [(0, { state := .running, resident := true, scheduled := true, record := recSp })]
  slots := [(0, { hdr := put 128 32 10, bound := true, bind := 1 })], thrs := [(0, { th with state := .ready })] }
/-- The same with region 0 of context 0: 64 KiB of stack 0 from address 0, with every permission. -/
def oneMem (th : Thr) : Pkg := { one th with
  regions := [⟨0, 1, 0, 0, 15, 0⟩] }
/-- The state of a package with an empty queue. -/
def at' (p : Pkg) : State := { pkg := p }
/-- Registers s from 0 on. -/
def withS (vs : List W64) : Thr := { s := tabSets 0 [] 0 vs }
/-- Registers a from 0 on. -/
def withA (vs : List (BitVec 48)) (t : Thr) : Thr := { t with a := tabSets 0 [] 0 vs }

/-- The package after a step that goes on. -/
def after (s : State) : Pkg := match step s with | .next t => t.pkg | _ => {}

theorem test_step_idle : (after (at' {})).now = 1 := rfl
theorem test_step_front : step { pending := [.add 0 (fS 3 1 2 0), .yield 0 (fS 0 0 0 0)], pkg := one (withS [0, 5, 7]) } =
    exec (.add 0 (fS 3 1 2 0)) { pending := [.yield 0 (fS 0 0 0 0)], pkg := one (withS [0, 5, 7]) } := rfl
theorem test_add : ((after { pending := [.add 0 (fS 3 1 2 0)], pkg := one (withS [0, -1, 2]) }).thr 0).rs 3 = 1 := by decide +kernel
theorem test_div_zero : ((after { pending := [.div 0 (fS 3 1 2 0)], pkg := one (withS [0, 9]) }).thr 0).rs 3 = -1 := by decide +kernel
theorem test_sar_imm : ((after { pending := [.sar 0 (fI 3 1 0 4)], pkg := one (withS [0, 0xF000_0000_0000_0000]) }).thr 0).rs 3 = 0xFF00_0000_0000_0000 := by
  decide +kernel
theorem test_fadd : ((after { pending := [.fadd 0 (fS 3 1 2 0)], pkg := one (withS [0, 0x3F80_0000, 0x4000_0000]) }).thr 0).rs 3 = 0x4040_0000 := by
  decide +kernel
theorem test_pc : ((after { pending := [.jal 0 ⟨4, 0, 0, 5⟩], pkg := one {} }).thr 0).pc = 5 := by decide +kernel
theorem test_not_selected : after { pending := [.add 1 (fS 3 1 2 0)], pkg := one {} } = one {} := by decide +kernel
theorem test_illegal : ((after { pending := [.add 0 (fS 1 2 3 4)], pkg := one {} }).ctx 0).state = .faulted := by decide +kernel
theorem test_memory_write : ((({} : Pkg).store 100 [1, 2, 3]).bytes 99 5) = [0, 1, 2, 3, 0] ∧
    Memory.wf (({} : Pkg).store 100 [1, 0, 3]).mem = true := by decide +kernel

/-! ## Witnesses: every statement's hypotheses hold somewhere. Threads and their instructions. -/

theorem test_wit_scalar : ∀ i ∈ [Instr.add 0 (fS 3 1 2 0), .sub 0 (fS 3 1 2 0), .mul 0 (fS 3 1 2 0), .mulhu 0 (fS 3 1 2 0), .mulh 0 (fS 3 1 2 0),
    .divu 0 (fS 3 1 2 0), .div 0 (fS 3 1 2 0), .remu 0 (fS 3 1 2 0), .rem 0 (fS 3 1 2 0), .and 0 (fS 3 1 2 0), .or 0 (fS 3 1 2 0), .xor 0 (fS 3 1 2 0),
    .shl 0 (fS 3 1 2 0), .shr 0 (fS 3 1 2 0), .sar 0 (fI 3 1 0 4), .min 0 (fS 3 1 2 0), .max 0 (fS 3 1 2 0), .minu 0 (fS 3 1 2 0), .maxu 0 (fS 3 1 2 0),
    .slt 0 (fS 3 1 2 0), .sltu 0 (fS 3 1 2 0), .seq 0 (fS 3 1 2 0), .fadd 0 (fS 3 1 2 0), .fsub 0 (fS 3 1 2 0), .fmul 0 (fS 3 1 2 0), .fdiv 0 (fS 3 1 2 0),
    .ffma 0 (fS 3 1 2 4), .fmin 0 (fS 3 1 2 0), .fmax 0 (fS 3 1 2 0), .flt 0 (fS 3 1 2 0), .fcvtif 0 (fS 3 1 0 0), .fcvtfi 0 (fS 3 1 0 0)],
    Issues (one (withS [0, 5, 7])) 0 i := by unfold Issues; decide +kernel
theorem test_wit_scalar_state : ∀ i ∈ [Instr.li 0 ⟨3, false, 5⟩, .getvl 0 (fS 3 0 0 0), .getvm 0 (fS 3 0 0 0), .getst 0 (fS 3 0 0 0), .rdic 0 (fS 3 0 0 0),
    .clrst 0 (fS 0 0 2 0), .setvl 0 (fS 0 0 2 0), .setvm 0 (fS 0 0 3 0), .rdinfo 0 (fS 3 0 4 0)],
    Issues (one (withS [0, 0, 1048576, 0x3F_FFFF, 5])) 0 i ∧ ((withS [0, 0, 1048576, 0x3F_FFFF, 5]).rs 2).toNat ≤ 1048576 ∧
      fld ((withS [0, 0, 1048576, 0x3F_FFFF, 5]).rs 3).toNat 22 41 = 0 := by unfold Issues; decide +kernel
theorem test_wit_scalar_traps : (one {}).selected 0 = true ∧ (Instr.setvl 0 (fS 1 0 2 0)).wf = false ∧ (Instr.setvl 0 (fS 0 0 2 0)).wf = true ∧
    1048576 < (opB (withS [0, 0, 1048577]) (fS 0 0 2 0)).toNat ∧ fld (opB (withS [0, 0, 0x40_0000]) (fS 0 0 2 0)).toNat 22 41 ≠ 0 ∧
    5 < (opB (withS [0, 0, 6]) (fS 3 0 2 0)).toNat := by decide +kernel
theorem test_wit_address : ∀ i ∈ [Instr.aadd 0 (fS 3 1 2 0), .amov 0 (fS 3 0 2 0), .ard 0 (fS 3 1 0 0), .ali 0 ⟨3, false, 5⟩, .awin 0 (fI 3 0 0 64)],
    Issues (one {}) 0 i := by unfold Issues; decide +kernel
theorem test_wit_branch : ∀ c ∈ [(0 : BitVec 4), 1, 2, 3, 4, 5], Issues (one (withS [0, 5, 7])) 0 (.br 0 ⟨1, 2, c, 9⟩) ∧
    Issues (one (withS [0, 5, 7])) 0 (.jal 0 ⟨4, 0, 0, 9⟩) ∧ Issues (one (withS [0, 5, 7])) 0 (.jalr 0 ⟨4, 1, 0, 9⟩) := by unfold Issues; decide +kernel

/-- Thread 0 with a1 at 64 KiB's last word of stack 0 or at its window, s2 = 8 bytes of the own device, s4 = 8 bytes of device 7. -/
def memThr (a : BitVec 48) : Thr := withA [0, a] (withS [0, 16, 8, 4128768, 8 + 7 * 2 ^ 32, 4])
theorem test_wit_memory_local : let p := oneMem (memThr 0xFFF8); let q := oneMem (memThr 0x8000_0000_0040)
    p.isRemote (fld (p.thr 0 |>.rs 2).toNat 32 24) = false ∧ Issues p 0 (.lds 0 (fM 1 1 0 0)) ∧ p.memTest 0 0xFFF8 8 false = none ∧ isWindowAddr 0xFFF8 = false ∧
    Issues q 0 (.lds 0 (fM 1 1 0 0)) ∧ q.memTest 0 0x8000_0000_0040 8 false = none ∧ isWindowAddr 0x8000_0000_0040 = true ∧ windowCore 0x8000_0000_0040 = coreOf 0 ∧
    q.spBadIn 0 64 8 = false ∧ effAddr (p.thr 0) (fM 1 1 2 0) = 0xFFF8 ∧ (p.thr 0).tagPending 3 = false ∧ Issues p 0 (.sts 0 (fM 1 1 0 3)) ∧
    p.isRemote (stsFab (p.thr 0) (fM 1 1 0 3)) = false ∧
    Issues p 0 (.mld 0 (fM 1 1 2 3)) ∧ Issues p 0 (.mst 0 (fM 1 1 2 3)) ∧ p.spTest 0 16 8 true = none ∧ p.memTest 0 0xFFF8 8 true = none := by
  unfold Issues; decide +kernel
theorem test_wit_memory_remote : let p := one (memThr 0xFFF8)
    p.isRemote (fld (p.thr 0 |>.rs 4).toNat 32 24) = true ∧ memLimits 0xFFF8 8 = none ∧ (p.thr 0).tagPending 3 = false ∧
    Issues p 0 (.mld 0 (fM 1 1 4 3)) ∧ p.spTest 0 16 8 true = none ∧ p.seqOpen 0 = false ∧ (p.thr 0).grp.length < 64 ∧ (p.thr 0).grpBytes + 8 ≤ 0x20_0000 ∧
    p.isRemote (stsFab (p.thr 0) (fM 1 1 4 3)) = true ∧ Issues p 0 (.sts 0 (fM 1 1 4 3)) ∧ Issues p 0 (.mst 0 (fM 1 1 4 3)) := by unfold Issues; decide +kernel
theorem test_wit_prefetch : let p := oneMem (memThr 0xFFF8)
    Issues p 0 (.pref 0 (fM 0 1 2 0)) ∧ p.memTest 0 0xFFF8 8 false = none ∧ isStackAddr 0xFFF8 = true ∧ p.stackTest 0xFFF8 8 = .ok := by
  unfold Issues; decide +kernel
/-- Thread 0 of a slot whose stash is four pages from 64 KiB on, with one allocation of micro-batch 0, layer 0, class 0. -/
def stashOne (l : List StashAlloc) : Pkg := { one (memThr 0) with
  slots := [(0, { hdr := put 128 32 10, bound := true, bind := 1 + put 896 48 65536 + put 960 32 4, stash := l })] }
theorem test_wit_stash : let p := stashOne []; let q := stashOne [⟨0, 0, 0, 2, 1, false, none, false, none⟩]
    Issues p 0 (.stashAlloc 0 (fM 1 0 2 0)) ∧ (p.stashAlloc 0 0 0 0 1).1 = .addr 65536 ∧ (({ p with slots := [(0, { hdr := put 128 32 10, bound := true })] } : Pkg).stashAlloc
      0 0 0 0 1).1 = .recompute ∧ Issues q 0 (.stashFind 0 (fM 1 0 5 0)) ∧
    ((q.slot 0).stash.find? (fun x => x.mb == 0 && x.layer == 0 && x.cls == 0)).isSome = true ∧ (p.slot 0).stash = [] := by
  unfold Issues; decide +kernel
theorem test_wit_memory_traps : let p := oneMem (memThr 0xFFF8); let q := oneMem { memThr 0xFFF8 with pend := 8 }
    Issues p 0 (.mld 0 (fM 1 1 2 3)) ∧ (q.thr 0).tagPending 3 = true ∧ ((memThr 0xFFF8).rs 1).toNat % 8 = 0 ∧ effAddr (memThr 0xFFFC) (fM 1 1 2 3) % 8 ≠ 0 ∧
    ((memThr 0).rs 5).toNat % 2 ^ 32 = 4 ∧ 4128768 < (4128776 : Nat) ∧ p.progAccess 0 (p.ctxCores 0) 0x1_0000 8 false = .address ∧
    p.progAccess 0 (p.ctxCores 0) 0xFFF8 16 true = .address := by unfold Issues; decide +kernel

/-- A package whose own window holds `v` in its first bytes, with a1 at the window. -/
def winMem (n v : Nat) (th : Thr) (c : CoreS) : Pkg := { one (withA [0, 0x8000_0000_0000] th) with
  mem := memPut [] 0x8000_0000_0000 (toLe n v), cores := [(0, c)] }
/-- A TMMA descriptor: FP32 is no engine format, so E4M3 (0) by E4M3, one row, one column, one position; START by bit 330. -/
def tileD (start : Nat) : Nat := put 0 22 64 + put 96 22 128 + put 192 20 8 + put 224 20 8 + put 330 1 start
theorem test_wit_tile : ∀ g ∈ [false, true], let p := winMem 64 (tileD 1) {} {}; let q := winMem 64 (tileD 0) {} {}
    let r := winMem 64 (tileD 0) {} { owner := some 0, running := [⟨0, g, 0, 0, 0, none⟩] }
    descTest 0 0x8000_0000_0000 64 = none ∧ p.spBadIn 0 0 64 = false ∧ Issues p 0 (.tmma 0 (fD 1 0)) ∧ Issues p 0 (.tgemv 0 (fD 1 0)) ∧
    p.tileTest 0 g (p.num 0x8000_0000_0000 64) = none ∧ bit (p.num 0x8000_0000_0000 64) 330 = true ∧ (p.core 0).owner = none ∧
    q.tileTest 0 g (q.num 0x8000_0000_0000 64) = none ∧ bit (q.num 0x8000_0000_0000 64) 330 = false ∧ (r.core 0).owner = some 0 ∧
    Issues r 0 (.tmma 0 (fD 1 0)) ∧ r.tileTest 0 g (r.num 0x8000_0000_0000 64) = none := by unfold Issues; decide +kernel
theorem test_wit_swap : let p := winMem 64 (put 0 22 64 + put 96 22 128) {} { owner := some 0 }
    let k : Drain := { thr := 0, tag := 5, desc := p.num 0x8000_0000_0000 64, pc := 0, inst := (encode (.accSwap 0 (fD 1 5))).getD 0, bgId := 0,
                       rows := (p.core 0).region.1, cols := (p.core 0).region.2, gemvRows := 0 }
    Issues p 0 (.accSwap 0 (fD 1 5)) ∧ (p.thr 0).tagPending 5 = false ∧ (p.core 0).owner = some 0 ∧ p.drainTest 0 k = none := by
  unfold Issues; decide +kernel

/-- Thread 0 ready in the package with core 0 as given. -/
def onec (th : Thr) (c : CoreS) : Pkg := { one th with cores := [(0, c)] }
/-- Thread 0 with two elements per row and words 64 bytes apart in s1 to s4. -/
def vThr (vl : BitVec 21) : Thr := { withS [0, 64, 128, 192, 256] with vl := vl }
/-- A vector operation of thread 0 at its first element. -/
def vOp (cls opc fmt vl : Nat) : VecOp := { thr := 0, cls := cls, opc := opc, bgId := 0, tag := 1, pc := 0, inst := 0, fmt := fmt, d := 64, vl := vl }
theorem test_wit_vector_binary : let o : VecOp := { vOp 5 0 13 2 with av := 128, bv := 192, ck := 1 }
    ∀ i ∈ [Instr.vAdd 0 (fV 1 2 3 0), .vMin 0 (fV 1 2 3 0), .vCmpeq 0 (fV 1 2 3 0), .vDiv 0 (fV 1 2 3 0), .vDrelu 0 (fV 1 2 3 0), .vDot 0 (fV 1 2 3 0)],
      Issues (one (vThr 2)) 0 i ∧ Issues (one (vThr 0)) 0 i ∧ Issues (one (vThr 1048577)) 0 i ∧ (one (vThr 2)).vecTest 0 o = none := by
  unfold Issues; decide +kernel
theorem test_wit_vector_int : let o : VecOp := { vOp 5 9 14 2 with av := 128, bv := 192, ck := 1 }
    ∀ i ∈ [Instr.vAdds 0 { fV 1 2 3 0 with fmt := 14 }, .vAnd 0 { fV 1 2 3 0 with fmt := 14 }, .vShl 0 { fV 1 2 3 0 with fmt := 14 }],
      Issues (one (vThr 2)) 0 i ∧ (one (vThr 2)).vecTest 0 o = none := by unfold Issues; decide +kernel
theorem test_wit_vector_unary : let o : VecOp := { vOp 5 5 13 2 with av := 128, bk := 1, ck := 1 }
    ∀ i ∈ [Instr.vNeg 0 (fV 1 2 0 0), .vExp 0 (fV 1 2 0 0), .vSum 0 (fV 1 2 0 0), .vMov 0 (fV 1 2 0 0)],
      Issues (one (vThr 2)) 0 i ∧ (one (vThr 2)).vecTest 0 o = none := by unfold Issues; decide +kernel
theorem test_wit_vector_rest : (∀ i ∈ [Instr.vFma 0 (fV 1 2 3 4), .vSel 0 (fV 1 2 3 4), .rndu 0 (fV 1 0 0 0), .rndb 0 { fV 1 0 0 0 with fmt := 14 },
      .drop 0 { fV 1 2 3 4 with bK := 1, cK := 1 }], Issues (one (vThr 2)) 0 i) ∧ (one (vThr 2)).vecTest 0 { vOp 5 3 13 2 with av := 128, bv := 192, cv := 256 } = none ∧
    (one (vThr 2)).vecTest 0 { vOp 8 0 13 2 with ak := 1, bk := 1, ck := 1 } = none ∧
    (one (vThr 2)).vecTest 0 { vOp 8 2 13 2 with av := 128, bv := 192, cv := 256, bk := 1, ck := 1 } = none := by unfold Issues; decide +kernel
/-- A shape of two rows, D pitch 64 in s1, at the window. -/
def shapeD : Nat := put 0 16 1 + put 16 22 64 + put 40 22 64 + put 64 22 64
/-- Thread 0 with `th`'s registers and the bytes of `v` at its window, which a1 names. -/
def winS (n v : Nat) (th : Thr) : Pkg := { one { th with a := [(1, 0x8000_0000_0000)] } with mem := memPut [] 0x8000_0000_0000 (toLe n v) }
def sThr (vl : BitVec 21) : Thr := { withS [0, 256, 512, 1024, 2048] with vl := vl }
theorem test_wit_vector_shaped : let p := winS 32 shapeD (sThr 2)
    let o : VecOp := { vOp 5 0 13 2 with d := 256, av := 512, bv := 1024, ck := 1, rows := 2, shaped := true, shape := p.num 0x8000_0000_0000 32 }
    Issues p 0 (.vAdd 0 { fV 1 2 3 0 with shape := true, x := 1 }) ∧ Issues p 0 (.vDsoftmax 0 { fV 1 2 3 0 with shape := true, x := 1 }) ∧
    p.shapeTest 0 0x8000_0000_0000 false false false = none ∧ p.shapeTest 0 0x8000_0000_0000 true false false = none ∧
    p.spBadIn 0 0 32 = false ∧ p.vecTest 0 o = none := by unfold Issues; decide +kernel
/-- A CVT descriptor: two elements of FP32 at 512 into BF16 (10) at 256. -/
def cvtD : Nat := put 0 22 512 + put 96 22 256 + put 182 4 13 + put 186 4 10
theorem test_wit_cvt : let p := winS 64 cvtD (sThr 2); let q := winS 64 shapeD { sThr 2 with a := [] }
    Issues p 0 (.cvt 0 ⟨1, 0, false, 0, 1, 0⟩) ∧ Issues p 0 (.cvt 0 ⟨1, 1, true, 0, 1, 0⟩) ∧ (p.thr 0).tagPending 1 = false ∧ descTest 0 0x8000_0000_0000 64 = none ∧
    p.spBadIn 0 0 64 = false ∧ q.shapeTest 0 0x8000_0000_0000 false true false = none ∧
    p.cvtTest 0 { vOp 9 0 0 2 with fmt := 0, d := 0, ak := 1, bk := 1, ck := 1, desc := p.num 0x8000_0000_0000 64 } = none := by
  unfold Issues; decide +kernel
theorem test_wit_rndx : let p : Pkg := { one (withS [0, 64, 3, 2]) with regions := [⟨0x1_0000, 1, 0, 0, 15, 2⟩] }
    Issues p 0 (.rndx 0 (fS 0 1 2 3)) ∧ p.seqOpen 0 = false ∧ p.streamAddr 0 3 = some 0x1_0060 ∧ p.spTest 0 64 32 true = none ∧
    p.streamHeld 0 3 (p.itemOf 0) = false := by unfold Issues; decide +kernel

/-! ## Channels, sumps, synchronisation, commit -/

theorem test_wit_ch_open : let p := one (withS [5, 1024, 31]); let q := winS 32 (put 8 24 9) (withS [0, 1, 31])
    Issues p 0 (.chOpen 0 (fS 0 1 0 2)) ∧ fld ((p.thr 0).rs 0).toNat 8 20 = 0 ∧ (p.conn 0 31).state = 0 ∧ fld 1024 24 9 < 384 ∧
    Issues q 0 (.chOpenReader 0 (fS 0 0 1 2)) ∧ bit ((q.thr 0).rs 1).toNat 0 = true ∧ q.spTest 0 0 32 false = none ∧ q.spBadIn 0 0 32 = false ∧
    fld (q.spNum 0 0 32) 8 24 ≠ 0 ∧ bit (q.spNum 0 0 32) 1 = false ∧ fld (q.spNum 0 0 32) 32 128 = 0 ∧ (q.ep 0 31).state ≠ 1 := by
  unfold Issues; decide +kernel
/-- Thread 0 with connection 2 open with `n` credits and endpoint 2 of its item with `e`. -/
def chanOne (n : Nat) (e : Endpoint) : Pkg := onec (withS [0, 2, 64, 1]) { conns := [(2, { state := 1, credits := n })], eps := [(2, e)] }
def myEp : Endpoint := { state := 1, reader := some (0, 0), everOpened := true }
theorem test_wit_ch_send : let p := chanOne 1 {}; let q := chanOne 0 {}
    Issues p 0 (.chSend 0 (fS 0 1 2 3)) ∧ p.seqOpen 0 = false ∧ p.spTest 0 64 64 false = none ∧ (p.conn 0 2).state = 1 ∧ (p.conn 0 2).item = p.itemOf 0 ∧
    (p.conn 0 2).closing = false ∧ 1 ≤ (p.conn 0 2).credits ∧ Issues q 0 (.chSend 0 (fS 0 1 2 3)) ∧ (q.conn 0 2).credits < 1 ∧
    Issues p 0 (.chClose 0 (fS 0 1 0 0)) := by unfold Issues; decide +kernel
theorem test_wit_ch_recv : let p := chanOne 0 myEp; let q := chanOne 0 { myEp with conns := [(0, 0, 0, 0, 0)] }
    let r := chanOne 0 { myEp with unread := [[], [{ data := toLe 64 7 }]] }
    (∀ x ∈ [p, q, r], Issues x 0 (.chRecv 0 (fS 3 1 2 0)) ∧ x.readerOf 0 2 = true ∧ Issues x 0 (.chPoll 0 (fS 3 1 0 0))) ∧
    epUnread (p.ep 0 2) = 0 ∧ (p.ep 0 2).conns = [] ∧ epUnread (q.ep 0 2) = 0 ∧ (q.ep 0 2).conns ≠ [] ∧ epUnread (r.ep 0 2) ≠ 0 ∧
    ((r.ep 0 2).unread.filter fun m => !m.isEmpty).head? = some [{ data := toLe 64 7 }] ∧ r.spTest 0 64 64 true = none := by unfold Issues; decide +kernel
theorem test_wit_sync_issue : let p := winS 64 0 (withS [0, 4095, 0, 68, 5]); let q := one { withS [0, 4095] with grp := List.replicate 64 (.sync 0 0 0 0) }
    p.seqOpen 0 = false ∧ fld 4095 12 4 = 0 ∧ fld 4095 40 24 = 0 ∧ (p.thr 0).grp.length < 64 ∧ (q.thr 0).grp.length = 64 ∧ q.seqOpen 0 = false ∧
    (∀ i ∈ [Instr.signal 0 (fS 0 1 4 0), .arm 0 (fS 0 1 4 0), .cas 0 (fS 0 1 4 3), .sumpAdd 0 (fS 0 1 2 3), .wait 0 (fS 0 1 4 0), .read 0 (fS 3 1 0 0)],
      Issues p 0 i) ∧ Issues q 0 (.signal 0 (fS 0 1 4 0)) ∧ Issues q 0 (.arm 0 (fS 0 1 4 0)) ∧ Issues q 0 (.cas 0 (fS 0 1 4 3)) ∧
    p.spTest 0 0 68 false = none ∧ p.spBadIn 0 0 64 = false ∧ sumpElt (fld (p.spNum 0 0 64) 40 2) = 4 ∧ (68 - 64) % 4 = 0 := by
  unfold Issues; decide +kernel
theorem test_wit_commit : let p := one (withS [1023, 2, 8]); let q := one { withS [0, 2, 8] with pend := 8, bg := [⟨0, 3, 0, 0, .store 0 0 8 0⟩] }
    let r := one { grp := [.sync 0 0 0 0] }
    Issues p 0 (.commit 0 (fS 0 0 0 0)) ∧ p.seqOpen 0 = false ∧ ((p.thr 0).rs 0).toNat = 1023 ∧
    (∀ x ∈ [p, q], Issues x 0 (.fence 0 (fI 0 0 0 7)) ∧ Issues x 0 (.waittag 0 (fS 0 0 2 0)) ∧ Issues x 0 (.done 0 (fS 0 0 0 0)) ∧ Issues x 0 (.yield 0 (fS 0 0 0 0))) ∧
    p.waitOver 0 { p.thr 0 with wait := .fence 7 } = true ∧ q.waitOver 0 { q.thr 0 with wait := .fence 7 } = false ∧ (p.thr 0).pend &&& 8 = 0 ∧
    (q.thr 0).pend &&& 8 ≠ 0 ∧ (q.thr 0).pend ≠ 0 ∧ Issues r 0 (.done 0 (fS 0 0 0 0)) := by unfold Issues; decide +kernel

/-! ## Events of a core -/

theorem test_wit_core : let p := onec {} { issuer := some 0, consec := 32 }; let q := chanOne 0 myEp
    (p.core 0).issuer.isSome = true ∧ (p.core 0).quantum ≤ (p.core 0).consec ∧ p.canRun 0 = true ∧ (p.core 0).issuer = some (threadIn 0) ∧ (p.core 0).retired = false ∧
    (q.ep 0 2).state = 1 := by decide +kernel
/-- Thread 0 with one background operation of kind `k`. -/
def bgOne (k : BgKind) : Pkg := oneMem { bg := [⟨7, 3, 1, 0, k⟩] }
theorem test_wit_background : let p := bgOne (.load 64 0 8 0); let q := { p with stackTab := [(0, { undefAll := true })] }
    let r := { p with stackTab := [(0, { state := 2 })] }; let u := { bgOne (.store 64 0 8 0) with cores := [(0, { spBad := [(0, true)] })] }
    (p.thr 0).bg.find? (fun b => b.id == 7) = some ⟨7, 3, 1, 0, .load 64 0 8 0⟩ ∧ p.bgTest 64 8 = .ok ∧ p.windowBad 64 8 = false ∧
    r.bgTest 64 8 = .unavailable ∧ p.spBadIn 0 0 8 = false ∧ u.spBadIn 0 0 8 = true ∧ (u.thr 0).bg ≠ [] ∧ q.pkgState = 3 ∧
    ((bgOne (.storeWord 64 5 0)).thr 0).bg.find? (fun b => b.id == 7) = some ⟨7, 3, 1, 0, .storeWord 64 5 0⟩ := by decide +kernel
theorem test_wit_engine : let op : TileOp := ⟨0, false, 0, 0, 0, none⟩; let d : Drain := { thr := 0, tag := 1, desc := 0, pc := 0, inst := 0, bgId := 7 }
    let v : VecOp := { vOp 5 0 13 2 with av := 128, bv := 192, ck := 1, rows := 2 }
    let p := onec {} { running := [op] }; let q := onec {} { swap := some d }; let r := onec {} { drain := some d }; let u := onec {} { vops := [v], vrun := some 0 }
    (p.core 0).running = [op] ∧ p.rangesBad 0 (tileRanges op.gemv op.desc) = false ∧
    (onec {} { running := [op], spBad := [(0, true)] }).rangesBad 0 (tileRanges op.gemv op.desc) = true ∧
    (q.core 0).swap = some d ∧ (q.core 0).running = [] ∧ (q.core 0).drain = none ∧ (r.core 0).drain = some d ∧ (r.core 0).swap = none ∧
    r.rangesBad 0 (drainVec d) = false ∧ ((r.drainRun 0 d).core 0).swap = none ∧
    (onec {} { spBad := [(0, true)] }).rangesBad 0 (drainVec { d with desc := put 156 4 1, cols := 1 }) = true ∧
    (u.core 0).vrun = some 0 ∧ u.rangesBad 0 (u.vecReads 0 v) = false ∧ v.next.isSome = true ∧
    (let w := onec {} { vops := [{ v with rows := 1 }], vrun := some 0 }; w.rangesBad 0 (w.vecReads 0 { v with rows := 1 })) = false ∧ ({ v with rows := 1 } : VecOp).next = none := by decide +kernel
/-- The worked row of chapter 7: DROP over 11,264 FP32 elements takes 16 + 16 + 12 steps and 8 of staging. -/
theorem test_drop_steps : ({ vOp 8 2 13 11264 with bk := 1, ck := 1 } : VecOp).steps = 52 := by decide +kernel

/-! ## Stage links -/

/-- A package with port 3 as given and epoch 0. -/
def portOne (q : Port) : Pkg := { ports := [(3, q)] }
def flit0 : List Byte := flitBytes 0 [] 0
theorem test_wire : fromWire 16 (toWire 16 flit0) = some (flit0, 0) := by decide +kernel
theorem test_wit_flits : let p := portOne { state := .active }; flitCrcOk flit0 0 = true ∧ flitCrcOk (flit0.set 0 1) 0 = false ∧
    fromWire 16 [] = none ∧ laneCount 0 = 16 ∧ (p.port 3).talks = true ∧ (p.port 4).talks = false ∧ (p.port 3).rxSeq = 0 ∧
    (((p.addCtr .ldFecCorr 3 0).takeAck 3 (leNat (flit0.take 4))).port 3).carrying = true ∧
    (∀ t ∈ [0, 1, 4, 5, 7], flitCrcOk (flitBytes t [] 0) 0 = true ∧ fld (leNat ((flitBytes t [] 0).take 4)) 0 4 = t) := by decide +kernel
theorem test_wit_link_timers : let p := portOne { state := .narrow, nakWait := true, replayBuf := [⟨0, 0, [], 0, 0, 0, 0, (0, 0)⟩], ctlOut := some (2, true), darkNoticeOut := true }
    (p.port 3).talks = true ∧ (p.port 3).state ≠ .hello ∧ (p.port 3).carrying = true ∧ (p.port 3).nakWait = true ∧ (p.port 3).replayBuf ≠ [] ∧
    (p.port 3).ctlOut = some (2, true) ∧ (p.port 3).darkNoticeOut = true := by decide +kernel
def hi (acc : Bool) (ep ser : Nat) : Hello := ⟨BitVec.ofNat 64 ser, 5, 2, 1, acc, BitVec.ofNat 32 ep, 0, 9⟩
theorem test_wit_hello : let p := portOne { state := .hello, planned := some (7, 5) }; let q := { p with ports := [(2, { planned := some (8, 5), logical := 2 }), (3, { state := .hello, planned := some (7, 5) })] }
    let u := portOne { state := .hello, accepted := true }
    (p.port 3).versionWith (hi true 0 7) = 2 ∧ helloIs (hi true 0 7) (p.port 3).planned = true ∧ helloIs (hi true 0 8) (p.port 3).planned = false ∧
    p.swapPort 3 (hi true 0 8) = none ∧ q.swapPort 3 (hi true 0 8) = some 2 ∧ (q.port 3).acceptSwap = false ∧ (hi true 1 7).epoch.toNat ≠ p.epoch ∧
    (hi false 0 7).epoch.toNat = p.epoch ∧ (hi false 0 7).planHash.toNat = p.planHash ∧ (p.port 3).minVersion = 0 ∧
    (portOne { state := .hello, minVersion := 3 }).port 3 = { state := .hello, minVersion := 3 } ∧ (p.port 3).bootOpen = false ∧
    (u.port 3).accepted = true ∧ (u.port 3).state = .hello := by decide +kernel
/-- Lane map that keeps physical lanes 1 to 16. -/
def map1 : Rec := laneMapOf ((List.range 16).map (· + 1))
theorem test_wit_training : let p := portOne { state := .training, lanemap := map1, v8 := true, retrainFrom := some 5, planned := some (7, 5) }
    let old := (List.range 16).map (laneOf map1)
    let d := { portOne { trainFails := 8 } with dies := [(linkDie 3, { state := 0 })] }
    (p.port 3).state = .training ∧ widthFor (bitsOf 18 (0x3FFFF : BitVec 18).toNat).length false = some 0 ∧ old.all (bitsOf 18 (0x3FFFF : BitVec 18).toNat).contains = true ∧
    old.eraseDups.length = 16 ∧ (p.port 3).v8 = true ∧ (p.port 3).retrainFrom.isSome = true ∧ (p.port 3).planned.isSome = true ∧ (p.port 3).fastRetrain = false ∧
    (portOne { state := .training, fastRetrain := true }).port 3 ≠ {} ∧ (portOne { state := .absent }).port 3 ≠ {} ∧
    (d.port 3).state = .down ∧ tabGet false d.lnkLost (3 / 4) = false ∧ d.portHeld 3 = false ∧ 8 ≤ (d.port 3).trainFails ∧ ({ d with ports := [] }.port 3).trainFails < 8 := by
  decide +kernel
theorem test_wit_link_control : let p := portOne { state := .active, lanemap := map1 }; let q := portOne { state := .active, ctlOut := some (1, true) }
    let r := portOne { state := .active, darkPending := true }; let u := portOne { state := .dark }
    (2 : Nat) ∈ (List.range (laneCount (p.port 3).width)).map (laneOf (p.port 3).lanemap) ∧ (p.port 3).talks = true ∧ (p.port 3).darkPending = false ∧ (p.port 3).ctlOut = none ∧
    (q.port 3).ctlOut = some (1, true) ∧ (r.port 3).darkPending = true ∧ (r.port 3).replayBuf = [] ∧ (r.port 3).txWait = [] ∧ (u.port 3).state = .dark := by decide +kernel
theorem test_wit_link_serial : ({} : Pkg).serial < (-1 : W64).toNat ∨ (0 : W64).toNat < ({} : Pkg).serial := by
  rcases Nat.eq_zero_or_pos ({} : Pkg).serial with h | h
  · exact .inl (by rw [h]; decide)
  · exact .inr h
/-- A packet of kind `kind` from `src` to this device. -/
def pk (kind : BitVec 4) (src : BitVec 24) (kspec : BitVec 96) (bs : List Byte) : LPkt := ⟨0, src, kind, 64, 0, 77, 0, kspec, bs⟩
/-- One route of /24 to device 9 whose primary list is port 3 and whose table `pri` is given. -/
def routed (ps : Tab Port) (pri : List Nat) : Pkg := { ports := ps, topoSet := true, routes := [{ ent := put 0 24 9 + put 24 5 24 + put 32 16 8, pri := pri }] }
theorem test_wit_routing : let k := { pk 8 5 0 [] with dst := 9 }; let p := routed [] []; let q := routed [(3, { state := .training, logical := 3 })] []
    let r := routed [(3, { state := .active, logical := 3 })] (List.replicate 64 3)
    (pk 8 5 0 []).dst.toNat = p.fabAddr ∧ k.dst.toNat ≠ p.fabAddr ∧ ({ k with hops := 0 } : LPkt).hops = 0 ∧ k.hops ≠ 0 ∧
    ({ p with routes := [] } : Pkg).routeOf 9 = none ∧ p.routeOf 9 = some 0 ∧ ((p.routes[0]?).map fun x => x.choose k) = some none ∧
    ((p.routes[0]?).map p.mayWait) = some false ∧ ((q.routes[0]?).map q.mayWait) = some true ∧ ((r.routes[0]?).map fun x => x.choose k) = some (some 3) := by decide +kernel
/-- One outstanding request with TAG 77 of packet `k`. -/
def reqOne (k : LPkt) (n : Nat) (rt : Bool) : Pkg := { reqs := [(77, some ⟨k, n, .doneObj, rt, 0⟩)] }
theorem test_wit_lost : let i := pk 8 5 0 []; let w := pk 10 5 0 []; let l := pk 14 5 77 []
    Reaches (reqOne i 0 false) l 14 ∧ (∀ k ∈ [i, w], ∀ n ∈ [0, 2, 3], (reqOne k n false).req 77 = some ⟨k, n, .doneObj, false, 0⟩) ∧ isIdempotent i = true ∧
    isIdempotent w = false ∧ fld l.kspec.toNat 0 32 = 77 ∧ ({} : Pkg).req 77 = none ∧ fld (pk 14 5 (77 + 2 * 2 ^ 32) []).kspec.toNat 32 4 = 2 := by
  unfold Reaches; decide +kernel

/-! ## Slots and queues, groups, channels, synchronisation objects, sumps -/

/-- Slot 0 bound, with ingress queue 0 of sender 5: 4 pages at 64 KiB, granted to page 4. -/
def slotOne (g : Ingress) (x : SlotS) : Pkg := { dies := upDies, slots := [(0, { x with bound := true, res := put 0 32 4, ing := [(0, { g with sender := 5, pages := 4, base := 65536, clSent := 4 })] })] }
/-- A micro-batch header of `n` pages from page `a`, last page full. -/
def mbH (n a : Nat) : Rec := put 96 32 n + put 128 16 65535 + put 160 64 a
theorem test_wit_landing_head : let p := slotOne {} {}; let k := pk 0 5 0 (toLe 48 (mbH 1 0)); let b := pk 0 5 0 (toLe 48 (mbH 5 0))
    Reaches p k 0 ∧ Reaches p b 0 ∧ (({} : Pkg).slot 0).bound = false ∧ (p.slot 0).bound = true ∧ (pk 0 6 0 []).src.toNat ≠ (p.ing 0 0).sender ∧
    k.src.toNat = (p.ing 0 0).sender ∧ (p.ing 0 0).opens = [] ∧ (p.ing 0 0).nextPage ≤ mhFirst (leNat (k.content.take 48)) ∧
    p.badHead 0 0 (leNat (k.content.take 48)) = false ∧ p.badHead 0 0 (leNat (b.content.take 48)) = true ∧ p.stale 0 0 = false ∧
    mhPages (leNat (k.content.take 48)) = 1 := by unfold Reaches; decide +kernel
theorem test_wit_landing_page : let o : OpenMb := { head := mbH 1 2, landed := [(2, 0xFF)] }; let p := slotOne { opens := [o], nextPage := 2 } {}
    let k (pg : Nat) := pk 1 5 (BitVec.ofNat 96 (pg * 65536)) [1]
    (∀ pg ∈ [0, 2, 4], Reaches p (k pg) 1 ∧ fld (k pg).kspec.toNat 16 64 = pg ∧ fld (k pg).kspec.toNat 4 2 = 0) ∧ (p.ing 0 0).clSent = 4 ∧ (p.ing 0 0).nextPage = 2 ∧
    (p.ing 0 0).opens.find? (fun o => decide (mhFirst o.head ≤ 2) && decide (2 < mhFirst o.head + mhPages o.head)) = some o ∧ p.stale 0 (mhStep o.head) = false ∧
    o.committed.contains 2 = false ∧ (p.ing 0 0).pages ≠ 0 ∧ tabGet 0 o.landed 2 &&& (2 ^ ceilDiv (mhPageBytes o.head 2) 8192 - 1) = 2 ^ ceilDiv (mhPageBytes o.head 2) 8192 - 1 := by
  unfold Reaches; decide +kernel
theorem test_wit_credits : let m : EgrMb := { headSent := true, sent := 2, pages := 2 }; let i : Item := { startNs := some 5, window := 10, egrWritten := [(3, 9)] }
    let p := slotOne {} { egr := [(0, { peer := 5, queue := [m] })], fwd := some i }; let k := pk 2 5 0 (toLe 20 0)
    let late := { p with now := 16 }
    (p.ing 0 0).pages ≠ 0 ∧ (p.ing 0 0).nextPage < (p.ing 0 0).clSent ∧ Reaches p k 2 ∧ (p.egr 0 0).peer = k.src.toNat ∧ leNat ((k.content.drop 16).take 4) % 2 = 0 ∧
    (p.egr 0 0).queue.find? (fun m => m.headSent && m.sent == m.pages) = some m ∧ (p.slot 0).pos 0 = some i ∧ tabGet 0 i.egrWritten 3 ≠ 0 ∧
    i.egrDone.contains 3 = false ∧ i.startNs = some 5 ∧ i.late = false ∧ 5 + i.window < late.icount 14 ∧ p.icount 14 ≤ 5 + i.window := by unfold Reaches; decide +kernel
theorem test_wit_stash_relay : let b : RelayBlk := { head := put 96 32 1, page0 := 0, bytes := [9] }
    let p : Pkg := { slots := [(0, { egr := [(2, { cl := 1, dl := 1 })], relay := [b], bind := put 1120 24 7 })] }
    p.stashBusy 0 1 = false ∧ (p.slot 0).offFab ≠ 0 ∧ (p.slot 0).stashPend = [] ∧ (p.slot 0).bwd = none ∧ (p.slot 0).relay = b :: [] ∧
    (mhPages b.head - 1) * 65536 + fld b.head 128 16 + 1 ≤ b.bytes.length ∧ (p.egr 0 2).pageSeq + mhPages b.head ≤ (p.egr 0 2).cl ∧ (p.egr 0 2).seq < (p.egr 0 2).dl := by decide +kernel
theorem test_wit_groups : let g (n : Nat) : Group := ⟨4, 0, 0, 0, 0, 2, n, [], [], [], 0, []⟩
    let p (n : Nat) : Pkg := { slots := [(0, { fwd := some { recordC := [(2, 1)] }, transit := [g n] })] }
    let k := pk 5 5 (BitVec.ofNat 96 (3 * 2 ^ 14)) []
    let q : Pkg := { reqs := [(77, some ⟨pk 6 0 0 [], 0, .effect 0 4 0, false, 0⟩)], thrs := [(0, { state := .blocked, wait := .commit 2 })] }
    (∀ n ∈ [1, 2, 3], ((p n).slot 0).transit.find? (fun g => g.id == 4) = some (g n) ∧ (g n).sends = []) ∧
    (match ((p 1).slot 0).pos 0 with | some i => tabGet 0 i.recordC 2 | none => 0) = 1 ∧ Reaches q k 5 ∧ fld k.kspec.toNat 14 2 = 3 ∧ ({} : Pkg).req 77 = none ∧
    (q.req 77).map Req.who = some (.effect 0 4 0) ∧ (∀ r ∈ [0, 1, 2, 3], Reaches q (pk 7 5 (BitVec.ofNat 96 (r * 2 ^ 15)) []) 7) ∧
    fld (3 * 2 ^ 15) 15 3 = 3 ∧ fld (3 * 2 ^ 15) 12 3 ≠ 7 ∧ (q.thr 0).wait = .commit 2 ∧ (q.slot 0).transit = [] := by unfold Reaches; decide +kernel
/-- A package with core 0 as given, its die operating. -/
def coreOne (c : CoreS) : Pkg := { cores := [(0, c)], dies := [(dieOfCore 0, { admitted := true, state := 0 })] }
theorem test_wit_channel_packets : let ep : Endpoint := { state := 1, key := 9, conns := [(5, 0, 0, 0, 4)] }; let p := coreOne { eps := [(0, ep)], conns := [(0, { state := 1 })] }
    let q := coreOne { eps := [(0, { lastKey := 9 })] }; let msg := pk 4 5 (BitVec.ofNat 96 (9 * 2 ^ 32)) (List.replicate 64 0); let c (t : Nat) := pk 4 5 (BitVec.ofNat 96 (t * 2 ^ 14 + 9 * 2 ^ 32)) []
    let r : Pkg := { p with reqs := [(77, some ⟨pk 4 0 0 [], 0, .chOpen 0 0, true, 0⟩)], thrs := [(0, { state := .blocked, wait := .chSend 0 0 1 })] }
    Reaches p msg 4 ∧ fld msg.kspec.toNat 14 2 = 0 ∧ msg.content.length = 64 * (fld msg.kspec.toNat 56 4 + 1) ∧ (p.ep 0 0).state = 1 ∧ (p.ep 0 0).key = fld msg.kspec.toNat 32 24 ∧
    (p.ep 0 0).conns.any (fun c => c.1 == 5 && c.2.1 == 0 && c.2.2.1 == 0) = true ∧ p.dieUp (dieOfCore 0) = true ∧ ({} : Pkg).dieUp (dieOfCore 0) = false ∧
    (p.ep 0 0).key ≠ 8 ∧ (q.ep 0 0).state ≠ 1 ∧ (q.ep 0 0).lastKey = 9 ∧ Reaches p (c 1) 4 ∧ fld (c 1).kspec.toNat 14 2 = 1 ∧ Reaches p (c 2) 4 ∧ fld (c 2).kspec.toNat 14 2 = 2 ∧
    (p.ep 0 0).pendingOpen = [] ∧ (∀ t ∈ [0, 1, 2], Reaches p (pk 5 5 (BitVec.ofNat 96 (t * 2 ^ 14)) []) 5) ∧ p.req 77 = none ∧ (p.conn 0 0).state = 1 ∧
    (r.reqs.find? (openRetry 0 0)).isSome = true ∧ (r.thr 0).wait = .chSend 0 0 1 ∧ (r.thr 0).state = .blocked := by unfold Reaches; decide +kernel
theorem test_wit_sync_objects : let q : Pkg := { dies := [(queueDie (halfOfObj 0), { admitted := true, state := 0 })], syncs := [(0, { owner := 0, ctr := 4 }), (1, { owner := 0, binding := 1 })] }
    let s (op obj : Nat) (v : Nat) := pk 6 5 (BitVec.ofNat 96 (op * 2 ^ 12 + obj)) (toLe 16 v)
    let r : Pkg := { q with reqs := [(77, some ⟨pk 6 0 0 [], 0, .sync 0, true, 0⟩)], thrs := [(0, { state := .blocked, wait := .sync 77 (some 3) })] }
    (∀ op ∈ [0, 1, 2, 3, 4], ∀ o ∈ [0, 1, 2], Reaches q (s op o 0) 6 ∧ fld (s op o 0).kspec.toNat 12 3 = op ∧ fld (s op o 0).kspec.toNat 0 12 = o) ∧ q.dieUp (queueDie 0) = true ∧
    (q.sync 2).owner ≠ 0 ∧ fld (s 0 2 0).kspec.toNat 16 9 ≠ 0x1FF ∧ (q.sync 0).owner = 0 ∧ (q.sync 1).binding = 1 ∧ (q.sync 0).binding = 0 ∧
    (BitVec.ofNat 64 4).toInt ≤ (q.sync 0).ctr.toInt ∧ (q.sync 0).ctr.toInt < (BitVec.ofNat 64 5).toInt ∧
    (q.waiters.filter fun w => halfOfObj w.obj == halfOfObj 0).length < waiterMax ∧ Reaches r (pk 7 5 0 []) 7 ∧ (r.req 77).map Req.who = some (.sync 0) ∧
    (r.thr 0).wait = .sync 77 (some 3) ∧ (r.thr 0).state = .blocked ∧ (∀ x ∈ [0, 2, 3, 4], fld (BitVec.ofNat 96 (x * 2 ^ 15)).toNat 15 3 = x) ∧
    (r.reqs.find? (syncRetry 0)).isSome = true := by unfold Reaches; decide +kernel
theorem test_wit_sync_full : let w : Waiter := ⟨0, 5, pk 6 5 0 []⟩; waiterMax ≤ ((List.replicate 8192 w).filter fun w => halfOfObj w.obj == halfOfObj 0).length := by
  simp only [List.filter_replicate]; decide +kernel
theorem test_wit_sump : let h := put 0 32 3 + put 96 19 4 + put 192 32 1; let x : SumpSess := { openF := true, hdr := h }; let k := pk 3 5 0 (toLe 68 h)
    let p : Pkg := { dies := [(queueDie 0, { admitted := true, state := 0 })], sumps := [(0, { sess := [(0, x)] })] }
    let st : Pkg := { p with ctxs := [(0, { step := { state := 1, num := 2 } })] }
    let q : Pkg := { sumps := [(0, { sess := [(0, { x with delivering := true })] })] }
    Reaches p k 3 ∧ p.halted = false ∧ p.dieUp (queueDie 0) = true ∧ 64 ≤ k.content.length ∧ leNat (k.content.take 64) = h ∧ (st.ctx 0).step.state = 1 ∧
    2 ^ 31 ≤ (fld h 192 32 + 2 ^ 32 - (st.ctx 0).step.num % 2 ^ 32) % 2 ^ 32 ∧ (p.ctx 0).step.state = 0 ∧
    ((List.range 16).find? fun i => (tabGet ({} : SumpSess) (p.sumpEng 0).sess i).openF && fld (tabGet ({} : SumpSess) (p.sumpEng 0).sess i).hdr 0 32 == fld h 0 32) = some 0 ∧
    x.hdr = setFld h 128 19 0 ∧ x.hdr ≠ setFld (h + put 192 32 1) 128 19 0 ∧ sumpElt (fld h 40 2) = 4 ∧ (k.content.drop 64).length % 4 = 0 ∧ fld h 128 19 + 1 ≤ fld h 96 19 ∧
    (x.added + 1) / 4 = x.added / 4 ∧ (sumpAddAll 0 (sgn 9 (fld h 48 9)) 0 (p.sumpEng 0).acc (sumpVals 0 1 (k.content.drop 64))).2.1 = 0 ∧
    q.halted = false ∧ (tabGet ({} : SumpSess) (q.sumpEng 0).sess 0).delivering = true ∧ q.isRemote (fld x.hdr 320 24) = false := by unfold Reaches; decide +kernel
theorem test_wit_dispatch : let p : Pkg := {
      ctxs := [(0, { resident := true, scheduled := true, step := { state := 1, begun := true } })], dies := [(dieOfCore 0, { admitted := true, state := 0 }), (queueDie 0, { admitted := true, state := 0 })]
      slots := [(0, { bound := true, hasImage := true, bind := 1, ing := [(0, { queue := [{}] })] })] }
    p.seqChoice 0 = some (0, 0) ∧ ({} : Pkg).seqChoice 0 = none := by decide +kernel

/-! ## Memory and the package fabric -/

/-- A read of line `l` by a program of context 0. -/
def rdLine (l : Nat) : LineAcc := ⟨l, false, 0, [], 0, some 0, false, 0, ⟨[], []⟩, ⟨[], []⟩⟩
/-- Stack 0 as given. -/
def stackOne (k : Stack) : Pkg := { dies := upDies, stackTab := [(0, k)] }
theorem test_wit_line : let w := lineWord (List.replicate 64 0) false 3; let busy := stackOne { repairing := [((locOf 3).channel, (locOf 3).rank, (locOf 3).bank, (locOf 3).row)] }
    isStackAddr (2 ^ 46 * 64) = false ∧ isStackAddr (3 * 64) = true ∧ (stackOne { state := 4 }).stackTest 192 64 = .address ∧ (stackOne { state := 2 }).stackTest 192 64 = .unavailable ∧
    (stackOne { state := 1 }).memReady 192 64 = .waits ∧ (stackOne { state := 2 }).memReady 192 64 = .unavailable ∧ (stackOne {}).memReady 192 64 = .ok ∧ (busy.stack (stackOf 192)).rowHeld (locOf 3) = true ∧ busy.stackTest 192 64 = .ok ∧
    (rdLine 3).device = false ∧ (let q := (stackOne {}).lineCache 3 false 0 0 ((stackOne {}).lineErrs (rdLine 3))
    decodeLine (withErrs (lineWord (q.load 192 64) (q.linePoison 3) 3) (rdLine 3).err.first) ((q.stack (stackOf 192)).marksAt (locOf 3)) 3 = .good w []) ∧
    (stackOne {}).devRegion 0 192 64 = false := by decide +kernel
/-- A remote access of 8 bytes at 64 KiB for context 0, of kind `kind`, length field `n`. -/
def rmt (kind : BitVec 4) (n : Nat) (bs : List Byte) : LPkt := pk kind 5 (BitVec.ofNat 96 (put 0 48 65536 + put 52 14 n)) bs
def shared : Pkg := { dies := upDies, regions := [⟨65536, 1, 0, 0, 15, 0⟩] }
theorem test_wit_remote : let down := { shared with stackTab := [(0, { state := 2 })] }; let wait := { shared with stackTab := [(0, { state := 1 })] }
    let busy := { shared with stackTab := [(0, { repairing := [((locOf 1024).channel, (locOf 1024).rank, (locOf 1024).bank, (locOf 1024).row)] })] }
    (∀ n ∈ [7, 8, 12, 8840], Reaches shared (rmt 8 n []) 8) ∧ Reaches shared (rmt 10 8 (toLe 8 1)) 10 ∧ shared.inPieces 65536 = false ∧
    (∀ b ∈ [2, 3], (shared.take 1).2.covered 0 65536 8 b = true ∧ (({} : Pkg).take 1).2.covered 0 65536 8 b = false) ∧ (shared.take 1).2.memReady 65536 8 = .ok ∧
    (down.take 1).2.memReady 65536 8 = .unavailable ∧ (wait.take 1).2.memReady 65536 8 = .waits ∧ ((wait.take 1).2.stack 0).state = 1 ∧
    ((wait.take 1).2.memDie (memDieOfStack 0)).expired = false ∧ (busy.take 1).2.memReady 65536 8 = .waits ∧ ((busy.take 1).2.stack 0).state = 0 := by unfold Reaches; decide +kernel
/-- The requests' table is full in some states and has room in the others: a free bit says which, so each clause is stated of all of them. -/
theorem test_wit_remote_busy (p : Pkg) : (p.take 1).1 = 1 ∨ (p.take 1).1 ≠ 1 := Decidable.em _
theorem test_wit_mem_answer : let b : Bg := ⟨7, 3, 1, 0, .remote 1⟩
    let p : Pkg := { reqs := [(77, some ⟨pk 8 5 0 [], 0, .mem 0 7 64, true, 0⟩)], thrs := [(0, { bg := [b] })] }
    (∀ st ∈ [0, 1, 2, 3, 4], Reaches p (pk 9 5 (BitVec.ofNat 96 (st * 2 ^ 48)) []) 9 ∧ Reaches p (pk 11 5 (BitVec.ofNat 96 (st * 2 ^ 48)) []) 11 ∧
      fld (BitVec.ofNat 96 (st * 2 ^ 48)).toNat 48 8 = st) ∧ ({} : Pkg).req 77 = none ∧ (p.req 77).map Req.who = some (.mem 0 7 64) ∧
    ((p.endReq 77).thr 0).bg.find? (fun b => b.id == 7) = some b ∧ (p.req 77).map Req.retry = some true := by unfold Reaches; decide +kernel
theorem test_wit_memory_timers : let m : MemLoc := ⟨1, 0, 2, 3, 0⟩; let k : Stack := { repairing := [(1, 0, 2, 3)] }
    let dirty : Pkg := { stackOne {} with memDies := [(0, { cache := [(setOf 0, [⟨0, true, false⟩])] })] }
    let reqs : List (Fin 16 × Nat) := [(5, 9), (6, 1)]; let count (c : Nat) : Nat := ((reqs.filter fun r => r.1.val == c).map (·.2)).sum
    let busy := (List.range 16).foldl (fun m c => if count m < count c then c else m) 0
    (({} : Pkg).stack 0).state = 0 ∧ ((tabGet [] (dirty.memDie 0).cache (setOf 0)).any fun w => w.line == 0 && w.dirty) = true ∧
    ((tabGet [] (({} : Pkg).memDie 0).cache (setOf 0)).any fun w => w.line == 0 && w.dirty) = false ∧ (({} : Pkg).stack 0).rowHeld (locOf 0) = false ∧
    k.rowHeld m = true ∧ (k.freeSpares m).head? = some 0 ∧ ((stackOne { ce := 4096 }).stack 0).ce ≤ 4096 ∧ 4096 < ((stackOne { ce := 4097 }).stack 0).ce ∧
    ((stackOne { ce := 4097 }).stack 0).storm = false ∧ busy = 5 ∧ (0x20 : BitVec 16).getLsbD busy = true ∧ ((List.range 16).map count).sum < 4 * count busy ∧
    ((stackOne { hotRun := 2, hotCh := 5 }).stack 0).hotCh = busy ∧ (0 : BitVec 16).getLsbD busy = false ∧ (({} : Pkg).stack 0).throttled = false ∧
    ([(90 : BitVec 8), 40].foldl (fun m r => Nat.max m r.toNat) 0) ≤ 90 ∧ 90 < ([(91 : BitVec 8)].foldl (fun m r => Nat.max m r.toNat) 0) := by decide +kernel
theorem test_wit_memory_reset : let p : Pkg := { memDies := [(0, { orderlyAt := some 5 })], dies := [(8, { dieDflt 8 with admitted := true })], stackTab := [(0, { state := 3 })] }
    dieKind 8 = 1 ∧ memNo 8 = 0 ∧ (p.memDie 0).orderlyAt.isSome = true ∧ p.dieUp 8 = true ∧ (p.stack 0).state = 3 := by decide +kernel
/-- A die packet's header for die `dst` with one payload word. -/
def dpH (dst : Nat) : W64 := BitVec.ofNat 64 (put 0 5 dst)
theorem test_wit_die_packets : let t (d : Nat) : W64 := BitVec.ofNat 64 (dieCrc (dpH d) [7]); let p : Pkg := { dies := [(0, { dieDflt 0 with groups := [(0, { kept := [⟨true, [1], 0⟩], resend := 2, retesting := true })], ce := 4097 })] }
    (p.die 0).state = 0 ∧ groupIs 0 0 = true ∧ groupIs 0 79 = true ∧ groupIs 0 80 = false ∧ groupIs 0 111 = true ∧ (∀ d ∈ [0, 1], dieCrc (dpH d) [7] = fld (t d).toNat 0 32 ∧
    gather (trailed [[dpH d], [7]] 0 (t d)) 0 = dpH d :: [7] ++ [t d] ∧ gather (trailed [[7], [dpH d]] 1 (t d)) 1 = dpH d :: [7] ++ [t d] ∧
    ([7] : List W64).length = fld (dpH d).toNat 32 6 + 1) ∧ ¬ dieCrc (dpH 0) [8] = fld (t 0).toNat 0 32 ∧ fld (dpH 0).toNat 0 5 = 0 ∧ fld (dpH 1).toNat 0 5 = 1 ∧
    (p.group 0 0).kept = ⟨true, [1], 0⟩ :: [] ∧ (p.group 0 0).resend = 2 ∧ (({} : Pkg).group 0 0).resend ≠ 2 ∧ (p.group 0 0).retesting = true ∧ (p.group 0 0).rewound = false ∧
    (p.die 0).storm = false ∧ 4096 < (p.die 0).ce ∧ (({} : Pkg).die 0).ce ≤ 4096 := by decide +kernel
/-- R323, the spec's example: 8,266 bytes in 129 full wide words and one of 10 valid bytes, its tag 9; the rest of it is zero. -/
theorem test_wide_words : let ws := wideWords ((List.range 8266).map fun n => BitVec.ofNat 8 (n + 1))
    ws.length = 130 ∧ (ws.getD 128 ([], 0)).2 = 63 ∧ (ws.getD 129 ([], 0)).2 = 9 ∧ (ws.getD 129 ([], 0)).1.drop 10 = List.replicate 54 0 := by decide +kernel
/-- R317: words go round the bundles in service, from where the stream stands. -/
theorem test_spread : spread [0, 2, 3] 1 [10, 11, 12, 13] = [(2, 10), (3, 11), (0, 12), (2, 13)] := by decide +kernel
/-- R327: a BE packet on the wire is not revoked once the guard is reached; an LC packet never is. -/
theorem test_revoke_guard : let p (w : W64) (n : Nat) : Pkg := { dies := [(0, { dieDflt 0 with groups := [(0, { kept := [⟨true, [w, 0, 0], n⟩] })], revokeGuard := 8 })] }
    (p 0 8).revokeBe 0 0 = p 0 8 ∧ (p 0x20000000 0).revokeBe 0 0 = p 0x20000000 0 := by decide +kernel
theorem test_wit_dies : let r : DieReport := ⟨1, 0, 2, 0, [], true, true⟩; let p : Pkg := { dies := [(8, { dieDflt 8 with admitted := true, state := 0 })], holdover := true }
    let o : Pkg := { dies := [(15, { state := 1 })], ident := { pairing := [2 ^ (16 * 4 + 1)] } }
    let q := (o.modDie 15 fun x => { x with stepMajor := r.stepMajor, stepMinor := r.stepMinor, feature := r.feature.toNat, pufOk := r.pufOk }).testDie 15 r.failedWires
    (p.die 8).admitted = true ∧ (p.die 8).state = 0 ∧ dieKind 8 = 1 ∧ dieKind 12 = 2 ∧ (p.port 0).state ≠ .dead ∧ (p.stack 0).state = 0 ∧ (o.die 15).state ≠ 0 ∧ (o.die 15).state ≠ 3 ∧
    r.ok = true ∧ q.dieGroupsOk 15 = true ∧ dieKind 15 = 4 ∧ q.ident.pairing[q.admittedBy]? = some (2 ^ 65) ∧ q.pairOk (2 ^ 65) 15 r.stepMajor = true ∧
    (q.die q.primary).pkgFeature ≤ r.feature.toNat ∧ p.refEthLost = false ∧ p.holdover = true ∧ ((({ p with holdover := false } : Pkg).refreshAll 3).killAll).pkgState = 0 ∧
    (((({ p with pkgState := 3, holdover := false } : Pkg).refreshAll 3).killAll).pkgState) ≠ 0 := by decide +kernel

/-! ## Steps, contexts, securing, power -/

/-- A package whose headframe A.H runs, in package state `st`. -/
def hup (st : Nat) : Pkg := { pkgState := st, dies := [(15, { admitted := true })] }
/-- Context 0 as given, headframe up. -/
def ctxOne (x : Ctx) : Pkg := { hup 3 with ctxs := [(0, x)] }
theorem test_wit_verdict : let sealing : StepS := { state := 2, num := 4, policy := put 112 8 1 + put 108 1 1, aborted := true }; let p := ctxOne { step := sealing }
    let q := { p with syncs := [(0, { ctr := 1 })] }; let r := { q with ctxs := [(0, { step := { sealing with policy := 0, nonfinite := true, verdictIn := true } })] }
    (∀ x ∈ [p, q, r], (x.ctx 0).step.state = 2 ∧ (x.ctx 0).step.voted = false ∧ x.localReady 0 = true) ∧ polBase sealing.policy = 0 ∧
    (polChildren sealing.policy : Int) ≤ ((q.sync 0).ctr).toInt ∧ polRoot sealing.policy = true ∧ ((p.sync 0).ctr).toInt < (polChildren sealing.policy : Int) ∧
    polRoot (r.ctx 0).step.policy = false ∧ (r.ctx 0).step.nonfinite = true ∧ (r.ctx 0).step.verdictIn = true ∧
    ((q.sync 2).ctr.toNat + 0 = 0) := by decide +kernel
theorem test_wit_swap_events : let p := ctxOne { preempting := true, resident := true, state := .blocked, freezeWait := true, saving := true, swapIn := true }
    let q := { ctxOne { freezeWait := true, frozenItems := [(0, 0)] } with slots := [(0, { fwd := some { undecided := 1 } })] }
    (p.ctx 0).preempting = true ∧ (p.ctx 0).resident = true ∧ (p.ctx 0).state = .blocked ∧ (p.ctx 0).freezeWait = true ∧ (p.ctx 0).frozenItems = [] ∧
    (p.ctx 0).saving = true ∧ (p.ctx 0).state ≠ .faulted ∧ (p.ctx 0).swapIn = true ∧ (∀ e ∈ p.ctxs, e.2.swapping = false) ∧
    (q.ctx 0).frozenItems = [(0, 0)] ∧ q.quiescent 0 0 = false := by decide +kernel
/-- A securing layout of one part and one piece per stripe of one page, two members, 5 journal pages. -/
def scH : Rec := put 80 5 1 + put 85 3 1 + put 336 32 5
def cap0 : Capture := { step := 6, gen := 0, methods := [], par := 0 }
def secOne (x : Secure) : Pkg := { hup 3 with secure := { x with active := true, hdr := scH } }
theorem test_wit_securing : let p := secOne { attempt := some cap0 }; let q := secOne {}
    let r := { secOne { attempt := some { cap0 with copyDone := true }, reported := false } with ctxs := [] }
    let root := { secOne { capOpen := true, sinceCap := 8, reported := false } with ctxs := [(0, { step := { policy := put 108 1 1 } })] }
    (∀ x ∈ [p, q, r, root], x.secure.active = true ∧ x.halted = false ∧ x.secure.tensors = []) ∧ p.secure.attempt = some cap0 ∧ cap0.copyDone = false ∧ cap0.stopped = false ∧
    q.secure.attempt = none ∧ p.secure.replica.length + p.secure.pendLog.length + p.secure.newLog.length < fld scH 336 32 ∧ cap0.step < 7 ∧ r.secure.completed = true ∧
    r.secure.reported = false ∧ polRoot (r.ctx 0).step.policy = false ∧ polChildren (r.ctx 0).step.policy * r.secure.ordered ≤ 0 ∧ (r.sync (scBase scH)).ctr.toNat / 2 ^ 32 = r.secure.lost0 ∧
    polRoot (root.ctx 0).step.policy = true ∧ root.secure.capOpen = true ∧ root.secure.stopSent = false ∧ 8 ≤ root.secure.sinceCap := by decide +kernel
/-- A part of eight bytes with its trailer for step 6, rotation `r`, part 0. -/
def partK (r a : Nat) : LPkt := pk 10 5 (BitVec.ofNat 96 a) (toLe 8 1 ++ toLe 8 (put 0 48 6 + put 48 5 r))
theorem test_wit_parity : let h := scH + put 232 24 1; let p := { secOne { attempt := some cap0 } with secure := { ({} : Secure) with active := true, hdr := h, attempt := some cap0 } }
    let k := partK (scRotOfPiece h 0) (scPiece h 0 0); let tr := leNat (k.content.drop (k.content.length - 8))
    Reaches p k 10 ∧ fld tr 0 48 = cap0.step % 2 ^ 48 ∧ fld tr 53 5 < scK h ∧ 8 ≤ k.content.length ∧ scPart h ≠ 0 ∧
    ((List.range (scM h)).find? fun e => scRotOfPiece h e == fld tr 48 5 && decide (scPiece h 0 e ≤ fld k.kspec.toNat 0 48) &&
      decide (fld k.kspec.toNat 0 48 + (k.content.length - 8) ≤ scPiece h 0 e + scPart h)) = some 0 := by unfold Reaches; decide +kernel
theorem test_wit_restore : let r0 : TensorRestore := ⟨false, false, false, false, []⟩; let r1 : TensorRestore := ⟨false, true, false, false, []⟩
    let p := secOne { restoring := some 0, tensors := [0] }; let q := (p.store 0 [2]).deviceRead 0 0 128 1; let sl := leNat (q.load 0 (fld (leNat (q.load 0 8)) 32 32))
    p.secure.restoring = some 0 ∧ p.secure.ctx = 0 ∧ p.secure.sourceOf false 0 r0 = 0 ∧ p.secure.sourceOf false 0 r1 = 2 ∧ r0.poisoned = false ∧
    (sealStreams sl).isEmpty = true ∧ q.objsFor [] = true ∧ bit scH 93 = false := by decide +kernel
theorem test_wit_reshard : let w : Chunk := ⟨0, 0, 0⟩; let p := ctxOne { reshard := { active := true, writing := some w } }; let q := ctxOne { reshard := { active := true, writing := some w, tries := 2 } }
    (p.ctx 0).reshard.writing = some w ∧ (p.ctx 0).reshard.out = 0 ∧ (p.ctx 0).reshard.active = true ∧ p.pkgState ≠ 5 ∧ (p.ctx 0).reshard.tries < 2 ∧ 2 ≤ (q.ctx 0).reshard.tries ∧
    (p.ctx 0).reshard.again = false := by decide +kernel
theorem test_wit_power : let p := hup 3; let overCap := { p with pwr := { p.pwr with mean := 6201 } }; let run := { p with pwr := { p.pwr with held := false } }
    p.dieUp 15 = true ∧ p.answers = true ∧ p.capping = false ∧ p.pwr.capW < 6201 ∧ overCap.pwr.capW < overCap.pwr.mean ∧ p.pwr.vauxOk = true ∧ p.pwr.thermtrip = false ∧
    p.throttling = false ∧ (3 : Nat) < sensorCount 15 ∧ run.pwr.held = false ∧ dieOfDomain 0 = some 0 ∧ dieOfDomain 95 = none ∧ p.dieUp p.primary = true ∧
    ({ dies := [(31, { admitted := true })] } : Pkg).dieUp 15 = false ∧ ({ dies := [(31, { admitted := true })] } : Pkg).standby = true ∧ (slackOf 400 400).2 = true := by decide +kernel
/-- Does no rail of a package stand above its floor? Then nothing is left to lower under the cap. -/
def atFloor : Pkg := { hup 3 with pwr := { ({} : Power) with mean := 6201, vCap := (List.range 96).map fun d => (d, if d < 32 then 220 else 260) } }
theorem test_wit_cap : atFloor.capPick = [] ∧ atFloor.pwr.capW < atFloor.pwr.mean ∧ atFloor.answers = true := by decide +kernel
theorem test_wit_start : let p : Pkg := {}; let t := { p with pwr := { p.pwr with thermtrip := true } }; let off := { p with pwr := { p.pwr with vauxOk := false, pwrGood := false } }
    p.pwr.vauxOk = true ∧ p.pwr.pwrGood = true ∧ off.pwr.vauxOk = false ∧ off.pwr.pwrGood = false ∧ t.pwr.thermtrip = true ∧ p.pwr.held = true ∧ p.pwr.vinOut = false ∧
    p.pwr.vauxOut = false ∧ p.pwr.thermtrip = false := by decide +kernel

/-! ## Boot, host port, RoCE, test port -/

theorem serial_lt (p : Pkg) : p.serial < 2 ^ 64 := by
  have h := leNat_lt (p.identDigest.take 8)
  have : (p.identDigest.take 8).length ≤ 8 := by simp [Nat.min_le_left]
  exact Nat.lt_of_lt_of_le h (Nat.le_trans (Nat.pow_le_pow_right (by decide) this) (by decide))
theorem test_wit_serial (p : Pkg) : (BitVec.ofNat 64 p.serial).toNat = p.serial := by
  rw [BitVec.toNat_ofNat]; exact Nat.mod_eq_of_lt (serial_lt p)
/-- A package in boot phase `n` with the headframe and its port up. -/
def bootOne (e : Eth) : Pkg := { hup 0 with eth := { e with up := true } }
theorem test_wit_boot : (∀ n ∈ [1, 2, 3, 4, 5], (bootOne { bootPhase := n }).bootIn n = true) ∧ (bootOne {}).bootHears = true ∧ (bootOne {}).eth.bootPath = 0 ∧
    (bootOne { announceS := 2 }).eth.announceS ≠ 1 ∧ (0 : BitVec 32).toNat = (bootOne {}).eth.xid ∧ offerBad 0xFFFF 0 = true ∧ offerBad 0x10000 0 = false ∧
    (hup 0).dieUp 15 = true ∧ ((hup 0).ethTo true).bootIn 1 = false ∧ (({ hup 0 with eth := { bootPhase := 1 } } : Pkg).ethTo true).bootIn 1 = true ∧
    (({ bootOne { bootPhase := 5 } with pwr := { ({} : Power) with synced := false } } : Pkg).bootIn 5) = true ∧ (hup 3).answers = true ∧ (hup 3).bootIn 5 = false ∧
    ({ dies := [(31, { admitted := true })], pwr := { ({} : Power) with missed := 3 } } : Pkg).standby = true := by decide +kernel
theorem test_wit_boot_blocks : let e : Eth := { imageLen := 0x10000, asked := [0], blocks := [(1, [1])] }; let f : Eth := { e with asked := [0, 7] }; let g : Eth := { e with imageLen := 16384 }
    let h : Eth := { g with asked := [0, 1], blocks := [] }
    e.asked.contains 0 = true ∧ e.blockLen 0 = 8192 ∧ e.blocks.length + e.asked.length < e.total ∧ g.total ≤ g.blocks.length + g.asked.length ∧ g.asked.erase 0 = [] ∧
    h.total ≤ h.blocks.length + h.asked.length ∧ h.asked.erase 0 ≠ [] ∧ f.asked ≠ [] := by decide +kernel
/-- Whether an image's signatures verify is open in Config; a bundle without its header fails, an image of the wrong length is refused with 1. -/
theorem test_wit_boot_images : (bootOne {}).bundleOk [] = false ∧ imageReject [] 0 = 1 ∧ (bootOne {}).pairing [] = none ∧ (bootOne {}).pairing [2 ^ 64] = some 0 := by decide +kernel
/-- A hand-back bundle of this package that is its header alone: magic, version 1, serial, length 128, digest of nothing. -/
def bundle0 (p : Pkg) : List Byte :=
  toLe 32 (0x4B424148 + 2 ^ 32 + p.serial * 2 ^ 64 + 128 * 2 ^ 128) ++ (toBe 48 (Config.sha384 []) ++ List.replicate 48 0)
theorem test_wit_bundle (p : Pkg) : p.bundleOk (bundle0 p) = true := by
  have hl : (bundle0 p).length = 128 := by simp [bundle0, toBe]
  have hn : leNat ((bundle0 p).take 128) = (0x4B424148 + 2 ^ 32 + p.serial * 2 ^ 64 + 128 * 2 ^ 128) % 256 ^ 32 + 256 ^ 32 *
      leNat (toBe 48 (Config.sha384 []) ++ List.replicate 48 0) := by
    rw [List.take_of_length_le (by omega)]
    unfold bundle0
    rw [leNat_append, leNat_toLe, length_toLe]
  have hd : (bundle0 p).drop 128 = [] := List.drop_of_length_le (by omega)
  have hs : slice (bundle0 p) 32 48 = toBe 48 (Config.sha384 []) := by
    unfold slice bundle0
    rw [List.drop_append_of_le_length (by simp), List.drop_of_length_le (by simp), List.nil_append, List.take_append_of_le_length (by simp [toBe])]
    exact List.take_of_length_le (by simp [toBe])
  have hp := serial_lt p
  unfold Pkg.bundleOk
  rw [hd, hs, hl, hn]
  simp only [fld_eq, Bool.and_eq_true, beq_iff_eq, decide_eq_true_eq]
  refine ⟨⟨⟨⟨⟨⟨?_, ?_⟩, ?_⟩, ?_⟩, by decide⟩, by decide⟩, trivial⟩ <;> omega
theorem test_wit_host : let p : Pkg := { hup 3 with eth := { ({} : Eth) with up := true, ip4 := 9, ip6 := 7 } }
    p.eth.ip4 ≠ 0 ∧ (9 : BitVec 32).toNat = p.eth.ip4 ∧ p.eth.ip6 ≠ 0 ∧ (7 : BitVec 128).toNat = p.eth.ip6 ∧ p.ownPort = true ∧ ([] : List Byte).length ≤ 1024 ∧
    (p.eth.echoes.filter fun t => decide (p.now < t + 1000000000)).length < 1000 ∧ ((3 : Fin 8).val = p.eth.bulkPrio) ∧ tabGet false ({ p.eth with paused := [(3, true)] }).paused 3 = true ∧
    p.answers = true ∧ p.holdsSession 7 = false ∧ bit (0 : W64).toNat 24 = false := by decide +kernel
/-- A relayed command of opcode `op`. -/
def relayK (op : Nat) : LPkt := pk 12 5 0 (List.replicate 32 1 ++ toLe 24 (put 80 16 op) ++ List.replicate 16 0)
theorem test_wit_relay : (∀ op ∈ [0x01, 0x02, 0x10, 0x11, 0x20, 0x30, 0x40, 0x60, 0x61, 0x70, 0x71, 0xA0, 0xC1], innerOp (relayK op) = op) ∧ (relayK 1).pkind = 12 ∧
    (relayK 1).dst.toNat = (hup 3).fabAddr ∧ (hup 3).answers = true ∧ Reaches (hup 3) (pk 13 5 0 (List.replicate 32 1)) 13 ∧ (hup 3).req 77 = none ∧
    ({ hup 3 with eth := { ({} : Eth) with up := true } } : Pkg).ownPort = true ∧ leNat ((List.replicate 32 (1 : Byte)).take 16).reverse ≠ 0 := by unfold Reaches; decide +kernel
theorem test_wit_relay_session : let p : Pkg := { hup 3 with eth := { ({} : Eth) with up := true }, sessions := [(0, { openF := true, src := some (.own 7 5 none) })] }
    p.holdsSession 7 = true ∧ p.holdsSession 8 = false ∧ p.answers = true ∧ p.ownPort = true := by decide +kernel
/-- Queue pair 2 as given in a running package with one key of every permission over page 1. -/
def qpOne (y : Qp) : Pkg := { hup 3 with dies := upDies, eth := { ({} : Eth) with up := true, qps := [(2, { y with state := 1, mtu := 1024 })], keys := [⟨5, 65536, 1, 3⟩] } }
theorem test_wit_roce : let p := qpOne { rqPsn := 4 }; let q := qpOne { rqPsn := 4, nakSent := true, slot := some 0 }; let lost := { p with stackTab := [(0, { state := 2 })] }
    p.qpReady 2 = true ∧ q.qpReady 2 = true ∧ psnLe 3 4 = true ∧ psnLe 6 4 = false ∧ (p.qp 2).nakSent = false ∧ (q.qp 2).nakSent = true ∧ (p.qp 2).slot = none ∧ (q.qp 2).slot = some 0 ∧
    (p.setQp 2 { p.qp 2 with nakSent := false }).keyAllows 5 65536 8 0 = true ∧ (p.setQp 2 { p.qp 2 with nakSent := false }).keyAllows 5 65536 8 1 = true ∧
    (p.setQp 2 { p.qp 2 with nakSent := false }).keyAllows 6 65536 8 0 = false ∧ p.memReady 65536 8 = .ok ∧ lost.memReady 65536 8 = .unavailable := by decide +kernel
theorem test_wit_roce_answers : let p := qpOne { unacked := [(4, [])] }; let q := qpOne { rnrWait := true }
    p.qpReady 2 = true ∧ (p.qp 2).unacked ≠ [] ∧ (p.qp 2).rnrWait = false ∧ (q.qp 2).rnrWait = true := by decide +kernel
theorem test_wit_tap : let p : Pkg := {}; let off : Pkg := { pwr := { ({} : Power) with vauxOk := false } }; let run : Pkg := { pwr := { ({} : Power) with resetLow := false } }
    p.pwr.vauxOk = true ∧ off.pwr.vauxOk = false ∧ p.pwr.pwrGood = true ∧ p.pwr.resetLow = true ∧ run.pwr.resetLow = false ∧ [true].length ≤ tapCells := by decide

/-! ## Luajo commands -/

/-- The host that sends them. -/
def host : Src := .own 7 5 none
/-- A command packet of session 1 with TLVs `ps`, context `c` where it names one, and sequence number 1. -/
def cmd0 (c : Option Nat) (ps : List Byte) (src : Src := host) : Pkt := {
  src := src, size := 40 + ps.length, magic := 0x4A4C, version := 1, reply := false, ctxF := c.isSome, rsv1 := 0, session := 1
  context := BitVec.ofNat 8 (c.getD 0), rsv2 := 0, seq := 1, length := BitVec.ofNat 16 ps.length, statusF := 0, rsv3 := 0, params := ps, mac := 0 }
/-- The same with the MAC that key 0 gives it as a command of opcode `op`. -/
def cmd (op : Nat) (c : Option Nat) (ps : List Byte) (src : Src := host) : Pkt :=
  { cmd0 c ps src with mac := BitVec.ofNat 128 (leNat (mac16 0 (pktHeader (cmd0 c ps src) op ++ ps))) }
/-- What the format rules make of its TLVs. -/
def cmdTs (p : Pkg) (op : LjOp) (k : Pkt) : List TlvE := ((p.taken op k).ljFormat op k).2
/-- Every condition of Ready but the MAC, decided. -/
def readyB (p : Pkg) (op : LjOp) (k : Pkt) : Bool :=
  p.hears k.src && !pktBadHeader k && p.placeOf k == some 0 && decide ((p.session 0).kCmd = 0) && decide (p.undecided < 256) &&
  (p.ident.loading.isNone || op.legal == 0) && k.seq.toNat != 0 && decide ((p.session 0).high < k.seq.toNat + 64) &&
  ((p.session 0).cache.all fun e => e.1 != k.seq.toNat) && ((p.session 0).waiting.all fun w => w.seq != k.seq.toNat) &&
  (!(p.session 0).bound || (op.bound && (!op.ofCtx || k.context.toNat == (p.session 0).ctx))) &&
  ((p.taken op k).ljFormat op k).1.isNone && (p.taken op k).legalIn op.legal
theorem cmd_mac (op : Nat) (c : Option Nat) (ps : List Byte) (src : Src) :
    mac16 0 (pktHeader (cmd op c ps src) op ++ (cmd op c ps src).params) = toLe 16 (cmd op c ps src).mac.toNat := by
  have he : ∀ m : BitVec 128, pktHeader { cmd0 c ps src with mac := m } op = pktHeader (cmd0 c ps src) op := fun _ => rfl
  unfold cmd
  rw [he]
  show mac16 0 (pktHeader (cmd0 c ps src) op ++ ps) = _
  generalize pktHeader (cmd0 c ps src) op ++ ps = b
  have hl : (mac16 0 b).length = 16 := by simp [mac16, toBe]
  have h := leNat_lt (mac16 0 b)
  rw [hl] at h
  rw [BitVec.toNat_ofNat, Nat.mod_eq_of_lt (Nat.lt_of_lt_of_le h (by decide))]
  have := toLe_leNat (mac16 0 b)
  rw [hl] at this
  exact this.symm
/-- A packet of ours whose decided conditions hold is taken up. -/
theorem ready_of (p : Pkg) (op : LjOp) (c : Option Nat) (ps : List Byte) (src : Src) (h : readyB p op (cmd op.code c ps src) = true) :
    Ready p op (cmd op.code c ps src) 0 (cmdTs p op (cmd op.code c ps src)) := by
  have hm := cmd_mac op.code c ps src
  revert hm h
  generalize cmd op.code c ps src = k
  intro h hm
  simp only [readyB, Bool.and_eq_true, Bool.or_eq_true, Bool.not_eq_true', beq_iff_eq, bne_iff_ne, decide_eq_true_eq, Option.isNone_iff_eq_none,
    List.all_eq_true] at h
  obtain ⟨⟨⟨⟨⟨⟨⟨⟨⟨⟨⟨⟨h1, h2⟩, h3⟩, h4⟩, h5⟩, h6⟩, h7⟩, h8⟩, h9⟩, h10⟩, h11⟩, h12⟩, h13⟩ := h
  refine ⟨h1, h2, h3, by rw [h4]; exact hm, h5, h6, h7, h8, h9, h10, ?_, Prod.ext h12 rfl, h13⟩
  intro hb
  rcases h11 with h | ⟨h, h'⟩
  · rw [hb] at h; cases h
  · refine ⟨h, fun hc => ?_⟩
    rcases h' with h' | h'
    · rw [hc] at h'; cases h'
    · exact h'
/-- A package in state `st` with its port up and session 1 in place 0. -/
def lj (st : Nat) : Pkg := { hup st with eth := { ({} : Eth) with up := true }, sessions := [(0, { openF := true, id := 1 })] }
/-- The same with context 0. -/
def ljCtx (x : Ctx) : Pkg := { lj 3 with ctxs := [(0, x)] }
/-- A region of 64 pages from 64 KiB on for context 0. -/
def ljMap (p : Pkg) : Pkg := { p with regions := [⟨65536, 4096, 0, 0, 15, 0⟩] }
def opBegin : LjOp := { code := 0x60, req := [6, 0x17], opt := [1], ofCtx := true, bound := true }
/-- A step policy record: ADJ 1, INITIAL 0, window 1, limit 1000 µs, one seal slot at 64 KiB. -/
def stepPol : Rec := put 1 3 1 + put 40 16 1 + put 64 32 1000 + put 96 12 0 + put 192 48 65536 + put 240 16 1
theorem test_wit_step_begin : let p := ljMap (ljCtx { state := .blocked, step := { hasPolicy := true, state := 3, num := 4, begun := true }, record := put 32 13 8 })
    let k := cmd 0x60 (some 0) (tlv 6 (toLe 8 5) ++ tlv 0x17 (toLe 64 0)); let q := p.taken opBegin k; let c := q.cmdOf opBegin k 0 (cmdTs p opBegin k)
    let k1 := cmd 0x60 (some 0) (tlv 1 (toLe 64 stepPol) ++ tlv 6 (toLe 8 5) ++ tlv 0x17 (toLe 64 0)); let c1 := (p.taken opBegin k1).cmdOf opBegin k1 0 (cmdTs p opBegin k1)
    readyB p opBegin k = true ∧ c.has 1 = false ∧ (q.ctx c.ctx).step.hasPolicy = true ∧ (q.ctx c.ctx).step.state = 3 ∧ (q.ctx c.ctx).state = .blocked ∧ c.num 6 = 5 ∧
    q.optSlots c.ctx = [] ∧ q.objsFor [] = true ∧ q.planUnmet = [] ∧ q.secBusy c.ctx 5 = false ∧
    readyB p opBegin k1 = true ∧ c1.has 1 = true ∧ polReserved c1.strct = false ∧ q.polOk c1.ctx c1.strct c1.body.length = true := by decide +kernel
/-- The command of a packet as its meaning sees it. -/
def cOf (p : Pkg) (op : LjOp) (k : Pkt) : Cmd := (p.taken op k).cmdOf op k 0 (cmdTs p op k)
theorem test_wit_step_commit : let op : LjOp := { code := 0x61, req := [6], ofCtx := true, bound := true }; let k := cmd 0x61 (some 0) (tlv 6 (toLe 8 5))
    let st : StepS := { state := 1, num := 5 }; let p := ljCtx { step := st }; let q := ljCtx { step := { st with num := 6 } }; let f := ljCtx { step := st, reshard := { given := true, failed := true } }
    let w := ljCtx { step := st, reshard := { given := true } }
    (∀ x ∈ [p, q, f, w], readyB x op k = true ∧ (cOf x op k).num 6 = 5 ∧ (cOf x op k).ctx = 0 ∧ ((x.taken op k).ctx 0).step.state = 1) ∧ (p.ctx 0).step.num = 5 ∧ (p.ctx 0).reshard.given = false ∧
    (q.ctx 0).step.num ≠ 5 ∧ (f.ctx 0).reshard.given = true ∧ (f.ctx 0).reshard.failed = true ∧ (w.ctx 0).reshard.given = true ∧ (w.ctx 0).reshard.failed = false ∧
    (w.ctx 0).reshard.complete = false := by decide +kernel
theorem test_wit_step_abort : let op : LjOp := { code := 0x62, req := [6], opt := [0x0D], ofCtx := true, bound := true }; let k := cmd 0x62 (some 0) (tlv 6 (toLe 8 5))
    let f := cmd 0x62 (some 0) (tlv 6 (toLe 8 5) ++ tlv 0x0D (toLe 4 1)); let p := ljCtx { step := { state := 2, num := 5, voted := true } }; let q := ljCtx { step := { state := 1, num := 5 } }
    let force (k : Pkt) : Bool := ((parseTlvs (k.params.length + 1) k.params).getD []).any fun e => e.1 == 0x0D && bit (leNat e.2) 0
    (∀ x ∈ [p, q], readyB x op k = true ∧ readyB x op f = true ∧ (cOf x op k).num 6 = (x.ctx 0).step.num ∧ (cOf x op f).num 0x0D < 2 ∧ (cOf x op k).num 0x0D < 2) ∧
    force k = false ∧ force f = true ∧ (p.ctx 0).step.voted = true ∧ (p.ctx 0).step.verdictIn = false ∧ (q.ctx 0).step.voted = false := by decide +kernel
/-- A reshard plan without moves whose stash and chunks lie at 64 KiB. -/
def plan0 : Rec := put 0 32 0x4E50_4852 + put 88 5 16 + put 160 48 65536
theorem test_wit_reshard_command : let op : LjOp := { code := 0x83, req := [2], ofCtx := true, bound := true }; let k := cmd 0x83 (some 0) (tlv 2 (toLe 16 (put 0 48 65536 + put 64 32 64)))
    let p := { ljMap (ljCtx { step := { state := 1 } }) with mem := memPut [] 65536 (toLe 64 plan0) }; let q := { p with ctxs := [(0, { step := { state := 1 }, reshard := { given := true } })] }
    (∀ x ∈ [p, q], readyB x op k = true ∧ planReserved (cOf x op k).strct = false ∧ (x.taken op k).planOk 0 (cOf x op k).strct (cOf x op k).body.length = true ∧
      ((x.taken op k).ctx 0).step.state = 1) ∧ (p.ctx 0).reshard.given = false ∧ (q.ctx 0).reshard.given = true ∧ planRebinds (cOf p op k).strct = [] ∧
    newFails (p.taken op k) (p.taken op k) = [] := by decide +kernel
/-- A context record with core 0, sync objects 0 to 7, no scratchpad, and its external save area on stack `n` at `a`. -/
def ctxRec (n a : Nat) : Rec := put 32 13 8 + put 256 384 1 + put (1024 + 64 * n) 48 a
/-- R374, R380: a context whose scratchpad range meets a resident one's on a shared core enters SWAPPED. -/
theorem test_context_overlap : let r : Rec := put 96 22 65536 + put 256 384 1
    let p := ljCtx { record := r, state := .loaded, resident := true }
    ((p.ctxCreate 5 r).ctx 5).state = .swapped ∧ ((p.ctxCreate 5 (r + put 64 22 65536)).ctx 5).state = .loaded := by decide +kernel
theorem test_wit_context_create : let op : LjOp := { code := 0x30, req := [1], ofCtx := true }; let a := (saveCores (ctxRec 0 0) 0).length
    let k := cmd 0x30 (some 0) (tlv 1 (toLe 256 (ctxRec 0 65536))); let p := { ljMap (lj 3) with dies := upDies }; let q := p.taken op k; let r := (cOf p op k).strct
    readyB p op k = true ∧ ctxReserved r = false ∧ q.ctxOk 0 r (cOf p op k).body.length = true ∧ (q.ctx 0).state = .empty ∧ (q.ctxs.filter fun e => e.2.state != .empty).length < 256 ∧
    (∀ o < 8, (q.sync o).owner = 0x1FF ∧ q.dieUp (queueDie (halfOfObj o)) = true) ∧ recObjBase r + recObjCount r ≤ 2048 ∧ a = 1 ∧ (∀ n < 16, saveCores r n = [] ∨
      (q.inRegions 0 (recExt r n) (saveNeed r n) = true ∧ stackOf (recExt r n + saveNeed r n - 1) = n)) := by decide +kernel
theorem test_wit_context_rest : let od : LjOp := { code := 0x31, ofCtx := true }; let oc : LjOp := { code := 0x32, req := [0x10], ofCtx := true }; let kd := cmd 0x31 (some 0) []
    let kc := cmd 0x32 (some 0) (tlv 0x10 (toLe 1 1)); let p := ljCtx { state := .loaded }
    let q := { lj 3 with ctxs := [(0, { state := .loaded }), (1, { state := .loaded, lc := true })], dl := [(0, { w := 5 }), (4, { w := 5 })]
                         slots := [(0, { bound := true, ctx := 0, bind := 1 }), (1, { bound := true, ctx := 1, bind := 1 })] }
    readyB p od kd = true ∧ (p.ctx 0).state ≠ .empty ∧ (p.ctx 0).step.state = 0 ∧ (p.taken od kd).slotsOf kd.context.toNat = [] ∧ readyB p oc kc = true ∧ readyB q oc kc = true ∧
    ((p.taken oc kc).modCtx 0 fun x => { x with lc := (cOf p oc kc).num 0x10 == 1 }).classShared = false ∧
    ((q.taken oc kc).modCtx 0 fun x => { x with lc := (cOf q oc kc).num 0x10 == 1 }).classShared = true ∧ (q.taken oc kc).classShared = false := by decide +kernel
theorem test_wit_run : let op : LjOp := { code := 0x70, ofCtx := true, bound := true }; let o2 : LjOp := { code := 0x71, opt := [0x0D], ofCtx := true }; let k := cmd 0x70 (some 0) []
    let k2 := cmd 0x71 (some 0) []; let k3 := cmd 0x71 (some 0) (tlv 0x0D (toLe 4 1)); let swap (k : Pkt) : Bool := ((parseTlvs (k.params.length + 1) k.params).getD []).any fun e => e.1 == 0x0D && bit (leNat e.2) 0
    (∀ x ∈ [CState.swapped, .loaded, .blocked], readyB (ljCtx { state := x }) op k = true ∧ ((ljCtx { state := x }).ctx 0).state = x) ∧
    (let p := ljCtx { state := .blocked, resident := true }; readyB p o2 k2 = true ∧ readyB p o2 k3 = true ∧ (p.ctx 0).resident = true ∧ swap k2 = false ∧ swap k3 = true ∧
      (cOf p o2 k2).num 0x0D < 2 ∧ (cOf p o2 k3).num 0x0D < 2) := by decide +kernel
/-- A serving context with one sequence, 4, and room for one more of up to 100 tokens, one KiB a token, in 64 pages. -/
def svCtx (n : Nat) (s : List Seq) (j : List Join) : Ctx := {
  state := .loaded, record := 2, serve := put 64 32 64 + put 96 16 1023 + put 192 12 n + put 224 24 100, seqs := s, joins := j }
theorem test_wit_serve : let op : LjOp := { code := 0x90, req := [0x0A, 0x0E, 0x0F, 0x10], ofCtx := true, bound := true }; let ol : LjOp := { code := 0x91, req := [0x0E, 0x0F], ofCtx := true, bound := true }
    let k (id : Nat) := cmd 0x90 (some 0) (tlv 0x0A (toLe 8 10) ++ tlv 0x0E (toLe 4 id) ++ tlv 0x0F (toLe 8 0) ++ tlv 0x10 (toLe 1 0)); let l (id : Nat) := cmd 0x91 (some 0) (tlv 0x0E (toLe 4 id) ++ tlv 0x0F (toLe 8 3))
    let sq : Seq := { id := 4, stream := 0, lc := false, prompt := 1, tokens := 1, pages := [] }; let jn : Join := { id := 6, stream := 0, lc := false, prompt := 1, roundAt := 0 }
    let p := ljCtx (svCtx 1 [sq] []); let full := ljCtx (svCtx 0 [sq] []); let q := ljCtx (svCtx 2 [sq] [jn])
    (∀ x ∈ [p, full, q], ∀ id ∈ [4, 5], readyB x op (k id) = true ∧ (cOf x op (k id)).num 0x0A = 10 ∧ (cOf x op (k id)).num 0x0E = id ∧ (x.ctx 0).state ≠ .empty ∧ bit (x.ctx 0).record 1 = true ∧
      10 ≤ svMaxTok (x.ctx 0).serve ∧ 0 < svStreams (x.ctx 0).serve ∧ (x.ctx 0).knows id = (id == 4)) ∧ svMaxSeq (full.ctx 0).serve ≤ 1 ∧ 1 < svMaxSeq (p.ctx 0).serve ∧
    joinNeed (p.ctx 0).serve { id := 5, stream := 0, lc := false, prompt := 10, roundAt := 0 } ≤ (svPool (p.ctx 0).serve).length ∧
    (∀ id ∈ [4, 5, 6], readyB q ol (l id) = true ∧ (cOf q ol (l id)).num 0x0E = id) ∧ (q.ctx 0).joins.find? (fun j => j.id == 6) = some jn ∧
    (∀ j ∈ (q.ctx 0).joins, j.id ≠ 4) ∧ (∃ y ∈ (q.ctx 0).seqs, y.id = 4) ∧ (∀ y ∈ (q.ctx 0).seqs, y.id ≠ 5) := by decide +kernel
/-- A program image of ten words for one forward thread: its header, work and resource records, and one permitted format pair (E4M3 with 5). -/
def imgHdr : Rec := put 0 32 0x3233_5056 + put 32 16 1 + put 64 32 336 + put 96 32 256 + put 128 32 10 + put 224 32 192 + put 256 16 1 + put 392 7 1
def img0 : List Byte := toLe 64 imgHdr ++ toLe 96 (put 224 1 1) ++ toLe 32 (put 0 32 1 + put 32 32 1) ++ toLe 64 0x50 ++ toLe 80 0
theorem test_wit_load_program : let op : LjOp := { code := 0x40, req := [2, 3], ofCtx := true, bound := true }
    let k := cmd 0x40 (some 0) (tlv 2 (toLe 16 (put 0 48 65536 + put 64 32 336)) ++ tlv 3 (toLe 1 2)); let p := { ljMap (ljCtx { state := .loaded }) with dies := upDies, mem := memPut [] 65536 img0 }
    let q := p.taken op k; let b := (cOf p op k).body
    readyB p op k = true ∧ q.homeUp 2 = true ∧ (cOf p op k).num 3 = 2 ∧ imgReserved b = false ∧ imgOk b = true ∧ fld (leNat (b.take 64)) 48 8 ≤ (q.die q.primary).pkgFeature ∧ imgPairs b = true ∧
    (q.ctx 0).state ≠ .empty ∧ (q.slot 2).bound = false ∧ (q.slot 2).fwd = none ∧ (q.ing 2 0).queue = [] ∧ (q.ctx 0).step.state ≠ 2 ∧
    newFails q (q.install 0 2 (cOf p op k).ref b) = [] := by decide +kernel
/-- A binding record of core 0 with its rings of four pages and stash of one page, from 64 KiB on. -/
def bindRec : Rec := put 0 384 1 + put 512 48 65536 + put 576 32 4 + put 640 48 65536 + put 704 32 4 + put 896 48 65536 + put 960 32 1 + put 1280 7 1
theorem test_wit_bind : let op : LjOp := { code := 0x41, req := [1, 3], ofCtx := true }; let k := cmd 0x41 (some 0) (tlv 1 (toLe 256 bindRec) ++ tlv 3 (toLe 1 2))
    let p := { ljMap (ljCtx { state := .loaded, record := put 256 384 1 }) with
      slots := [(2, { hasImage := true, hdr := imgHdr, res := put 0 32 1 + put 32 32 1 })], dies := upDies }
    let q := p.taken op k; let r := (cOf p op k).strct
    readyB p op k = true ∧ q.homeUp 2 = true ∧ (cOf p op k).body.length = 256 ∧ bindReserved r = false ∧ q.bindOk 0 r = true ∧ (q.slot 2).hasImage = true ∧ (q.slot 2).imgCtx = 0 ∧
    newFails q (q.modSlot 2 fun s => { s with bind := r, bound := true, ctx := 0 }) = [] ∧ (q.slot 2).bound = false ∧ bitsOf 384 (fld r 0 384) = [0] ∧
    (q.die (dieOfCore 0)).admitted = true ∧ hdrThreads (q.slot 2).hdr ≤ (q.freeThreads 0).length ∧ bit (recFoot (q.ctx 0).record) 0 = true ∧ fld (q.slot 2).res 0 32 ≤ fld r 576 32 ∧
    fld (q.slot 2).res 32 32 ≤ fld r 704 32 ∧ fld (q.slot 2).res 128 64 ≤ 65536 * fld r 960 32 := by decide +kernel
theorem test_wit_unbind : let op : LjOp := { code := 0x43, req := [3], ofCtx := true }; let k := cmd 0x43 (some 0) (tlv 3 (toLe 1 2)); let p := { ljCtx { state := .loaded } with slots := [(2, { bound := true })] }
    let q := { p with slots := [(2, { bound := true, fwd := some {} })] }
    readyB p op k = true ∧ readyB q op k = true ∧ (cOf p op k).num 3 = 2 ∧ (p.slot 2).bound = true ∧ p.slotQuiet 2 = true ∧ q.slotQuiet 2 = false ∧ (p.ctx 0).step.state = 0 ∧
    (∀ e < 8, ((p.slot 2).ver e).state ≠ 1) := by decide +kernel
theorem test_wit_deadline : let op : LjOp := { code := 0x42, req := [3, 4, 5], ofCtx := true, bound := true }; let k (w : Nat) := cmd 0x42 (some 0) (tlv 3 (toLe 1 2) ++ tlv 4 (toLe 1 0) ++ tlv 5 (toLe 4 w))
    let p := { ljCtx { state := .loaded } with slots := [(2, { bound := true, bind := 1, work := put 0 64 1000000 + put 224 1 1 })] }
    (∀ w ∈ [0, 1000, 4000000000], readyB p op (k w) = true ∧ (cOf p op (k w)).num 5 = w ∧ (cOf p op (k w)).num 4 = 0) ∧ ((p.slot 2).workOf 0).valid = true ∧
    (p.admission 1 ((p.slot 2).workOf 0) 1000).ok = false ∧ (p.admission 1 ((p.slot 2).workOf 0) 4000000000).ok = true ∧ p.sharedWith 2 = false := by decide +kernel
theorem test_wit_mem_map : let op : LjOp := { code := 0x50, req := [1, 8], ofCtx := true, legal := 1 }; let k (a n : Nat) (v : Rec) := cmd 0x50 (some 0) (tlv 1 (toLe n v) ++ tlv 8 (toLe 1 a))
    let reg : Rec := put 0 48 65536 + put 64 32 4; let row (k : Pkt) (n : Nat) : Bool := rowIs 8 n 2 ((parseTlvs (k.params.length + 1) k.params).getD [])
    let m := k 0 32 reg; let u := k 1 32 reg; let t := k 2 16 (put 4 16 1 + put 20 32 1310720 + put 52 17 16); let p := ljCtx { state := .loaded }; let q := ljMap p
    let held := { q with slots := [(0, { bound := true, bind := put 512 48 65536 + put 576 32 4 })] }
    readyB p op m = true ∧ row m 0 = true ∧ (cOf p op m).num 8 = 0 ∧ (cOf p op m).body.length = 32 ∧ regReserved (cOf p op m).strct = false ∧ (regOf (cOf p op m).strct).pages = 4 ∧
    (p.taken op m).overlapping (regOf (cOf p op m).strct) = [] ∧ (∀ n ∈ stacksOf 65536 262144, (p.stack n).state = 0) ∧
    newFails (p.taken op m) { p.taken op m with regions := [regOf (cOf p op m).strct] } = [] ∧ readyB q op u = true ∧ row u 1 = true ∧ (cOf q op u).num 8 = 1 ∧
    ((q.taken op u).regions.find? (fun x => x.base == (regOf (cOf q op u).strct).base)).isSome = true ∧ (∀ h ∈ (q.taken op u).heldRanges, overlaps h.1 h.2 65536 (4096 * 65536) = false) ∧
    readyB held op u = true ∧ (∃ h ∈ (held.taken op u).heldRanges, overlaps h.1 h.2 65536 (4096 * 65536) = true) ∧
    newFails (q.taken op u) ({ q.taken op u with regions := [] }.unstick ⟨65536, 4096, 0, 0, 15, 0⟩) = [] ∧ readyB p op t = true ∧ row t 2 = true ∧ (cOf p op t).body.length = 16 ∧
    fld (cOf p op t).strct 69 59 = 0 ∧ fld (cOf p op t).strct 52 17 = 16 ∧ fld (cOf p op t).strct 20 32 = 1310720 ∧ (p.stack 0).part = [] := by decide +kernel
theorem test_wit_power_policy : let op : LjOp := { code := 0xB0, req := [1], legal := 1 }; let k := cmd 0xB0 none (tlv 1 (toLe 388 0)); let r := (cOf (lj 3) op k).strct
    readyB (lj 3) op k = true ∧ (cOf (lj 3) op k).body.length = 388 ∧ fld r 16 16 = 0 ∧ polCap r = 6200 ∧ (∀ d < 96, polCeil r d ≤ 360 ∧ polFloor r d ≤ polCeil r d) := by decide +kernel
/-- A securing policy of one tensor of two pages: k 2, m 1, step count 1 in both intervals, objects 0 to 2, its space at 1 MiB. -/
def secRec : Rec := put 0 32 1 + put 32 24 1 + put 80 5 2 + put 85 3 1 + put 96 32 1 + put 216 11 1 + put 232 24 2 + put 256 48 0x10_0000 + put 304 32 16 +
  put 608 256 (put 0 48 65536 + put 64 48 0x4_0000 + put 128 32 2)
theorem test_wit_secure : let op : LjOp := { code := 0x80, either := true, ofCtx := true }; let k := cmd 0x80 (some 0) (tlv 1 (toLe 108 secRec)); let p := ljMap (ljCtx { state := .loaded }); let q := p.taken op k
    let r := (cOf p op k).strct
    readyB p op k = true ∧ secReserved r = false ∧ q.secOk 0 r (cOf p op k).body.length = true ∧ (q.ctx 0).step.state = 0 ∧ q.secure.active = false ∧
    2 * (scStripe r + scM r * (scStripe r / scK r)) + fld r 336 32 ≤ fld r 304 32 ∧ (∀ m < 8, (rowsOfDie (scTensors r) m).length ≤ 1024) ∧
    (((scTensors r).filter fun t => tnPin t == 1).map tnPages).sum ≤ scStripe r := by decide +kernel
theorem test_wit_secure_now : let op : LjOp := { code := 0x81, ofCtx := true, bound := true }; let k := cmd 0x81 (some 0) []
    let p := ljCtx { state := .loaded }; let q := { ljCtx { state := .loaded, step := { policy := put 108 1 1 } } with secure := { ({} : Secure) with active := true } }
    readyB p op k = true ∧ readyB q op k = true ∧ polRoot (p.ctx 0).step.policy = false ∧ polRoot (q.ctx 0).step.policy = true ∧ q.secure.active = true ∧ q.secure.ctx = 0 := by decide +kernel
theorem test_wit_restore_command : let op : LjOp := { code := 0x82, either := true, ofCtx := true, bound := true }; let k := cmd 0x82 (some 0) (tlv 1 (toLe 64 (put 0 61 9 + put 64 48 65536 + put 160 48 65536)))
    let p (l : Option Nat) := { ljMap (ljCtx { state := .loaded }) with secure := { ({} : Secure) with active := true, lastDone := l } }
    (∀ l ∈ [none, some 9, some 8], readyB (p l) op k = true ∧ ((p l).taken op k).inRegions 0 65536 1 = true ∧ (p l).secure.restoring = none ∧ (p l).slotsOf 0 = [] ∧ (p l).secure.older = none) ∧
    (cOf (p none) op k).body.length = 64 ∧ rstReserved (cOf (p none) op k).strct = false ∧ fld (cOf (p none) op k).strct 0 61 = 9 := by decide +kernel
/-- A topology of device 7 whose plan leaves every port unused. -/
def topRec : Rec := put 0 24 7 + put 128 4 1 + ((List.range 16).map fun n => put (512 + 128 * n + 68) 1 1).sum
theorem test_wit_topology : let op : LjOp := { code := 0x20, req := [1], legal := 2 }; let k := cmd 0x20 none (tlv 1 (toLe 320 topRec)); let p := lj 1
    readyB p op k = true ∧ topReserved (cOf p op k).strct = false ∧ topOk (cOf p op k).strct (cOf p op k).body.length = true := by decide +kernel
theorem test_wit_routes : let op : LjOp := { code := 0x21, either := true }; let k := cmd 0x21 none (tlv 1 (toLe 48 (put 0 32 2 + put 128 24 0x900 + put 152 5 16 + put 256 24 0xA00 + put 280 5 16))); let p := lj 3
    let r := (cOf p op k).strct; let es := (List.range (((cOf p op k).body.length - 16) / 16)).map (rtEntry r)
    readyB p op k = true ∧ (cOf p op k).body.length = 16 + 16 * fld r 0 32 ∧ fld r 52 76 = 0 ∧ es.length = 2 ∧ (∀ e ∈ es, rtReserved e = false ∧ rtPrefix e = true) ∧ fld r 32 20 = 0 ∧
    es.Pairwise (fun x y => ¬(rtDest x = rtDest y ∧ rtPlen x = rtPlen y)) ∧ (p.taken op k).stepActive = false := by decide +kernel
/-- Logical port 3 in state `st`. -/
def portIn (st : PState) : Pkg := { lj 3 with ports := [(3, { state := st, logical := 3 })] }
theorem test_wit_port_actions : ∀ r ∈ ([(0, false, 0, PState.active, PState.dead), (1, true, 20, .active, .dead), (2, false, 0, .dark, .active), (3, false, 0, .active, .active), (4, false, 0, .dead, .active),
      (5, false, 0, .quarantine, .active), (6, false, 0, .active, .active), (7, true, 10 + 2 ^ 24, .active, .active), (8, true, 1, .active, .active)] : List (Nat × Bool × Nat × PState × PState)),
    let op : LjOp := { code := 0x22, req := if r.2.1 then [7, 8, 10] else [7, 8], opt := if r.2.1 then [1] else [1, 10] }
    let k := cmd 0x22 none (tlv 7 (toLe 1 3) ++ tlv 8 (toLe 1 r.1) ++ (if r.2.1 then tlv 10 (toLe 8 r.2.2.1) else []))
    ∀ st ∈ [r.2.2.2.1, r.2.2.2.2, .training, .down], let p := portIn st
    readyB p op k = true ∧ rowIs 8 r.1 8 ((parseTlvs (k.params.length + 1) k.params).getD []) = true ∧ (cOf p op k).num 8 = r.1 ∧ (cOf p op k).num 7 = 3 ∧ (cOf p op k).num 10 = r.2.2.1 ∧
    (cOf p op k).has 1 = false ∧ (p.taken op k).physPort 3 = 3 ∧ ((p.taken op k).port 3).state = st := by decide +kernel
theorem test_wit_port_values : fld 20 30 34 = 0 ∧ fld 20 0 20 = 20 ∧ fld 20 20 10 ≤ 1000 ∧ fld (10 + 2 ^ 24) 44 20 = 0 ∧ fld (10 + 2 ^ 24) 0 24 = 10 ∧ fld (10 + 2 ^ 24) 24 20 = 1 ∧
    ((portIn .active).port 3).carrying = true ∧ ((portIn .training).port 3).carrying = false ∧ notDeadDark .dead = false ∧ notDeadDark .active = true ∧ (lj 3).stepActive = false ∧
    (ljCtx { step := { state := 1 } }).stepActive = true := by decide +kernel
/-- A read, and a write, of the register at address `a`. -/
def rdReg (a : Nat) : Pkt := cmd 0x11 none (tlv 9 (toLe 4 a))
def wrReg (a v : Nat) : Pkt := cmd 0x12 none (tlv 9 (toLe 4 a) ++ tlv 10 (toLe 8 v))
/-- FAB_BURST of die 0 stands at block 3 offset 8; FAB_DIE_STATE at offset 0. -/
theorem test_wit_reg_read : let op : LjOp := { code := 0x11, req := [9], opt := [12], legal := 0 }; let p := lj 3; let a := 15 * 2 ^ 27 + 3 * 65536; let q := p.taken op (rdReg a)
    readyB p op (rdReg a) = true ∧ (cOf p op (rdReg a)).num 9 = a ∧ (cOf p op (rdReg a)).has 12 = false ∧ a % 8 = 0 ∧ regOff a + 8 ≤ 65536 ∧ (q.reg a).map (·.1) = some .ro ∧ q.regDown a true = false := by
  decide +kernel
theorem test_wit_reg_write : let op : LjOp := { code := 0x12, req := [9, 10], opt := [11], legal := 1 }; let p := { lj 3 with dies := [(0, { admitted := true }), (15, { admitted := true }), (31, { admitted := true })] }
    let a := 15 * 2 ^ 27 + 3 * 65536 + 8; let b := 3 * 65536 + 8; let w := 0x40 * 65536 + 0x10; let o := 15 * 2 ^ 27 + 3 * 65536; let v := 5 + 5 * 65536; let q := p.taken op (wrReg a v)
    let tl (k : Pkt) := (parseTlvs (k.params.length + 1) k.params).getD []
    readyB p op (wrReg a v) = true ∧ regTlv (tl (wrReg a v)) 9 = some a ∧ regTlv (tl (wrReg a v)) 10 = some v ∧ a % 8 = 0 ∧ isResetReq a = false ∧ isHandover a = false ∧
    (q.reg a).map (·.1) = some (.rw 0xFF00FF) ∧ (q.regPut a (rwMerge 0 v (2 ^ 64 - 1) 0xFF00FF)).isSome = true ∧ q.regDown a false = false ∧ (lj 3).regDown b false = true ∧
    ((lj 3).reg b).map (·.1) = some (.rw 0xFF00FF) ∧ readyB (lj 3) op (wrReg b v) = true ∧ (q.reg w).map (·.1) = some (.w1c .coreStatus 0 7) ∧ q.regDown w false = false ∧
    readyB p op (wrReg w 1) = true ∧ isResetReq w = false ∧ (q.reg o).map (·.1) = some .ro ∧ readyB p op (wrReg o 0) = true := by decide +kernel
theorem test_wit_reset_request : let op : LjOp := { code := 0x12, req := [9, 10], opt := [11], legal := 1 }; let p := { lj 3 with dies := [(0, { admitted := true }), (15, { admitted := true }), (31, { admitted := true })] }
    let a := 15 * 2 ^ 27 + 3 * 65536 + 0x2000; let h := 15 * 2 ^ 27 + 0x15 * 65536 + 0x18; let b := { p with pwr := { p.pwr with primaryB := true, synced := true } }
    let tl (k : Pkt) := (parseTlvs (k.params.length + 1) k.params).getD []
    readyB p op (wrReg a 0) = true ∧ readyB p op (wrReg a 32) = true ∧ isResetReq a = true ∧ (p.reg a).map (·.1) = some .wo ∧ p.regDown a false = false ∧ 0 ≠ p.primary ∧ p.dieUp 0 = true ∧
    bit 32 5 = true ∧ bit 0 5 = false ∧ readyB p op (wrReg h 1) = true ∧ isHandover h = true ∧ (p.reg h).map (·.1) = some .wo ∧ p.regDown h false = false ∧ regTlv (tl (wrReg h 1)) 10 = some 1 ∧
    b.pwr.primaryB = true ∧ b.dieUp 15 = true ∧ b.pwr.synced = true ∧ b.eth.up = true ∧ p.pwr.primaryB = false ∧ b.ownPort = false ∧
    readyB b op (cmd 0x12 none (tlv 9 (toLe 4 h) ++ tlv 10 (toLe 8 1)) (.relay 0 5 1)) = true ∧ b.regDown h false = false ∧ (b.reg h).map (·.1) = some .wo := by decide +kernel
theorem test_wit_reads : let p := ljCtx { state := .loaded }; let rd (op : LjOp) (c : Option Nat) (ps : List Byte) : Bool := readyB p op (cmd op.code c ps)
    let og : LjOp := { code := 0x10, req := [0x15], bound := true, legal := 0 }; let oc : LjOp := { code := 0xA0, req := [0x15], legal := 0 }
    let oe : LjOp := { code := 0xA1, req := [0x16], opt := [0x0D], legal := 0 }; let ot : LjOp := { code := 0xA2, ofCtx := true, bound := true, legal := 0 }
    let od : LjOp := { code := 0xD0, req := [0x0A, 0x15], legal := 0 }; let kc := cmd 0xA0 none (tlv 0x15 (toLe 8 (2 ^ 32))); let kd := cmd 0xD0 none (tlv 0x0A (toLe 8 (8 * 2 ^ 32)) ++ tlv 0x15 (toLe 8 1))
    rd og none (tlv 0x15 (toLe 8 0)) = true ∧ (cOf p og (cmd 0x10 none (tlv 0x15 (toLe 8 0)))).num 0x15 = 0 ∧ readyB p oc kc = true ∧ fld ((cOf p oc kc).num 0x15) 48 16 = 0 ∧ fld ((cOf p oc kc).num 0x15) 32 16 = 1 ∧
    rd oe none (tlv 0x0D (toLe 4 0) ++ tlv 0x16 (toLe 8 0)) = true ∧ rd oe none (tlv 0x0D (toLe 4 1) ++ tlv 0x16 (toLe 8 0)) = true ∧ rd oe none (tlv 0x16 (toLe 8 0)) = true ∧
    rd ot (some 0) [] = true ∧ (p.ctx 0).state ≠ .empty ∧ readyB p od kd = true ∧ (p.peekObj 1 0).isSome = true ∧ fld ((cOf p od kd).num 0x0A) 48 16 = 0 ∧ fld ((cOf p od kd).num 0x0A) 32 16 = 8 ∧
    fld ((cOf p od kd).num 0x15) 0 8 = 1 := by decide +kernel
theorem test_wit_info_page (p : Pkg) : p.infoPage 0 = some p.summary := rfl
theorem test_wit_catalogue : ∃ i b, ctrCatalogue.find? (fun x => x.1 == 256 + i) = some (256 + i, ⟨"CNT_DL_CAUSE_HOTSPOT", 1, 0, 1, some b⟩) := by
  have h : (⟨"CNT_DL_CAUSE_HOTSPOT", 1, 0, 1, some (ctrKey .dlCause 3)⟩ : CatEnt) ∈ ctrRows0 ++ ctrRows1 ++ ctrRows2 ++ ctrRows3 ++ ctrRowsEth ++ companionRows :=
    by simp [ctrRows3]
  obtain ⟨i, e⟩ := numbered_block1 0 CatEnt.block _ _ h rfl ctrRows_block
  exact ⟨i, _, e⟩
theorem test_wit_session_open : let op : LjOp := { code := 1, req := [0x11, 0x12, 0x13, 0x14], legal := 0 }; let p := { lj 3 with ident := { ({} : Ident) with opKeys := [toLe 96 5] } }
    let k := { cmd0 none (tlv 0x11 (toLe 97 1) ++ tlv 0x12 (toLe 32 2) ++ tlv 0x13 (toLe 96 3) ++ tlv 0x14 (toLe 1 0)) with session := 0 }
    p.hears k.src = true ∧ pktBadHeader k = false ∧ k.session = 0 ∧ p.undecided < 256 ∧ ((p.taken op k).ljFormat op k).1 = none ∧
    (((p.taken op k).ljFormat op k).2.find? fun (e : TlvE) => e.1 == 0x14) = some ((0x14, [0]) : TlvE) ∧ p.ident.opKeys[leNat [0]]? = some (toLe 96 5) ∧
    (List.range 64).find? (fun n => !((p.taken op k).session n).openF) = some 1 := by decide +kernel
theorem test_wit_session_end : let op : LjOp := { code := 2, bound := true, legal := 0 }; let w : WaitCmd := ⟨1, 0x10, false, 0, host⟩; let d := { lj 3 with sessions := [(0, { openF := true, id := 1, waiting := [w] })] }
    readyB (lj 3) op (cmd 2 none []) = true ∧ ((lj 3).session 0).openF = true ∧ ((lj 3).session 0).decided = false ∧
    ∀ s ∈ [{ ({} : Session) with openF := true, decided := true }], s.decided = true ∧ (d.session 0).openF = true := by decide +kernel
/-- An image whose length and header pass: 64 bytes of code, one pairing entry and one qualified stack. -/
def fwHdr : Rec := put 0 32 0x46574C56 + put 32 16 1 + put 128 32 63424 + put 192 32 64 + put 224 32 64 + put 256 16 1 + put 272 16 1 + put 288 32 80
def fwImg : List Byte := toLe 256 fwHdr ++ List.replicate 65292 0
theorem fwImg_hdr : imHdr fwImg = fwHdr := by
  have hl := length_toLe 256 fwHdr
  rw [imHdr, fwImg, List.take_append_of_le_length (by omega), List.take_of_length_le (by omega)]
  rw [leNat_toLe]
  decide +kernel
/-- Length and header pass; only the two signatures, open functions of the configuration, decide. -/
theorem test_wit_image : imageReject fwImg fwImg.length = if imageSigOk fwImg then 0 else 3 := by
  have hl : fwImg.length = 65548 := by rw [fwImg, List.length_append, length_toLe, List.length_replicate]
  have h1 : imageLenOk fwImg 65548 = true := by unfold imageLenOk; rw [fwImg_hdr, hl]; decide +kernel
  have h2 : imageHdrOk fwImg = true := by unfold imageHdrOk; rw [fwImg_hdr]; decide +kernel
  unfold imageReject
  rw [hl, h1, h2]
  cases imageSigOk fwImg <;> rfl
theorem test_wit_firmware : let of : LjOp := { code := 0xC0, req := [2], legal := 3 }; let oa : LjOp := { code := 0xC1, req := [0x12], legal := 0 }
    let kf := cmd 0xC0 none (tlv 2 (toLe 16 (put 0 48 65536 + put 64 32 8))); let ka := cmd 0xC1 none (tlv 0x12 (toLe 32 9)); let p := { lj 1 with regions := [⟨65536, 4096, 0x100, 0, 15, 0⟩], mem := memPut [] 65536 [1, 2, 3, 4, 5, 6, 7, 8] }
    let b (r : Bool) := { lj 3 with ident := { ({} : Ident) with pbkReady := r, loading := none } }; let l := { lj 3 with ident := { ({} : Ident) with loading := some ([], (0, 1)) } }
    readyB p of kf = true ∧ (cOf p of kf).body.length = 8 ∧ readyB (b true) oa ka = true ∧ readyB (b false) oa ka = true ∧ (b true).ident.pbkReady = true ∧ (b true).ident.attests = [] ∧
    (b false).ident.pbkReady = false ∧ (b false).answers = true ∧ l.ident.loading = some ([], (0, 1)) ∧ imageReject [] 0 ≠ 0 ∧ l.ident.attests = [] := by decide +kernel
/-- A record of BULK_DESCRIBE: action, queue pair 2, its peer, key and range, slot. -/
def bkRec (a key base pages slot : Nat) : Rec := put 0 4 a + put 4 13 2 + put 256 32 key + put 288 48 base + put 336 32 pages + put 368 2 3 + put 370 4 slot
theorem test_wit_bulk : let op : LjOp := { code := 0x51, req := [1], ofCtx := true, legal := 1 }; let hf : Tab SlotS := [(2, { bound := true, ing := [(0, { sender := 0xFFFFFF, pages := 4, base := 65536 })] })]
    let k (a : Nat) (src : Src) := cmd 0x51 (some 0) (tlv 1 (toLe 64 (bkRec a 9 65536 4 2))) src
    let q (st : Nat) (sl : Option Nat) : Qp := { state := st, mtu := 1024, slot := sl }
    let p (up : Bool) (y : Qp) : Pkg := { ljMap (lj 3) with eth := { ({} : Eth) with up := up, qps := tabSet {} [] 2 y, keys := [⟨9, 65536, 4, 3⟩] }, slots := hf }
    (∀ a ∈ [0, 1, 2, 3, 4, 5], ∀ u ∈ [(true, host), (false, .relay 0 5 1)], ∀ y ∈ [q 0 none, q 1 none, q 1 (some 2)], let m := k a u.2; let x := p u.1 y
      readyB x op m = true ∧ bulkRow a ((parseTlvs (m.params.length + 1) m.params).getD []) = true ∧ (cOf x op m).body.length = 64 ∧ bkReserved (cOf x op m).strct = false ∧
      fld (cOf x op m).strct 0 4 = a ∧ bkQpn (cOf x op m).strct = 2 ∧ fld (cOf x op m).strct 48 2 ≠ 3 ∧ bkSlot (cOf x op m).strct = 2 ∧ bkKey (cOf x op m).strct ≠ 0) ∧
    (∀ u ∈ [(true, host), (false, .relay 0 5 1)], let x := (p u.1 (q 1 none)).taken op (k 2 u.2)
      x.ownPort = u.1 ∧ x.keyFits (bkRec 2 9 65536 4 2) = true ∧ (∃ y ∈ x.eth.keys, y.rkey = 9) ∧ x.hostFed 2 = true ∧ (x.qp 2).state = 1 ∧ (x.qp 2).slot = none ∧
      (∀ e ∈ x.eth.qps, e.2.slot ≠ some 2)) ∧
    ((p true (q 0 none)).qp 2).state = 0 ∧ ((p true (q 1 (some 2))).qp 2).slot = some 2 := by decide +kernel

/-- A thread that the core does not issue; one whose PC left the code; one at a word that is not well formed. -/
theorem test_wit_issue : let w : W64 := 0b00000000000000000000000000000000_1_0_00000_00110_00101_00100_001100_0000; let i : Instr := .shl 0 ⟨4, 5, 6, 0, false, true, 0⟩
    decodeInstr 0 w = some i ∧ i.wf = false ∧ ({} : Pkg).selected 0 = false ∧ (one (withS [])).selected 0 = true ∧ (one { withS [] with pcOut := true }).selected 0 = true ∧
    ((one (withS [])).thr 0).pcOut = false ∧ ((one (withS [])).thr 0).pc.toNat < ((one (withS [])).slot ((one (withS [])).thr 0).slot).codeWords ∧
    (let c := ((one (withS [])).thr 0).ctx; ((one (withS [])).ctx c).state ≠ .faulted ∧ ((one (withS [])).ctx c).state ≠ .empty) ∧
    (let p := one { withS [] with pc := 0xFFFF }; p.selected 0 = true ∧ (p.slot (p.thr 0).slot).codeWords ≤ (p.thr 0).pc.toNat) := by decide +kernel
/-- Memory has its canonical form, empty and written. -/
theorem test_wit_memory : Memory.wf State.reset.pkg.mem = true ∧ Memory.wf (({} : Pkg).store 65534 [1, 0, 3]).mem = true ∧ isStackAddr 65534 = true ∧ isStackAddr (2 ^ 47) = false := by decide +kernel

/-- A command answered before, one that waits, and one of a session bound to context 1. -/
def ljSes (s : Session) : Pkg := { lj 3 with sessions := [(0, { s with openF := true, id := 1 })] }
theorem test_wit_admission : let k := cmd 0x10 none (tlv 0x15 (toLe 8 0)); let w : WaitCmd := ⟨1, 0x10, false, 0, host⟩
    (hup 0).hears k.src = false ∧ (lj 3).hears k.src = true ∧ pktBadHeader { k with magic := 0 } = true ∧ pktBadHeader k = false ∧ (hup 3).placeOf k = none ∧ (lj 3).placeOf k = some 0 ∧
    (lj 3).undecided < 256 ∧ (lj 3).ident.loading = none ∧ 256 ≤ ({ lj 3 with undecided := 256 } : Pkg).undecided ∧ ({ lj 3 with undecided := 256 } : Pkg).placeOf k = some 0 ∧
    (64 ≤ ((ljSes { high := 65 }).session 0).high ∧ k.seq.toNat + 64 ≤ ((ljSes { high := 65 }).session 0).high) ∧ ({ k with seq := 0 } : Pkt).seq.toNat = 0 ∧
    (ljSes { cache := [(1, [7])] }).placeOf k = some 0 ∧ ((ljSes { cache := [(1, [7])] }).session 0).cache.find? (fun e => e.1 == k.seq.toNat) = some (1, [7]) ∧
    (ljSes { waiting := [w] }).placeOf k = some 0 ∧ (∃ x ∈ ((ljSes { waiting := [w] }).session 0).waiting, x.seq = k.seq.toNat) ∧ (ljSes { waiting := [w] }).undecided < 256 ∧
    ((ljSes { bound := true, ctx := 1 }).session 0).bound = true ∧ (∀ e ∈ ((ljSes { bound := true, ctx := 1 }).session 0).cache, e.1 ≠ k.seq.toNat) ∧
    (ljSes { bound := true, ctx := 1 }).placeOf k = some 0 ∧ (cmd 0x60 (some 0) []).context.toNat ≠ ((ljSes { bound := true, ctx := 1 }).session 0).ctx := by decide +kernel
theorem toLe_succ_ne (m : BitVec 128) : toLe 16 m.toNat ≠ toLe 16 (m + 1).toNat := fun h => by
  have e (x : BitVec 128) : leNat (toLe 16 x.toNat) = x.toNat := (leNat_toLe 16 _).trans (Nat.mod_eq_of_lt x.isLt)
  have h : m.toNat = (m + 1).toNat := by rw [← e m, ← e (m + 1), h]
  rw [BitVec.toNat_add] at h
  have hl := m.isLt
  have h1 : (1 : BitVec 128).toNat = 1 := rfl
  omega
/-- The MAC of `cmd` is right; another is not. -/
theorem test_wit_mac : let k := cmd 0x10 none []; let k' := { k with mac := k.mac + 1 }
    mac16 0 (pktHeader k 0x10 ++ k.params) = toLe 16 k.mac.toNat ∧ mac16 0 (pktHeader k' 0x10 ++ k'.params) ≠ toLe 16 k'.mac.toNat :=
  ⟨cmd_mac 0x10 none [] host, fun h => toLe_succ_ne _ ((cmd_mac 0x10 none [] host).symm.trans h)⟩

/-! ## Witnesses of the clauses on states the package reaches beside the plain ones -/

theorem test_wit_core_more : let p := onec {} { issuer := some 0, consec := 32 }; let w := one { wait := .fetch }
    (p.core 0).curQuantum ≤ (p.core 0).consec ∧ p.selected 0 = true ∧ (p.thr 0).wait ≠ .fetch ∧ (w.thr 0).wait = .fetch := by decide +kernel
theorem test_wit_stash_more : let a : StashAlloc := ⟨0, 0, 0, 2, 1, false, none, false, none⟩; let q := stashOne [a]; let n := stashOne [{ a with dead := true }]
    (q.slot 0).stashOf 0 0 0 = some a ∧ (n.slot 0).stashOf 0 0 0 = none ∧ (q.slot 0).stashOf 1 0 0 = none := by decide +kernel
theorem test_wit_tile_more : let op : TileOp := ⟨0, false, 0, 0, 0, none⟩; let p := winMem 64 (tileD 0) {} { parked := [op] }; let q := winMem 64 (tileD 0) {} {}
    ((p.core 0).parked.any fun o => o.thr == 0) = true ∧ ((q.core 0).parked.any fun o => o.thr == 0) = false ∧ bit (q.num 0x8000_0000_0000 64) 330 = false := by decide +kernel
theorem test_wit_background_more : let p := bgOne (.load 64 0 8 0); let w := { p with stackTab := [(0, { state := 1 })] }; let u := { p with stackTab := [(0, { poisonAll := true })] }
    let x := { bgOne (.load 0x8000_0000_0000 0 8 0) with cores := [(0, { spBad := [(0, true)] })] }
    w.bgTest 64 8 = .waits ∧ (p.memRead 64 8 0 []).2.1 = false ∧ (u.memRead 64 8 0 []).2.1 = true ∧ u.bgTest 64 8 = .ok ∧
    x.bgTest 0x8000_0000_0000 8 = .ok ∧ x.windowBad 0x8000_0000_0000 8 = true ∧ (bgOne (.storeWord 64 5 0)).bgTest 64 8 = .ok := by decide +kernel
theorem test_wit_flit_crossing : let p := portOne { state := .active }
    let q := { p with dies := [(linkDie 3, { xings := [(3, { clocked := false })] })] }
    (p.port 3).talks = true ∧ (p.xing (linkDie 3) 3).ready = true ∧ (q.xing (linkDie 3) 3).ready = false := by decide +kernel
theorem test_wit_hello_more : let x : Port := { state := .hello, planned := some (7, 5), acceptSwap := true, logical := 3 }
    let p : Pkg := { ports := [(2, { planned := some (8, 5), logical := 2 }), (3, x)] }; let q : Pkg := { ports := [(2, { state := .active, logical := 3 }), (3, { x with planned := none })] }
    (p.port 3).state = .hello ∧ (p.port 3).bootOpen = false ∧ (p.port 3).draining = false ∧ p.swapPort 3 (hi false 0 8) = some 2 ∧ (p.port 3).acceptSwap = true ∧
    (p.port 3).logical ≠ 2 ∧ (hi false 0 8).epoch.toNat = p.epoch ∧ (hi false 0 8).planHash.toNat = p.planHash ∧ (hi false 0 8).accepted = false ∧ q.carriedElse 3 3 = true ∧
    p.carriedElse 3 3 = false ∧ (q.port 3).planned = none ∧ (p.port 3).rate64 = false ∧
    ((1 : Nat) == 1) ≠ (p.port 3).rate64 ∧ ((2 : Nat) == 1) = (p.port 3).rate64 := by decide +kernel
theorem test_wit_training_more : let p := portOne { state := .training, lanemap := map1, fastRetrain := true }
    (p.port 3).draining = false ∧ (p.port 3).hostMap = 0 ∧ (p.port 3).fastRetrain = true ∧
    widthFor ((((List.range (laneCount (p.port 3).width)).map (laneOf (p.port 3).lanemap)).filter ([] : List Nat).contains).length) (p.port 3).rate64 = none ∧
    widthFor ([] : List Nat).length false = none ∧ Nat.max (Nat.max 0 0) ((p.port 3).peerOffer.getD 0) = 0 := by decide +kernel
theorem test_wit_landing_down : let p := slotOne {} {}; let d := { p with dies := [(queueDie (halfOfSlot 0), { state := 1 })] }
    let r := { p with dies := upDies }; d.homeUp 0 = false ∧ r.homeUp 0 = true ∧ (r.slot 0).bound = true ∧ ({ r with slots := [] } : Pkg).homeUp 0 = true := by decide +kernel
theorem test_wit_late_queued : let i : Item := { startNs := some 5, window := 10 }; let p := { slotOne { queue := [i] } {} with now := 16 }
    let g := p.ing 0 0; let isLate (y : Item) : Bool := y.window != 0 && !y.late && y.startNs.any fun st => decide (st + y.window < p.icount 14)
    ((p.slot 0).pos 0).all (fun i => !isLate i) = true ∧ g.queue.findIdx? isLate = some 0 ∧ g.queue[0]? = some i ∧
    ∀ y ∈ [{ i with late := true }], isLate y = false := by decide +kernel
theorem test_wit_spill : let a : StashAlloc := ⟨1, 0, 0, 0, 1, true, some 2, false, none⟩
    let p : Pkg := { dies := upDies, slots := [(0, { bind := put 896 48 65536 + put 960 32 4 + put 1024 48 (65536 * 8) + put 1072 32 4, stash := [a] })], regions := [⟨65536, 4096, 0, 0, 15, 0⟩] }
    let x := p.slot 0
    let gone := x.stash.filterMap fun a => if a.mb = 1 then a.spillAt.map fun f => (x.stashBase + f * 65536, x.offBase + a.first * 65536, a.pages * 65536) else none
    p.stashBusy 0 1 = false ∧ x.offFab = 0 ∧ gone = [(65536 * 3, 65536 * 8, 65536)] ∧
    p.devTest x.ctx (65536 * 3) 65536 = .ok ∧ p.devTest x.ctx (65536 * 8) 65536 = .ok := by decide +kernel
theorem test_wit_relay_block : let b : RelayBlk := { head := put 96 32 1, page0 := 0, bytes := [9], landed := [(0, 1)] }
    let p : Pkg := { dies := upDies, slots := [(0, { egr := [(2, { cl := 1, dl := 1 })], relay := [b], bind := put 1120 24 7 })] }
    (p.slot 0).relay.find? (fun b => b.sentAs.isNone) = some b ∧ p.homeUp 0 = true ∧ b.whole = true := by decide +kernel
theorem test_wit_remote_line : let p := stackOne {}; let a : LineAcc := { rdLine 3 with device := true }
    a.device = true ∧ a.ctx = some 0 ∧ p.devRegion 0 192 64 = false ∧ (p.take 1).2.memReady 192 64 = .ok ∧
    (let w : LineAcc := { rdLine 3 with write := true, data := List.replicate 64 1 }; w.write = true ∧ w.off = 0 ∧ w.data.length = 64) := by decide +kernel
theorem test_wit_memory_timers_more : let k (n c : Nat) := stackOne { hotRun := n, hotCh := c, storm := true, throttled := true, ce := 4097 }
    let run (p : Pkg) : Nat := if (p.stack 0).hotRun ≠ 0 ∧ (p.stack 0).hotCh = 5 then (p.stack 0).hotRun + 1 else 1
    run (k 2 5) = 3 ∧ run (k 2 4) ≠ 3 ∧ run (k 3 5) ≠ 3 ∧ ((k 0 0).stack 0).storm = true ∧ ((k 0 0).stack 0).throttled = true := by decide +kernel
theorem test_wit_abort_word : let p : Pkg := { dies := [(0, { dieDflt 0 with groups := [(0, { rewound := true })] })] }
    (({} : Pkg).group 0 0).rewound = false ∧ (p.group 0 0).rewound = true ∧ stationGroup 111 = true ∧ stationGroup 0 = false := by decide +kernel
theorem test_wit_dies_more : let p := hup 3; let q := { p with holdover := true }; let r := { q with clkStop := some 5 }
    p.clkStop = none ∧ q.holdover = true ∧ r.clkStop ≠ none ∧ p.refEthLost = false := by decide +kernel
theorem test_wit_swap_waits : let x : Ctx := { saving := true, resident := true, state := .blocked, record := put 256 384 1 + put 96 22 64 + put 1024 48 65536 }
    let p := { ctxOne x with dies := upDies, regions := [⟨65536, 4096, 0, 0, 15, 0⟩] }; let w := { p with stackTab := [(0, { state := 1 })] }
    p.imageWaits 0 = false ∧ w.imageWaits 0 = true ∧ (w.ctx 0).saving = true ∧ (∀ i ∈ (w.ctx 0).frozenItems, w.quiescent i.1 i.2 = true) ∧
    ((p.saveDone 0).ctx 0).state ≠ .faulted ∧ ((ctxOne { x with swapIn := true }).ctx 0).hasImage = false := by decide +kernel
theorem test_wit_capture_more : let full := secOne { replica := (List.range 5).map fun n => ⟨1, 2, n, 3, []⟩ }
    let root := { secOne { capOpen := true, sinceCap := 8, reported := true } with ctxs := [(0, { step := { policy := put 108 1 1 } })] }
    fld scH 336 32 ≤ full.secure.replica.length + full.secure.pendLog.length + full.secure.newLog.length ∧
    (∀ y ∈ full.secure.replica ++ full.secure.pendLog ++ full.secure.newLog, ¬(y.fab = 9 ∧ y.tensor = 2 ∧ y.page = 0)) ∧
    polRoot (root.ctx 0).step.policy = true ∧ root.secure.capOpen = true ∧ root.secure.stopSent = false ∧ 8 ≤ root.secure.sinceCap ∧ root.secure.reported = true := by decide +kernel
theorem test_wit_restore_more : let q : Pkg := { hup 3 with slots := [(0, { bound := true })] }
    q.objsFor [] = true ∧ ({ q with slots := [(0, { bound := true, bind := put 992 48 65536 + put 1040 32 1 })] } : Pkg).objsFor [] = true := by decide +kernel
theorem test_wit_plan_unmet : let e : Rec := put 0 24 9 + put 24 5 24 + put 32 16 8 + put 96 1 1; let p := { lj 3 with routes := [{ ent := e }] }; let q := { p with degraded := true }
    p.planUnmet = 0 :: [] ∧ p.degraded = false ∧ q.degraded = true ∧ q.planUnmet ≠ [] := by decide +kernel
theorem test_wit_session_full : let p := { lj 3 with sessions := (List.range 64).map fun n => (n, { openF := true, id := BitVec.ofNat 32 (n + 1) }) }
    (∀ n < 64, (p.session n).openF = true) ∧ (List.range 64).find? (fun n => !((lj 3).session n).openF) = some 1 := by decide +kernel

end Sys2Proof.Machine.Tests
end

