-- ==== Sys2Proof/Proofs/PacketRouting.lean ====
section
/-! What routing does with a packet, one equation per outcome of R119 to R123, and the obligation settled from them. -/

namespace Sys2Proof.Machine

/-- The bit of a half read back. -/
@[simp] theorem b2n_beq_one (b : Bool) : (b2n b == 1) = b := by cases b <;> rfl

/-- A packet as it leaves: one hop fewer in transit (R122). -/
def onward (ingress : Option Nat) (k : LPkt) : LPkt := if ingress.isSome then { k with hops := k.hops - 1 } else k

/-- A packet joins its class at a port, which sends what it may. -/
def Pkg.queuePkt (p : Pkg) (n : Nat) (half sub : Bool) (k : LPkt) : Pkg :=
  let q := p.port n
  let c := q.cls (classOf k sub)
  let t : TxPkt := { pkt := k, sub := sub, half := half, left := cutPkt k c }
  ((p.setPort n { q with txWait := tabMod [] q.txWait c fun l => l ++ [t] }).emit (.pkt (some n) half sub k)).pumpTx n

/-! ## The outcomes of a routing decision -/

/-- A device that has its topology has no port of the boot relay (R436). -/
theorem Pkg.bootPortTo_of_topoSet {p : Pkg} (h : p.topoSet = true) (dst : Nat) : p.bootPortTo dst = none := by
  simp [Pkg.bootPortTo, h]

/-- A packet with hops left, or of this device, is not the one R122 drops. -/
theorem not_hopless {ingress : Option Nat} {k : LPkt} (hh : k.hops ≠ 0 ∨ ingress = none) :
    ¬ (ingress.isSome && decide (k.hops = 0)) = true := by
  rcases hh with hh | rfl
  · rw [decide_eq_false hh, Bool.and_false]
    exact Bool.false_ne_true
  · exact Bool.false_ne_true

section Route
variable {p : Pkg} {ingress : Option Nat} {half : Nat} {sub : Bool} {k : LPkt}

/-- R119: a packet for this device is delivered. -/
theorem Pkg.routePkt_own (hd : k.dst.toNat = p.fabAddr) :
    p.routePkt ingress half sub k = (true, (p.emit (.pkt none (half == 1) sub k)).deliver ingress k) :=
  if_pos hd

/-- R122: a transit packet that arrives without hops is dropped, counted at its port, and its source told. -/
theorem Pkg.routePkt_hopless {n : Nat} (hd : k.dst.toNat ≠ p.fabAddr) (h0 : k.hops = 0) :
    p.routePkt (some n) half sub k = (true, (p.bump .ldHopsDrop n).sendLoss k 2) := by
  simp [Pkg.routePkt, hd, h0]

variable (hd : k.dst.toNat ≠ p.fabAddr) (hh : k.hops ≠ 0 ∨ ingress = none)
include hd hh

/-- R120: a packet that matches no entry is dropped with reason 1. -/
theorem Pkg.routePkt_noRoute (hr : p.routeOf k.dst.toNat = none) (ht : p.topoSet = true) :
    p.routePkt ingress half sub k = (true, p.sendLoss k 1) := by
  simp only [Pkg.routePkt, if_neg hd, if_neg (not_hopless hh), hr, Pkg.bootPortTo_of_topoSet ht]

variable {i : Nat} {r : Route} (hr : p.routeOf k.dst.toNat = some i) (hi : p.routes[i]? = some r)
include hr hi

/-- R123: a packet whose lists hold no usable port waits if a port may return, and is dropped with reason 3 if none may. -/
theorem Pkg.routePkt_noPort (hc : r.choose k = none) :
    p.routePkt ingress half sub k = if p.mayWait r then (false, p) else (true, p.sendLoss k 3) := by
  simp only [Pkg.routePkt, if_neg hd, if_neg (not_hopless hh), hr, hi, hc]

/-- R101, R120, R122: a packet whose list gives a port is noted at its entry and joins that port. -/
theorem Pkg.routePkt_forward {lp : Nat} (hc : r.choose k = some lp) :
    p.routePkt ingress half sub k =
      (true, ((p.leaveBy i half r lp sub).2.2.sentBy ingress k (p.physPort lp)).queuePkt (p.physPort lp) (half == 1)
        (p.leaveBy i half r lp sub).2.1 (onward ingress k)) := by
  simp only [Pkg.routePkt, if_neg hd, if_neg (not_hopless hh), hr, hi, hc]
  rfl

end Route

/-! ## The packet's buffers -/

section Take
variable {p q : Pkg} {ingress : Option Nat} {half : Nat} {sub : Bool} {k : LPkt}

/-- R100: a packet that is settled gives its buffers back. -/
theorem Pkg.takePkt_settled (h : p.routePkt ingress half sub k = (true, q)) :
    p.takePkt ingress half sub k = q.giveBack ingress sub k := by
  simp [Pkg.takePkt, h]

/-- R123: a packet that waits stays in its buffers. -/
theorem Pkg.takePkt_waits (h : p.routePkt ingress half sub k = (false, q)) :
    p.takePkt ingress half sub k = { q with transitQ := q.transitQ ++ [(ingress, half == 1, sub, k)] } := by
  simp [Pkg.takePkt, h]

end Take

/-! ## PACKET_ROUTE -/

/-- PACKET_ROUTE makes the package that taking the packet at its half makes. -/
theorem makes_packetRoute {s : State} {port : Option PortId} {half : Half} {sub : Bool} {k : LPkt} {q : Pkg}
    (h : s.pkg.takePkt (port.map (·.val)) (b2n half) sub k = q) : Makes s (.packetRoute port half sub k) q := by
  subst h
  rfl

/-- PACKET_ROUTE of a packet that is settled. -/
theorem makes_packetRoute_settled {s : State} {port : Option PortId} {half : Half} {sub : Bool} {k : LPkt} {q : Pkg}
    (h : s.pkg.routePkt (port.map (·.val)) (b2n half) sub k = (true, q)) :
    Makes s (.packetRoute port half sub k) (q.giveBack (port.map (·.val)) sub k) :=
  makes_packetRoute (Pkg.takePkt_settled h)

/-- Settles O18: each clause is one outcome of the routing decision, its packet settled or left waiting. -/
theorem packetRouting : Obligations.PacketRouting := by
  intro s port half sub k
  refine ⟨fun hd => ?own, fun hd => ⟨fun n hn h0 => ?hopless, fun hh => ?_⟩⟩
  case own =>
    have h := Pkg.routePkt_own (ingress := port.map (·.val)) (half := b2n half) (sub := sub) hd
    rw [b2n_beq_one] at h
    exact makes_packetRoute_settled h
  case hopless =>
    subst hn
    exact makes_packetRoute_settled (Pkg.routePkt_hopless hd h0)
  have hh : k.hops ≠ 0 ∨ port.map (·.val) = none := hh.imp_right (by rintro rfl; rfl)
  refine ⟨fun hr ht => ?noRoute, fun i r hr hi hc => ⟨fun hw => ?waits, fun hw => ?noPort⟩, fun i r lp hr hi hc => ?forward⟩
  case noRoute => exact makes_packetRoute_settled (Pkg.routePkt_noRoute hd hh hr ht)
  case waits =>
    have h := Pkg.takePkt_waits ((Pkg.routePkt_noPort (half := b2n half) (sub := sub) hd hh hr hi hc).trans (if_pos hw))
    rw [b2n_beq_one] at h
    exact makes_packetRoute h
  case noPort =>
    exact makes_packetRoute_settled ((Pkg.routePkt_noPort hd hh hr hi hc).trans (if_neg (by simp [hw])))
  case forward =>
    have h := Pkg.routePkt_forward (half := b2n half) (sub := sub) hd hh hr hi hc
    simp only [b2n_beq_one, onward, Option.isSome_map] at h
    exact makes_packetRoute_settled h

end Sys2Proof.Machine
end

