-- ==== Sys2Proof/Proofs/AddressAndBranch.lean ====
section
/-! What an instruction leaves that writes its own thread's registers or names the next PC, the values and conditions of R229
and R230, and the obligation settled from them. -/

namespace Sys2Proof.Machine

/-! ## An effect on the own thread alone -/

/-- The package `q` is `p` but for the record of thread `t`, which keeps its context. -/
def Pkg.OnlyThr (p q : Pkg) (t : Nat) : Prop :=
  q = { p with thrs := q.thrs } ∧ (∀ k, k ≠ t → q.thr k = p.thr k) ∧ (q.thr t).ctx = (p.thr t).ctx

theorem Pkg.OnlyThr.refl (p : Pkg) (t : Nat) : p.OnlyThr p t := ⟨rfl, fun _ _ => rfl, rfl⟩

/-- Writing the record once more stays within it. -/
theorem Pkg.OnlyThr.setThr {p q : Pkg} {t : Nat} {th : Thr} (h : p.OnlyThr q t) (hc : th.ctx = (p.thr t).ctx) :
    p.OnlyThr (q.setThr t th) t := by
  obtain ⟨hq, hk, -⟩ := h
  refine ⟨by rw [hq]; rfl, fun k hne => ?_, ?_⟩
  · rw [Pkg.thr_setThr, if_neg hne, hk k hne]
  · rw [Pkg.thr_setThr, if_pos rfl, hc]

/-- Accounting the issue retires an instruction whose effect lies in its own thread's record (R218, R378). -/
theorem Pkg.OnlyThr.retired {p q : Pkg} {t : Nat} (h : p.OnlyThr q t) : Retired p (q.countIssue t true) t (q.thr t) := by
  obtain ⟨hq, hk, hctx⟩ := h
  have hcore : ∀ g, q.core g = p.core g := fun g => by rw [hq]; rfl
  have hctr : q.ctr = p.ctr := by rw [hq]; rfl
  have hlc : q.thrLc t = p.thrLc t := by
    have : q.ctx = p.ctx := by rw [hq]; rfl
    simp only [Pkg.thrLc, hctx, this]
  have hslots : q.slots = p.slots := by rw [hq]
  obtain ⟨cs, sl, he, hissued, hsl⟩ := q.countIssue_frame t true
  rw [hctr] at hissued
  rw [hlc, hslots] at hsl
  rw [he]
  refine ⟨rfl, hk, ?_, fun g hg => ?_, hissued, hsl, ?_⟩
  · exact (q.core_setCore (coreOf t) (coreOf t) _).trans ((if_pos rfl).trans (by rw [hcore]))
  · exact (q.core_setCore (coreOf t) g _).trans ((if_neg hg).trans (hcore g))
  · rw [hq]; rfl

/-- The PC named last, the instruction retires with it. -/
theorem Pkg.OnlyThr.retired_goto {p q : Pkg} {t : Nat} (h : p.OnlyThr q t) (pc : Int) :
    Retired p ((q.modThr t fun th => th.goto pc).countIssue t true) t ((q.thr t).goto pc) := by
  have ⟨_, _, hctx⟩ := h
  have hr := (h.setThr (th := (q.thr t).goto pc) hctx).retired
  rwa [Pkg.thr_setThr, if_pos rfl] at hr

/-! ## Retiring with a record -/

/-- A jump that is selected, in code and well formed goes where its effect names. -/
theorem Pkg.issue_jump {p q : Pkg} {t : Nat} {i : Instr} {body : Pkg → Thr → IRes} {pc : Int} (h : Issues p t i)
    (hb : body p (p.thr t) = .jump q pc) : p.issue t i body = (q.modThr t fun th => th.goto pc).countIssue t true := by
  obtain ⟨hsel, hin, hcode, hwf⟩ := h
  simp [Pkg.issue, hsel, hin, hwf, hb, Nat.not_le.mpr hcode]

/-- Instruction `i` of thread `t`, when it issues, retires with the record `v` of its thread. -/
def Retires (s : State) (t : Nat) (i : Instr) (v : Thr) : Prop :=
  Issues s.pkg t i → ∃ q, exec i s = .next { s with pkg := q } ∧ Retired s.pkg q t v

section Retires
variable {s : State} {t : Nat} {i : Instr} {body : Pkg → Thr → IRes} {q : Pkg} {pc : Int}
variable (he : exec i s = s.run fun p => p.issue t i body) (hq : s.pkg.OnlyThr q t)
include he hq

/-- An instruction that is done retires with what it wrote and the next PC. -/
theorem retires_of_ok (hb : body s.pkg (s.pkg.thr t) = .ok q) : Retires s t i ((q.thr t).goto (q.thr t).nextPc) := fun h =>
  ⟨q.retire t, by rw [he, State.run_eq, Pkg.issue_ok h hb], hq.retired_goto _⟩

/-- An instruction that jumps retires with what it wrote and the PC it names. -/
theorem retires_of_jump (hb : body s.pkg (s.pkg.thr t) = .jump q pc) : Retires s t i ((q.thr t).goto pc) := fun h =>
  ⟨_, by rw [he, State.run_eq, Pkg.issue_jump h hb], hq.retired_goto pc⟩

end Retires

section Writes
variable {s : State} {t : Nat} {i : Instr} {body : Pkg → Thr → IRes} {th : Thr} {pc : Int}
variable (he : exec i s = s.run fun p => p.issue t i body) (hc : th.ctx = (s.pkg.thr t).ctx)
include he hc

/-- An instruction that writes its thread's record. -/
theorem retires_of_ok_setThr (hb : body s.pkg (s.pkg.thr t) = .ok (s.pkg.setThr t th)) : Retires s t i (th.goto th.nextPc) :=
  fun h => ⟨_, by rw [he, State.run_eq, Pkg.issue_ok h hb], Pkg.retire_setThr _ _ _ hc⟩

/-- An instruction that writes its thread's record and jumps. -/
theorem retires_of_jump_setThr (hb : body s.pkg (s.pkg.thr t) = .jump (s.pkg.setThr t th) pc) :
    Retires s t i (th.goto pc) := by
  have h := retires_of_jump he ((Pkg.OnlyThr.refl s.pkg t).setThr hc) hb
  rwa [Pkg.thr_setThr, if_pos rfl] at h

end Writes

/-! ## The address class (R229) -/

section Address
variable (s : State) (t : ThreadId) (f : FmtS)

theorem retires_aadd : Retires s t (.aadd t f)
    (((s.pkg.thr t).setA f.rd.toNat (BitVec.ofNat 48 (((s.pkg.thr t).ra f.ra.toNat).toNat + (opB (s.pkg.thr t) f).toNat))).goto
      (s.pkg.thr t).nextPc) := by
  rw [BitVec.ofNat_add, BitVec.ofNat_toNat, BitVec.ofNat_toNat, BitVec.setWidth_eq]
  exact retires_of_ok_setThr rfl rfl rfl

theorem retires_amov : Retires s t (.amov t f)
    (((s.pkg.thr t).setA f.rd.toNat (BitVec.ofNat 48 (opB (s.pkg.thr t) f).toNat)).goto (s.pkg.thr t).nextPc) := by
  rw [BitVec.ofNat_toNat]
  exact retires_of_ok_setThr rfl rfl rfl

theorem retires_ard : Retires s t (.ard t f)
    (((s.pkg.thr t).setS f.rd.toNat (BitVec.ofNat 64 ((s.pkg.thr t).ra f.ra.toNat).toNat)).goto (s.pkg.thr t).nextPc) := by
  rw [BitVec.ofNat_toNat]
  exact retires_of_ok_setThr rfl rfl rfl

theorem retires_ali (l : FmtL) : Retires s t (.ali t l) (((s.pkg.thr t).setA l.rd.toNat l.imm).goto (s.pkg.thr t).nextPc) :=
  retires_of_ok_setThr rfl rfl rfl

/-- The base of the core's window is spelled out (R213). -/
theorem retires_awin : Retires s t (.awin t f)
    (((s.pkg.thr t).setA f.rd.toNat (BitVec.ofNat 48 (0x8000_0000_0000 + coreOf t * 0x40_0000 + (opB (s.pkg.thr t) f).toNat))).goto
      (s.pkg.thr t).nextPc) := by
  rw [BitVec.ofNat_add _ (opB _ _).toNat, BitVec.ofNat_toNat]
  exact retires_of_ok_setThr rfl rfl rfl

end Address

/-! ## The branch class (R230) -/

/-- The six conditions of R224 on the values of RA and RB, by their code. -/
theorem condHolds_iff {a b : W64} {k : Nat × Prop}
    (hk : k ∈ ([(0, a = b), (1, a ≠ b), (2, a.toInt < b.toInt), (3, b.toInt ≤ a.toInt), (4, a.toNat < b.toNat), (5, b.toNat ≤ a.toNat)] :
      List (Nat × Prop))) : condHolds k.1 a b = true ↔ k.2 := by
  simp only [List.mem_cons, List.not_mem_nil, or_false] at hk
  obtain rfl | rfl | rfl | rfl | rfl | rfl := hk
  · exact beq_iff_eq
  · exact bne_iff_ne
  · exact BitVec.slt_iff_toInt_lt
  · exact BitVec.sle_iff_toInt_le
  · exact decide_eq_true_iff
  · exact decide_eq_true_iff

section Branch
variable {s : State} {t : ThreadId} {f : FmtB}

theorem retires_br_taken (h : condHolds f.cond.toNat ((s.pkg.thr t).rs f.ra.toNat) ((s.pkg.thr t).rs f.rb.toNat) = true) :
    Retires s t (.br t f) ((s.pkg.thr t).goto ((s.pkg.thr t).pc.toNat + f.off.toInt)) :=
  retires_of_jump rfl (.refl ..) (if_pos h)

theorem retires_br_notTaken (h : ¬ condHolds f.cond.toNat ((s.pkg.thr t).rs f.ra.toNat) ((s.pkg.thr t).rs f.rb.toNat) = true) :
    Retires s t (.br t f) ((s.pkg.thr t).goto (s.pkg.thr t).nextPc) :=
  retires_of_ok rfl (.refl ..) (if_neg h)

variable (s t f)

theorem retires_jal : Retires s t (.jal t f)
    (((s.pkg.thr t).setS f.ra.toNat (BitVec.ofNat 64 ((s.pkg.thr t).pc.toNat + 1))).goto ((s.pkg.thr t).pc.toNat + f.off.toInt)) :=
  retires_of_jump_setThr rfl rfl rfl

/-- The target is the value that RA had before the link was written. -/
theorem retires_jalr : Retires s t (.jalr t f)
    (((s.pkg.thr t).setS f.ra.toNat (BitVec.ofNat 64 ((s.pkg.thr t).pc.toNat + 1))).goto
      (((s.pkg.thr t).rs f.rb.toNat).toNat + f.off.toInt)) :=
  retires_of_jump_setThr rfl rfl rfl

end Branch

/-- Settles O4: each row retires with the record its own rule names. -/
theorem addressAndBranch : Obligations.AddressAndBranch := by
  refine ⟨fun s t f l => ⟨retires_aadd s t f, retires_amov s t f, retires_ard s t f, retires_ali s t l, retires_awin s t f⟩,
    fun s t f => ⟨fun k hk hcond => ?br, retires_jal s t f, retires_jalr s t f⟩⟩
  case br =>
    have hiff := condHolds_iff hk
    rw [← hcond] at hiff
    exact ⟨fun h => retires_br_taken (hiff.mpr h), fun h => retires_br_notTaken (mt hiff.mp h)⟩

end Sys2Proof.Machine
end

