-- ==== Sys2Proof/Proofs/SecuringCommands.lean ====
section
/-! What a Luajo command's row answers decides how the command ends; the format rules and preconditions of SECURE_POLICY,
SECURE_NOW and RESTORE (R402, R411, R412, R415), and the obligation settled from them. -/

namespace Sys2Proof.Machine

/-! ## The end of a command, by its row's answer -/

section Answer
variable {s : State} {x : Instr} {op : LjOp} {k : Pkt} {i : Nat} {ts : List TlvE} {mine : List TlvE → Bool}
variable {fmt : Pkg → Cmd → Option (Nat × List Byte)} {run : Pkg → Cmd → Ans} {q : Pkg} {st : Nat} {ps : List Byte}
variable (hx : exec x s = s.run fun p => p.luajo op k mine fmt run) (h : Ready s.pkg op k i ts)
  (hm : mine ((parseTlvs (k.params.length + 1) k.params).getD []) = true)
  (hf : fmt (s.pkg.taken op k) ((s.pkg.taken op k).cmdOf op k i ts) = none)
include hx h hm hf

/-- A ready command whose row answers `ok` commits (R448). -/
theorem commits_of_ok (hr : run (s.pkg.taken op k) ((s.pkg.taken op k).cmdOf op k i ts) = .ok q ps) : Commits s x op k i q ps := by
  rw [Commits, hx, State.run_eq, Pkg.luajo_ready h hm hf, hr]

/-- A ready command whose row answers `wait` commits with its reply pending (R449). -/
theorem pends_of_wait (hr : run (s.pkg.taken op k) ((s.pkg.taken op k).cmdOf op k i ts) = .wait q) : Pends s x op k i q := by
  rw [Pends, hx, State.run_eq, Pkg.luajo_ready h hm hf, hr]

/-- A ready command whose row answers `no` is refused (R448). -/
theorem refuses_of_no (hr : run (s.pkg.taken op k) ((s.pkg.taken op k).cmdOf op k i ts) = .no st ps) : Refuses s x op k i st ps := by
  rw [Refuses, hx, State.run_eq, Pkg.luajo_ready h hm hf, hr]

end Answer

/-- A test that finds no defect leaves the verdict to the tests after it. -/
theorem firstBad_passed {b : Bool} {st : Nat} {l : List (Bool × Nat × List Byte)} (hb : b = false) :
    firstBad (defect b st :: l) = firstBad l := by
  rw [hb]
  rfl

/-! ## SECURE_POLICY (R402) -/

/-- R402: a policy without reserved bits whose fields are in range has no format defect. -/
theorem securePolicy_wellFormed {p : Pkg} {c : Cmd} (hres : secReserved c.strct = false) (hok : p.secOk c.ctx c.strct c.body.length = true) :
    firstBad [defect (secReserved c.strct) stReserved, defect (!p.secOk c.ctx c.strct c.body.length) stSecureFormat] = none := by
  rw [firstBad_passed hres, firstBad_passed (by rw [hok]; rfl)]
  rfl

/-- R402: the command is legal between steps, for a context that is there, while no other context holds a policy. -/
theorem securePolicy_legal {x : Ctx} {y : Secure} {c : Nat} (hx : x.state ≠ .empty) (h1 : x.step.state ≠ 1) (h2 : x.step.state ≠ 2)
    (hy : y.active = true → y.ctx = c) : ¬ (x.state = .empty || x.step.state = 1 || x.step.state = 2 || (y.active && y.ctx != c)) = true := by
  simpa [hx, h1, h2] using hy

/-- R402: a policy whose two generations and journal fit its pages, whose tensors fit the memory dies' tables and whose pinned
tensors fit the stripe has its space. The test of the pinned tensors is the model's choice (log entry 90). -/
theorem securePolicy_fits {r : Rec} {ts : List Rec} (hs : 2 * (scStripe r + scM r * (scStripe r / scK r)) + fld r 336 32 ≤ fld r 304 32)
    (hd : ∀ m < 8, (rowsOfDie ts m).length ≤ 1024) (hp : ((ts.filter fun t => tnPin t == 1).map tnPages).sum ≤ scStripe r) :
    ¬ (fld r 304 32 < 2 * (scStripe r + scM r * (scStripe r / scK r)) + fld r 336 32 ||
      ((List.range 8).any fun m => decide (1024 < (rowsOfDie ts m).length)) ||
      scStripe r < ((ts.filter fun t => tnPin t == 1).map tnPages).sum) = true := by
  simp only [Bool.or_eq_true, decide_eq_true_eq, List.any_eq_true, List.mem_range, not_or, not_exists, not_and, Nat.not_lt]
  exact ⟨⟨hs, hd⟩, hp⟩

/-! ## RESTORE (R412, R415) -/

/-- R412: a restore record of its own length, without reserved bits, whose counts and addresses are in range has no format defect. -/
theorem restore_wellFormed {p : Pkg} {c : Cmd} (hlen : c.body.length = 64 + 4 * fld c.strct 128 6 + 4 * fld c.strct 136 11)
    (hres : rstReserved c.strct = false) (hlost : fld c.strct 128 6 ≤ 32) (hhost : fld c.strct 136 11 ≤ 1024)
    (hseal : p.inRegions c.ctx (fld c.strct 64 48) 1 = true)
    (hout : p.inRegions c.ctx (fld c.strct 160 48) (Nat.max 1 (8 * p.secure.tensors.length)) = true) :
    firstBad [defect (c.body.length != 64 + 4 * fld c.strct 128 6 + 4 * fld c.strct 136 11) stBadParam, defect (rstReserved c.strct) stReserved,
      defect (decide (32 < fld c.strct 128 6) || decide (1024 < fld c.strct 136 11) || !p.inRegions c.ctx (fld c.strct 64 48) 1 ||
        !p.inRegions c.ctx (fld c.strct 160 48) (Nat.max 1 (8 * p.secure.tensors.length))) stRange] = none := by
  rw [firstBad_passed (bne_eq_false_iff_eq.mpr hlen), firstBad_passed hres,
    firstBad_passed (by simp [hseal, hout, hlost, hhost])]
  rfl

/-- R415: the command is legal between steps, for a context that is neither empty nor faulted and whose slots' queues are empty.
That the context holds the policy and that no restore is under way is the model's choice (log entry 91). -/
theorem restore_legal {p : Pkg} {c : Nat} (he : (p.ctx c).state ≠ .empty) (hf : (p.ctx c).state ≠ .faulted) (h1 : (p.ctx c).step.state ≠ 1)
    (h2 : (p.ctx c).step.state ≠ 2) (ha : p.secure.active = true) (hc : p.secure.ctx = c) (hr : p.secure.restoring = none)
    (hq : ∀ j ∈ p.slotsOf c, (p.ing j 0).queue = [] ∧ (p.ing j 1).queue = [] ∧ (p.egr j 0).queue = [] ∧ (p.egr j 1).queue = []) :
    ¬ ((p.ctx c).state = .empty || (p.ctx c).state = .faulted || (p.ctx c).step.state = 1 || (p.ctx c).step.state = 2 ||
      !p.secure.active || p.secure.ctx != c || p.secure.restoring.isSome ||
      ((p.slotsOf c).any fun j => !(p.ing j 0).queue.isEmpty || !(p.ing j 1).queue.isEmpty || !(p.egr j 0).queue.isEmpty ||
        !(p.egr j 1).queue.isEmpty)) = true := by
  simpa [he, hf, h1, h2, ha, hc, hr, and_assoc] using hq

/-- R412: a capture is unavailable on a device that has completed some, of which neither of the newest two is that of step `n`.
A spare that has completed none is not tested: the model's choice (log entry 88). -/
theorem captureMissing_iff {y : Secure} {n : Nat} :
    (y.lastDone.isSome && y.lastDone != some n && y.older != some n) = true ↔
      y.lastDone ≠ none ∧ y.lastDone ≠ some n ∧ y.older ≠ some n := by
  simp [Option.isSome_iff_ne_none, and_assoc]

/-! ## The statement -/

/-- Settles O44: each clause is the answer of its row, once its format rules and preconditions have passed. -/
theorem securingCommands : Obligations.SecuringCommands := by
  intro s k i ts
  refine ⟨?policy, ?now, ?restore⟩
  case policy =>
    intro op p c r st q hready hres hok hctx h1 h2 hheld hspace hrows hpinned
    exact commits_of_ok rfl hready rfl (securePolicy_wellFormed hres hok)
      ((if_neg (securePolicy_legal hctx h1 h2 hheld)).trans (if_neg (securePolicy_fits hspace hrows hpinned)))
  case now =>
    intro op p st n hready hctx
    refine ⟨fun hroot => refuses_of_no rfl hready rfl rfl ?refused, fun hroot hactive hown => commits_of_ok rfl hready rfl rfl ?planned⟩
    case refused => exact (if_neg hctx).trans (if_pos ((Bool.not_eq_true' _).mpr hroot))
    case planned =>
      have hisRoot : ¬ (!polRoot st.policy) = true := by simp [hroot]
      have hholds : ¬ (!p.secure.active || p.secure.ctx != k.context.toNat) = true := by simp [hactive, hown]
      exact (if_neg hctx).trans ((if_neg hisRoot).trans (if_neg hholds))
  case restore =>
    intro op p c r x y q hready hlen hres hlost hhost hseal hout he hf h1 h2 ha hc hr hq
    have hformat := restore_wellFormed hlen hres hlost hhost hseal hout
    have hlegal := restore_legal he hf h1 h2 ha hc hr hq
    refine ⟨fun hstands => pends_of_wait rfl hready rfl hformat ((if_neg hlegal).trans (if_neg ?stands)),
      fun hnone hlast holder => refuses_of_no rfl hready rfl hformat
        ((if_neg hlegal).trans (if_pos (captureMissing_iff.mpr ⟨hnone, hlast, holder⟩)))⟩
    case stands =>
      intro hmissing
      obtain ⟨hnone, hlast, holder⟩ := captureMissing_iff.mp hmissing
      exact hstands.elim hnone (Or.elim · hlast holder)

end Sys2Proof.Machine
end

