-- ==== Sys2Proof/Proofs/InstructionWords.lean ====
section
/-! The instruction words of R224 to R235, field by field: a format's fields placed in a word read back, and the fields of a word
place it again; the obligation settled from these for every class and operation. -/

namespace Sys2Proof

/-! ## The six formats (Table 8.8) -/

/-- A bit on its own is a field of width 1. -/
theorem ofBool_getLsbD_eq_extractLsb' {n : Nat} (x : BitVec n) (i : Nat) : BitVec.ofBool (x.getLsbD i) = x.extractLsb' i 1 := by
  ext j hj
  obtain rfl : j = 0 := by omega
  simp

section Fields
variable (c o : Nat)


theorem fieldsS_wordS (f : FmtS) : fieldsS (wordS c o f) = f := by
  simp -index only [fieldsS, wordS, BitVec.extractLsb'_append_eq_ite, BitVec.getLsbD_append, BitVec.getLsbD_ofBool, BitVec.extractLsb'_eq_self, decide_true,
    Bool.true_and, ↓reduceDIte, ↓reduceIte, Nat.reduceLT, Nat.reduceSub, Nat.reduceAdd, Nat.reduceLeDiff]

theorem fieldsL_wordL (f : FmtL) : fieldsL (wordL c o f) = f := by
  simp -index only [fieldsL, wordL, BitVec.extractLsb'_append_eq_ite, BitVec.getLsbD_append, BitVec.getLsbD_ofBool, BitVec.extractLsb'_eq_self, decide_true,
    Bool.true_and, ↓reduceDIte, ↓reduceIte, Nat.reduceLT, Nat.reduceSub, Nat.reduceAdd, Nat.reduceLeDiff]

theorem fieldsB_wordB (f : FmtB) : fieldsB (wordB c o f) = f := by
  simp -index only [fieldsB, wordB, BitVec.extractLsb'_append_eq_ite, BitVec.extractLsb'_eq_self, ↓reduceDIte, Nat.reduceLT, Nat.reduceSub, Nat.reduceAdd, Nat.reduceLeDiff]

theorem fieldsM_wordM (f : FmtM) : fieldsM (wordM c o f) = f := by
  simp -index only [fieldsM, wordM, BitVec.extractLsb'_append_eq_ite, BitVec.getLsbD_append, BitVec.getLsbD_ofBool, BitVec.extractLsb'_eq_self, decide_true,
    Bool.true_and, ↓reduceDIte, ↓reduceIte, Nat.reduceLT, Nat.reduceSub, Nat.reduceAdd, Nat.reduceLeDiff]

theorem fieldsD_wordD (f : FmtD) : fieldsD (wordD c o f) = f := by
  simp -index only [fieldsD, wordD, BitVec.extractLsb'_append_eq_ite, BitVec.getLsbD_append, BitVec.getLsbD_ofBool, BitVec.extractLsb'_eq_self, decide_true,
    Bool.true_and, ↓reduceDIte, ↓reduceIte, Nat.reduceLT, Nat.reduceSub, Nat.reduceAdd, Nat.reduceLeDiff]

theorem fieldsV_wordV (f : FmtV) : fieldsV (wordV c o f) = f := by
  simp -index only [fieldsV, wordV, BitVec.extractLsb'_append_eq_ite, BitVec.getLsbD_append, BitVec.getLsbD_ofBool, BitVec.extractLsb'_eq_self, decide_true,
    Bool.true_and, ↓reduceDIte, ↓reduceIte, Nat.reduceLT, Nat.reduceSub, Nat.reduceAdd, Nat.reduceLeDiff]

theorem class_wordS (f : FmtS) : (wordS c o f).extractLsb' 0 4 = BitVec.ofNat 4 c := BitVec.extractLsb'_append_eq_right
theorem operation_wordS (f : FmtS) : (wordS c o f).extractLsb' 4 6 = BitVec.ofNat 6 o := by
  rw [wordS, BitVec.extractLsb'_append_eq_of_le (Nat.le_refl 4)]
  exact BitVec.extractLsb'_append_eq_right

theorem class_wordL (f : FmtL) : (wordL c o f).extractLsb' 0 4 = BitVec.ofNat 4 c := BitVec.extractLsb'_append_eq_right
theorem operation_wordL (f : FmtL) : (wordL c o f).extractLsb' 4 6 = BitVec.ofNat 6 o := by
  rw [wordL, BitVec.extractLsb'_append_eq_of_le (Nat.le_refl 4)]
  exact BitVec.extractLsb'_append_eq_right

theorem class_wordB (f : FmtB) : (wordB c o f).extractLsb' 0 4 = BitVec.ofNat 4 c := BitVec.extractLsb'_append_eq_right
theorem operation_wordB (f : FmtB) : (wordB c o f).extractLsb' 4 6 = BitVec.ofNat 6 o := by
  rw [wordB, BitVec.extractLsb'_append_eq_of_le (Nat.le_refl 4)]
  exact BitVec.extractLsb'_append_eq_right

theorem class_wordM (f : FmtM) : (wordM c o f).extractLsb' 0 4 = BitVec.ofNat 4 c := BitVec.extractLsb'_append_eq_right
theorem operation_wordM (f : FmtM) : (wordM c o f).extractLsb' 4 6 = BitVec.ofNat 6 o := by
  rw [wordM, BitVec.extractLsb'_append_eq_of_le (Nat.le_refl 4)]
  exact BitVec.extractLsb'_append_eq_right

theorem class_wordD (f : FmtD) : (wordD c o f).extractLsb' 0 4 = BitVec.ofNat 4 c := BitVec.extractLsb'_append_eq_right
theorem operation_wordD (f : FmtD) : (wordD c o f).extractLsb' 4 6 = BitVec.ofNat 6 o := by
  rw [wordD, BitVec.extractLsb'_append_eq_of_le (Nat.le_refl 4)]
  exact BitVec.extractLsb'_append_eq_right

theorem class_wordV (f : FmtV) : (wordV c o f).extractLsb' 0 4 = BitVec.ofNat 4 c := BitVec.extractLsb'_append_eq_right
theorem operation_wordV (f : FmtV) : (wordV c o f).extractLsb' 4 6 = BitVec.ofNat 6 o := by
  rw [wordV, BitVec.extractLsb'_append_eq_of_le (Nat.le_refl 4)]
  exact BitVec.extractLsb'_append_eq_right


end Fields

section Words
variable {w : W64} {c o : Nat} (hc : (w.extractLsb' 0 4).toNat = c) (ho : (w.extractLsb' 4 6).toNat = o)
include hc ho


theorem wordS_fieldsS : wordS c o (fieldsS w) = w := by
  subst hc ho
  simp only [fieldsS, wordS, ofBool_getLsbD_eq_extractLsb', BitVec.ofNat_toNat, BitVec.setWidth_eq,
    BitVec.extractLsb'_append_extractLsb'_eq_extractLsb']
  exact BitVec.extractLsb'_eq_self

theorem wordL_fieldsL : wordL c o (fieldsL w) = w := by
  subst hc ho
  simp only [fieldsL, wordL, ofBool_getLsbD_eq_extractLsb', BitVec.ofNat_toNat, BitVec.setWidth_eq,
    BitVec.extractLsb'_append_extractLsb'_eq_extractLsb']
  exact BitVec.extractLsb'_eq_self

theorem wordB_fieldsB : wordB c o (fieldsB w) = w := by
  subst hc ho
  simp only [fieldsB, wordB, BitVec.ofNat_toNat, BitVec.setWidth_eq,
    BitVec.extractLsb'_append_extractLsb'_eq_extractLsb']
  exact BitVec.extractLsb'_eq_self

theorem wordM_fieldsM : wordM c o (fieldsM w) = w := by
  subst hc ho
  simp only [fieldsM, wordM, ofBool_getLsbD_eq_extractLsb', BitVec.ofNat_toNat, BitVec.setWidth_eq,
    BitVec.extractLsb'_append_extractLsb'_eq_extractLsb']
  exact BitVec.extractLsb'_eq_self

theorem wordD_fieldsD : wordD c o (fieldsD w) = w := by
  subst hc ho
  simp only [fieldsD, wordD, ofBool_getLsbD_eq_extractLsb', BitVec.ofNat_toNat, BitVec.setWidth_eq,
    BitVec.extractLsb'_append_extractLsb'_eq_extractLsb']
  exact BitVec.extractLsb'_eq_self

theorem wordV_fieldsV : wordV c o (fieldsV w) = w := by
  subst hc ho
  simp only [fieldsV, wordV, ofBool_getLsbD_eq_extractLsb', BitVec.ofNat_toNat, BitVec.setWidth_eq,
    BitVec.extractLsb'_append_extractLsb'_eq_extractLsb']
  exact BitVec.extractLsb'_eq_self

end Words

/-! ## From the instruction to its word and back -/

/-- A word decodes to an instruction of its format's fields when every word of its class and operation does. -/
theorem decodeInstr_of_fields {F : Type} {fields : W64 → F} {f : F} {g : F → Instr} {t : ThreadId} {v : W64} {c o : Nat}
    (hc : v.extractLsb' 0 4 = BitVec.ofNat 4 c) (ho : v.extractLsb' 4 6 = BitVec.ofNat 6 o) (hf : fields v = f) (hlt : c < 16 ∧ o < 64)
    (h : ∀ w : W64, (w.extractLsb' 0 4).toNat = c → (w.extractLsb' 4 6).toNat = o → decodeInstr t w = some (g (fields w))) :
    decodeInstr t v = some (g f) := by
  obtain ⟨hcl, hol⟩ := hlt
  rw [h, hf]
  · rw [hc, BitVec.toNat_ofNat, Nat.mod_eq_of_lt hcl]
  · rw [ho, BitVec.toNat_ofNat, Nat.mod_eq_of_lt hol]

/-- An instruction of a thread is what its word decodes to; CH_OPEN's word stands for its first row (R249, R252). -/
theorem decodeInstr_encode {i : Instr} {w : W64} (h : encode i = some w) (hi : ∀ t f, i ≠ .chOpenReader t f) :
    ∃ t, decodeInstr t w = some i := by
  cases i
  case chOpenReader t f => exact absurd rfl (hi t f)
  case add | sub | mul | mulhu | mulh | divu | div | remu | rem | and | or | xor | shl | shr | sar | min | max | minu | maxu
    | slt | sltu | seq | fadd | fsub | fmul | fdiv | ffma | fmin | fmax | flt | fcvtif | fcvtfi | setvl | setvm | getvl |
    getvm | getst | clrst | rdinfo | rdic | aadd | amov | ard | awin | chOpen | chSend | chRecv | chClose | chPoll | sumpAdd
    | signal | wait | arm | read | cas | rndx | commit | fence | waittag | done | yield =>
    cases h
    exact ⟨‹_›, decodeInstr_of_fields (class_wordS ..) (operation_wordS ..) (fieldsS_wordS ..) (by decide) fun w hc ho => by
      rw [decodeInstr, hc, ho]
      rfl⟩
  case vAdd | vSub | vMul | vFma | vFms | vNeg | vAbs | vMin | vMax | vAdds | vSubs | vAnd | vOr | vXor | vShl | vShr | vSar
    | vCmpeq | vCmplt | vCmple | vCmpun | vSel | vDiv | vRcp | vSqrt | vRsqrt | vExp | vExp2 | vLog | vLog2 | vTanh |
    vSigmoid | vSilu | vGelu | vGeluT | vSoftplus | vSin | vCos | vDrelu | vDsigmoid | vDtanh | vDexp | vDsoftmax | vDsilu |
    vDgelu | vDgeluT | vDsoftplus | vSum | vDot | vMaxi | vMini | vMov | rndu | rndb | drop =>
    cases h
    exact ⟨‹_›, decodeInstr_of_fields (class_wordV ..) (operation_wordV ..) (fieldsV_wordV ..) (by decide) fun w hc ho => by
      rw [decodeInstr, hc, ho]
      rfl⟩
  case lds | sts | mld | mst | pref | stashAlloc | stashFind =>
    cases h
    exact ⟨‹_›, decodeInstr_of_fields (class_wordM ..) (operation_wordM ..) (fieldsM_wordM ..) (by decide) fun w hc ho => by
      rw [decodeInstr, hc, ho]
      rfl⟩
  case tmma | tgemv | accSwap | cvt =>
    cases h
    exact ⟨‹_›, decodeInstr_of_fields (class_wordD ..) (operation_wordD ..) (fieldsD_wordD ..) (by decide) fun w hc ho => by
      rw [decodeInstr, hc, ho]
      rfl⟩
  case br | jal | jalr =>
    cases h
    exact ⟨‹_›, decodeInstr_of_fields (class_wordB ..) (operation_wordB ..) (fieldsB_wordB ..) (by decide) fun w hc ho => by
      rw [decodeInstr, hc, ho]
      rfl⟩
  case li | ali =>
    cases h
    exact ⟨‹_›, decodeInstr_of_fields (class_wordL ..) (operation_wordL ..) (fieldsL_wordL ..) (by decide) fun w hc ho => by
      rw [decodeInstr, hc, ho]
      rfl⟩
  all_goals cases h
/-- Operations of a class (R228 to R235); those from there on are reserved. -/
def operationsOf (c : Nat) : Nat := [41, 5, 3, 7, 3, 52, 6, 5, 4, 1, 5].getD c 0

/-- Every word that decodes is the word of its instruction: each class by its operations; the reserved ones decode to nothing. -/
theorem encode_decodeInstr {t : ThreadId} {w : W64} {i : Instr} (h : decodeInstr t w = some i) : encode i = some w := by
  rw [decodeInstr] at h
  generalize hc : (w.extractLsb' 0 4).toNat = c at h
  generalize ho : (w.extractLsb' 4 6).toNat = o at h
  rcases Nat.lt_or_ge c 11 with hcl | hcl
  · rcases Nat.lt_or_ge o (operationsOf c) with hol | hol
    · have hcm := List.mem_range.mpr hcl
      simp only [List.range, List.range.loop, List.mem_cons, List.not_mem_nil, or_false] at hcm
      repeat' rcases hcm with rfl | hcm
      all_goals
        have hom := List.mem_range.mpr hol
        simp only [operationsOf, List.getD_cons_succ, List.getD_cons_zero, List.range, List.range.loop, List.mem_cons, List.not_mem_nil, or_false] at hom
        repeat' rcases hom with rfl | hom
        all_goals
          obtain rfl : _ = i := Option.some.inj h
          change some _ = some w
          simp only [wordS_fieldsS hc ho, wordL_fieldsL hc ho, wordB_fieldsB hc ho, wordM_fieldsM hc ho, wordD_fieldsD hc ho, wordV_fieldsV hc ho]
    · obtain ⟨n, rfl⟩ := Nat.exists_eq_add_of_le' hol
      have hcm := List.mem_range.mpr hcl
      simp only [List.range, List.range.loop, List.mem_cons, List.not_mem_nil, or_false] at hcm
      repeat' rcases hcm with rfl | hcm
      all_goals exact absurd h (Option.some_ne_none i).symm
  · obtain ⟨n, rfl⟩ := Nat.exists_eq_add_of_le' hcl
    exact absurd h (Option.some_ne_none i).symm

/-- Settles O54: the two directions, and the two rows of CH_OPEN with one word. -/
theorem decodeEncodeAgree : Obligations.DecodeEncodeAgree :=
  ⟨fun _ _ h hi => decodeInstr_encode h hi, fun _ _ => rfl, fun _ _ _ h => encode_decodeInstr h⟩

/-- Settles O55: each word is a literal, whose fields and class compute. -/
theorem wordsDecode : Obligations.WordsDecode := by
  intro t
  refine ⟨rfl, rfl, rfl, rfl, rfl, rfl, rfl, rfl, rfl, rfl, rfl, rfl⟩

end Sys2Proof
end

