-- ==== Sys2Proof/Proofs/WholeBlock.lean ====
section
/-! The block as a whole: what a step runs, and that every command makes the next package from the package alone; the
obligations settled that speak of every command and of the state after reset. -/

namespace Sys2Proof.Machine

/-! ## A command runs a function of the package -/

/-- The meaning `f` is that of a function of the package: it never faults or refuses, and does not see the queue (log entry 155). -/
def Runs (f : State → Host.Outcome State Fault Refusal) : Prop := ∃ g : Pkg → Pkg, ∀ s, f s = s.run g

/-- The package that a meaning makes of package `p` with an empty queue. -/
def pkgAfter (f : State → Host.Outcome State Fault Refusal) (p : Pkg) : Pkg :=
  match f { pkg := p } with
  | .next s => s.pkg
  | .fault _ => p
  | .refused _ => p

/-- To run a function of the package it is enough to make of every state what is made of its package alone. -/
theorem runs_of_eq {f : State → Host.Outcome State Fault Refusal} (h : ∀ s, f s = s.run (pkgAfter f)) : Runs f := ⟨pkgAfter f, h⟩

/-- The state that a run leaves is the old one exactly when its package is. -/
theorem run_state_eq_iff {s : State} {p : Pkg} : { s with pkg := p } = s ↔ p = s.pkg := by
  cases s
  simp

/-- The first row that a packet is one of runs a function of the package when every row does. -/
theorem runs_firstRow {l : List (State → Host.Outcome State Fault Refusal)} (h : ∀ f ∈ l, Runs f) : Runs (firstRow l) := by
  induction l with
  | nil => exact ⟨id, fun _ => rfl⟩
  | cons f fs ih =>
    obtain ⟨g, hg⟩ := h f (List.mem_cons_self ..)
    obtain ⟨r, hr⟩ := ih fun x hx => h x (List.mem_cons_of_mem _ hx)
    refine ⟨fun p => if g p = p then r p else g p, fun s => ?_⟩
    simp only [firstRow, hg, hr, State.run_eq, run_state_eq_iff]
    split <;> rfl

theorem runs_luajoRows (k : Pkt) (opcode : Nat) : ∀ f ∈ luajoRows k opcode, Runs f := by
  unfold luajoRows
  split
  all_goals
    simp only [List.forall_mem_cons, List.not_mem_nil, false_implies, implies_true, and_true]
    repeat' apply And.intro
    all_goals exact runs_of_eq fun _ => rfl

/-- The device whose relay a command came by is kept (R432). -/
def Pkg.relayedFrom (p : Pkg) (k : LPkt) : Pkg := { p with eth := { p.eth with relayFab := k.src.toNat } }

/-- A relayed command is dropped, or it is kept whose relay it was and, while the firmware answers, the first of its rows runs. -/
theorem runs_execCmdRelayReceive (k : LPkt) : Runs (execCmdRelayReceive k) := by
  obtain ⟨g, hg⟩ := runs_firstRow (runs_luajoRows (innerPkt k) (innerOp k))
  refine ⟨fun p => if k.pkind != 12 || k.dst.toNat != p.fabAddr then p
    else if (p.relayedFrom k).answers then g (p.relayedFrom k) else p.relayedFrom k, fun s => ?_⟩
  rw [State.run_eq]
  by_cases hd : (k.pkind != 12 || k.dst.toNat != s.pkg.fabAddr) = true
  · exact (if_pos hd).trans (by rw [if_pos hd]; rfl)
  · by_cases ha : (s.pkg.relayedFrom k).answers = true
    · exact (if_neg hd).trans ((if_pos ha).trans (by rw [if_neg hd, if_pos ha, hg, State.run_eq]; rfl))
    · exact (if_neg hd).trans ((if_neg ha).trans (by rw [if_neg hd, if_neg ha]; rfl))

theorem runs_scalar2 (t : Nat) (i : Instr) (f : FmtS) (g : W64 → W64 → W64) : Runs fun s => s.scalar2 t i f g := ⟨_, fun _ => rfl⟩
theorem runs_scalar0 (t : Nat) (i : Instr) (f : FmtS) (g : Pkg → Thr → W64) : Runs fun s => s.scalar0 t i f g := ⟨_, fun _ => rfl⟩
theorem runs_vec (t : ThreadId) (i : Instr) (cls opc n : Nat) (f : FmtV) : Runs fun s => s.vec t i cls opc n f := ⟨_, fun _ => rfl⟩

theorem runs_execReadCounters (k : Pkt) : Runs (execReadCounters k) := runs_of_eq fun _ => rfl

/-- Every command runs a function of the package: its own arm, and a relayed datagram the row that it is one of. -/
theorem runs_exec (i : Instr) : Runs (exec i) := by
  cases i
  case cmdRelayReceive k => exact runs_execCmdRelayReceive k
  case readCounters k => exact runs_execReadCounters k
  case add | sub | mul | mulhu | mulh | divu | div | remu | rem | and | or | xor | shl | shr | sar | min | max | minu | maxu
    | slt | sltu | seq | fadd | fsub | fmul | fdiv | fmin | fmax | flt =>
    exact runs_scalar2 ..
  case fcvtif | fcvtfi | getvl | getvm | getst | rdic =>
    exact runs_scalar0 ..
  case vAdd | vSub | vMul | vFma | vFms | vNeg | vAbs | vMin | vMax | vAdds | vSubs | vAnd | vOr | vXor | vShl | vShr | vSar
    | vCmpeq | vCmplt | vCmple | vCmpun | vSel | vDiv | vRcp | vSqrt | vRsqrt | vExp | vExp2 | vLog | vLog2 | vTanh |
    vSigmoid | vSilu | vGelu | vGeluT | vSoftplus | vSin | vCos | vDrelu | vDsigmoid | vDtanh | vDexp | vDsoftmax | vDsilu |
    vDgelu | vDgeluT | vDsoftplus | vSum | vDot | vMaxi | vMini | vMov | rndu | rndb | drop =>
    exact runs_vec ..
  all_goals
    unfold Runs exec
    exact ⟨_, fun _ => rfl⟩

theorem step_nil {s : State} (h : s.pending = []) : step s = .next { s with pkg := { s.pkg with now := s.pkg.now + 1 } } := by
  rw [step, h]

theorem step_cons {s : State} {c : Instr} {rest : List Instr} (h : s.pending = c :: rest) : step s = exec c { s with pending := rest } := by
  rw [step, h]

/-! ## The statements -/

/-- Settles O51: the two cases of the queue. -/
theorem stepRunsTheFront : Obligations.StepRunsTheFront := ⟨fun _ _ _ h => step_cons h, fun _ h => step_nil h⟩

/-- Settles O52: a run answers the next state and keeps the queue. -/
theorem everyCommandCompletes : Obligations.EveryCommandCompletes := runs_exec

/-- Settles O58: every table of the reset state is empty, so every reading is its default. -/
theorem resetState : Obligations.ResetState := by
  refine ⟨rfl, rfl, rfl, rfl, rfl, rfl, fun _ => rfl, fun _ => ⟨rfl, rfl⟩, fun _ => ⟨rfl, rfl⟩, fun _ => rfl, fun _ => rfl, rfl, rfl,
    fun _ => rfl, fun _ => ⟨rfl, rfl⟩, fun _ _ => rfl, rfl, rfl, fun _ => rfl, fun _ => ⟨rfl, rfl⟩⟩

end Sys2Proof.Machine
end

