-- ==== Sys2Proof/Proofs/MemoryWrites.lean ====
section
/-! What a store does to what reads return, to undefined lines, POISON and dirty bits (R288, R297, R307), and the obligation
settled from it. -/

namespace Sys2Proof.Machine

/-! ## Folds over lines and pages -/

/-- A reading that every step of a fold leaves alone, the fold leaves alone. -/
theorem foldl_keeps {α β : Type} {f : Pkg → α → Pkg} {g : Pkg → β} (h : ∀ p x, g (f p x) = g p) (l : List α) (p : Pkg) :
    g (l.foldl f p) = g p := by
  induction l generalizing p with
  | nil => rfl
  | cons x l ih => rw [List.foldl_cons, ih, h]

/-- A fold whose step at `x` sets the reading `g · x` to `v` and leaves the others, sets it at the listed places and leaves the rest. -/
theorem foldl_sets {β : Type} {f : Pkg → Nat → Pkg} {g : Pkg → Nat → β} {v : β} (hs : ∀ p x, g (f p x) x = v)
    (hk : ∀ p x y, y ≠ x → g (f p x) y = g p y) (l : List Nat) (p : Pkg) :
    (∀ y ∈ l, g (l.foldl f p) y = v) ∧ ∀ y, y ∉ l → g (l.foldl f p) y = g p y := by
  induction l generalizing p with
  | nil => exact ⟨nofun, fun _ _ => rfl⟩
  | cons x l ih =>
    obtain ⟨hin, hout⟩ := ih (f p x)
    refine ⟨fun y hy => ?_, fun y hy => ?_⟩
    · by_cases hl : y ∈ l
      · exact hin y hl
      · obtain rfl := (List.mem_cons.mp hy).resolve_right hl
        rw [List.foldl_cons, hout _ hl, hs]
    · obtain ⟨hne, hl⟩ := not_or.mp (mt List.mem_cons.mpr hy)
      rw [List.foldl_cons, hout y hl, hk p x y hne]

theorem mem_linesOf {a n l : Nat} : l ∈ linesOf a n ↔ n ≠ 0 ∧ a / 64 ≤ l ∧ l ≤ (a + n - 1) / 64 := by
  unfold linesOf
  split
  · simp [*]
  · simp only [List.mem_map, List.mem_range]
    constructor
    · rintro ⟨k, hk, rfl⟩; omega
    · rintro ⟨-, h1, h2⟩; exact ⟨l - a / 64, by omega, by omega⟩

/-! ## One line, one page -/

theorem Pkg.undefLine_setUndef (p : Pkg) (l k : Nat) (v : Bool) : (p.setUndef l v).undefLine k = if k = l then v else p.undefLine k := by
  change (tabGet false (tabSet false p.tagBad l _) k != _) = _
  rw [tabGet_tabSet]
  split
  · subst k; exact Bool.bne_self_right ..
  · rfl

theorem Pkg.linePoison_setPoison (p : Pkg) (l k : Nat) (v : Bool) : (p.setPoison l v).linePoison k = if k = l then v else p.linePoison k := by
  change (tabGet false (tabSet false p.poison l _) k != _) = _
  rw [tabGet_tabSet]
  split
  · subst k; exact Bool.bne_self_right ..
  · rfl

theorem Pkg.pageDirty_setDirty (p : Pkg) (n k : Nat) (v : Bool) : (p.setDirty n v).pageDirty k = if k = n then v else p.pageDirty k := by
  change (tabGet false (tabSet false p.dirtyPg n _) k != _) = _
  rw [tabGet_tabSet]
  split
  · subst k; exact Bool.bne_self_right ..
  · rfl

/-- Marking a page touches the dirty bits and the memory dies' tensor counters alone. -/
theorem Pkg.markPage_eq (p : Pkg) (n : Nat) : ∃ md, p.markPage n = { p.setDirty n true with memDies := md } := by
  unfold Pkg.markPage
  dsimp only
  split
  · exact ⟨p.memDies, rfl⟩
  · exact ⟨_, rfl⟩

theorem Pkg.pageDirty_markPage (p : Pkg) (n k : Nat) : (p.markPage n).pageDirty k = if k = n then true else p.pageDirty k := by
  obtain ⟨md, h⟩ := p.markPage_eq n
  rw [h]
  exact p.pageDirty_setDirty n k true

theorem Pkg.defineLine_of_undef {p : Pkg} {l : Nat} (h : p.undefLine l = true) :
    p.defineLine l = { p with mem := memPut p.mem (64 * l) (p.lineBytes l) }.setUndef l false := if_pos h

theorem Pkg.defineLine_of_defined {p : Pkg} {l : Nat} (h : p.undefLine l = false) : p.defineLine l = p :=
  if_neg (by rw [h]; exact Bool.false_ne_true)

/-- Defining a line touches memory and the marks of undefined lines alone. -/
theorem Pkg.defineLine_eq (p : Pkg) (l : Nat) : ∃ m tb, p.defineLine l = { p with mem := m, tagBad := tb } := by
  cases h : p.undefLine l
  · exact ⟨p.mem, p.tagBad, Pkg.defineLine_of_defined h⟩
  · rw [Pkg.defineLine_of_undef h]
    generalize memPut p.mem (64 * l) (p.lineBytes l) = m
    exact ⟨m, _, rfl⟩

theorem Pkg.undefLine_defineLine (p : Pkg) (l k : Nat) : (p.defineLine l).undefLine k = if k = l then false else p.undefLine k := by
  cases h : p.undefLine l
  · rw [Pkg.defineLine_of_defined h]
    split
    · subst k; exact h
    · rfl
  · rw [Pkg.defineLine_of_undef h]
    generalize memPut p.mem (64 * l) (p.lineBytes l) = m
    exact Pkg.undefLine_setUndef _ l k false

/-! ## What reads return -/

theorem Pkg.byte_of_lt (p : Pkg) {x : Nat} (h : x < 2 ^ 48) : p.byte x = tabGet 0 p.mem x := by rw [Pkg.byte, Nat.mod_eq_of_lt h]

theorem Pkg.length_lineBytes (p : Pkg) (l : Nat) : (p.lineBytes l).length = 64 := by simp [Pkg.lineBytes]

/-- R297: defining a line changes no byte that reads return: what is written is what it read as. -/
theorem Pkg.loadByte_defineLine (p : Pkg) {l x : Nat} (hl : 64 * l + 64 ≤ 2 ^ 48) (hx : x < 2 ^ 48) :
    (p.defineLine l).loadByte x = p.loadByte x := by
  cases hu : p.undefLine l
  case false => rw [Pkg.defineLine_of_defined hu]
  have hundef := p.undefLine_defineLine l (x / 64)
  have hfree : (p.defineLine l).free = p.free := by obtain ⟨m, tb, h⟩ := p.defineLine_eq l; rw [h]
  have hmem : (p.defineLine l).mem = memPut p.mem (64 * l) (p.lineBytes l) := by
    rw [Pkg.defineLine_of_undef hu, Pkg.setUndef_mem]
  by_cases hin : x / 64 = l
  · have hbyte : (p.defineLine l).byte x = p.loadByte x := by
      rw [Pkg.byte_of_lt _ hx, hmem]
      have := memPut_same p.mem (64 * l) (x % 64) (p.lineBytes l) (by rw [Pkg.length_lineBytes]; exact hl)
        (by rw [Pkg.length_lineBytes]; omega)
      rw [show 64 * l + x % 64 = x by omega] at this
      rw [this, Pkg.lineBytes]
      have hx64 : x % 64 < 64 := Nat.mod_lt _ (by decide)
      simp [List.getD, hx64, show 64 * l + x % 64 = x by omega]
    rw [Pkg.loadByte, hundef, if_pos hin, Bool.and_false, if_neg Bool.false_ne_true, hbyte]
  · have hbyte : (p.defineLine l).byte x = p.byte x := by
      rw [Pkg.byte_of_lt _ hx, Pkg.byte_of_lt _ hx, hmem]
      refine memPut_other _ _ _ _ fun n hn => ?_
      rw [Pkg.length_lineBytes] at hn
      omega
    rw [Pkg.loadByte, Pkg.loadByte, hundef, if_neg hin, hbyte, hfree]

/-- The package with every undefined line of a range defined. -/
def Pkg.defineLines (p : Pkg) (a n : Nat) : Pkg := (linesOf a n).foldl Pkg.defineLine p

theorem Pkg.defineLines_eq (p : Pkg) (a n : Nat) : ∃ m tb, p.defineLines a n = { p with mem := m, tagBad := tb } := by
  unfold Pkg.defineLines
  induction linesOf a n generalizing p with
  | nil => exact ⟨p.mem, p.tagBad, rfl⟩
  | cons l ls ih =>
    obtain ⟨m, tb, h⟩ := p.defineLine_eq l
    obtain ⟨m', tb', h'⟩ := ih (p.defineLine l)
    exact ⟨m', tb', by rw [List.foldl_cons, h', h]⟩

theorem Pkg.undefLine_defineLines (p : Pkg) {a n l : Nat} (h : l ∈ linesOf a n) : (p.defineLines a n).undefLine l = false :=
  (foldl_sets (g := Pkg.undefLine) (fun p x => by rw [p.undefLine_defineLine, if_pos rfl])
    (fun p x y hne => by rw [p.undefLine_defineLine, if_neg hne]) (linesOf a n) p).1 l h

theorem Pkg.loadByte_defineLines (p : Pkg) {a n x : Nat} (ha : a + n ≤ 2 ^ 48) (hx : x < 2 ^ 48) :
    (p.defineLines a n).loadByte x = p.loadByte x := by
  have hl : ∀ l ∈ linesOf a n, 64 * l + 64 ≤ 2 ^ 48 := fun l hl => by
    obtain ⟨hn, -, hle⟩ := mem_linesOf.mp hl
    omega
  unfold Pkg.defineLines
  revert hl
  induction linesOf a n generalizing p with
  | nil => exact fun _ => rfl
  | cons l ls ih =>
    intro hl
    obtain ⟨h, hs⟩ := List.forall_mem_cons.mp hl
    rw [List.foldl_cons, ih _ hs, p.loadByte_defineLine h hx]

/-! ## The store -/

/-- What a store leaves in memory: lines it touches of a stack are defined first. -/
def Pkg.written (p : Pkg) (a : Nat) (bs : List Byte) : Pkg :=
  let q := if isStackAddr a then p.defineLines a bs.length else p
  { q with mem := memPut q.mem a bs }

/-- The marks of a store to a stack: POISON of the whole lines cleared, pages dirty, tensor counters (R288, R307, R308). -/
def Pkg.marked (p : Pkg) (a n : Nat) : Pkg :=
  (linesOf a n).foldl Pkg.markLine ((pagesOf a n).foldl Pkg.markPage ((wholeLines a n).foldl (fun p l => p.setPoison l false) p))

theorem Pkg.store_of_stack {p : Pkg} {a : Nat} {bs : List Byte} (h : isStackAddr a = true) :
    p.store a bs = (p.written a bs).marked a bs.length := by
  rw [Pkg.store, Pkg.written]
  simp only [h, if_true]
  rfl

/-- Elsewhere a store marks scratchpad words right again, and nothing more (R214). -/
theorem Pkg.store_of_not_stack {p : Pkg} {a : Nat} {bs : List Byte} (h : isStackAddr a = false) :
    ∃ cs, p.store a bs = { p.written a bs with cores := cs } := by
  rw [Pkg.store, Pkg.written]
  simp only [h, Bool.false_eq_true, if_false]
  split
  · exact ⟨_, rfl⟩
  · exact ⟨_, rfl⟩

/-- A reading of neither POISON nor dirty bits nor tensor counters is the same after the marks. -/
theorem Pkg.marked_keeps {β : Type} {g : Pkg → β} (h : ∀ (p : Pkg) po dp md, g { p with poison := po, dirtyPg := dp, memDies := md } = g p)
    (p : Pkg) (a n : Nat) : g (p.marked a n) = g p := by
  have hpage : ∀ q k, g (Pkg.markPage q k) = g q := fun q k => by
    obtain ⟨md, hq⟩ := q.markPage_eq k
    rw [hq]
    exact h q q.poison _ md
  have hline : ∀ q l, g (Pkg.markLine q l) = g q := fun q _ => h q q.poison q.dirtyPg _
  have hpoison : ∀ q l, g (Pkg.setPoison q l false) = g q := fun q _ => h q _ q.dirtyPg q.memDies
  rw [Pkg.marked, foldl_keeps hline, foldl_keeps hpage, foldl_keeps hpoison]

/-- What a read returns after a store is what is written. -/
theorem Pkg.loadByte_store (p : Pkg) (a x : Nat) (bs : List Byte) : (p.store a bs).loadByte x = (p.written a bs).loadByte x := by
  cases h : isStackAddr a
  · obtain ⟨cs, hs⟩ := p.store_of_not_stack (bs := bs) h
    rw [hs]
    rfl
  · rw [Pkg.store_of_stack h]
    exact Pkg.marked_keeps (g := fun q => q.loadByte x) (fun _ _ _ _ => rfl) (p.written a bs) a bs.length

theorem Pkg.mem_written (p : Pkg) (a : Nat) (bs : List Byte) :
    (p.written a bs).mem = memPut (if isStackAddr a then p.defineLines a bs.length else p).mem a bs := rfl

/-- Memory that the put leaves at a byte reads as before the put. -/
theorem Pkg.loadByte_written_of_byte {p : Pkg} {a x : Nat} {bs : List Byte} (h : (p.written a bs).byte x =
    (if isStackAddr a then p.defineLines a bs.length else p).byte x) :
    (p.written a bs).loadByte x = (if isStackAddr a then p.defineLines a bs.length else p).loadByte x := by
  unfold Pkg.loadByte
  rw [h]
  rfl

/-- R288: a byte that was stored reads back: its line is not undefined any more. -/
theorem Pkg.loadByte_store_in (p : Pkg) {a n : Nat} {bs : List Byte} (ha : a + bs.length ≤ 2 ^ 48) (hn : n < bs.length) :
    (p.store a bs).loadByte (a + n) = bs.getD n 0 := by
  have hbyte : (p.written a bs).byte (a + n) = bs.getD n 0 := by
    rw [Pkg.byte_of_lt _ (by omega), Pkg.mem_written, memPut_same _ _ _ _ ha hn]
  have hdef : (isStackAddr (a + n) && (p.written a bs).undefLine ((a + n) / 64)) = false := by
    rw [Bool.and_eq_false_iff, Decidable.or_iff_not_imp_left]
    intro hs
    have hsa : isStackAddr a = true := by
      simp only [isStackAddr, decide_eq_true_eq, decide_eq_false_iff_not, Decidable.not_not] at hs ⊢
      omega
    have hu : (p.written a bs).undefLine ((a + n) / 64) = (p.defineLines a bs.length).undefLine ((a + n) / 64) := by
      unfold Pkg.written
      rw [if_pos hsa]
      rfl
    rw [hu]
    exact p.undefLine_defineLines (mem_linesOf.mpr ⟨by omega, by omega, by omega⟩)
  rw [Pkg.loadByte_store, Pkg.loadByte, hdef, if_neg Bool.false_ne_true, hbyte]

/-- A byte that was not stored reads as before. -/
theorem Pkg.loadByte_store_out (p : Pkg) {a x : Nat} {bs : List Byte} (ha : a + bs.length ≤ 2 ^ 48) (hx : x < 2 ^ 48)
    (h : x < a ∨ a + bs.length ≤ x) : (p.store a bs).loadByte x = p.loadByte x := by
  have hbyte : (p.written a bs).byte x = (if isStackAddr a then p.defineLines a bs.length else p).byte x := by
    rw [Pkg.byte_of_lt _ hx, Pkg.byte_of_lt _ hx, Pkg.mem_written, memPut_other]
    intro n hn
    omega
  rw [Pkg.loadByte_store, Pkg.loadByte_written_of_byte hbyte]
  split
  · exact p.loadByte_defineLines ha hx
  · rfl

/-- The threads, slots, contexts and regions are those of before. -/
theorem Pkg.store_frame (p : Pkg) (a : Nat) (bs : List Byte) :
    (p.store a bs).thrs = p.thrs ∧ (p.store a bs).slots = p.slots ∧ (p.store a bs).ctxs = p.ctxs ∧ (p.store a bs).regions = p.regions := by
  obtain ⟨m, tb, hd⟩ := p.defineLines_eq a bs.length
  cases h : isStackAddr a
  · obtain ⟨cs, hs⟩ := p.store_of_not_stack (bs := bs) h
    rw [hs, Pkg.written, h]
    exact ⟨rfl, rfl, rfl, rfl⟩
  · have hw : p.written a bs = { p with mem := memPut m a bs, tagBad := tb } := by rw [Pkg.written, if_pos h, hd]
    rw [Pkg.store_of_stack h, hw]
    exact ⟨Pkg.marked_keeps (fun _ _ _ _ => rfl) .., Pkg.marked_keeps (fun _ _ _ _ => rfl) .., Pkg.marked_keeps (fun _ _ _ _ => rfl) ..,
      Pkg.marked_keeps (fun _ _ _ _ => rfl) ..⟩

section Stack
variable {p : Pkg} {a : Nat} {bs : List Byte} (h : isStackAddr a = true)
include h

/-- R297: no line that a store to a stack touches stays undefined. -/
theorem Pkg.undefLine_store {l : Nat} (hl : l ∈ linesOf a bs.length) : (p.store a bs).undefLine l = false := by
  rw [Pkg.store_of_stack h]
  refine (Pkg.marked_keeps (g := fun q => q.undefLine l) (fun _ _ _ _ => rfl) (p.written a bs) a bs.length).trans ?_
  rw [Pkg.written, if_pos h]
  exact p.undefLine_defineLines hl

theorem Pkg.written_eq : ∃ m tb, p.written a bs = { p with mem := m, tagBad := tb } := by
  obtain ⟨m, tb, hd⟩ := p.defineLines_eq a bs.length
  exact ⟨memPut m a bs, tb, by rw [Pkg.written, if_pos h, hd]⟩

/-- R288: POISON after a store is that before it, but for the whole lines, which have none. -/
theorem Pkg.linePoison_store : (∀ l ∈ wholeLines a bs.length, (p.store a bs).linePoison l = false) ∧
    ∀ l, l ∉ wholeLines a bs.length → (p.store a bs).linePoison l = p.linePoison l := by
  have hpage : ∀ (q : Pkg) n l, (q.markPage n).linePoison l = q.linePoison l := fun q n l => by
    obtain ⟨md, hq⟩ := q.markPage_eq n
    rw [hq]
    rfl
  have hstore : ∀ l, (p.store a bs).linePoison l =
      ((wholeLines a bs.length).foldl (fun p l => p.setPoison l false) (p.written a bs)).linePoison l := fun l => by
    rw [Pkg.store_of_stack h, Pkg.marked, foldl_keeps (f := Pkg.markLine) (g := fun q => q.linePoison l) fun _ _ => rfl]
    exact foldl_keeps (g := fun q => q.linePoison l) (fun q n => hpage q n l) _ _
  obtain ⟨m, tb, hw⟩ := Pkg.written_eq (bs := bs) h
  obtain ⟨hin, hout⟩ := foldl_sets (f := fun p l => Pkg.setPoison p l false) (g := Pkg.linePoison)
    (fun q x => by rw [q.linePoison_setPoison, if_pos rfl]) (fun q x y hne => by rw [q.linePoison_setPoison, if_neg hne])
    (wholeLines a bs.length) (p.written a bs)
  exact ⟨fun l hl => (hstore l).trans (hin l hl), fun l hl => (hstore l).trans ((hout l hl).trans (by rw [hw]; rfl))⟩

/-- R307: the dirty bits after a store are those before it, but for its pages, which are dirty. -/
theorem Pkg.pageDirty_store : (∀ n ∈ pagesOf a bs.length, (p.store a bs).pageDirty n = true) ∧
    ∀ n, n ∉ pagesOf a bs.length → (p.store a bs).pageDirty n = p.pageDirty n := by
  have hstore : ∀ n, (p.store a bs).pageDirty n =
      ((pagesOf a bs.length).foldl Pkg.markPage ((wholeLines a bs.length).foldl (fun p l => p.setPoison l false) (p.written a bs))).pageDirty n :=
    fun n => by
      rw [Pkg.store_of_stack h, Pkg.marked, foldl_keeps (f := Pkg.markLine) (g := fun q => q.pageDirty n) fun _ _ => rfl]
  have hpoison : ∀ n, ((wholeLines a bs.length).foldl (fun p l => p.setPoison l false) (p.written a bs)).pageDirty n = p.pageDirty n :=
    fun n => by
      obtain ⟨m, tb, hw⟩ := Pkg.written_eq (bs := bs) h
      rw [foldl_keeps (f := fun p l => Pkg.setPoison p l false) (g := fun q => q.pageDirty n) (fun _ _ => rfl), hw]
      rfl
  obtain ⟨hin, hout⟩ := foldl_sets (f := Pkg.markPage) (g := Pkg.pageDirty) (fun q x => by rw [q.pageDirty_markPage, if_pos rfl])
    (fun q x y hne => by rw [q.pageDirty_markPage, if_neg hne]) (pagesOf a bs.length)
    ((wholeLines a bs.length).foldl (fun p l => p.setPoison l false) (p.written a bs))
  exact ⟨fun n hn => (hstore n).trans (hin n hn), fun n hn => (hstore n).trans ((hout n hn).trans (hpoison n))⟩

end Stack

/-- Settles O56: bytes, undefined lines, POISON and dirty bits by what the store writes and marks. -/
theorem memoryWrites : Obligations.MemoryWrites := by
  intro p a bs ha
  refine ⟨p.store_wf a bs, fun n hn => p.loadByte_store_in ha hn, fun x hx h => p.loadByte_store_out ha hx h, fun hs => ?_, p.store_frame a bs⟩
  obtain ⟨hwhole, hpoison⟩ := Pkg.linePoison_store (p := p) (bs := bs) hs
  obtain ⟨hpages, hdirty⟩ := Pkg.pageDirty_store (p := p) (bs := bs) hs
  exact ⟨fun l hl => Pkg.undefLine_store hs hl, hwhole, hpoison, hpages, hdirty⟩

end Sys2Proof.Machine
end

