-- ==== Sys2Proof/Proofs/ScalarResults.lean ====
section
/-! The scalar class (R228): what each operation computes, that it retires with its value in RD, and the obligations on values and
on the thread's own state settled from it. -/

namespace Sys2Proof.Machine

/-! ## Results that the model spells by a test of bit vectors -/

theorem resMin_eq : resMin = fun a b => if a.toInt ≤ b.toInt then a else b := by
  funext a b
  simp only [resMin, BitVec.sle_iff_toInt_le]
theorem resMax_eq : resMax = fun a b => if b.toInt ≤ a.toInt then a else b := by
  funext a b
  simp only [resMax, BitVec.sle_iff_toInt_le]
theorem resSlt_eq : resSlt = fun a b => if a.toInt < b.toInt then 1 else 0 := by
  funext a b
  simp only [resSlt, BitVec.slt_iff_toInt_lt]

/-! ## Retiring with a value in RD (O1) -/

section Rows
variable (s : State) (t : ThreadId) (f : FmtS)

/-- Rows of two operands: each retires with its result of RA and of RB or the immediate (R224, R228). -/
theorem retires_of_mem_rows2 {rows : List ((ThreadId → FmtS → Instr) × (W64 → W64 → W64))}
    (h : ∀ r ∈ rows, ∃ g, (∀ s, exec (r.1 t f) s = s.scalar2 t (r.1 t f) f g) ∧ g = r.2) : ∀ r ∈ rows,
    Retires s t (r.1 t f) (((s.pkg.thr t).setS f.rd.toNat (r.2 ((s.pkg.thr t).rs f.ra.toNat) (opB (s.pkg.thr t) f))).goto
      (s.pkg.thr t).nextPc) := by
  intro r hr
  obtain ⟨g, he, hg⟩ := h r hr
  rw [← hg]
  exact retires_of_ok_setThr (he s) rfl rfl

/-- Rows of three operands, of which an operation may read fewer. -/
theorem retires_of_mem_rows3 {rows : List ((ThreadId → FmtS → Instr) × (W64 → W64 → W64 → W64))}
    (h : ∀ r ∈ rows, ∀ s, exec (r.1 t f) s = s.run fun p => p.issue t (r.1 t f) fun p th => .ok (p.setThr t
      (th.setS f.rd.toNat (r.2 (th.rs f.ra.toNat) (opB th f) (th.rs f.rc.toNat))))) : ∀ r ∈ rows,
    Retires s t (r.1 t f) (((s.pkg.thr t).setS f.rd.toNat (r.2 ((s.pkg.thr t).rs f.ra.toNat) (opB (s.pkg.thr t) f)
      ((s.pkg.thr t).rs f.rc.toNat))).goto (s.pkg.thr t).nextPc) :=
  fun r hr => retires_of_ok_setThr (h r hr s) rfl rfl

end Rows

/-- Settles O1: each row has the shape of its kind, with its own result. -/
theorem scalarValueResults : Obligations.ScalarValueResults := by
  refine ⟨fun s t f => retires_of_mem_rows2 s t f ?integer, fun s t f => retires_of_mem_rows3 s t f ?float⟩
  case integer =>
    simp only [List.forall_mem_cons, List.not_mem_nil, false_implies, implies_true, and_true]
    exact ⟨⟨resAdd, fun _ => rfl, rfl⟩, ⟨resSub, fun _ => rfl, rfl⟩, ⟨resMul, fun _ => rfl, rfl⟩,
      ⟨resMulhu, fun _ => rfl, rfl⟩, ⟨resMulh, fun _ => rfl, rfl⟩, ⟨resDivu, fun _ => rfl, rfl⟩, ⟨resDiv, fun _ => rfl, rfl⟩,
      ⟨resRemu, fun _ => rfl, rfl⟩, ⟨resRem, fun _ => rfl, rfl⟩, ⟨resAnd, fun _ => rfl, rfl⟩, ⟨resOr, fun _ => rfl, rfl⟩,
      ⟨resXor, fun _ => rfl, rfl⟩, ⟨resShl, fun _ => rfl, rfl⟩, ⟨resShr, fun _ => rfl, rfl⟩, ⟨resSar, fun _ => rfl, rfl⟩,
      ⟨resMin, fun _ => rfl, resMin_eq⟩, ⟨resMax, fun _ => rfl, resMax_eq⟩, ⟨resMinu, fun _ => rfl, rfl⟩,
      ⟨resMaxu, fun _ => rfl, rfl⟩, ⟨resSlt, fun _ => rfl, resSlt_eq⟩, ⟨resSltu, fun _ => rfl, rfl⟩,
      ⟨resSeq, fun _ => rfl, rfl⟩⟩
  case float =>
    simp only [List.forall_mem_cons, List.not_mem_nil, false_implies, implies_true, and_true]
    exact ⟨fun _ => rfl, fun _ => rfl, fun _ => rfl, fun _ => rfl, fun _ => rfl, fun _ => rfl, fun _ => rfl, fun _ => rfl, fun _ => rfl,
      fun _ => rfl⟩

/-! ## The thread's own state (O2) -/

section OwnState
variable {s : State} {t : ThreadId} {f : FmtS}

/-- R190: a vector length of at most 1,048,576 is taken. -/
theorem retires_setvl (h : (opB (s.pkg.thr t) f).toNat ≤ 1048576) :
    Retires s t (.setvl t f) (Thr.goto { s.pkg.thr t with vl := (opB (s.pkg.thr t) f).setWidth 21 } (s.pkg.thr t).nextPc) :=
  retires_of_ok_setThr (th := { s.pkg.thr t with vl := (opB (s.pkg.thr t) f).setWidth 21 }) rfl rfl (if_neg (Nat.not_lt.mpr h))

/-- R191: a mask without reserved bits is taken. -/
theorem retires_setvm (h : fld (opB (s.pkg.thr t) f).toNat 22 41 = 0) :
    Retires s t (.setvm t f) (Thr.goto { s.pkg.thr t with vm := opB (s.pkg.thr t) f } (s.pkg.thr t).nextPc) :=
  retires_of_ok_setThr (th := { s.pkg.thr t with vm := opB (s.pkg.thr t) f }) rfl rfl (if_neg (by simp [h]))

/-- The selectors of RDINFO, as a table and as the model reads them (R228). -/
theorem infoOf_of_lookup {th : Thr} {n v : Nat}
    (h : ([(0, th.rank), (1, th.nthr), (2, th.kind), (3, th.ctx), (4, th.slot), (5, th.nlive)] : List (Nat × Nat)).lookup n = some v) :
    infoOf th n = some v := by
  match n with
  | 0 | 1 | 2 | 3 | 4 | 5 => exact h
  | n + 6 => simp [List.lookup] at h

theorem retires_rdinfo {v : Nat} (h : infoOf (s.pkg.thr t) (opB (s.pkg.thr t) f).toNat = some v) :
    Retires s t (.rdinfo t f) (((s.pkg.thr t).setS f.rd.toNat (BitVec.ofNat 64 v)).goto (s.pkg.thr t).nextPc) :=
  retires_of_ok_setThr (th := (s.pkg.thr t).setS f.rd.toNat (BitVec.ofNat 64 v)) rfl rfl (by simp only [h])

end OwnState

/-- Settles O2: each instruction retires with the record that its rule names. -/
theorem scalarStateResults : Obligations.ScalarStateResults := fun _ _ _ _ =>
  ⟨retires_of_ok_setThr rfl rfl rfl, retires_of_ok_setThr rfl rfl rfl, retires_of_ok_setThr rfl rfl rfl, retires_of_ok_setThr rfl rfl rfl, retires_of_ok_setThr rfl rfl rfl,
    retires_of_ok_setThr rfl rfl rfl, retires_setvl, retires_setvm, fun _ h => retires_rdinfo (infoOf_of_lookup h)⟩

end Sys2Proof.Machine
end

