-- ==== Sys2Proof/Proofs/IssueOutcomes.lean ====
section
/-! What an instruction that issues leaves, one lemma per answer of its effect (R218, R236, R245), and the tests of operands that
several classes share (R226, R231). -/

namespace Sys2Proof.Machine

/-! ## Frames of the issue's bookkeeping -/

theorem Pkg.blockThr_thr_same (p : Pkg) (t : Nat) (w : Wait) : (p.blockThr t w).thr t = { p.thr t with state := .blocked, wait := w } := by
  obtain ⟨cx, es, n, cs, fs, sl, h⟩ := p.blockThr_eq t w
  rw [h]
  exact (p.thr_setThr t t _).trans (if_pos rfl)

theorem Pkg.blockThr_thr_ne (p : Pkg) {t k : Nat} (w : Wait) (hk : k ≠ t) : (p.blockThr t w).thr k = p.thr k := by
  obtain ⟨cx, es, n, cs, fs, sl, h⟩ := p.blockThr_eq t w
  rw [h]
  exact (p.thr_setThr t k _).trans (if_neg hk)

theorem Pkg.blockThr_frame (p : Pkg) (t : Nat) (w : Wait) : (p.blockThr t w).mem = p.mem ∧ (p.blockThr t w).syncs = p.syncs ∧
    (p.blockThr t w).reqs = p.reqs ∧ (p.blockThr t w).out = p.out := by
  obtain ⟨cx, es, n, cs, fs, sl, h⟩ := p.blockThr_eq t w
  rw [h]
  exact ⟨rfl, rfl, rfl, rfl⟩

/-- Accounting an issue touches the cores, counters and slots alone. -/
theorem Pkg.countIssue_eq (p : Pkg) (t : Nat) (keep : Bool) : ∃ cr cs sl, p.countIssue t keep = { p with cores := cr, ctrs := cs, slots := sl } := by
  obtain ⟨cs, sl, h, -, -⟩ := p.countIssue_frame t keep
  exact ⟨_, cs, sl, h⟩

/-- A package whose thread has its wait's PC and word, its issue accounted, and which then blocks it. -/
theorem Pkg.countIssue_blockThr_frame (p : Pkg) (t : Nat) (keep : Bool) (w : Wait) :
    ((p.countIssue t keep).blockThr t w).thr t = { p.thr t with state := .blocked, wait := w } ∧
    (∀ k, k ≠ t → ((p.countIssue t keep).blockThr t w).thr k = p.thr k) ∧ ((p.countIssue t keep).blockThr t w).mem = p.mem ∧
    ((p.countIssue t keep).blockThr t w).syncs = p.syncs ∧ ((p.countIssue t keep).blockThr t w).reqs = p.reqs ∧
    ((p.countIssue t keep).blockThr t w).out = p.out := by
  obtain ⟨cr, cs, sl, h⟩ := p.countIssue_eq t keep
  obtain ⟨hm, hs, hr, ho⟩ := (p.countIssue t keep).blockThr_frame t w
  refine ⟨?_, fun k hk => ?_, ?_, ?_, ?_, ?_⟩
  · rw [Pkg.blockThr_thr_same, h]; rfl
  · rw [Pkg.blockThr_thr_ne _ _ hk, h]; rfl
  · rw [hm, h]
  · rw [hs, h]
  · rw [hr, h]
  · rw [ho, h]

/-! ## The answers of an effect -/

/-- What the answer of an effect leaves of an instruction that issues (R218, R223, R236). -/
def Pkg.issueEnd (p : Pkg) (t : Nat) (i : Instr) : IRes → Pkg
  | .ok q => q.retire t
  | .jump q pc => (q.modThr t fun th => th.goto pc).countIssue t true
  | .fault c => p.thrFault t c (p.thr t).pc.toNat ((encode i).getD 0)
  | .again q wt => ((q.modThr t fun x => { x with waitPc := (p.thr t).pc.toNat, waitInst := (encode i).getD 0 }).modCore (coreOf t) fun c =>
      { c with issuer := none, lastIssuer := threadIn t, consec := 0 }).blockThr t wt
  | .wait q wt => ((q.modThr t fun x => { x.goto (x.pc.toNat + 1) with waitPc := (p.thr t).pc.toNat, waitInst := (encode i).getD 0 }).countIssue t
      false).blockThr t wt
  | .yield q => (q.modThr t fun th => th.goto (th.pc.toNat + 1)).countIssue t false
  | .stop q => q

section Tests
variable {p : Pkg} {t : Nat} {i : Instr} {body : Pkg → Thr → IRes}

/-- R225: a word that is not well formed faults before any effect. -/
theorem Pkg.issue_of_not_wf (hs : p.selected t = true) (hin : (p.thr t).pcOut = false)
    (hc : (p.thr t).pc.toNat < (p.slot (p.thr t).slot).codeWords) (hw : i.wf = false) :
    p.issue t i body = p.thrFault t fIllegalEncoding (p.thr t).pc.toNat ((encode i).getD 0) := by
  simp [Pkg.issue, hs, hin, hw, Nat.not_le.mpr hc]

/-- What issues runs its own effect and leaves what its answer says. -/
theorem Pkg.issue_of_issues (h : Issues p t i) : p.issue t i body = p.issueEnd t i (body p (p.thr t)) := by
  obtain ⟨hs, hin, hc, hw⟩ := h
  have hin' : ((p.thr t).pcOut || decide ((p.slot (p.thr t).slot).codeWords ≤ (p.thr t).pc.toNat)) = false := by
    simp [hin, Nat.not_le.mpr hc]
  rw [Pkg.issue, if_pos hs]
  simp only [hin', hw, Bool.not_true, Bool.false_eq_true, if_false]
  cases body p (p.thr t) <;> rfl

end Tests

section Outcomes
variable {s : State} {t : Nat} {i : Instr} {body : Pkg → Thr → IRes} {q : Pkg} {w : Wait} {c : Nat}
variable (he : exec i s = s.run fun p => p.issue t i body) (h : Issues s.pkg t i)
include he h

theorem completes_of_ok (hb : body s.pkg (s.pkg.thr t) = .ok q) : Completes s t i q := by
  rw [Completes, he, State.run_eq, Pkg.issue_ok h hb]

theorem traps_of_fault (hb : body s.pkg (s.pkg.thr t) = .fault c) : Traps s t i c := by
  rw [Traps, he, State.run_eq, Pkg.issue_of_issues h, hb, Pkg.issueEnd]

theorem makes_of_stop (hb : body s.pkg (s.pkg.thr t) = .stop q) : Makes s i q := by
  rw [Makes, he, State.run_eq, Pkg.issue_of_issues h, hb, Pkg.issueEnd]

theorem makes_of_yield (hb : body s.pkg (s.pkg.thr t) = .yield q) :
    Makes s i ((q.modThr t fun th => th.goto (th.pc.toNat + 1)).countIssue t false) := by
  rw [Makes, he, State.run_eq, Pkg.issue_of_issues h, hb, Pkg.issueEnd]

theorem issuesAndWaits_of_wait (hb : body s.pkg (s.pkg.thr t) = .wait q w) : IssuesAndWaits s t i q w := by
  obtain ⟨hsame, hne, hmem, hsync, hreq, hout⟩ := Pkg.countIssue_blockThr_frame
    (q.modThr t fun x => { x.goto (x.pc.toNat + 1) with waitPc := (s.pkg.thr t).pc.toNat, waitInst := (encode i).getD 0 }) t false w
  refine ⟨_, by rw [he, State.run_eq, Pkg.issue_of_issues h, hb, Pkg.issueEnd], ?_, fun k hk => ?_, hmem, hsync, hreq, hout⟩
  · rw [hsame, Pkg.modThr_eq, Pkg.thr_setThr, if_pos rfl]
    rfl
  · rw [hne k hk, Pkg.modThr_eq, Pkg.thr_setThr, if_neg hk]

theorem mustWait_of_again (hb : body s.pkg (s.pkg.thr t) = .again s.pkg w) : MustWait s t i w := by
  refine ⟨_, by rw [he, State.run_eq, Pkg.issue_of_issues h, hb, Pkg.issueEnd], ?_, fun k hk => ?_, ?_, ?_⟩
  · rw [Pkg.blockThr_thr_same, Pkg.modCore_eq, Pkg.thr_setCore, Pkg.modThr_eq, Pkg.thr_setThr, if_pos rfl]
  · rw [Pkg.blockThr_thr_ne _ _ hk, Pkg.modCore_eq, Pkg.thr_setCore, Pkg.modThr_eq, Pkg.thr_setThr, if_neg hk]
  · rw [(Pkg.blockThr_frame _ t w).1, Pkg.modCore_eq, Pkg.mem_setCore, Pkg.modThr_eq, Pkg.mem_setThr]
  · rw [(Pkg.blockThr_frame _ t w).2.2.2, Pkg.modCore_eq, Pkg.out_setCore, Pkg.modThr_eq, Pkg.out_setThr]

end Outcomes

/-! ## Shared operand tests -/

/-- R236: an instruction whose tag is free goes on. -/
theorem needTag_free {th : Thr} {tag : Nat} (h : th.tagPending tag = false) (p : Pkg) (k : IRes) : needTag th tag p k = k :=
  if_neg (by rw [h]; exact Bool.false_ne_true)

/-- R236: an instruction whose tag is pending waits for it. -/
theorem needTag_pending {th : Thr} {tag : Nat} (h : th.tagPending tag = true) (p : Pkg) (k : IRes) :
    needTag th tag p k = .again p (.tags (1#64 <<< tag)) := if_pos h

theorem memLimits_of_unaligned {a n : Nat} (h : a % 8 ≠ 0 ∨ n % 8 ≠ 0) : memLimits a n = some fAlignment :=
  if_pos (by simpa using h)

theorem memLimits_of_length {a n : Nat} (ha : a % 8 = 0) (hn : n % 8 = 0) (h : n < 8 ∨ 4128768 < n) : memLimits a n = some fIllegalOperand :=
  (if_neg (by simp [ha, hn])).trans (if_pos (by simpa using h))

theorem memLimits_ok {a n : Nat} (ha : a % 8 = 0) (hn : n % 8 = 0) (hl : 8 ≤ n) (hu : n ≤ 4128768) : memLimits a n = none :=
  (if_neg (by simp [ha, hn])).trans (if_neg (by simp; omega))

/-- The limits of a local operation are tested before its permission. -/
theorem Pkg.memTest_of_limits {p : Pkg} {t a n c : Nat} {wr : Bool} (h : memLimits a n = some c) : p.memTest t a n wr = some c := by
  simp only [Pkg.memTest, h]

theorem Pkg.memTest_of_address {p : Pkg} {t a n : Nat} {wr : Bool} (h : memLimits a n = none)
    (hp : p.progAccess (p.thr t).ctx (p.ctxCores (p.thr t).ctx) a n wr = .address) : p.memTest t a n wr = some fAddress := by
  simp only [Pkg.memTest, h, hp]

end Sys2Proof.Machine
end

