-- ==== Sys2Proof/Proofs/OperandTraps.lean ====
section
/-! Which operands fault an instruction before it has any effect (R190, R191, R225, R228, R231, R236, R245), and the obligation
settled from it. -/

namespace Sys2Proof.Machine

/-! ## The scalar class (R228) -/

theorem infoOf_of_gt {th : Thr} {n : Nat} (h : 5 < n) : infoOf th n = none := by
  obtain ⟨m, rfl⟩ := Nat.exists_eq_add_of_le' h
  rfl

section Scalar
variable {s : State} {t : ThreadId} {f : FmtS}

theorem traps_setvl (h : Issues s.pkg t (.setvl t f)) (hv : 1048576 < (opB (s.pkg.thr t) f).toNat) : Traps s t (.setvl t f) fIllegalOperand :=
  traps_of_fault rfl h (if_pos hv)

theorem traps_setvm (h : Issues s.pkg t (.setvm t f)) (hv : fld (opB (s.pkg.thr t) f).toNat 22 41 ≠ 0) :
    Traps s t (.setvm t f) fIllegalOperand :=
  traps_of_fault rfl h (if_pos (by simpa using hv))

theorem traps_rdinfo (h : Issues s.pkg t (.rdinfo t f)) (hv : 5 < (opB (s.pkg.thr t) f).toNat) : Traps s t (.rdinfo t f) fIllegalOperand :=
  traps_of_fault rfl h (by simp only [infoOf_of_gt hv])

/-- R225: an ill-formed word of the scalar class faults before any effect. -/
theorem traps_of_not_wf {i : Instr} {body : Pkg → Thr → IRes} (he : exec i s = s.run fun p => p.issue t i body)
    (hs : s.pkg.selected t = true) (hin : (s.pkg.thr t).pcOut = false)
    (hc : (s.pkg.thr t).pc.toNat < (s.pkg.slot (s.pkg.thr t).slot).codeWords) (hw : i.wf = false) : Traps s t i fIllegalEncoding := by
  rw [Traps, he, State.run_eq, Pkg.issue_of_not_wf hs hin hc hw]

end Scalar

/-! ## Moves between memory and scratchpad (R231) -/

/-- The tests of a move in their order: offset, then address and length, then the scratchpad range. -/
theorem moveTests_fault {off c : Nat} {x y : Option Nat} (ho : off % 8 = 0) (hx : x = some c) :
    firstFault [if off % 8 = 0 then none else some fAlignment, x, y] = some c := by
  rw [if_pos ho, hx, firstFault_none_cons, firstFault_some_cons]

section Moves
variable {s : State} {t : ThreadId} {f : FmtM} {i : Instr} {wr : Bool} {body : Pkg → Thr → IRes}

/-- What makes an MLD or MST: the tag test, then the tests of its operands; `y` is the test of its scratchpad range. -/
def MoveTests (s : State) (t : ThreadId) (f : FmtM) (wr : Bool) (body : Pkg → Thr → IRes) : Prop :=
  let p := s.pkg
  let th := p.thr t
  let a := effAddr th f
  let n := rlLen (th.rs f.rl.toNat)
  let off := (th.rs f.rs.toNat).toNat
  (th.tagPending f.tag.toNat = true → body p th = .again p (.tags (1#64 <<< f.tag.toNat))) ∧
  ∀ c, th.tagPending f.tag.toNat = false → off % 8 = 0 →
    (if p.isRemote (rlFab (th.rs f.rl.toNat)) then memLimits a n else p.memTest t a n wr) = some c → body p th = .fault c

theorem moveTests_mld (s : State) (t : ThreadId) (f : FmtM) : ∃ body, (exec (.mld t f) s = s.run fun p => p.issue t (.mld t f) body) ∧
    MoveTests s t f false body := by
  refine ⟨_, rfl, fun hp => needTag_pending hp _ _, fun c hfree ho hx => ?_⟩
  refine (needTag_free hfree _ _).trans ?_
  simp only [moveTests_fault ho hx]

theorem moveTests_mst (s : State) (t : ThreadId) (f : FmtM) : ∃ body, (exec (.mst t f) s = s.run fun p => p.issue t (.mst t f) body) ∧
    MoveTests s t f true body := by
  refine ⟨_, rfl, fun hp => needTag_pending hp _ _, fun c hfree ho hx => ?_⟩
  refine (needTag_free hfree _ _).trans ?_
  simp only [moveTests_fault ho hx]

section MoveTraps
variable (he : exec i s = s.run fun p => p.issue t i body) (hm : MoveTests s t f wr body) (h : Issues s.pkg t i)
include he hm h

/-- R236: a move whose tag is pending waits for it. -/
theorem mustWait_move (hp : (s.pkg.thr t).tagPending f.tag.toNat = true) : MustWait s t i (.tags (1#64 <<< f.tag.toNat)) :=
  mustWait_of_again he h (hm.1 hp)

variable (hfree : (s.pkg.thr t).tagPending f.tag.toNat = false) (ho : ((s.pkg.thr t).rs f.rs.toNat).toNat % 8 = 0)
include hfree ho

/-- R231: the limits of address and length hold for local and remote moves. -/
theorem traps_move_of_limits {c : Nat} (hl : memLimits (effAddr (s.pkg.thr t) f) (rlLen ((s.pkg.thr t).rs f.rl.toNat)) = some c) :
    Traps s t i c := by
  refine traps_of_fault he h (hm.2 c hfree ho ?_)
  split
  · exact hl
  · exact Pkg.memTest_of_limits hl

/-- R231, R282: a local range that the context may not reach faults. -/
theorem traps_move_of_address (hl : memLimits (effAddr (s.pkg.thr t) f) (rlLen ((s.pkg.thr t).rs f.rl.toNat)) = none)
    (hlocal : s.pkg.isRemote (rlFab ((s.pkg.thr t).rs f.rl.toNat)) = false)
    (hp : s.pkg.progAccess (s.pkg.thr t).ctx (s.pkg.ctxCores (s.pkg.thr t).ctx) (effAddr (s.pkg.thr t) f)
      (rlLen ((s.pkg.thr t).rs f.rl.toNat)) wr = .address) : Traps s t i fAddress := by
  refine traps_of_fault he h (hm.2 fAddress hfree ho ?_)
  rw [hlocal, if_neg Bool.false_ne_true]
  exact Pkg.memTest_of_address hl hp

end MoveTraps

/-- The four faults and the wait of a move, in the order of its tests (log entry 21). -/
theorem moveTraps (he : exec i s = s.run fun p => p.issue t i body) (hm : MoveTests s t f wr body) (h : Issues s.pkg t i) :
    let p := s.pkg
    let th := p.thr t
    let a := effAddr th f
    let n := rlLen (th.rs f.rl.toNat)
    (th.tagPending f.tag.toNat = true → MustWait s t i (.tags (1#64 <<< f.tag.toNat))) ∧
    (th.tagPending f.tag.toNat = false → (th.rs f.rs.toNat).toNat % 8 = 0 →
      (a % 8 ≠ 0 ∨ n % 8 ≠ 0 → Traps s t i fAlignment) ∧
      (a % 8 = 0 → n % 8 = 0 → n < 8 ∨ 4128768 < n → Traps s t i fIllegalOperand) ∧
      (a % 8 = 0 → n % 8 = 0 → 8 ≤ n → n ≤ 4128768 → p.isRemote (rlFab (th.rs f.rl.toNat)) = false →
        p.progAccess th.ctx (p.ctxCores th.ctx) a n wr = .address → Traps s t i fAddress)) :=
  ⟨mustWait_move he hm h, fun hfree ho =>
    ⟨fun hu => traps_move_of_limits he hm h hfree ho (memLimits_of_unaligned hu),
      fun ha hn hl => traps_move_of_limits he hm h hfree ho (memLimits_of_length ha hn hl),
      fun ha hn hl hu hlocal hp => traps_move_of_address he hm h hfree ho (memLimits_ok ha hn hl hu) hlocal hp⟩⟩

end Moves

/-! ## The statement -/

/-- Settles O3: the scalar rows by their own tests; MLD and MST by the tests they share. -/
theorem operandTraps : Obligations.OperandTraps := by
  refine ⟨fun s t f i hi hs hin hc => ⟨fun hw => ?illegal, ?setvl, ?setvm, ?rdinfo⟩, fun s t f => ?moves⟩
  case illegal =>
    simp only [List.mem_cons, List.not_mem_nil, or_false] at hi
    obtain rfl | rfl | rfl | rfl := hi <;> exact traps_of_not_wf rfl hs hin hc hw
  case setvl => rintro rfl hw hv; exact traps_setvl ⟨hs, hin, hc, hw⟩ hv
  case setvm => rintro rfl hw hv; exact traps_setvm ⟨hs, hin, hc, hw⟩ hv
  case rdinfo => rintro rfl hw hv; exact traps_rdinfo ⟨hs, hin, hc, hw⟩ hv
  case moves =>
    obtain ⟨mld, hmld, htmld⟩ := moveTests_mld s t f
    obtain ⟨mst, hmst, htmst⟩ := moveTests_mst s t f
    exact List.forall_mem_cons.mpr ⟨moveTraps hmld htmld, List.forall_mem_singleton.mpr (moveTraps hmst htmst)⟩

end Sys2Proof.Machine
end

