-- ==== Sys2Proof/Proofs/MemoryClass.lean ====
section
/-! The memory class (R231, R282, R299): a move whose operands pass its tests starts its background operation, sends its requests or
stages its effect; PREF and the stash (R79, R81, R296); the obligations settled from it. -/

namespace Sys2Proof.Machine

section Memory
variable {s : State} {t : ThreadId} {f : FmtM}

/-! ## LDS -/

/-- R231: LDS from the core's own window has its word at once. -/
theorem completes_lds_window (h : Issues s.pkg t (.lds t f)) (ht : s.pkg.memTest t (effAddr (s.pkg.thr t) f) 8 false = none)
    (hw : isWindowAddr (effAddr (s.pkg.thr t) f) = true) (hc : windowCore (effAddr (s.pkg.thr t) f) = coreOf t)
    (hb : s.pkg.spBadIn (coreOf t) (windowOff (effAddr (s.pkg.thr t) f)) 8 = false) :
    Completes s t (.lds t f) ((s.pkg.setThr t ((s.pkg.thr t).setS f.rs.toNat (BitVec.ofNat 64 (s.pkg.num (effAddr (s.pkg.thr t) f) 8)))).spRead
      (coreOf t) (windowOff (effAddr (s.pkg.thr t) f)) 8) :=
  completes_of_ok rfl h (by simp only [ht, hw, hc, hb, beq_self_eq_true, Bool.and_self, if_true, Bool.false_eq_true, if_false])

/-- R231: LDS from a stack issues and waits for its word. -/
theorem waits_lds_stack (h : Issues s.pkg t (.lds t f)) (ht : s.pkg.memTest t (effAddr (s.pkg.thr t) f) 8 false = none)
    (hw : isWindowAddr (effAddr (s.pkg.thr t) f) = false) :
    IssuesAndWaits s t (.lds t f) (s.pkg.setThr t ((s.pkg.thr t).addBg 0 ((encode (.lds t f)).getD 0)
      (.loadWord f.rs.toNat (effAddr (s.pkg.thr t) f) f.hint.toNat))) (.memData f.rs.toNat (s.pkg.thr t).bgNext) :=
  issuesAndWaits_of_wait rfl h (by simp only [ht, hw, Bool.false_and, Bool.false_eq_true, if_false])

/-! ## STS -/

section Sts
variable (h : Issues s.pkg t (.sts t f)) (hfree : (s.pkg.thr t).tagPending f.tag.toNat = false)
include h hfree

theorem completes_sts_local (hl : s.pkg.isRemote (stsFab (s.pkg.thr t) f) = false)
    (ht : s.pkg.memTest t (effAddr (s.pkg.thr t) f) 8 true = none) :
    Completes s t (.sts t f) (s.pkg.setThr t ((s.pkg.thr t).addBg f.tag.toNat ((encode (.sts t f)).getD 0)
      (.storeWord (effAddr (s.pkg.thr t) f) ((s.pkg.thr t).rs f.rs.toNat) f.hint.toNat))) :=
  completes_of_ok rfl h ((needTag_free hfree _ _).trans (by simp only [hl, ht, Bool.false_eq_true, if_false]))

/-- R238: a remote STS is an effect of the open group. -/
theorem completes_sts_remote (hr : s.pkg.isRemote (stsFab (s.pkg.thr t) f) = true) (ht : memLimits (effAddr (s.pkg.thr t) f) 8 = none)
    (hq : s.pkg.seqOpen t = false) (hg : (s.pkg.thr t).grp.length < 64) (hb : (s.pkg.thr t).grpBytes + 8 ≤ 0x20_0000) :
    Completes s t (.sts t f) (s.pkg.setThr t (Thr.addBg { s.pkg.thr t with
      grp := (s.pkg.thr t).grp ++ [.writeWord (stsFab (s.pkg.thr t) f) (effAddr (s.pkg.thr t) f) ((s.pkg.thr t).rs f.rs.toNat) f.hint.toNat]
      grpBytes := (s.pkg.thr t).grpBytes + 8 } f.tag.toNat ((encode (.sts t f)).getD 0) (.staged none))) :=
  completes_of_ok rfl h ((needTag_free hfree _ _).trans (by simp only [hr, ht, if_true, stageEff_ok hq hg hb]))

end Sts

/-! ## MLD and MST -/

/-- The tests of a move that passes them. -/
theorem moveTests_ok {off : Nat} {x y : Option Nat} (ho : off % 8 = 0) (hx : x = none) (hy : y = none) :
    firstFault [if off % 8 = 0 then none else some fAlignment, x, y] = none := by
  rw [if_pos ho, hx, hy, firstFault_none_cons, firstFault_none_cons, firstFault_none_cons, firstFault_nil]

section Moves
variable (hfree : (s.pkg.thr t).tagPending f.tag.toNat = false) (ho : ((s.pkg.thr t).rs f.rs.toNat).toNat % 8 = 0)
include hfree ho

section Local
variable (hl : s.pkg.isRemote (rlFab ((s.pkg.thr t).rs f.rl.toNat)) = false)
include hl

theorem completes_mld_local (h : Issues s.pkg t (.mld t f))
    (ht : s.pkg.memTest t (effAddr (s.pkg.thr t) f) (rlLen ((s.pkg.thr t).rs f.rl.toNat)) false = none)
    (hsp : s.pkg.spTest t ((s.pkg.thr t).rs f.rs.toNat).toNat (rlLen ((s.pkg.thr t).rs f.rl.toNat)) true = none) :
    Completes s t (.mld t f) (s.pkg.setThr t ((s.pkg.thr t).addParts f.tag.toNat ((encode (.mld t f)).getD 0) (effAddr (s.pkg.thr t) f)
      (rlLen ((s.pkg.thr t).rs f.rl.toNat)) fun x =>
        .load (effAddr (s.pkg.thr t) f + x.1) (((s.pkg.thr t).rs f.rs.toNat).toNat + x.1) x.2 f.hint.toNat)) := by
  refine completes_of_ok rfl h ((needTag_free hfree _ _).trans ?_)
  simp only [hl, Bool.false_eq_true, if_false, moveTests_ok ho ht hsp]

theorem completes_mst_local (h : Issues s.pkg t (.mst t f))
    (ht : s.pkg.memTest t (effAddr (s.pkg.thr t) f) (rlLen ((s.pkg.thr t).rs f.rl.toNat)) true = none)
    (hsp : s.pkg.spTest t ((s.pkg.thr t).rs f.rs.toNat).toNat (rlLen ((s.pkg.thr t).rs f.rl.toNat)) false = none) :
    Completes s t (.mst t f) (s.pkg.setThr t ((s.pkg.thr t).addParts f.tag.toNat ((encode (.mst t f)).getD 0) (effAddr (s.pkg.thr t) f)
      (rlLen ((s.pkg.thr t).rs f.rl.toNat)) fun x =>
        .store (effAddr (s.pkg.thr t) f + x.1) (((s.pkg.thr t).rs f.rs.toNat).toNat + x.1) x.2 f.hint.toNat)) := by
  refine completes_of_ok rfl h ((needTag_free hfree _ _).trans ?_)
  simp only [hl, Bool.false_eq_true, if_false, moveTests_ok ho ht hsp]

end Local

section Remote
variable (hr : s.pkg.isRemote (rlFab ((s.pkg.thr t).rs f.rl.toNat)) = true)
  (ht : memLimits (effAddr (s.pkg.thr t) f) (rlLen ((s.pkg.thr t).rs f.rl.toNat)) = none)
include hr ht

/-- R299: a remote MLD sends its MEM_READ requests. -/
theorem completes_mld_remote (h : Issues s.pkg t (.mld t f))
    (hsp : s.pkg.spTest t ((s.pkg.thr t).rs f.rs.toNat).toNat (rlLen ((s.pkg.thr t).rs f.rl.toNat)) true = none) :
    Completes s t (.mld t f) ((s.pkg.setThr t ((s.pkg.thr t).addBg f.tag.toNat ((encode (.mld t f)).getD 0)
      (.remote (pieces (rlLen ((s.pkg.thr t).rs f.rl.toNat))).length))).remoteRead t (s.pkg.thr t).bgNext
        (rlFab ((s.pkg.thr t).rs f.rl.toNat)) (effAddr (s.pkg.thr t) f) ((s.pkg.thr t).rs f.rs.toNat).toNat
        (rlLen ((s.pkg.thr t).rs f.rl.toNat)) f.hint.toNat) := by
  refine completes_of_ok rfl h ((needTag_free hfree _ _).trans ?_)
  simp only [hr, if_true, moveTests_ok ho ht hsp]

/-- R238: a remote MST is an effect of the open group. -/
theorem completes_mst_remote (h : Issues s.pkg t (.mst t f))
    (hsp : s.pkg.spTest t ((s.pkg.thr t).rs f.rs.toNat).toNat (rlLen ((s.pkg.thr t).rs f.rl.toNat)) false = none)
    (hq : s.pkg.seqOpen t = false) (hg : (s.pkg.thr t).grp.length < 64)
    (hb : (s.pkg.thr t).grpBytes + rlLen ((s.pkg.thr t).rs f.rl.toNat) ≤ 0x20_0000) :
    Completes s t (.mst t f) (s.pkg.setThr t (Thr.addBg { s.pkg.thr t with
      grp := (s.pkg.thr t).grp ++ [.write (rlFab ((s.pkg.thr t).rs f.rl.toNat)) (effAddr (s.pkg.thr t) f) ((s.pkg.thr t).rs f.rs.toNat).toNat
        (rlLen ((s.pkg.thr t).rs f.rl.toNat)) f.hint.toNat]
      grpBytes := (s.pkg.thr t).grpBytes + rlLen ((s.pkg.thr t).rs f.rl.toNat) } f.tag.toNat ((encode (.mst t f)).getD 0) (.staged none))) := by
  refine completes_of_ok rfl h ((needTag_free hfree _ _).trans ?_)
  simp only [hr, if_true, moveTests_ok ho ht hsp, stageEff_ok hq hg hb]

end Remote
end Moves

end Memory

/-- Settles O5: each move, local and remote. -/
theorem memoryInstructions : Obligations.MemoryInstructions := by
  refine ⟨fun s t f => ⟨fun h ht => ⟨completes_lds_window h ht, waits_lds_stack h ht⟩, fun hfree => ⟨?_, ?_, ?_⟩⟩,
    fun s t f hfree => ⟨?_, fun hq hg => ⟨?_, ?_⟩⟩⟩
  · exact fun hl h ht => completes_sts_local h hfree hl ht
  · exact fun hl h ho ht hsp => completes_mld_local hfree ho hl h ht hsp
  · exact fun hl h ho ht hsp => completes_mst_local hfree ho hl h ht hsp
  · exact fun hr h ho ht hsp => completes_mld_remote hfree ho hr ht h hsp
  · exact fun hr h ht hb => completes_sts_remote h hfree hr ht hq hg hb
  · exact fun hr h ho ht hsp hb => completes_mst_remote hfree ho hr ht h hsp hq hg hb

/-! ## PREF and the stash -/

section PrefetchAndStash
variable {s : State} {t : ThreadId} {f : FmtM}

/-- R296: PREF of a resident local range touches the cache, and its last use leaves the lines undefined. -/
theorem completes_pref (h : Issues s.pkg t (.pref t f)) (hl : s.pkg.isRemote (rlFab ((s.pkg.thr t).rs f.rl.toNat)) = false)
    (ht : s.pkg.memTest t (effAddr (s.pkg.thr t) f) (rlLen ((s.pkg.thr t).rs f.rl.toNat)) false = none)
    (ha : isStackAddr (effAddr (s.pkg.thr t) f) = true)
    (hs : s.pkg.stackTest (effAddr (s.pkg.thr t) f) (rlLen ((s.pkg.thr t).rs f.rl.toNat)) = .ok) :
    Completes s t (.pref t f) ((s.pkg.devTouch (effAddr (s.pkg.thr t) f) (rlLen ((s.pkg.thr t).rs f.rl.toNat)) false f.hint.toNat).lastUse
      f.hint.toNat (effAddr (s.pkg.thr t) f) (rlLen ((s.pkg.thr t).rs f.rl.toNat))) :=
  completes_of_ok rfl h (by simp only [hl, ht, ha, hs, Bool.false_eq_true, if_false, Bool.not_true, Bool.or_self, bne_self_eq_false])

/-- Micro-batch of a thread's item, of its entry of the table when it has one. -/
def Pkg.mbOf (p : Pkg) (t : Nat) : Nat := match p.theItem t with | some i => dMb i.desc | none => 0

section StashAlloc
variable (h : Issues s.pkg t (.stashAlloc t f)) (h8 : rlLen ((s.pkg.thr t).rs f.rl.toNat) % 8 = 0)
  (hl : 8 ≤ rlLen ((s.pkg.thr t).rs f.rl.toNat)) (hu : rlLen ((s.pkg.thr t).rs f.rl.toNat) ≤ 4128768) {q : Pkg}
include h h8 hl hu

/-- R79: an allocation answers its address. -/
theorem completes_stashAlloc_addr {x : Nat} (ha : s.pkg.stashAlloc (s.pkg.thr t).slot (s.pkg.mbOf t) (fld ((s.pkg.thr t).rs f.rl.toNat).toNat 32 16)
      (fld ((s.pkg.thr t).rs f.rl.toNat).toNat 48 1) (ceilDiv (rlLen ((s.pkg.thr t).rs f.rl.toNat)) 65536) = (.addr x, q)) :
    Completes s t (.stashAlloc t f) (q.modThr t fun th => th.setS f.rs.toNat (BitVec.ofNat 64 x)) := by
  refine completes_of_ok rfl h ((if_neg (by simp [h8])).trans ((if_neg (by simp; omega)).trans ?_))
  unfold Pkg.mbOf at ha
  cases hi : s.pkg.theItem t
  all_goals
    simp only [hi] at ha
    simp only [ha, Pkg.modThr_eq]

/-- R80: an answer of recompute is 0 and sets STASH_RC. -/
theorem completes_stashAlloc_recompute (ha : s.pkg.stashAlloc (s.pkg.thr t).slot (s.pkg.mbOf t) (fld ((s.pkg.thr t).rs f.rl.toNat).toNat 32 16)
      (fld ((s.pkg.thr t).rs f.rl.toNat).toNat 48 1) (ceilDiv (rlLen ((s.pkg.thr t).rs f.rl.toNat)) 65536) = (.recompute, q)) :
    Completes s t (.stashAlloc t f) (q.modThr t fun th => { th.setS f.rs.toNat 0 with st := th.st ||| 2#64 }) := by
  refine completes_of_ok rfl h ((if_neg (by simp [h8])).trans ((if_neg (by simp; omega)).trans ?_))
  unfold Pkg.mbOf at ha
  cases hi : s.pkg.theItem t
  all_goals
    simp only [hi] at ha
    simp only [ha, Pkg.modThr_eq]

end StashAlloc

section StashFind
variable (h : Issues s.pkg t (.stashFind t f))
include h

/-- R81: the address of the micro-batch's allocation, once its pages are here. -/
theorem completes_stashFind_some {x : StashAlloc} (ha : (s.pkg.slot (s.pkg.thr t).slot).stashOf (s.pkg.mbOf t)
      (fld ((s.pkg.thr t).rs f.rl.toNat).toNat 32 16) (fld ((s.pkg.thr t).rs f.rl.toNat).toNat 48 1) = some x) (hx : x.spilled = false) :
    Completes s t (.stashFind t f) (s.pkg.setThr t ((s.pkg.thr t).setS f.rs.toNat
      (BitVec.ofNat 64 ((s.pkg.slot (s.pkg.thr t).slot).stashBase + x.first * 65536)))) := by
  refine completes_of_ok rfl h ?_
  unfold Pkg.mbOf at ha
  cases hi : s.pkg.theItem t
  all_goals
    simp only [hi] at ha
    simp only [ha, hx, Bool.false_eq_true, if_false, Pkg.modThr_eq]

theorem completes_stashFind_none (ha : (s.pkg.slot (s.pkg.thr t).slot).stashOf (s.pkg.mbOf t)
      (fld ((s.pkg.thr t).rs f.rl.toNat).toNat 32 16) (fld ((s.pkg.thr t).rs f.rl.toNat).toNat 48 1) = none) :
    Completes s t (.stashFind t f) (s.pkg.setThr t ((s.pkg.thr t).setS f.rs.toNat 0)) := by
  refine completes_of_ok rfl h ?_
  unfold Pkg.mbOf at ha
  cases hi : s.pkg.theItem t
  all_goals
    simp only [hi] at ha
    simp only [ha, Pkg.modThr_eq]

end StashFind
end PrefetchAndStash

/-- Settles O6: PREF, and the stash's two instructions by what the stash answers. -/
theorem prefetchAndStash : Obligations.PrefetchAndStash := by
  intro s t f
  exact ⟨completes_pref, fun h h8 hl hu => ⟨fun _ _ => completes_stashAlloc_addr h h8 hl hu, fun _ => completes_stashAlloc_recompute h h8 hl hu⟩,
    fun h => ⟨fun _ => completes_stashFind_some h, completes_stashFind_none h⟩⟩

end Sys2Proof.Machine
end

