-- ==== Sys2Proof/Proofs/TileClass.lean ====
section
/-! The tile class (R162, R175, R180, R182, R183): a tile operation whose descriptor passes its tests opens or joins a sequence or
faults its thread; the obligation settled from it. -/

namespace Sys2Proof.Machine

/-- The operation that an instruction of thread `t` asks of the engine. -/
def Pkg.tileOpOf (p : Pkg) (t : Nat) (gemv : Bool) (i : Instr) (d : Rec) : TileOp :=
  { thr := t, gemv := gemv, desc := d, pc := (p.thr t).pc.toNat, inst := (encode i).getD 0
    snap := if bit d 330 then some (snapOf (p.thr t) ((p.thr t).pc + 1)) else none }

/-- Widening the region leaves the operations that run. -/
theorem CoreS.running_widen (c : CoreS) (op : TileOp) : (c.widen op).running = c.running := by
  unfold CoreS.widen
  split <;> rfl

section TileIssue
variable {p : Pkg} {t : Nat} {gemv : Bool} {i : Instr} {f : FmtD} {d : Rec}
variable (hd : descTest (coreOf t) ((p.thr t).ra f.ar.toNat).toNat 64 = none)
  (hb : p.spBadIn (coreOf t) (windowOff ((p.thr t).ra f.ar.toNat).toNat) 64 = false)
  (ht : p.tileTest t gemv (p.num ((p.thr t).ra f.ar.toNat).toNat 64) = none)
include hd hb ht

/-- R182: a START on a free engine opens a sequence. -/
theorem Pkg.tileIssue_start (ho : (p.core (coreOf t)).owner = none) (hs : bit (p.num ((p.thr t).ra f.ar.toNat).toNat 64) 330 = true) :
    p.tileIssue t gemv i f (p.thr t) = .ok ((p.spRead (coreOf t) (windowOff ((p.thr t).ra f.ar.toNat).toNat) 64).takeStart (coreOf t)
      (p.tileOpOf t gemv i (p.num ((p.thr t).ra f.ar.toNat).toNat 64))) := by
  simp [Pkg.tileIssue, Pkg.tileOpOf, hd, hb, ht, ho, hs]

/-- R183: an operation that opens nothing and owns nothing faults. -/
theorem Pkg.tileIssue_stranger (ho : (p.core (coreOf t)).owner = none) (hs : bit (p.num ((p.thr t).ra f.ar.toNat).toNat 64) 330 = false)
    (hp : ((p.core (coreOf t)).parked.any fun o => o.thr == t) = false) : p.tileIssue t gemv i f (p.thr t) = .fault fEngineOwner := by
  simp [Pkg.tileIssue, hd, hb, ht, ho, hs, hp]

/-- R162: an operation of the owner joins the running ones. -/
theorem Pkg.tileIssue_join (ho : (p.core (coreOf t)).owner = some t) (hw : (p.core (coreOf t)).swap = none)
    (hr : (p.core (coreOf t)).running ≠ []) :
    p.tileIssue t gemv i f (p.thr t) = .ok ((p.spRead (coreOf t) (windowOff ((p.thr t).ra f.ar.toNat).toNat) 64).setCore (coreOf t)
      { (p.core (coreOf t)).widen (p.tileOpOf t gemv i (p.num ((p.thr t).ra f.ar.toNat).toNat 64)) with
        running := (p.core (coreOf t)).running ++ [p.tileOpOf t gemv i (p.num ((p.thr t).ra f.ar.toNat).toNat 64)] }) := by
  simp [Pkg.tileIssue, Pkg.tileOpOf, hd, hb, ht, ho, hw, hr, CoreS.running_widen]

end TileIssue

/-- The rows of the tile operations have one shape (R162, R180). -/
theorem exec_tileRow (t : ThreadId) (f : FmtD) : ∀ r ∈ ([(.tmma, false), (.tgemv, true)] : List ((ThreadId → FmtD → Instr) × Bool)),
    ∀ s, exec (r.1 t f) s = s.run fun p => p.issue t (r.1 t f) fun p th => p.tileIssue t r.2 (r.1 t f) f th :=
  List.forall_mem_cons.mpr ⟨fun _ => rfl, List.forall_mem_singleton.mpr fun _ => rfl⟩

/-- R175: ACC_SWAP of the owner leaves a swap to the engine, its drain on TAG. -/
theorem completes_accSwap {s : State} {t : ThreadId} {f : FmtD} (h : Issues s.pkg t (.accSwap t f))
    (hfree : (s.pkg.thr t).tagPending f.tag.toNat = false) (ho : (s.pkg.core (coreOf t)).owner = some t.val)
    (hw : (s.pkg.core (coreOf t)).swap = none) (hd : descTest (coreOf t) ((s.pkg.thr t).ra f.ar.toNat).toNat 64 = none)
    (hb : s.pkg.spBadIn (coreOf t) (windowOff ((s.pkg.thr t).ra f.ar.toNat).toNat) 64 = false) :
    let c := s.pkg.core (coreOf t)
    let k : Drain := { thr := t, tag := f.tag.toNat, desc := s.pkg.num ((s.pkg.thr t).ra f.ar.toNat).toNat 64, pc := (s.pkg.thr t).pc.toNat
                       inst := (encode (.accSwap t f)).getD 0, bgId := (s.pkg.thr t).bgNext, rows := c.region.1, cols := c.region.2
                       gemvRows := c.seqGemv }
    s.pkg.drainTest t k = none →
    Completes s t (.accSwap t f) (((s.pkg.spRead (coreOf t) (windowOff ((s.pkg.thr t).ra f.ar.toNat).toNat) 64).setThr t
      ((s.pkg.thr t).addBg f.tag.toNat k.inst .engine)).modCore (coreOf t) fun c => { c with swap := some k }) := by
  intro c k ht
  refine completes_of_ok rfl h ((needTag_free hfree _ _).trans ?_)
  simp only [ho, hw, hd, hb, beq_self_eq_true, Bool.not_false, Bool.and_self, Bool.not_true, Bool.false_eq_true, if_false]
  simp only [k, c] at ht
  rw [ht]

/-- Settles O7: the tile operations by the state of their core's engine, and the owner's swap. -/
theorem tileIssue : Obligations.TileIssue := by
  intro s t f r hr p th g c addr d hd hb
  have he := exec_tileRow t f r hr s
  refine ⟨fun h ht => ⟨fun ho => ⟨fun hs => ?start, fun hs hp => ?stranger⟩, fun ho hw _ hrun => ?join⟩, fun h hfree ho hw => ?swap⟩
  case start => exact completes_of_ok he h (Pkg.tileIssue_start hd hb ht ho hs)
  case stranger => exact traps_of_fault he h (Pkg.tileIssue_stranger hd hb ht ho hs hp)
  case join => exact completes_of_ok he h (Pkg.tileIssue_join hd hb ht ho hw hrun)
  case swap => exact completes_accSwap h hfree ho hw hd hb

end Sys2Proof.Machine
end

