-- ==== Sys2Proof/Proofs/VectorClass.lean ====
section
/-! The vector class and format V of the random class (R189, R190, R225, R233): every operation enters the engine with its own
sources, offsets, format, mask and shape; the obligation settled from it. -/

namespace Sys2Proof.Machine

/-! ## Operands of format V -/

/-- Value of a source of format V: absent past the operation's count, a channel register's number, or a register's contents. -/
def srcVal (used : Bool) (k : BitVec 2) (r : BitVec 5) (v : W64) : Nat := if used then (if k = 2 then r.toNat else v.toNat) else 0

theorem toNat_srcVal (used : Prop) [Decidable used] (k : BitVec 2) (r : BitVec 5) (v : W64) :
    (if used then (if k = 2 then BitVec.ofNat 64 r.toNat else v) else 0 : W64).toNat = srcVal used k r v := by
  simp only [srcVal, decide_eq_true_eq]
  split
  · split
    · exact (BitVec.toNat_ofNat _ 64).trans (Nat.mod_eq_of_lt (Nat.lt_trans r.isLt (by decide)))
    · rfl
  · rfl

/-- R225: an offset below 2^22 passes. -/
theorem offTest_ok {v : W64} (h : v.toNat < 2 ^ 22) : offTest v = none := if_pos h

theorem offTest_stream {c : Prop} [Decidable c] {v : W64} (h : c → v.toNat < 2 ^ 22) : (if c then offTest v else none) = none := by
  split
  · exact offTest_ok (h ‹_›)
  · rfl

/-- The operation that an instruction of format V, of class `cls`, operation `opc` and n sources, asks of the engine. -/
def Pkg.vecOpOf (p : Pkg) (t : Nat) (i : Instr) (cls opc n : Nat) (f : FmtV) : VecOp :=
  let th := p.thr t
  let d := if f.shape then p.num (th.ra f.x.toNat).toNat 32 else 0
  let x := (th.rs f.x.toNat).toNat
  { thr := t, cls := cls, opc := opc, bgId := th.bgNext, tag := f.tag.toNat, pc := th.pc.toNat, inst := (encode i).getD 0
    fmt := f.fmt.toNat, d := (th.rs f.d.toNat).toNat, av := srcVal (decide (0 < n)) f.aK f.a (th.rs f.a.toNat)
    bv := srcVal (decide (1 < n)) f.bK f.b (th.rs f.b.toNat), cv := srcVal (decide (2 < n)) f.cK f.c (th.rs f.c.toNat)
    ak := if 0 < n then f.aK.toNat else 1, bk := if 1 < n then f.bK.toNat else 1, ck := if 2 < n then f.cK.toNat else 1
    vl := th.vl.toNat, rows := if f.shape then fld d 0 16 + 1 else 1, shaped := f.shape, shape := d, msk := f.msk.toNat, vm := th.vm
    nfx := f.nfx, elemBase := if f.shape then fld d 96 32 else fld x 0 32, stag := if f.shape then fld d 128 32 else fld x 32 32 }

/-- Nothing read leaves the package as it is. -/
theorem Pkg.spRead_nothing (p : Pkg) (g off : Nat) : p.spRead g off 0 = p := if_pos rfl

/-- R214: reading the scratchpad counts corrected words and takes a free value. -/
theorem Pkg.spRead_eq (p : Pkg) (g off n : Nat) : ∃ m cs fs, p.spRead g off n = { p with free := m, ctrs := cs, flags := fs } := by
  simp only [Pkg.spRead]
  split
  · exact ⟨p.free, p.ctrs, p.flags, rfl⟩
  · split
    · exact ⟨_, p.ctrs, p.flags, rfl⟩
    · exact ⟨_, _, _, rfl⟩

theorem Pkg.spRead_thr (p : Pkg) (g off n t : Nat) : (p.spRead g off n).thr t = p.thr t := by
  obtain ⟨m, cs, fs, h⟩ := p.spRead_eq g off n
  rw [h]; rfl

theorem Pkg.spRead_seqOpen (p : Pkg) (g off n t : Nat) : (p.spRead g off n).seqOpen t = p.seqOpen t := by
  obtain ⟨m, cs, fs, h⟩ := p.spRead_eq g off n
  rw [h]; rfl

/-! ## One instruction of format V -/

section Vec
variable {s : State} {t : ThreadId} {i : Instr} {cls opc n : Nat} {f : FmtV}
variable (he : exec i s = s.vec t i cls opc n f) (h : Issues s.pkg t i) (hfree : (s.pkg.thr t).tagPending f.tag.toNat = false)
include he h hfree

/-- R190: a vector length above its limit faults. -/
theorem traps_vec_length (hvl : 1048576 < (s.pkg.thr t).vl.toNat) : Traps s t i fIllegalOperand :=
  traps_of_fault he h ((needTag_free hfree _ _).trans (if_pos hvl))

/-- R190: an operation of length 0 is done at once. -/
theorem completes_vec_empty (hvl : (s.pkg.thr t).vl = 0) : Completes s t i (s.pkg.vecDone (coreOf t) 0 8) :=
  completes_of_ok he h ((needTag_free hfree _ _).trans ((if_neg (by simp [hvl])).trans (if_pos hvl)))

/-- R233: an operation whose operands pass their tests enters the engine. -/
theorem completes_vec (hpos : 0 < (s.pkg.thr t).vl.toNat) (hmax : (s.pkg.thr t).vl.toNat ≤ 1048576)
    (hd : ((s.pkg.thr t).rs f.d.toNat).toNat < 2 ^ 22)
    (hshape : (if f.shape then s.pkg.shapeTest (coreOf t) ((s.pkg.thr t).ra f.x.toNat).toNat (cls == 5 && opc == 42)
      (decide (0 < n) && f.aK == 2) ((decide (1 < n) && f.bK == 2) || (decide (2 < n) && f.cK == 2)) else none) = none)
    (hbad : (f.shape && s.pkg.spBadIn (coreOf t) (windowOff ((s.pkg.thr t).ra f.x.toNat).toNat) 32) = false)
    (ha : (s.pkg.vecOpOf t i cls opc n f).ak = 0 → (s.pkg.vecOpOf t i cls opc n f).av < 2 ^ 22)
    (hb : (s.pkg.vecOpOf t i cls opc n f).bk = 0 → (s.pkg.vecOpOf t i cls opc n f).bv < 2 ^ 22)
    (hc : (s.pkg.vecOpOf t i cls opc n f).ck = 0 → (s.pkg.vecOpOf t i cls opc n f).cv < 2 ^ 22)
    (hdrop : cls = 8 → opc = 2 → (s.pkg.vecOpOf t i cls opc n f).bv ≤ 65535 ∧ (s.pkg.vecOpOf t i cls opc n f).cv < 2 ^ 32)
    (ht : s.pkg.vecTest t (s.pkg.vecOpOf t i cls opc n f) = none) :
    Completes s t i ((s.pkg.spRead (coreOf t) (windowOff ((s.pkg.thr t).ra f.x.toNat).toNat) (if f.shape then 32 else 0)).vecIssue t
      (s.pkg.vecOpOf t i cls opc n f)) := by
  have hvl : (s.pkg.thr t).vl ≠ 0 := fun h0 => by simp [h0] at hpos
  refine completes_of_ok he h ((needTag_free hfree _ _).trans ((if_neg (Nat.not_lt.mpr hmax)).trans ((if_neg hvl).trans ?_)))
  simp only [Pkg.vecOpOf, ← toNat_srcVal] at ha hb hc hdrop ht ⊢
  simp only [Bool.beq_eq_decide_eq] at hshape
  simp only [Bool.beq_eq_decide_eq, hshape, offTest_ok hd, offTest_stream ha, offTest_stream hb, offTest_stream hc, firstFault_none_cons, firstFault_nil,
    hbad, ht, Bool.false_eq_true, if_false]
  refine if_neg fun hx => ?_
  simp only [Bool.and_eq_true, Bool.or_eq_true, decide_eq_true_eq] at hx
  obtain ⟨⟨h8, h2⟩, hx⟩ := hx
  obtain ⟨hle, hlt⟩ := hdrop h8 h2
  omega

end Vec

/-- Arithmetic, logic, comparison and selection by lane (Table 8.15), with class, operation and number of sources. -/
def vecLaneRows : List ((ThreadId → FmtV → Instr) × Nat × Nat × Nat) :=
  [(.vAdd, 5, 0, 2), (.vSub, 5, 1, 2), (.vMul, 5, 2, 2), (.vFma, 5, 3, 3), (.vFms, 5, 4, 3), (.vNeg, 5, 5, 1), (.vAbs, 5, 6, 1),
   (.vMin, 5, 7, 2), (.vMax, 5, 8, 2), (.vAdds, 5, 9, 2), (.vSubs, 5, 10, 2), (.vAnd, 5, 11, 2), (.vOr, 5, 12, 2), (.vXor, 5, 13, 2),
   (.vShl, 5, 14, 2), (.vShr, 5, 15, 2), (.vSar, 5, 16, 2), (.vCmpeq, 5, 17, 2), (.vCmplt, 5, 18, 2), (.vCmple, 5, 19, 2),
   (.vCmpun, 5, 20, 2), (.vSel, 5, 21, 3)]

/-- Functions and their derivatives, reductions and moves (Table 8.15). -/
def vecFunctionRows : List ((ThreadId → FmtV → Instr) × Nat × Nat × Nat) :=
  [(.vDiv, 5, 22, 2), (.vRcp, 5, 23, 1), (.vSqrt, 5, 24, 1), (.vRsqrt, 5, 25, 1), (.vExp, 5, 26, 1), (.vExp2, 5, 27, 1),
   (.vLog, 5, 28, 1), (.vLog2, 5, 29, 1), (.vTanh, 5, 30, 1), (.vSigmoid, 5, 31, 1), (.vSilu, 5, 32, 1), (.vGelu, 5, 33, 1),
   (.vGeluT, 5, 34, 1), (.vSoftplus, 5, 35, 1), (.vSin, 5, 36, 1), (.vCos, 5, 37, 1), (.vDrelu, 5, 38, 2), (.vDsigmoid, 5, 39, 2),
   (.vDtanh, 5, 40, 2), (.vDexp, 5, 41, 2), (.vDsoftmax, 5, 42, 2), (.vDsilu, 5, 43, 2), (.vDgelu, 5, 44, 2), (.vDgeluT, 5, 45, 2),
   (.vDsoftplus, 5, 46, 2), (.vSum, 5, 47, 1), (.vDot, 5, 48, 2), (.vMaxi, 5, 49, 1), (.vMini, 5, 50, 1), (.vMov, 5, 51, 1)]

/-- The random class's operations of format V (Table 8.16). -/
def vecRandomRows : List ((ThreadId → FmtV → Instr) × Nat × Nat × Nat) :=
  [(.rndu, 8, 0, 0), (.rndb, 8, 1, 0), (.drop, 8, 2, 3)]

theorem exec_vecLaneRows (s : State) (t : ThreadId) (f : FmtV) : ∀ r ∈ vecLaneRows, exec (r.1 t f) s = s.vec t (r.1 t f) r.2.1 r.2.2.1 r.2.2.2 f := by
  unfold vecLaneRows
  repeat refine List.forall_mem_cons.mpr ⟨rfl, ?_⟩
  exact fun _ h => absurd h List.not_mem_nil

theorem exec_vecFunctionRows (s : State) (t : ThreadId) (f : FmtV) : ∀ r ∈ vecFunctionRows, exec (r.1 t f) s = s.vec t (r.1 t f) r.2.1 r.2.2.1 r.2.2.2 f := by
  unfold vecFunctionRows
  repeat refine List.forall_mem_cons.mpr ⟨rfl, ?_⟩
  exact fun _ h => absurd h List.not_mem_nil

theorem exec_vecRandomRows (s : State) (t : ThreadId) (f : FmtV) : ∀ r ∈ vecRandomRows, exec (r.1 t f) s = s.vec t (r.1 t f) r.2.1 r.2.2.1 r.2.2.2 f := by
  unfold vecRandomRows
  repeat refine List.forall_mem_cons.mpr ⟨rfl, ?_⟩
  exact fun _ h => absurd h List.not_mem_nil

/-- The statement's spelling of the operation. -/
theorem Pkg.vecOpOf_eq (p : Pkg) (t : Nat) (i : Instr) (cls opc n : Nat) (f : FmtV) : p.vecOpOf t i cls opc n f =
    (let th := p.thr t
     let x := (th.rs f.x.toNat).toNat
     let d := if f.shape then p.num (th.ra f.x.toNat).toNat 32 else 0
     let src (k : Nat) (kind : BitVec 2) (v : BitVec 5) : Nat := if k < n then (if kind = 2 then v.toNat else (th.rs v.toNat).toNat) else 0
     { thr := t, cls := cls, opc := opc, bgId := th.bgNext, tag := f.tag.toNat, pc := th.pc.toNat, inst := (encode i).getD 0
       fmt := f.fmt.toNat, d := (th.rs f.d.toNat).toNat, av := src 0 f.aK f.a, bv := src 1 f.bK f.b, cv := src 2 f.cK f.c
       ak := if 0 < n then f.aK.toNat else 1, bk := if 1 < n then f.bK.toNat else 1, ck := if 2 < n then f.cK.toNat else 1
       vl := th.vl.toNat, rows := if f.shape then fld d 0 16 + 1 else 1, shaped := f.shape, shape := d, msk := f.msk.toNat, vm := th.vm
       nfx := f.nfx, elemBase := if f.shape then fld d 96 32 else fld x 0 32, stag := if f.shape then fld d 128 32 else fld x 32 32 }) := by
  simp only [Pkg.vecOpOf, srcVal, decide_eq_true_eq]

/-- Settles O8: every row is `State.vec` at its own class, operation and number of sources. -/
theorem vectorIssue : Obligations.VectorIssue := by
  intro s t f r hr
  have he : exec (r.1 t f) s = s.vec t (r.1 t f) r.2.1 r.2.2.1 r.2.2.2 f :=
    List.forall_mem_append.mpr ⟨exec_vecLaneRows s t f, List.forall_mem_append.mpr ⟨exec_vecFunctionRows s t f, exec_vecRandomRows s t f⟩⟩ r hr
  clear hr
  intro p th g n xa x d src o h hfree
  have ho : o = s.pkg.vecOpOf t (r.1 t f) r.2.1 r.2.2.1 r.2.2.2 f := (Pkg.vecOpOf_eq ..).symm
  clear_value o
  rw [ho]
  refine ⟨completes_vec_empty he h hfree, traps_vec_length he h hfree, fun hpos hmax hsh hd ha hb hc hdrop ht => ?_,
    fun hpos hmax hsh hd hst hbad ha hb hc hdrop ht => ?_⟩
  · have hq := completes_vec he h hfree hpos hmax hd (if_neg (by simp [hsh])) (by simp [hsh]) ha hb hc hdrop ht
    rwa [if_neg (by simp [hsh]), Pkg.spRead_nothing] at hq
  · have hq := completes_vec he h hfree hpos hmax hd ((if_pos hsh).trans hst) (by simpa [hsh] using hbad) ha hb hc hdrop ht
    rwa [if_pos hsh] at hq

end Sys2Proof.Machine
end

