-- ==== Sys2Proof/Proofs/ConvertRandomClass.lean ====
section
/-! CVT (R198, R208, R526) and RNDX (R205): a conversion enters the vector engine; the outputs of an explicit stream are written in
order. The obligation settled from it. -/

namespace Sys2Proof.Machine

section Cvt
variable {s : State} {t : ThreadId} {f : FmtD}

/-- The conversion that CVT asks of the engine. -/
def Pkg.cvtOpOf (p : Pkg) (t : ThreadId) (f : FmtD) : VecOp :=
  let th := p.thr t
  let sh := if f.shape then p.num (th.ra f.ar2.toNat).toNat 32 else 0
  { thr := t, cls := 9, opc := 0, bgId := th.bgNext, tag := f.tag.toNat, pc := th.pc.toNat, inst := (encode (.cvt t f)).getD 0
    ak := 1, bk := 1, ck := 1, vl := th.vl.toNat, rows := if f.shape then fld sh 0 16 + 1 else 1, shaped := f.shape, shape := sh
    msk := f.msk.toNat, vm := th.vm, desc := p.num (th.ra f.ar.toNat).toNat 64 }

/-- R198: a conversion whose descriptor, shape and rows pass their tests enters the engine. -/
theorem completes_cvt (h : Issues s.pkg t (.cvt t f)) (hfree : (s.pkg.thr t).tagPending f.tag.toNat = false)
    (hpos : 0 < (s.pkg.thr t).vl.toNat) (hmax : (s.pkg.thr t).vl.toNat ≤ 1048576)
    (hd : descTest (coreOf t) ((s.pkg.thr t).ra f.ar.toNat).toNat 64 = none)
    (hsh : f.shape = true → s.pkg.shapeTest (coreOf t) ((s.pkg.thr t).ra f.ar2.toNat).toNat false true false = none ∧
      s.pkg.spBadIn (coreOf t) (windowOff ((s.pkg.thr t).ra f.ar2.toNat).toNat) 32 = false)
    (hb : s.pkg.spBadIn (coreOf t) (windowOff ((s.pkg.thr t).ra f.ar.toNat).toNat) 64 = false)
    (ht : s.pkg.cvtTest t (s.pkg.cvtOpOf t f) = none) :
    Completes s t (.cvt t f) (((s.pkg.spRead (coreOf t) (windowOff ((s.pkg.thr t).ra f.ar.toNat).toNat) 64).spRead (coreOf t)
      (windowOff ((s.pkg.thr t).ra f.ar2.toNat).toNat) (if f.shape then 32 else 0)).vecIssue t (s.pkg.cvtOpOf t f)) := by
  have hvl : (s.pkg.thr t).vl ≠ 0 := fun h0 => by simp [h0] at hpos
  have hshape : (if f.shape then s.pkg.shapeTest (coreOf t) ((s.pkg.thr t).ra f.ar2.toNat).toNat false true false else none) = none := by
    split
    · exact (hsh ‹_›).1
    · rfl
  have hbad : (s.pkg.spBadIn (coreOf t) (windowOff ((s.pkg.thr t).ra f.ar.toNat).toNat) 64 ||
      (f.shape && s.pkg.spBadIn (coreOf t) (windowOff ((s.pkg.thr t).ra f.ar2.toNat).toNat) 32)) = false := by
    rw [hb, Bool.false_or, Bool.and_eq_false_imp]
    exact fun hf => (hsh hf).2
  refine completes_of_ok rfl h ((needTag_free hfree _ _).trans ((if_neg (Nat.not_lt.mpr hmax)).trans ((if_neg hvl).trans ?_)))
  unfold Pkg.cvtOpOf at ht
  simp only [hd, hshape, firstFault_none_cons, firstFault_nil, hbad, ht, Bool.false_eq_true, if_false]
  rfl

end Cvt

section Rndx
variable {s : State} {t : ThreadId} {x : FmtS}

/-- What the item of thread `t` holds of stream `i`: its offset and base, 0 before its first draw. -/
def Pkg.streamEntry (p : Pkg) (t i : Nat) : Nat := match p.theItem t with | some y => tabGet 0 y.streams i | none => 0

/-- R205: RNDX writes the next outputs of the stream and moves the item's offset past them. -/
theorem completes_rndx {a : Nat} (h : Issues s.pkg t (.rndx t x)) (hq : s.pkg.seqOpen t = false)
    (hi : (opB (s.pkg.thr t) x).toNat < 64) (hk : 16 * ((s.pkg.thr t).rs x.rc.toNat).toNat ≤ 0x40_0000)
    (ha : s.pkg.streamAddr (s.pkg.thr t).ctx (opB (s.pkg.thr t) x).toNat = some a)
    (hsp : s.pkg.spTest t ((s.pkg.thr t).rs x.ra.toNat).toNat (16 * ((s.pkg.thr t).rs x.rc.toNat).toNat) true = none)
    (hh : s.pkg.streamHeld (s.pkg.thr t).ctx (opB (s.pkg.thr t) x).toNat (s.pkg.itemOf t) = false) :
    Completes s t (.rndx t x)
      ((s.pkg.modPos (s.pkg.itemOf t).1 (s.pkg.itemOf t).2 fun y => { y with
          streams := tabSet 0 y.streams (opB (s.pkg.thr t) x).toNat
            (put 64 128 (fld (s.pkg.streamEntry t (opB (s.pkg.thr t) x).toNat) 64 128) +
              put 0 64 (fld (s.pkg.streamEntry t (opB (s.pkg.thr t) x).toNat) 0 64 - 1 + ((s.pkg.thr t).rs x.rc.toNat).toNat + 1)) }).spStore
        (coreOf t) ((s.pkg.thr t).rs x.ra.toNat).toNat
        ((List.range ((s.pkg.thr t).rs x.rc.toNat).toNat).map fun j => toLe 16 (gen (s.pkg.loadNum a 16)
          ((fld (s.pkg.streamEntry t (opB (s.pkg.thr t) x).toNat) 64 128 + (fld (s.pkg.streamEntry t (opB (s.pkg.thr t) x).toNat) 0 64 - 1) + j) %
            2 ^ 128))).flatten) := by
  have hlim : (decide (63 < (opB (s.pkg.thr t) x).toNat) || decide (0x40_0000 < 16 * ((s.pkg.thr t).rs x.rc.toNat).toNat)) = false := by
    simp only [Bool.or_eq_false_iff, decide_eq_false_iff_not]
    omega
  refine completes_of_ok rfl h ?_
  cases hy : s.pkg.theItem t <;>
    simp only [hq, hlim, ha, hsp, hh, hy, Pkg.streamEntry, Bool.false_eq_true, if_false]

end Rndx

/-- Settles O9: a conversion that passes its tests, and the draws of an explicit stream. -/
theorem convertAndRandom : Obligations.ConvertAndRandom := by
  intro s t f x
  refine ⟨fun h hfree hpos hmax hd hsh hb ht => ?_, fun a h hq hi hk ha hsp hh => ?_⟩
  · exact completes_cvt h hfree hpos hmax hd hsh hb ht
  · exact completes_rndx h hq hi hk ha hsp hh

end Sys2Proof.Machine
end

