-- ==== Sys2Proof/Proofs/SyncClass.lean ====
section
/-! The sump and sync classes (R235, R238, R266, R274): effects staged in the open group, and requests that a thread waits for; the
obligation settled from it. -/

namespace Sys2Proof.Machine

section Sync
variable {s : State} {t : ThreadId} {f : FmtS}

/-- A designator whose reserved bits are 0 passes (R274). -/
theorem desigOk_of_zero {d : Nat} (h : fld d 12 4 = 0 ∧ fld d 40 24 = 0) : desigOk d = true := by
  simp [desigOk, h.1, h.2]

/-- R274: what a sync effect answers, staged or refused by the group's limits. -/
theorem stageSync_eq {p : Pkg} {t op d a b : Nat} (hq : p.seqOpen t = false) (hd : fld d 12 4 = 0 ∧ fld d 40 24 = 0) :
    stageSync p t op d a b = stageEff p t (.sync op d a b) 0 id := by
  simp [stageSync, hq, desigOk_of_zero hd]

/-- R274: READ and WAIT send their request and wait. -/
theorem askSync_eq {p : Pkg} {t op d a : Nat} {th : Thr} {rd : Option Nat} (hq : p.seqOpen t = false) (hd : fld d 12 4 = 0 ∧ fld d 40 24 = 0) :
    askSync p t th op d a rd =
      .wait (p.request (p.mkPkt (fld d 16 24) 6 th.slot (syncSpec (fld d 0 12) op (coreOf t) (threadIn t) th.ctx) (toLe 8 a)) (.sync t)).2
        (.sync (p.request (p.mkPkt (fld d 16 24) 6 th.slot (syncSpec (fld d 0 12) op (coreOf t) (threadIn t) th.ctx) (toLe 8 a)) (.sync t)).1 rd) := by
  simp [askSync, hq, desigOk_of_zero hd]

/-- R266: SUMP_ADD stages its contribution; the header passed has been read. -/
theorem completes_sumpAdd (hq : s.pkg.seqOpen t = false) (hg : (s.pkg.thr t).grp.length < 64) (h : Issues s.pkg t (.sumpAdd t f))
    (hd : ((s.pkg.thr t).rs f.ra.toNat).toNat < 2 ^ 29) (hl : 68 ≤ ((s.pkg.thr t).rs f.rc.toNat).toNat)
    (hu : ((s.pkg.thr t).rs f.rc.toNat).toNat ≤ 2097152)
    (hb : (s.pkg.thr t).grpBytes + ((s.pkg.thr t).rs f.rc.toNat).toNat ≤ 0x20_0000)
    (ht : s.pkg.spTest t (opB (s.pkg.thr t) f).toNat ((s.pkg.thr t).rs f.rc.toNat).toNat false = none)
    (hbad : s.pkg.spBadIn (coreOf t) (opB (s.pkg.thr t) f).toNat 64 = false)
    (he : sumpElt (fld (s.pkg.spNum (coreOf t) (opB (s.pkg.thr t) f).toNat 64) 40 2) ≠ 0)
    (hm : (((s.pkg.thr t).rs f.rc.toNat).toNat - 64) % sumpElt (fld (s.pkg.spNum (coreOf t) (opB (s.pkg.thr t) f).toNat 64) 40 2) = 0) :
    Completes s t (.sumpAdd t f) ((s.pkg.spRead (coreOf t) (opB (s.pkg.thr t) f).toNat 64).setThr t { s.pkg.thr t with
      grp := (s.pkg.thr t).grp ++ [.sump ((s.pkg.thr t).rs f.ra.toNat).toNat (opB (s.pkg.thr t) f).toNat ((s.pkg.thr t).rs f.rc.toNat).toNat]
      grpBytes := (s.pkg.thr t).grpBytes + ((s.pkg.thr t).rs f.rc.toNat).toNat }) := by
  have hlim : (((s.pkg.thr t).rs f.ra.toNat).toNat / 2 ^ 29 != 0 || decide (((s.pkg.thr t).rs f.rc.toNat).toNat < 68) ||
      decide (2097152 < ((s.pkg.thr t).rs f.rc.toNat).toNat)) = false := by
    rw [Nat.div_eq_of_lt hd]
    simp only [bne_self_eq_false, Bool.false_or, Bool.or_eq_false_iff, decide_eq_false_iff_not]
    omega
  have hmod : (sumpElt (fld (s.pkg.spNum (coreOf t) (opB (s.pkg.thr t) f).toNat 64) 40 2) == 0 ||
      (((s.pkg.thr t).rs f.rc.toNat).toNat - 64) % sumpElt (fld (s.pkg.spNum (coreOf t) (opB (s.pkg.thr t) f).toNat 64) 40 2) != 0) = false := by
    simp [he, hm]
  have hstage := stageEff_ok (p := s.pkg.spRead (coreOf t) (opB (s.pkg.thr t) f).toNat 64)
    (e := .sump ((s.pkg.thr t).rs f.ra.toNat).toNat (opB (s.pkg.thr t) f).toNat ((s.pkg.thr t).rs f.rc.toNat).toNat) (k := id)
    ((s.pkg.spRead_seqOpen ..).trans hq) (by rw [Pkg.spRead_thr]; exact hg) (by rw [Pkg.spRead_thr]; exact hb)
  rw [Pkg.spRead_thr] at hstage
  refine completes_of_ok rfl h ?_
  simp only [hq, hlim, ht, hbad, Bool.false_eq_true, if_false, Bool.beq_eq_decide_eq] at hmod ⊢
  rw [hmod, hstage]
  rfl

end Sync

/-- Settles O11: effects staged while the group has room, a full group's fault, and the two requests. -/
theorem syncAndSumpIssue : Obligations.SyncAndSumpIssue := by
  intro s t f p th d b c stage desig ask hq
  refine ⟨fun hg => ⟨fun hd hb => ⟨fun h => ?signal, fun h => ?arm, fun h => ?cas⟩, fun h => ?sump⟩, fun hg hd => ?full, fun hd => ⟨fun h => ?wait, fun h => ?read⟩⟩
  case signal => exact completes_of_ok rfl h ((stageSync_eq hq hd).trans (stageEff_ok hq hg hb))
  case arm => exact completes_of_ok rfl h ((stageSync_eq hq hd).trans (stageEff_ok hq hg hb))
  case cas => exact completes_of_ok rfl h ((stageSync_eq hq hd).trans (stageEff_ok hq hg hb))
  case sump => exact fun hlt hl hu hb ht hbad he hm => completes_sumpAdd hq hg h hlt hl hu hb ht hbad he hm
  case full =>
    have hf {op a b : Nat} : stageSync p t op d a b = .fault fEffectLimit := (stageSync_eq hq hd).trans (stageEff_full hq (.inl (Nat.le_of_eq hg.symm)))
    exact List.forall_mem_cons.mpr ⟨fun h => traps_of_fault rfl h hf, List.forall_mem_cons.mpr ⟨fun h => traps_of_fault rfl h hf,
      List.forall_mem_singleton.mpr fun h => traps_of_fault rfl h hf⟩⟩
  case wait => exact issuesAndWaits_of_wait rfl h (askSync_eq hq hd)
  case read => exact issuesAndWaits_of_wait rfl h (askSync_eq hq hd)

end Sys2Proof.Machine
end

