-- ==== Sys2Proof/Proofs/CommitClass.lean ====
section
/-! The commit class and the thread's own ends (R218, R235, R236, R238, R243): COMMIT ships the open group, FENCE and WAITTAG complete or
wait, DONE ends the thread, YIELD gives the slot up; the obligation settled from it. -/

namespace Sys2Proof.Machine

section Commit
variable {s : State} {t : ThreadId} {f : FmtS}

/-- R235: FENCE completes when what it names is over. -/
theorem completes_fence (hq : s.pkg.seqOpen t = false) (h : Issues s.pkg t (.fence t f))
    (hw : s.pkg.waitOver t { s.pkg.thr t with wait := .fence f.imm.toNat } = true) : Completes s t (.fence t f) s.pkg :=
  completes_of_ok rfl h ((if_neg (by simp [hq])).trans (if_pos hw))

theorem mustWait_fence (hq : s.pkg.seqOpen t = false) (h : Issues s.pkg t (.fence t f))
    (hw : s.pkg.waitOver t { s.pkg.thr t with wait := .fence f.imm.toNat } = false) : MustWait s t (.fence t f) (.fence f.imm.toNat) :=
  mustWait_of_again rfl h ((if_neg (by simp [hq])).trans (if_neg (by simp [hw])))

/-- R243: DONE with an open group faults. -/
theorem traps_done (h : Issues s.pkg t (.done t f)) (hg : (s.pkg.thr t).grp ≠ []) : Traps s t (.done t f) fUncommitted :=
  traps_of_fault rfl h (if_pos (by simpa using hg))

theorem mustWait_done (h : Issues s.pkg t (.done t f)) (hg : (s.pkg.thr t).grp = []) (hp : (s.pkg.thr t).pend ≠ 0) :
    MustWait s t (.done t f) (.tags (s.pkg.thr t).pend) :=
  mustWait_of_again rfl h ((if_neg (by simp [hg])).trans (if_pos (by simpa using hp)))

theorem makes_done (h : Issues s.pkg t (.done t f)) (hg : (s.pkg.thr t).grp = []) (hp : (s.pkg.thr t).pend = 0) :
    Makes s (.done t f) ((((s.pkg.modThr t fun th => { th.goto (th.pc.toNat + 1) with
      doneFlag := true, state := .idle, wait := .none }).countIssue t false).tryEnd (s.pkg.itemOf t).1 (s.pkg.itemOf t).2).ctxEval
        (s.pkg.thr t).ctx).swapEval :=
  makes_of_stop rfl h ((if_neg (by simp [hg])).trans (if_neg (by simp [hp])))

/-- R218: YIELD moves the PC on and frees the issue slot. -/
theorem yields (h : Issues s.pkg t (.yield t f)) : ∃ q, exec (.yield t f) s = .next { s with pkg := q } ∧
    q.thr t = (s.pkg.thr t).goto (s.pkg.thr t).nextPc ∧ (∀ k : Nat, k ≠ t → q.thr k = s.pkg.thr k) ∧
    q.core (coreOf t) = (s.pkg.core (coreOf t)).issued (threadIn t) false := by
  refine ⟨_, makes_of_yield rfl h rfl, ?_⟩
  obtain ⟨cs, sl, hc, -, -⟩ := (s.pkg.modThr t fun th => th.goto (th.pc.toNat + 1)).countIssue_frame t false
  rw [hc, Pkg.modThr_eq]
  refine ⟨(s.pkg.thr_setThr t t _).trans (if_pos rfl), fun k hk => (s.pkg.thr_setThr t k _).trans (if_neg hk), ?_⟩
  exact (Pkg.core_setCore ..).trans (if_pos rfl)

end Commit

/-- Settles O12: each instruction by what it waits for. -/
theorem commitClass : Obligations.CommitClass := by
  intro s t f p th me st m ix grp
  refine ⟨fun h hq hst hbad => ?commit, fun h hq => ⟨completes_fence hq h, mustWait_fence hq h⟩,
    fun h => ⟨fun hz => completes_of_ok rfl h (if_pos hz), fun hz => mustWait_of_again rfl h (if_neg hz)⟩,
    fun h => ⟨traps_done h, mustWait_done h, makes_done h⟩, yields⟩
  case commit =>
    exact issuesAndWaits_of_wait rfl h ((if_neg (Bool.eq_false_iff.mp hq)).trans ((if_neg (Nat.not_lt.mpr (Nat.le_of_lt_succ hst))).trans
      (if_neg (Bool.eq_false_iff.mp hbad))))

end Sys2Proof.Machine
end

