-- ==== Sys2Proof/Proofs/ChannelClass.lean ====
section
/-! The channel class (R249 to R258): opening a connection, claiming an endpoint, sending, receiving, closing and polling; the
obligation settled from it. -/

namespace Sys2Proof.Machine

/-- A part of a field of 0 is 0. -/
theorem fld_inside_zero {d a n b m : Nat} (h : fld d a n = 0) (hab : a ≤ b) (hbm : b + m ≤ a + n) : fld d b m = 0 := by
  refine Nat.eq_of_testBit_eq fun i => ?_
  have hi := congrArg (Nat.testBit · (b - a + i)) h
  simp only [fld, Nat.testBit_mod_two_pow, Nat.testBit_shiftRight, Nat.zero_testBit, Bool.and_eq_false_imp, decide_eq_true_eq] at hi ⊢
  intro hm
  rw [← hi (by omega)]
  congr 1
  omega

section Open
variable {s : State} {t : ThreadId} {f : FmtS}

/-- CH_OPEN's two rows are one operation. -/
theorem exec_openRow (s : State) (t : ThreadId) (f : FmtS) : ∀ c ∈ ([.chOpen, .chOpenReader] : List (ThreadId → FmtS → Instr)),
    exec (c t f) s = s.run fun p => p.issue t (c t f) fun p th => chOpenAny p t th f ((encode (c t f)).getD 0) :=
  List.forall_mem_cons.mpr ⟨rfl, List.forall_mem_singleton.mpr rfl⟩

/-- R252: flags whose reserved bits are 0 choose the form by their READER bit. -/
theorem chOpenAny_eq {p : Pkg} {th : Thr} {w : W64} (h2 : fld (opB th f).toNat 2 6 = 0) (h28 : fld (opB th f).toNat 28 36 = 0) :
    chOpenAny p t th f w = if bit (opB th f).toNat 0 then claimEp p t th f w else openConn p t th f :=
  if_neg (by simp [h2, h28])

/-- R252, R254: a free entry opens towards its target. -/
theorem openConn_free {p : Pkg} {th : Thr} (hn : (th.rs f.rc.toNat).toNat < 32) (hc : fld (th.rs f.ra.toNat).toNat 24 9 < 384)
    (hz : fld (th.rs f.ra.toNat).toNat 62 2 = 0)
    (hu : fld (opB th f).toNat 8 20 = 0 ∨ (10 ≤ fld (opB th f).toNat 8 20 ∧ fld (opB th f).toNat 8 20 ≤ 1000000))
    (hs : (p.conn (coreOf t) (th.rs f.rc.toNat).toNat).state = 0) :
    openConn p t th f = .ok ((p.setConn (coreOf t) (th.rs f.rc.toNat).toNat {
      state := 1, item := p.itemOf t, target := th.rs f.ra.toNat, flags := opB th f
      opening := (p.conn (coreOf t) (th.rs f.rc.toNat).toNat).opening + 1 }).sendOpen (coreOf t) (th.rs f.rc.toNat).toNat) := by
  refine (if_neg ?_).trans (if_pos hs)
  simp only [hz, Bool.or_eq_true, Bool.and_eq_true, decide_eq_true_eq, bne_iff_ne, ne_eq, not_true_eq_false, or_false]
  omega

/-- R249: a free endpoint is claimed under the descriptor's key; what waited under it is answered. -/
theorem claimEp_free {p : Pkg} {th : Thr} {w : W64} {n off d : Nat} (hne : (th.rs f.rc.toNat).toNat = n) (hoe : (th.rs f.ra.toNat).toNat = off)
    (hde : p.spNum (coreOf t) off 32 = d) (hn : n < 32) (ht : p.spTest t off 32 false = none) (hb : p.spBadIn (coreOf t) off 32 = false)
    (h2 : fld d 2 6 = 0) (h32 : fld d 32 128 = 0) (h160 : fld d 160 96 = 0) (hk : fld d 8 24 ≠ 0) (h1 : bit d 1 = false)
    (hs : (p.ep (coreOf t) n).state ≠ 1) :
    claimEp p t th f w = .ok (((p.ep (coreOf t) n).pendingOpen.filter fun q => fld q.kspec.toNat 32 24 == fld d 8 24).foldl
      (fun p q => p.openReq (coreOf t) n q) ((p.spRead (coreOf t) off 32).setEp (coreOf t) n {
        state := 1, reader := some (p.itemOf t), multi := bit d 0, key := fld d 8 24, lastKey := (p.ep (coreOf t) n).lastKey
        pendingOpen := (p.ep (coreOf t) n).pendingOpen.filter fun q => fld q.kspec.toNat 32 24 != fld d 8 24 })) := by
  subst hne hoe hde
  have hwords : fld (p.spNum (coreOf t) (th.rs f.ra.toNat).toNat 32) 128 32 = 0 := fld_inside_zero h32 (by decide) (by decide)
  have hbase : fld (p.spNum (coreOf t) (th.rs f.ra.toNat).toNat 32) 64 48 = 0 := fld_inside_zero h32 (by decide) (by decide)
  have hlow : fld (p.spNum (coreOf t) (th.rs f.ra.toNat).toNat 32) 32 32 = 0 := fld_inside_zero h32 (by decide) (by decide)
  have hhigh : fld (p.spNum (coreOf t) (th.rs f.ra.toNat).toNat 32) 112 16 = 0 := fld_inside_zero h32 (by decide) (by decide)
  simp only [claimEp, ht, if_neg (Nat.not_lt.mpr (Nat.le_of_lt_succ hn)), hb, h2, hlow, hhigh, h160, hwords, hbase, h1, bne_self_eq_false, beq_eq_false_iff_ne.mpr hk,
    Bool.or_self, Bool.false_and, Bool.false_eq_true, if_false, if_neg hs]

end Open

section Use
variable {s : State} {t : ThreadId} {f : FmtS}

/-! ## Using a connection or an endpoint -/

/-- Changing a connection leaves a thread's sequence as it is. -/
theorem Pkg.setConn_seqOpen (p : Pkg) (g n t : Nat) (v : Conn) : (p.setConn g n v).seqOpen t = p.seqOpen t := by
  unfold Pkg.seqOpen Pkg.setConn
  rw [Pkg.modCore_eq, Pkg.core_setCore]
  split <;> simp_all

/-- R255: the place and length of a message are in range. -/
theorem sendLimits_ok {n w : Nat} (hn : n < 32) (hw0 : 0 < w) (hw16 : w ≤ 16) : (decide (31 < n) || decide (w = 0) || decide (16 < w)) = false := by
  simp only [Bool.or_eq_false_iff, decide_eq_false_iff_not]
  omega

/-- R253: an open entry of the item is its own to send on. -/
theorem Conn.usable {c : Conn} {me : Nat × Nat} (hs : c.state = 1 ∨ c.state = 2) (hi : c.item = me) (hcl : c.closing = false) :
    (decide (c.state = 0) || decide (c.item ≠ me) || c.closing) = false ∧ c.state ≠ 4 ∧ c.state ≠ 3 := by
  rcases hs with hs | hs <;> simp [hs, hi, hcl]

section Send
variable (h : Issues s.pkg t (.chSend t f)) (hq : s.pkg.seqOpen t = false) (hn : ((s.pkg.thr t).rs f.ra.toNat).toNat < 32)
  (hw0 : 0 < ((s.pkg.thr t).rs f.rc.toNat).toNat) (hw16 : ((s.pkg.thr t).rs f.rc.toNat).toNat ≤ 16)
  (ht : s.pkg.spTest t (opB (s.pkg.thr t) f).toNat (64 * ((s.pkg.thr t).rs f.rc.toNat).toNat) false = none)
  {c : Conn} (hc : s.pkg.conn (coreOf t) ((s.pkg.thr t).rs f.ra.toNat).toNat = c)
  (hs : c.state = 1 ∨ c.state = 2) (hi : c.item = s.pkg.itemOf t) (hcl : c.closing = false)
include h hq hn hw0 hw16 ht hc hs hi hcl

/-- R255: CH_SEND takes its credits and stages the message. -/
theorem completes_chSend (hw : ((s.pkg.thr t).rs f.rc.toNat).toNat ≤ c.credits) (hg : (s.pkg.thr t).grp.length < 64)
    (hb : (s.pkg.thr t).grpBytes + 64 * ((s.pkg.thr t).rs f.rc.toNat).toNat ≤ 0x20_0000) :
    Completes s t (.chSend t f) ((s.pkg.setConn (coreOf t) ((s.pkg.thr t).rs f.ra.toNat).toNat { c with
      credits := c.credits - ((s.pkg.thr t).rs f.rc.toNat).toNat }).setThr t { s.pkg.thr t with
        grp := (s.pkg.thr t).grp ++ [.send ((s.pkg.thr t).rs f.ra.toNat).toNat (opB (s.pkg.thr t) f).toNat ((s.pkg.thr t).rs f.rc.toNat).toNat
          c.target c.opening]
        grpBytes := (s.pkg.thr t).grpBytes + 64 * ((s.pkg.thr t).rs f.rc.toNat).toNat }) := by
  subst hc
  refine completes_of_ok rfl h ?_
  have hstage := stageEff_ok (p := s.pkg.setConn (coreOf t) ((s.pkg.thr t).rs f.ra.toNat).toNat { s.pkg.conn (coreOf t) ((s.pkg.thr t).rs f.ra.toNat).toNat with
      credits := (s.pkg.conn (coreOf t) ((s.pkg.thr t).rs f.ra.toNat).toNat).credits - ((s.pkg.thr t).rs f.rc.toNat).toNat })
    (e := .send ((s.pkg.thr t).rs f.ra.toNat).toNat (opB (s.pkg.thr t) f).toNat ((s.pkg.thr t).rs f.rc.toNat).toNat
      (s.pkg.conn (coreOf t) ((s.pkg.thr t).rs f.ra.toNat).toNat).target (s.pkg.conn (coreOf t) ((s.pkg.thr t).rs f.ra.toNat).toNat).opening)
    (k := id) ((s.pkg.setConn_seqOpen ..).trans hq) hg hb
  obtain ⟨hu, h4, h3⟩ := Conn.usable hs hi hcl
  simp only [hq, sendLimits_ok hn hw0 hw16, ht, hu, if_neg h4, if_neg h3, if_neg (Nat.not_lt.mpr hw), Bool.false_eq_true, if_false]
  exact hstage

/-- R255: CH_SEND waits while its credits are short. -/
theorem mustWait_chSend (hw : c.credits < ((s.pkg.thr t).rs f.rc.toNat).toNat) :
    MustWait s t (.chSend t f) (.chSend ((s.pkg.thr t).rs f.ra.toNat).toNat s.pkg.now ((s.pkg.thr t).rs f.rc.toNat).toNat) := by
  subst hc
  obtain ⟨hu, h4, h3⟩ := Conn.usable hs hi hcl
  refine mustWait_of_again rfl h ?_
  simp only [hq, sendLimits_ok hn hw0 hw16, ht, hu, if_neg h4, if_neg h3, if_pos hw, Bool.false_eq_true, if_false]

end Send

/-! ### Receiving, closing and polling -/

section Reader
variable (hr : s.pkg.readerOf t ((s.pkg.thr t).rs f.ra.toNat).toNat = true) {ep : Endpoint}
  (he : s.pkg.ep (coreOf t) ((s.pkg.thr t).rs f.ra.toNat).toNat = ep)
include hr he

theorem completes_chRecv_closed (h : Issues s.pkg t (.chRecv t f)) (hu : epUnread ep = 0) (ho : ep.everOpened = true) (hc : ep.conns = []) :
    Completes s t (.chRecv t f) (s.pkg.setThr t ((s.pkg.thr t).setS f.rd.toNat 0)) := by
  subst he
  exact completes_of_ok rfl h ((if_neg (by simp [hr])).trans ((if_pos hu).trans (if_pos (by simp [ho, hc]))))

theorem mustWait_chRecv (h : Issues s.pkg t (.chRecv t f)) (hu : epUnread ep = 0) (hc : ep.conns ≠ []) :
    MustWait s t (.chRecv t f) (.chRecv ((s.pkg.thr t).rs f.ra.toNat).toNat) := by
  subst he
  exact mustWait_of_again rfl h ((if_neg (by simp [hr])).trans ((if_pos hu).trans (if_neg (by simp [hc]))))

/-- R258: CH_RECV takes the rest of the head message. -/
theorem completes_chRecv (h : Issues s.pkg t (.chRecv t f)) {m : List EpWord} (hu : epUnread ep ≠ 0)
    (hm : (ep.unread.filter fun m => !m.isEmpty).head? = some m)
    (ht : s.pkg.spTest t (opB (s.pkg.thr t) f).toNat (64 * m.length) true = none) :
    Completes s t (.chRecv t f)
      ((((s.pkg.epTake (coreOf t) ((s.pkg.thr t).rs f.ra.toNat).toNat m.length).epGrants (coreOf t) ((s.pkg.thr t).rs f.ra.toNat).toNat).spStore
        (coreOf t) (opB (s.pkg.thr t) f).toNat (s.pkg.epBytes (coreOf t) ((s.pkg.thr t).rs f.ra.toNat).toNat m.length)).modThr t
          fun th => th.setS f.rd.toNat (BitVec.ofNat 64 m.length)) := by
  subst he
  refine completes_of_ok rfl h ?_
  simp only [hr, Bool.not_true, Bool.false_eq_true, if_false, if_neg hu, hm, Option.getD_some, ht]

end Reader

/-- R253: CH_CLOSE marks its own entry. -/
theorem completes_chClose (h : Issues s.pkg t (.chClose t f)) {c : Conn} (hc : s.pkg.conn (coreOf t) ((s.pkg.thr t).rs f.ra.toNat).toNat = c)
    (hn : ((s.pkg.thr t).rs f.ra.toNat).toNat < 32) (hs : c.state ≠ 0) (hi : c.item = s.pkg.itemOf t) :
    Completes s t (.chClose t f) ((s.pkg.setConn (coreOf t) ((s.pkg.thr t).rs f.ra.toNat).toNat { c with closing := true }).closeConn (coreOf t)
      ((s.pkg.thr t).rs f.ra.toNat).toNat) := by
  subst hc
  exact completes_of_ok rfl h (if_neg (by simp [hs, hi]; omega))

/-- R258: CH_POLL counts the unread words. -/
theorem completes_chPoll (h : Issues s.pkg t (.chPoll t f)) (hr : s.pkg.readerOf t ((s.pkg.thr t).rs f.ra.toNat).toNat = true) :
    Completes s t (.chPoll t f) (s.pkg.setThr t ((s.pkg.thr t).setS f.rd.toNat
      (BitVec.ofNat 64 (epUnread (s.pkg.ep (coreOf t) ((s.pkg.thr t).rs f.ra.toNat).toNat))))) :=
  completes_of_ok rfl h (if_neg (by simp [hr]))

/-- Settles O10: both forms of CH_OPEN, then each instruction on its connection or endpoint. -/
theorem channelInstructions : Obligations.ChannelInstructions := by
  refine ⟨fun s t f c hc => ?_, fun s t f => ?_⟩
  · have he := exec_openRow s t f c hc
    intro p th g n fl tgt us off d ep h hn h2 h28
    refine ⟨fun hr hcore hz hus hs => ?connection, fun hr ht hb hd2 hd32 hd160 hk h1 hs => ?reader⟩
    case connection =>
      exact completes_of_ok he h ((chOpenAny_eq h2 h28).trans ((if_neg (Bool.eq_false_iff.mp hr)).trans (openConn_free hn hcore hz hus hs)))
    case reader =>
      exact completes_of_ok he h ((chOpenAny_eq h2 h28).trans ((if_pos hr).trans (claimEp_free rfl rfl rfl hn ht hb hd2 hd32 hd160 hk h1 hs)))
  · intro p th g n off w c ep
    refine ⟨fun h hq hn hw0 hw16 ht hs hi hcl => ⟨fun hw hg hb => ?send, fun hw => ?sendWaits⟩,
      fun h hr => ⟨fun hu ho hc => ?closed, fun hu hc => ?recvWaits, fun m hu hm ht => ?recv⟩, fun h hn hs hi => ?close, fun h hr => ?poll⟩
    case send => exact completes_chSend h hq hn hw0 hw16 ht rfl hs hi hcl hw hg hb
    case sendWaits => exact mustWait_chSend h hq hn hw0 hw16 ht rfl hs hi hcl hw
    case closed => exact completes_chRecv_closed hr rfl h hu ho hc
    case recvWaits => exact mustWait_chRecv hr rfl h hu hc
    case recv => exact completes_chRecv hr rfl h hu hm ht
    case close => exact completes_chClose h rfl hn hs hi
    case poll => exact completes_chPoll h hr

end Use

end Sys2Proof.Machine
end

