-- ==== Sys2Proof/Proofs/DatagramPath.lean ====
section
/-! The path of a Luajo datagram before its own rules (R424, R439, R442, R445 to R447, R525): one lemma per place where it ends; the
obligation settled from them. -/

namespace Sys2Proof.Machine

/-! ## Where a datagram of a row without sub-rows ends -/

/-- R446: the test of the window, passed and failed. -/
theorem windowPassed {n high : Nat} (hn : ¬(n = 0 ∨ (64 ≤ high ∧ n + 64 ≤ high))) :
    (decide (n = 0) || (decide (64 ≤ high) && decide (n ≤ high - 64))) = false := by
  simp only [Bool.or_eq_false_iff, Bool.and_eq_false_imp, decide_eq_true_eq, decide_eq_false_iff_not]
  omega

theorem windowFailed {n high : Nat} (ho : n = 0 ∨ (64 ≤ high ∧ n + 64 ≤ high)) :
    (decide (n = 0) || (decide (64 ≤ high) && decide (n ≤ high - 64))) = true := by
  simp only [Bool.or_eq_true, Bool.and_eq_true, decide_eq_true_eq]
  omega

/-- A number of no cached reply is not found. -/
theorem notCached {n : Nat} {l : List (Nat × List Byte)} (hf : ∀ e ∈ l, e.1 ≠ n) : l.find? (fun e => e.1 == n) = none :=
  List.find?_eq_none.mpr fun e he => by simpa using hf e he

section Path
variable {p : Pkg} {op : LjOp} {k : Pkt} {fmt : Pkg → Cmd → Option (Nat × List Byte)} {run : Pkg → Cmd → Ans}

/-- R424: what the firmware does not hear changes nothing. -/
theorem Pkg.luajo_unheard (h : p.hears k.src = false) : p.luajo op k anyTlv fmt run = p := if_pos (by simp [h])

section Heard
variable (h : p.hears k.src = true)
include h

/-- R442: a bad header drops the datagram. -/
theorem Pkg.luajo_badHeader (hb : pktBadHeader k = true) : p.luajo op k anyTlv fmt run = p.bump .ljDropHeader 0 :=
  (if_neg (by simp [h, anyTlv])).trans (if_pos hb)

section Header
variable (hb : pktBadHeader k = false)
include hb

/-- R442: an identifier of no session is an authentication failure. -/
theorem Pkg.luajo_noPlace (hp : p.placeOf k = none) : p.luajo op k anyTlv fmt run = p.authFail := by
  simp only [Pkg.luajo, anyTlv, h, hb, hp, Bool.not_true, Bool.or_self, Bool.false_eq_true, if_false]

section Place
variable {i : Nat} {q : Pkg} (hp : p.placeOf k = some i) (hq : p.arrivedBy k.src = q)
include hp hq

/-- R442: a wrong MAC is an authentication failure. -/
theorem Pkg.luajo_wrongMac (hm : mac16 (q.session i).kCmd (pktHeader k op.code ++ k.params) ≠ toLe 16 k.mac.toNat) :
    p.luajo op k anyTlv fmt run = q.authFail := by
  simp only [Pkg.luajo, anyTlv, h, hb, hp, Bool.not_true, Bool.or_self, Bool.false_eq_true, if_false, hq,
    bne_iff_ne.mpr hm, if_true]

section Mac
variable (hm : mac16 (q.session i).kCmd (pktHeader k op.code ++ k.params) = toLe 16 k.mac.toNat)
include hm

/-- R447: with no place for another undecided command the answer is BUSY. -/
theorem Pkg.luajo_busy (hu : 256 ≤ q.undecided) :
    p.luajo op k anyTlv fmt run = q.replyBusy i (pktWait k op.code) := by
  simp only [Pkg.luajo, anyTlv, h, hb, hp, Bool.not_true, Bool.or_self, Bool.false_eq_true, if_false, hq, hm,
    bne_self_eq_false, hu, decide_true, Bool.true_or, if_true]

section Room
variable (hu : q.undecided < 256) (hl : q.ident.loading = none)
include hu hl

/-- R446: a number below the window is stale. -/
theorem Pkg.luajo_stale (ho : k.seq.toNat = 0 ∨ (64 ≤ (q.session i).high ∧ k.seq.toNat + 64 ≤ (q.session i).high)) :
    p.luajo op k anyTlv fmt run = ((q.bump .ljSeqStale 0).setFlag .ljStatus q.primary 1).reply i
      (pktWait k op.code) stSeqStale [] := by
  simp only [Pkg.luajo, anyTlv, h, hb, hp, Bool.not_true, Bool.or_self, Bool.false_eq_true, if_false, hq, hm,
    bne_self_eq_false, hl, Option.isSome_none, Bool.false_and,
    Nat.not_le.mpr hu, decide_false, windowFailed ho, if_true]

section Fresh
variable (hn : ¬(k.seq.toNat = 0 ∨ (64 ≤ (q.session i).high ∧ k.seq.toNat + 64 ≤ (q.session i).high)))
include hn

/-- R446: a decided number is answered again with the reply kept. -/
theorem Pkg.luajo_repeat {e : Nat × List Byte} (hf : (q.session i).cache.find? (fun e => e.1 == k.seq.toNat) = some e) :
    p.luajo op k anyTlv fmt run = (q.bump .ljRepeat 0).sendReply k.src e.2 := by
  simp only [Pkg.luajo, anyTlv, h, hb, hp, Bool.not_true, Bool.or_self, Bool.false_eq_true, if_false, hq, hm,
    bne_self_eq_false, hl, Option.isSome_none, Bool.false_and,
    Nat.not_le.mpr hu, decide_false, windowPassed hn, hf]

section Undecided
variable (hf : ∀ e ∈ (q.session i).cache, e.1 ≠ k.seq.toNat)
include hf

/-- R446: a number that waits moves its reply to the new packet. -/
theorem Pkg.luajo_repeatPending (hw : ∃ x ∈ (q.session i).waiting, x.seq = k.seq.toNat) :
    p.luajo op k anyTlv fmt run = (q.bump .ljRepeatPending 0).setSession i { q.session i with
      waiting := (q.session i).waiting.map fun x => if x.seq = k.seq.toNat then pktWait k op.code else x } := by
  have hany : ((q.session i).waiting.any fun x => x.seq == k.seq.toNat) = true := by simpa using hw
  simp only [Pkg.luajo, anyTlv, h, hb, hp, Bool.not_true, Bool.or_self, Bool.false_eq_true, if_false, hq, hm,
    bne_self_eq_false, hl, Option.isSome_none, Bool.false_and,
    Nat.not_le.mpr hu, decide_false, windowPassed hn, notCached hf, hany, if_true]

/-- R445: a bound session issues nothing but its context's commands. -/
theorem Pkg.luajo_notPermitted (hw : ∀ x ∈ (q.session i).waiting, x.seq ≠ k.seq.toNat) (hbd : (q.session i).bound = true)
    (hop : op.bound = false ∨ (op.ofCtx = true ∧ k.context.toNat ≠ (q.session i).ctx)) :
    p.luajo op k anyTlv fmt run = ((q.ljDecided op).setFlag .ljStatus q.primary 4).reply i
      (pktWait k op.code) stNotPermitted [] := by
  have hany : ((q.session i).waiting.any fun x => x.seq == k.seq.toNat) = false := by simpa using hw
  have hno : (!op.bound || (op.ofCtx && k.context.toNat != (q.session i).ctx)) = true := by simpa using hop
  simp only [Pkg.luajo, anyTlv, h, hb, hp, Bool.not_true, Bool.or_self, Bool.false_eq_true, if_false, hq, hm,
    bne_self_eq_false, hl, Option.isSome_none, Bool.false_and,
    Nat.not_le.mpr hu, decide_false, windowPassed hn, notCached hf, hany, hbd, hno, Bool.and_self, if_true]
  rfl

end Undecided
end Fresh
end Room
end Mac
end Place
end Header
end Heard
end Path

/-! ## The rows -/

/-- A row of Table 17.6 that no parameter splits, under its opcode, scope and permission. -/
def RowOf (r : (Pkt → Instr) × Nat × Bool × Bool) (k : Pkt) : Prop :=
  ∃ (op : LjOp) (fmt : Pkg → Cmd → Option (Nat × List Byte)) (run : Pkg → Cmd → Ans),
    (∀ s, exec (r.1 k) s = s.run fun p => p.luajo op k anyTlv fmt run) ∧ op.code = r.2.1 ∧ op.bound = r.2.2.1 ∧ op.ofCtx = r.2.2.2

theorem rowOf_of_mem (k : Pkt) : ∀ r ∈ ([
      (.getInfo, 0x10, true, false), (.regRead, 0x11, false, false), (.setTopology, 0x20, false, false), (.setRoutes, 0x21, false, false),
      (.contextCreate, 0x30, false, true), (.contextDestroy, 0x31, false, true), (.contextSetClass, 0x32, false, true), (.loadProgram, 0x40, true, true),
      (.bindSlot, 0x41, false, true), (.setDeadline, 0x42, true, true), (.unbindSlot, 0x43, false, true), (.stepBegin, 0x60, true, true),
      (.stepCommit, 0x61, true, true), (.run, 0x70, true, true), (.securePolicy, 0x80, false, true), (.secureNow, 0x81, true, true),
      (.restore, 0x82, true, true), (.reshard, 0x83, true, true), (.serveJoin, 0x90, true, true), (.serveLeave, 0x91, true, true),
      (.readCounters, 0xA0, false, false), (.readTally, 0xA2, true, true), (.powerPolicy, 0xB0, false, false), (.fwLoad, 0xC0, false, false),
      (.attest, 0xC1, false, false), (.debugPeek, 0xD0, false, false)] : List ((Pkt → Instr) × Nat × Bool × Bool)), RowOf r k := by
  repeat refine List.forall_mem_cons.mpr ⟨⟨_, _, _, fun _ => rfl, rfl, rfl, rfl⟩, ?_⟩
  exact fun _ h => absurd h List.not_mem_nil

/-- Settles O59: the path is `Pkg.luajo`'s, whatever the row's own rules. -/
theorem luajoAdmission : Obligations.LuajoAdmission := by
  intro s k i r hr
  obtain ⟨op, fmt, run, he, hcode, hbound, hctx⟩ := rowOf_of_mem k r hr
  clear hr
  obtain ⟨mk, code, bound, ofCtx⟩ := r
  subst hcode hbound hctx
  have makes {a : Pkg} (ha : s.pkg.luajo op k anyTlv fmt run = a) : Makes s (mk k) a := by rw [Makes, he, State.run_eq, ha]
  refine ⟨fun h => makes (Pkg.luajo_unheard h), fun h => ⟨fun hb => makes (Pkg.luajo_badHeader h hb), fun hb =>
    ⟨fun hp => makes (Pkg.luajo_noPlace h hb hp), fun hp => ⟨fun hm => ?wrongMac, fun hm hu => ?busy, fun hm hu hl => ⟨fun ho => ?stale, fun hn =>
      ⟨fun e hf => ?cached, fun hf => ⟨fun hw => ?pending, fun hw hbd hop => ?notPermitted⟩⟩⟩⟩⟩⟩⟩
  case wrongMac => exact makes (Pkg.luajo_wrongMac h hb hp rfl hm)
  case busy => exact makes (Pkg.luajo_busy h hb hp rfl hm hu)
  case stale => exact makes (Pkg.luajo_stale h hb hp rfl hm hu hl ho)
  case cached => exact makes (Pkg.luajo_repeat h hb hp rfl hm hu hl hn hf)
  case pending => exact makes (Pkg.luajo_repeatPending h hb hp rfl hm hu hl hn hf hw)
  case notPermitted => exact makes (Pkg.luajo_notPermitted h hb hp rfl hm hu hl hn hf hw hbd hop)

end Sys2Proof.Machine
end

