-- ==== Sys2Proof/Proofs/FabricWords.lean ====
section
/-! The word stream of a bundle group (R317): the words of a packet, spread over the bundles in service, come back in stream order by
position. -/

namespace Sys2Proof.Machine

theorem listGetD_of_lt {α : Type} {l : List α} (d : α) {k : Nat} (h : k < l.length) : l.getD k d = l[k] := by
  rw [List.getD_eq_getElem?_getD, List.getElem?_eq_getElem h, Option.getD_some]

/-- The words that lane `j` of `n` carries of a stream whose first word has position `pos`. -/
def laneWords (n j : Nat) : Nat → List W64 → List W64
  | _, [] => []
  | pos, w :: ws => if pos % n = j then w :: laneWords n j (pos + 1) ws else laneWords n j (pos + 1) ws

theorem spread_cons (serving : List Nat) (pos : Nat) (w : W64) (ws : List W64) :
    spread serving pos (w :: ws) = (serving.getD (pos % serving.length) 0, w) :: spread serving (pos + 1) ws := by
  simp only [spread, List.zipIdx_cons, List.map_cons, Nat.add_zero, Nat.zero_add, List.zipIdx_succ, List.map_map]
  congr 2
  funext x
  simp [Nat.add_right_comm, Nat.add_assoc]

section Lanes
variable {serving : List Nat} (hnd : serving.Nodup)
include hnd

/-- Two places of the bundles in service carry one bundle only when they are one place. -/
theorem getD_beq_getElem {k j : Nat} (hk : k < serving.length) (hj : j < serving.length) :
    (serving.getD k 0 == serving[j]) = decide (k = j) := by
  rw [listGetD_of_lt _ hk, Bool.beq_eq_decide_eq, decide_eq_decide]
  exact List.getElem_inj hnd

/-- What comes on the bundle of place `j`. -/
theorem lane_spread {j : Nat} (hj : j < serving.length) (pos : Nat) (ws : List W64) :
    ((spread serving pos ws).filter fun x => x.1 == serving[j]).map (·.2) = laneWords serving.length j pos ws := by
  induction ws generalizing pos with
  | nil => rfl
  | cons w ws ih =>
    have hp := getD_beq_getElem hnd (Nat.mod_lt pos (Nat.lt_of_le_of_lt (Nat.zero_le _) hj)) hj
    simp only [spread_cons, List.filter_cons, hp, decide_eq_true_eq, laneWords, ← ih]
    split <;> rfl

/-- One more at one place of a list without repeats makes the sum one more. -/
theorem sum_map_bump {a : Nat} (ha : a ∈ serving) (f : Nat → Nat) :
    (serving.map fun i => if a = i then f i + 1 else f i).sum = (serving.map f).sum + 1 := by
  induction serving with
  | nil => exact absurd ha List.not_mem_nil
  | cons b l ih =>
    obtain ⟨hb, hl⟩ := List.nodup_cons.mp hnd
    rw [List.map_cons, List.map_cons, List.sum_cons, List.sum_cons]
    by_cases hab : a = b
    · have hrest : l.map (fun i => if a = i then f i + 1 else f i) = l.map f :=
        List.map_congr_left fun i hi => if_neg fun h => hb (by rwa [← hab, h])
      rw [if_pos hab, hrest]
      omega
    · rw [if_neg hab, ih hl ((List.mem_cons.mp ha).resolve_left hab)]
      omega

/-- Every word travels on one bundle in service. -/
theorem sum_lane_lengths (hne : serving ≠ []) (pos : Nat) (ws : List W64) :
    (serving.map fun i => (((spread serving pos ws).filter fun x => x.1 == i).map (·.2)).length).sum = ws.length := by
  induction ws generalizing pos with
  | nil =>
    show (serving.map fun _ => 0).sum = 0
    rw [List.map_const', List.sum_replicate_nat]
    exact Nat.mul_zero _
  | cons w ws ih =>
    have hmem : serving.getD (pos % serving.length) 0 ∈ serving := by
      rw [listGetD_of_lt _ (Nat.mod_lt _ (List.length_pos_iff.mpr hne))]
      exact List.getElem_mem _
    rw [List.length_cons, ← ih (pos + 1), ← sum_map_bump hnd hmem]
    refine congrArg List.sum (List.map_congr_left fun i _ => ?_)
    simp only [spread_cons, List.filter_cons, beq_iff_eq]
    split <;> rfl

end Lanes

/-- Word k of the stream is word k / n of its lane. -/
theorem laneWords_getD {n : Nat} (pos : Nat) (ws : List W64) {k : Nat} (hk : k < ws.length) :
    (laneWords n ((pos + k) % n) pos ws).getD (k / n) 0 = ws[k] := by
  induction ws generalizing pos k with
  | nil => exact absurd hk (Nat.not_lt_zero k)
  | cons w ws ih =>
    cases k with
    | zero => simp [laneWords]
    | succ k =>
      have hih := ih (pos + 1) (k := k) (Nat.lt_of_succ_lt_succ hk)
      rw [Nat.add_right_comm, Nat.add_assoc] at hih
      have hiff : pos % n = (pos + (k + 1)) % n ↔ n ∣ k + 1 := by
        constructor
        · intro h
          have := Nat.sub_mod_eq_zero_of_mod_eq h.symm
          rw [Nat.add_sub_cancel_left] at this
          exact Nat.dvd_of_mod_eq_zero this
        · rintro ⟨c, hc⟩
          rw [hc, Nat.add_mul_mod_self_left]
      rw [laneWords, Nat.succ_div]
      by_cases hd : n ∣ k + 1
      · rw [if_pos (hiff.mpr hd), if_pos hd]
        exact hih
      · rw [if_neg fun h => hd (hiff.mp h), if_neg hd]
        exact hih

/-- Settles O30: position k of the stream lies in lane k mod n at place k / n, and the lanes hold every word once. -/
theorem fabricStream : Obligations.FabricStream := by
  intro serving pos ws hne hnd
  have hn := List.length_pos_iff.mpr hne
  refine List.ext_getElem ?_ fun k hk hk' => ?_
  · simp only [gather, List.length_map, List.length_range, List.map_map]
    exact sum_lane_lengths hnd hne pos ws
  · have hj := Nat.mod_lt (pos + k) hn
    rw [← laneWords_getD pos ws hk', ← lane_spread hnd hj]
    simp only [gather, List.getElem_map, List.getElem_range, List.length_map]
    rw [listGetD_of_lt [] (by rwa [List.length_map]), List.getElem_map]

end Sys2Proof.Machine
end

