-- ==== Sys2Proof/Proofs/ThreadFaults.lean ====
section
/-! Issue tests and thread faults (R218, R225, R230, R245, R386): what a thread's own word does when it may not issue, and what a fault
leaves of the thread's context; the obligation settled from it. -/

namespace Sys2Proof.Machine

/-! ## A context that enters FAULTED -/

/-- What a transition of a context's state leaves of its record. -/
theorem Pkg.ctxTo_ctx (p : Pkg) (c : Nat) (st : CState) : ((p.ctxTo c st).ctx c).state = st ∧ ((p.ctxTo c st).ctx c).cause = (p.ctx c).cause ∧
    ((p.ctxTo c st).ctx c).scheduled = (p.ctx c).scheduled ∧ ((p.ctxTo c st).ctx c).step = (p.ctx c).step ∧
    (p.ctxTo c st).waiters = p.waiters ∧ (p.ctxTo c st).fabAddr = p.fabAddr := by
  by_cases hs : (p.ctx c).state = st
  · rw [show p.ctxTo c st = p from if_pos hs]
    exact ⟨hs, rfl, rfl, rfl, rfl, rfl⟩
  · rw [show p.ctxTo c st = (p.setCtx c { p.ctx c with state := st, enteredNs := p.icount p.primary % 2 ^ 32, holdDone := false }).raise
      .ctxState p.primary c c ((p.ctx c).state.ctorIdx + 16 * st.ctorIdx + 256 * (p.ctx c).cause) from if_neg hs]
    obtain ⟨es, n, cs, fs, h⟩ := (p.setCtx c { p.ctx c with state := st, enteredNs := p.icount p.primary % 2 ^ 32, holdDone := false }).raise_eq
      .ctxState p.primary c c ((p.ctx c).state.ctorIdx + 16 * st.ctorIdx + 256 * (p.ctx c).cause)
    have hc (v : Ctx) : (p.setCtx c v).ctx c = v := (p.ctx_setCtx c c v).trans (if_pos rfl)
    rw [h]
    exact ⟨(congrArg Ctx.state (hc _)).trans rfl, (congrArg Ctx.cause (hc _)).trans rfl, (congrArg Ctx.scheduled (hc _)).trans rfl,
      (congrArg Ctx.step (hc _)).trans rfl, rfl, rfl⟩

/-- R386: what a fault leaves of a context that was neither FAULTED nor EMPTY. -/
def FaultedWith (p : Pkg) (c cause : Nat) : Prop :=
  (p.ctx c).state = .faulted ∧ (p.ctx c).cause = cause ∧ (p.ctx c).scheduled = false ∧ (p.ctx c).step.state ≠ 1 ∧
    ∀ x ∈ p.waiters, fld x.pkt.kspec.toNat 32 8 ≠ c ∨ x.pkt.src.toNat ≠ p.fabAddr

theorem Pkg.ctxTo_faultedWith {p : Pkg} {c cause : Nat} {x : Ctx} (hx : p.ctx c = x) (hc : x.cause = cause) (hs : x.scheduled = false)
    (hp : x.step.state ≠ 1) (hw : ∀ y ∈ p.waiters, fld y.pkt.kspec.toNat 32 8 ≠ c ∨ y.pkt.src.toNat ≠ p.fabAddr) :
    FaultedWith (p.ctxTo c .faulted) c cause := by
  subst hx
  obtain ⟨hst, hca, hsc, hsp, hwait, ha⟩ := p.ctxTo_ctx c .faulted
  exact ⟨hst, hca.trans hc, hsc.trans hs, by rwa [hsp], by rwa [hwait, ha]⟩

theorem Pkg.ctxFault_faultedWith (p : Pkg) {c : Nat} (cause : Nat) (hf : (p.ctx c).state ≠ .faulted) (he : (p.ctx c).state ≠ .empty) :
    FaultedWith (p.ctxFault c cause) c cause := by
  have h : ¬(((p.ctx c).state = .faulted || (p.ctx c).state = .empty) = true) := by simp [hf, he]
  rw [Pkg.ctxFault, if_neg h]
  dsimp only
  generalize (List.foldl (fun p j => p.discardSlot j false fun _ => true) p (p.slotsOf c)).lateVote c = q
  refine Pkg.ctxTo_faultedWith ((q.ctx_setCtx c c _).trans (if_pos rfl)) rfl rfl ?_ fun y hy => ?_
  · by_cases h1 : (q.ctx c).step.state = 1 <;> simp [h1]
  · simpa using (List.mem_filter.mp hy).2

/-- R245: recording a thread's fault leaves its context as the fault of a context does. -/
theorem Pkg.thrFault_faultedWith (p : Pkg) (t cause pc : Nat) (w : W64) (hf : (p.ctx (p.thr t).ctx).state ≠ .faulted)
    (he : (p.ctx (p.thr t).ctx).state ≠ .empty) : FaultedWith (p.thrFault t cause pc w) (p.thr t).ctx 1 := by
  obtain ⟨es, n, cs, fs, h⟩ := (((p.setThr t { p.thr t with
    state := .faulted, wait := .none, fault := BitVec.ofNat 64 (put 0 8 cause + put 8 24 pc + put 32 32 (p.icount (dieOfCore (coreOf t)))), finst := w }).setFlag
      .coreStatus (coreOf t) 0).bump .coreFault (coreOf t)).raise_eq .coreFault (dieOfCore (coreOf t)) (p.thr t).ctx t
        (put 0 8 cause + put 8 24 pc + put 32 32 (p.icount (dieOfCore (coreOf t))) + w.toNat * 2 ^ 64)
  refine Pkg.ctxFault_faultedWith _ 1 ?_ ?_ <;> rw [h]
  · exact hf
  · exact he

/-! ## A word that may not issue -/

/-- A thread's word runs through the tests every instruction shares. -/
theorem exec_of_decodeInstr {t : ThreadId} {w : W64} {i : Instr} (h : decodeInstr t w = some i) :
    ∃ body, ∀ s, exec i s = s.run fun p => p.issue t i body := by
  rw [decodeInstr] at h
  generalize (w.extractLsb' 0 4).toNat = c at h
  generalize (w.extractLsb' 4 6).toNat = o at h
  rcases Nat.lt_or_ge c 11 with hcl | hcl
  · rcases Nat.lt_or_ge o (operationsOf c) with hol | hol
    · have hcm := List.mem_range.mpr hcl
      simp only [List.range, List.range.loop, List.mem_cons, List.not_mem_nil, or_false] at hcm
      repeat' rcases hcm with rfl | hcm
      all_goals
        have hom := List.mem_range.mpr hol
        simp only [operationsOf, List.getD_cons_succ, List.getD_cons_zero, List.range, List.range.loop, List.mem_cons, List.not_mem_nil, or_false] at hom
        repeat' rcases hom with rfl | hom
        all_goals
          obtain rfl : _ = i := Option.some.inj h
          exact ⟨_, fun _ => rfl⟩
    · obtain ⟨n, rfl⟩ := Nat.exists_eq_add_of_le' hol
      have hcm := List.mem_range.mpr hcl
      simp only [List.range, List.range.loop, List.mem_cons, List.not_mem_nil, or_false] at hcm
      repeat' rcases hcm with rfl | hcm
      all_goals exact absurd h (Option.some_ne_none i).symm
  · obtain ⟨n, rfl⟩ := Nat.exists_eq_add_of_le' hcl
    exact absurd h (Option.some_ne_none i).symm

/-- Settles O53: the tests of `Pkg.issue`, and the context's fault. -/
theorem issueTests : Obligations.IssueTests := by
  intro s t w i hi
  obtain ⟨body, he⟩ := exec_of_decodeInstr hi
  refine ⟨fun hs => ?unselected, fun hs => ⟨fun hpc => ?outOfCode, fun hin hc hwf => ?illFormed⟩⟩
  case unselected => rw [Makes, he, State.run_eq, Pkg.issue, if_neg (by simp [hs])]
  case outOfCode =>
    have hout : ((s.pkg.thr t).pcOut || decide ((s.pkg.slot (s.pkg.thr t).slot).codeWords ≤ (s.pkg.thr t).pc.toNat)) = true := by simpa using hpc
    rw [Traps, he, State.run_eq, Pkg.issue, if_pos hs]
    exact congrArg (fun q => Host.Outcome.next { s with pkg := q }) (if_pos hout)
  case illFormed =>
    have ht : Traps s t i fIllegalEncoding := by rw [Traps, he, State.run_eq, Pkg.issue_of_not_wf hs hin hc hwf]
    refine ⟨ht, fun q hq hf hm => ?_⟩
    have hqe : q = s.pkg.thrFault t fIllegalEncoding (s.pkg.thr t).pc.toNat ((encode i).getD 0) := by
      injection hq.symm.trans ht with h
      injection h
    rw [hqe]
    exact s.pkg.thrFault_faultedWith t _ _ _ hf hm

end Sys2Proof.Machine
end

