-- ==== Sys2Proof/Proofs/LuajoRows.lean ====
section
/-! The end of a Luajo command (R448, R449) with the package taken up and the command under names of their own, for the rows whose
tests are stated of them. -/

namespace Sys2Proof.Machine

section Row
variable {s : State} {x : Instr} {op : LjOp} {k : Pkt} {i : Nat} {ts : List TlvE} {mine : List TlvE → Bool}
variable {fmt : Pkg → Cmd → Option (Nat × List Byte)} {run : Pkg → Cmd → Ans} {p q : Pkg} {c : Cmd} {st : Nat} {ps : List Byte}
variable (hx : exec x s = s.run fun p => p.luajo op k mine fmt run) (h : Ready s.pkg op k i ts)
  (hm : mine ((parseTlvs (k.params.length + 1) k.params).getD []) = true) (hp : s.pkg.taken op k = p) (hc : p.cmdOf op k i ts = c)
  (hf : fmt p c = none)
include hx h hm hp hc hf

theorem commits_at (hr : run p c = .ok q ps) : Commits s x op k i q ps := by
  subst hp hc
  exact commits_of_ok hx h hm hf hr

theorem pends_at (hr : run p c = .wait q) : Pends s x op k i q := by
  subst hp hc
  exact pends_of_wait hx h hm hf hr

theorem refuses_at (hr : run p c = .no st ps) : Refuses s x op k i st ps := by
  subst hp hc
  exact refuses_of_no hx h hm hf hr

end Row

/-- What the command names. -/
theorem Pkg.cmdOf_ctx {p : Pkg} {op : LjOp} {k : Pkt} {i : Nat} {ts : List TlvE} {c : Cmd} (hc : p.cmdOf op k i ts = c) : c.ctx = k.context.toNat := by
  rw [← hc]; rfl

/-- The token of a command is its place and number. -/
theorem Cmd.token_eq {p : Pkg} {op : LjOp} {k : Pkt} {i : Nat} {ts : List TlvE} {c : Cmd} (hc : p.cmdOf op k i ts = c) :
    c.token = some (i, k.seq.toNat) := by
  rw [← hc]; rfl

/-- A refusal on state shows the context the packet names (R452). -/
theorem Pkg.badState_eq {p q : Pkg} {op : LjOp} {k : Pkt} {i : Nat} {ts : List TlvE} {c : Cmd} (hc : q.cmdOf op k i ts = c) (st : Nat) :
    p.badState c st = .no st (p.stateTlv (if k.ctxF then some k.context.toNat else none) c.port) := by
  rw [← hc]; rfl

/-- Tests that all pass find no defect. -/
theorem firstBad_none : firstBad [] = none := rfl

/-- A structure of the row's length. -/
theorem firstBad_badLen {c : Cmd} {n : Nat} {l : List (Bool × Nat × List Byte)} (h : c.body.length = n) : firstBad (badLen c n :: l) = firstBad l := by
  simp [firstBad, badLen, h]

/-- R38: a command that makes no admitted window fail answers with its result. -/
theorem Pkg.unlessFails_none {p q : Pkg} (h : newFails p q = []) : p.unlessFails q = .ok (q.reAdmit p) [] := by
  rw [Pkg.unlessFails, h]

/-- No window newly fails. -/
theorem noneFails {l : List (Nat × Nat × Nat)} (h : l = []) : ¬((!l.isEmpty) = true) := by simp [h]

end Sys2Proof.Machine
end

