-- ==== Sys2Proof/Proofs/StepCommands.lean ====
section
/-! STEP_BEGIN, STEP_COMMIT, STEP_ABORT and RESHARD (R349, R350, R356 to R367): each clause is the answer of its row; the obligation settled
from them. -/

namespace Sys2Proof.Machine

/-- R357: the policy that STEP_BEGIN brings is well formed, or the context holds one. -/
theorem stepBegin_wellFormed {p : Pkg} {c : Cmd} (hpol : c.has 1 = true → polReserved c.strct = false ∧ p.polOk c.ctx c.strct c.body.length = true)
    (hhas : c.has 1 = false → (p.ctx c.ctx).step.hasPolicy = true) :
    firstBad [defect (c.has 1 && polReserved c.strct) stReserved,
      defect (if c.has 1 then !p.polOk c.ctx c.strct c.body.length else !(p.ctx c.ctx).step.hasPolicy) stSealTree] = none := by
  cases hc : c.has 1 with
  | true => rw [firstBad_passed (by simp [hpol hc]), firstBad_passed (by simp [hpol hc]), firstBad_none]
  | false => rw [firstBad_passed (by simp), firstBad_passed (by simp [hhas hc]), firstBad_none]

/-- R349: a plan without reserved bits passes its format tests. -/
theorem reshard_wellFormed {p : Pkg} {c : Cmd} (hres : planReserved c.strct = false) (hok : p.planOk c.ctx c.strct c.body.length = true) :
    firstBad [defect (planReserved c.strct) stReserved, defect (!p.planOk c.ctx c.strct c.body.length) stReshardFormat] = none := by
  rw [firstBad_passed hres, firstBad_passed (by rw [hok]; rfl), firstBad_none]

/-- Settles O39: each clause is the answer of its row, once the tests before it have passed. -/
theorem stepAndReshardCommands : Obligations.StepAndReshardCommands := by
  refine ⟨fun s k i ts => ⟨?begin, ?commit, ?abort⟩, fun s k i ts => ?reshard⟩
  case begin =>
    dsimp only
    generalize hp : s.pkg.taken _ k = p
    generalize hc : p.cmdOf _ k i ts = c
    intro h hpol hhas h1 h2 he hf hn hnum hfree hobj
    have hfmt := stepBegin_wellFormed hpol hhas
    have hst : ¬(((p.ctx c.ctx).step.state = 1 || (p.ctx c.ctx).step.state = 2 || (p.ctx c.ctx).state = .empty || (p.ctx c.ctx).state = .faulted) = true) := by
      simp [h1, h2, he, hf]
    have hseq : ¬((decide (2 ^ 61 ≤ c.num 6) || ((p.ctx c.ctx).step.begun && c.num 6 != (p.ctx c.ctx).step.num + 1)) = true) := by
      simpa using ⟨hn, hnum⟩
    have hver : ¬(((p.optSlots c.ctx).any fun j => (p.slot j).freeEntry.isNone) = true) := by
      simpa using hfree
    refine ⟨fun e es hd hu => refuses_at rfl h rfl hp hc hfmt ?_, fun hu hb => commits_at rfl h rfl hp hc hfmt ?_⟩
    · refine (if_neg hst).trans ((if_neg hseq).trans ((if_neg hver).trans ((if_neg (by simp [hobj])).trans ?_)))
      rw [hd, hu]
    · refine (if_neg hst).trans ((if_neg hseq).trans ((if_neg hver).trans ((if_neg (by simp [hobj])).trans ?_)))
      cases hd : p.degraded <;> cases hl : p.planUnmet <;> simp_all
  case commit =>
    dsimp only
    generalize hp : s.pkg.taken _ k = p
    generalize hc : p.cmdOf _ k i ts = c
    intro h
    refine ⟨fun h1 hn hr => pends_at rfl h rfl hp hc rfl ?_, fun hx => refuses_at rfl h rfl hp hc rfl ?_, fun h1 hn hg hf => refuses_at rfl h rfl hp hc rfl ?_, fun h1 hn hg hf hc' => refuses_at rfl h rfl hp hc rfl ?_⟩
    · refine (if_neg (by simp [h1, hn])).trans ((if_neg ?_).trans ((if_neg ?_).trans (by rw [Cmd.token_eq hc])))
      · simpa using fun hg => (hr hg).1
      · simpa using fun hg => (hr hg).2
    · exact (if_pos (by simpa using hx)).trans (Pkg.badState_eq hc _)
    · exact (if_neg (by simp [h1, hn])).trans (if_pos (by simp [hg, hf]))
    · exact (if_neg (by simp [h1, hn])).trans ((if_neg (by simp [hf])).trans (if_pos (by simp [hg, hc'])))
  case abort =>
    dsimp only
    generalize hp : s.pkg.taken _ k = p
    generalize hc : p.cmdOf _ k i ts = c
    intro h hfl hst hn
    have hfmt : firstBad [defect (c.num 0x0D / 2 != 0) stReserved] = none := by
      rw [firstBad_passed (by simp [Nat.div_eq_of_lt hfl]), firstBad_none]
    have hopen : ¬((((p.ctx c.ctx).step.state != 1 && (p.ctx c.ctx).step.state != 2) || (p.ctx c.ctx).step.num != c.num 6) = true) := by
      rcases hst with hst | hst <;> simp [hst, hn]
    refine ⟨fun hf => pends_at rfl h (by simpa using hf) hp hc hfmt ?_, fun hf hv hin => commits_at rfl h (by simpa using hf) hp hc hfmt ?_,
      fun hf hv => pends_at rfl h (by simpa using hf) hp hc hfmt ?_⟩
    · exact (if_neg hopen).trans ((if_neg (by simp)).trans (by rw [Cmd.token_eq hc]))
    · exact (if_neg hopen).trans (if_pos (by simp [hv, hin]))
    · exact (if_neg hopen).trans ((if_neg (by rcases hv with hv | hv <;> simp [hv])).trans (by rw [Cmd.token_eq hc]))
  case reshard =>
    dsimp only
    generalize hp : s.pkg.taken _ k = p
    generalize hc : p.cmdOf _ k i ts = c
    intro h hres hok h1
    have hfmt := reshard_wellFormed hres hok
    refine ⟨fun hg => refuses_at rfl h rfl hp hc hfmt ?_, fun hg hadm hw => commits_at rfl h rfl hp hc hfmt ?_⟩
    · exact (if_neg (by simp [h1])).trans (if_pos hg)
    · exact (if_neg (by simp [h1])).trans ((if_neg (by simp [hg])).trans ((if_neg (by simpa using hadm)).trans (if_neg (noneFails hw))))

end Sys2Proof.Machine
end

