-- ==== Sys2Proof/Proofs/ContextCommands.lean ====
section
/-! CONTEXT_CREATE, CONTEXT_DESTROY and CONTEXT_SET_CLASS (R374, R375, R377); RUN, PREEMPT, SERVE_JOIN and SERVE_LEAVE (R375, R379, R382,
R392, R393): each clause is the answer of its row; the obligations settled from them. -/

namespace Sys2Proof.Machine

/-! ## Contexts (O40) -/

/-- R374: a record without reserved bits whose fields are in range has no format defect. -/
theorem contextCreate_wellFormed {p : Pkg} {c : Cmd} (hres : ctxReserved c.strct = false) (hok : p.ctxOk c.ctx c.strct c.body.length = true) :
    firstBad [defect (ctxReserved c.strct) stReserved, defect (!p.ctxOk c.ctx c.strct c.body.length) stContextFormat] = none := by
  rw [firstBad_passed hres, firstBad_passed (by rw [hok]; rfl), firstBad_none]

/-- R374: the objects of the record are free or its own, in one half, and their queue dies serve. -/
theorem objects_available {p : Pkg} {n b m : Nat}
    (ho : ∀ o, b ≤ o → o < b + m → ((p.sync o).owner = 0x1FF ∨ (p.sync o).owner = n) ∧ p.dieUp (queueDie (halfOfObj o)) = true)
    (hh : 2048 ≤ b ∨ b + m ≤ 2048) :
    ¬(((((List.range m).map (b + ·)).any fun o => ((p.sync o).owner != 0x1FF && (p.sync o).owner != n) || !p.dieUp (queueDie (halfOfObj o))) ||
      (decide (b < 2048) && decide (2048 < b + m))) = true) := by
  simp only [Bool.or_eq_true, List.any_eq_true, List.mem_map, List.mem_range, not_or, not_exists, not_and]
  refine ⟨?_, by simp only [Bool.and_eq_true, decide_eq_true_eq]; omega⟩
  rintro o ⟨j, hj, rfl⟩
  obtain ⟨hown, hup⟩ := ho (b + j) (Nat.le_add_right b j) (Nat.add_lt_add_left hj b)
  rcases hown with hown | hown <;> simp [hown, hup]

/-- R374: every save area holds its images. -/
theorem saveAreas_hold {p : Pkg} {n : Nat} {r : Rec} (h : ∀ m < 16, saveCores r m = [] ∨
      (p.inRegions n (recExt r m) (saveNeed r m) = true ∧ stackOf (recExt r m + saveNeed r m - 1) = m)) :
    ¬(((List.range 16).any fun s => !(saveCores r s).isEmpty &&
      !(p.inRegions n (recExt r s) (saveNeed r s) && stackOf (recExt r s + saveNeed r s - 1) == s)) = true) := by
  simp only [List.any_eq_true, List.mem_range, not_exists, not_and]
  intro m hm
  rcases h m hm with hs | ⟨hr, hk⟩
  · simp [hs]
  · simp [hr, hk]

/-- A transition of one context leaves the others, and the memory, regions and objects. -/
theorem Pkg.ctxTo_frame (p : Pkg) (c : Nat) (st : CState) : (p.ctxTo c st).regions = p.regions ∧ (p.ctxTo c st).syncs = p.syncs ∧
    (p.ctxTo c st).mem = p.mem ∧ ∀ n, n ≠ c → (p.ctxTo c st).ctx n = p.ctx n := by
  by_cases hs : (p.ctx c).state = st
  · rw [show p.ctxTo c st = p from if_pos hs]
    exact ⟨rfl, rfl, rfl, fun _ _ => rfl⟩
  · rw [show p.ctxTo c st = (p.setCtx c { p.ctx c with state := st, enteredNs := p.icount p.primary % 2 ^ 32, holdDone := false }).raise
      .ctxState p.primary c c ((p.ctx c).state.ctorIdx + 16 * st.ctorIdx + 256 * (p.ctx c).cause) from if_neg hs]
    obtain ⟨es, n, cs, fs, h⟩ := (p.setCtx c { p.ctx c with state := st, enteredNs := p.icount p.primary % 2 ^ 32, holdDone := false }).raise_eq
      .ctxState p.primary c c ((p.ctx c).state.ctorIdx + 16 * st.ctorIdx + 256 * (p.ctx c).cause)
    rw [h]
    exact ⟨rfl, rfl, rfl, fun n hn => (p.ctx_setCtx c n _).trans (if_neg hn)⟩

/-- What CONTEXT_DESTROY drops. -/
def Pkg.ctxDrop (p : Pkg) (c : Nat) : Pkg :=
  let q := (List.range 16).foldl (fun p j => p.modSlot j fun s => if s.imgCtx = c then { s with hasImage := false } else s)
    ((p.regions.filter fun r => r.owner == c).foldl Pkg.unstick { p with
      regions := p.regions.filter fun r => r.owner != c
      syncs := p.syncs.filter fun e => e.2.owner != c
      waiters := p.waiters.filter fun w => !(w.pkt.src.toNat == p.fabAddr && fld w.pkt.kspec.toNat 32 8 == c) })
  (q.ctxTo c .empty).setCtx c { enteredNs := ((q.ctxTo c .empty).ctx c).enteredNs }

/-- R375: regions and objects of the context go; other contexts and the memory stay. -/
theorem Pkg.ctxDrop_frame (p : Pkg) (c : Nat) : ((p.ctxDrop c).ctx c).state = .empty ∧
    (p.ctxDrop c).regions = p.regions.filter (fun r => r.owner != c) ∧ (p.ctxDrop c).syncs = p.syncs.filter (fun e => e.2.owner != c) ∧
    (p.ctxDrop c).mem = p.mem ∧ ∀ n, n ≠ c → (p.ctxDrop c).ctx n = p.ctx n := by
  unfold Pkg.ctxDrop
  dsimp only
  generalize hq : List.foldl _ _ (List.range 16) = q
  have hkeeps : (q.regions, q.syncs, q.mem, q.ctxs) =
      (p.regions.filter (fun r => r.owner != c), p.syncs.filter (fun e => e.2.owner != c), p.mem, p.ctxs) := by
    rw [← hq]
    refine (foldl_keeps (g := fun q : Pkg => (q.regions, q.syncs, q.mem, q.ctxs)) ?slots _ _).trans
      (foldl_keeps (g := fun q : Pkg => (q.regions, q.syncs, q.mem, q.ctxs)) ?regions _ _)
    case slots => exact fun _ _ => rfl
    case regions => exact fun _ _ => rfl
  simp only [Prod.mk.injEq] at hkeeps
  obtain ⟨hr, hs, hm, hc⟩ := hkeeps
  obtain ⟨hr', hs', hm', hc'⟩ := q.ctxTo_frame c .empty
  refine ⟨?_, hr'.trans hr, hs'.trans hs, hm'.trans hm, fun n hn => ?_⟩
  · rw [Pkg.ctx_setCtx, if_pos rfl]
  · rw [Pkg.ctx_setCtx, if_neg hn, hc' n hn]
    unfold Pkg.ctx
    rw [hc]

/-- Settles O40: each clause is the answer of its row, once the tests before it have passed. -/
theorem contextCommands : Obligations.ContextCommands := by
  refine fun s k i ts => ⟨?create, ?destroy, ?setClass⟩
  case create =>
    dsimp only
    generalize hp : s.pkg.taken _ k = p
    generalize hc : p.cmdOf _ k i ts = c
    intro h hres hok he hlim hobj hhalf hsave
    refine commits_at rfl h rfl hp hc (contextCreate_wellFormed hres hok) ?_
    exact (if_neg (by simp [he])).trans ((if_neg (Nat.not_le.mpr hlim)).trans ((if_neg (objects_available hobj hhalf)).trans (if_neg (saveAreas_hold hsave))))
  case destroy =>
    dsimp only
    generalize hp : s.pkg.taken _ k = p
    intro h he h1 h2 hs
    refine ⟨p.ctxDrop k.context.toNat, commits_at rfl h rfl hp rfl rfl ?_, p.ctxDrop_frame _⟩
    exact if_neg (by rw [Pkg.cmdOf_ctx rfl]; simp [he, h1, h2, hs])
  case setClass =>
    dsimp only
    generalize hp : s.pkg.taken _ k = p
    generalize hc : p.cmdOf _ k i ts = c
    intro h he
    refine ⟨fun hs => commits_at rfl h rfl hp hc rfl ?_, fun hs hs' => refuses_at rfl h rfl hp hc rfl ?_⟩
    · exact (if_neg he).trans (if_neg (by rcases hs with hs | hs <;> simp [-Pkg.modCtx_eq, hs]))
    · exact (if_neg he).trans (if_pos (by simp [-Pkg.modCtx_eq, hs, hs']))

/-! ## Running and serving (O41) -/

/-- R392: a join in range has no format defect. -/
theorem serveJoin_wellFormed {p : Pkg} {c : Cmd} (hz : fld (c.num 0x0A) 38 26 = 0) (hid : c.num 0x0E ≠ 0xFFFF_FFFF) (h0 : fld (c.num 0x0A) 0 32 ≠ 0)
    (hmax : fld (c.num 0x0A) 0 32 ≤ svMaxTok (p.ctx c.ctx).serve) (hst : fld (c.num 0x0A) 32 6 < svStreams (p.ctx c.ctx).serve) :
    firstBad [defect (fld (c.num 0x0A) 38 26 != 0) stReserved,
      defect (c.num 0x0E == 0xFFFF_FFFF || fld (c.num 0x0A) 0 32 == 0 || (bit (p.ctx c.ctx).record 1 &&
        (decide (svMaxTok (p.ctx c.ctx).serve < fld (c.num 0x0A) 0 32) || decide (svStreams (p.ctx c.ctx).serve ≤ fld (c.num 0x0A) 32 6)))) stRange] =
      none := by
  rw [firstBad_passed (by simp [hz]), firstBad_passed (by simp [hid, h0, Nat.not_lt.mpr hmax, Nat.not_le.mpr hst]), firstBad_none]

theorem joins_find_none {l : List Join} {n : Nat} (h : ∀ j ∈ l, j.id ≠ n) : l.find? (fun j => j.id == n) = none :=
  List.find?_eq_none.mpr (by simpa using h)

/-- Settles O41: each clause is the answer of its row, once the tests before it have passed. -/
theorem runAndServeCommands : Obligations.RunAndServeCommands := by
  refine ⟨fun s k i ts => ⟨?run, ?preempt⟩, fun s k i ts => ⟨?join, ?leave⟩⟩
  case run =>
    dsimp only
    generalize hp : s.pkg.taken _ k = p
    intro h
    refine ⟨fun hs => commits_at rfl h rfl hp rfl rfl ?_, fun hs => commits_at rfl h rfl hp rfl rfl ?_, fun hl hs => refuses_at rfl h rfl hp rfl rfl ?_⟩
    · rw [Pkg.cmdOf_ctx rfl]
      exact (if_neg (by simp [hs])).trans (if_pos hs)
    · rw [Pkg.cmdOf_ctx rfl]
      exact (if_neg (by simp [hs])).trans (if_neg (by simp [hs]))
    · rw [Pkg.cmdOf_ctx rfl, Pkg.badState_eq rfl]
      exact if_pos (by simp [hl, hs])
  case preempt =>
    dsimp only
    generalize hp : s.pkg.taken _ k = p
    generalize hc : p.cmdOf _ k i ts = c
    intro h hfl hr hf he
    have hfmt : firstBad [defect (c.num 0x0D / 2 != 0) stReserved] = none := by
      rw [firstBad_passed (by simp [Nat.div_eq_of_lt hfl]), firstBad_none]
    refine ⟨fun hs => pends_at rfl h (by simpa using hs) hp hc hfmt ?_, fun hs => pends_at rfl h (by simpa using hs) hp hc hfmt ?_⟩
    · rw [Pkg.cmdOf_ctx hc, Cmd.token_eq hc]
      exact (if_neg (by simp [hr, hf, he])).trans (if_pos rfl)
    · rw [Pkg.cmdOf_ctx hc, Cmd.token_eq hc]
      exact (if_neg (by simp [hr, hf, he])).trans (if_neg (by simp))
  case join =>
    dsimp only
    generalize hp : s.pkg.taken _ k = p
    generalize hc : p.cmdOf _ k i ts = c
    intro h hz hid h0 he hv hmax hst
    have hfmt := serveJoin_wellFormed hz hid h0 hmax hst
    refine ⟨fun hk => refuses_at rfl h rfl hp hc hfmt ?_, fun hk hf => refuses_at rfl h rfl hp hc hfmt ?_, fun hk hf hn => pends_at rfl h rfl hp hc hfmt ?_⟩
    · exact (if_neg (by simp [he, hv])).trans (if_pos hk)
    · exact (if_neg (by simp [he, hv])).trans ((if_neg (by simp [hk])).trans (if_pos hf))
    · rw [Cmd.token_eq hc]
      exact (if_neg (by simp [he, hv])).trans ((if_neg (by simp [hk])).trans ((if_neg (Nat.not_le.mpr hf)).trans (if_neg (Nat.not_lt.mpr hn))))
  case leave =>
    dsimp only
    generalize hp : s.pkg.taken _ k = p
    generalize hc : p.cmdOf _ k i ts = c
    intro h hid
    have hfmt : firstBad [defect (c.num 0x0E == 0xFFFF_FFFF) stReserved] = none := by
      rw [firstBad_passed (by simp [hid]), firstBad_none]
    refine ⟨fun j hj => commits_at rfl h rfl hp hc hfmt ?_, fun hj hs => commits_at rfl h rfl hp hc hfmt ?_, fun hj hs => refuses_at rfl h rfl hp hc hfmt ?_⟩
    · dsimp only
      rw [hj]
    · dsimp only
      rw [joins_find_none hj]
      exact if_pos (by simpa using hs)
    · dsimp only
      rw [joins_find_none hj]
      exact if_neg (by simpa using hs)

end Sys2Proof.Machine
end

