-- ==== Sys2Proof/Proofs/SlotCommands.lean ====
section
/-! LOAD_PROGRAM, BIND_SLOT, UNBIND_SLOT and SET_DEADLINE (R35 to R38, R50, R51, R221 to R223); MEM_MAP and POWER_POLICY (R283, R302, R458,
R460, R473): each clause is the answer of its row; the obligations settled from them. -/

namespace Sys2Proof.Machine

/-! ## Programs, slots and windows (O42) -/

/-- R223: a well-formed image whose features and formats the package has passes. -/
theorem loadProgram_wellFormed {p : Pkg} {c : Cmd} (hres : imgReserved c.body = false) (hok : imgOk c.body = true)
    (hfe : fld (leNat (c.body.take 64)) 48 8 ≤ (p.die p.primary).pkgFeature) (hpair : imgPairs c.body = true) :
    firstBad [defect (imgReserved c.body) stReserved, defect (!imgOk c.body) stImageFormat,
      defect (decide ((p.die p.primary).pkgFeature < fld (leNat (c.body.take 64)) 48 8)) stImageFeature, defect (!imgPairs c.body) stFormatPair] = none := by
  rw [firstBad_passed hres, firstBad_passed (by simp [hok]), firstBad_passed (by simpa using hfe), firstBad_passed (by simp [hpair]), firstBad_none]

/-- R50: a binding record of its length, without reserved bits and in range. -/
theorem bindSlot_wellFormed {p : Pkg} {c : Cmd} (hlen : c.body.length = 256) (hres : bindReserved c.strct = false)
    (hok : p.bindOk c.ctx c.strct = true) :
    firstBad [badLen c 256, defect (bindReserved c.strct) stReserved, defect (!p.bindOk c.ctx c.strct) stRange] = none := by
  rw [firstBad_badLen hlen, firstBad_passed hres, firstBad_passed (by simp [hok]), firstBad_none]

/-- Settles O42: each clause is the answer of its row, once the tests before it have passed. -/
theorem slotCommands : Obligations.SlotCommands := by
  refine fun s k i ts => ⟨?load, ?bind, ?unbind, ?deadline⟩
  case load =>
    dsimp only
    generalize hp : s.pkg.taken _ k = p
    generalize hc : p.cmdOf _ k i ts = c
    intro h hup hres hok hfe hpair he hb hf hbw hq0 hq1 hs hw
    refine commits_at rfl h rfl hp hc (loadProgram_wellFormed hres hok hfe hpair) ?_
    exact (if_neg he).trans ((if_neg (by simp [hup])).trans ((if_neg (by simpa using hb)).trans ((if_neg (by simp [hf, hbw, hq0, hq1])).trans
      ((if_neg hs).trans (Pkg.unlessFails_none hw)))))
  case bind =>
    dsimp only
    generalize hp : s.pkg.taken _ k = p
    generalize hc : p.cmdOf _ k i ts = c
    intro h hup hlen hres hok he hi hic hw hb hcore hr1 hr2 hst
    have hadm : ¬(((bitsOf 384 (fld c.strct 0 384)).any fun g => !(p.die (dieOfCore g)).admitted) = true) := by
      simpa using fun g hg => (hcore g hg).1
    have hthr : ¬(((bitsOf 384 (fld c.strct 0 384)).any fun g =>
        decide ((p.freeThreads g).length < hdrThreads (p.slot (c.num 3)).hdr)) = true) := by
      simpa using fun g hg => (hcore g hg).2.1
    have hfoot : ¬(((bitsOf 384 (fld c.strct 0 384)).any fun g => !bit (recFoot (p.ctx c.ctx).record) g) = true) := by
      simpa using fun g hg => (hcore g hg).2.2
    refine commits_at rfl h rfl hp hc (bindSlot_wellFormed hlen hres hok) ((if_neg (by simp [he, hi, hic])).trans ?_)
    rw [hw]
    exact (if_neg (by simp [hb])).trans ((if_neg (by simp [hup])).trans ((if_neg hadm).trans ((if_neg (by simp [hr1, hr2])).trans
      ((if_neg (Nat.not_lt.mpr hst)).trans ((if_neg hthr).trans (if_neg hfoot))))))
  case unbind =>
    dsimp only
    generalize hp : s.pkg.taken _ k = p
    generalize hc : p.cmdOf _ k i ts = c
    intro h hb hx
    refine ⟨fun hq => refuses_at rfl h rfl hp hc rfl ?_, fun hq h1 h2 hv => commits_at rfl h rfl hp hc rfl ?_⟩
    · exact (if_neg (by simp [hb, hx])).trans (if_pos (by simp [hq]))
    · exact (if_neg (by simp [hb, hx])).trans ((if_neg (by simp [hq])).trans (if_neg (by simpa [h1, h2] using hv)))
  case deadline =>
    dsimp only
    generalize hp : s.pkg.taken _ k = p
    generalize hc : p.cmdOf _ k i ts = c
    intro h hr hb hx
    have hfmt : firstBad [defect (decide (0 < c.num 5) && decide (c.num 5 < 1000)) stRange] = none := by
      rw [firstBad_passed (by simp; omega), firstBad_none]
    refine ⟨fun h0 => commits_at rfl h rfl hp hc hfmt ?_, fun h0 hv ha => refuses_at rfl h rfl hp hc hfmt ?_, fun h0 hv ha hs => commits_at rfl h rfl hp hc hfmt ?_⟩
    · exact (if_neg (by simp [hb, hx])).trans (if_pos h0)
    · exact (if_neg (by simp [hb, hx])).trans ((if_neg h0).trans ((if_neg (by simp [hv])).trans (if_pos (by simp [ha]))))
    · exact (if_neg (by simp [hb, hx])).trans ((if_neg h0).trans ((if_neg (by simp [hv])).trans ((if_neg (by simp [ha])).trans (if_neg (by simp [hs])))))

/-! ## Memory and power (O43) -/

/-- R458: a region record of its length, without reserved bits, in range and free of its owner's regions. -/
theorem memMap_wellFormed {c : Cmd} (hn : c.num 8 ≤ 2) (hlen : c.body.length = 32) (hres : regReserved c.strct = false) {b : Bool} (hb : b = false) :
    firstBad [badLen c 32, defect (regReserved c.strct) stReserved, defect (decide (2 < c.num 8)) stRange, defect b stRange] = none := by
  rw [firstBad_badLen hlen, firstBad_passed hres, firstBad_passed (by simpa using hn), firstBad_passed hb, firstBad_none]

/-- Settles O43: each clause is the answer of its row, once the tests before it have passed. -/
theorem memoryAndPowerCommands : Obligations.MemoryAndPowerCommands := by
  refine fun s k i ts => ⟨?memMap, ?power⟩
  case memMap =>
    dsimp only
    generalize hp : s.pkg.taken _ k = p
    generalize hc : p.cmdOf _ k i ts = c
    refine fun h => ⟨?map, ?unmap, ?part⟩
    case map =>
      intro hrow h8 hlen hres hba hpg how htop hov hst hlim hw
      refine commits_at rfl h hrow hp hc (memMap_wellFormed (by omega) hlen hres (by simp [hba, hpg, hov, how, htop])) ?_
      exact (if_neg (by simp [hov])).trans ((if_neg (by simpa using hst)).trans ((if_neg (Nat.not_le.mpr hlim)).trans (Pkg.unlessFails_none hw)))
    case unmap =>
      intro hrow h8 hlen hres x hx
      have hany : (p.regions.any fun y => y.base == (regOf c.strct).base) = true :=
        List.any_eq_true.mpr ⟨x, List.mem_of_find?_eq_some hx, List.find?_some (p := fun y : Region => y.base == (regOf c.strct).base) hx⟩
      have hfmt := memMap_wellFormed (by omega) hlen hres (b := !(p.regions.any fun y => y.base == (regOf c.strct).base)) (by simp [hany])
      refine ⟨fun hh => refuses_at rfl h hrow hp hc hfmt ?_, fun hh hw => commits_at rfl h hrow hp hc hfmt ?_⟩
      · rw [hx]
        exact if_pos (by simpa using hh)
      · rw [hx]
        exact (if_neg (by simpa using hh)).trans (Pkg.unlessFails_none hw)
    case part =>
      intro hrow h8 hlen hres hlo hhi hsum hw
      have hfmt : firstBad [badLen c 16, defect (fld c.strct 69 59 != 0) stReserved, defect (decide (2 < c.num 8)) stRange,
          defect (decide (fld c.strct 52 17 < 16) || decide (65536 < fld c.strct 52 17)) stRange] = none := by
        rw [firstBad_badLen hlen, firstBad_passed (by simp [hres]), firstBad_passed (by simp [h8]), firstBad_passed (by simp [hlo, hhi]), firstBad_none]
      exact commits_at rfl h hrow hp hc hfmt ((if_neg (by simpa using hsum)).trans (Pkg.unlessFails_none hw))
  case power =>
    dsimp only
    generalize hp : s.pkg.taken _ k = p
    generalize hc : p.cmdOf _ k i ts = c
    intro h hlen hz hlo hhi hdom
    have hfmt : firstBad [badLen c 388, defect (fld c.strct 16 16 != 0) stReserved,
        defect (decide (polCap c.strct < 1500) || decide (6200 < polCap c.strct) ||
          (List.range 96).any fun d => decide (360 < polCeil c.strct d) || decide (polCeil c.strct d < polFloor c.strct d)) stRange] = none := by
      rw [firstBad_badLen hlen, firstBad_passed (by simp [hz]), firstBad_passed (by simpa [hlo, hhi] using hdom), firstBad_none]
    exact commits_at rfl h rfl hp hc hfmt rfl

end Sys2Proof.Machine
end

