-- ==== Sys2Proof/Proofs/PortCommands.lean ====
section
/-! SET_TOPOLOGY, SET_ROUTES and the actions of PORT_CONTROL (R108, R119, R121, R454 to R456, Table 17.8): each clause is the answer of its
row; the obligation settled from them. -/

namespace Sys2Proof.Machine

/-! ## SET_ROUTES -/

/-- No entry of the table fails a test that none fails. -/
theorem firstEntry_none {es : List Rec} {f : Nat → Rec → Bool} (h : ∀ i e, es[i]? = some e → f i e = false) : firstEntry es f = none := by
  simp only [firstEntry, Option.map_eq_none_iff, List.find?_eq_none, Bool.not_eq_true]
  rintro ⟨e, i⟩ he
  exact h i e (List.mem_zipIdx_iff_getElem?.mp he)

/-- A test of the entries that none fails. -/
theorem firstBad_entries {o : Option Nat} {st : Nat} {l : List (Bool × Nat × List Byte)} (h : o = none) :
    firstBad (entryDefect o st :: l) = firstBad l := by
  rw [h]
  rfl

/-- R119: two entries that stand apart never name one address range. -/
theorem routes_distinct {es : List Rec} (h : es.Pairwise fun x y => ¬(rtDest x = rtDest y ∧ rtPlen x = rtPlen y)) {i : Nat} {e : Rec}
    (he : es[i]? = some e) : ((es.take i).any fun x => rtDest x == rtDest e && rtPlen x == rtPlen e) = false := by
  obtain ⟨hi, rfl⟩ := List.getElem?_eq_some_iff.mp he
  simp only [List.any_eq_false, Bool.and_eq_true, beq_iff_eq]
  intro x hx
  obtain ⟨j, hj, rfl⟩ := List.mem_take_iff_getElem.mp hx
  exact List.pairwise_iff_getElem.mp h j i _ hi (by omega)

/-- R119, R455: a route structure whose entries are well formed and distinct passes. -/
theorem setRoutes_wellFormed {c : Cmd} (hlen : c.body.length = 16 + 16 * fld c.strct 0 32) (hz : fld c.strct 52 76 = 0)
    (hes : ∀ e ∈ (List.range ((c.body.length - 16) / 16)).map (rtEntry c.strct), rtReserved e = false ∧ rtPrefix e = true)
    (hlim : fld c.strct 32 20 = 0 ∨ (100 ≤ fld c.strct 32 20 ∧ fld c.strct 32 20 ≤ 100000))
    (hpair : ((List.range ((c.body.length - 16) / 16)).map (rtEntry c.strct)).Pairwise fun x y => ¬(rtDest x = rtDest y ∧ rtPlen x = rtPlen y)) :
    firstBad [
      defect (c.body.length != 16 + 16 * fld c.strct 0 32 || c.body.length < 16) stRouteFormat, defect (fld c.strct 52 76 != 0) stReserved,
      entryDefect (firstEntry ((List.range ((c.body.length - 16) / 16)).map (rtEntry c.strct)) fun _ e => rtReserved e) stReserved,
      defect (fld c.strct 32 20 != 0 && (decide (fld c.strct 32 20 < 100) || decide (100000 < fld c.strct 32 20))) stRange,
      entryDefect (firstEntry ((List.range ((c.body.length - 16) / 16)).map (rtEntry c.strct)) fun i e => !rtPrefix e ||
        (((List.range ((c.body.length - 16) / 16)).map (rtEntry c.strct)).take i).any fun x => rtDest x == rtDest e && rtPlen x == rtPlen e)
          stRouteFormat] = none := by
  rw [firstBad_passed (by simp [hlen]), firstBad_passed (by simp [hz]),
    firstBad_entries (firstEntry_none fun i e he => (hes e (List.mem_of_getElem? he)).1),
    firstBad_passed (by rcases hlim with h | h <;> simp [h]),
    firstBad_entries (firstEntry_none fun i e he => by rw [routes_distinct hpair he, (hes e (List.mem_of_getElem? he)).2]; rfl), firstBad_none]

/-! ## PORT_CONTROL -/

/-- The format of an action's own parameters (Table 17.8). -/
def portFmt : Nat → Cmd → Option (Nat × List Byte)
  | 1, c => firstBad [
      defect (c.has 1 && c.body.length != 16) stBadParam, defect (fld (c.num 10) 30 34 != 0 || (c.has 1 && fld c.strct 71 57 != 0)) stReserved,
      defect (fld (c.num 10) 0 20 == 0 || decide (1000000 < fld (c.num 10) 0 20) || decide (1000 < fld (c.num 10) 20 10) ||
        (c.has 1 && bit c.strct 68 && fld c.strct 0 68 != 0)) stRange]
  | 7, c => firstBad [
      defect (fld (c.num 10) 44 20 != 0) stReserved,
      defect (decide (fld (c.num 10) 0 24 < 10) || decide (10000 < fld (c.num 10) 0 24) || fld (c.num 10) 24 20 == 0 ||
        decide (1000 < fld (c.num 10) 24 20)) stRange]
  | 8, c => firstBad [defect (c.num 10 / 2 != 0) stReserved]
  | _, _ => none

/-- The effect of an action on physical port n (Table 17.8). -/
def portRun : Nat → Pkg → Cmd → Nat → Pkg
  | 0, p, _, n =>
    if (p.port n).draining then p
    else if (p.port n).state = .active || (p.port n).state = .narrow then p.retrain n false true
    else if (p.port n).state = .down && (tabGet false p.lnkLost (n / 4) || p.portHeld n) then p
    else p.portTrain n false
  | 1, p, c, n => p.darkBegin n (1000 * fld (c.num 10) 0 20) (if c.has 1 then some (topPeer c.strct) else none)
  | 2, p, _, n => p.darkEnd n
  | 3, p, _, n =>
    ((((p.linkItems n none).modPort n fun q => { q with darkPending := false, darkNoticeOut := false, darkLeft := 0 }).portTo n .dead).linkLoss n true).floorEval
  | 4, p, _, n => ((p.modPort n fun q => { q with trainFails := 0 }).portTo n .down).floorEval
  | 5, p, _, n => p.portHello n
  | 6, p, _, _ => (p.routesBuild.regrant p).drainTransit
  | 7, p, c, n => p.modPort n fun q => { q with retrainUs := fld (c.num 10) 0 24, drainUs := fld (c.num 10) 24 20 }
  | _, p, c, n => p.modPort n fun q =>
    let q := { q with bootServe := bit (c.num 10) 0 }
    if q.serves then (if q.bootOpen then q else q.openBoot) else { q with bootOpen := false }

section Port
variable {s : State} {x : Instr} {k : Pkt} {i : Nat} {ts : List TlvE} {action : Nat} {value : Bool} {fmt : Cmd → Option (Nat × List Byte)}
variable {legal : PState → Bool} {run : Pkg → Cmd → Nat → Pkg} {p : Pkg} {c : Cmd}
variable (hx : exec x s = .next { s with pkg := s.pkg.portCmd k action value fmt legal run })
  (h : Ready s.pkg { code := 0x22, req := if value then [7, 8, 10] else [7, 8], opt := if value then [1] else [1, 10] } k i ts)
  (hm : rowIs 8 action 8 ((parseTlvs (k.params.length + 1) k.params).getD []) = true)
  (hp : s.pkg.taken { code := 0x22, req := if value then [7, 8, 10] else [7, 8], opt := if value then [1] else [1, 10] } k = p)
  (hc : p.cmdOf { code := 0x22, req := if value then [7, 8, 10] else [7, 8], opt := if value then [1] else [1, 10] } k i ts = c)
  (h8 : c.num 8 ≤ 8) (hf : fmt c = none)
include hx h hm hp hc h8 hf

/-- An action from a state it is legal from acts on the port and shows it (R456). -/
theorem commits_port (hl : legal (p.port (p.physPort (c.num 7))).state = true) :
    Commits s x { code := 0x22, req := if value then [7, 8, 10] else [7, 8], opt := if value then [1] else [1, 10] } k i
      (run p c (p.physPort (c.num 7))) ((run p c (p.physPort (c.num 7))).stateTlv none (some (p.physPort (c.num 7)))) := by
  subst hp hc
  rw [Commits, hx, Pkg.portCmd, Pkg.luajo_ready h hm ((if_neg (Nat.not_lt.mpr h8)).trans hf)]
  simp only [hl, Bool.not_true, Bool.false_eq_true, if_false]

/-- From any other state it is refused, with the state (R456). -/
theorem refuses_port (hl : legal (p.port (p.physPort (c.num 7))).state = false) :
    Refuses s x { code := 0x22, req := if value then [7, 8, 10] else [7, 8], opt := if value then [1] else [1, 10] } k i stBadState
      (p.stateTlv none (some (p.physPort (c.num 7)))) := by
  subst hp hc
  rw [Refuses, hx, Pkg.portCmd, Pkg.luajo_ready h hm ((if_neg (Nat.not_lt.mpr h8)).trans hf)]
  simp only [hl, Bool.not_false, if_true]

end Port

/-- A port that carries is not draining. -/
theorem Port.draining_of_carries {q : Port} (h : q.state = .active ∨ q.state = .narrow) : q.draining = false := by
  rcases h with h | h <;> simp [Port.draining, h]

/-- The rows of PORT_CONTROL; those without VALUE have no parameter to test. -/
theorem exec_portRow (s : State) (k : Pkt) : ∀ r ∈ ([
    (.portRetrain, 0, false, notDeadDark), (.portDark, 1, true, notDeadDark), (.portWake, 2, false, fun st => st == .dark),
    (.portDisable, 3, false, fun _ => true), (.portReset, 4, false, fun st => st == .dead), (.portRecheck, 5, false, fun st => st == .quarantine),
    (.portRebalance, 6, false, fun _ => !s.pkg.stepActive), (.portLimits, 7, true, fun _ => true), (.portBootServe, 8, true, fun _ => true)] :
      List ((Pkt → Instr) × Nat × Bool × (PState → Bool))),
    exec (r.1 k) s = .next { s with pkg := s.pkg.portCmd k r.2.1 r.2.2.1 (portFmt r.2.1) r.2.2.2 (portRun r.2.1) } ∧ r.2.1 ≤ 8 ∧
      (r.2.2.1 = false → portFmt r.2.1 = fun _ => none) := by
  simp only [List.forall_mem_cons, List.not_mem_nil, false_implies, implies_true, and_true]
  exact ⟨⟨rfl, by decide, fun _ => rfl⟩, ⟨rfl, by decide, nofun⟩, ⟨rfl, by decide, fun _ => rfl⟩, ⟨rfl, by decide, fun _ => rfl⟩,
    ⟨rfl, by decide, fun _ => rfl⟩, ⟨rfl, by decide, fun _ => rfl⟩, ⟨rfl, by decide, fun _ => rfl⟩, ⟨rfl, by decide, nofun⟩,
    ⟨rfl, by decide, nofun⟩⟩

/-- Settles O45: each clause is the answer of its row, once the tests before it have passed. -/
theorem topologyAndPortCommands : Obligations.TopologyAndPortCommands := by
  refine ⟨fun s k i ts => ⟨?topology, ?routes⟩, fun s k i ts r hr => ?port⟩
  case topology =>
    dsimp only
    generalize hp : s.pkg.taken _ k = p
    generalize hc : p.cmdOf _ k i ts = c
    intro h hres hok
    have hfmt : firstBad [defect (topReserved c.strct) stReserved, defect (!topOk c.strct c.body.length) stTopologyFormat] = none := by
      rw [firstBad_passed hres, firstBad_passed (by simp [hok]), firstBad_none]
    exact commits_at rfl h rfl hp hc hfmt rfl
  case routes =>
    dsimp only
    generalize hp : s.pkg.taken _ k = p
    generalize hc : p.cmdOf _ k i ts = c
    intro h hlen hz hes hlim hpair hst hn
    exact commits_at rfl h rfl hp hc (setRoutes_wellFormed hlen hz hes hlim hpair) ((if_neg (by simp [hst])).trans (if_neg (Nat.not_lt.mpr hn)))
  case port =>
    obtain ⟨hx, hle, hnone⟩ := exec_portRow s k r hr
    clear hr
    obtain ⟨mk, action, value, legal⟩ := r
    dsimp only at hx hle hnone ⊢
    generalize hp : s.pkg.taken _ k = p
    generalize hc : p.cmdOf _ k i ts = c
    intro h hm h8
    have h8' : c.num 8 ≤ 8 := h8 ▸ hle
    refine ⟨fun hl h1 hv => refuses_port hx h hm hp hc h8' (by rw [hnone hv]) hl, fun hl => ?_⟩
    have does {q : Pkg} (hf : portFmt action c = none) (hq : portRun action p c (p.physPort (c.num 7)) = q) :
        Commits s (mk k) { code := 0x22, req := if value then [7, 8, 10] else [7, 8], opt := if value then [1] else [1, 10] } k i q
          (q.stateTlv none (some (p.physPort (c.num 7)))) := by
      rw [← hq]
      exact commits_port hx h hm hp hc h8' hf hl
    refine ⟨fun hst ha => ?retrain, fun hd h1 h2 h3 ha => ?train, fun hz h0 hmx hdr hno ha => ?dark, fun ha => ?wake, fun ha => ?disable,
      fun ha => ?reset, fun ha => ?recheck, fun ha => ?rebalance, fun hz hlo hhi h0 hdr ha => ?limits, fun hv ha => ?boot⟩ <;> subst ha
    case retrain =>
      exact does rfl ((if_neg (by rw [Port.draining_of_carries hst]; exact Bool.false_ne_true)).trans (if_pos (by simpa using hst)))
    case train =>
      exact does rfl ((if_neg (by simp [hd])).trans ((if_neg (by simp [h1, h2])).trans (if_neg (by simp [h3]))))
    case dark =>
      refine does ?_ (by simp [portRun, hno])
      rw [portFmt, firstBad_passed (by simp [hno]), firstBad_passed (by simp [hz, hno]), firstBad_passed (by simp [hno, h0, hmx, hdr]), firstBad_none]
    case wake => exact does rfl rfl
    case disable => exact does rfl rfl
    case reset => exact does rfl rfl
    case recheck => exact does rfl rfl
    case rebalance => exact does rfl rfl
    case limits =>
      refine does ?_ rfl
      rw [portFmt, firstBad_passed (by simp [hz]), firstBad_passed (by simp [hlo, hhi, h0, hdr]), firstBad_none]
    case boot =>
      refine does ?_ rfl
      rw [portFmt, firstBad_passed (by simp [Nat.div_eq_of_lt hv]), firstBad_none]

end Sys2Proof.Machine
end

