-- ==== Sys2Proof/Proofs/RegisterCommands.lean ====
section
/-! REG_READ, REG_WRITE, resets, HANDOVER and the reading commands (R334, R387, R461 to R464, R484, R488): each clause is the answer of its
row; the obligation settled from them. -/

namespace Sys2Proof.Machine

/-! ## A refusal by the row's own format rules -/

/-- A ready command is decided by its row (R525). -/
theorem Pkg.luajo_eq_ljRun {p : Pkg} {op : LjOp} {k : Pkt} {i : Nat} {ts : List TlvE} {mine : List TlvE → Bool}
    {fmt : Pkg → Cmd → Option (Nat × List Byte)} {run : Pkg → Cmd → Ans} (h : Ready p op k i ts)
    (hm : mine ((parseTlvs (k.params.length + 1) k.params).getD []) = true) :
    p.luajo op k mine fmt run = (p.taken op k).ljRun op k i fmt run := by
  obtain ⟨hears, hhdr, hplace, hmac, hroom, hload, hseq, hwin, hnew, hidle, hbound, hform, hlegal⟩ := h
  have hfull : (decide (256 ≤ (p.arrivedBy k.src).undecided) || ((p.arrivedBy k.src).ident.loading.isSome && op.legal != 0)) = false := by
    change (decide (256 ≤ p.undecided) || (p.ident.loading.isSome && op.legal != 0)) = false
    rcases hload with hl | hl <;> simp [hl, hroom]
  have hstale : (decide (k.seq.toNat = 0) || (decide (64 ≤ (p.session i).high) && decide (k.seq.toNat ≤ (p.session i).high - 64))) = false := by
    simp [hseq]; omega
  have hwait : ((p.session i).waiting.any fun x => x.seq == k.seq.toNat) = false := by simpa using hidle
  have hscope : ((p.session i).bound && (!op.bound || (op.ofCtx && k.context.toNat != (p.session i).ctx))) = false := by
    cases hb : (p.session i).bound
    · rfl
    · obtain ⟨hopb, hctx⟩ := hbound hb
      cases ho : op.ofCtx <;> simp_all
  simp only [Pkg.luajo, hears, hm, hhdr, hplace, Bool.not_true, Bool.or_self, Bool.false_eq_true, if_false, Pkg.session_arrivedBy, hmac,
    bne_self_eq_false]
  refine (if_neg (Bool.eq_false_iff.mp hfull)).trans ((if_neg (Bool.eq_false_iff.mp hstale)).trans ?_)
  simp only [notCached hnew, hwait, hscope, Bool.false_eq_true, if_false]
  rfl

/-- A format defect of its own refuses a command (R448). -/
theorem refuses_of_format {s : State} {x : Instr} {op : LjOp} {k : Pkt} {i st : Nat} {ts : List TlvE} {mine : List TlvE → Bool}
    {fmt : Pkg → Cmd → Option (Nat × List Byte)} {run : Pkg → Cmd → Ans} {p : Pkg} {c : Cmd} {ps : List Byte}
    (hx : exec x s = s.run fun p => p.luajo op k mine fmt run) (h : Ready s.pkg op k i ts)
    (hm : mine ((parseTlvs (k.params.length + 1) k.params).getD []) = true) (hp : s.pkg.taken op k = p) (hc : p.cmdOf op k i ts = c)
    (hf : fmt p c = some (st, ps)) : Refuses s x op k i st ps := by
  subst hp hc
  have hform : (s.pkg.taken op k).ljFormat op k = (none, ts) := by
    obtain ⟨-, -, -, -, -, -, -, -, -, -, -, hform, -⟩ := h
    exact hform
  rw [Refuses, hx, State.run_eq, Pkg.luajo_eq_ljRun h hm, Pkg.ljRun, hform]
  simp only [hf]

/-! ## REG_READ and REG_WRITE -/

/-- R464: a read of one aligned register of a block passes. -/
theorem regRead_wellFormed {p : Pkg} {a n : Nat} (hn : n = 1) (ha : a % 8 = 0) (ho : regOff a + 8 ≤ 65536) (hr : (p.reg a).isNone = false) :
    firstBad [
      defect (n == 0 || decide (64 < n)) stRange
      , defect (a % 8 != 0 || decide (65536 < regOff a + 8 * n) || (List.range (Nat.min n 64)).any fun i => (p.reg (a + 8 * i)).isNone) stBadRegister] =
        none := by
  subst hn
  rw [firstBad_passed (b := 1 == 0 || decide (64 < 1)) rfl, firstBad_passed (by simp [ha, hr]; omega), firstBad_none]

/-- The register may be written with this value (R464). -/
def RegAcc.takes (p : Pkg) (a v mask old : Nat) : RegAcc → Prop
  | .rw w => (p.regPut a (rwMerge old v mask w)).isSome = true
  | .w1c _ _ _ | .wo => True
  | _ => False

/-- An RW register takes a value its fields are in range of. -/
theorem RegAcc.takes_rw {p q : Pkg} {a v mask old w : Nat} (h : p.regPut a (rwMerge old v mask w) = some q) : (RegAcc.rw w).takes p a v mask old :=
  Option.isSome_iff_exists.mpr ⟨q, h⟩

section RegWrite
variable {s : State} {x : Instr} {k : Pkt} {i : Nat} {ts : List TlvE} {mine : Nat → Nat → Bool} {run : Pkg → Cmd → Ans} {p q : Pkg} {c : Cmd}
variable {st a v : Nat} {ps : List Byte} {acc : RegAcc} {old : Nat}
variable (hx : exec x s = s.run fun p => p.regWrite k mine run)
  (h : Ready s.pkg { code := 0x12, req := [9, 10], opt := [11], legal := 1 } k i ts)
  (h9 : regTlv ((parseTlvs (k.params.length + 1) k.params).getD []) 9 = some a)
  (h10 : regTlv ((parseTlvs (k.params.length + 1) k.params).getD []) 10 = some v) (hm : mine a v = true)
  (hp : s.pkg.taken { code := 0x12, req := [9, 10], opt := [11], legal := 1 } k = p)
  (hc : p.cmdOf { code := 0x12, req := [9, 10], opt := [11], legal := 1 } k i ts = c)
include hx h h9 h10 hm hp hc

/-- A REG_WRITE of a register that takes the value is decided by its row, or its die is out of service. -/
theorem regWrite_answers (hr : p.reg (c.num 9) = some (acc, old)) (ha : c.num 9 % 8 = 0)
    (hacc : acc.takes p (c.num 9) (c.num 10) (if c.has 11 then c.num 11 else 2 ^ 64 - 1) old) :
    (p.regDown (c.num 9) false = true → Refuses s x { code := 0x12, req := [9, 10], opt := [11], legal := 1 } k i stDieUnavailable []) ∧
    (p.regDown (c.num 9) false = false → run p c = .ok q ps → Commits s x { code := 0x12, req := [9, 10], opt := [11], legal := 1 } k i q ps) ∧
    (p.regDown (c.num 9) false = false → run p c = .no st ps → Refuses s x { code := 0x12, req := [9, 10], opt := [11], legal := 1 } k i st ps) := by
  have hrow : (fun ts => match regTlv ts 9, regTlv ts 10 with | some a, some v => mine a v | _, _ => true)
      ((parseTlvs (k.params.length + 1) k.params).getD []) = true := by
    dsimp only
    rw [h9, h10]
    exact hm
  have hfmt : (match p.reg (c.num 9) with
      | some (.rw w, old) => if c.num 9 % 8 != 0 then some (stBadRegister, []) else
          if (p.regPut (c.num 9) (rwMerge old (c.num 10) (if c.has 11 then c.num 11 else 2 ^ 64 - 1) w)).isNone then some (stRegValue, []) else none
      | some (.w1c _ _ _, _) | some (.wo, _) => if c.num 9 % 8 != 0 then some (stBadRegister, []) else none
      | _ => some (stBadRegister, ([] : List Byte))) = none := by
    rw [hr]
    cases acc with
    | ro | rc => exact hacc.elim
    | wo | w1c => exact if_neg (by simp [ha])
    | rw w => exact (if_neg (by simp [ha])).trans (if_neg (by rw [Option.isNone_iff_eq_none]; exact Option.isSome_iff_ne_none.mp hacc))
  exact ⟨fun hd => refuses_at hx h hrow hp hc hfmt (if_pos hd),
    fun hd hq => commits_at hx h hrow hp hc hfmt ((if_neg (by simp [hd])).trans hq),
    fun hd hq => refuses_at hx h hrow hp hc hfmt ((if_neg (by simp [hd])).trans hq)⟩

end RegWrite

/-! ## The obligation (O46) -/

/-- Settles O46: each clause is the answer of its row, once the tests before it have passed. -/
theorem registerAndReadCommands : Obligations.RegisterAndReadCommands := by
  refine ⟨fun s k i ts => ⟨?read, ?write⟩, fun s k i ts => ⟨?info, ?counters, ?events, ?tally, ?peek⟩⟩
  case read =>
    dsimp only
    generalize hp : s.pkg.taken _ k = p
    generalize hc : p.cmdOf _ k i ts = c
    intro acc v h h12 ha ho hr hacc hd
    have hn : (if c.has 12 = true then c.num 12 else 1) = 1 := if_neg (by simp [h12])
    refine commits_at rfl h rfl hp hc (regRead_wellFormed hn ha ho (by rw [hr]; rfl)) ((if_neg (by simp [hd])).trans ?_)
    rw [hn]
    simp only [show List.range 1 = [0] from rfl, List.foldl_cons, List.foldl_nil, Nat.mul_zero, Nat.add_zero, hr, List.nil_append]
  case write =>
    dsimp only
    generalize hp : s.pkg.taken _ k = p
    generalize hc : p.cmdOf _ k i ts = c
    intro h9 h10 h ha
    refine ⟨fun hnr hnh => ⟨fun w old q hr hq => ⟨fun hd => ?rw, fun hd => ?down⟩, fun f n bits old hr hd => ?w1c, fun old hr => ?ro⟩,
      fun hrq hwo hd hne hup => ?reset, fun hh hwo hd => ⟨fun hb hprim hdie hsync heth => ?handover, fun hprim => ?notPrimary⟩⟩
    case rw =>
      refine (regWrite_answers (st := 0) rfl h h9 h10 (by simp [hnr, hnh]) hp hc hr ha (RegAcc.takes_rw hq)).2.1 hd ?_
      dsimp only
      rw [hr]
      exact congrArg (Ans.ok · []) (by rw [hq]; rfl)
    case down => exact (regWrite_answers (q := p) (st := 0) (ps := []) rfl h h9 h10 (by simp [hnr, hnh]) hp hc hr ha (RegAcc.takes_rw hq)).1 hd
    case w1c =>
      refine (regWrite_answers (st := 0) rfl h h9 h10 (by simp [hnr, hnh]) hp hc hr ha trivial).2.1 hd ?_
      dsimp only
      rw [hr]
    case ro =>
      refine refuses_of_format rfl h (mine := _) ?_ hp hc ?_
      · dsimp only
        rw [h9, h10]
        simp [hnr, hnh]
      · dsimp only
        rw [hr]
    case reset =>
      obtain ⟨old, hr⟩ := hwo
      have htest : ¬((decide (fld (c.num 10) 0 5 = p.primary) || !p.dieUp (fld (c.num 10) 0 5)) = true) := by simp [hne, hup]
      exact ⟨fun hb => (regWrite_answers (st := 0) rfl h h9 h10 (by simp [hrq, hb]) hp hc hr ha trivial).2.1 hd (if_neg htest),
        fun hb => (regWrite_answers (st := 0) rfl h h9 h10 (by simp [hrq, hb]) hp hc hr ha trivial).2.1 hd (if_neg htest)⟩
    case handover =>
      obtain ⟨old, hr⟩ := hwo
      exact (regWrite_answers (st := 0) rfl h h9 h10 hh hp hc hr ha trivial).2.1 hd (if_pos (by simp [hb, hprim, hdie, hsync, heth]))
    case notPrimary =>
      obtain ⟨old, hr⟩ := hwo
      exact (regWrite_answers (q := p) rfl h h9 h10 hh hp hc hr ha trivial).2.2 hd (if_neg (by simp [hprim]))
  case info =>
    dsimp only
    generalize hp : s.pkg.taken _ k = p
    generalize hc : p.cmdOf _ k i ts = c
    intro pg h hpg
    refine commits_at rfl h rfl hp hc (if_neg (by simp [hpg])) ?_
    rw [hpg]
    rfl
  case counters =>
    dsimp only
    generalize hp : s.pkg.taken _ k = p
    generalize hc : p.cmdOf _ k i ts = c
    intro e b h he hb hz hn hlt
    have hent : (ctrCatalogue.find? fun x => x.1 == fld (c.num 0x15) 0 16).map (·.2) = some e.2 := by rw [he]; rfl
    refine commits_at rfl h rfl hp hc ?_ ?_
    · dsimp only
      rw [hent]
      exact if_neg (by simp [hz, hn]; omega)
    · dsimp only
      rw [hent, hn]
      simp only [show List.range 1 = [0] from rfl, List.foldl_cons, List.foldl_nil, hb, Nat.add_zero]
  case events =>
    dsimp only
    generalize hp : s.pkg.taken _ k = p
    generalize hc : p.cmdOf _ k i ts = c
    intro h hz
    have hfmt : firstBad [defect (c.num 0x0D / 2 != 0) stReserved] = none := by
      rw [firstBad_passed (by simp [Nat.div_eq_of_lt hz]), firstBad_none]
    exact ⟨fun hd => commits_at rfl h (beq_iff_eq.mpr hd) hp hc hfmt rfl, fun hd => commits_at rfl h (beq_iff_eq.mpr hd) hp hc hfmt rfl⟩
  case tally =>
    dsimp only
    generalize hp : s.pkg.taken _ k = p
    intro h hst
    exact commits_at rfl h rfl hp rfl rfl (if_neg hst)
  case peek =>
    dsimp only
    generalize hp : s.pkg.taken _ k = p
    generalize hc : p.cmdOf _ k i ts = c
    intro bs h hpk hz hlo hhi hlen
    refine commits_at rfl h rfl hp hc ?_ ?_
    · dsimp only
      rw [hpk]
      dsimp only
      rw [firstBad_passed (by simp [hz]), firstBad_passed (by simp [hlo, hhi, hlen]), firstBad_none]
    · dsimp only
      rw [hpk]
      rfl

end Sys2Proof.Machine
end

