-- ==== Sys2Proof/Proofs/SessionCommands.lean ====
section
/-! SESSION_OPEN, SESSION_CLOSE and the idle timeout (R443, R445, R465): the obligation settled from the fresh identifier, the session table
and the header of a reply. -/

namespace Sys2Proof.Machine

/-! ## A fresh identifier -/

/-- R443: the identifiers tried in turn from a free value on. -/
def idCandidates (rid : Nat) : List Nat := (List.range 65).map fun j => (rid + j) % (2 ^ 32 - 1) + 1

theorem idCandidates_nodup (rid : Nat) : (idCandidates rid).Nodup := by
  refine List.pairwise_map.mpr ((List.nodup_range (n := 65)).imp_of_mem fun {a b} ha hb hab h => ?_)
  rw [List.mem_range] at ha hb
  omega

/-- The candidates outnumber 64 identifiers, so one of them is fresh. -/
theorem idCandidates_fresh (rid : Nat) {used : List Nat} (h : used.length ≤ 64) :
    ∃ v, (idCandidates rid).find? (fun v => !used.contains v) = some v ∧ 0 < v ∧ v < 2 ^ 32 ∧ v ∉ used := by
  have hsome : ((idCandidates rid).find? fun v => !used.contains v).isSome := by
    rw [Option.isSome_iff_ne_none]
    intro hnone
    have hsub : idCandidates rid ⊆ used := fun v hv => by simpa using List.find?_eq_none.mp hnone v hv
    have hle := (idCandidates_nodup rid).length_le_of_subset hsub
    have hlen : (idCandidates rid).length = 65 := by rw [idCandidates, List.length_map, List.length_range]
    omega
  obtain ⟨v, hv⟩ := Option.isSome_iff_exists.mp hsome
  have hnew : v ∉ used := by simpa using List.find?_some (p := fun v => !used.contains v) hv
  obtain ⟨j, -, rfl⟩ := List.mem_map.mp (List.mem_of_find?_eq_some hv)
  exact ⟨_, hv, by omega, by omega, hnew⟩

/-! ## Replies -/

/-- A frame that leaves touches no session. -/
theorem Pkg.session_leave (p : Pkg) (prio : Option Nat) (o : Out) (j : Nat) : (p.leave prio o).session j = p.session j := by
  rw [Pkg.leave]
  cases p.headOf prio o <;> rfl

theorem Pkg.session_ethSend (p : Pkg) (prio : Option Nat) (o : Out) (j : Nat) : (p.ethSend prio o).session j = p.session j := by
  cases prio with
  | none =>
    simp only [Pkg.ethSend, apply_ite (fun q : Pkg => q.session j), Pkg.session_leave, ite_self]
  | some n =>
    simp only [Pkg.ethSend, apply_ite (fun q : Pkg => q.session j), Pkg.session_leave]
    exact (congrArg (ite _ _) (ite_self _)).trans (ite_self _)

/-- A reply that leaves touches no session. -/
theorem Pkg.session_sendReply (p : Pkg) (src : Src) (bytes : List Byte) (j : Nat) : (p.sendReply src bytes).session j = p.session j := by
  cases src with
  | own _ _ vlan => exact Pkg.session_ethSend _ _ _ _
  | relay _ _ _ => rfl

/-- R446: an answered session keeps the reply. -/
theorem Pkg.session_reply (p : Pkg) (i : Nat) (w : WaitCmd) (st : Nat) (ps : List Byte) :
    ∃ mac, (p.reply i w st ps).session i = (p.session i).keepReply w.seq p.now (replyHeader w (p.session i).id.toNat st ps.length ++ ps ++ mac) :=
  ⟨_, (Pkg.session_sendReply _ _ _ _).trans ((Pkg.session_setSession _ _ _ _).trans (if_pos rfl))⟩

/-- A header's opcode and status stand in its bits 80 and 144 (R442). -/
theorem replyHeader_opcode (w : WaitCmd) (id st len : Nat) (rest : List Byte) :
    fld (leNat ((replyHeader w id st len ++ rest).take 24)) 80 16 = w.opcode % 2 ^ 16 := by
  rw [replyHeader, List.take_left' (length_toLe _ _), leNat_toLe]
  simp only [fld_eq, put_eq]
  have : b2n w.ctxF < 2 := by cases w.ctxF <;> decide
  omega

theorem replyHeader_status (w : WaitCmd) (id st len : Nat) (rest : List Byte) :
    fld (leNat ((replyHeader w id st len ++ rest).take 24)) 144 16 = st % 2 ^ 16 := by
  rw [replyHeader, List.take_left' (length_toLe _ _), leNat_toLe]
  simp only [fld_eq, put_eq]
  omega

/-- R445: does a session keep the OK of the SESSION_CLOSE of a number? -/
def Session.closedBy (seq : Nat) (x : Session) : Bool :=
  x.cache.any fun e => e.1 == seq && fld (leNat (e.2.take 24)) 80 16 == 2 && fld (leNat (e.2.take 24)) 144 16 == 0

/-- A session that has no reply of that number keeps none of its SESSION_CLOSE. -/
theorem Session.closedBy_of_fresh {x : Session} {seq : Nat} (h : ∀ e ∈ x.cache, e.1 ≠ seq) : x.closedBy seq = false := by
  simp only [Session.closedBy, List.any_eq_false, Bool.and_eq_true, beq_iff_eq, not_and]
  exact fun e he hs => absurd hs.1 (h e he)

/-- A session answered OK to its SESSION_CLOSE keeps that reply while the number is in the window (R446). -/
theorem Session.closedBy_keepReply {x : Session} {w : WaitCmd} {id len now : Nat} {rest : List Byte} (hop : w.opcode = 2)
    (hw : x.high < w.seq + 64) : (x.keepReply w.seq now (replyHeader w id 0 len ++ rest)).closedBy w.seq = true := by
  refine List.any_eq_true.mpr ⟨(w.seq, replyHeader w id 0 len ++ rest), List.mem_filter.mpr ⟨List.mem_cons_self, ?_⟩, ?_⟩
  · have : Nat.max x.high w.seq < w.seq + 64 := Nat.max_lt.mpr ⟨hw, by omega⟩
    simpa using this
  · simp [replyHeader_opcode, replyHeader_status, hop]

/-! ## The commands -/

/-- The value of a TLV, empty when it is not there. -/
def tlvVal (ts : List TlvE) (ty : Nat) : List Byte := match ts.find? fun e => e.1 == ty with | some e => e.2 | none => []

/-- R443: the session that SESSION_OPEN makes of the drawn secret `sec`, nonce `dn` and identifier `sid`. -/
def Pkg.openedSession (p : Pkg) (k : Pkt) (ts : List TlvE) (x : Nat) (dn : List Byte) (sid : Nat) : Session where
  openF := true
  id := BitVec.ofNat 32 sid
  bound := k.ctxF
  ctx := if k.ctxF then k.context.toNat else 0
  keyId := leNat (tlvVal ts 0x14)
  kCmd := Config.hkdf x (tlvVal ts 0x12 ++ dn) (2 * leNat (txtLj1 ++ toLe 8 p.serial ++ toLe 4 sid)) % 2 ^ 384
  kRep := Config.hkdf x (tlvVal ts 0x12 ++ dn) (2 * leNat (txtLj1 ++ toLe 8 p.serial ++ toLe 4 sid) + 1) % 2 ^ 384
  opened := p.now
  lastNs := p.now
  src := some k.src

/-- R443: the signed answer without its MAC. -/
def Pkg.openedReply (p : Pkg) (k : Pkt) (ts : List TlvE) (sec : Nat) (dn : List Byte) (sid : Nat) : List Byte :=
  let dpub : List Byte := 4 :: toBe 96 (Config.ecPub sec)
  let sig := Config.ecdsaSign p.identKey (Config.sha384 (p.ljText txtAccept [toLe 4 sid, tlvVal ts 0x11, tlvVal ts 0x12, dpub, dn]))
  let ps := tlv 0x11 dpub ++ tlv 0x12 dn ++ tlv 0x13 (toBe 96 sig) ++ tlv 0x84 (toLe 4 sid)
  replyHeader (pktWait k 1) 0 0 ps.length ++ ps

/-- R443: what SESSION_OPEN makes of a known key and of what it draws: a secret, a nonce and a first identifier to try. -/
def Pkg.openAnswer (p : Pkg) (k : Pkt) (ts : List TlvE) (key : List Byte) (sec nn rid : Nat) : Pkg :=
  match Config.ecdsaOk (leNat key) (Config.sha384 (p.ljText txtOpen [tlvVal ts 0x11, tlvVal ts 0x12])) (leNat (tlvVal ts 0x13)),
    Config.ecdh sec (tlvVal ts 0x11) with
  | true, some x =>
    match (List.range 64).find? fun i => !(p.session i).openF with
    | none => p.replyBare (pktWait k 1) stSessionFull []
    | some i =>
      let sid := ((idCandidates rid).find? fun v => !((List.range 64).map fun j => (p.session j).id.toNat).contains v).getD 1
      let v := p.openedSession k ts x (toLe 32 nn) sid
      let body := p.openedReply k ts sec (toLe 32 nn) sid
      (p.setSession i v).sendReply k.src (body ++ mac16 v.kRep body)
  | _, _ => p.replyBare (pktWait k 1) stAuthKey []

section OpenAnswer
variable {p : Pkg} {k : Pkt} {ts : List TlvE} {key : List Byte} {sec nn rid x : Nat}

/-- A signature that fails opens nothing. -/
theorem Pkg.openAnswer_refused
    (h : Config.ecdsaOk (leNat key) (Config.sha384 (p.ljText txtOpen [tlvVal ts 0x11, tlvVal ts 0x12])) (leNat (tlvVal ts 0x13)) = false) :
    p.openAnswer k ts key sec nn rid = p.replyBare (pktWait k 1) stAuthKey [] := by
  rw [Pkg.openAnswer, h]

variable (h : Config.ecdsaOk (leNat key) (Config.sha384 (p.ljText txtOpen [tlvVal ts 0x11, tlvVal ts 0x12])) (leNat (tlvVal ts 0x13)) = true)
  (hx : Config.ecdh sec (tlvVal ts 0x11) = some x)
include h hx

/-- With no place free nothing opens. -/
theorem Pkg.openAnswer_full (hf : (List.range 64).find? (fun i => !(p.session i).openF) = none) :
    p.openAnswer k ts key sec nn rid = p.replyBare (pktWait k 1) stSessionFull [] := by
  rw [Pkg.openAnswer, h, hx]
  dsimp only
  rw [hf]

/-- The first free place takes the session, under an identifier that no place has. -/
theorem Pkg.openAnswer_opened {i : Nat} (hf : (List.range 64).find? (fun i => !(p.session i).openF) = some i) :
    ∃ sid, 0 < sid ∧ sid < 2 ^ 32 ∧ (∀ n < 64, (p.session n).id.toNat ≠ sid) ∧
      p.openAnswer k ts key sec nn rid = (p.setSession i (p.openedSession k ts x (toLe 32 nn) sid)).sendReply k.src
        (p.openedReply k ts sec (toLe 32 nn) sid ++
          mac16 (p.openedSession k ts x (toLe 32 nn) sid).kRep (p.openedReply k ts sec (toLe 32 nn) sid)) := by
  obtain ⟨sid, hsid, hpos, hlt, hnew⟩ := idCandidates_fresh rid (used := (List.range 64).map fun j => (p.session j).id.toNat) (by simp)
  refine ⟨sid, hpos, hlt, fun n hn he => hnew (List.mem_map.mpr ⟨n, List.mem_range.mpr hn, he⟩), ?_⟩
  rw [Pkg.openAnswer, h, hx]
  dsimp only
  rw [hf]
  dsimp only
  rw [hsid]
  rfl

end OpenAnswer

/-- R443: the package after the three values SESSION_OPEN draws. -/
def Pkg.drawn (p : Pkg) : Pkg := { p with free := p.free + 3 }

/-- The text of an opening and of its answer, part after part. -/
theorem Pkg.ljText_open (p : Pkg) (a b : List Byte) : p.ljText txtOpen [a, b] = txtOpen ++ toLe 8 p.serial ++ a ++ b := by
  simp [Pkg.ljText]

theorem Pkg.ljText_accept (p : Pkg) (a b c d e : List Byte) :
    p.ljText txtAccept [a, b, c, d, e] = txtAccept ++ toLe 8 p.serial ++ (a ++ b ++ c ++ d ++ e) := by
  simp [Pkg.ljText]

/-- SESSION_OPEN of a known key that passes its tests. -/
theorem sessionOpen_answers {s : State} {k : Pkt} {ts : List TlvE} {key : List Byte} {op : LjOp}
    (hop : op = { code := 1, req := [0x11, 0x12, 0x13, 0x14], legal := 0 }) {p : Pkg} (hp : s.pkg.taken op k = p)
    (hh : s.pkg.hears k.src = true) (hb : pktBadHeader k = false) (hs : k.session = 0) (hu : s.pkg.undecided < 256)
    (hfmt : p.ljFormat op k = (none, ts)) (hkey : p.ident.opKeys[leNat (tlvVal ts 0x14)]? = some key) :
    Makes s (.sessionOpen k) (p.drawn.openAnswer k ts key (Config.freeValue p.free % 2 ^ 384)
      (Config.freeValue (p.free + 1) % 2 ^ 256) (Config.freeValue (p.free + 2) % 2 ^ 32)) := by
  subst hop
  refine congrArg (fun p => Host.Outcome.next { s with pkg := p }) ?_
  refine (if_neg (by simp [hh])).trans ((if_neg (by simp [hb])).trans ((if_neg (by simp [hs])).trans ((if_neg (Nat.not_le.mpr hu)).trans ?_)))
  rw [Pkg.taken] at hp
  dsimp only
  rw [hp, hfmt]
  dsimp only
  generalize hv : p.ident.opKeys[(_ : Nat)]? = found
  obtain rfl : found = some key := hv.symm.trans hkey
  rfl

/-- SESSION_CLOSE answered OK closes its session. -/
theorem sessionClose_completes {s : State} {k : Pkt} {i : Nat} {ts : List TlvE} (h : Ready s.pkg { code := 2, bound := true, legal := 0 } k i ts) :
    exec (.sessionClose k) s =
      .next { s with pkg := ((s.pkg.taken { code := 2, bound := true, legal := 0 } k).reply i (pktWait k 2) 0 []).closeSession i } := by
  have hq : s.pkg.luajo { code := 2, bound := true, legal := 0 } k anyTlv noFmt (fun p _ => .ok p []) =
      (s.pkg.taken { code := 2, bound := true, legal := 0 } k).reply i (pktWait k 2) 0 [] := Pkg.luajo_ready h rfl rfl
  obtain ⟨-, -, hplace, -, -, -, -, hwin, hnew, -⟩ := h
  obtain ⟨mac, hses⟩ := Pkg.session_reply (s.pkg.taken { code := 2, bound := true, legal := 0 } k) i (pktWait k 2) 0 []
  have hclosed : (((s.pkg.taken { code := 2, bound := true, legal := 0 } k).reply i (pktWait k 2) 0 []).session i).closedBy k.seq.toNat = true := by
    rw [hses, List.append_assoc]
    exact Session.closedBy_keepReply (w := pktWait k 2) rfl hwin
  refine congrArg (fun p => Host.Outcome.next { s with pkg := p }) ?_
  dsimp only
  rw [hq, hplace]
  exact if_pos (Bool.and_eq_true_iff.mpr ⟨hclosed, by rw [Bool.not_eq_true']; exact Session.closedBy_of_fresh hnew⟩)

/-- A closed session's place is free. -/
theorem Pkg.session_closeSession (p : Pkg) (i : Nat) : (p.closeSession i).session i = {} :=
  (Pkg.session_setSession p i i {}).trans (if_pos rfl)

/-- Settles O47: the tests of R443 in order; the tests of SESSION_CLOSE are those of every command, and its reply is the one it looks for. -/
theorem sessionCommands : Obligations.SessionCommands := by
  refine fun s => ⟨?opens, fun k i ts h => ⟨_, sessionClose_completes h, Pkg.session_closeSession _ _, rfl⟩,
    fun n ho => ⟨fun hd => ?idles, fun hd => ?stays⟩⟩
  case idles => exact congrArg (fun p => Host.Outcome.next { s with pkg := p }) (if_pos (c := ((s.pkg.session n).openF && !(s.pkg.session n).decided) = true) (by simp [ho, hd]))
  case stays => exact congrArg (fun p => Host.Outcome.next { s with pkg := p }) (if_neg (c := ((s.pkg.session n).openF && !(s.pkg.session n).decided) = true) (by simp [hd]))
  case opens =>
    intro k ts key op p w val sec dn dpub text q hh hb hs hu hfmt hkey
    have hrun := sessionOpen_answers (s := s) (p := p) rfl rfl hh hb hs hu hfmt hkey
    refine ⟨fun hsig => ?refused, fun x hsig hx => ⟨fun hfull => ?full, fun j hj => ?opened⟩⟩
    case refused =>
      rwa [Pkg.openAnswer_refused (by rw [Pkg.ljText_open]; exact hsig)] at hrun
    case full =>
      have hnone : (List.range 64).find? (fun i => !(p.drawn.session i).openF) = none :=
        List.find?_eq_none.mpr fun n hn => Bool.eq_false_iff.mp ((congrArg not (hfull n (List.mem_range.mp hn))).trans rfl)
      rwa [Pkg.openAnswer_full (by rw [Pkg.ljText_open]; exact hsig) hx hnone] at hrun
    case opened =>
      obtain ⟨sid, hpos, hlt, hnew, hans⟩ := Pkg.openAnswer_opened (p := p.drawn) (k := k) (ts := ts) (nn := Config.freeValue (p.free + 1) % 2 ^ 256)
        (rid := Config.freeValue (p.free + 2) % 2 ^ 32) (by rw [Pkg.ljText_open]; exact hsig) hx hj
      rw [hans, Pkg.openedReply, Pkg.ljText_accept] at hrun
      exact ⟨sid, hpos, hlt, hnew, hrun⟩

end Sys2Proof.Machine
end

