-- ==== Sys2Proof/Proofs/BulkCommands.lean ====
section
/-! The six actions of BULK_DESCRIBE (R428, R430, R432, R459): one reading of the rows by action, each clause the answer of its row, and the
obligation settled from them. -/

namespace Sys2Proof.Machine

/-- The range tests of an action (R459). -/
def bulkTests : Nat → Pkg → Rec → Bool
  | 0, _, r => qpnBad r || fld r 48 2 == 3
  | 2, p, r => bkKey r == 0 || !p.keyFits r
  | 3, p, r => !p.eth.keys.any fun (y : BulkKey) => y.rkey == bkKey r
  | _, p, r => p.noQp r

/-- The preconditions and effect of an action (R459). -/
def bulkRun : Nat → Pkg → Cmd → Ans
  | 0, p, c =>
    if (p.qp (bkQpn c.strct)).state != 0 then .no stQpLimit []
    else if !p.ownPort then .no stHostPortDown []
    else .ok (p.setQp (bkQpn c.strct) {
      state := 1, rqpn := fld c.strct 24 24, mtu := bkMtu c.strct, sqPsn := fld c.strct 64 24, rqPsn := fld c.strct 88 24, ip := fld c.strct 128 128 }) []
  | 1, p, c =>
    if !p.ownPort then .no stHostPortDown []
    else .ok ((match (p.qp (bkQpn c.strct)).slot with | some j => p.dropUnposted j | none => p).setQp (bkQpn c.strct) {}) []
  | 2, p, c =>
    if !p.ownPort then .no stHostPortDown []
    else .ok { p with eth := { p.eth with
      keys := ⟨bkKey c.strct, bkBase c.strct, bkPages c.strct, fld c.strct 368 2⟩ :: p.eth.keys.filter fun (y : BulkKey) => y.rkey != bkKey c.strct } } []
  | 3, p, c =>
    if !p.ownPort then .no stHostPortDown []
    else .ok { p with eth := { p.eth with keys := p.eth.keys.filter fun (y : BulkKey) => y.rkey != bkKey c.strct } } []
  | 4, p, c =>
    if !p.ownPort then .no stHostPortDown []
    else if !p.hostFed (bkSlot c.strct) || (p.qp (bkQpn c.strct)).state != 1 then p.badState c stBadState
    else
      let q : Pkg := { p with eth := { p.eth with
        qps := p.eth.qps.map fun (e : Nat × Qp) => (e.1, if e.2.slot = some (bkSlot c.strct) then { e.2 with slot := none } else e.2) } }
      .ok ((q.setQp (bkQpn c.strct) { q.qp (bkQpn c.strct) with slot := some (bkSlot c.strct) }).sendGrant (bkSlot c.strct) 0) []
  | _, p, c =>
    if !p.ownPort then .no stHostPortDown []
    else if (p.qp (bkQpn c.strct)).slot != some (bkSlot c.strct) then p.badState c stBadState
    else .ok ((p.setQp (bkQpn c.strct) { p.qp (bkQpn c.strct) with slot := none }).dropUnposted (bkSlot c.strct)) []

/-- The rows of BULK_DESCRIBE by their action. -/
theorem exec_bulkRow (s : State) (k : Pkt) : ∀ r ∈ ([
    (.bulkCreateQp, 0), (.bulkDestroyQp, 1), (.bulkRegisterKey, 2), (.bulkDeregisterKey, 3), (.bulkBindSlot, 4), (.bulkUnbindSlot, 5)] :
      List ((Pkt → Instr) × Nat)),
    (exec (r.1 k) s = s.run fun p => p.bulk k r.2 (bulkTests r.2) (bulkRun r.2)) ∧ r.2 ≤ 5 := by
  simp only [List.forall_mem_cons, List.not_mem_nil, false_implies, implies_true, and_true]
  exact ⟨⟨rfl, by decide⟩, ⟨rfl, by decide⟩, ⟨rfl, by decide⟩, ⟨rfl, by decide⟩, ⟨rfl, by decide⟩, ⟨rfl, by decide⟩⟩

/-- A record of an action whose tests it passes. -/
theorem bulk_wellFormed {c : Cmd} (hlen : c.body.length = 64) (hres : bkReserved c.strct = false) (ha : fld c.strct 0 4 ≤ 5) {b : Bool} (hb : b = false) :
    firstBad [badLen c 64, defect (bkReserved c.strct) stReserved, defect (decide (5 < fld c.strct 0 4) || b) stRange] = none := by
  rw [firstBad_badLen hlen, firstBad_passed hres, firstBad_passed (by simp [hb, ha]), firstBad_none]

/-- R428: a number from 1 to 4,096. -/
theorem qpnBad_eq_false {r : Rec} (h1 : 1 ≤ bkQpn r) (h2 : bkQpn r ≤ 4096) : qpnBad r = false := by
  simp [qpnBad, h2]; omega

/-- A record that names a queue pair that exists. -/
theorem Pkg.noQp_eq_false {p : Pkg} {r : Rec} (h : 1 ≤ bkQpn r ∧ bkQpn r ≤ 4096 ∧ (p.qp (bkQpn r)).state ≠ 0) : p.noQp r = false := by
  simp [Pkg.noQp, qpnBad_eq_false h.1 h.2.1, h.2.2]

/-- No pair gives up a slot that none carries. -/
theorem qps_unslotted {qps : Tab Qp} {j : Nat} (h : ∀ e ∈ qps, e.2.slot ≠ some j) :
    (qps.map fun e : Nat × Qp => (e.1, if e.2.slot = some j then { e.2 with slot := none } else e.2)) = qps := by
  refine Eq.trans (List.map_congr_left (g := id) fun e he => ?_) (List.map_id qps)
  rw [if_neg (h e he)]
  rfl

/-- Settles O49: each clause is the answer of its row, once the tests before it have passed. -/
theorem bulkCommands : Obligations.BulkCommands := by
  intro s k i ts r hr
  obtain ⟨hx, hle⟩ := exec_bulkRow s k r hr
  clear hr
  obtain ⟨mk, action⟩ := r
  dsimp only at hx hle ⊢
  generalize hp : s.pkg.taken _ k = p
  generalize hc : p.cmdOf _ k i ts = c
  intro h hm hlen hres hact
  have hfmt (hb : bulkTests action p c.strct = false) := bulk_wellFormed hlen hres (hact ▸ hle) hb
  have refuses (hb : bulkTests action p c.strct = false) {st : Nat} {ps : List Byte} (hq : bulkRun action p c = .no st ps) := refuses_at hx h hm hp hc (hfmt hb) hq
  have does (hb : bulkTests action p c.strct = false) {q : Pkg} (hq : bulkRun action p c = .ok q []) := commits_at hx h hm hp hc (hfmt hb) hq
  refine ⟨fun hport => ⟨fun ha h1 h2 hmtu hst => ?_, fun ha hk => ?_, fun ha hk hfit => ?_, fun ha hk => ?_⟩,
    fun hport => ⟨fun h1 h2 hmtu hst ha => ?create, fun hk => ⟨fun hs ha => ?destroy, fun j hs ha => ?destroyBound⟩, fun hk hfit ha => ?register,
      fun hk ha => ?deregister, fun hk hst hfed hs hfree ha => ?bind, fun hk hs ha => ?unbind⟩⟩
  · subst ha
    exact refuses (by simp [bulkTests, qpnBad_eq_false h1 h2, hmtu]) ((if_neg (by simp [hst])).trans (if_pos (by simp [hport])))
  · rcases ha with rfl | rfl | rfl <;> exact refuses (Pkg.noQp_eq_false hk) (if_pos (by simp [hport]))
  · subst ha
    exact refuses (by simp [bulkTests, hk, hfit]) (if_pos (by simp [hport]))
  · subst ha
    exact refuses (by simpa [bulkTests] using hk) (if_pos (by simp [hport]))
  case create =>
    subst ha
    exact does (by simp [bulkTests, qpnBad_eq_false h1 h2, hmtu]) ((if_neg (by simp [hst])).trans (if_neg (by simp [hport])))
  case destroy =>
    subst ha
    exact does (Pkg.noQp_eq_false hk) ((if_neg (by simp [hport])).trans (by rw [hs]))
  case destroyBound =>
    subst ha
    exact does (Pkg.noQp_eq_false hk) ((if_neg (by simp [hport])).trans (by rw [hs]))
  case register =>
    subst ha
    exact does (by simp [bulkTests, hk, hfit]) (if_neg (by simp [hport]))
  case deregister =>
    subst ha
    exact does (by simpa [bulkTests] using hk) (if_neg (by simp [hport]))
  case bind =>
    subst ha
    refine does (Pkg.noQp_eq_false hk) ((if_neg (by simp [hport])).trans ((if_neg (by simp [hfed, hst])).trans ?_))
    rw [qps_unslotted hfree]
  case unbind =>
    subst ha
    exact does (Pkg.noQp_eq_false hk) ((if_neg (by simp [hport])).trans (if_neg (by simp [hs])))

end Sys2Proof.Machine
end

