-- ==== Sys2Proof/Proofs/FirmwareCommands.lean ====
section
/-! FW_LOAD, ATTEST, a ready per-boot key and the end of an image verification (R451, R453, R497, R499, R502, R503): each clause is the
answer of its row; the obligation settled from them. -/

namespace Sys2Proof.Machine

/-- Settles O48: the two commands answer by their row, the two events by the tests of their condition. -/
theorem firmwareCommands : Obligations.FirmwareCommands := by
  refine fun s => ⟨fun k i ts => ?load, fun k i ts => ?attest, fun ha hk => ?keyReady, fun image tk hl => ⟨fun hr => ?rejected, fun hr => ?accepted⟩⟩
  case load =>
    dsimp only
    generalize hp : s.pkg.taken _ k = p
    generalize hc : p.cmdOf _ k i ts = c
    intro h
    subst hc
    exact pends_at rfl h rfl hp rfl rfl rfl
  case attest =>
    dsimp only
    generalize hp : s.pkg.taken _ k = p
    intro h
    refine ⟨fun hk ha => commits_at rfl h rfl hp rfl rfl (if_pos (by simp [hk, ha])), fun hno => pends_at rfl h rfl hp rfl rfl (if_neg ?_)⟩
    rcases hno with hk | ha <;> simp_all
  case keyReady => exact congrArg (fun p => Host.Outcome.next { s with pkg := p }) (if_pos (c := (s.pkg.answers && !s.pkg.ident.pbkReady) = true) (by simp [ha, hk]))
  case rejected =>
    refine congrArg (fun p => Host.Outcome.next { s with pkg := p }) ?_
    dsimp only
    rw [hl]
    exact if_pos (by simpa using hr)
  case accepted =>
    refine congrArg (fun p => Host.Outcome.next { s with pkg := p }) ?_
    dsimp only
    rw [hl]
    refine (if_neg (by simp [hr])).trans ?_
    simp only [Bool.or_eq_true, List.isEmpty_iff]

end Sys2Proof.Machine
end

