-- ==== Sys2Proof/Proofs/CompletionRows.lean ====
section
/-! Where each command completes (R448, R449, R525): a row that commits or pends under its obligation's conditions does so here. -/

namespace Sys2Proof.Machine

section Rows
variable {s : State} {k : Pkt} {i : Nat} {ts : List TlvE}

/-- An action of BULK_DESCRIBE whose record and tests pass, answered OK by its row. -/
theorem commits_bulk {x : Instr} {action : Nat} {p q : Pkg} {c : Cmd} {ps : List Byte}
    (hx : exec x s = s.run fun p => p.bulk k action (bulkTests action) (bulkRun action))
    (h : Ready s.pkg { code := 0x51, req := [1], ofCtx := true, legal := 1 } k i ts) (hle : action ≤ 5)
    (hp : s.pkg.taken { code := 0x51, req := [1], ofCtx := true, legal := 1 } k = p)
    (hc : p.cmdOf { code := 0x51, req := [1], ofCtx := true, legal := 1 } k i ts = c)
    (hm : bulkRow (fld c.strct 0 4) ((parseTlvs (k.params.length + 1) k.params).getD []) = true) (hlen : c.body.length = 64)
    (hres : bkReserved c.strct = false) (hact : fld c.strct 0 4 = action) (hb : bulkTests action p c.strct = false)
    (hq : bulkRun action p c = .ok q ps) : Commits s x { code := 0x51, req := [1], ofCtx := true, legal := 1 } k i q ps :=
  commits_at hx h (hact ▸ hm) hp hc (bulk_wellFormed hlen hres (hact ▸ hle) hb) hq

/-- A new session stands in the first free place. -/
theorem Pkg.session_opened (p : Pkg) (j : Nat) (v : Session) (src : Src) (bytes : List Byte) : ((p.setSession j v).sendReply src bytes).session j = v :=
  (Pkg.session_sendReply _ _ _ _).trans ((Pkg.session_setSession _ _ _ _).trans (if_pos rfl))

end Rows

/-- Settles O50: each row's own obligation names what it commits or pends as; the binding of a slot that another pair carried is the row's answer. -/
theorem luajoRowsComplete : Obligations.LuajoRowsComplete := by
  intro s k i ts
  obtain ⟨begin, commit, abort⟩ := stepAndReshardCommands.1 s k i ts
  obtain ⟨create, destroy, setClass⟩ := contextCommands s k i ts
  obtain ⟨run, preempt⟩ := runAndServeCommands.1 s k i ts
  obtain ⟨join, leave⟩ := runAndServeCommands.2 s k i ts
  obtain ⟨load, bind, unbind, deadline⟩ := slotCommands s k i ts
  obtain ⟨memMap, power⟩ := memoryAndPowerCommands s k i ts
  obtain ⟨policy, now, restore⟩ := securingCommands s k i ts
  obtain ⟨opens, closes, idles⟩ := sessionCommands s
  obtain ⟨fwLoad, attest, keyReady, verified⟩ := firmwareCommands s
  refine ⟨?begin, ?commit, ?abort, ?reshard, ?create, ?destroy, ?setClass, ?run, ?preempt, ?join, ?leave, ?load, ?bind, ?unbind, ?deadline,
    ?memMap, ?power, ?policy, ?now, ?restore, ?opens, ?closes, ?idles, ?fwLoad, ?attest, ?keyReady, ?verified, ?bulk⟩
  case begin => exact fun h hpol hhas h1 h2 he hf hn hnum hfree hobj hu hb => ⟨_, _, (begin h hpol hhas h1 h2 he hf hn hnum hfree hobj).2 hu hb⟩
  case commit => exact fun h h1 hn hr => ⟨_, (commit h).1 h1 hn hr⟩
  case abort =>
    exact fun h hfl hst hn => ⟨fun hf => ⟨_, (abort h hfl hst hn).1 hf⟩, fun hf hv hin => ⟨_, _, (abort h hfl hst hn).2.1 hf hv hin⟩⟩
  case reshard => exact fun h hres hok h1 hg hadm hw => ⟨_, _, (stepAndReshardCommands.2 s k i ts h hres hok h1).2 hg hadm hw⟩
  case create => exact fun h hres hok he hlim hobj hhalf hsave => ⟨_, _, create h hres hok he hlim hobj hhalf hsave⟩
  case destroy =>
    intro op p h he h1 h2 hs
    obtain ⟨q, hq, -⟩ := destroy h he h1 h2 hs
    exact ⟨_, _, hq⟩
  case setClass => exact fun h he hs => ⟨_, _, (setClass h he).1 hs⟩
  case run => exact fun h hs => hs.elim (fun hl => ⟨_, _, (run h).2.1 hl⟩) fun hw => ⟨_, _, (run h).1 hw⟩
  case preempt => exact fun h hfl hr hf he => ⟨fun hs => ⟨_, (preempt h hfl hr hf he).2 hs⟩, fun hs => ⟨_, (preempt h hfl hr hf he).1 hs⟩⟩
  case join => exact fun h hz hid h0 he hv hmax hst hk hf hn => ⟨_, (join h hz hid h0 he hv hmax hst).2.2 hk hf hn⟩
  case leave =>
    intro op p x id h hid hor
    obtain ⟨cancel, leaves, -⟩ := leave h hid
    cases hj : x.joins.find? fun j => j.id == id with
    | some j => exact ⟨_, _, cancel j hj⟩
    | none =>
      have hnone : ∀ j ∈ x.joins, j.id ≠ id := by simpa using List.find?_eq_none.mp hj
      exact ⟨_, _, leaves hnone (hor.resolve_left fun ⟨j, hm, he⟩ => hnone j hm he)⟩
  case load =>
    exact fun h hup hres hok hfe hpair he hb hf hbw hq0 hq1 hs hw => ⟨_, _, load h hup hres hok hfe hpair he hb hf hbw hq0 hq1 hs hw⟩
  case bind =>
    exact fun h hup hlen hres hok he hi hic hw hb hcore hr1 hr2 hst => ⟨_, _, bind h hup hlen hres hok he hi hic hw hb hcore hr1 hr2 hst⟩
  case unbind => exact fun h hb hx hq h1 h2 hv => ⟨_, _, (unbind h hb hx).2 hq h1 h2 hv⟩
  case deadline =>
    intro op p c x w h hb hx hor
    rcases hor with h0 | ⟨hlo, hv, ha, hs⟩
    · exact ⟨_, _, (deadline h (Or.inl h0) hb hx).1 h0⟩
    · exact ⟨_, _, (deadline h (Or.inr hlo) hb hx).2.2 (Nat.ne_of_gt (Nat.lt_of_lt_of_le (by decide) hlo)) hv ha hs⟩
  case memMap =>
    intro op p c r v q h
    obtain ⟨map, unmap, part⟩ := memMap h
    exact ⟨fun hrow h8 hlen hres hba hpg how htop hov hst hlim hw => ⟨_, _, map hrow h8 hlen hres hba hpg how htop hov hst hlim hw⟩,
      fun hrow h8 hlen hres x hx hh hw => ⟨_, _, (unmap hrow h8 hlen hres x hx).2 hh hw⟩,
      fun hrow h8 hlen hres hlo hhi hsum hw => ⟨_, _, part hrow h8 hlen hres hlo hhi hsum hw⟩⟩
  case power => exact fun h hlen hz hlo hhi hdom => ⟨_, _, power h hlen hz hlo hhi hdom⟩
  case policy =>
    exact fun h hres hok he h1 h2 hheld hspace hrows hpin => ⟨_, _, policy h hres hok he h1 h2 hheld hspace hrows hpin⟩
  case now => exact fun h he hroot ha hown => ⟨_, _, (now h he).2 hroot ha hown⟩
  case restore =>
    exact fun h hlen hres hlost hhost hseal hout he hf h1 h2 ha hc hr hq hst =>
      ⟨_, (restore h hlen hres hlost hhost hseal hout he hf h1 h2 ha hc hr hq).1 hst⟩
  case opens =>
    intro op p val key x hh hb hs hu hfmt hkey hfree hi hsig hx
    have hplace : ((List.range 64).find? fun n => !(s.pkg.session n).openF).isSome = true :=
      List.find?_isSome.mpr ⟨i, List.mem_range.mpr hi, by simp [hfree]⟩
    obtain ⟨j, hj⟩ := Option.isSome_iff_exists.mp hplace
    obtain ⟨sid, -, -, -, hq⟩ := ((opens k ts key hh hb hs hu hfmt hkey).2 x hsig hx).2 j hj
    exact ⟨j, _, hq, by simpa using List.find?_some (p := fun n => !(s.pkg.session n).openF) hj, congrArg Session.openF (Pkg.session_opened _ _ _ _ _)⟩
  case closes =>
    intro h
    obtain ⟨q, hq, hempty, -⟩ := closes k i ts h
    exact ⟨q, hq, congrArg Session.openF hempty⟩
  case idles => exact fun m ho hd => (idles m ho).1 hd
  case fwLoad => exact fun h => ⟨_, fwLoad k i ts h⟩
  case attest => exact fun h => ⟨fun hk ha => ⟨_, _, (attest k i ts h).1 hk ha⟩, fun hno => ⟨_, (attest k i ts h).2 hno⟩⟩
  case keyReady => exact keyReady
  case verified => exact fun image tk hl hr => ⟨_, (verified image tk hl).2 hr⟩
  case bulk =>
    dsimp only
    generalize hp : s.pkg.taken _ k = p
    generalize hc : p.cmdOf _ k i ts = c
    intro h hm hlen hres hport
    have hup : ¬((!p.ownPort) = true) := by simp [hport]
    have does {x : Instr} {a : Nat} {q : Pkg} {ps : List Byte} (hx : exec x s = s.run fun p => p.bulk k a (bulkTests a) (bulkRun a)) (hle : a ≤ 5)
        (ha : fld c.strct 0 4 = a) (hb : bulkTests a p c.strct = false) (hq : bulkRun a p c = .ok q ps) :
        ∃ (q : Pkg) (ps : List Byte), exec x s = .next { s with pkg := q.reply i (pktWait k 0x51) 0 ps } :=
      ⟨q, ps, commits_bulk hx h hle hp hc hm hlen hres ha hb hq⟩
    refine ⟨fun ha h1 h2 hmtu hst => does rfl (by decide) ha ?_ ((if_neg ?_).trans (if_neg hup)),
      fun ha hk => does rfl (by decide) ha (Pkg.noQp_eq_false hk) (if_neg hup),
      fun ha hk hfit => does rfl (by decide) ha ?_ (if_neg hup), fun ha hk => does rfl (by decide) ha ?_ (if_neg hup),
      fun ha hk hst hfed => does rfl (by decide) ha (Pkg.noQp_eq_false hk) ((if_neg hup).trans (if_neg ?_)),
      fun ha hk hs => does rfl (by decide) ha (Pkg.noQp_eq_false hk) ((if_neg hup).trans (if_neg ?_))⟩
    · simp [bulkTests, qpnBad_eq_false h1 h2, hmtu]
    · simp [hst]
    · simp [bulkTests, hk, hfit]
    · simpa [bulkTests] using hk
    · simp [hst, hfed]
    · simp [hs]

end Sys2Proof.Machine
end

