-- ==== Sys2Proof/Proofs/CoreEvents.lean ====
section
/-! Events of a core and the ends of background operations (R212, R214, R218, R231, R236, R245, R259, R288): each clause is the command's
branch; the obligation settled from them. -/

namespace Sys2Proof.Machine

/-- What an event makes of the package. -/
theorem makes_of {s : State} {x : Instr} {p q : Pkg} (hx : exec x s = .next { s with pkg := p }) (h : p = q) : Makes s x q := by
  rw [Makes, hx, h]

/-! ## Background operations -/

section Background
variable {s : State} {t : ThreadId} {n : Nat} {b : Bg} (hb : (s.pkg.thr t).bg.find? (fun b => b.id == n) = some b)
include hb

/-- R236: the operation that ends well. -/
theorem tagComplete_done {es : LineErrs} {q : Pkg} (h : s.pkg.bgComplete t b es = q) : Makes s (.tagComplete t n (.done es)) q :=
  makes_of rfl (by dsimp only; rw [hb]; exact h)

/-- R245: a scratchpad word that cannot be corrected is marked, and faults the thread. -/
theorem tagComplete_uncorrectable {x : Nat} (hx : x < 0x40_0000) : Makes s (.tagComplete t n (.spUncorrectable x))
    (((s.pkg.modCore (coreOf t) fun c => { c with spBad := tabSet false c.spBad (x / 32) true }).setFlag .coreStatus (coreOf t) 2).thrFault t fPoison
      b.pc b.inst) :=
  makes_of rfl (by dsimp only; rw [hb]; exact if_pos hx)

/-- R245: a load that loses its path. -/
theorem tagComplete_pathLost {a off len hint : Nat} (hk : b.kind = .load a off len hint) :
    Makes s (.tagComplete t n .pathLost) (s.pkg.thrFault t fPathLost b.pc b.inst) :=
  makes_of rfl (by dsimp only; rw [hb]; dsimp only; rw [hk]; rfl)

end Background

section Load
variable {p : Pkg} {t : Nat} {b : Bg} {a len hint : Nat} {es : LineErrs} {k : Pkg → List Byte → Pkg}

theorem Pkg.bgLoad_waits (h : p.bgTest a len = .waits) : p.bgLoad t b a len hint es k = p := by rw [Pkg.bgLoad, h]

theorem Pkg.bgLoad_unavailable (h : p.bgTest a len = .unavailable) : p.bgLoad t b a len hint es k = p.thrFault t fPathLost b.pc b.inst := by
  rw [Pkg.bgLoad, h]
  rfl

variable (h : p.bgTest a len = .ok)
include h

theorem Pkg.bgLoad_badWindow (hw : p.windowBad a len = true) :
    p.bgLoad t b a len hint es k = (p.setFlag .coreStatus (windowCore a) 2).thrFault t fPoison b.pc b.inst := by
  rw [Pkg.bgLoad, h]
  exact if_pos hw

theorem Pkg.bgLoad_poisoned (hw : p.windowBad a len = false) (hr : (p.memRead a len hint es).2.1 = true) :
    p.bgLoad t b a len hint es k = (p.memRead a len hint es).2.2.thrFault t fPoison b.pc b.inst := by
  rw [Pkg.bgLoad, h]
  exact (if_neg (by simp [hw])).trans (if_pos hr)

theorem Pkg.bgLoad_done (hw : p.windowBad a len = false) (hr : (p.memRead a len hint es).2.1 = false) :
    p.bgLoad t b a len hint es k =
      (k (((p.memRead a len hint es).2.2.windowRead a len).countMem t a len) (p.memRead a len hint es).1).endBg t b.id := by
  rw [Pkg.bgLoad, h]
  exact (if_neg (by simp [hw])).trans (if_neg (by simp [hr]))

end Load

/-- A write whose memory is ready puts its bytes there. -/
theorem Pkg.bgStore_done {p : Pkg} {t : Nat} {b : Bg} {a hint len : Nat} {bs : List Byte} {es : LineErrs} (hl : bs.length = len)
    (h : p.bgTest a len = .ok) :
    p.bgStore t b a bs hint es = (((p.memWrite a bs hint es).noteEgress t a len).countMem t a len).endBg t b.id := by
  subst hl
  rw [Pkg.bgStore, h]

/-- The scratchpad's corrections do not change how memory takes an operation. -/
theorem Pkg.bgTest_spRead (p : Pkg) (g off n a len : Nat) : (p.spRead g off n).bgTest a len = p.bgTest a len := by
  obtain ⟨m, cs, fs, h⟩ := p.spRead_eq g off n
  rw [h]; rfl

/-- Settles O13: the core's events test their condition; a background operation ends by its kind and by how its memory takes it. -/
theorem coreAndBackground : Obligations.CoreAndBackground := by
  refine ⟨fun s c t e => ⟨fun hi hq => ?quantum, fun hsel hw => ?miss, fun hw => ?fill, fun hr => ?retire, fun hs => ?ring⟩,
    fun s t n b a off len hint x v es hb => ⟨fun hk => ⟨fun ht hw => ⟨fun hr => ?loaded, fun hr => ?poisoned⟩, fun ht hw => ?badWindow,
      fun ht => ?waits, fun ht => ?unavailable, tagComplete_pathLost hb hk⟩, fun hk ht => ⟨fun hg => ?stored, fun hg => ?badWord⟩,
      fun hk ht => ?word, tagComplete_uncorrectable hb⟩⟩
  case quantum => exact makes_of rfl (if_pos (by simp [hi, hq]))
  case miss => exact makes_of rfl ((if_neg hw).trans (if_pos hsel))
  case fill => exact makes_of rfl (if_pos hw)
  case retire => exact makes_of rfl (if_neg (by simp [hr]))
  case ring => exact makes_of rfl (if_pos hs)
  case loaded => exact tagComplete_done hb (by rw [Pkg.bgComplete, hk]; exact Pkg.bgLoad_done ht hw hr)
  case poisoned => exact tagComplete_done hb (by rw [Pkg.bgComplete, hk]; exact Pkg.bgLoad_poisoned ht hw hr)
  case badWindow => exact tagComplete_done hb (by rw [Pkg.bgComplete, hk]; exact Pkg.bgLoad_badWindow ht hw)
  case waits => exact tagComplete_done hb (by rw [Pkg.bgComplete, hk]; exact Pkg.bgLoad_waits ht)
  case unavailable => exact tagComplete_done hb (by rw [Pkg.bgComplete, hk]; exact Pkg.bgLoad_unavailable ht)
  case stored =>
    refine tagComplete_done hb ?_
    rw [Pkg.bgComplete, hk]
    refine (if_neg (by simp [hg])).trans ((if_pos ht).trans (Pkg.bgStore_done ?_ ?_))
    · simp [Pkg.spBytes, Pkg.bytes]
    · rw [Pkg.bgTest_spRead, ht]
  case badWord =>
    refine tagComplete_done hb ?_
    rw [Pkg.bgComplete, hk]
    exact (if_pos hg).trans (if_neg (by rw [ht]; nofun))
  case word =>
    refine tagComplete_done hb ?_
    rw [Pkg.bgComplete, hk]
    exact Pkg.bgStore_done (length_toLe _ _) ht

end Sys2Proof.Machine
end

