-- ==== Sys2Proof/Proofs/EngineEvents.lean ====
section
/-! Events of the matrix and vector engines (R170, R175, R178, R183, R189, R207): each clause is the command's branch; the obligation settled
from them. -/

namespace Sys2Proof.Machine

/-- R214: reading the scratchpad leaves the cores as they are. -/
theorem Pkg.core_spReads (p : Pkg) (g : Nat) (rs : List (Nat × Nat)) (j : Nat) : (p.spReads g rs).core j = p.core j := by
  refine foldl_keeps (g := fun q : Pkg => q.core j) (fun q r => ?_) rs p
  obtain ⟨m, cs, fs, h⟩ := q.spRead_eq g r.1 r.2
  rw [h]
  rfl

/-- Settles O14: each event by the engine state it finds. -/
theorem engineEvents : Obligations.EngineEvents := by
  refine fun s c => ⟨fun op ops hr => ⟨fun hb => ?chunkBad, fun hb => ?chunk⟩, fun d hs hr hd => ?swap, fun d hd hs => ⟨fun hb => ?drainBad, fun hb hn => ?drain⟩,
    fun t o n hr ho hb hn => ?next, fun t o hr ho hb hn => ?last⟩
  case chunkBad => exact makes_of rfl (by dsimp only; rw [hr]; exact if_pos hb)
  case chunk => exact makes_of rfl (by dsimp only; rw [hr]; exact if_neg (by simp [hb]))
  case swap => exact makes_of rfl (by dsimp only; rw [hs]; exact if_neg (by simp [hr, hd]))
  case drainBad => exact makes_of rfl (by dsimp only; rw [hd]; exact if_pos hb)
  case drain =>
    have hidle : ¬(((((s.pkg.drainRun c d).spReads c (drainVec d)).modCore c fun k => { k with drain := none }).core c).swap.isSome &&
        ((((s.pkg.drainRun c d).spReads c (drainVec d)).modCore c fun k => { k with drain := none }).core c).running.isEmpty) = true := by
      simp [Pkg.core_spReads, hn]
    refine makes_of rfl ?_
    dsimp only
    rw [hd]
    refine (if_neg (by simp [hb])).trans ?_
    rw [if_neg hidle]
  case next =>
    refine makes_of rfl ?_
    dsimp only
    rw [hr]
    dsimp only
    rw [ho]
    refine (if_neg (by simp [hb])).trans ?_
    rw [hn]
  case last =>
    refine makes_of rfl ?_
    dsimp only
    rw [hr]
    dsimp only
    rw [ho]
    refine (if_neg (by simp [hb])).trans ?_
    rw [hn]

end Sys2Proof.Machine
end

