-- ==== Sys2Proof/Proofs/LinkEvents.lean ====
section
/-! Flits received and the timers of a port (R96 to R98, R100, R103, R106, R109, R112, R124): the obligation settled from the branches of
FLIT_RECEIVE, in their order. -/

namespace Sys2Proof.Machine

/-- The content of a packet-carrying, hello or control flit that passed (R97, R100). -/
def Pkg.takeContent (p : Pkg) (n hdr : Nat) (body : List Byte) : Pkg :=
  if fld hdr 0 4 = 5 then p.hello n (bytesHello body)
  else if fld hdr 0 4 = 6 then
    match Config.linkCtlOf body with
    | some m => p.linkCtl n m
    | none => p
  else if (1 ≤ fld hdr 0 4 && fld hdr 0 4 ≤ 4 || fld hdr 0 4 = 7) && (p.port n).carrying then p.takeFlit n hdr body
  else p

section Flit
variable {s : State} {n : PortId} {wire bs : List Byte} {m : Nat}
variable (ht : (s.pkg.port n).talks = true) (hx : (s.pkg.xing (linkDie n) (n % 4)).ready = true)

section Words
include ht hx

/-- R96: codewords that do not correct. -/
theorem flitReceive_uncorrectable (hw : fromWire (laneCount (s.pkg.port n).width) wire = none) :
    Makes s (.flitReceive n wire) ((s.pkg.bump .ldFecUncorr n).discardFlit n) := by
  refine makes_of rfl ((if_neg (by simp [ht, hx])).trans ?_)
  rw [hw]

variable (hw : fromWire (laneCount (s.pkg.port n).width) wire = some (bs, m))
include hw

/-- R97, R98: a CRC that fails under the expected number. -/
theorem flitReceive_badCrc (hc : flitCrcOk bs (s.pkg.port n).rxSeq.toNat = false) :
    Makes s (.flitReceive n wire) (((s.pkg.addCtr .ldFecCorr n m).bump .ldCrcErr n).discardFlit n) := by
  refine makes_of rfl ((if_neg (by simp [ht, hx])).trans ?_)
  rw [hw]
  exact if_pos (by simp [hc])

variable (hc : flitCrcOk bs (s.pkg.port n).rxSeq.toNat = true) (hs : (s.pkg.port n).state = .active ∨ (s.pkg.port n).state = .narrow)
include hc hs

/-- R97, R100: of a flit that passes on a port that carries, the acknowledgement and credits are taken, then its content. -/
theorem flitReceive_passed : Makes s (.flitReceive n wire)
    (((s.pkg.addCtr .ldFecCorr n m).takeAck n (leNat (bs.take 4))).takeContent n (leNat (bs.take 4)) ((bs.drop 4).take 248)) := by
  have hack : ¬(((s.pkg.port n).state = .hello && !(s.pkg.port n).bootOpen && !(s.pkg.port n).draining) = true) := by
    rcases hs with hs | hs <;> simp [hs]
  refine makes_of rfl ((if_neg (by simp [ht, hx])).trans ?_)
  rw [hw]
  refine (if_neg (by simp [hc])).trans ?_
  dsimp only
  rw [if_neg hack]
  rfl

end Words
end Flit

/-- Settles O15: a flit by the tests of R96 to R100 in their order; each timer by its condition. -/
theorem flitsAndTimers : Obligations.FlitsAndTimers := by
  refine ⟨fun s n wire bs m => ⟨fun hno => ?ignored, fun ht hx => ⟨flitReceive_uncorrectable ht hx, fun hw => ⟨flitReceive_badCrc ht hx hw, fun hc hs => ?_⟩⟩⟩,
    fun s n w => ⟨fun ht => ?hello, fun ht hs => ?idle, fun hc hn => ?nak, fun hc hr => ?replay, fun hc => ?control, fun hd => ?dark⟩⟩
  case ignored => exact makes_of rfl (if_pos (by rcases hno with h | h <;> simp [h]))
  case hello => exact makes_of rfl (if_pos ht)
  case idle => exact makes_of rfl (if_pos (by simp [ht, hs]))
  case nak => exact makes_of rfl (if_pos (by simp [hc, hn]))
  case replay => exact makes_of rfl (if_pos (by simp [hc, hr]))
  case control => exact makes_of rfl (by dsimp only; rw [Pkg.sendCtl, hc]; rfl)
  case dark => exact makes_of rfl (if_pos hd)
  have passed := flitReceive_passed ht hx hw hc hs
  refine ⟨fun h0 => ?_, fun h5 => ?_, fun c h6 hm => ?_, fun hcar hty => ?_⟩
  · rwa [Pkg.takeContent, if_neg (by omega), if_neg (by omega), if_neg (by simp [h0])] at passed
  · rwa [Pkg.takeContent, if_pos h5] at passed
  · rwa [Pkg.takeContent, if_neg (by omega), if_pos h6, hm] at passed
  · rwa [Pkg.takeContent, if_neg (by omega), if_neg (by omega), if_pos (by simpa [hcar] using hty)] at passed

end Sys2Proof.Machine
end

