-- ==== Sys2Proof/Proofs/PortTraining.lean ====
section
/-! The hello exchange and the training of a port (R107 to R116, R131, R134): the tests of a hello and of a training attempt in their order, and
the obligation settled from them. -/

namespace Sys2Proof.Machine

/-! ## The hello exchange -/

section Hello
variable {p : Pkg} {n : Nat} {h : Hello}

/-- R113: a hello in HELLO is checked while none has passed. -/
theorem Pkg.hello_checks (hs : (p.port n).state = .hello) (hd : (p.port n).draining = false) (hb : (p.port n).bootOpen = false)
    (ha : (p.port n).accepted = false) : p.hello n h = p.helloCheck n h := by
  rw [Pkg.hello, hs]
  exact (if_neg (by simp [hd])).trans ((if_neg (by simp [hb])).trans (if_neg (by simp [ha])))

/-- R113 rule 1: a version out of range, or one that the lane rate does not carry (R131). -/
theorem Pkg.helloCheck_version (hv : (p.port n).versionWith h < (p.port n).minVersion ∨ (p.port n).versionWith h < 1 ∨
      (p.port n).versionWith h < h.verMin.toNat ∨ ((p.port n).versionWith h == 1) ≠ (p.port n).rate64) :
    p.helloCheck n h = p.quarantine n 3 (some h) := by
  refine if_pos ?_
  simp only [Bool.or_eq_true, decide_eq_true_eq, bne_iff_ne]
  rcases hv with hv | hv | hv | hv
  · exact Or.inl (Or.inl (Nat.lt_of_lt_of_le hv (Nat.le_max_right _ _)))
  · exact Or.inl (Or.inl (Nat.lt_of_lt_of_le hv (Nat.le_max_left _ _)))
  · exact Or.inl (Or.inr hv)
  · exact Or.inr hv

variable (h1 : 1 ≤ (p.port n).versionWith h) (hmin : (p.port n).minVersion ≤ (p.port n).versionWith h)
  (hpeer : h.verMin.toNat ≤ (p.port n).versionWith h) (hrate : ((p.port n).versionWith h == 1) = (p.port n).rate64)
include h1 hmin hpeer hrate

/-- The version of a hello that passes rule 1. -/
theorem versionPasses : ¬((decide ((p.port n).versionWith h < Nat.max 1 (p.port n).minVersion) || decide ((p.port n).versionWith h < h.verMin.toNat) ||
    (((p.port n).versionWith h == 1) != (p.port n).rate64)) = true) := by
  simp only [hrate, bne_self_eq_false, Bool.or_false, Bool.or_eq_true, decide_eq_true_eq, not_or, Nat.not_lt]
  exact ⟨Nat.max_le.mpr ⟨h1, hmin⟩, hpeer⟩

/-- R113 rule 4: an unused port, or a planned neighbour whose logical port another port carries. -/
theorem Pkg.helloCheck_unplanned (hp : (p.port n).planned = none) : p.helloCheck n h = p.quarantine n 1 (some h) :=
  (if_neg (versionPasses h1 hmin hpeer hrate)).trans ((if_neg (by simp [hp, helloIs])).trans (if_pos (by simp [hp])))

theorem Pkg.helloCheck_carried (hi : helloIs h (p.port n).planned = true) (hc : p.carriedElse n n = true) :
    p.helloCheck n h = p.quarantine n 1 (some h) :=
  (if_neg (versionPasses h1 hmin hpeer hrate)).trans ((if_neg (by simp [hc])).trans (if_pos (by simp [hi])))

section Planned
variable (hi : helloIs h (p.port n).planned = true) (hc : p.carriedElse n n = false)
include hi hc

/-- R113: the planned neighbour under another epoch or plan. -/
theorem Pkg.helloCheck_otherPlan (he : h.epoch.toNat ≠ p.epoch ∨ h.planHash.toNat ≠ p.planHash) : p.helloCheck n h = p.quarantine n 4 (some h) :=
  (if_neg (versionPasses h1 hmin hpeer hrate)).trans ((if_pos (by simp [hi, hc])).trans (if_pos (by rcases he with he | he <;> simp [he])))

/-- R113, R114: the planned neighbour under the device's epoch and plan passes, and activates the port when it has accepted. -/
theorem Pkg.helloCheck_passes (he : h.epoch.toNat = p.epoch) (hh : h.planHash.toNat = p.planHash) :
    p.helloCheck n h = if h.accepted then (p.modPort n fun q => { q with accepted := true, lastHello := some h }).activate n h
      else p.modPort n fun q => { q with accepted := true, lastHello := some h } :=
  (if_neg (versionPasses h1 hmin hpeer hrate)).trans ((if_pos (by simp [hi, hc])).trans (if_neg (by simp [he, hh])))

end Planned

section Swap
variable (hp : (p.port n).planned ≠ none) (hi : helloIs h (p.port n).planned = false)
include hp hi

/-- R113: another peer than the planned one. -/
theorem Pkg.helloCheck_stranger (hk : p.swapPort n h = none) : p.helloCheck n h = p.quarantine n 1 (some h) := by
  refine (if_neg (versionPasses h1 hmin hpeer hrate)).trans ((if_neg (by simp [hi])).trans ((if_neg (by simp [hi, hp])).trans ?_))
  rw [hk]

variable {k : Nat} (hk : p.swapPort n h = some k)
include hk

/-- R113 rule 3: the planned neighbour of another logical port where swaps are not accepted. -/
theorem Pkg.helloCheck_noSwap (hs : (p.port n).acceptSwap = false) : p.helloCheck n h = p.quarantine n 2 (some h) := by
  refine (if_neg (versionPasses h1 hmin hpeer hrate)).trans ((if_neg (by simp [hi])).trans ((if_neg (by simp [hi, hp])).trans ?_))
  rw [hk]
  exact if_neg (by simp [hs])

/-- R113 rule 3: where they are, this port carries the other's logical port. -/
theorem Pkg.helloCheck_remap (hs : (p.port n).acceptSwap = true) (hl : (p.port n).logical ≠ k) (he : h.epoch.toNat = p.epoch)
    (hh : h.planHash.toNat = p.planHash) (ha : h.accepted = false) :
    p.helloCheck n h = (((p.modPort n fun q => { q with logical := k }).setFlag .portStatus n 4).raise .ldRemap (linkDie n) noCtx n k).modPort n fun q =>
      { q with accepted := true, lastHello := some h } := by
  refine (if_neg (versionPasses h1 hmin hpeer hrate)).trans ((if_neg (by simp [hi])).trans ((if_neg (by simp [hi, hp])).trans ?_))
  rw [hk]
  refine (if_pos hs).trans ((if_neg (by simp [he, hh])).trans ((if_neg (by simp [ha])).trans ?_))
  rw [if_neg hl]

end Swap
end Hello

/-! ## Training -/

/-- R107: a full training keeps the lanes it has when the host gave none and all of them pass. -/
theorem Port.chooseLanes_keeps {q : Port} {passing : List Nat} {n : Nat} (hf : q.fastRetrain = false) (hm : q.hostMap = 0)
    (hall : ((List.range n).map (laneOf q.lanemap)).all passing.contains = true)
    (hn : ((List.range n).map (laneOf q.lanemap)).eraseDups.length = n) : q.chooseLanes passing n = (List.range n).map (laneOf q.lanemap) := by
  refine (if_neg (by simp [hf])).trans ?_
  rw [if_pos hm]
  dsimp only
  rw [if_pos (by rw [hall, hn]; simp)]
  rfl

/-- Settles O16: each hello by the first of R113's tests that it fails, each attempt by what both ends found. -/
theorem helloAndTraining : Obligations.HelloAndTraining := by
  refine ⟨fun s n h => ?hello, fun s n passing b rtt => ?training⟩
  case hello =>
    dsimp only
    intro hs hb hd
    refine ⟨fun ha => ⟨fun hv => ?_, fun h1 hmin hpeer hrate => ⟨fun hp => ?_, fun hp hi => ⟨fun hk => ?_, fun k hk => ⟨fun hsw => ?_, fun hsw hl he hh hacc => ?_⟩⟩,
      fun hi hc => ?_, fun hi hc => ⟨fun he => ?_, fun he hh => ⟨fun hacc => ?_, fun hacc => ?_⟩⟩⟩, ?wait⟩, fun ha => ?accept⟩
    case wait => exact makes_of rfl (if_pos (by simp [hs, ha, hb, hd]))
    case accept => exact makes_of rfl (if_pos (by simp [hs, ha, hb, hd]))
    all_goals refine makes_of rfl ((Pkg.hello_checks hs hd hb ha).trans ?_)
    · exact Pkg.helloCheck_version hv
    · exact Pkg.helloCheck_unplanned h1 hmin hpeer hrate hp
    · exact Pkg.helloCheck_stranger h1 hmin hpeer hrate hp hi hk
    · exact Pkg.helloCheck_noSwap h1 hmin hpeer hrate hp hi hk hsw
    · exact Pkg.helloCheck_remap h1 hmin hpeer hrate hp hi hk hsw hl he hh hacc
    · exact Pkg.helloCheck_carried h1 hmin hpeer hrate hi hc
    · exact Pkg.helloCheck_otherPlan h1 hmin hpeer hrate hi hc he
    · exact (Pkg.helloCheck_passes h1 hmin hpeer hrate hi hc he hh).trans (if_neg (by simp [hacc]))
    · exact (Pkg.helloCheck_passes h1 hmin hpeer hrate hi hc he hh).trans (if_pos hacc)
  case training =>
    refine ⟨fun hs hd => ⟨fun a hf ha => ?kept, fun w l hf ho => ?fast, fun w l hf ho => ?full, fun hv hf => ?v8, fun hr => ?limit,
      fun hp => ?noSignal⟩, fun hs => ?signal, fun hs hl hh => ⟨fun h8 => ?dead, fun h8 => ?retry⟩⟩
    case fast =>
      refine makes_of rfl ((if_neg (by simp [hs, hd])).trans ?_)
      dsimp only
      rw [if_pos hf, ho]
      exact if_pos hf
    case full =>
      refine makes_of rfl ((if_neg (by simp [hs, hd])).trans ?_)
      dsimp only
      rw [if_neg (by simp [hf]), ho]
      exact if_neg (by simp [hf])
    case v8 => exact makes_of rfl (congrArg (s.pkg.setPort n) (if_pos (by simp [hs, hv, hf])))
    case limit => exact makes_of rfl (if_pos (by simp [hr, hs]))
    case noSignal => exact makes_of rfl (if_pos (by simp [hp, hs]))
    case signal => exact makes_of rfl (if_pos hs)
    case dead => exact makes_of rfl ((if_neg (by simp [hs, hl, hh])).trans (if_pos h8))
    case retry => exact makes_of rfl ((if_neg (by simp [hs, hl, hh])).trans (if_neg (Nat.not_le.mpr h8)))
    case kept =>
      intro w old r hw hm hall hn x y
      have hfast : ¬(s.pkg.port n).fastRetrain = true := by simp [hf]
      have hrate : ¬((decide (w = 2) && (s.pkg.port n).rate64) = true) := by simpa using hw
      refine makes_of rfl ((if_neg (by simp [hs, hd])).trans ?_)
      dsimp only
      rw [if_neg hfast, ha]
      refine (if_neg hrate).trans ?_
      rw [Port.chooseLanes_keeps hf hm hall hn]
      rw [if_neg hfast]
      by_cases hx : x.1 = 0
      · rw [if_pos hx]
        exact congrArg (Pkg.portHello · n) (if_pos (Bool.and_eq_true_iff.mpr ⟨beq_self_eq_true _, decide_eq_true hx⟩))
      · rw [if_neg hx]
        exact congrArg (Pkg.portHello · n) (if_neg fun h => hx (of_decide_eq_true (Bool.and_eq_true_iff.mp h).2))

end Sys2Proof.Machine
end

