-- ==== Sys2Proof/Proofs/LinkControl.lean ====
section
/-! LINK_CTL messages, retrains, dark windows and link clocks (R109, R110, R118, R124, R125): each clause is the command's branch; the
obligation settled from them. -/

namespace Sys2Proof.Machine

section Request
variable {p : Pkg} {n : Nat} {w : Fin 3} {serial : W64} {pp : BitVec 4}
variable (ht : (p.port n).talks = true) (hd : (p.port n).darkPending = false)
include ht hd

/-- R109: a request that crosses none is acknowledged and starts a fast retrain. -/
theorem Pkg.linkCtl_request (ho : (p.port n).ctlOut = none) : p.linkCtl n (.request w serial pp) =
    ((p.ctlFlit n (.ack (widthFin (Nat.max (p.port n).width w)))).retrain n true false).modPort n fun x => { x with peerOffer := some w.val } := by
  refine (if_neg (by simp [ht, hd])).trans ?_
  rw [ho]

variable {o : Nat × Bool} (ho : (p.port n).ctlOut = some o)
include ho

/-- R109: of two that cross, the lower serial leads. -/
theorem Pkg.linkCtl_request_leads (hl : p.serial < serial.toNat) : p.linkCtl n (.request w serial pp) = p := by
  refine (if_neg (by simp [ht, hd])).trans ?_
  rw [ho]
  exact if_pos (by simp [leads, hl])

theorem Pkg.linkCtl_request_follows (hl : serial.toNat < p.serial) : p.linkCtl n (.request w serial pp) =
    (p.setPort n { p.port n with ctlOut := none, peerOffer := some w.val }).ctlFlit n (.ack (widthFin (Nat.max (p.port n).width w))) := by
  refine (if_neg (by simp [ht, hd])).trans ?_
  rw [ho]
  exact if_neg (by simp [leads, Nat.ne_of_gt hl, Nat.le_of_lt hl])

end Request

/-- R125: what a port makes of a notice of a window of `len` ns before its routes move. -/
def Pkg.noticed (p : Pkg) (n len : Nat) : Pkg :=
  ((p.ctlFlit n .darkAck).modPort n fun x => Port.abandon { x with darkPending := true, darkLen := len }).linkItems n none

section Notice
variable {p : Pkg} {n ns : Nat} (h1 : (p.port n).state ≠ .dead) (h2 : (p.port n).state ≠ .dark)
include h1 h2

/-- R125: the longer of two windows holds. -/
theorem Pkg.darkNotice_again (hd : (p.port n).darkPending = true) : p.darkNotice n ns = p.noticed n (Nat.max (p.port n).darkLen ns) := by
  refine (if_neg (by simp [h1, h2])).trans ((if_pos hd).trans ?_)
  rw [if_pos hd]
  rfl

/-- R125: the first notice drains the port and moves the routes. -/
theorem Pkg.darkNotice_first (hd : (p.port n).darkPending = false) :
    p.darkNotice n ns = (((p.noticed n ns).routesFix.regrant (p.noticed n ns)).reroute n).drainTransit := by
  have hno : ¬(p.port n).darkPending = true := by simp [hd]
  refine (if_neg (by simp [h1, h2])).trans ((if_neg hno).trans ?_)
  rw [if_neg hno]
  rfl

end Notice

/-- Settles O17: each message by the port's state; each event of a dark window and of a link clock by its condition. -/
theorem linkControlAndDark : Obligations.LinkControlAndDark := by
  refine ⟨fun s n lane w serial pp ns => ⟨fun hl => ?lock, fun ht hd ho => ?request, fun o ht hd ho => ⟨fun hl => ?leads, fun hl => ?follows⟩, rfl, rfl,
      fun h1 h2 => ⟨fun hd x hx => ?again, fun hd x hx => ?first⟩⟩,
    fun s n k => ⟨fun hd => ⟨fun hr ht => ?drained, ?limit⟩, fun hs => ?windowEnd, ?clockLoss, rfl⟩⟩
  case lock =>
    obtain ⟨j, hj, he⟩ := List.mem_map.mp hl
    exact makes_of rfl (if_pos (List.any_eq_true.mpr ⟨j, hj, by simp [he]⟩))
  case request => exact makes_of rfl (Pkg.linkCtl_request ht hd ho)
  case leads => exact makes_of rfl (Pkg.linkCtl_request_leads ht hd ho hl)
  case follows => exact makes_of rfl (Pkg.linkCtl_request_follows ht hd ho hl)
  case again =>
    simp only [List.mem_cons, List.not_mem_nil, or_false] at hx
    rcases hx with rfl | rfl <;> exact makes_of rfl (Pkg.darkNotice_again h1 h2 hd)
  case first =>
    simp only [List.mem_cons, List.not_mem_nil, or_false] at hx
    rcases hx with rfl | rfl <;> exact makes_of rfl (Pkg.darkNotice_first h1 h2 hd)
  case drained =>
    refine makes_of rfl (if_pos ?_)
    simp only [hd, hr, List.isEmpty_nil, Bool.and_self, Bool.true_and, List.all_eq_true, Bool.not_eq_true']
    exact ht
  case limit => exact makes_of rfl (if_pos hd)
  case windowEnd => exact makes_of rfl (if_pos hs)
  case clockLoss =>
    refine makes_of rfl ?_
    dsimp only
    rw [show List.range 4 = [0, 1, 2, 3] from rfl]
    simp only [List.foldl_cons, List.foldl_nil, Nat.add_zero, Pkg.portCut]

end Sys2Proof.Machine
end

