-- ==== Sys2Proof/Proofs/LostRequests.lean ====
section
/-! A packet that reaches the device, and lost requests (R127 to R129, R135): the obligation settled from the two ends of a lost request. -/

namespace Sys2Proof.Machine

/-- R129: a packet of its kind, destination and epoch is taken. -/
theorem Pkg.arrive_of_reaches {p : Pkg} {k : LPkt} {kind : Nat} {f : Pkg → Pkg} (h : Reaches p k kind) : p.arrive k kind f = f p := by
  obtain ⟨hk, hd, he⟩ := h
  exact (if_neg (by simp [hk, hd])).trans (if_neg (by rcases he with he | he | he <;> simp [he]))

/-- R127: an idempotent request goes again while it has issues left. -/
theorem Pkg.lost_reissues {p : Pkg} {tag : Nat} {r : Req} (hi : isIdempotent r.pkt = true) (hn : r.reissues < 3) :
    p.lost tag r = (p.bump .ldReissue r.via).retag tag { r with reissues := r.reissues + 1 } := if_pos (by simp [hi, hn])

/-- R127: any other completes as lost. -/
theorem Pkg.lost_completes {p : Pkg} {tag : Nat} {r : Req} (h : isIdempotent r.pkt = false ∨ 3 ≤ r.reissues) : p.lost tag r = p.pathLost tag r :=
  if_neg (by rcases h with h | h <;> simp [h])

/-- Settles O19: a LOSS and the response limit find the request and end it alike. -/
theorem lostRequests : Obligations.LostRequests := by
  refine fun s k tag => ⟨fun h => ⟨fun r hr => ⟨fun hi hn => ?reissued, fun hno => ?lost⟩, fun hr h2 => ?late⟩,
    fun r hr hretry => ⟨fun hi hn => ?limitReissued, fun hno => ?limitLost⟩⟩
  case limitReissued =>
    refine makes_of rfl ?_
    dsimp only
    rw [hr]
    exact (if_neg (by simp [hretry])).trans (Pkg.lost_reissues hi hn)
  case limitLost =>
    refine makes_of rfl ?_
    dsimp only
    rw [hr]
    exact (if_neg (by simp [hretry])).trans (Pkg.lost_completes hno)
  all_goals
    refine makes_of rfl ((Pkg.arrive_of_reaches h).trans ?_)
    dsimp only
    rw [hr]
  case reissued => exact Pkg.lost_reissues hi hn
  case lost => exact Pkg.lost_completes hno
  case late =>
    dsimp only
    rw [if_neg (Nat.not_lt.mpr h2)]
    rfl

end Sys2Proof.Machine
end

