-- ==== Sys2Proof/Proofs/LandingEvents.lean ====
section
/-! Micro-batch headers, page writes and page commits at a slot (R18, R51, R53, R56, R57, R60, R62, R64): the obligation settled from the tests a
micro-batch packet shares and from the two ends of a header and of a page segment. -/

namespace Sys2Proof.Machine

/-! ## What accounting a phase leaves of a slot (R85) -/

theorem Pkg.ing_setIng (p : Pkg) (j q n : Nat) (v : Ingress) : (p.setIng j q v).ing j n = if n = q then v else p.ing j n := by
  simp [Pkg.setIng, Pkg.ing, tabGet_tabSet]

theorem Pkg.ctx_setIng (p : Pkg) (j q : Nat) (v : Ingress) : ((p.setIng j q v).slot j).ctx = (p.slot j).ctx := by
  simp [Pkg.setIng]

/-- Marking a wait under STASH_HOLD opens and closes no micro-batch, and the slot keeps its context. -/
theorem Pkg.opens_markHold (p : Pkg) (j q n : Nat) :
    ((p.markHold j q).ing j n).opens = (p.ing j n).opens ∧ ((p.markHold j q).slot j).ctx = (p.slot j).ctx := by
  unfold Pkg.markHold
  split
  · refine ⟨?_, Pkg.ctx_setIng _ _ _ _⟩
    rw [Pkg.modIng, Pkg.ing_setIng]
    split
    · next h =>
      subst h
      cases (p.ing j n).queue with
      | nil => rfl
      | cons i rest =>
        exact (apply_ite Ingress.opens _ _ _).trans (ite_self _)
    · rfl
  · exact ⟨rfl, rfl⟩

theorem Pkg.opens_phaseTick (p : Pkg) (j n : Nat) :
    ((p.phaseTick j).ing j n).opens = (p.ing j n).opens ∧ ((p.phaseTick j).slot j).ctx = (p.slot j).ctx := by
  unfold Pkg.phaseTick
  dsimp only
  generalize hq : (if p.now - (p.slot j).phaseAt = 0 then p else (p.markHold j 0).markHold j 1) = q
  have hmark : (q.ing j n).opens = (p.ing j n).opens ∧ (q.slot j).ctx = (p.slot j).ctx := by
    rw [← hq]
    split
    · exact ⟨rfl, rfl⟩
    · obtain ⟨ho, hc⟩ := p.opens_markHold j 0 n
      obtain ⟨ho', hc'⟩ := (p.markHold j 0).opens_markHold j 1 n
      exact ⟨ho'.trans ho, hc'.trans hc⟩
  rw [← hmark.1, ← hmark.2, Pkg.ing, Pkg.ing, Pkg.modSlot_eq, Pkg.slot_setSlot, if_pos rfl]
  split <;> exact ⟨rfl, rfl⟩

/-- Whether a step is stale depends on the slot's context alone (R64). -/
theorem Pkg.stale_congr {p q : Pkg} {j : Nat} (hc : (q.slot j).ctx = (p.slot j).ctx) (hx : q.ctxs = p.ctxs) (st : Nat) : q.stale j st = p.stale j st := by
  have hctx (c : Nat) : q.ctx c = p.ctx c := by rw [Pkg.ctx, hx]; rfl
  have hserving : q.serving j = p.serving j := by rw [Pkg.serving, hc, hctx]; rfl
  have hfloor : q.stepFloor j = p.stepFloor j := by rw [Pkg.stepFloor, hc, hctx]; rfl
  rw [Pkg.stale, hserving, hfloor, hc, hctx]
  rfl

/-- R62: nothing is posted while the first open micro-batch has pages to come and is not stale. -/
theorem Pkg.postReady_incomplete {p : Pkg} {j q fuel : Nat} {o : OpenMb} {rest : List OpenMb} (ho : (p.ing j q).opens = o :: rest)
    (hc : o.complete = false) (hs : p.stale j (mhStep o.head) = false) : p.postReady j q (fuel + 1) = p := by
  rw [Pkg.postReady, ho]
  exact if_pos (by simp [hc, hs])

/-! ## The shared tests (R18, R51, R53) -/

section Sender
variable {p : Pkg} {k : LPkt} {f : Nat → Nat → Ingress → Pkg}

theorem Pkg.fromSender_down (hu : p.homeUp (fld k.kspec.toNat 0 4) = false) : p.fromSender k f = p := if_pos (by simp [hu])

variable (hu : p.homeUp (fld k.kspec.toNat 0 4) = true)
include hu

theorem Pkg.fromSender_unbound (hb : (p.slot (fld k.kspec.toNat 0 4)).bound = false) :
    p.fromSender k f = (p.bump .qdStaleDrop (fld k.kspec.toNat 0 4)).setFlag .slotStatus (fld k.kspec.toNat 0 4) 4 :=
  (if_neg (by simp [hu])).trans (if_pos (by simp [hb]))

variable (hb : (p.slot (fld k.kspec.toNat 0 4)).bound = true) (hn : fld k.kspec.toNat 4 2 ≠ 3)
include hb hn

theorem Pkg.fromSender_stranger (hs : k.src.toNat ≠ (p.ing (fld k.kspec.toNat 0 4) (fld k.kspec.toNat 4 2)).sender) :
    p.fromSender k f = p.bump .qdSenderDrop (fld k.kspec.toNat 0 4) :=
  (if_neg (by simp [hu])).trans ((if_neg (by simp [hb])).trans ((if_neg hn).trans (if_pos (by simp [hs]))))

theorem Pkg.fromSender_own (hs : k.src.toNat = (p.ing (fld k.kspec.toNat 0 4) (fld k.kspec.toNat 4 2)).sender) :
    p.fromSender k f = f (fld k.kspec.toNat 0 4) (fld k.kspec.toNat 4 2) (p.ing (fld k.kspec.toNat 0 4) (fld k.kspec.toNat 4 2)) :=
  (if_neg (by simp [hu])).trans ((if_neg (by simp [hb])).trans ((if_neg hn).trans (if_neg (by simp [hs]))))

end Sender

/-! ## Headers and pages -/

section Head
variable {p : Pkg} {j q : Nat} {h : Rec} (ho : (p.ing j q).opens = [])
include ho

/-- R57: a malformed header faults the slot's context. -/
theorem Pkg.openHead_bad (hf : (p.ing j q).nextPage ≤ mhFirst h) (hb : p.badHead j q h = true) : p.openHead j q h =
    (((p.bump .qdBadHead j).setFlag .slotStatus j 5).raise .qdBadHead (queueDie (halfOfSlot j)) (p.slot j).ctx j h).ctxFault (p.slot j).ctx 10 :=
  (if_neg (by simp [ho, hf])).trans (if_pos hb)

/-- R57: a header that is in order opens its micro-batch. -/
theorem Pkg.openHead_opens (hf : (p.ing j q).nextPage ≤ mhFirst h) (hb : p.badHead j q h = false) (hq : q ≠ 2) :
    p.openHead j q h = (p.phaseTick j).modIng j q fun g => { g with opens := insOpen { head := h } g.opens } :=
  (if_neg (by simp [ho, hf])).trans ((if_neg (by simp [hb])).trans (if_neg (by simp [hq])))

/-- R62: an opened micro-batch with pages to come is not posted. -/
theorem Pkg.postReady_opened {fuel : Nat} (hs : p.stale j (mhStep h) = false) (hp : mhPages h ≠ 0) :
    ((p.phaseTick j).modIng j q fun g => { g with opens := insOpen { head := h } g.opens }).postReady j q (fuel + 1) =
      (p.phaseTick j).modIng j q fun g => { g with opens := insOpen { head := h } g.opens } := by
  obtain ⟨hopens, hctx⟩ := p.opens_phaseTick j q
  refine Pkg.postReady_incomplete (o := { head := h }) (rest := []) ?_ ?_ ?_
  · rw [Pkg.modIng, Pkg.ing_setIng, if_pos rfl, hopens, ho]
    rfl
  · simpa [OpenMb.complete] using Ne.symm hp
  · refine (Pkg.stale_congr ((Pkg.ctx_setIng _ _ _ _).trans hctx) ?_ _).trans hs
    obtain ⟨sl, hsl⟩ := p.phaseTick_eq j
    rw [hsl]
    rfl

end Head

/-- Settles O20: the shared tests first, then the header's or the segment's own. -/
theorem landing : Obligations.Landing := by
  refine fun s k slot q page o => ⟨fun r hr h => ?shared, fun hu hb hn hs => ⟨fun h ho hf => ⟨fun hbad => ?bad, fun hbad hq hst hp => ?opened⟩,
    fun h => ⟨fun hc => ?violation, fun hc hlow => ?stalePage, fun hc hlow hq hfind hst hcom hlen hpg => ?landed⟩⟩, fun hfind hu hcom hneed => ?commit⟩
  case shared =>
    simp only [List.mem_cons, List.not_mem_nil, or_false] at hr
    rcases hr with rfl | rfl
    · exact ⟨fun hu => makes_of rfl ((Pkg.arrive_of_reaches h).trans (Pkg.fromSender_down hu)),
        fun hu hb => makes_of rfl ((Pkg.arrive_of_reaches h).trans (Pkg.fromSender_unbound hu hb)),
        fun hu hb hn hs => makes_of rfl ((Pkg.arrive_of_reaches h).trans (Pkg.fromSender_stranger hu hb hn hs))⟩
    · exact ⟨fun hu => makes_of rfl ((Pkg.arrive_of_reaches h).trans (Pkg.fromSender_down hu)),
        fun hu hb => makes_of rfl ((Pkg.arrive_of_reaches h).trans (Pkg.fromSender_unbound hu hb)),
        fun hu hb hn hs => makes_of rfl ((Pkg.arrive_of_reaches h).trans (Pkg.fromSender_stranger hu hb hn hs))⟩
  case bad =>
    refine makes_of rfl ((Pkg.arrive_of_reaches h).trans ((Pkg.fromSender_own hu hb hn hs).trans ?_))
    dsimp only
    rw [Pkg.openHead_bad ho hf hbad]
  case opened =>
    refine makes_of rfl ((Pkg.arrive_of_reaches h).trans ((Pkg.fromSender_own hu hb hn hs).trans ?_))
    dsimp only
    rw [Pkg.openHead_opens ho hf hbad hq]
    exact Pkg.postReady_opened ho hst hp
  case violation => exact makes_of rfl ((Pkg.arrive_of_reaches h).trans ((Pkg.fromSender_own hu hb hn hs).trans (if_pos hc)))
  case stalePage =>
    exact makes_of rfl ((Pkg.arrive_of_reaches h).trans ((Pkg.fromSender_own hu hb hn hs).trans ((if_neg (Nat.not_le.mpr hc)).trans (if_pos hlow))))
  case landed =>
    refine makes_of rfl ((Pkg.arrive_of_reaches h).trans ((Pkg.fromSender_own hu hb hn hs).trans
      ((if_neg (Nat.not_le.mpr hc)).trans ((if_neg (Nat.not_lt.mpr hlow)).trans ?_))))
    rw [hfind]
    exact (if_neg (by simp [hst])).trans ((if_neg (by simpa [hpg, hlen] using hcom)).trans (if_neg hq))
  case commit =>
    refine makes_of rfl ((if_neg (by simp [hu])).trans ?_)
    dsimp only
    rw [hfind, Pkg.modIng]
    refine (if_neg ?_).trans ?_
    · simpa [hneed] using hcom
    · rw [Pkg.modIng, Pkg.ctx_setIng]

end Sys2Proof.Machine
end

