-- ==== Sys2Proof/Proofs/CreditEvents.lean ====
section
/-! Credits, egress, dispatch and late items (R45, R51, R58, R59, R66 to R68, R70, R128): each clause is the command's branch; the obligation
settled from them. -/

namespace Sys2Proof.Machine

/-! ## A slot keeps its context -/

/-- A change of slots that leaves their contexts. -/
theorem Pkg.slotCtx_modSlot (p : Pkg) (j i : Nat) {f : SlotS → SlotS} (h : ∀ s, (f s).ctx = s.ctx) : ((p.modSlot j f).slot i).ctx = (p.slot i).ctx := by
  rw [Pkg.modSlot_eq, Pkg.slot_setSlot]
  split
  · next hi => rw [hi, h]
  · rfl

theorem Pkg.slotCtx_modPos (p : Pkg) (j q i : Nat) (f : Item → Item) : ((p.modPos j q f).slot i).ctx = (p.slot i).ctx :=
  p.slotCtx_modSlot j i fun _ => (apply_ite SlotS.ctx _ _ _).trans (ite_self _)

theorem Pkg.slotCtx_modIng (p : Pkg) (j q i : Nat) (f : Ingress → Ingress) : ((p.modIng j q f).slot i).ctx = (p.slot i).ctx :=
  p.slotCtx_modSlot j i fun _ => rfl

theorem Pkg.slotCtx_setEgr (p : Pkg) (j q i : Nat) (v : Egress) : ((p.setEgr j q v).slot i).ctx = (p.slot i).ctx :=
  p.slotCtx_modSlot j i fun _ => rfl

theorem Pkg.slotCtx_egrFree (p : Pkg) (j q i : Nat) : ((p.egrFree j q).slot i).ctx = (p.slot i).ctx := by
  refine (foldl_keeps (g := fun p : Pkg => (p.slot i).ctx) ?_ _ _).trans (p.slotCtx_setEgr j q i _)
  exact fun p _ => p.slotCtx_modSlot j i fun _ => rfl

theorem Pkg.slotCtx_markHold (p : Pkg) (j q : Nat) : ((p.markHold j q).slot j).ctx = (p.slot j).ctx := (p.opens_markHold j q 0).2

theorem Pkg.slotCtx_phaseTick (p : Pkg) (j : Nat) : ((p.phaseTick j).slot j).ctx = (p.slot j).ctx := (p.opens_phaseTick j 0).2

/-! ## Late items (R45) -/

/-- R45: the window of a started item has passed before its end event, and it is not marked yet. -/
def Item.overdue (now : Nat) (i : Item) : Bool := i.window != 0 && !i.late && i.startNs.any fun st => decide (st + i.window < now)

section Late
variable {s : State} {slot : SlotId} {b : Bool}

/-- An item in its position that is overdue is marked. -/
theorem deadlineLate_running {i : Item} (hi : (s.pkg.slot slot).pos (b2n b) = some i)
    (ho : i.overdue (s.pkg.icount (queueDie (halfOfSlot slot))) = true) : Makes s (.deadlineLate slot b)
      ((s.pkg.modPos slot (b2n b) fun i => { i with late := true }).raise .deadlineLate (queueDie (halfOfSlot slot)) (s.pkg.slot slot).ctx slot i.desc) := by
  refine makes_of rfl ?_
  dsimp only
  rw [hi]
  refine (if_pos ho).trans ?_
  rw [Pkg.slotCtx_modPos]

/-- Without one, the queue decides. -/
theorem deadlineLate_queued {q : Pkg} (hi : ((s.pkg.slot slot).pos (b2n b)).all (fun i => !i.overdue (s.pkg.icount (queueDie (halfOfSlot slot)))) = true)
    (hq : s.pkg.lateQueued slot (b2n b) (Item.overdue (s.pkg.icount (queueDie (halfOfSlot slot))))
      (fun p i => p.raise .deadlineLate (queueDie (halfOfSlot slot)) (p.slot slot).ctx slot i.desc) = q) : Makes s (.deadlineLate slot b) q := by
  refine makes_of rfl ?_
  dsimp only
  cases hp : (s.pkg.slot slot).pos (b2n b) with
  | none => exact hq
  | some i =>
    rw [hp] at hi
    have ho : i.overdue (s.pkg.icount (queueDie (halfOfSlot slot))) = false := by simpa using hi
    exact (if_neg (Bool.eq_false_iff.mp ho)).trans hq

end Late

/-- Settles O21: each clause is the command's branch. -/
theorem creditsAndDispatch : Obligations.CreditsAndDispatch := by
  refine ⟨fun s slot q dir k page m i => ⟨fun hu hb hp ho => ?creditRepeat, fun h hu hb => ?unbound, fun h hu hb hpeer hn hhold => ?credit, fun hu hb => ?stream,
      fun hu hm => ?resend, fun hu hi hw hd => ?commit⟩,
    fun s half slot b x i t => ⟨fun hx => ?dispatch, fun hx => ?idle, fun hi ht hw => ⟨fun hl hlt => ?late, fun hno hq => ?notLate⟩, fun n y hi hn hy => ?lateQueued⟩⟩
  case creditRepeat => exact makes_of rfl (if_pos (by simpa [hu, hb, hp] using ho))
  case unbound => exact makes_of rfl ((Pkg.arrive_of_reaches h).trans ((if_neg (by simp [hu])).trans (if_pos (by simp [hb]))))
  case credit =>
    refine makes_of rfl ((Pkg.arrive_of_reaches h).trans ((if_neg (by simp [hu])).trans ((if_neg (by simp [hb])).trans ((if_neg ?_).trans ?_))))
    · simp [hpeer]
      omega
    · dsimp only
      rw [if_neg (by omega), hhold]
      simp only [Pkg.slotCtx_markHold, Pkg.slotCtx_egrFree, Pkg.slotCtx_setEgr, Pkg.slotCtx_phaseTick]
      rfl
  case stream => exact makes_of rfl (if_pos (by simp [hu, hb]))
  case resend =>
    refine makes_of rfl ((if_neg (by simp [hu])).trans ?_)
    rw [hm]
    have hany : (s.pkg.egr slot dir).queue.any (fun x => x.seq == m.seq) = true :=
      List.any_eq_true.mpr ⟨m, List.mem_of_find?_eq_some hm, beq_self_eq_true _⟩
    refine (if_pos hany).trans ?_
    simp only [beq_iff_eq]
  case commit =>
    refine makes_of rfl ((if_neg (by simp [hu])).trans ?_)
    rw [hi]
    exact if_neg (by simpa [hw] using hd)
  case dispatch => exact makes_of rfl (by dsimp only; rw [hx])
  case idle => exact makes_of rfl (by dsimp only; rw [hx])
  case late => exact deadlineLate_running hi (by simp [Item.overdue, hw, hl, ht, hlt])
  case notLate =>
    refine deadlineLate_queued ?_ ?_
    · rcases hno with hl | hlt
      · simp [hi, Item.overdue, hl]
      · simp [hi, Item.overdue, ht, Nat.not_lt.mpr hlt]
    · have hnone : (s.pkg.ing slot (b2n b)).queue.findIdx? (Item.overdue (s.pkg.icount (queueDie (halfOfSlot slot)))) = none :=
        List.findIdx?_eq_none_iff.mpr hq
      rw [Pkg.lateQueued, hnone]
  case lateQueued =>
    refine deadlineLate_queued hi ?_
    have hsome : (s.pkg.ing slot (b2n b)).queue.findIdx? (Item.overdue (s.pkg.icount (queueDie (halfOfSlot slot)))) = some n := hn
    rw [Pkg.lateQueued, hsome]
    dsimp only
    rw [hy]
    dsimp only
    rw [Pkg.slotCtx_modIng]

end Sys2Proof.Machine
end

