-- ==== Sys2Proof/Proofs/StashEvents.lean ====
section
/-! Stash waits, spills and fetches, and the key/value relay (R79 to R83): each clause is the command's branch; the obligation settled from
them. -/

namespace Sys2Proof.Machine

/-- Settles O22: what waited is tried in order; a spill and a fetch end once their requests are answered; a block goes on under its limits. -/
theorem stashAndRelay : Obligations.StashAndRelay := by
  refine fun s slot mb b => ⟨rfl, fun hb => ⟨fun ho => ?fetched, fun hno => ?spilledAway, fun y ho hy h1 h2 => ?copied⟩, fun hf hu hw hcl hdl => ?forward⟩
  case fetched =>
    refine makes_of rfl ((if_neg (by simp [hb])).trans ((if_neg (by simp [ho])).trans ?_))
    rw [if_pos (by simp [ho])]
  case spilledAway =>
    refine makes_of rfl ((if_neg (by simp [hb])).trans ?_)
    rcases hno with ho | hy
    · refine (if_neg (by simp [ho])).trans ?_
      rw [if_pos (by simp [ho])]
    · dsimp only
      rw [hy]
      refine (if_neg (by simp)).trans ?_
      rw [List.foldl_nil, ite_self]
  case copied =>
    refine makes_of rfl ((if_neg (by simp [hb])).trans ?_)
    dsimp only
    rw [hy]
    refine (if_neg (by simp [h1, h2])).trans ?_
    rw [if_neg (by simp [ho]), List.foldl_cons, List.foldl_nil, h1, h2]
  case forward =>
    refine makes_of rfl ?_
    dsimp only
    rw [Pkg.kvForward, hf]
    exact if_neg (by simp [hu, hw, hcl, hdl])

end Sys2Proof.Machine
end

