-- ==== Sys2Proof/Proofs/GroupEvents.lean ====
section
/-! Committed groups at the home queue die and the answers to their effects (R239, R242, R264): the obligation settled from what a group's
index makes of it and from the two ends of an answered effect. -/

namespace Sys2Proof.Machine

/-! ## Groups (R239) -/

/-- Groups of a stream that have been decided at a slot. -/
def Pkg.groupCount (p : Pkg) (slot : Nat) (g : Group) : Nat :=
  match (p.slot slot).pos g.qpos with
  | some i => tabGet 0 i.recordC g.stream
  | none => 0

/-- The package without group `n` in transit, its item having one group fewer to decide. -/
def Pkg.groupTaken (p : Pkg) (slot n : Nat) (g : Group) : Pkg :=
  (p.modSlot slot fun s => { s with transit := s.transit.filter fun x => x.id != n }).modPos slot g.qpos fun i => { i with undecided := i.undecided - 1 }

/-- A group leaves transit without touching the count of its stream. -/
theorem Pkg.groupCount_dropTransit (p : Pkg) (slot n : Nat) (g : Group) :
    (p.modSlot slot fun s => { s with transit := s.transit.filter fun x => x.id != n }).groupCount slot g = p.groupCount slot g := by
  rw [Pkg.groupCount, Pkg.modSlot_eq, Pkg.slot_setSlot, if_pos rfl]
  rfl

/-- What the index of a group that sends nothing makes of it. -/
def Pkg.groupDecided (p : Pkg) (slot : Nat) (g : Group) (count : Nat) : Pkg :=
  if g.index = count + 1 then
    (((p.modPos slot g.qpos fun i => { i with recordC := tabSet 0 i.recordC g.stream g.index }).modSlot slot fun s =>
      { s with published := s.published ++ [g] }).bump .qdEffectPublish slot).pump slot
  else if g.index ≤ count then (p.bump .qdEffectSuppress slot).groupAcked slot g
  else (p.bump .qdEffectGap slot).groupAcked slot g

theorem groupReceive_decides {s : State} {slot : SlotId} {n : Nat} {g : Group} (hg : (s.pkg.slot slot).transit.find? (fun g => g.id == n) = some g)
    (hs : g.sends = []) :
    Makes s (.groupReceive slot n) (((s.pkg.groupTaken slot n g).groupDecided slot g (s.pkg.groupCount slot g)).tryEnd slot g.qpos) := by
  refine makes_of rfl ?_
  dsimp only
  rw [hg]
  dsimp only
  rw [hs, ← Pkg.groupCount_dropTransit s.pkg slot n g]
  rfl

/-! ## Effects (R264) -/

/-- R129: an answer of any kind that reaches the device is taken. -/
theorem effectResponse_arrives {s : State} {k : LPkt} {kind : Nat} {q : Pkg} (h : Reaches s.pkg k kind) (hq : s.pkg.effectResponse k = q) :
    Makes s (.effectResponseReceive k) q := by
  obtain ⟨hk, hd, he⟩ := h
  exact makes_of rfl ((Pkg.arrive_of_reaches ⟨rfl, hd, hk ▸ he⟩).trans hq)

/-- Settles O23: a group by its index, an answer by its kind and result. -/
theorem groupsAndEffects : Obligations.GroupsAndEffects := by
  refine ⟨fun s slot n g t w => ⟨fun hg hs => ⟨fun hi => ?published, fun hi => ?suppressed, fun hi => ?gap⟩, fun hw ht => ?answered⟩,
    fun s k r j gid eff => ⟨fun h h3 => ⟨fun hr => ?late, fun hr hw => ?delivered⟩, fun h hr hw => ⟨fun hres => ?applied, fun hres h7 => ?denied⟩⟩⟩
  case published =>
    have hnext : g.index = s.pkg.groupCount slot g + 1 := hi
    have hdec := groupReceive_decides hg hs
    rw [Pkg.groupDecided, if_pos hnext] at hdec
    exact hdec
  case suppressed =>
    have hold : g.index ≤ s.pkg.groupCount slot g := hi
    have hdec := groupReceive_decides hg hs
    rw [Pkg.groupDecided, if_neg (by omega), if_pos hold] at hdec
    exact hdec
  case gap =>
    have hbeyond : s.pkg.groupCount slot g + 1 < g.index := hi
    have hdec := groupReceive_decides hg hs
    rw [Pkg.groupDecided, if_neg (by omega), if_neg (by omega)] at hdec
    exact hdec
  case answered =>
    refine makes_of rfl ?_
    dsimp only
    rw [hw]
    exact if_neg (by simpa using ht)
  case late =>
    refine effectResponse_arrives h ?_
    refine (if_neg ?_).trans ?_
    · simp [h.1, h3]
    · rw [hr]
  case delivered =>
    refine effectResponse_arrives h ?_
    refine (if_neg ?_).trans ?_
    · simp [h.1, h3]
    · rw [hr]
      dsimp only
      rw [hw]
      exact if_pos h.1
  case applied =>
    refine effectResponse_arrives h ((if_neg (by simp [h.1])).trans ?_)
    rw [hr]
    dsimp only
    rw [hw]
    exact (if_neg (by simp [h.1])).trans ((if_pos h.1).trans ((if_neg (by omega)).trans (if_neg (by omega))))
  case denied =>
    refine effectResponse_arrives h ((if_neg (by simp [h.1])).trans ?_)
    rw [hr]
    dsimp only
    rw [hw]
    refine (if_neg (by simp [h.1])).trans ((if_pos h.1).trans ((if_neg (by omega)).trans ((if_pos hres).trans ?_)))
    rw [if_neg h7]
    rfl

end Sys2Proof.Machine
end

