-- ==== Sys2Proof/Proofs/SyncEvents.lean ====
section
/-! Synchronisation operations at their object's home and the answers that threads wait for (R274 to R276): the obligation settled from the
one test every operation passes and from the three ends of an awaited answer. -/

namespace Sys2Proof.Machine

/-! ## At the object's home (R274, R275) -/

/-- The answer of a sync operation packet: its object's counter under a result code. -/
def Pkg.syncAnswer (k : LPkt) (p : Pkg) (res : Nat) : Pkg :=
  p.answer k 7 (respSpec (fld k.kspec.toNat 0 12) (fld k.kspec.toNat 12 3) res (fld k.kspec.toNat 16 9) (fld k.kspec.toNat 25 6))
    (toLe 8 (p.sync (fld k.kspec.toNat 0 12)).ctr.toNat)

section AtHome
variable {s : State} {k : LPkt} {op : Nat} (hr : Reaches s.pkg k 6) (hk : fld k.kspec.toNat 12 3 = op) (hop : op ≤ 4)
  (hd : s.pkg.dieUp (queueDie (halfOfObj (fld k.kspec.toNat 0 12))) = true)
include hr hk hop hd

/-- R275: an operation whose object it may not touch is denied. -/
theorem syncOp_denied
    (hno : ((s.pkg.sync (fld k.kspec.toNat 0 12)).owner ≠ fld k.kspec.toNat 32 8 ∧ fld k.kspec.toNat 16 9 ≠ 0x1FF) ∨
      ((op = 0 ∨ op = 2 ∨ op = 4) ∧ fld k.kspec.toNat 16 9 ≠ 0x1FF ∧
        ((s.pkg.sync (fld k.kspec.toNat 0 12)).binding = 1 ∨ (s.pkg.sync (fld k.kspec.toNat 0 12)).binding = 3))) :
    Makes s (.syncOpApply k) (Pkg.syncAnswer k (s.pkg.bump .syncOps (queueDie (halfOfObj (fld k.kspec.toNat 0 12)))) 3).reshardAll := by
  subst hk
  refine makes_of rfl (congrArg Pkg.reshardAll ((Pkg.arrive_of_reaches hr).trans
    ((if_neg (by simp [hd]; omega)).trans (if_pos ?_))))
  rcases hno with ⟨h, hc⟩ | ⟨h, hc, hb⟩
  · simp [h, hc]
  · simp [hc, hb, or_assoc, h]

/-- R275: an operation its object allows goes on to its own effect. -/
theorem syncOp_allowed {q : Pkg} (ho : (s.pkg.sync (fld k.kspec.toNat 0 12)).owner = fld k.kspec.toNat 32 8)
    (hb : (op = 0 ∨ op = 2 ∨ op = 4) →
      (s.pkg.sync (fld k.kspec.toNat 0 12)).binding ≠ 1 ∧ (s.pkg.sync (fld k.kspec.toNat 0 12)).binding ≠ 3)
    (hq :
      let x := k.kspec.toNat
      let o := fld x 0 12
      let d := queueDie (halfOfObj o)
      let a := leNat (k.content.take 8)
      let b := leNat ((k.content.drop 8).take 8)
      let p := s.pkg.bump .syncOps d
      (if op = 0 then (Pkg.syncAnswer k (p.signalObj o (BitVec.ofNat 64 a)) 0).swapEval
      else if op = 2 then (Pkg.syncAnswer k (p.armObj o (a % 2 ^ 32)) 0).swapEval
      else if op = 4 then (Pkg.syncAnswer k (p.casObj o (BitVec.ofNat 64 a) (BitVec.ofNat 64 b)) 0).swapEval
      else if op = 3 then Pkg.syncAnswer k p 0
      else if (BitVec.ofNat 64 a).toInt ≤ (s.pkg.sync o).ctr.toInt then Pkg.syncAnswer k p 1
      else if waiterMax ≤ (p.waiters.filter fun w => halfOfObj w.obj == halfOfObj o).length then Pkg.syncAnswer k (p.bump .syncRetry d) 2
      else { p with waiters := p.waiters ++ [{ obj := o, threshold := BitVec.ofNat 64 a, pkt := k }] }) = q) :
    Makes s (.syncOpApply k) q.reshardAll := by
  subst hk
  refine makes_of rfl (congrArg Pkg.reshardAll ((Pkg.arrive_of_reaches hr).trans
    ((if_neg (by simp [hd]; omega)).trans ((if_neg ?_).trans hq))))
  simp only [Bool.or_eq_true, Bool.and_eq_true, Bool.not_eq_true', decide_eq_true_eq, beq_iff_eq, not_or, not_and]
  refine ⟨by simp [ho], fun heff => ?_⟩
  obtain ⟨h1, h3⟩ := hb (by simpa [or_assoc] using heff.1)
  exact ⟨h1, h3⟩

end AtHome

/-! ## At the thread that waits (R264, R276) -/

section Awaited
variable {s : State} {k : LPkt} {r : Req} (hk : Reaches s.pkg k 7) (hr : s.pkg.req k.tag.toNat = some r)
include hk hr

theorem syncResp_unavailable (h4 : fld k.kspec.toNat 15 3 = 4) : Makes s (.syncRespReceive k) (s.pkg.pathLost k.tag.toNat r) := by
  refine makes_of rfl ((Pkg.arrive_of_reaches hk).trans ?_)
  dsimp only
  rw [hr]
  exact if_pos h4

/-- An answer other than UNAVAILABLE reaches the thread that waits for it. -/
theorem syncResp_reaches {q : Pkg} {t : Nat} {rd : Option Nat} (hw : r.who = .sync t) (hb : (s.pkg.thr t).state = .blocked) (h4 : fld k.kspec.toNat 15 3 ≠ 4)
    (hq : (if fld k.kspec.toNat 15 3 = 2 then s.pkg.markRetry k.tag.toNat r
      else if fld k.kspec.toNat 15 3 = 3 then (s.pkg.endReq k.tag.toNat).thrFault t fAddress (s.pkg.thr t).waitPc (s.pkg.thr t).waitInst
      else (s.pkg.endReq k.tag.toNat).resume t fun th =>
        match rd with | some d => th.setS d (BitVec.ofNat 64 (leNat (k.content.take 8))) | none => th) = q)
    (ht : (s.pkg.thr t).wait = .sync k.tag.toNat rd) :
    Makes s (.syncRespReceive k) q := by
  refine makes_of rfl ((Pkg.arrive_of_reaches hk).trans ?_)
  dsimp only
  rw [hr]
  refine (if_neg h4).trans ?_
  rw [hw]
  dsimp only
  rw [ht]
  exact (if_neg (by simp [hb])).trans hq

end Awaited

/-- Settles O25: each operation meets the test of its object's owner and binding first, and an answer reaches the thread that waits under
its TAG. -/
theorem syncObjects : Obligations.SyncObjects := by
  unfold Obligations.SyncObjects
  refine ⟨?_, ?_⟩
  · intro s k p x o op d a b ob q ans hr hop hd
    refine ⟨fun ho hc => syncOp_denied hr rfl hop hd (.inl ⟨ho, hc⟩), fun ho => ⟨?bound, ?effects, ?read, ?wait⟩⟩
    case bound => exact fun hc h hb => syncOp_denied hr rfl hop hd (.inr ⟨h, hc, hb⟩)
    case effects =>
      refine fun h1 h3 => ⟨fun h => ?_, fun h => ?_, fun h => ?_⟩
      · exact syncOp_allowed hr h (by decide) hd ho (fun _ => ⟨h1, h3⟩) (if_pos rfl)
      · exact syncOp_allowed hr h (by decide) hd ho (fun _ => ⟨h1, h3⟩) ((if_neg (by decide)).trans (if_pos rfl))
      · exact syncOp_allowed hr h (by decide) hd ho (fun _ => ⟨h1, h3⟩) ((if_neg (by decide)).trans ((if_neg (by decide)).trans (if_pos rfl)))
    case read =>
      exact fun h => syncOp_allowed hr h (by decide) hd ho (by omega)
        ((if_neg (by decide)).trans ((if_neg (by decide)).trans ((if_neg (by decide)).trans (if_pos rfl))))
    case wait =>
      intro h
      have wait {q : Pkg} (hq) : Makes s (.syncOpApply k) q.reshardAll := syncOp_allowed hr h (by decide) hd ho (by omega)
        ((if_neg (by decide)).trans ((if_neg (by decide)).trans ((if_neg (by decide)).trans ((if_neg (by decide)).trans hq))))
      refine ⟨fun hge => wait (if_pos hge), fun hlt => ⟨fun hroom => ?_, fun hfull => ?_⟩⟩
      · exact wait ((if_neg (Int.not_le.mpr hlt)).trans (if_neg (Nat.not_le.mpr hroom)))
      · exact wait ((if_neg (Int.not_le.mpr hlt)).trans (if_pos hfull))
  · intro s k t r rd u y p tag th res v
    refine ⟨fun hk hnone => ?late, fun hk hr hw ht hb => ⟨?value, ?retry, ?denied, ?lost⟩, fun hf => ?again⟩
    case late =>
      refine makes_of rfl ((Pkg.arrive_of_reaches hk).trans ?_)
      dsimp only
      rw [hnone]
    case value =>
      intro (h : fld k.kspec.toNat 15 3 < 2)
      exact syncResp_reaches hk hr hw hb (by omega) ((if_neg (by omega)).trans (if_neg (by omega))) ht
    case retry =>
      intro (h : fld k.kspec.toNat 15 3 = 2)
      exact syncResp_reaches hk hr hw hb (by omega) (if_pos h) ht
    case denied =>
      intro (h : fld k.kspec.toNat 15 3 = 3)
      exact syncResp_reaches hk hr hw hb (by omega) ((if_neg (by omega)).trans (if_pos h)) ht
    case lost => exact fun h => syncResp_unavailable hk hr h
    case again =>
      refine makes_of rfl ?_
      dsimp only
      generalize hv : s.pkg.reqs.find? (syncRetry u) = found
      obtain rfl : found = some (y, some r) := hv.symm.trans hf
      rfl

end Sys2Proof.Machine
end

