-- ==== Sys2Proof/Proofs/SumpEvents.lean ====
section
/-! Sump packets at their engine and the end of a delivery (R268 to R271): the obligation settled from the session a packet finds open. -/

namespace Sys2Proof.Machine

/-- What a packet of `n` elements that fits its session makes of the package, once its elements are added with the result `r` (R269, R271). -/
def Pkg.sumpTaken (p : Pkg) (k : LPkt) (eng i obj half times n : Nat) (ss : SumpSess) (r : Tab Cell × Nat × Bool) : Pkg :=
  let p := p.modSumpEng eng fun e => { e with
    acc := r.1
    sess := tabSet ({} : SumpSess) e.sess i { ss with added := ss.added + n, range := ss.range || decide (0 < r.2.1), nonfin := ss.nonfin || r.2.2 } }
  let p := (p.addCtr .sumpElems eng n).addCtr .sumpRange eng r.2.1
  let p := if r.2.1 = 0 then p else p.setFlag .sumpStatus (queueDie half) 2
  let p := (List.replicate times ()).foldl (fun p _ => p.signalObj obj 1) p
  let p := if (tabGet ({} : SumpSess) (p.sumpEng eng).sess i).delivering then p.sumpDeliver eng i else p
  p.sumpAck k obj 0

/-- Elements that are all in range, and that end no round of the session, only add. -/
theorem Pkg.sumpTaken_inRange (p : Pkg) (k : LPkt) (eng i obj half n : Nat) (ss : SumpSess) (r : Tab Cell × Nat × Bool) (hr : r.2.1 = 0)
    (hd : ss.delivering = false) :
    p.sumpTaken k eng i obj half 0 n ss r = (((p.modSumpEng eng fun e => { e with
      acc := r.1, sess := tabSet ({} : SumpSess) e.sess i { ss with added := ss.added + n, nonfin := ss.nonfin || r.2.2 } }).addCtr
        .sumpElems eng n).addCtr .sumpRange eng 0).sumpAck k obj 0 := by
  simp only [Pkg.sumpTaken, hr, Nat.lt_irrefl, decide_false, Bool.or_false, if_true, List.replicate_zero, List.foldl_nil]
  refine congrArg (fun q : Pkg => q.sumpAck k obj 0) (if_neg ?_)
  simp [hd]

/-- Settles O26: a stale packet and one of another header stop at their test; one that fits adds its elements, all in range, so that neither
the range mark nor the count object moves. -/
theorem sumpPackets : Obligations.SumpPackets := by
  unfold Obligations.SumpPackets
  intro s k half e i p n eng h bs obj ctx f el st staleStep ss m
  refine ⟨fun hk hh hd hlen => ?packet, ?delivered⟩
  case packet =>
    have hrun : ¬ p.halted = true := by simp [hh]
    have hwhole : ¬ (!p.dieUp (queueDie n) || decide (k.content.length < 64)) = true := by simpa [hd] using hlen
    refine ⟨fun hs => makes_of rfl ((Pkg.arrive_of_reaches hk).trans ((if_neg hrun).trans ((if_neg hwhole).trans (if_pos hs)))),
      fun hstale hfind => ⟨?mismatch, ?added⟩⟩
    case mismatch =>
      intro hne
      refine makes_of rfl ((Pkg.arrive_of_reaches hk).trans ((if_neg hrun).trans ((if_neg hwhole).trans
        ((if_neg (Bool.eq_false_iff.mp hstale)).trans ?_))))
      have hother : (setFld h 128 19 0 != ss.hdr) = true := bne_iff_ne.mpr hne.symm
      dsimp only
      rw [hfind]
      exact if_pos (by rw [hother]; rfl)
    case added =>
      intro hhdr hel hmul hfit hdel htimes r hr
      refine makes_of rfl ((Pkg.arrive_of_reaches hk).trans ((if_neg hrun).trans ((if_neg hwhole).trans
        ((if_neg (Bool.eq_false_iff.mp hstale)).trans ?_))))
      dsimp only
      rw [hfind]
      have hn : (if el = 0 then 0 else bs.length / el) = m := if_neg hel
      refine (if_neg ?_).trans ?_
      · change ¬ (setFld h 128 19 0 != ss.hdr || decide (el = 0) || bs.length % el != 0 ||
          decide (fld h 96 19 < fld h 128 19 + if el = 0 then 0 else bs.length / el) || ss.delivering) = true
        rw [hn]
        simp [hhdr, hel, hmul, hfit, hdel]
      · change p.sumpTaken k eng i obj n ((ss.added + if el = 0 then 0 else bs.length / el) / fld h 96 19 - ss.added / fld h 96 19)
          (if el = 0 then 0 else bs.length / el) ss
          (sumpAddAll f (sgn 9 (fld h 48 9)) (fld h 64 18 + fld h 128 19) (p.sumpEng eng).acc
            (sumpVals f (if el = 0 then 0 else bs.length / el) bs)) = _
        rw [hn, htimes, Nat.sub_self]
        exact p.sumpTaken_inRange k eng i obj n m ss r hr hdel
  case delivered =>
    intro eng x hh ho hd ht hw hheld hl
    refine makes_of rfl ((if_neg (Bool.eq_false_iff.mp hh)).trans (congrArg Pkg.reshardAll ((if_neg ?_).trans ?_)))
    · change ¬ (!(x.openF && x.delivering && x.tags.isEmpty && x.writes == 0 && !x.held)) = true
      simp [ho, hd, ht, hw, hheld]
    · exact congrArg (fun q : Pkg => (q.sumpClose eng i).swapEval) (if_neg (by rw [hl]; decide))

end Sys2Proof.Machine
end

