-- ==== Sys2Proof/Proofs/LineAccess.lean ====
section
/-! A line access at its memory die (R282): the obligation refuted by the event of an access of the device that no region of its context
covers. -/

namespace Sys2Proof.Machine

/-- A read of line 1, of stack 0, by the device for context 0. -/
def strayAccess : LineAcc :=
  { line := 1, write := false, off := 0, data := [], hint := 0, ctx := some 0, device := true, partition := 0, err := ⟨[], []⟩ }

/-- After reset no region covers the line: the access answers BAD_ADDRESS and raises EV_MD_BAD_ADDRESS with the line's byte address. -/
theorem strayAccess_badAddress :
    Makes State.reset (.memLineAccess strayAccess) ((State.reset.pkg.emit (.memRead [] 3)).badAddress 0 64) := by
  refine makes_of rfl ?_
  dsimp only
  rw [Pkg.lineAccess, if_pos (by decide)]
  rfl

/-- The event of the stray access names its byte address; the obligation asks for its line number. -/
theorem strayAccess_event :
    (((State.reset.pkg.emit (.memRead [] 3)).badAddress 0 64).events.map (·.obj) = [64]) ∧
    (((State.reset.pkg.emit (.memRead [] 3)).raise .mdBadAddress State.reset.pkg.primary 0 1 0).ctxFault 0 7).events.map (·.obj) = [1] := by
  decide

/-- Two packages a command makes of one state are the same. -/
theorem Makes.unique {s : State} {x : Instr} {p q : Pkg} (hp : Makes s x p) (hq : Makes s x q) : p = q :=
  congrArg State.pkg (Host.Outcome.next.inj (hp.symm.trans hq))

/-- Refutes O27: a read by the device of a mapped line that lies in no region of its context raises EV_MD_BAD_ADDRESS at the line's memory
die with its byte address (R282); the statement wants the primary headframe and the line number. -/
theorem not_lineAccess : ¬ Obligations.LineAccess := by
  unfold Obligations.LineAccess
  intro h
  obtain ⟨-, hmapped⟩ := h State.reset strayAccess []
  obtain ⟨hstray, -⟩ := hmapped rfl
  have heq := strayAccess_badAddress.unique (hstray 0 rfl rfl rfl)
  obtain ⟨hmade, hwanted⟩ := strayAccess_event
  exact absurd (hmade.symm.trans ((congrArg (fun q : Pkg => q.events.map (·.obj)) heq).trans hwanted)) (by decide)

end Sys2Proof.Machine
end

