-- ==== Sys2Proof/Proofs/RemoteMemory.lean ====
section
/-! Remote memory requests at the queue die and their answers at the thread that asked (R299, R300): the obligation settled from the tests a
request passes in their order and from the four ends of an answer. -/

namespace Sys2Proof.Machine

/-! ## At the device that is asked -/

/-- An answer without bytes names a length of 0. -/
theorem respSpec_noBytes (a st : Nat) : put 0 48 a + put 48 8 st = put 0 48 a + put 48 8 st + put 56 14 ([] : List Byte).length := by
  rw [show put 56 14 ([] : List Byte).length = 0 from rfl, Nat.add_zero]

section Asked
variable {s : State} {k : LPkt} {es : LineErrs} {q : Pkg}

theorem remoteRead_reaches (hk : Reaches s.pkg k 8) (h8 : k.pkind = 8) (hq : s.pkg.remoteMem k es = q) : Makes s (.memRemoteRequest ⟨k, es⟩) q := by
  refine makes_of rfl ((if_neg (by simp [h8])).trans ((if_pos (by simp [h8])).trans ?_))
  exact (Pkg.arrive_of_reaches (hk.1.symm ▸ hk)).trans hq

theorem remoteWrite_reaches (hk : Reaches s.pkg k 10) (h10 : k.pkind = 10) (hp : s.pkg.inPieces (fld k.kspec.toNat 0 48) = false)
    (hq : s.pkg.remoteMem k es = q) : Makes s (.memRemoteRequest ⟨k, es⟩) q := by
  refine makes_of rfl ((if_neg (by simp [h10, hp])).trans ((if_pos (by simp [h10])).trans ?_))
  exact (Pkg.arrive_of_reaches (hk.1.symm ▸ hk)).trans hq

end Asked

/-! ## At the thread that asked -/

section Answered
variable {s : State} {k : LPkt} {kind : Nat} {r : Req} {q : Pkg} (hkind : kind = 9 ∨ kind = 11) (hk : Reaches s.pkg k kind)
include hkind hk

theorem memResp_late (hr : s.pkg.req k.tag.toNat = none) : Makes s (.memRespReceive k) (s.pkg.bump .ldLateResp (s.pkg.inPort k)) := by
  have hpk := hk.1
  refine makes_of rfl ((if_neg (by rw [hpk]; rcases hkind with rfl | rfl <;> decide)).trans ((Pkg.arrive_of_reaches (hpk.symm ▸ hk)).trans ?_))
  dsimp only
  rw [hr]

/-- An answer for a thread's operation is kept for its timer, or ends the request and acts on the thread. -/
theorem memResp_mem {t bg off : Nat} (hr : s.pkg.req k.tag.toNat = some r) (hw : r.who = .mem t bg off)
    (hq : (if fld k.kspec.toNat 48 8 = 1 then s.pkg.markRetry k.tag.toNat r
      else (s.pkg.endReq k.tag.toNat).memAnswer t bg off (fld k.kspec.toNat 48 8) k.content) = q) : Makes s (.memRespReceive k) q := by
  have hpk := hk.1
  refine makes_of rfl ((if_neg (by rw [hpk]; rcases hkind with rfl | rfl <;> decide)).trans ((Pkg.arrive_of_reaches (hpk.symm ▸ hk)).trans ?_))
  dsimp only
  rw [hr]
  dsimp only
  rw [hw]
  exact hq

end Answered

/-- The faults of a refused answer. -/
theorem Pkg.memAnswer_refused {p : Pkg} {t bg off st cause : Nat} {data : List Byte} {b : Bg} (hb : (p.thr t).bg.find? (fun b => b.id == bg) = some b)
    (hc : (st, cause) ∈ ([(2, fPoison), (3, fAddress), (4, fPathLost)] : List (Nat × Nat))) :
    p.memAnswer t bg off st data = p.bgFault t b cause := by
  have hfault : p.memFault t bg cause = p.bgFault t b cause := by rw [Pkg.memFault, hb]
  simp only [List.mem_cons, Prod.mk.injEq, List.not_mem_nil, or_false] at hc
  rw [Pkg.memAnswer]
  rcases hc with ⟨rfl, rfl⟩ | ⟨rfl, rfl⟩ | ⟨rfl, rfl⟩
  · exact (if_pos rfl).trans hfault
  · exact (if_neg (by decide)).trans ((if_pos rfl).trans hfault)
  · exact (if_neg (by decide)).trans ((if_neg (by decide)).trans ((if_pos rfl).trans hfault))

/-- The last piece of a read ends its operation. -/
theorem Pkg.memAnswer_last {p : Pkg} {t bg off : Nat} {data : List Byte} {b : Bg} (hb : (p.thr t).bg.find? (fun b => b.id == bg) = some b)
    (hk : b.kind = .remote 1) : p.memAnswer t bg off 0 data = (p.spStore (coreOf t) off data).endBg t bg := by
  rw [Pkg.memAnswer, if_neg (by decide), if_neg (by decide), if_neg (by decide), hb]
  dsimp only
  rw [hk]
  exact if_pos (Nat.le_refl 1)

/-- Settles O28: a request that finds room passes its tests in their order; an answer is kept, faults its thread or ends its operation. -/
theorem remoteMemoryExchange : Obligations.RemoteMemoryExchange := by
  unfold Obligations.RemoteMemoryExchange
  refine ⟨?_, ?_⟩
  · intro s k es p busy x a n c early rd wr
    refine ⟨fun hk h8 => ⟨?full, fun hroom => ⟨?denied, fun hlo hhi hmul hcov => ?served⟩⟩,
      fun hk h10 hpieces hroom hlo hhi hmul => ⟨?deniedWrite, ?written⟩⟩
    case full =>
      exact fun hb => remoteRead_reaches hk h8 ((if_pos hb).trans ((if_neg (by simp [h8])).trans
        (congrArg (fun n => p.answer k 9 n []) (respSpec_noBytes a 1))))
    case denied =>
      have hread : (k.pkind == 10) = false := by simp [h8]
      intro hno
      refine remoteRead_reaches hk h8 ((if_neg hroom).trans ((if_pos ?_).trans ?_))
      · rw [hread]
        simpa [or_assoc] using hno
      · exact if_neg (by rw [hread]; decide)
    case served =>
      have hread : (k.pkind == 10) = false := by simp [h8]
      have hok : ¬ (decide (n < 8) || decide (8832 < n) || n % 8 != 0 || (k.pkind == 10 && k.content.length != n) ||
          !p.covered c a n (if k.pkind == 10 then 3 else 2)) = true := by
        rw [hread]
        simp [hmul, hcov, hlo, hhi]
      have hnot : ¬ (k.pkind == 10) = true := by simp [h8]
      have serve {q : Pkg} (hq) : Makes s (.memRemoteRequest ⟨k, es⟩) q :=
        remoteRead_reaches hk h8 ((if_neg hroom).trans ((if_neg hok).trans hq))
      refine ⟨fun he => serve ((if_pos he).trans (if_neg hnot)), fun he => ?_⟩
      refine ⟨fun hm => ?gone, fun hm => ?waits, fun hm => ?read⟩
      all_goals refine serve ((if_neg (Bool.eq_false_iff.mp he)).trans ?_)
      all_goals rw [hm]
      case gone => exact if_neg hnot
      case read => exact (if_neg hnot).trans (if_neg hnot)
    case deniedWrite =>
      have hwrite : (k.pkind == 10) = true := by simp [h10]
      intro hno
      refine remoteWrite_reaches hk h10 hpieces ((if_neg hroom).trans ((if_pos ?_).trans (if_pos hwrite)))
      rw [hwrite]
      simpa [or_assoc] using .inr (.inr (.inr hno))
    case written =>
      have hwrite : (k.pkind == 10) = true := by simp [h10]
      intro hlen hcov he hm
      refine remoteWrite_reaches hk h10 hpieces ((if_neg hroom).trans ((if_neg ?_).trans ((if_neg (Bool.eq_false_iff.mp he)).trans ?_)))
      · change ¬ (decide (n < 8) || decide (8832 < n) || n % 8 != 0 || (k.pkind == 10 && k.content.length != n) ||
          !p.covered c a n (if k.pkind == 10 then 3 else 2)) = true
        rw [hwrite]
        simp [hmul, hcov, hlo, hhi, hlen]
      · dsimp only
        rw [hm]
        exact (if_pos hwrite).trans (if_pos hwrite)
  · intro s k r t bg off b tag p st q
    refine ⟨fun kind hkind hk => ⟨memResp_late hkind hk, fun hr hw hb => ⟨?retry, ?refused, ?done⟩⟩, ?again⟩
    case retry => exact fun h => memResp_mem hkind hk hr hw (if_pos h)
    case refused =>
      rintro ⟨n, cause⟩ hc (hst : fld k.kspec.toNat 48 8 = n)
      have hn : n ≠ 1 := by
        rintro rfl
        simp at hc
      exact memResp_mem hkind hk hr hw ((if_neg fun h => hn (hst.symm.trans h)).trans (Pkg.memAnswer_refused hb (hst.symm ▸ hc)))
    case done =>
      intro (hst : fld k.kspec.toNat 48 8 = 0) hk1
      refine memResp_mem hkind hk hr hw ((if_neg (by omega)).trans ?_)
      rw [hst]
      exact Pkg.memAnswer_last hb hk1
    case again =>
      intro hr hretry hkind
      refine makes_of rfl ?_
      dsimp only
      rw [hr]
      exact if_pos (by rcases hkind with h | h <;> simp [hretry, h])

end Sys2Proof.Machine
end

