-- ==== Sys2Proof/Proofs/MemoryDies.lean ====
section
/-! Memory dies by their timers and the ends of their resets (R289 to R293, R305, R306, R310, R311): the obligation settled from each
command's tests, and from what the end of an abrupt reset makes of one stack. -/

namespace Sys2Proof.Machine

/-! ## The end of an abrupt reset (R311) -/

/-- The end of an abrupt reset at one stack. -/
def Pkg.initStack (p : Pkg) (n : Nat) : Pkg :=
  if (p.stack n).state != 3 then p else
  let p := p.dirtyStack n
  { p with poison := p.poison.filter fun e => stackOf (e.1 * 64) != n, tagBad := p.tagBad.filter fun e => stackOf (e.1 * 64) != n }.modStack n fun k =>
    { k with state := 0, poisonAll := true, undefAll := true }

/-- A stack as the end of an abrupt reset leaves it. -/
def Stack.inited (k : Stack) : Stack := { k with dirtyAll := true, state := 0, poisonAll := true, undefAll := true }

theorem Pkg.stack_dirtyStack (p : Pkg) (n i : Nat) :
    (p.dirtyStack n).stack i = if i = n then { p.stack n with dirtyAll := true } else p.stack i := by
  rw [Pkg.dirtyStack, Pkg.modStack_eq, Pkg.stack_setStack]
  rfl

theorem Pkg.stack_initStack_self {p : Pkg} {n : Nat} (h : (p.stack n).state = 3) : (p.initStack n).stack n = (p.stack n).inited := by
  rw [Pkg.initStack, if_neg (by simp [h]), Pkg.modStack_eq, Pkg.stack_setStack, if_pos rfl]
  exact congrArg (fun k : Stack => { k with state := 0, poisonAll := true, undefAll := true }) ((p.stack_dirtyStack n n).trans (if_pos rfl))

theorem Pkg.stack_initStack_of_ne {p : Pkg} {n i : Nat} (h : i ≠ n) : (p.initStack n).stack i = p.stack i := by
  rw [Pkg.initStack]
  split
  · rfl
  · rw [Pkg.modStack_eq, Pkg.stack_setStack, if_neg h]
    exact (p.stack_dirtyStack n i).trans (if_neg h)

/-- The two stacks of a die, one after the other. -/
theorem Pkg.stack_initBoth {p : Pkg} {m n : Nat} (hn : n = 2 * m ∨ n = 2 * m + 1) (h : (p.stack n).state = 3) :
    ((p.initStack (2 * m)).initStack (2 * m + 1)).stack n = (p.stack n).inited := by
  rcases hn with rfl | rfl
  · rw [Pkg.stack_initStack_of_ne (by omega), Pkg.stack_initStack_self h]
  · rw [Pkg.stack_initStack_self (by rwa [Pkg.stack_initStack_of_ne (by omega)]), Pkg.stack_initStack_of_ne (by omega)]

/-! ## Hot spots and temperatures (R305, R306) -/

/-- A window whose busiest channel counts towards a hot spot, for the `run`th time in a row. -/
def Pkg.hotWindow (p : Pkg) (n busy run : Nat) (part : Fin 16) : Pkg :=
  let d := dieOfStack n
  let p := p.modStack n fun k => { k with hotRun := run, hotCh := busy, hotF := decide (3 ≤ run) }
  if run = 3 then
    let p := p.causeItems 3 d fun j i => p.itemUses j d i
    let p := p.modStack n fun k => { k with hot := BitVec.ofNat 64 (put 0 4 busy + put 4 4 part + put 32 32 (p.icount d)) }
    ((p.setFlag .mdStatus d 4).bump .mdHotspot n).raise .memHotspot d noCtx n (busy + 16 * part.val)
  else p

/-- The hottest reading of a stack, and whether it throttles from now on. -/
def Pkg.stackTemp (p : Pkg) (n t : Nat) (throttles : Bool) : Pkg :=
  let k := p.stack n
  let d := dieOfStack n
  let p := if k.throttled then p.addCtr .mdThrottleNs n (p.now - k.throttleAt) else p
  let p := if k.throttled || throttles then p.causeItems 0x10 d fun j i => p.itemUses j d i else p
  let p := p.modStack n fun k => { k with temp := t, refresh2x := decide (85 < t), throttled := throttles, throttleAt := p.now }
  if throttles && !k.throttled then p.setFlag .mdStatus d 5 else p

/-- Marking the causes of items writes nothing but slots. -/
theorem Pkg.causeItems_keeps {β : Type} {g : Pkg → β} (h : ∀ (p : Pkg) (j : Nat) (v : SlotS), g (p.setSlot j v) = g p) (p : Pkg) (code die : Nat)
    (hit : Nat → Item → Bool) : g (p.causeItems code die hit) = g p := by
  refine foldl_keeps (fun p j => foldl_keeps (fun p q => ?_) _ p) _ p
  dsimp only
  split
  · exact (h _ _ _).trans (h _ _ _)
  · rfl

theorem Pkg.now_causeItems (p : Pkg) (code die : Nat) (hit : Nat → Item → Bool) : (p.causeItems code die hit).now = p.now :=
  Pkg.causeItems_keeps (g := Pkg.now) (fun _ _ _ => rfl) p code die hit

theorem Pkg.primary_causeItems (p : Pkg) (code die : Nat) (hit : Nat → Item → Bool) : (p.causeItems code die hit).primary = p.primary :=
  Pkg.causeItems_keeps (g := Pkg.primary) (fun _ _ _ => rfl) p code die hit

theorem Pkg.stackTemp_cold {p : Pkg} {n : Nat} (h : (p.stack n).throttled = false) (t : Nat) :
    p.stackTemp n t false = p.setStack n { p.stack n with temp := t, refresh2x := decide (85 < t), throttled := false, throttleAt := p.now } := by
  rw [Pkg.stackTemp, h]
  rfl

theorem Pkg.stackTemp_warm {p : Pkg} {n t : Nat} (h : (p.stack n).throttled = false) (ht : 90 < t) :
    p.stackTemp n t true = (((p.causeItems 0x10 (dieOfStack n) fun j i => p.itemUses j (dieOfStack n) i).modStack n fun k => { k with
      temp := t, refresh2x := true, throttled := true, throttleAt := p.now }).setFlag .mdStatus (dieOfStack n) 5) := by
  simp only [Pkg.stackTemp, h, Bool.false_eq_true, if_false, Bool.or_true, if_true, Bool.not_false, Bool.and_self, Pkg.now_causeItems,
    decide_eq_true (show 85 < t by omega)]

theorem Pkg.stackTemp_throttled {p : Pkg} {n : Nat} (h : (p.stack n).throttled = true) (t : Nat) (throttles : Bool) :
    let q := p.addCtr .mdThrottleNs n (p.now - (p.stack n).throttleAt)
    p.stackTemp n t throttles = ((q.causeItems 0x10 (dieOfStack n) fun j i => q.itemUses j (dieOfStack n) i).modStack n fun k => { k with
      temp := t, refresh2x := decide (85 < t), throttled := throttles, throttleAt := p.now }) := by
  simp only [Pkg.stackTemp, h, if_true, Bool.true_or, Bool.not_true, Bool.and_false, Bool.false_eq_true, if_false, Pkg.now_causeItems]
  rfl

/-! ## Corrections in an interval (R291) -/

/-- The end of an interval, whose corrections make a storm or not. -/
def Pkg.ceInterval (p : Pkg) (n : Nat) (storms : Bool) : Pkg :=
  let k := p.stack n
  let d := dieOfStack n
  let p := if storms || k.storm then p.causeItems 0x12 d fun j i => p.itemUses j d i else p
  let p := p.modStack n fun k => { k with ce := 0, storm := storms }
  if storms && !k.storm then ((p.setFlag .mdStatus d 0).setFlag .dlStatus p.primary 2).raise .mdCeStorm d noCtx n k.ce else p

theorem Pkg.ceInterval_quiet {p : Pkg} {n : Nat} (h : (p.stack n).storm = false) :
    p.ceInterval n false = p.setStack n { p.stack n with ce := 0, storm := false } := by
  rw [Pkg.ceInterval, h]
  rfl

theorem Pkg.ceInterval_begins {p : Pkg} {n : Nat} (h : (p.stack n).storm = false) :
    p.ceInterval n true = (((((p.causeItems 0x12 (dieOfStack n) fun j i => p.itemUses j (dieOfStack n) i).modStack n fun k =>
      { k with ce := 0, storm := true }).setFlag .mdStatus (dieOfStack n) 0).setFlag .dlStatus p.primary 2).raise .mdCeStorm (dieOfStack n)
        noCtx n (p.stack n).ce) := by
  simp only [Pkg.ceInterval, h, Bool.true_or, if_true, Bool.not_false, Bool.and_self]
  have hprimary := p.primary_causeItems 0x12 (dieOfStack n) fun j i => p.itemUses j (dieOfStack n) i
  rw [← hprimary]
  generalize (p.causeItems 0x12 (dieOfStack n) fun j i => p.itemUses j (dieOfStack n) i) = q
  rfl

theorem Pkg.ceInterval_lasting {p : Pkg} {n : Nat} (h : (p.stack n).storm = true) (storms : Bool) :
    p.ceInterval n storms = (p.causeItems 0x12 (dieOfStack n) fun j i => p.itemUses j (dieOfStack n) i).modStack n fun k =>
      { k with ce := 0, storm := storms } := by
  simp only [Pkg.ceInterval, h, Bool.or_true, if_true, Bool.not_true, Bool.and_false, Bool.false_eq_true, if_false]

/-- Settles O29: each command passes its tests in their order; a die that ends an abrupt reset takes its two stacks up one after the other. -/
theorem memoryDies : Obligations.MemoryDies := by
  unfold Obligations.MemoryDies
  refine ⟨?_, ?_⟩
  · intro s n ch rank bank row sp err ts reqs wait part p k d m line t dirty nextLine count busy total
    refine ⟨fun hk => ⟨fun h => ?scrubSkip, fun hd hr => ?scrub⟩, fun hh hs => ?repaired, fun hs => ⟨fun hc => ?quiet, fun hc => ?storm⟩,
      fun hs => ?lasting, fun hw ht => ?hot, fun h => ?cool, fun hth => ⟨fun h90 => ?cold, fun h90 => ?warm⟩, fun hth => ?throttled⟩
    case scrubSkip =>
      have hskip : (dirty || k.rowHeld (locOf line)) = true := by simpa using h
      refine makes_of rfl ((if_neg ?_).trans (congrArg (fun q : Pkg => q.modStack n nextLine) (if_pos hskip)))
      exact fun hne => (bne_iff_ne.mp hne) hk
    case scrub =>
      have hread : ¬ (dirty || k.rowHeld (locOf line)) = true := by rw [hd, hr]; decide
      refine makes_of rfl ((if_neg ?_).trans (congrArg (fun q : Pkg => q.modStack n nextLine) (if_neg hread)))
      exact fun hne => (bne_iff_ne.mp hne) hk
    case repaired =>
      intro e
      refine makes_of rfl ?_
      dsimp only
      rw [show (s.pkg.stack n).rowHeld m = true from hh, show ((s.pkg.stack n).freeSpares m).head? = some sp from hs]
      rfl
    case quiet =>
      exact makes_of rfl ((congrArg (p.ceInterval n) (decide_eq_false (Nat.not_lt.mpr hc))).trans (Pkg.ceInterval_quiet hs))
    case storm => exact makes_of rfl ((congrArg (p.ceInterval n) (decide_eq_true hc)).trans (Pkg.ceInterval_begins hs))
    case lasting => exact makes_of rfl (Pkg.ceInterval_lasting hs _)
    case hot =>
      intro run q
      have hrun : (if (k.hotRun != 0 && decide (k.hotCh = busy)) = true then k.hotRun + 1 else 1) = run :=
        ite_congr (by simp) (fun _ => rfl) fun _ => rfl
      have hcounts : (wait.getLsbD busy && decide (total < 4 * count busy)) = true := by simp only [hw, ht, decide_true, Bool.and_self]
      have hwin : Makes s (.hotspotWindowEnd n reqs wait part) (p.hotWindow n busy run part) :=
        makes_of rfl ((if_pos hcounts).trans (congrArg (fun r => p.hotWindow n busy r part) hrun))
      exact ⟨fun h => hwin.trans (congrArg _ (congrArg _ (if_neg h))), fun h => hwin.trans (congrArg _ (congrArg _ (if_pos h)))⟩
    case cool =>
      have hno : ¬ (wait.getLsbD busy && decide (total < 4 * count busy)) = true := by
        rcases h with h | h
        · rw [h, Bool.false_and]
          decide
        · simp [Nat.not_lt.mpr h]
      exact makes_of rfl (if_neg hno)
    case cold =>
      have hthr : (if 90 < t then true else if t < 88 then false else k.throttled) = false := by
        rw [if_neg (by omega), hth, ite_self]
      exact makes_of rfl ((congrArg (p.stackTemp n t) hthr).trans (Pkg.stackTemp_cold hth t))
    case warm =>
      have hthr : (if 90 < t then true else if t < 88 then false else k.throttled) = true := if_pos h90
      exact makes_of rfl ((congrArg (p.stackTemp n t) hthr).trans (Pkg.stackTemp_warm hth h90))
    case throttled =>
      intro q
      have hthr : (if 90 < t then true else if t < 88 then false else k.throttled) = decide (88 ≤ t) := by
        rw [show k.throttled = true from hth]
        grind
      exact makes_of rfl ((congrArg (p.stackTemp n t) hthr).trans (Pkg.stackTemp_throttled hth t _))
  · intro s d p m hd
    refine ⟨fun ho => ⟨?expiry, fun hup => ?exit⟩, ?init⟩
    case expiry => exact makes_of rfl (if_pos (by simp [hd]; exact ho))
    case exit =>
      intro up q
      refine makes_of rfl ((if_neg ?_).trans ?_)
      · change ¬ (dieKind d != 1 || !p.dieUp d || (p.memDie m).orderlyAt.isNone) = true
        rw [hd, hup, Option.isNone_eq_false_iff.mpr ho]
        decide
      · rfl
    case init =>
      refine ⟨((p.initStack (2 * m)).initStack (2 * m + 1)).modMemDie m fun x => { x with initialising := false, accepting := true },
        makes_of rfl ((if_neg (by simp [hd])).trans rfl), by simp, fun n hn h => ?_⟩
      rw [Pkg.modMemDie_eq, Pkg.stack_setMemDie, Pkg.stack_initBoth hn h]
      exact ⟨rfl, rfl, rfl, rfl⟩

end Sys2Proof.Machine
end

