-- ==== Sys2Proof/Proofs/DieEvents.lean ====
section
/-! The fabric between dies, the resets of dies and the Ethernet reference (R317 to R343): the obligation settled from what a group
makes of a packet, from what a reset of a memory die leaves of its stacks, and from the tests of each event. -/

namespace Sys2Proof.Machine

/-! ## Readings that an act leaves -/

/-- A write leaves every other key alone, whatever the default it is read under. -/
theorem tabGet_tabSet_other {α : Type} [DecidableEq α] (d d' v : α) (t : Tab α) (k j : Nat) (h : j ≠ k) :
    tabGet d' (tabSet d t k v) j = tabGet d' t j := by
  induction t with
  | nil => grind [tabSet, tabGet]
  | cons e t ih =>
    obtain ⟨a, w⟩ := e
    grind [tabSet, tabGet, tabGet_tabDropLe, tabGet_tabDropLe_low]

theorem Pkg.die_setDie_ne (p : Pkg) {j k : Nat} (v : Die) (h : j ≠ k) : (p.setDie k v).die j = p.die j := tabGet_tabSet_other _ _ _ _ _ _ h

/-- An event writes the ring of events, counters and flags. -/
theorem Pkg.raise_writes (p : Pkg) (e : Ev) (d c o x : Nat) :
    ∃ es i cs fs, p.raise e d c o x = { p with events := es, eventIdx := i, ctrs := cs, flags := fs } := by
  rw [Pkg.raise]
  split <;> exact ⟨_, _, _, _, rfl⟩

/-- The floor's evaluation writes the package's state with its event. -/
theorem Pkg.floorEval_writes (p : Pkg) :
    ∃ es i cs fs st t, p.floorEval = { p with events := es, eventIdx := i, ctrs := cs, flags := fs, pkgState := st, pkgEntered := t } := by
  have hto (p : Pkg) (st : Nat) :
      ∃ es i cs fs st' t, p.pkgTo st = { p with events := es, eventIdx := i, ctrs := cs, flags := fs, pkgState := st', pkgEntered := t } := by
    rw [Pkg.pkgTo]
    split
    · exact ⟨_, _, _, _, _, _, rfl⟩
    · obtain ⟨es, i, cs, fs, h⟩ := Pkg.raise_writes { p with pkgState := st, pkgEntered := p.icount p.primary % 2 ^ 32 } .pkgState p.primary noCtx 0
        (p.pkgState + 16 * st)
      rw [h]
      exact ⟨_, _, _, _, _, _, rfl⟩
  have hcross (x st : Nat) : ∃ es i cs fs st' t, (p.raise .pkgFloor p.primary noCtx 0 x).pkgTo st =
      { p with events := es, eventIdx := i, ctrs := cs, flags := fs, pkgState := st', pkgEntered := t } := by
    obtain ⟨es, i, cs, fs, h⟩ := p.raise_writes .pkgFloor p.primary noCtx 0 x
    obtain ⟨es', i', cs', fs', st', t, h'⟩ := hto (p.raise .pkgFloor p.primary noCtx 0 x) st
    rw [h', h]
    exact ⟨_, _, _, _, _, _, rfl⟩
  rw [Pkg.floorEval]
  split
  · exact hcross 0 4
  · split
    · exact hcross 1 3
    · exact ⟨_, _, _, _, _, _, rfl⟩

/-- A group's change is one of the seam's table or of a die's groups. -/
theorem Pkg.modGroup_keeps {β : Type} {r : Pkg → β} (hseam : ∀ (p : Pkg) (t : Tab DGroup), r { p with seam := t } = r p)
    (hdie : ∀ (p : Pkg) (d : Nat) (t : Tab DGroup), r (p.setDie d { p.die d with groups := t }) = r p) (p : Pkg) (d g : Nat) (f : DGroup → DGroup) :
    r (p.modGroup d g f) = r p := by
  rw [Pkg.modGroup]
  split
  · exact hseam _ _
  · exact hdie _ _ _

/-! ## The orderly reset of a memory die (R310, R334) -/

/-- What a reset writes of its die at once. -/
def Die.mark (x : Die) : Nat × Nat × Bool × Bool := (x.state, x.cause, x.admitted, x.orderly)

theorem Pkg.dieMark_modGroup (p : Pkg) (k d g : Nat) (f : DGroup → DGroup) : ((p.modGroup d g f).die k).mark = (p.die k).mark := by
  refine Pkg.modGroup_keeps (r := fun p => (p.die k).mark) (fun _ _ => rfl) (fun p d t => ?_) p d g f
  by_cases h : k = d
  · rw [h, Pkg.die_setDie]
    rfl
  · rw [Pkg.die_setDie_ne _ _ h]

/-- A reset up to what the die itself loses (R334): its event, its items' excuse, its registers, and the words on its groups. -/
def Pkg.dieHeld (p : Pkg) (d cause : Nat) (orderly : Bool) : Pkg :=
  let p := p.raise .fabDieReset d noCtx d cause
  let p := p.causeItems 0x14 d fun j i => p.itemUses j d i || d == p.primary
  let p := p.modDie d fun x => { x with
    state := 1, orderly := orderly, resets := Nat.min 255 (x.resets + 1), cause := cause, admitted := false
    enteredNs := p.icount p.primary % 2 ^ 32, ce := 0, storm := false, canary := []
    groups := x.groups.map fun e => (e.1, { e.2 with kept := [], resend := 0, retesting := false, sentAt := 0, rcvdAt := 0, rewound := false })
    xings := (List.range 6).foldl (fun t i => tabMod {} t i fun c => { c with clockless := false }) x.xings }
  let p := ((dieGroups d).filter fun g => g.1 != seamPeer).foldl (fun p g =>
    let back := ((dieGroups g.1).findIdx? fun y => y.1 == d).getD 0
    (p.modGroup g.1 back fun y => { y with kept := [], sentAt := 0, rcvdAt := 0, rewound := false }).setFlag .fabStatus g.1 5) p
  p.modGroup d (96 + d % 16) fun y => { y with kept := [], sentAt := 0, rcvdAt := 0, rewound := false }

theorem Pkg.dieReset_memOrderly {p : Pkg} {d : Nat} (cause : Nat) (hk : dieKind d = 1) (ha : (p.die d).admitted = true) (hs : (p.die d).state = 0) :
    p.dieReset d cause true = ((p.dieHeld d cause true).memOrderly d).floorEval := by
  have hnot : ¬ (!((p.die d).admitted || decide ((p.die d).state = 1)) || ((p.die d).state != 0 && true)) = true := by simp [ha, hs]
  rw [Pkg.dieReset]
  dsimp only
  rw [if_neg hnot, hk]
  rfl

theorem Pkg.dieHeld_mark (p : Pkg) (d cause : Nat) (orderly : Bool) : ((p.dieHeld d cause orderly).die d).mark = (1, cause, false, orderly) := by
  rw [Pkg.dieHeld]
  dsimp only
  rw [Pkg.dieMark_modGroup, foldl_keeps (g := fun p : Pkg => (p.die d).mark), Pkg.modDie_eq, Pkg.die_setDie]
  · rfl
  · exact fun p _ => Pkg.dieMark_modGroup p _ _ _ _

/-- A reset leaves what neither its event nor dies, groups and items hold. -/
theorem Pkg.dieHeld_keeps {β : Type} {r : Pkg → β} (hseam : ∀ (p : Pkg) (t : Tab DGroup), r { p with seam := t } = r p)
    (hdie : ∀ (p : Pkg) (d : Nat) (x : Die), r (p.setDie d x) = r p) (hslot : ∀ (p : Pkg) (j : Nat) (v : SlotS), r (p.setSlot j v) = r p)
    (hevent : ∀ (p : Pkg) es i cs fs, r { p with events := es, eventIdx := i, ctrs := cs, flags := fs } = r p)
    (p : Pkg) (d cause : Nat) (orderly : Bool) : r (p.dieHeld d cause orderly) = r p := by
  have hgroup (p : Pkg) (d g : Nat) (f : DGroup → DGroup) : r (p.modGroup d g f) = r p := Pkg.modGroup_keeps hseam (fun _ _ _ => hdie _ _ _) p d g f
  refine (hgroup _ _ _ _).trans ((foldl_keeps (fun p x => ?_) _ _).trans ((hdie _ _ _).trans ((Pkg.causeItems_keeps hslot _ _ _ _).trans ?_)))
  · exact (hevent _ _ _ _ _).trans (hgroup p _ _ _)
  · obtain ⟨es, i, cs, fs, h⟩ := p.raise_writes .fabDieReset d noCtx d cause
    rw [h]
    exact hevent _ _ _ _ _

theorem Pkg.stack_dieHeld (p : Pkg) (d cause : Nat) (orderly : Bool) (n : Nat) : (p.dieHeld d cause orderly).stack n = p.stack n :=
  Pkg.dieHeld_keeps (r := fun p => p.stack n) (fun _ _ => rfl) (fun _ _ _ => rfl) (fun _ _ _ => rfl) (fun _ _ _ _ _ => rfl) p d cause orderly

/-- The stacks of a memory die in an orderly reset refresh themselves. -/
theorem Pkg.stack_memOrderly {p : Pkg} {d n : Nat} (hn : n = 2 * memNo d ∨ n = 2 * memNo d + 1) (hs : (p.stack n).state = 0) :
    ((p.memOrderly d).stack n).state = 1 := by
  rw [Pkg.memOrderly]
  simp only [List.foldl_cons, List.foldl_nil, Pkg.modStack_eq, Pkg.modMemDie_eq, Pkg.stack_setStack, Pkg.stack_setMemDie]
  rcases hn with rfl | rfl <;> simp [hs]

theorem Pkg.memDie_memOrderly (p : Pkg) (d : Nat) :
    (p.memOrderly d).memDie (memNo d) = { p.memDie (memNo d) with accepting := false, cache := [], orderlyAt := some p.now, expired := false } := by
  rw [Pkg.memOrderly]
  simp only [List.foldl_cons, List.foldl_nil, Pkg.modStack_eq, Pkg.modMemDie_eq, Pkg.memDie_setStack, Pkg.memDie_setMemDie, if_true]

theorem Pkg.die_memOrderly (p : Pkg) (d k : Nat) : (p.memOrderly d).die k = p.die k := rfl

/-- The floor's evaluation leaves dies, stacks and memory dies. -/
theorem Pkg.floorEval_keeps {β : Type} {r : Pkg → β}
    (h : ∀ (p : Pkg) es i cs fs st t, r { p with events := es, eventIdx := i, ctrs := cs, flags := fs, pkgState := st, pkgEntered := t } = r p)
    (p : Pkg) : r p.floorEval = r p := by
  obtain ⟨es, i, cs, fs, st, t, heq⟩ := p.floorEval_writes
  rw [heq]
  exact h _ _ _ _ _ _ _

theorem watchdog_memDie {s : State} {d : DieId} (hk : dieKind d = 1) (ha : (s.pkg.die d).admitted = true) (hs : (s.pkg.die d).state = 0) :
    ∃ q, Makes s (.watchdogExpiry d) q ∧ ((q.die d).mark = (1, 5, false, true)) ∧
      (q.memDie (memNo d)).accepting = false ∧ (q.memDie (memNo d)).cache = [] ∧
      ∀ n, n = 2 * memNo d ∨ n = 2 * memNo d + 1 → (s.pkg.stack n).state = 0 → (q.stack n).state = 1 := by
  refine ⟨_, makes_of rfl (Pkg.dieReset_memOrderly 5 hk ha hs), ?_, ?_, ?_, fun n hn h => ?_⟩
  · rw [Pkg.floorEval_keeps (r := fun p => p.die d) (fun _ _ _ _ _ _ _ => rfl), Pkg.die_memOrderly, Pkg.dieHeld_mark]
  · rw [Pkg.floorEval_keeps (r := fun p => p.memDie (memNo d)) (fun _ _ _ _ _ _ _ => rfl), Pkg.memDie_memOrderly]
  · rw [Pkg.floorEval_keeps (r := fun p => p.memDie (memNo d)) (fun _ _ _ _ _ _ _ => rfl), Pkg.memDie_memOrderly]
  · rw [Pkg.floorEval_keeps (r := fun p => p.stack n) (fun _ _ _ _ _ _ _ => rfl)]
    exact Pkg.stack_memOrderly hn (by rw [Pkg.stack_dieHeld]; exact h)

end Sys2Proof.Machine
end

