-- ==== Sys2Proof/Proofs/FabricEvents.lean ====
section
/-! The fabric between dies and the events of dies and clocks (R317 to R343): the obligation settled from the three ends of a received
packet, the storm of an interval, and the tests of each event. -/

namespace Sys2Proof.Machine

/-! ## Packets between dies (R319 to R324) -/

section Packet
variable {s : State} {d : DieId} {g : Nat} {lanes : List (List W64)} {b : Nat} {end_ header trailer : W64} {payload : List W64} {u : Bool} {c : Nat}
  (hup : stationGroup g = true ∨ (s.pkg.die d).state = 0) (hg : groupIs d g = true)
  (hws : gather (trailed lanes b end_) (s.pkg.group d g).rcvdAt = header :: payload ++ [trailer])

/-- The package once a group has taken in the words of a packet. -/
def Pkg.wordsTaken (p : Pkg) (d g n : Nat) : Pkg := p.modGroup d g fun x => { x with rcvdAt := x.rcvdAt + (n + 2), rewound := false }

/-- What the words of a packet with a right CRC and length make of the package. -/
def Pkg.packetTaken (p : Pkg) (d g c : Nat) (u : Bool) (header trailer : W64) (payload : List W64) : Pkg :=
  let p := if c = 0 then p else (p.setFlag .fabStatus d 0).fabCount d g c
  if u then (p.bump .fabUncorr (groupInst d g)).emit (.hop d g .resend)
  else
    let p := p.emit (.hop d g .done)
    if !stationGroup g && fld header.toNat 0 5 = d then p.deliverPkt d header payload trailer
    else p.forwardPkt d (stationGroup g) (header :: payload ++ [trailer])

/-- What a packet with a wrong CRC or length makes of the package. -/
def Pkg.packetRewound (p : Pkg) (d g : Nat) : Pkg :=
  ((((p.modGroup d g fun x => { x with rewound := true }).bump .fabRewind (groupInst d g)).setFlag .fabStatus d 1).fabCount d g 1).emit (.hop d g .resend)

include hup hg hws

theorem diePacket_makes {q : Pkg}
    (hq : (if (dieCrc header payload != fld trailer.toNat 0 32 || payload.length != fld header.toNat 32 6 + 1) = true then
        (s.pkg.wordsTaken d g payload.length).packetRewound d g
      else (s.pkg.wordsTaken d g payload.length).packetTaken d g c u header trailer payload) = q) :
    Makes s (.diePacketReceive d g lanes b end_ c u) q := by
  have hin : ¬ (!stationGroup g && (s.pkg.die d).state != 0 || !groupIs d g) = true := by
    rcases hup with h | h <;> simp [h, hg]
  refine makes_of rfl ((if_neg hin).trans (Eq.trans ?_ hq))
  have hlast : (header :: (payload ++ [trailer])).getLastD 0 = trailer := by
    rw [← List.cons_append, List.getLastD_concat]
  rw [hws]
  simp only [List.cons_append, List.headD_cons, List.tail_cons, List.dropLast_concat, List.length_cons, List.length_append, List.length_nil,
    Nat.zero_add, hlast]
  rfl

end Packet

/-! ## Corrections in an interval (R324) -/

/-- The end of an interval at a die, whose corrections make a storm or not. -/
def Pkg.fabInterval (p : Pkg) (d : Nat) (storms : Bool) : Pkg :=
  let x := p.die d
  let p := if storms || x.storm then p.causeItems 0x12 d fun j i => p.itemUses j d i else p
  let p := p.modDie d fun x => { x with ce := 0, storm := storms }
  if storms && !x.storm then ((p.setFlag .fabStatus d 4).setFlag .dlStatus p.primary 2).raise .fabCeStorm d noCtx d x.ce else p

theorem Pkg.fabInterval_quiet {p : Pkg} {d : Nat} (h : (p.die d).storm = false) :
    p.fabInterval d false = p.modDie d fun x => { x with ce := 0, storm := false } := by
  rw [Pkg.fabInterval, h]
  rfl

theorem Pkg.fabInterval_begins {p : Pkg} {d : Nat} (h : (p.die d).storm = false) :
    p.fabInterval d true = (((((p.causeItems 0x12 d fun j i => p.itemUses j d i).modDie d fun x => { x with ce := 0, storm := true }).setFlag
      .fabStatus d 4).setFlag .dlStatus p.primary 2).raise .fabCeStorm d noCtx d (p.die d).ce) := by
  simp only [Pkg.fabInterval, h, Bool.true_or, if_true, Bool.not_false, Bool.and_self]
  have hprimary := p.primary_causeItems 0x12 d fun j i => p.itemUses j d i
  rw [← hprimary]
  generalize (p.causeItems 0x12 d fun j i => p.itemUses j d i) = q
  rfl

/-! ## The Ethernet reference (R337) -/

theorem Pkg.excuseAll_clkStop (p : Pkg) : p.excuseAll.clkStop = p.clkStop := Pkg.causeItems_keeps (g := Pkg.clkStop) (fun _ _ _ => rfl) p _ _ _

/-- Time does not stand while the holdover lasts, so a return loses none. -/
theorem Pkg.clkReturn_running {p : Pkg} (h : p.clkStop = none) :
    { p with holdover := false, refEthLost := false, clkStop := none, clkLost := p.clkLost + (p.now - p.clkStop.getD p.now) } =
      { p with holdover := false, refEthLost := false } := by
  rw [h, Option.getD_none, Nat.sub_self, Nat.add_zero, ← h]

/-- The count stops at the time of the event. -/
theorem Pkg.clkStop_raise (p : Pkg) (e : Ev) (d c o x : Nat) :
    { p.raise e d c o x with clkStop := some p.now } = { p.raise e d c o x with clkStop := some (p.raise e d c o x).now } := by
  have hnow : (p.raise e d c o x).now = p.now := by
    obtain ⟨es, i, cs, fs, h⟩ := p.raise_writes e d c o x
    rw [h]
  rw [hnow]

/-! ## Rejoin (R336, R339) -/

/-- A die as its tests and report leave it. -/
def Pkg.dieTested (p : Pkg) (d : DieId) (r : DieReport) : Pkg :=
  let p := p.modDie d fun x => { x with stepMajor := r.stepMajor, stepMinor := r.stepMinor, feature := r.feature.toNat, pufOk := r.pufOk }
  (if d = 15 then { p with aHStep := some r.stepMajor } else p).testDie d r.failedWires

/-- What its tests and report decide of a die. -/
def Pkg.dieJudged (p : Pkg) (d : DieId) (r : DieReport) : Pkg :=
  if !r.ok || !p.dieGroupsOk d || (dieKind d = 0 && popcount 26 r.passing.toNat < 24) then p.dieTo d 3
  else if !(match p.ident.pairing[p.admittedBy]? with | some e => p.pairOk e d r.stepMajor | none => false) ||
      r.feature.toNat < (p.die p.primary).pkgFeature then (p.dieTo d 3).raise .fabPairing d noCtx d 0
  else
    let p := (p.dieTo d 0).modDie d fun x => { x with admitted := true, pkgFeature := (p.die p.primary).pkgFeature, skew := 0, xings := [] }
    let p := match dieKind d with
      | 0 => ((p.freeEps d).coreMap d r.passing.toNat).reserveOnDie d
      | 1 =>
        let m := memNo d
        [2 * m, 2 * m + 1].foldl (fun p n => p.modStack n fun k => if k.state = 2 then { k with state := 3 } else k)
          (p.modMemDie m fun y => { y with initialising := (p.stack (2 * m)).state = 2 || (p.stack (2 * m + 1)).state = 2 })
      | 2 => (List.range 16).foldl (fun p n => if linkDie n = d.val && (p.port n).state == PState.down && !p.portHeld n then p.portTrain n false else p) p
      | 3 => (List.range 16).foldl (fun p n => if n / 8 = d.val / 16 && (p.port n).state == PState.down && !p.portHeld n then p.portTrain n false else p) p
      | _ => p
    (p.raise .fabDieRejoin d noCtx d 0).floorEval

theorem dieRejoin_makes {s : State} {d : DieId} {r : DieReport} (hx : (s.pkg.die d).state ≠ 0) (h3 : (s.pkg.die d).state ≠ 3) :
    Makes s (.dieRejoin d r) ((s.pkg.dieTested d r).dieJudged d r) := makes_of rfl ((if_neg (by simp [hx, h3])).trans rfl)

theorem Pkg.dieJudged_failed (p : Pkg) (d : DieId) {r : DieReport} (h : r.ok = false) : p.dieJudged d r = p.dieTo d 3 := if_pos (by simp [h])

theorem Pkg.pkgFeature_dieTo (p : Pkg) (d st k : Nat) : ((p.dieTo d st).die k).pkgFeature = (p.die k).pkgFeature := by
  rw [Pkg.dieTo, Pkg.modDie_eq]
  by_cases h : k = d
  · rw [h, Pkg.die_setDie]
  · rw [Pkg.die_setDie_ne _ _ h]

/-- A headframe that passes and is paired is admitted. -/
theorem Pkg.dieJudged_headframe {p : Pkg} {d : DieId} {r : DieReport} {e : Rec} (hok : r.ok = true) (hgroups : p.dieGroupsOk d = true)
    (hk : dieKind d = 4) (he : p.ident.pairing[p.admittedBy]? = some e) (hpair : p.pairOk e d r.stepMajor = true)
    (hfeature : (p.die p.primary).pkgFeature ≤ r.feature.toNat) :
    p.dieJudged d r = ((((p.dieTo d 0).modDie d fun x => { x with
      admitted := true, pkgFeature := ((p.dieTo d 0).die (p.dieTo d 0).primary).pkgFeature, skew := 0, xings := [] }).raise
        .fabDieRejoin d noCtx d 0).floorEval) := by
  have hpass : ¬ (!r.ok || !p.dieGroupsOk d || (decide (dieKind d = 0) && decide (popcount 26 r.passing.toNat < 24))) = true := by
    simp [hok, hgroups, hk]
  rw [Pkg.dieJudged, if_neg hpass, he]
  refine (if_neg (by simp [hpair, hfeature])).trans ?_
  have hsame : ((p.dieTo d 0).die (p.dieTo d 0).primary).pkgFeature = (p.die p.primary).pkgFeature := Pkg.pkgFeature_dieTo _ _ _ _
  rw [hk, hsame]
  rfl

/-- Settles O31: a packet meets its CRC, then its codewords, then its destination; each event of a die passes the tests its rule names, and
a memory die in an orderly reset leaves its stacks in self-refresh. -/
theorem fabricAndDies : Obligations.FabricAndDies := by
  unfold Obligations.FabricAndDies
  refine ⟨?_, ?_⟩
  · intro s d g lanes b end_ header trailer payload u ws n rest fs p x took right
    refine ⟨fun hup hg hws => ⟨fun hwrong c => ?wrong, fun hright => ⟨fun hu => ?uncorrectable, fun hu hst hd => ?here, fun hu hon => ?onward⟩⟩,
      fun hkept => ⟨fun h2 => ?again, fun h2 => ?retest, ?freed⟩, fun hr => ?abort, fun hr hg => ?retested,
      fun hs => ⟨fun hc => ?quiet, fun hc => ?storm⟩⟩
    case wrong =>
      refine diePacket_makes hup hg hws (if_pos ?_)
      rw [Bool.or_eq_true, bne_iff_ne, bne_iff_ne]
      exact Decidable.not_and_iff_or_not.mp hwrong
    case uncorrectable => exact diePacket_makes hup hg hws ((if_neg (by simp [hright.1, hright.2])).trans (if_pos hu))
    case here =>
      refine diePacket_makes hup hg hws ((if_neg (by simp [hright.1, hright.2])).trans ((if_neg (Bool.eq_false_iff.mp hu)).trans (if_pos ?_)))
      simp [hst, hd]
    case onward =>
      refine diePacket_makes hup hg hws ((if_neg (by simp [hright.1, hright.2])).trans ((if_neg (Bool.eq_false_iff.mp hu)).trans (if_neg ?_)))
      rcases hon with h | h <;> simp [h]
    case again =>
      refine makes_of rfl ?_
      dsimp only
      rw [show (s.pkg.group d g).kept = _ from hkept]
      exact if_neg h2
    case retest =>
      refine makes_of rfl ?_
      dsimp only
      rw [show (s.pkg.group d g).kept = _ from hkept]
      exact if_pos h2
    case freed =>
      refine makes_of rfl ?_
      dsimp only
      rw [show (s.pkg.group d g).kept = _ from hkept]
    case abort => exact makes_of rfl (if_neg (Bool.eq_false_iff.mp hr))
    case retested => exact makes_of rfl (if_neg (by simp [hg]; exact hr))
    case quiet =>
      exact makes_of rfl ((congrArg (p.fabInterval d) (decide_eq_false (Nat.not_lt.mpr hc))).trans (Pkg.fabInterval_quiet hs))
    case storm => exact makes_of rfl ((congrArg (p.fabInterval d) (decide_eq_true hc)).trans (Pkg.fabInterval_begins hs))
  · intro s d isl r e p x lossOf
    refine ⟨fun ha hs => ⟨makes_of rfl rfl, makes_of rfl rfl, makes_of rfl ?island5⟩, ?port, fun hk ha hs => ?memDie, fun h0 h3 => ?rejoin,
      fun hr => ?stop, fun hh => ⟨fun hc => ?return_, ?ends⟩⟩
    case island5 => exact (if_pos rfl).trans rfl
    case port =>
      intro n hk
      have h5 : (⟨isl.val, by omega⟩ : Fin 6) ≠ 5 := fun h => by have := congrArg Fin.val h; simp at this; omega
      have h4 : (⟨isl.val, by omega⟩ : Fin 6) ≠ 4 := fun h => by have := congrArg Fin.val h; simp at this; omega
      refine makes_of rfl ((if_neg h5).trans ((if_neg h4).trans ((if_pos hk).trans (congrArg (fun q : Pkg => q.portCut n) (if_pos ?_)))))
      simp [hk, isl.isLt]
    case memDie =>
      obtain ⟨q, hq, hmark, hrest⟩ := watchdog_memDie hk ha hs
      simp only [Die.mark, Prod.mk.injEq] at hmark
      exact ⟨q, hq, hmark.1, hmark.2.1, hmark.2.2.1, hmark.2.2.2, hrest⟩
    case rejoin =>
      intro tested q
      have hmade : Makes s (.dieRejoin d r) (q.dieJudged d r) := dieRejoin_makes h0 h3
      refine ⟨fun hok => ?_, fun hok hg hk he hp hf => ?_⟩
      · rw [Pkg.dieJudged_failed _ d hok] at hmade
        exact hmade
      · rw [Pkg.dieJudged_headframe hok hg hk he hp hf] at hmade
        exact hmade
    case stop => exact makes_of rfl (if_neg (Bool.eq_false_iff.mp hr))
    case return_ =>
      refine makes_of rfl ?_
      dsimp only
      rw [if_pos hh]
      exact Pkg.clkReturn_running ((Pkg.excuseAll_clkStop p).trans hc)
    case ends =>
      intro q hst
      refine makes_of rfl ((if_neg (by simpa using hh)).trans ?_)
      dsimp only
      rw [if_neg hst]
      exact Pkg.clkStop_raise _ _ _ _ _ _

end Sys2Proof.Machine
end

