-- ==== Sys2Proof/Proofs/VoteAndSwap.lean ====
section
/-! The vote and the verdict of a step, pre-emption and swapping (R362 to R365, R379 to R385): the obligation settled from what a vote
decides of a device whose children and readiness are complete. -/

namespace Sys2Proof.Machine

/-! ## The vote (R363) -/

/-- What this device adds to the causes of its step: 2^32 for other, 1 for a value that is not finite. -/
def Pkg.ownCause (p : Pkg) (c : Nat) : Nat :=
  if (p.ctx c).step.localCause = 2 ∨ (p.ctx c).state = .faulted then 2 ^ 32 else if (p.ctx c).step.nonfinite = true then 1 else 0

/-- The causes of the step as its device sums them. -/
def Pkg.causeSum (p : Pkg) (c : Nat) : Nat :=
  (p.sync (polBase (p.ctx c).step.policy + 2 + (p.ctx c).step.num % 2)).ctr.toNat + p.ownCause c

/-- The step of a device that votes with everything there. -/
def Pkg.voted (p : Pkg) (c : Nat) : Pkg :=
  p.modStep c fun s => { s with
    voted := true, ready := true, localCause := if p.ownCause c = 2 ^ 32 then 2 else if p.ownCause c = 1 then 1 else 0
    causeSent := p.causeSum c != 0, children := (p.sync (polBase (p.ctx c).step.policy + (p.ctx c).step.num % 2)).ctr.toNat }

/-- The verdict its causes make of a step. -/
def causeVerdict (sum : Nat) : Nat := if 2 ^ 32 ≤ sum then 3 else if sum % 2 ^ 32 ≠ 0 then 2 else 1

theorem Pkg.vote_complete (p : Pkg) (c : Nat) :
    p.vote c false false =
      let st := (p.ctx c).step
      let v := causeVerdict (p.causeSum c)
      let q := p.voted c
      if polRoot st.policy = true then
        ((if v = 1 then q.orderCapture c st.num else q).setObj (polBase st.policy + 4) (BitVec.ofNat 64 (4 * st.num + v))).modStep c
          fun s => { s with verdict := v, verdictIn := true }
      else if p.causeSum c ≠ 0 then
        q.devSync (polParent st.policy) (polParentBase st.policy + 2 + st.num % 2) 0 c (p.causeSum c) (.seal c 1)
      else q.voteCount c := by
  simp only [Pkg.vote, Bool.false_or, Bool.or_eq_true, decide_eq_true_eq, Bool.not_false, Bool.or_true, Bool.or_false, Bool.false_eq_true,
    if_false, Nat.add_zero, bne_iff_ne]
  rfl

section Vote
variable {s : State} {c : CtxId} {x : Instr} (h2 : (s.pkg.ctx c).step.state = 2) (hv : (s.pkg.ctx c).step.voted = false)
include h2 hv

/-- The vote and the limit come to the same once children and readiness are complete. -/
theorem vote_makes (hready : s.pkg.localReady c = true)
    (hall : (polChildren (s.pkg.ctx c).step.policy : Int) ≤
      (s.pkg.sync (polBase (s.pkg.ctx c).step.policy + (s.pkg.ctx c).step.num % 2)).ctr.toInt)
    (hx : x ∈ [Instr.sealVote c, .sealLimitExpiry c]) : Makes s x (s.pkg.vote c false false) := by
  simp only [List.mem_cons, List.not_mem_nil, or_false] at hx
  rcases hx with rfl | rfl
  · exact makes_of rfl (if_neg (by simp [h2, hv, hready, Int.not_lt.mpr hall]))
  · refine makes_of rfl ((if_neg (by simp [h2, hv])).trans ?_)
    dsimp only
    rw [decide_eq_false (Int.not_lt.mpr hall), if_neg (by decide), hready]
    rfl

omit h2 hv in
theorem sealVote_early
    (hfew : (s.pkg.sync (polBase (s.pkg.ctx c).step.policy + (s.pkg.ctx c).step.num % 2)).ctr.toInt <
      (polChildren (s.pkg.ctx c).step.policy : Int)) : Makes s (.sealVote c) s.pkg :=
  makes_of rfl (if_pos (by simp [hfew]))

theorem sealLimit_missing
    (hfew : (s.pkg.sync (polBase (s.pkg.ctx c).step.policy + (s.pkg.ctx c).step.num % 2)).ctr.toInt <
      (polChildren (s.pkg.ctx c).step.policy : Int)) :
    Makes s (.sealLimitExpiry c) (((s.pkg.raise .stepVoteTimeout s.pkg.primary c c (s.pkg.ctx c).step.num).bump .stepVoteTimeout c).vote c
      (!s.pkg.localReady c) true) := by
  refine makes_of rfl ((if_neg (by simp [h2, hv])).trans ?_)
  dsimp only
  rw [decide_eq_true hfew, if_pos rfl]
  obtain ⟨es, i, cs, fs, h⟩ := s.pkg.raise_writes .stepVoteTimeout s.pkg.primary c c (s.pkg.ctx c).step.num
  rw [h]
  rfl

end Vote

/-! ## Swapping (R382, R384, R385) -/

section Swap
variable {s : State} {c : CtxId}

/-- The frozen items that have come to rest leave none to kill. -/
theorem noneLate {p : Pkg} {l : List (Nat × Nat)} (h : ∀ i ∈ l, p.quiescent i.1 i.2 = true) : l.filter (fun i => !p.quiescent i.1 i.2) = [] := by
  rw [List.filter_eq_nil_iff]
  exact fun i hi => by simp [h i hi]

theorem freezeWait_rested (hw : (s.pkg.ctx c).freezeWait = true) (hq : ∀ i ∈ (s.pkg.ctx c).frozenItems, s.pkg.quiescent i.1 i.2 = true) :
    Makes s (.freezeWaitExpiry c) (s.pkg.setCtx c { s.pkg.ctx c with freezeWait := false }) := by
  have hall : ((s.pkg.ctx c).frozenItems.filter fun i => !([] : List (Nat × Nat)).contains i) = (s.pkg.ctx c).frozenItems :=
    List.filter_eq_self.mpr fun _ _ => rfl
  refine makes_of rfl ((if_neg (by simp [hw])).trans ?_)
  dsimp only
  rw [noneLate hq, List.foldl_nil, Pkg.modCtx_eq, hall]

theorem freezeWait_late {i : Nat × Nat} (hw : (s.pkg.ctx c).freezeWait = true) (hi : (s.pkg.ctx c).frozenItems = [i])
    (hq : s.pkg.quiescent i.1 i.2 = false) :
    Makes s (.freezeWaitExpiry c)
      ((((s.pkg.preemptItem i.1 i.2 (s.pkg.ctx c).swapByLc).bump .ctxFreezeKill c).setFlag .schedStatus s.pkg.primary 2).modCtx c
        fun x => { x with freezeWait := false, frozenItems := x.frozenItems.filter fun j => j != i }) := by
  have hlate : (s.pkg.ctx c).frozenItems.filter (fun i => !s.pkg.quiescent i.1 i.2) = [i] := by simp [hi, hq]
  have hkeep (j : Nat × Nat) : (!([i] : List (Nat × Nat)).contains j) = (j != i) := by
    rw [List.contains_cons, List.contains_nil, Bool.or_false, bne]
  refine makes_of rfl ((if_neg (by simp [hw])).trans ?_)
  dsimp only
  rw [hlate, List.foldl_cons, List.foldl_nil]
  simp only [hkeep]

theorem swapSave_done (hs : (s.pkg.ctx c).saving = true) (hq : ∀ i ∈ (s.pkg.ctx c).frozenItems, s.pkg.quiescent i.1 i.2 = true)
    (hi : s.pkg.imageWaits c = false) (hf : ((s.pkg.saveDone c).ctx c).state ≠ .faulted) :
    Makes s (.swapSaveComplete c) (((s.pkg.ctx c).swapReply.foldl (fun p t => p.replyWaiting (some t) 0 [])
      (((s.pkg.saveDone c).ctxTo c .swapped).modCtx c fun x => { x with swapReply := [] })).swapEval) := by
  refine makes_of rfl ((if_neg ?_).trans ?_)
  · simp [hs, hi, List.all_eq_true.mpr hq]
  · dsimp only
    rw [if_neg hf]
    rfl

end Swap

/-- Settles O32: a device whose children and readiness are complete votes as the sum of its causes decides; the events of pre-emption and
swapping pass the tests their rules name. -/
theorem verdictAndSwap : Obligations.VerdictAndSwap := by
  unfold Obligations.VerdictAndSwap
  refine ⟨?_, ?_⟩
  · intro s c p st pol par count mine sum v q h2
    refine ⟨fun hv hready hall x hx => ?complete, fun hv hfew => ⟨sealVote_early hfew, sealLimit_missing h2 hv hfew⟩, fun hin => ?verdict⟩
    case complete =>
      have hmade := vote_makes h2 hv hready hall hx
      rw [Pkg.vote_complete] at hmade
      refine ⟨fun hroot => ?_, fun hroot => ⟨fun hs => ?_, fun hs => ?_⟩⟩
      · exact hmade.trans (congrArg _ (congrArg _ (if_pos hroot)))
      · exact hmade.trans (congrArg _ (congrArg _ ((if_neg (Bool.eq_false_iff.mp hroot)).trans (if_pos hs))))
      · exact hmade.trans (congrArg _ (congrArg _ ((if_neg (Bool.eq_false_iff.mp hroot)).trans (if_neg (Decidable.not_not.mpr hs)))))
    case verdict => exact makes_of rfl (if_pos (Bool.and_eq_true_iff.mpr ⟨decide_eq_true h2, hin⟩))
  · intro s c p x
    refine ⟨fun h => makes_of rfl (if_neg ?_), fun hr hst => makes_of rfl (if_pos ?_), freezeWait_rested, fun _ => freezeWait_late,
      fun hs hq hi => makes_of rfl (if_pos ?_), swapSave_done, fun hs he hi => makes_of rfl (if_neg ?_)⟩
    · rw [show (s.pkg.ctx c).preempting = true from h]
      decide
    · rw [Bool.and_eq_true, Bool.or_eq_true, decide_eq_true_eq, decide_eq_true_eq]
      exact ⟨hr, hst⟩
    · rw [hi, Bool.or_true]
    · have hnone : (s.pkg.ctxs.any fun e => e.2.swapping) = false := List.any_eq_false.mpr fun e h => Bool.eq_false_iff.mp (he e h)
      rw [show (s.pkg.ctx c).swapIn = true from hs, hnone]
      cases himg : (s.pkg.ctx c).hasImage
      · simp
      · rw [show s.pkg.imageWaits c = false from hi himg]
        decide

end Sys2Proof.Machine
end

