-- ==== Sys2Proof/Proofs/SecuringEvents.lean ====
section
/-! Captures, journal and parity, restores and the chunks of a reshard (R350, R351, R406 to R415): the obligation settled from each
event's tests, and from what a restore makes of the sources its tensors have. -/

namespace Sys2Proof.Machine

/-! ## Restoring (R413 to R415) -/

/-- The source of every tensor in a restore. -/
def Secure.restoreCodes (x : Secure) (rec : Rec) (rs : List TensorRestore) : List Nat :=
  let hosted := (List.range (fld rec 136 11)).map fun i => fld rec (512 + 32 * fld rec 128 6 + 32 * i) 32
  (List.range x.tensors.length).map fun i => x.sourceOf (hosted.contains i) i (rs.getD i ⟨false, false, false, false, []⟩)

/-- The report of a restore's sources. -/
def restoreReport (codes : List Nat) : List Byte :=
  ((codes.zipIdx).map fun (k, i) => toLe 8 (put 0 10 i + put 10 3 k + put 13 3 (b2n (k == 0)))).flatten

/-- A restore ends with its answer. -/
def Pkg.restoreEnds (x : Secure) (p : Pkg) (st : Nat) (ps : List Byte) : Pkg :=
  ({ p with secure := { p.secure with restoring := none, restoreReply := none, phase := 0 } } : Pkg).replyWaiting x.restoreReply st ps

/-- Does a tensor without a source stand on poisoned bytes? -/
def poisonedSource (codes : List Nat) (rs : List TensorRestore) : Bool := rs.zipIdx.any fun e => e.1.poisoned && codes.getD e.2 0 == 0

/-- Do the streams of a seal differ from those in memory? -/
def Pkg.sealDiffers (p : Pkg) (c : Nat) (sl : Rec) : Bool :=
  (sealStreams sl).any fun e => match p.streamAddr c e.1 with | some a => p.loadNum (a + 16) 16 != e.2 | none => true

/-- The seal a restore reads. -/
def Pkg.sealOf (p : Pkg) (rec : Rec) : Rec := leNat (p.load (fld rec 64 48) (fld (leNat (p.load (fld rec 64 48) 8)) 32 32))

/-- What a restore makes of the package that has read its seal, `p0` being the package before it. -/
def Pkg.restored (p p0 : Pkg) (x : Secure) (c : Nat) (rec : Rec) (codes : List Nat) (rs : List TensorRestore) : Pkg :=
  if p.sealDiffers c (p.sealOf rec) && !bit x.hdr 93 then p.restoreEnds x stSealMismatch []
  else if !p.objsFor ((p.slotsOf c).filter fun j => ((p.slot j).vers.all fun e => e.2.state == 0)) then p0.restoreEnds x stVersionObjects []
  else (p.restoreApply x c (fld rec 0 61) (p.sealOf rec) (p.sealDiffers c (p.sealOf rec)) codes rs).restoreEnds x 0
    (tlv 0x0006 (toLe 8 (fld rec 0 61)))

section Restored
variable {p p0 : Pkg} {x : Secure} {c : Nat} {rec : Rec} {codes : List Nat} {rs : List TensorRestore}

theorem Pkg.restored_mismatch (hbad : p.sealDiffers c (p.sealOf rec) = true) (hauth : bit x.hdr 93 = false) :
    p.restored p0 x c rec codes rs = p.restoreEnds x stSealMismatch [] := if_pos (by simp [hbad, hauth])

variable (hgo : p.sealDiffers c (p.sealOf rec) = false ∨ bit x.hdr 93 = true)
include hgo

theorem Pkg.restored_applied
    (hobjs : p.objsFor ((p.slotsOf c).filter fun j => ((p.slot j).vers.all fun e => e.2.state == 0)) = true) :
    p.restored p0 x c rec codes rs =
      (p.restoreApply x c (fld rec 0 61) (p.sealOf rec) (p.sealDiffers c (p.sealOf rec)) codes rs).restoreEnds x 0
        (tlv 0x0006 (toLe 8 (fld rec 0 61))) :=
  (if_neg (by rcases hgo with h | h <;> simp [h])).trans (if_neg (by rw [hobjs]; decide))

theorem Pkg.restored_noObjects
    (hobjs : p.objsFor ((p.slotsOf c).filter fun j => ((p.slot j).vers.all fun e => e.2.state == 0)) = false) :
    p.restored p0 x c rec codes rs = p0.restoreEnds x stVersionObjects [] :=
  (if_neg (by rcases hgo with h | h <;> simp [h])).trans (if_pos (by rw [hobjs]; rfl))

end Restored

section Restore
variable {s : State} {c : CtxId} {rs : List TensorRestore} {rec : Rec} (hr : s.pkg.secure.restoring = some rec) (hc : s.pkg.secure.ctx = c)
include hr hc

/-- A restore writes its report, and ends at once when a tensor has no source. -/
theorem restoreComplete_makes {q : Pkg}
    (hq :
      let x := s.pkg.secure
      let codes := x.restoreCodes rec rs
      let w := s.pkg.deviceWrite c (fld rec 160 48) (restoreReport codes) 1
      let w := if poisonedSource codes rs then (w.raise .mdPoisonConsumed w.primary c 0 0).ctxFault c 6 else w
      (if codes.any (· == 0) then (w.setFlag .secStatus w.primary 5).restoreEnds x stGroupExhausted []
        else (w.deviceRead c (fld rec 64 48) 128 1).restored s.pkg x c rec codes rs) = q) :
    Makes s (.restoreComplete c rs) q := by
  refine makes_of rfl ?_
  dsimp only
  rw [hr]
  exact (if_neg (by simp [hc])).trans hq

omit hr hc in
/-- A tensor with a source has none that is poisoned. -/
theorem poisonedSource_eq_false {codes : List Nat} (hall : ∀ k ∈ codes, k ≠ 0) (hlen : rs.length ≤ codes.length) :
    poisonedSource codes rs = false := by
  rw [poisonedSource, List.any_eq_false]
  rintro ⟨r, i⟩ hi
  have hlt : i < codes.length := Nat.lt_of_lt_of_le (List.snd_lt_of_mem_zipIdx hi) hlen
  have hne : codes.getD i 0 ≠ 0 := by
    rw [listGetD_of_lt _ hlt]
    exact hall _ (List.getElem_mem hlt)
  dsimp only
  rw [beq_eq_false_iff_ne.mpr hne, Bool.and_false]
  decide

/-- With a source for each tensor the restore goes on to the seal. -/
theorem restoreComplete_sources {q : Pkg} (hall : ∀ k ∈ s.pkg.secure.restoreCodes rec rs, k ≠ 0) (hlen : rs.length ≤ s.pkg.secure.tensors.length)
    (hq : ((s.pkg.deviceWrite c (fld rec 160 48) (restoreReport (s.pkg.secure.restoreCodes rec rs)) 1).deviceRead c (fld rec 64 48) 128 1).restored s.pkg s.pkg.secure c rec
      (s.pkg.secure.restoreCodes rec rs) rs = q) : Makes s (.restoreComplete c rs) q := by
  have hcodes : (s.pkg.secure.restoreCodes rec rs).length = s.pkg.secure.tensors.length := by simp [Secure.restoreCodes]
  have hsome : ¬ (s.pkg.secure.restoreCodes rec rs).any (· == 0) = true := by
    simpa [List.any_eq_true] using fun h => hall 0 h rfl
  refine restoreComplete_makes hr hc ?_
  dsimp only
  rw [if_neg hsome, poisonedSource_eq_false hall (by omega), if_neg (by decide)]
  exact hq

end Restore

/-! ## Captures (R404 to R410) -/

/-- Is a page of that step later than the running attempt? -/
def Secure.laterThan (x : Secure) (step : Nat) : Bool := match x.attempt with | some a => decide (a.step < step) | none => false

/-- A page of the journal in its log. -/
def Pkg.pageKept (p : Pkg) (later : Bool) (g : JPage) : Pkg :=
  ({ p with secure := if later then { p.secure with newLog := jPut p.secure.newLog g } else { p.secure with pendLog := jPut p.secure.pendLog g } } : Pkg).bump
    .secJournalPages 0

/-- R409: a page that finds room goes to a log. -/
theorem journalPage_kept {s : State} {fab : BitVec 24} {tensor page step : Nat} {data : List Byte} {later : Bool} (hx : s.pkg.secure.active = true)
    (hroom : s.pkg.secure.replica.length + s.pkg.secure.pendLog.length + s.pkg.secure.newLog.length < fld s.pkg.secure.hdr 336 32)
    (hl : s.pkg.secure.laterThan step = later) :
    Makes s (.journalPageReceive fab tensor page step data) (s.pkg.pageKept later ⟨fab.toNat, tensor, page, step, data⟩) := by
  refine makes_of rfl ((if_neg ?_).trans (congrArg (fun l => s.pkg.pageKept l _) hl))
  simp only [hx, decide_eq_false (Nat.not_le.mpr hroom), Bool.not_true, Bool.false_and, Bool.or_false]
  decide

section Capture
variable {s : State} {a : Capture} (hx : s.pkg.secure.active = true) (ha : s.pkg.secure.attempt = some a)
include hx ha

/-- A complete attempt of a device under a parent is reported as good. -/
theorem captureReport_good {count : Nat} (hcount : (s.pkg.sync (scBase s.pkg.secure.hdr)).ctr.toNat = count)
    (hdone : s.pkg.secure.completed = true) (hrep : s.pkg.secure.reported = false)
    (hroot : polRoot (s.pkg.ctx s.pkg.secure.ctx).step.policy = false)
    (hall : polChildren (s.pkg.ctx s.pkg.secure.ctx).step.policy * s.pkg.secure.ordered ≤ count % 2 ^ 32 + count / 2 ^ 32)
    (hlost : count / 2 ^ 32 = s.pkg.secure.lost0) (hstop : a.stopped = false) :
    Makes s .captureReport (({ s.pkg with secure := { s.pkg.secure with reported := true, lost0 := count / 2 ^ 32 } } : Pkg).devSignal
      (polParent (s.pkg.ctx s.pkg.secure.ctx).step.policy) (scBase s.pkg.secure.hdr) 0 1 .doneObj) := by
  subst hcount
  have hgood : (s.pkg.secure.completed && (s.pkg.sync (scBase s.pkg.secure.hdr)).ctr.toNat / 2 ^ 32 == s.pkg.secure.lost0) = true := by
    rw [hdone, hlost, beq_self_eq_true]
    rfl
  refine makes_of rfl ((if_neg ?_).trans ((if_neg (Bool.eq_false_iff.mp hroot)).trans ?_))
  · simp only [hx, hrep, hdone, decide_eq_false (Nat.not_lt.mpr hall), Bool.true_or, Bool.not_true, Bool.or_false]
    decide
  · dsimp only
    rw [hgood, if_pos rfl, ha]
    exact if_neg (Bool.eq_false_iff.mp hstop)

end Capture

/-! ## The chunks of a reshard (R351) -/

/-- A chunk whose packets are all answered. -/
theorem reshardAck_makes {s : State} {c : CtxId} {st : BitVec 8} {lost : Bool} {w : Chunk} {q : Pkg} (hw : (s.pkg.ctx c).reshard.writing = some w)
    (hout : (s.pkg.ctx c).reshard.out = 0) (hact : (s.pkg.ctx c).reshard.active = true) (hrun : s.pkg.pkgState ≠ 5)
    (hq : (if (!lost && st != 0 && st != 1) = true then s.pkg.reshardFail c
      else if (lost || decide (st = 1) || (s.pkg.ctx c).reshard.again) = true then
        if 2 ≤ (s.pkg.ctx c).reshard.tries then s.pkg.reshardFail c
        else (s.pkg.modReshard c fun r => { r with tries := r.tries + 1 }).reshardSend c w
      else (s.pkg.reshardAcked c w).reshardAdvance c) = q) : Makes s (.reshardChunkAck c st lost) q := by
  refine makes_of rfl ?_
  dsimp only
  rw [hw]
  exact (if_neg (by simp [hout, hact, hrun])).trans hq

/-- Settles O33: a restore ends by the sources of its tensors and by the seal it finds; a capture's events pass the tests of its attempt. -/
theorem securingEvents : Obligations.SecuringEvents := by
  unfold Obligations.SecuringEvents
  refine ⟨?_, ?_⟩
  · intro s fab tensor page step e data k a p x h g pol count n tr q d addr hx
    refine ⟨fun ha hcd hst hh hw => ?copy, fun hfull hnew => ?refused, fun hroom => ⟨fun hna => ?pending, fun ha hl => ?newer⟩,
      fun hk hh => ⟨fun hna => ?stale, fun ha hst hstep hd hlen he => ?part⟩, fun ha hdone hrep hroot hall hlost hstop => ?report,
      fun hroot ho hst h8 => ?abandon⟩
    case copy =>
      intro y
      have hnone : ¬ (x.tensors.any fun t => p.devTest x.ctx (tnBuf t a.par) (tnPages t * 65536) == .waits) = true := by
        rw [Bool.not_eq_true, List.any_eq_false]
        exact fun t ht => by simpa using hw t ht
      refine makes_of rfl ?_
      dsimp only
      rw [show s.pkg.secure.attempt = some a from ha]
      refine (if_neg ?_).trans (if_neg hnone)
      rw [show s.pkg.secure.active = true from hx, hcd, hst, show s.pkg.halted = false from hh]
      decide
    case refused =>
      have hknown : ((x.replica ++ x.pendLog ++ x.newLog).any fun y => y.fab == fab.toNat && y.tensor == tensor && y.page == page) = false :=
        List.any_eq_false.mpr fun y hy => by simpa [and_assoc] using hnew y hy
      refine makes_of rfl (if_pos ?_)
      dsimp only
      rw [hknown, show s.pkg.secure.active = true from hx, decide_eq_true hfull]
      rfl
    case pending => exact journalPage_kept (later := false) hx hroom (by rw [Secure.laterThan, hna])
    case newer => exact journalPage_kept (later := true) hx hroom (by rw [Secure.laterThan, ha]; exact decide_eq_true hl)
    case stale =>
      refine makes_of rfl ((Pkg.arrive_of_reaches hk).trans ((if_neg (Bool.eq_false_iff.mp hh)).trans ?_))
      rw [Pkg.parityPart, hna]
    case part =>
      intro y
      refine makes_of rfl ((Pkg.arrive_of_reaches hk).trans ((if_neg (Bool.eq_false_iff.mp hh)).trans ?_))
      rw [Pkg.parityPart, ha]
      dsimp only
      rw [he]
      refine if_neg ?_
      change ¬ (!x.active || a.stopped || fld tr 0 48 != a.step % 2 ^ 48 || decide (scK h ≤ d) || decide (k.content.length < 8)) = true
      rw [hx, hst, hstep, bne_self_eq_false, decide_eq_false (Nat.not_le.mpr hd), decide_eq_false (Nat.not_lt.mpr hlen)]
      decide
    case report => exact captureReport_good hx ha rfl hdone hrep hroot hall hlost hstop
    case abandon =>
      intro y
      refine makes_of rfl (if_neg ?_)
      rw [show s.pkg.secure.active = true from hx, show polRoot (s.pkg.ctx s.pkg.secure.ctx).step.policy = true from hroot,
        show s.pkg.secure.capOpen = true from ho, show s.pkg.secure.stopSent = false from hst, decide_eq_false (Nat.not_lt.mpr h8)]
      decide
  · intro s c rs rec st lost w p x hosted codes report r
    refine ⟨fun hr hc hany => ?exhausted, fun hr hc hall hlen => ?sources, fun hw hout hact hst5 => ⟨fun hl h0 h1 => ?fails, fun hl => ⟨fun ht => ?third, fun ht => ?again⟩,
      fun hl h0 ha => ?acked⟩⟩
    case exhausted =>
      intro w w q
      exact restoreComplete_makes hr hc (if_pos hany)
    case sources =>
      intro a q sl bad ends
      have finish {y : Pkg} (hq) : Makes s (.restoreComplete c rs) y := restoreComplete_sources hr hc hall hlen hq
      have hends (y : Pkg) (st : Nat) (ps : List Byte) : ends y st ps = y.restoreEnds x st ps := rfl
      refine ⟨fun hbad hauth => finish (Pkg.restored_mismatch (p := q) (rec := rec) hbad hauth), ?_⟩
      intro hgo slots
      have hseal : q.sealDiffers c (q.sealOf rec) = false ∨ bit x.hdr 93 = true := hgo
      rw [hends, hends]
      exact ⟨fun hobjs => finish (Pkg.restored_applied hseal hobjs), fun hobjs => finish (Pkg.restored_noObjects hseal hobjs)⟩
    case fails => exact reshardAck_makes hw hout hact hst5 (if_pos (by rw [hl, bne_iff_ne.mpr h0, bne_iff_ne.mpr h1]; rfl))
    case third =>
      exact reshardAck_makes hw hout hact hst5 ((if_neg (by rcases hl with h | h <;> simp [h])).trans
        ((if_pos (by rcases hl with h | h <;> simp [h])).trans (if_pos ht)))
    case again =>
      exact reshardAck_makes hw hout hact hst5 ((if_neg (by rcases hl with h | h <;> simp [h])).trans
        ((if_pos (by rcases hl with h | h <;> simp [h])).trans (if_neg (Nat.not_le.mpr ht))))
    case acked =>
      have hagain : (s.pkg.ctx c).reshard.again = false := ha
      exact reshardAck_makes hw hout hact hst5 ((if_neg (by simp [hl, h0])).trans (if_neg (by simp [hl, h0, hagain])))

end Sys2Proof.Machine
end

