-- ==== Sys2Proof/Proofs/PowerEvents.lean ====
section
/-! Canaries, the cap, heat, pins and rails, and the package start (R39, R40, R468 to R479, R485): the obligation settled from what noting the
causes of items leaves, and from the tests of each event. -/

namespace Sys2Proof.Machine

/-! ## Noting the causes of items -/

/-- Noting the causes of items writes nothing but slots. -/
theorem Pkg.noteCauses_keeps {β : Type} {r : Pkg → β} (h : ∀ (p : Pkg) (j : Nat) (v : SlotS), r (p.setSlot j v) = r p) (p : Pkg) :
    r p.noteCauses = r p := by
  refine foldl_keeps (fun p j => foldl_keeps (fun p q => ?_) _ p) _ p
  dsimp only
  split
  · exact (h _ _ _).trans (h _ _ _)
  · rfl

theorem Pkg.pwr_noteCauses (p : Pkg) : p.noteCauses.pwr = p.pwr := Pkg.noteCauses_keeps (r := Pkg.pwr) (fun _ _ _ => rfl) p
theorem Pkg.dies_noteCauses (p : Pkg) : p.noteCauses.dies = p.dies := Pkg.noteCauses_keeps (r := Pkg.dies) (fun _ _ _ => rfl) p
theorem Pkg.capping_noteCauses (p : Pkg) : p.noteCauses.capping = p.capping := Pkg.noteCauses_keeps (r := Pkg.capping) (fun _ _ _ => rfl) p
theorem Pkg.throttling_noteCauses (p : Pkg) : p.noteCauses.throttling = p.throttling :=
  Pkg.noteCauses_keeps (r := Pkg.throttling) (fun _ _ _ => rfl) p
theorem Pkg.die_noteCauses (p : Pkg) (d : Nat) : p.noteCauses.die d = p.die d := Pkg.noteCauses_keeps (r := fun p => p.die d) (fun _ _ _ => rfl) p

/-! ## Canaries, cap and heat -/

section Cap
variable {s : State}

/-- R39: the slack a canary reports is its quotient or one more, whenever it fits its field. -/
theorem canaryUpdate_slack {d : DieId} (n : Fin 8) (rate : BitVec 16) (hd : s.pkg.dieUp d = true) :
    let target := tabGet 0 s.pkg.pwr.rate (canaryDomain d n)
    let sl := slackOf rate.toNat target
    ∃ slack, Makes s (.canaryUpdate d n rate) ((s.pkg.take 8).2.modDie d fun x => { x with
        canary := tabSet (canaryDflt d n) x.canary n
          (BitVec.ofNat 64 (put 0 16 rate.toNat + put 16 16 target + put 32 8 slack + put 40 7 (canaryDomain d n) + put 47 1 1)) }) ∧
      (sl.2 = true → slack = unsgn 8 sl.1 ∨ slack = unsgn 8 (sl.1 + 1)) := by
  intro target sl
  refine ⟨_, makes_of rfl ((if_neg (by simp [hd])).trans rfl), fun h => ?_⟩
  rw [if_pos h]
  split
  · exact .inr rfl
  · exact .inl (congrArg (unsgn 8) (Int.add_zero _))

/-- R474: above the cap the picked domains lose 10 mV. -/
theorem capTick_lowers {power : Nat} (ha : s.pkg.answers = true) (hc : s.pkg.capping = false) (hp : s.pkg.pwr.capW < power) :
    let q : Pkg := { s.pkg.noteCauses with pwr := { s.pkg.pwr with mean := power } }
    let q := q.capPick.foldl (fun p d => p.setVCap d (Nat.max (if d < 32 then 220 else 260) (p.vCapOf d - 4))) q
    Makes s (.capTick power) (((List.range 96).filter fun d => domKind d != 2).foldl (fun p d => p.setVCap d (Nat.min (p.vCapOf d) (p.ceilOf d))) q).noteCauses := by
  intro q
  refine makes_of rfl ((if_neg (by simp [ha])).trans ?_)
  dsimp only
  rw [Pkg.capping_noteCauses, hc, if_neg Bool.false_ne_true, Pkg.pwr_noteCauses, decide_eq_true hp, Bool.and_true, if_pos hp]

/-- R475: one reading of one sensor. -/
theorem thermalReading_one {d : DieId} {sens : Fin 16} {temp : BitVec 8} (hv : s.pkg.pwr.vauxOk = true) (ht : s.pkg.pwr.thermtrip = false)
    (hth : s.pkg.throttling = false) (hs : sens.val < sensorCount d) :
    let q := s.pkg.noteCauses.modDie d fun x => { x with junction := tabSet 0 x.junction sens.val temp.toNat }
    Makes s (.thermalReading [(d, sens, temp)]) (q.thermal d (s.pkg.die d).hottest).noteCauses := by
  intro q
  refine makes_of rfl ((if_neg (by simp [hv, ht])).trans ?_)
  dsimp only
  have hin : ([(d, sens, temp)] : List (DieId × Fin 16 × BitVec 8)).filter (fun r => decide (r.2.1.val < sensorCount r.1)) = [(d, sens, temp)] :=
    by simp [hs]
  have hdie : ([(d, sens, temp)] : List (DieId × Fin 16 × BitVec 8)).filter (fun r => r.1.val == d.val) = [(d, sens, temp)] := by simp
  rw [Pkg.throttling_noteCauses, hth, if_neg Bool.false_ne_true, hin, List.map_cons, List.map_nil, show [d.val].eraseDups = [d.val] from rfl, List.foldl_cons, List.foldl_nil,
    hdie, Pkg.die_noteCauses]
  rfl

end Cap

/-- Settles O34: each event passes the tests its rule names; noting causes leaves power and heat, and a reset of the package keeps what the
always-on domain holds. -/
theorem powerAndStart : Obligations.PowerAndStart := by
  unfold Obligations.PowerAndStart
  refine ⟨?_, ?_⟩
  · intro s d n rate power dom sens temp p cd target sl canary
    refine ⟨canaryUpdate_slack n rate, fun ha => ⟨makes_of rfl (if_neg (by simpa using ha)), capTick_lowers ha, fun hp hpick => ?exceeded⟩,
      thermalReading_one, fun hh => ?fault, fun hup => makes_of rfl (if_pos hup), fun hup hs => makes_of rfl ((if_neg ?down).trans (if_pos hs))⟩
    case exceeded => exact makes_of rfl (if_pos (by simp [p] at *; simp [*]))
    case fault =>
      intro q
      refine ⟨fun x hx => ?_, fun hx => ?_⟩ <;>
        (refine makes_of rfl ((if_neg (Bool.eq_false_iff.mp hh)).trans ?_); dsimp only; rw [hx])
    case down => exact Bool.eq_false_iff.mp hup
  · intro s ns vaux rate dies p
    refine ⟨fun hn => makes_of rfl (if_pos (by simp [hn])), fun hv hn => makes_of rfl ((if_neg ?reset).trans (if_pos hn)),
      fun hv => ⟨makes_of rfl (if_pos hv), makes_of rfl (if_neg ?armed)⟩, fun hg => ?rail, makes_of rfl rfl, makes_of rfl rfl,
      fun hv => makes_of rfl (if_neg (Bool.eq_false_iff.mp hv)), fun hg => makes_of rfl (if_neg (Bool.eq_false_iff.mp hg)),
      fun ht => makes_of rfl (if_pos ?tripped), fun hh hg hv hvin hvout ht => makes_of rfl (if_neg ?starts)⟩
    case reset =>
      rw [show s.pkg.pwr.vauxOk = true from hv, decide_eq_false (show ¬ ns < 1000 by omega)]
      decide
    case armed =>
      rw [show s.pkg.pwr.vauxOk = true from hv]
      decide
    case rail =>
      refine ⟨_, makes_of rfl ((if_neg ?_).trans rfl), ?_, rfl, rfl, rfl, ?_, ?_⟩
      · rw [show s.pkg.pwr.pwrGood = true from hg]
        decide
      · cases vaux <;> rfl
      · rintro rfl
        exact ⟨rfl, rfl, rfl⟩
      · rintro rfl
        exact ⟨rfl, rfl⟩
    case tripped => rw [show s.pkg.pwr.thermtrip = true from ht, Bool.or_true]
    case starts =>
      rw [show s.pkg.pwr.held = true from hh, show s.pkg.pwr.pwrGood = true from hg, show s.pkg.pwr.vauxOk = true from hv,
        show s.pkg.pwr.vinOut = false from hvin, show s.pkg.pwr.vauxOut = false from hvout, show s.pkg.pwr.thermtrip = false from ht]
      decide

end Sys2Proof.Machine
end

