-- ==== Sys2Proof/Proofs/BootEvents.lean ====
section
/-! The boot ROM from announcement to firmware, and the takeover of a standby (R433 to R437, R479, R485, R486): the obligation settled from
what an offer, a block and the end of the verification each pass. -/

namespace Sys2Proof.Machine

section Boot
variable {s : State}

/-! ## Offers and blocks (R433 to R435) -/

/-- An offer that the ROM takes. -/
theorem bootOffer_makes {serial : W64} {xid : BitVec 32} {server : BitVec 128} {port : BitVec 16} {il bl : BitVec 32} {q : Pkg}
    (h2 : s.pkg.bootIn 2 = true) (hh : s.pkg.bootHears = true) (ha : s.pkg.eth.announceS ≠ 1) (hs : serial.toNat = s.pkg.serial)
    (hx : xid.toNat = s.pkg.eth.xid)
    (hq :
      let p : Pkg := { s.pkg with eth := { s.pkg.eth with serverIp := server.toNat, serverPort := port.toNat } }
      (if offerBad il.toNat bl.toNat = true then p.reject 1
      else
        let f : Eth := { p.eth with bootPhase := 3, imageLen := il.toNat, bundleLen := bl.toNat, ip6 := 0, ip4 := 0, ip4Len := 0 }
        ({ p with eth := { f with asked := List.range (Nat.min 64 f.total) } } : Pkg).bootSend 3 (toLe 4 0 ++ toLe 4 (Nat.min 64 f.total))) = q) :
    Makes s (.bootOffer serial xid server port il none none bl) q :=
  makes_of rfl ((if_neg (by simp [h2, hh, ha, hs, hx])).trans hq)

/-- A block that the ROM has asked for. -/
theorem bootData_makes {serial : W64} {xid block : BitVec 32} {data : List Byte} {q : Pkg}
    (h3 : s.pkg.bootIn 3 = true) (hh : s.pkg.bootHears = true) (hs : serial.toNat = s.pkg.serial) (hx : xid.toNat = s.pkg.eth.xid)
    (ha : s.pkg.eth.asked.contains block.toNat = true) (hl : data.length = s.pkg.eth.blockLen block.toNat)
    (hq :
      let next := s.pkg.eth.blocks.length + s.pkg.eth.asked.length
      let more := decide (next < s.pkg.eth.total)
      let asked := s.pkg.eth.asked.erase block.toNat
      let p : Pkg := { s.pkg with eth := { s.pkg.eth with
        blocks := tabSet [] s.pkg.eth.blocks block.toNat data, asked := if more then asked ++ [next] else asked } }
      (if more then p.bootSend 3 (toLe 4 next ++ toLe 4 1)
        else if p.eth.asked.isEmpty then { p with eth := { p.eth with bootPhase := 4 } } else p) = q) :
    Makes s (.bootData serial xid block data) q :=
  makes_of rfl ((if_neg (by rw [h3, hh, hs, hx, ha, hl]; simp)).trans hq)

end Boot

/-- Settles O35: each message and timer of the boot passes the tests of its phase. -/
theorem bootExchange : Obligations.BootExchange := by
  unfold Obligations.BootExchange
  intro s up serial xid server port il bl block data stackTab p e on
  refine ⟨fun h => makes_of rfl (if_pos h), makes_of rfl rfl, fun hd hb => ?lockOnly, fun hd hb => ?lockBoot, fun h2 hp => ?announce,
    fun h2 hh ha hs hx => ?offer, fun h3 => ⟨fun hh hs hx ha hl => ?block, fun ha => makes_of rfl (if_pos ?again), fun ha => makes_of rfl (if_pos ?stops)⟩,
    fun h4 => ?verify, fun h5 h5' => ?sync, fun ha h5 h5' => ?syncLater, fun hs hm => makes_of rfl (if_pos ?takes)⟩
  case lockOnly =>
    refine makes_of rfl ((if_neg (by simp; exact hd)).trans (if_neg ?_))
    exact Bool.eq_false_iff.mp hb
  case lockBoot => exact makes_of rfl ((if_neg (by simp; exact hd)).trans (if_pos hb))
  case announce =>
    intro y q
    refine makes_of rfl ((if_neg ?_).trans (if_pos hp))
    rw [show s.pkg.bootIn 2 = true from h2]
    decide
  case offer =>
    intro q
    exact ⟨fun hbad => bootOffer_makes h2 hh ha hs hx (if_pos hbad), fun hgood => bootOffer_makes h2 hh ha hs hx (if_neg (Bool.eq_false_iff.mp hgood))⟩
  case block =>
    intro next asked got
    refine ⟨fun hn => bootData_makes h3 hh hs hx ha hl ?_, fun hn hask => bootData_makes h3 hh hs hx ha hl ?_,
      fun hn hask => bootData_makes h3 hh hs hx ha hl ?_⟩
    · dsimp only
      rw [decide_eq_true (show s.pkg.eth.blocks.length + s.pkg.eth.asked.length < s.pkg.eth.total from hn), if_pos rfl, if_pos rfl]
    · dsimp only
      rw [decide_eq_false (show ¬ s.pkg.eth.blocks.length + s.pkg.eth.asked.length < s.pkg.eth.total from Nat.not_lt.mpr hn),
        if_neg Bool.false_ne_true, if_neg Bool.false_ne_true]
      exact if_neg fun h => hask (List.isEmpty_iff.mp h)
    · dsimp only
      rw [decide_eq_false (show ¬ s.pkg.eth.blocks.length + s.pkg.eth.asked.length < s.pkg.eth.total from Nat.not_lt.mpr hn),
        if_neg Bool.false_ne_true, if_neg Bool.false_ne_true, show s.pkg.eth.asked.erase block.toNat = [] from hask]
      rfl
  case again => rw [show s.pkg.bootIn 3 = true from h3, show s.pkg.eth.asked.contains block.toNat = true from ha]; rfl
  case stops =>
    rw [show s.pkg.bootIn 3 = true from h3, List.isEmpty_eq_false_iff.mpr (show s.pkg.eth.asked ≠ [] from ha)]
    rfl
  case verify =>
    intro all image bundle
    have hrun : ¬ (!p.bootIn 4) = true := by rw [h4]; decide
    refine ⟨fun hb => makes_of rfl ((if_neg hrun).trans (if_pos (by rw [Bool.not_eq_true']; exact hb))), fun hb => ?_⟩
    have hbundle : ¬ (!p.bundleOk bundle) = true := by rw [hb]; decide
    refine ⟨fun hi => makes_of rfl ((if_neg hrun).trans ((if_neg hbundle).trans (if_pos (bne_iff_ne.mpr hi)))), fun hi => ?_⟩
    have himage : ¬ (imageReject image e.imageLen != 0) = true := by rw [hi]; decide
    refine ⟨fun hp => ?_, fun n hp => ?_⟩
    · refine makes_of rfl ((if_neg hrun).trans ((if_neg hbundle).trans ((if_neg himage).trans ?_)))
      rw [show s.pkg.pairing _ = none from hp]
    · refine makes_of rfl ((if_neg hrun).trans ((if_neg hbundle).trans ((if_neg himage).trans ?_)))
      rw [show s.pkg.pairing _ = some n from hp]
  case sync =>
    refine makes_of rfl ((if_neg ?_).trans (if_pos h5'))
    rw [show s.pkg.bootIn 5 = true from h5, Bool.or_true]
    decide
  case syncLater =>
    refine makes_of rfl ((if_neg ?_).trans (if_neg (Bool.eq_false_iff.mp h5')))
    rw [show s.pkg.answers = true from ha, Bool.true_or]
    decide
  case takes => rw [show s.pkg.standby = true from hs, decide_eq_true (show 3 ≤ s.pkg.pwr.missed from hm)]; rfl

end Sys2Proof.Machine
end

