-- ==== Sys2Proof/Proofs/RoceEvents.lean ====
section
/-! RoCE packets of a queue pair (R428, R430, R459): the obligation settled from where a request's PSN stands and from what an
acknowledgement leaves. -/

namespace Sys2Proof.Machine

@[simp] theorem Pkg.qp_setQp (p : Pkg) (n : Nat) (q : Qp) : (p.setQp n q).qp n = q := tabGet_tabSet_same _ _ _ _

/-! ## Requests -/

section RequestIn
variable {p : Pkg} {n psn : Nat} {fresh again : Pkg → Pkg} (hr : p.qpReady n = true)
include hr

theorem Pkg.roceIn_fresh (h : psn = (p.qp n).rqPsn) : p.roceIn n psn fresh again = fresh (p.setQp n { p.qp n with nakSent := false }) :=
  (if_neg (by simp [hr])).trans (if_pos h)

variable (hne : psn ≠ (p.qp n).rqPsn)
include hne

theorem Pkg.roceIn_repeat (hle : psnLe psn (p.qp n).rqPsn = true) : p.roceIn n psn fresh again = again p :=
  (if_neg (by simp [hr])).trans ((if_neg hne).trans (if_pos hle))

variable (hgap : psnLe psn (p.qp n).rqPsn = false)
include hgap

theorem Pkg.roceIn_gap (hs : (p.qp n).nakSent = false) :
    p.roceIn n psn fresh again = (p.setQp n { p.qp n with nakSent := true }).roceOut n 3 (p.qp n).rqPsn [0] :=
  (if_neg (by simp [hr])).trans ((if_neg hne).trans ((if_neg (by simp [hgap])).trans (if_neg (by simp [hs]))))

theorem Pkg.roceIn_gapAnswered (hs : (p.qp n).nakSent = true) : p.roceIn n psn fresh again = p :=
  (if_neg (by simp [hr])).trans ((if_neg hne).trans ((if_neg (by simp [hgap])).trans (if_pos hs)))

end RequestIn

/-- A packet without a congestion mark is not answered for it. -/
theorem Pkg.congestion_unmarked (p : Pkg) (n : Nat) : p.congestion n false = p := by
  rw [Pkg.congestion]
  exact if_neg (by simp)

/-- What a SEND and a WRITE of an unexpected PSN have in common. -/
theorem roce_unexpected {s : State} {n : Nat} {psn : BitVec 24} {data : List Byte} {key : BitVec 32} {addr : BitVec 48} {x : Instr} {q : Pkg}
    (hx : x ∈ [Instr.roceSendReceive n psn data, .roceWriteReceive n psn key addr data false])
    (hq : ∀ fresh, s.pkg.roceIn n psn.toNat fresh (fun p => p.roceOut n 2 psn.toNat []) = q) : Makes s x q := by
  simp only [List.mem_cons, List.not_mem_nil, or_false] at hx
  rcases hx with rfl | rfl
  · exact makes_of rfl (hq _)
  · refine makes_of rfl ?_
    dsimp only
    rw [Pkg.congestion_unmarked]
    exact hq _

/-- What the receiver of a SEND makes of its bytes, by the slot of the queue pair. -/
def Pkg.roceHead (p : Pkg) (n psn : Nat) (data : List Byte) : Option Nat → Pkg
  | none => p.roceOut n 4 psn []
  | some j =>
    if data.length != 48 then (p.roceOut n 3 psn [1]).qpError n
    else
      let p := (p.roceNext n 1).roceOut n 2 psn []
      if p.hostFed j then p.hostHead j (leNat data) else p

section Expected
variable {s : State} {n : Nat} {psn : BitVec 24} (hr : s.pkg.qpReady n = true) (hpsn : psn.toNat = (s.pkg.qp n).rqPsn)
include hr hpsn

theorem roceSend_makes {data : List Byte} :
    Makes s (.roceSendReceive n psn data)
      ((s.pkg.setQp n { s.pkg.qp n with nakSent := false }).roceHead n psn.toNat data (s.pkg.qp n).slot) := by
  refine makes_of rfl ((Pkg.roceIn_fresh hr hpsn).trans ?_)
  dsimp only
  rw [Pkg.qp_setQp]
  dsimp only
  generalize (s.pkg.qp n).slot = found
  cases found <;> rfl

/-- A WRITE that fits its packet goes by its key and its memory. -/
theorem roceWrite_makes {data : List Byte} {key : BitVec 32} {addr : BitVec 48} {q : Pkg} (hmtu : data.length ≤ (s.pkg.qp n).mtu) (hd : data ≠ [])
    (hq :
      let p := s.pkg.setQp n { s.pkg.qp n with nakSent := false }
      let a := addr.toNat
      (if (!p.keyAllows key.toNat a data.length 0) = true then p.roceOut n 3 psn.toNat [2]
        else match p.memReady a data.length with
          | .waits => p
          | .ok => ((p.roceNext n 1).roceOut n 2 psn.toNat []).hostStore n a data
          | _ => p.roceOut n 3 psn.toNat [3]) = q) : Makes s (.roceWriteReceive n psn key addr data false) q := by
  have hsome : ¬ data.isEmpty = true := fun h => hd (List.isEmpty_iff.mp h)
  refine makes_of rfl ?_
  dsimp only
  rw [Pkg.congestion_unmarked, Pkg.roceIn_fresh hr hpsn, Pkg.qp_setQp, if_neg (Nat.not_lt.mpr hmtu), if_neg hsome]
  exact hq

theorem roceRead_makes {key : BitVec 32} {addr : BitVec 48} {len : Nat} {q : Pkg} (hl : len ≠ 0)
    (hq :
      let p := s.pkg.setQp n { s.pkg.qp n with nakSent := false }
      let a := addr.toNat
      let mtu := (s.pkg.qp n).mtu
      let m := Nat.max 1 (ceilDiv len mtu)
      (if (!p.keyAllows key.toNat a len 1) = true then p.roceOut n 3 psn.toNat [2]
        else match p.memReady a len with
          | .waits => p
          | .ok => (List.range m).foldl (fun y i => y.roceOut n 1 (psn.toNat + i) (((p.load a len).drop (mtu * i)).take mtu))
              ((p.devTouch a len false 0).roceNext n m)
          | _ => p.roceOut n 3 psn.toNat [3]) = q) : Makes s (.roceReadReceive n psn key addr len) q := by
  refine makes_of rfl ((Pkg.roceIn_fresh hr hpsn).trans ?_)
  dsimp only
  rw [Pkg.qp_setQp, if_neg hl]
  exact hq

end Expected

/-! ## Acknowledgements -/

theorem Pkg.roceRetry_setQp (p : Pkg) (n : Nat) (q : Qp) :
    (p.setQp n q).roceRetry n =
      if 7 ≤ q.retries then (p.setQp n q).qpError n else ((p.setQp n q).setQp n { q with retries := q.retries + 1 }).roceResend n := by
  rw [Pkg.roceRetry, Pkg.qp_setQp]

/-- Settles O37: a request goes by its PSN, and the expected one by its slot, key and memory; an acknowledgement by its kind. -/
theorem rocePackets : Obligations.RocePackets := by
  unfold Obligations.RocePackets
  refine ⟨?_, ?_⟩
  · intro s n psn data key addr len p y q a nak hr
    refine ⟨fun x hx hne => ⟨fun hle => ?_, fun hle hs => ?_, fun hle hs => ?_⟩, fun hpsn => ⟨fun hslot => ?noSlot, fun j hslot hlen => ?head, fun hmtu hd => ?write, fun hl => ?read⟩⟩
    · exact roce_unexpected hx fun _ => Pkg.roceIn_repeat hr hne hle
    · exact roce_unexpected hx fun _ => Pkg.roceIn_gap hr hne hle hs
    · exact roce_unexpected hx fun _ => Pkg.roceIn_gapAnswered hr hne hle hs
    case noSlot =>
      have h := roceSend_makes hr hpsn (data := data)
      rwa [show (s.pkg.qp n).slot = none from hslot] at h
    case head =>
      intro r
      have hwhole : ¬ (data.length != 48) = true := by rw [hlen]; decide
      have h := roceSend_makes hr hpsn (data := data)
      rw [show (s.pkg.qp n).slot = some j from hslot] at h
      exact (if_neg hwhole : Pkg.roceHead q n psn.toNat data (some j) = _) ▸ h
    case write =>
      refine ⟨fun hk => roceWrite_makes hr hpsn hmtu hd (if_pos (congrArg Bool.not hk)), fun hk => ?_⟩
      have hallow : ¬ (!q.keyAllows key.toNat a data.length 0) = true := by rw [hk]; decide
      refine ⟨fun hm => roceWrite_makes hr hpsn hmtu hd ((if_neg hallow).trans ?_), fun hm => roceWrite_makes hr hpsn hmtu hd ((if_neg hallow).trans ?_),
        fun hm => roceWrite_makes hr hpsn hmtu hd ((if_neg hallow).trans ?_)⟩
      · rw [show Pkg.memReady _ _ _ = _ from hm]
      · rw [show Pkg.memReady _ _ _ = _ from hm]
      · rw [show Pkg.memReady _ _ _ = _ from hm]
        rfl
    case read =>
      refine ⟨fun hk => roceRead_makes hr hpsn hl (if_pos (congrArg Bool.not hk)), ?_⟩
      intro hk hm m
      have hallow : ¬ (!q.keyAllows key.toNat a len 1) = true := by rw [hk]; decide
      refine roceRead_makes hr hpsn hl ((if_neg hallow).trans ?_)
      rw [show Pkg.memReady _ _ _ = _ from hm]
  · intro s n psn ce p y left z again hr
    have hrun : ¬ (!p.qpReady n) = true := by rw [hr]; decide
    have hretry (r : Pkg) (v : Qp) (hv : r.qp n = v) : r.roceRetry n = again r v := by rw [Pkg.roceRetry, hv]
    refine ⟨fun h => makes_of rfl ((if_neg hrun).trans (if_pos h)), fun h => ?_, fun h => ?_, fun h => ?_, fun hu hw => ?_,
      fun hw => makes_of rfl (if_pos ?_), makes_of rfl (if_neg hrun), makes_of rfl (if_pos hr)⟩
    · refine makes_of rfl ((if_neg hrun).trans ((if_neg (by rw [h]; decide)).trans ((if_pos h).trans ?_)))
      exact hretry _ z (Pkg.qp_setQp _ _ _)
    · exact makes_of rfl ((if_neg hrun).trans ((if_neg (by rw [h]; decide)).trans ((if_neg (by rw [h]; decide)).trans (if_pos h))))
    · exact makes_of rfl ((if_neg hrun).trans ((if_neg (by rw [h]; decide)).trans ((if_neg (by rw [h]; decide)).trans (if_neg (by rw [h]; decide)))))
    · refine makes_of rfl ((if_pos ?_).trans (hretry p y rfl))
      rw [hr, List.isEmpty_eq_false_iff.mpr hu, hw]
      rfl
    · rw [hr, show (s.pkg.qp n).rnrWait = true from hw]
      rfl

end Sys2Proof.Machine
end

