-- ==== Sys2Proof/Proofs/TestAccess.lean ====
section
/-! The test access port (R509, R517 to R520, R523): the obligation settled from what selecting an instruction leaves, and from the cells that a shift
writes. -/

namespace Sys2Proof.Machine

/-! ## Selecting an instruction -/

/-- The package whose test access port holds the instruction `n`. -/
def Pkg.withInst (p : Pkg) (n : Nat) : Pkg := { p with tap := { p.tap with inst := n } }

section Select
variable {p : Pkg} {n : Nat} {pins : Bool}

theorem Pkg.tapSelect_off (h : p.pwr.vauxOk = false) : p.tapSelect n pins = p := if_pos (congrArg Bool.not h)

variable (h : p.pwr.vauxOk = true)
include h

theorem Pkg.tapSelect_legal (hn : n ≠ 0xFF) (hl : pins = false ∨ p.pwr.pwrGood = true ∧ p.pwr.resetLow = true) : p.tapSelect n pins = p.withInst n := by
  have hlegal : ¬ (pins && !(p.pwr.pwrGood && p.pwr.resetLow)) = true := by
    rcases hl with rfl | ⟨hg, hr⟩
    · exact Bool.false_ne_true
    · rw [hg, hr]
      cases pins <;> decide
  refine (if_neg (by rw [h]; decide)).trans ?_
  rw [if_neg hlegal]
  exact if_neg hn

theorem Pkg.tapSelect_illegal (hpins : p.pwr.pwrGood = false ∨ p.pwr.resetLow = false) :
    p.tapSelect n true = (p.withInst 0xFF).emit (.tdo [false]) := by
  have hillegal : (true && !(p.pwr.pwrGood && p.pwr.resetLow)) = true := by
    rcases hpins with hg | hr
    · rw [hg]; rfl
    · rw [hr, Bool.and_false]; rfl
  refine (if_neg (by rw [h]; decide)).trans ?_
  rw [if_pos hillegal]
  exact if_pos rfl

theorem Pkg.tapSelect_bypass : p.tapSelect 0xFF false = (p.withInst 0xFF).emit (.tdo [false]) := by
  refine (if_neg (by rw [h]; decide)).trans ?_
  rw [ite_self]
  exact if_pos rfl

end Select

/-! ## The boundary cells -/

/-- Shifting values in from cell `k` on sets consecutive entries. -/
theorem foldl_tabSet_zipIdx (l : List Bool) (t : Tab Bool) (k : Nat) :
    (l.zipIdx k).foldl (fun t c => tabSet false t c.2 c.1) t = tabSets false t k l := by
  induction l generalizing t k with
  | nil => rfl
  | cons v vs ih => exact ih _ _

/-- The boundary cells after values are shifted in from cell 0 on. -/
def Tap.shifted (t : Tap) (cells : List Bool) : Tab Bool := ((cells.take tapCells).zipIdx).foldl (fun t c => tabSet false t c.2 c.1) t.cells

theorem Tap.shifted_eq (t : Tap) {cells : List Bool} (h : cells.length ≤ tapCells) : t.shifted cells = tabSets false t.cells 0 cells := by
  rw [Tap.shifted, List.take_of_length_le h, foldl_tabSet_zipIdx]

/-- Consecutive entries set from key `k` on leave the keys beside them. -/
theorem tabGet_tabSets_beside (l : List Bool) (t : Tab Bool) (k i : Nat) (hi : i < k ∨ k + l.length ≤ i) :
    tabGet false (tabSets false t k l) i = tabGet false t i := by
  induction l generalizing t k with
  | nil => rfl
  | cons v vs ih =>
    rw [List.length_cons] at hi
    rw [tabSets, ih _ _ (by omega), tabGet_tabSet_ne _ _ _ _ _ (by omega)]

/-- Consecutive entries set from key `k` on are read back. -/
theorem tabGet_tabSets_within (l : List Bool) (t : Tab Bool) (k i : Nat) (hi : i < l.length) :
    tabGet false (tabSets false t k l) (k + i) = l.getD i false := by
  induction l generalizing t k i with
  | nil => exact absurd hi (Nat.not_lt_zero i)
  | cons v vs ih =>
    cases i with
    | zero => rw [tabSets, tabGet_tabSets_beside _ _ _ _ (Or.inl (by omega)), Nat.add_zero, tabGet_tabSet_same, List.getD_cons_zero]
    | succ i => rw [tabSets, Nat.add_comm i, ← Nat.add_assoc, ih _ _ _ (by simpa using hi), Nat.add_comm 1, List.getD_cons_succ]

/-! ## The lands -/

/-- The level of land `i` as SAMPLE/PRELOAD shifts it out; those of the lanes, clocks and straps are the bits of `x`. -/
def Pkg.landLevel (p : Pkg) (x i : Nat) : Bool :=
  if i = 597 then p.pwr.pwrGood else if i = 598 then !p.pwr.resetLow else if i = 600 then !p.pwr.thermtrip
  else if i = 601 then !p.alert else bit x i

/-- The lands in the order of the cells. -/
def Pkg.landLevels (p : Pkg) (x : Nat) : List Bool := (List.range tapCells).map (p.landLevel x)

theorem Pkg.length_landLevels (p : Pkg) (x : Nat) : (p.landLevels x).length = tapCells := by rw [Pkg.landLevels, List.length_map, List.length_range]

theorem Pkg.getD_landLevels (p : Pkg) (x : Nat) {i : Nat} (hi : i < tapCells) : (p.landLevels x).getD i false = p.landLevel x i := by
  have hin : i < (p.landLevels x).length := (p.length_landLevels x).symm ▸ hi
  rw [listGetD_of_lt _ hin]
  simp only [Pkg.landLevels, List.getElem_map, List.getElem_range]

/-- What SAMPLE/PRELOAD makes of a package whose port has selected it. -/
def Pkg.samplePreload (p : Pkg) (cells : List Bool) : Pkg :=
  let (x, p) := p.take tapCells
  let p := p.emit (.tdo (p.landLevels x))
  { p with tap := { p.tap with cells := p.tap.shifted cells } }

theorem samplePreload_makes {s : State} (h : s.pkg.pwr.vauxOk = true) (cells : List Bool) :
    Makes s (.jtagSamplePreload cells) ((s.pkg.withInst 2).samplePreload cells) := by
  refine makes_of rfl ((if_neg (by rw [h]; decide)).trans ?_)
  rw [Pkg.tapSelect_legal h (by decide) (Or.inl rfl)]
  rfl

/-- An instruction of the pins is selected with PWR_GOOD high and RESET_N low, and is BYPASS otherwise. -/
theorem pinsSelect_makes {s : State} (h : s.pkg.pwr.vauxOk = true) {x : Instr} {n : Nat}
    (hx : exec x s = .next { s with pkg := s.pkg.tapSelect n true }) (hn : n ≠ 0xFF) :
    (s.pkg.pwr.pwrGood = true → s.pkg.pwr.resetLow = true → Makes s x (s.pkg.withInst n)) ∧
    (s.pkg.pwr.pwrGood = false ∨ s.pkg.pwr.resetLow = false → Makes s x ((s.pkg.withInst 0xFF).emit (.tdo [false]))) :=
  ⟨fun hg hr => makes_of hx (Pkg.tapSelect_legal h hn (Or.inr ⟨hg, hr⟩)), fun hpins => makes_of hx (Pkg.tapSelect_illegal h hpins)⟩

/-- Settles O38: an input acts as its instruction is selected, and SAMPLE/PRELOAD reads the lands and writes the cells shifted in. -/
theorem testAccess : Obligations.TestAccess := by
  unfold Obligations.TestAccess
  intro s cells p sel
  refine ⟨fun h => ⟨?_, fun hc => ?_, ?_, makes_of rfl (Pkg.tapSelect_bypass h), makes_of rfl (if_pos h)⟩, fun h => ?_⟩
  · refine makes_of rfl ((if_pos h).trans ?_)
    rw [Pkg.tapSelect_legal h (by decide) (Or.inl rfl)]
    rfl
  · have hcells : ((p.withInst 2).samplePreload cells).tap.cells = tabSets false p.tap.cells 0 cells := Tap.shifted_eq _ hc
    refine ⟨_, samplePreload_makes h cells, rfl, rfl, fun i hi => ?_, fun i hi => ?_, ((p.withInst 2).take tapCells).2.landLevels _, rfl,
      Pkg.length_landLevels _ _, Pkg.getD_landLevels _ _ (by decide), Pkg.getD_landLevels _ _ (by decide), Pkg.getD_landLevels _ _ (by decide)⟩
    · rw [hcells, ← tabGet_tabSets_within cells p.tap.cells 0 i hi, Nat.zero_add]
    · rw [hcells, tabGet_tabSets_beside _ _ _ _ (Or.inr (by omega))]
  · simp only [List.forall_mem_cons, List.not_mem_nil, false_implies, implies_true, and_true]
    exact ⟨pinsSelect_makes h rfl (by decide), pinsSelect_makes h rfl (by decide), pinsSelect_makes h rfl (by decide), pinsSelect_makes h rfl (by decide),
      pinsSelect_makes h rfl (by decide)⟩
  · have hoff : ¬ s.pkg.pwr.vauxOk = true := Bool.eq_false_iff.mp h
    simp only [List.forall_mem_cons, List.not_mem_nil, false_implies, implies_true, and_true]
    exact ⟨makes_of rfl (if_neg hoff), makes_of rfl (if_pos (congrArg Bool.not h)), makes_of rfl (Pkg.tapSelect_off h), makes_of rfl (Pkg.tapSelect_off h),
      makes_of rfl (Pkg.tapSelect_off h), makes_of rfl (Pkg.tapSelect_off h), makes_of rfl (Pkg.tapSelect_off h), makes_of rfl (Pkg.tapSelect_off h),
      makes_of rfl (if_neg hoff)⟩

end Sys2Proof.Machine
end

