-- ==== Sys2Proof/Proofs/CanonicalState.lean ====
section
/-! What the memory keeps (R282, R286): the canonical form as a property of packages and of answers, and the operations on the state, its engines and
its lines that keep it. Every function of the model that yields a package has one rule here, named after it; its proof follows the body: `ite` for a
test, `foldl` for a loop, the rule of the function called, and a named fact for each package that the body names. -/

namespace Sys2Proof.Machine

/-- The memory of the package is in canonical form. -/
def Pkg.Canonical (p : Pkg) : Prop := Memory.wf p.mem = true
/-- What an instruction answers leaves memory in canonical form. -/
def IRes.Canonical : IRes → Prop
  | .ok p | .jump p _ | .again p _ | .wait p _ | .yield p | .stop p => p.Canonical
  | .fault _ => True
/-- What a command answers leaves memory in canonical form. -/
def Ans.Canonical : Ans → Prop
  | .ok p _ | .wait p => p.Canonical
  | .no _ _ => True
/-- A command that goes on leaves memory in canonical form. -/
def Leaves (o : Host.Outcome State Fault Refusal) : Prop := ∀ t, o = .next t → t.pkg.Canonical

variable {p q : Pkg} {s : State}

/-- What has the same memory is as canonical. -/
theorem Pkg.Canonical.same (h : p.Canonical) (hq : q.mem = p.mem) : q.Canonical := by rwa [Pkg.Canonical, hq]
theorem Pkg.Canonical.ite {c : Prop} {_ : Decidable c} (hp : p.Canonical) (hq : q.Canonical) : (if c then p else q).Canonical := by
  split <;> assumption
theorem IRes.Canonical.ite {c : Prop} {_ : Decidable c} {p q : IRes} (hp : p.Canonical) (hq : q.Canonical) : (if c then p else q).Canonical := by
  split <;> assumption
theorem Ans.Canonical.ite {c : Prop} {_ : Decidable c} {p q : Ans} (hp : p.Canonical) (hq : q.Canonical) : (if c then p else q).Canonical := by
  split <;> assumption
theorem Pkg.Canonical.foldl {α : Type} {f : Pkg → α → Pkg} {l : List α} (hf : ∀ p x, p.Canonical → (f p x).Canonical) (h : p.Canonical) :
    (l.foldl f p).Canonical := by
  induction l generalizing p with
  | nil => exact h
  | cons x l ih => exact ih (hf _ _ h)
/-- A fold over something that holds a package. -/
theorem Pkg.Canonical.foldl_of {α β : Type} (view : β → Pkg) {f : β → α → β} {l : List α} {b : β}
    (hf : ∀ b x, (view b).Canonical → (view (f b x)).Canonical) (h : (view b).Canonical) : (view (l.foldl f b)).Canonical := by
  induction l generalizing b with
  | nil => exact h
  | cons x l ih => exact ih (hf _ _ h)
theorem Pkg.Canonical.of_eq {α : Type} {r : α × Pkg} {x : α} (hr : r = (x, q)) (h : r.2.Canonical) : q.Canonical := by
  subst hr
  exact h
theorem Pkg.Canonical.of_eq_snd {α β : Type} {r : α × β × Pkg} {x : α} {y : β} (hr : r = (x, y, q)) (h : r.2.2.Canonical) : q.Canonical := by
  subst hr
  exact h
theorem Pkg.Canonical.of_eq_fst {α : Type} {r : Pkg × α} {x : α} (hr : r = (q, x)) (h : r.1.Canonical) : q.Canonical := by
  subst hr
  exact h
theorem IRes.Canonical.ok (h : p.Canonical) : (IRes.ok p).Canonical := h
theorem IRes.Canonical.jump {pc} (h : p.Canonical) : (IRes.jump p pc).Canonical := h
theorem IRes.Canonical.again {w} (h : p.Canonical) : (IRes.again p w).Canonical := h
theorem IRes.Canonical.wait {w} (h : p.Canonical) : (IRes.wait p w).Canonical := h
theorem IRes.Canonical.yield (h : p.Canonical) : (IRes.yield p).Canonical := h
theorem IRes.Canonical.stop (h : p.Canonical) : (IRes.stop p).Canonical := h
theorem IRes.Canonical.fault {c} : (IRes.fault c).Canonical := trivial
theorem Ans.Canonical.ok {l} (h : p.Canonical) : (Ans.ok p l).Canonical := h
theorem Ans.Canonical.wait (h : p.Canonical) : (Ans.wait p).Canonical := h
theorem Ans.Canonical.no {c l} : (Ans.no c l).Canonical := trivial
theorem Leaves.of_run {f : Pkg → Pkg} (hf : (f s.pkg).Canonical) : Leaves (s.run f) := by
  intro t ht
  cases ht
  exact hf
theorem Leaves.next (h : s.pkg.Canonical) : Leaves (.next s) := by
  intro t ht
  cases ht
  exact h
theorem Leaves.skip (h : s.pkg.Canonical) : Leaves s.skip := .next h
theorem Leaves.ite {c : Prop} {_ : Decidable c} {a b : Host.Outcome State Fault Refusal} (ha : Leaves a) (hb : Leaves b) :
    Leaves (if c then a else b) := by
  split <;> assumption

/-! ## Operations on the state -/

theorem Pkg.Canonical.setThr {k v} (h : p.Canonical) : (p.setThr k v).Canonical := h.same rfl
theorem Pkg.Canonical.modThr {k f} (h : p.Canonical) : (p.modThr k f).Canonical := .setThr h
theorem Pkg.Canonical.setCore {k v} (h : p.Canonical) : (p.setCore k v).Canonical := h.same rfl
theorem Pkg.Canonical.modCore {k f} (h : p.Canonical) : (p.modCore k f).Canonical := .setCore h
theorem Pkg.Canonical.setSlot {k v} (h : p.Canonical) : (p.setSlot k v).Canonical := h.same rfl
theorem Pkg.Canonical.modSlot {k f} (h : p.Canonical) : (p.modSlot k f).Canonical := .setSlot h
theorem Pkg.Canonical.setSync {k v} (h : p.Canonical) : (p.setSync k v).Canonical := h.same rfl
theorem Pkg.Canonical.modSync {k f} (h : p.Canonical) : (p.modSync k f).Canonical := .setSync h
theorem Pkg.Canonical.setSumpEng {k v} (h : p.Canonical) : (p.setSumpEng k v).Canonical := h.same rfl
theorem Pkg.Canonical.modSumpEng {k f} (h : p.Canonical) : (p.modSumpEng k f).Canonical := .setSumpEng h
theorem Pkg.Canonical.setPort {k v} (h : p.Canonical) : (p.setPort k v).Canonical := h.same rfl
theorem Pkg.Canonical.modPort {k f} (h : p.Canonical) : (p.modPort k f).Canonical := .setPort h
theorem Pkg.Canonical.setDie {k v} (h : p.Canonical) : (p.setDie k v).Canonical := h.same rfl
theorem Pkg.Canonical.modDie {k f} (h : p.Canonical) : (p.modDie k f).Canonical := .setDie h
theorem Pkg.Canonical.setStack {k v} (h : p.Canonical) : (p.setStack k v).Canonical := h.same rfl
theorem Pkg.Canonical.modStack {k f} (h : p.Canonical) : (p.modStack k f).Canonical := .setStack h
theorem Pkg.Canonical.setMemDie {k v} (h : p.Canonical) : (p.setMemDie k v).Canonical := h.same rfl
theorem Pkg.Canonical.modMemDie {k f} (h : p.Canonical) : (p.modMemDie k f).Canonical := .setMemDie h
theorem Pkg.Canonical.setCtx {k v} (h : p.Canonical) : (p.setCtx k v).Canonical := h.same rfl
theorem Pkg.Canonical.modCtx {k f} (h : p.Canonical) : (p.modCtx k f).Canonical := .setCtx h
theorem Pkg.Canonical.setSession {k v} (h : p.Canonical) : (p.setSession k v).Canonical := h.same rfl
theorem Pkg.Canonical.setDlWin {k v} (h : p.Canonical) : (p.setDlWin k v).Canonical := h.same rfl
theorem Pkg.Canonical.modDlWin {k f} (h : p.Canonical) : (p.modDlWin k f).Canonical := .setDlWin h
theorem Pkg.Canonical.take {w} (h : p.Canonical) : (p.take w).2.Canonical := h.same rfl
theorem Pkg.Canonical.addCtr {c inst n} (h : p.Canonical) : (p.addCtr c inst n).Canonical := h.same rfl
theorem Pkg.Canonical.bump {c inst} (h : p.Canonical) : (p.bump c inst).Canonical := .addCtr h
theorem Pkg.Canonical.addFree {c inst} (h : p.Canonical) : (p.addFree c inst).Canonical := .addCtr (.take h)
theorem Pkg.Canonical.setFlag {r inst b} (h : p.Canonical) : (p.setFlag r inst b).Canonical := h.same rfl
theorem Pkg.Canonical.clearFlags {r inst v} (h : p.Canonical) : (p.clearFlags r inst v).Canonical := h.same rfl

theorem Pkg.Canonical.raise {e die ctx obj data} (h : p.Canonical) : (p.raise e die ctx obj data).Canonical :=
  .ite (.setFlag (.bump (h.same rfl))) (h.same rfl)

theorem Pkg.Canonical.raiseHb {e die obj data} (h : p.Canonical) : (p.raiseHb e die obj data).Canonical := .raise (.raise h)
theorem Pkg.Canonical.setDirty {pg v} (h : p.Canonical) : (p.setDirty pg v).Canonical := h.same rfl
theorem Pkg.Canonical.setPoison {l v} (h : p.Canonical) : (p.setPoison l v).Canonical := h.same rfl
theorem Pkg.Canonical.setUndef {l v} (h : p.Canonical) : (p.setUndef l v).Canonical := h.same rfl
theorem Pkg.Canonical.markPage {pg} (h : p.Canonical) : (p.markPage pg).Canonical := .ite (.setDirty h) (.modMemDie (.setDirty h))
theorem Pkg.Canonical.markLine {l} (h : p.Canonical) : (p.markLine l).Canonical := .modMemDie h
theorem Pkg.Canonical.defineLine {l} (h : p.Canonical) : (p.defineLine l).Canonical := Pkg.defineLine_wf _ _ h
theorem Pkg.Canonical.store {a bs} (h : p.Canonical) : (p.store a bs).Canonical := Pkg.store_wf _ _ _ h
theorem Pkg.Canonical.lastUse {hint a n} (h : p.Canonical) : (p.lastUse hint a n).Canonical := h.same (Pkg.lastUse_mem _ _ _ _)
theorem Pkg.Canonical.spStore {g off bs} (h : p.Canonical) : (p.spStore g off bs).Canonical := .store h
theorem Pkg.Canonical.spFree {g off n} (h : p.Canonical) : (p.spFree g off n).Canonical := Pkg.spFree_wf _ _ _ _ h

theorem Pkg.Canonical.spRead {g off n} (h : p.Canonical) : (p.spRead g off n).Canonical :=
  .ite h (.ite (h.same rfl) (.setFlag (.addCtr (h.same rfl))))

theorem Pkg.Canonical.spReads {g rs} (h : p.Canonical) : (p.spReads g rs).Canonical := .foldl (fun _ _ h1 => .spRead h1) h
theorem Pkg.Canonical.emit {o} (h : p.Canonical) : (p.emit o).Canonical := h.same rfl

theorem Pkg.Canonical.leave {prio o} (h : p.Canonical) : (p.leave prio o).Canonical := by
  unfold Pkg.leave
  split
  · exact .emit (.emit h)
  · exact .emit h

theorem Pkg.Canonical.ethSend {prio o} (h : p.Canonical) : (p.ethSend prio o).Canonical := by
  unfold Pkg.ethSend
  refine .ite h ?_
  split
  · exact .leave h
  · exact .ite (h.same rfl) (.leave h)

theorem Pkg.Canonical.send {k} (h : p.Canonical) : (p.send k).2.Canonical := by
  unfold Pkg.send
  extract_lets _ _
  exact h.same rfl

theorem Pkg.Canonical.answer {req kind kspec content} (h : p.Canonical) : (p.answer req kind kspec content).Canonical := .emit h

theorem Pkg.Canonical.request {k who} (h : p.Canonical) : (p.request k who).2.Canonical := by
  unfold Pkg.request
  split
  next _ q e =>
    have hq : q.Canonical := .of_eq e (.send h)
    exact hq.same rfl

theorem Pkg.Canonical.dropReqs {f} (h : p.Canonical) : (p.dropReqs f).Canonical := h.same rfl
theorem Pkg.Canonical.endReq {t} (h : p.Canonical) : (p.endReq t).Canonical := h.same rfl
theorem Pkg.Canonical.modXing {d i f} (h : p.Canonical) : (p.modXing d i f).Canonical := .modDie h
theorem Pkg.Canonical.openXing {d i} (h : p.Canonical) : (p.openXing d i).Canonical := .modXing h

theorem Pkg.Canonical.readXing {d} (h : p.Canonical) : (p.readXing d).Canonical := by
  unfold Pkg.readXing
  split
  next _ q e =>
    have hq : q.Canonical := .of_eq e (.take h)
    exact .addCtr hq

/-! ## Routes -/

theorem Pkg.Canonical.routesFix (h : p.Canonical) : (p.routesFix).Canonical := h.same rfl
theorem Pkg.Canonical.routesBuild (h : p.Canonical) : (p.routesBuild).Canonical := h.same rfl

/-! ## Endpoints and connections -/

theorem Pkg.Canonical.setEp {g e v} (h : p.Canonical) : (p.setEp g e v).Canonical := .modCore h
theorem Pkg.Canonical.setConn {g n v} (h : p.Canonical) : (p.setConn g n v).Canonical := .modCore h
theorem Pkg.Canonical.ringPut {e i ws} (h : p.Canonical) : (p.ringPut e i ws).Canonical := .foldl (fun _ _ h1 => .store h1) h

theorem Pkg.Canonical.epGrants {g e quiet} (h : p.Canonical) : (p.epGrants g e quiet).Canonical := by
  unfold Pkg.epGrants
  extract_lets _ _ _ _ _ _ q1 q2
  have hq1 : q1.Canonical := .setEp h
  have hq2 : q2.Canonical := .ite (.raise hq1) hq1
  refine .ite h (.foldl ?_ hq2)
  intro q3 _ h1
  split
  · exact .ite (.send h1) h1

theorem Pkg.Canonical.ringMove {g e} (h : p.Canonical) : (p.ringMove g e).Canonical := .addCtr (.setEp (.ringPut h))

theorem Pkg.Canonical.closeEp {g e} (h : p.Canonical) : (p.closeEp g e).Canonical :=
  .ite h (.setEp (.foldl (fun _ _ h1 => .answer h1) (.foldl (fun _ _ h2 => .send h2) h)))

theorem Pkg.Canonical.epTake {g e n} (h : p.Canonical) : (p.epTake g e n).Canonical := .setEp h
theorem Pkg.Canonical.freeConn {g n} (h : p.Canonical) : (p.freeConn g n).Canonical := .setConn h
theorem Pkg.Canonical.modConn {g n o f} (h : p.Canonical) : (p.modConn g n o f).Canonical := .ite (.setConn h) h
theorem Pkg.Canonical.returnCredit {g n w o} (h : p.Canonical) : (p.returnCredit g n w o).Canonical := .modConn h
theorem Pkg.Canonical.closeConn {g n} (h : p.Canonical) : (p.closeConn g n).Canonical := .ite (.freeConn (.send h)) h

/-! ## Accumulators -/

theorem Pkg.Canonical.putCodes {g f at_ j codes keep} (h : p.Canonical) : (p.putCodes g f at_ j codes keep).Canonical := .ite h (.spStore h)

theorem Pkg.Canonical.putScales {g f scale rscale r} (h : p.Canonical) : (p.putScales g f scale rscale r).Canonical :=
  .ite (.spStore h) (.ite (.spStore h) (.ite (.spStore (.spStore h)) h))

/-! ## The engines of a core -/

theorem Pkg.Canonical.takeStart {g op} (h : p.Canonical) : (p.takeStart g op).Canonical := .modThr (.bump (.setCore h))

theorem Pkg.Canonical.engGrant {g last} (h : p.Canonical) : (p.engGrant g last).Canonical := by
  unfold Pkg.engGrant
  extract_lets _ q _ _ _ _
  have hq : q.Canonical := .setCore h
  split
  · exact .setCore hq
  · exact .takeStart (.setCore hq)

theorem Pkg.Canonical.markPreempt {t} (h : p.Canonical) : (p.markPreempt t).Canonical := .modSlot h

theorem Pkg.Canonical.engRevoke {g} (h : p.Canonical) : (p.engRevoke g).Canonical := by
  unfold Pkg.engRevoke
  extract_lets _
  split
  · extract_lets q1 q2 _ q3 q4
    have hq1 : q1.Canonical := by
      unfold q1
      split
      · exact .modThr h
      · exact h
    have hq2 : q2.Canonical := by
      unfold q2
      split
      · exact .modThr hq1
      · exact hq1
    have hq3 : q3.Canonical := .setFlag (.setCore hq2)
    have hq4 : q4.Canonical := .markPreempt (.bump hq3)
    exact .modCtx hq4
  · exact h

theorem Pkg.Canonical.drainAbandon {g d} (h : p.Canonical) : (p.drainAbandon g d).Canonical := .setFlag (.foldl (fun _ _ h1 => .spFree h1) h)

theorem Pkg.Canonical.vecNext {g} (h : p.Canonical) : (p.vecNext g).Canonical := by
  unfold Pkg.vecNext
  extract_lets _ _ _ q1
  have hq1 : q1.Canonical := by
    unfold q1
    refine .ite h ?_
    split
    · exact h
    · split
      · exact .setCore h
      · exact .epGrants (.epTake (.setCore h))
  refine .foldl ?_ hq1
  intro q2 _ h1
  split
  · exact .ite (.modThr h1) h1
  · exact h1

theorem Pkg.Canonical.dropEngines {t} (h : p.Canonical) : (p.dropEngines t).Canonical := by
  unfold Pkg.dropEngines
  extract_lets _ _ _ old _ _ _ q1 q2 q3
  have hq1 : q1.Canonical := .setCore h
  have hq2 : q2.Canonical := by
    unfold q2
    clear_value old
    split
    · exact .ite (.drainAbandon hq1) hq1
    · exact hq1
  have hq3 : q3.Canonical := .ite (.engGrant (.modCore hq2)) hq2
  exact .vecNext hq3

theorem Pkg.Canonical.returnCredits {g es} (h : p.Canonical) : (p.returnCredits g es).Canonical := by
  unfold Pkg.returnCredits
  refine .foldl ?_ h
  intro q _ h1
  split
  · exact .returnCredit h1
  · exact h1

theorem Pkg.Canonical.dropThr {t ended} (h : p.Canonical) : (p.dropThr t ended).Canonical := by
  unfold Pkg.dropThr
  extract_lets _ _ _ _ q1 q2 q3 q4 q5 q6 _
  have hq1 : q1.Canonical := .setCore h
  have hq2 : q2.Canonical := .ite (.ite (.engGrant (.modCore hq1)) hq1) (.dropEngines h)
  have hq3 : q3.Canonical := .returnCredits hq2
  have hq4 : q4.Canonical := .dropReqs hq3
  have hq5 : q5.Canonical := .modSlot hq4
  have hq6 : q6.Canonical := .modCore hq5
  exact .ite (.setThr hq6) (.setThr hq6)

/-! ## The memory-side cache -/

theorem Pkg.Canonical.cacheTouch {line write hint part} (h : p.Canonical) : (p.cacheTouch line write hint part).Canonical := by
  unfold Pkg.cacheTouch
  extract_lets _ _ _ q1 q2 q3
  have hq1 : q1.Canonical := .modMemDie h
  have hq2 : q2.Canonical := .modStack hq1
  have hq3 : q3.Canonical := .bump hq2
  exact .ite (.bump hq3) hq3

theorem Pkg.Canonical.devTouch {a n write hint part} (h : p.Canonical) : (p.devTouch a n write hint part).Canonical :=
  .ite (.foldl (fun _ _ h1 => .cacheTouch h1) h) h

theorem Pkg.Canonical.unstick {r} (h : p.Canonical) : (p.unstick r).Canonical := h.same rfl

/-! ## Lines -/

theorem Pkg.Canonical.rowRepair {s m} (h : p.Canonical) : (p.rowRepair s m).Canonical := .ite h (.ite (.raise (.setFlag h)) (.modStack h))
theorem Pkg.Canonical.pinMark {s m pin} (h : p.Canonical) : (p.pinMark s m pin).Canonical := .ite h (.ite (.raise h) (.raiseHb (.modStack h)))

theorem Pkg.Canonical.lineFixed {s line m fixed} (h : p.Canonical) : (p.lineFixed s line m fixed).Canonical := by
  unfold Pkg.lineFixed
  extract_lets q1 q2 _ q3 q4 q5
  have hq1 : q1.Canonical := .bump h
  have hq2 : q2.Canonical := .foldl (fun _ _ h1 => .bump h1) hq1
  have hq3 : q3.Canonical := .ite (.raise (.modStack hq2)) hq2
  have hq4 : q4.Canonical := .modStack hq3
  have hq5 : q5.Canonical := .foldl (fun _ _ h2 => .ite (.pinMark h2) h2) hq4
  exact .ite (.rowRepair hq5) hq5

/-- The correction of a codeword, the same for both attempts of a read. -/
theorem Pkg.Canonical.lineRead {line err} (h : p.Canonical) : (p.lineRead line err).2.2.Canonical := by
  unfold Pkg.lineRead
  extract_lets _ _ _ _ _ good
  have hgood : ∀ w fixed, (good w fixed).2.2.Canonical := by
    intro w fixed
    unfold good
    exact .ite h (.lineFixed (.ite h (memPut_wf _ _ _ h)))
  split
  · exact hgood _ _
  · split
    · exact hgood _ _
    · exact .raise (.setFlag (.bump h))
    · extract_lets q1 q2 q3
      have hq1 : q1.Canonical := .ite (.setFlag (.bump h)) h
      have hq2 : q2.Canonical := .raise (.setFlag (.bump hq1))
      have hq3 : q3.Canonical := .setUndef (.setPoison (memPut_wf _ _ _ hq2))
      exact .rowRepair hq3

theorem Pkg.Canonical.lineCache {l write hint part es} (h : p.Canonical) : (p.lineCache l write hint part es).Canonical := by
  unfold Pkg.lineCache
  extract_lets _ q
  have hq : q.Canonical := .cacheTouch h
  split
  · exact hq
  · split
    · exact .lineRead hq
    · exact hq

theorem Pkg.Canonical.lineServe {l hint es} (h : p.Canonical) : (p.lineServe l hint es).2.2.Canonical := by
  unfold Pkg.lineServe
  extract_lets q
  have hq : q.Canonical := .lineCache h
  split
  · exact .lineRead hq
  · exact hq

theorem Pkg.Canonical.memRead {a n hint es} (h : p.Canonical) : (p.memRead a n hint es).2.2.Canonical := by
  unfold Pkg.memRead
  split
  · exact h
  · extract_lets r
    have hr : r.2.2.Canonical := .foldl_of (fun r : List Byte × Bool × Pkg => r.2.2) (fun _ _ h => .lineServe h) h
    exact .lastUse hr

theorem Pkg.Canonical.memWrite {a bs hint es} (h : p.Canonical) : (p.memWrite a bs hint es).Canonical := by
  unfold Pkg.memWrite
  refine .ite (.store h) ?_
  extract_lets _ q1
  have hq1 : q1.Canonical := by
    unfold q1
    refine .foldl ?_ h
    intro q2 _ h1
    extract_lets q3
    have hq3 : q3.Canonical := .lineCache h1
    split
    · exact .ite hq3 (.lineRead hq3)
    · exact hq3
  exact .store hq1

/-! ## Slots -/

theorem Pkg.Canonical.setIng {j q v} (h : p.Canonical) : (p.setIng j q v).Canonical := .modSlot h
theorem Pkg.Canonical.modIng {j q f} (h : p.Canonical) : (p.modIng j q f).Canonical := .setIng h
theorem Pkg.Canonical.setEgr {j q v} (h : p.Canonical) : (p.setEgr j q v).Canonical := .modSlot h
theorem Pkg.Canonical.setVer {j e v} (h : p.Canonical) : (p.setVer j e v).Canonical := .modSlot h
theorem Pkg.Canonical.setPos {j q i} (h : p.Canonical) : (p.setPos j q i).Canonical := .modSlot h
theorem Pkg.Canonical.modPos {j q f} (h : p.Canonical) : (p.modPos j q f).Canonical := .setPos h

/-! ## Rates and windows -/

theorem Pkg.Canonical.causeItems {code die hit} (h : p.Canonical) : (p.causeItems code die hit).Canonical :=
  .foldl (fun _ _ h1 => .foldl (fun _ _ h2 => .ite (.modIng (.modPos h2)) h2) h1) h

theorem Pkg.Canonical.noteCauses (h : p.Canonical) : (p.noteCauses).Canonical :=
  .foldl (fun _ _ h1 => .foldl (fun _ _ h2 => .ite (.modIng (.modPos h2)) h2) h1) h

theorem Pkg.Canonical.setVCap {d v} (h : p.Canonical) : (p.setVCap d v).Canonical := h.same rfl

theorem Pkg.Canonical.stepTick {j q} (h : p.Canonical) : (p.stepTick j q).Canonical := by
  unfold Pkg.stepTick
  split
  · split
    next _ q e =>
      have hq : q.Canonical := .of_eq e (.take h)
      exact .modPos hq
  · exact h

theorem Pkg.Canonical.stepsNow (h : p.Canonical) : (p.stepsNow).Canonical := .foldl (fun _ _ h1 => .stepTick (.stepTick h1)) h

theorem Pkg.Canonical.railLoop {d} (h : p.Canonical) : (p.railLoop d).Canonical := by
  unfold Pkg.railLoop
  extract_lets _ _ _ _ _ _ _
  split
  next _ q e =>
    have hq : q.Canonical := .of_eq e (.take h)
    exact hq.same rfl

theorem Pkg.Canonical.railLoops {ds} (h : p.Canonical) : (p.railLoops ds).Canonical :=
  .ite h (.noteCauses (.foldl (fun _ _ h1 => .ite (.railLoop h1) h1) (.noteCauses (.stepsNow h))))

theorem Pkg.Canonical.loopFor {j i} (h : p.Canonical) : (p.loopFor j i).Canonical := .ite (.railLoops h) h

theorem Pkg.Canonical.classify {j i aborted} (h : p.Canonical) : (p.classify j i aborted).Canonical := by
  unfold Pkg.classify
  extract_lets _ _ _ _ _ _ _ _ _ _ q1 q2 q3
  have hq1 : q1.Canonical := .ite (.bump h) (.ite (.bump (.bump h)) (.bump h))
  have hq2 : q2.Canonical := .foldl (fun _ _ h1 => .bump h1) hq1
  have hq3 : q3.Canonical := .ite hq2 (.bump hq2)
  split
  · exact h
  · exact .ite h (.ite (.ite h (.bump h)) (.ite (.raise (.raise (hq3.same rfl))) (.raise (hq3.same rfl))))

end Sys2Proof.Machine
end

