-- ==== Sys2Proof/Proofs/CanonicalItems.lean ====
section
/-! The operations on slots, items, contexts and threads, and the issue of an instruction, keep memory canonical. -/

namespace Sys2Proof.Machine

variable {p q : Pkg} {s : State}

/-! ## Queues, stash and items -/

theorem Pkg.Canonical.markHold {j q} (h : p.Canonical) : (p.markHold j q).Canonical := .ite (.modIng h) h
theorem Pkg.Canonical.phaseTick {j} (h : p.Canonical) : (p.phaseTick j).Canonical := .modSlot (.ite h (.markHold (.markHold h)))

theorem Pkg.Canonical.sendGrant {j q} (h : p.Canonical) : (p.sendGrant j q).Canonical := by
  unfold Pkg.sendGrant
  extract_lets _ _ _ _ q _ _
  have hq : q.Canonical := .setIng h
  refine .ite hq (.ite ?_ (.send hq))
  split
  · exact .ite (hq.same rfl) (.ethSend (hq.same rfl))
  · exact hq

theorem Pkg.Canonical.grantCheck {j q posted} (h : p.Canonical) : (p.grantCheck j q posted).Canonical := .ite (.sendGrant h) h

theorem Pkg.Canonical.recordStart {j k} (h : p.Canonical) : (p.recordStart j k).Canonical := by
  unfold Pkg.recordStart
  extract_lets _ _ _
  refine .ite h ?_
  split
  · exact h
  · split
    · exact h
    · exact .ite h (.loopFor (.setIng h))

theorem Pkg.Canonical.postItem {j q i count} (h : p.Canonical) : (p.postItem j q i count).Canonical := .recordStart (.setIng (.phaseTick h))
theorem Pkg.Canonical.postOptimizer {j} (h : p.Canonical) : (p.postOptimizer j).Canonical := .ite (.modSlot h) (.modSlot (.postItem h))
theorem Pkg.Canonical.optRetry {j} (h : p.Canonical) : (p.optRetry j).Canonical := .ite (.postOptimizer h) h
theorem Pkg.Canonical.wakeWaiters {o} (h : p.Canonical) : (p.wakeWaiters o).Canonical := .foldl (fun _ _ h1 => .answer h1) (h.same rfl)

theorem Pkg.Canonical.fireCheck {o} (h : p.Canonical) : (p.fireCheck o).Canonical :=
  .ite (.ite (.postOptimizer (.setSync h)) (.ite (.modSumpEng (.setSync h)) (.setSync h))) h

theorem Pkg.Canonical.signalObj {o v} (h : p.Canonical) : (p.signalObj o v).Canonical := .wakeWaiters (.fireCheck (.modSync h))
theorem Pkg.Canonical.armObj {o t} (h : p.Canonical) : (p.armObj o t).Canonical := .fireCheck (.modSync h)
theorem Pkg.Canonical.casObj {o e n} (h : p.Canonical) : (p.casObj o e n).Canonical := .wakeWaiters (.fireCheck (.modSync h))
theorem Pkg.Canonical.setObj {o v} (h : p.Canonical) : (p.setObj o v).Canonical := .wakeWaiters (.fireCheck (.modSync h))
theorem Pkg.Canonical.freeObj {o} (h : p.Canonical) : (p.freeObj o).Canonical := .modSync h
theorem Pkg.Canonical.retireCheck {j e} (h : p.Canonical) : (p.retireCheck j e).Canonical := .ite (.freeObj (.setVer h)) h

theorem Pkg.Canonical.unref {j r} (h : p.Canonical) : (p.unref j r).Canonical := by
  unfold Pkg.unref
  split
  · exact .retireCheck (.signalObj h)
  · exact h

theorem Pkg.Canonical.copyBytes {src dst n part} (h : p.Canonical) : (p.copyBytes src dst n part).Canonical :=
  .foldl (fun _ _ h1 => .setPoison h1) (.store (.devTouch (.devTouch h)))

theorem Pkg.Canonical.spill {j a at_} (h : p.Canonical) : (p.spill j a at_).Canonical :=
  .addCtr (.setFlag (.modSlot (.ite h (.foldl (fun _ _ h1 => .request h1) (.devTouch h)))))

theorem Pkg.Canonical.spillFor {j n fuel} (h : p.Canonical) : (p.spillFor j n fuel).Canonical := by
  induction fuel generalizing p with
  | zero => exact h
  | succ fuel ih =>
    unfold Pkg.spillFor
    extract_lets _ _
    refine .ite h ?_
    split
    · exact h
    · extract_lets _ _
      split
      · exact h
      · exact ih (.spill h)

theorem Pkg.Canonical.stashAlloc {j mb layer cls n} (h : p.Canonical) : (p.stashAlloc j mb layer cls n).2.Canonical := by
  unfold Pkg.stashAlloc
  extract_lets _ q1 _ q2
  have hq1 : q1.Canonical := .spillFor h
  have hq2 : q2.Canonical := .modSlot hq1
  split
  · exact h
  · split
    · exact hq1
    · split
      · extract_lets q3
        have hq3 : q3.Canonical := .modSlot hq1
        exact hq3
      · split
        · exact .bump (.setFlag hq2)
        · exact hq1

theorem Pkg.Canonical.stashFetch {j mb} (h : p.Canonical) : (p.stashFetch j mb).Canonical := by
  unfold Pkg.stashFetch
  refine .foldl ?_ h
  intro q _ h1
  extract_lets _
  split
  · exact h1
  · exact .ite (.modSlot h1) (.foldl (fun _ _ h2 => .request h2) (.modSlot h1))

theorem Pkg.Canonical.stashFetchAll {j} (h : p.Canonical) : (p.stashFetchAll j).Canonical := .foldl (fun _ _ h1 => .stashFetch h1) h

theorem Pkg.Canonical.stashBack {j mb} (h : p.Canonical) : (p.stashBack j mb).Canonical :=
  .foldl (fun _ _ h1 => .modSlot (.ite (.copyBytes h1) h1)) h

theorem Pkg.Canonical.holdEnd {j was} (h : p.Canonical) : (p.holdEnd j was).Canonical := .ite (.sendGrant (.addCtr h)) h
theorem Pkg.Canonical.stashFree {j mb} (h : p.Canonical) : (p.stashFree j mb).Canonical := .modSlot h
theorem Pkg.Canonical.stashFreeAttempt {j mb} (h : p.Canonical) : (p.stashFreeAttempt j mb).Canonical := .modSlot h
theorem Pkg.Canonical.egrRelease {j first n} (h : p.Canonical) : (p.egrRelease j first n).Canonical := .modSlot h
theorem Pkg.Canonical.egrGiveBack {j i} (h : p.Canonical) : (p.egrGiveBack j i).Canonical := .ite (.egrRelease h) (.setEgr (.egrRelease h))

theorem Pkg.Canonical.landRelease {j q i} (h : p.Canonical) : (p.landRelease j q i).Canonical :=
  .ite (.egrRelease h) (.ite (.grantCheck (.modIng h)) h)

theorem Pkg.Canonical.postReady {j q fuel} (h : p.Canonical) : (p.postReady j q fuel).Canonical := by
  induction fuel generalizing p with
  | zero => exact h
  | succ fuel ih =>
    unfold Pkg.postReady
    extract_lets g
    split
    · exact h
    · refine .ite h ?_
      extract_lets _ _ q1 q2 q3 q4
      have hq1 : q1.Canonical := .setIng (.phaseTick h)
      have hq2 : q2.Canonical := .ite (.setFlag (.bump hq1)) hq1
      have hq3 : q3.Canonical := .postItem hq1
      have hq4 : q4.Canonical := .ite (.modIng hq2) (.ite (.modIng hq1) (.ite (.stashFetch hq3) hq3))
      exact ih (.grantCheck hq4)

theorem Pkg.Canonical.postMore {j q} (h : p.Canonical) : (p.postMore j q).Canonical := .postReady h

/-! ## Replies -/

theorem Pkg.Canonical.sendReply {src bytes} (h : p.Canonical) : (p.sendReply src bytes).Canonical := by
  unfold Pkg.sendReply
  split
  · exact .ethSend h
  · exact .emit h

theorem Pkg.Canonical.reply {k w status params} (h : p.Canonical) : (p.reply k w status params).Canonical := .sendReply (.setSession h)

theorem Pkg.Canonical.replyWaiting {tk status params} (h : p.Canonical) : (p.replyWaiting tk status params).Canonical := by
  unfold Pkg.replyWaiting
  split
  · exact h
  · split
    · exact h
    · extract_lets q
      have hq : q.Canonical := .reply h
      exact hq.same rfl

/-! ## Serving -/

theorem Pkg.Canonical.writePt {r s} (h : p.Canonical) : (p.writePt r s).Canonical := .store h

theorem Pkg.Canonical.roundStart {c} (h : p.Canonical) : (p.roundStart c).Canonical := by
  unfold Pkg.roundStart
  extract_lets _ _ _ _ _ _ _ _ _ _ _ q1 q2 q3 q4 q5
  have hq1 : q1.Canonical := .setCtx h
  have hq2 : q2.Canonical := .foldl (fun _ _ h1 => .writePt h1) hq1
  have hq3 : q3.Canonical := .foldl (fun _ _ h2 => .raise h2) hq2
  have hq4 : q4.Canonical := .addCtr hq3
  have hq5 : q5.Canonical := .ite hq4 (.setFlag hq4)
  exact .foldl (fun _ _ h3 => .replyWaiting (.raise (.bump h3))) hq5

theorem Pkg.Canonical.roundCommit {c} (h : p.Canonical) : (p.roundCommit c).Canonical := .roundStart (.addCtr (.setCtx h))
theorem Pkg.Canonical.writeBatch {c stream} (h : p.Canonical) : (p.writeBatch c stream).Canonical := .store h
theorem Pkg.Canonical.serveEnd {j} (h : p.Canonical) : (p.serveEnd j).Canonical := .ite (.ite (.roundCommit (.modCtx h)) (.modCtx h)) h

/-! ## The ends of items -/

theorem Pkg.Canonical.ctxTo {c st} (h : p.Canonical) : (p.ctxTo c st).Canonical := .ite h (.raise (.setCtx h))
theorem Pkg.Canonical.ctxEval {c} (h : p.Canonical) : (p.ctxEval c).Canonical := .ite h (.ite (.ctxTo h) (.ite (.ctxTo h) (.ctxTo h)))

theorem Pkg.Canonical.closeItemChans {j q} (h : p.Canonical) : (p.closeItemChans j q).Canonical :=
  .foldl (fun _ _ h1 => .foldl (fun _ _ h2 => .freeConn h2) (.foldl (fun _ _ h3 => .closeEp h3) h1)) h

theorem Pkg.Canonical.dropThrs {ts ended} (h : p.Canonical) : (p.dropThrs ts ended).Canonical := .foldl (fun _ _ h1 => .dropThr h1) h

theorem Pkg.Canonical.dropTransit {j q} (h : p.Canonical) : (p.dropTransit j q).Canonical :=
  .modSlot (.foldl (fun _ _ h1 => .foldl (fun _ _ h2 => .returnCredit h2) h1) h)

theorem Pkg.Canonical.killItem {j q} (h : p.Canonical) : (p.killItem j q).Canonical := by
  unfold Pkg.killItem
  extract_lets q1 q2 _
  have hq1 : q1.Canonical := .stepTick h
  have hq2 : q2.Canonical := .phaseTick hq1
  split
  · exact hq1
  · extract_lets q3 q4 q5 _ q6 q7
    have hq3 : q3.Canonical := .holdEnd (.dropThrs hq2)
    have hq4 : q4.Canonical := .foldl (fun _ _ h1 => .foldl (fun _ _ h2 => .epGrants (.setEp h2)) h1) hq3
    have hq5 : q5.Canonical := .ite (.stashFetchAll (.stashFreeAttempt hq4)) hq4
    have hq6 : q6.Canonical := .dropTransit hq5
    have hq7 : q7.Canonical := .setPos hq6
    exact .modIng hq7

theorem Pkg.Canonical.lateDiscard {j i} (h : p.Canonical) : (p.lateDiscard j i).Canonical := .ite (.classify h) h

theorem Pkg.Canonical.discardRunning {j q step} (h : p.Canonical) : (p.discardRunning j q step).Canonical := by
  unfold Pkg.discardRunning
  extract_lets q1 q2 _
  have hq1 : q1.Canonical := .stepTick h
  have hq2 : q2.Canonical := .phaseTick hq1
  split
  · exact hq1
  · extract_lets q3 q4 q5 q6 q7 q8 q9
    have hq3 : q3.Canonical := .holdEnd (.dropThrs hq2)
    have hq4 : q4.Canonical := .closeItemChans hq3
    have hq5 : q5.Canonical := .ite (.lateDiscard hq4) hq4
    have hq6 : q6.Canonical := .egrGiveBack hq5
    have hq7 : q7.Canonical := .ite (.stashFetchAll (.stashFreeAttempt hq6)) hq6
    have hq8 : q8.Canonical := .dropTransit hq7
    have hq9 : q9.Canonical := .setPos hq8
    exact .optRetry (.recordStart (.landRelease hq9))

theorem Pkg.Canonical.discardQueued {j q step f} (h : p.Canonical) : (p.discardQueued j q step f).Canonical := by
  unfold Pkg.discardQueued
  extract_lets _ q1 q2 q3 q4
  have hq1 : q1.Canonical := .modIng h
  have hq2 : q2.Canonical := .ite (.closeItemChans hq1) hq1
  have hq3 : q3.Canonical := .foldl (fun _ _ h1 => .recordStart (.landRelease (.egrGiveBack (.ite (.lateDiscard h1) h1)))) hq2
  have hq4 : q4.Canonical := .postMore hq3
  exact .ite (.optRetry hq4) hq4

theorem Pkg.Canonical.discardSlot {j step f} (h : p.Canonical) : (p.discardSlot j step f).Canonical := by
  unfold Pkg.discardSlot
  extract_lets run
  have hRun : ∀ x2 x4, x2.Canonical → (run x2 x4).Canonical := by
    intro _ _ h1
    unfold run
    split
    · exact .ite (.discardRunning h1) h1
    · exact h1
  exact .discardQueued (.discardQueued (hRun _ _ (hRun _ _ h)))

theorem Pkg.Canonical.lateVote {c} (h : p.Canonical) : (p.lateVote c).Canonical := .ite (.request h) h

theorem Pkg.Canonical.ctxFault {c cause} (h : p.Canonical) : (p.ctxFault c cause).Canonical := by
  unfold Pkg.ctxFault
  extract_lets _ q1 q2 q3 q4
  have hq1 : q1.Canonical := .foldl (fun _ _ h1 => .discardSlot h1) h
  have hq2 : q2.Canonical := .lateVote hq1
  have hq3 : q3.Canonical := .modCtx hq2
  have hq4 : q4.Canonical := hq3.same rfl
  exact .ite h (.ctxTo hq4)

theorem Pkg.Canonical.nonfinite {c die core} (h : p.Canonical) : (p.nonfinite c die core).Canonical := .ite (.setCtx h) (.raise (.setCtx h))

theorem Pkg.Canonical.mergeTrack {c idx t} (h : p.Canonical) : (p.mergeTrack c idx t).Canonical := by
  unfold Pkg.mergeTrack
  split
  · exact h
  · extract_lets _ _
    refine .ite ?_ (.store h)
    split
    next _ q1 e1 =>
      have hq1 : q1.Canonical := .of_eq e1 (.take h)
      split
      next _ q2 e2 =>
        have hq2 : q2.Canonical := .of_eq e2 (.take hq1)
        exact .store hq2

theorem Pkg.Canonical.noteTrack {a len} (h : p.Canonical) : (p.noteTrack a len).Canonical := by
  unfold Pkg.noteTrack
  refine .foldl ?_ h
  intro q _ h1
  split
  · exact h1
  · exact .ite h1 (.modCtx h1)

theorem Pkg.Canonical.trackInit {r} (h : p.Canonical) : (p.trackInit r).Canonical := .ite (.foldl (fun _ _ h1 => .store h1) h) h

theorem Pkg.Canonical.endStreams {c st} (h : p.Canonical) : (p.endStreams c st).Canonical := by
  unfold Pkg.endStreams
  extract_lets _ q1
  have hq1 : q1.Canonical := .modCtx h
  refine .foldl ?_ hq1
  intro q2 _ h1
  split
  · exact h1
  · exact .store h1

theorem Pkg.Canonical.rateTick {j q} (h : p.Canonical) : (p.rateTick j q).Canonical := .modPos h
theorem Pkg.Canonical.tallyItem {j i} (h : p.Canonical) : (p.tallyItem j i).Canonical := .modCtx h
theorem Pkg.Canonical.kvRelease {j i} (h : p.Canonical) : (p.kvRelease j i).Canonical := .ite h (.grantCheck (.modIng h))

theorem Pkg.Canonical.postEgress {j i} (h : p.Canonical) : (p.postEgress j i).Canonical := by
  unfold Pkg.postEgress
  extract_lets _ _ _ _ q1 _ q2 _ _ _ _
  have hq1 : q1.Canonical := .egrRelease h
  have hq2 : q2.Canonical := .setEgr hq1
  exact .ite hq2 (.ite (.stashFetch (.postItem hq2)) (.ite hq2 (.setEgr hq2)))

theorem Pkg.Canonical.endItem {j q} (h : p.Canonical) : (p.endItem j q).Canonical := by
  unfold Pkg.endItem
  split
  · exact h
  · extract_lets q1 _
    have hq1 : q1.Canonical := .stepTick (.rateTick (.phaseTick h))
    split
    · exact hq1
    · extract_lets _ q2 q3 q4 q5 q6 q7 q8 q9 q10 q11 q12 q13 q14 q15
      have hq2 : q2.Canonical := .tallyItem hq1
      have hq3 : q3.Canonical := .classify hq2
      have hq4 : q4.Canonical := .foldl (fun _ _ h1 => .mergeTrack h1) hq3
      have hq5 : q5.Canonical := .endStreams hq4
      have hq6 : q6.Canonical := .dropThrs hq5
      have hq7 : q7.Canonical := .closeItemChans hq6
      have hq8 : q8.Canonical := .setPos hq7
      have hq9 : q9.Canonical := .postEgress hq8
      have hq10 : q10.Canonical := .landRelease hq9
      have hq11 : q11.Canonical := .kvRelease hq10
      have hq12 : q12.Canonical := by
        unfold q12
        split
        · exact .unref hq11
        · exact hq11
      have hq13 : q13.Canonical := .ite (.stashFetchAll (.stashFree hq12)) hq11
      have hq14 : q14.Canonical := .modSlot hq13
      have hq15 : q15.Canonical := .loopFor (.recordStart hq14)
      exact .ctxEval (.serveEnd hq15)

theorem Pkg.Canonical.tryEnd {j q} (h : p.Canonical) : (p.tryEnd j q).Canonical := by
  unfold Pkg.tryEnd
  split
  · exact h
  · exact .ite (.endItem h) h

theorem Pkg.Canonical.thrFaultAs {t cause pc inst ctxCause} (h : p.Canonical) : (p.thrFaultAs t cause pc inst ctxCause).Canonical :=
  .ctxFault (.raise (.bump (.setFlag (.setThr h))))

theorem Pkg.Canonical.thrFault {t cause pc inst} (h : p.Canonical) : (p.thrFault t cause pc inst).Canonical := .thrFaultAs h
theorem Pkg.Canonical.badAddress {c a} (h : p.Canonical) : (p.badAddress c a).Canonical := .ctxFault (.raise h)
theorem Pkg.Canonical.poisonEvent {c a} (h : p.Canonical) : (p.poisonEvent c a).Canonical := .raise (.setFlag h)
theorem Pkg.Canonical.poisonConsumed {c a} (h : p.Canonical) : (p.poisonConsumed c a).Canonical := .ctxFault (.poisonEvent h)

theorem Pkg.Canonical.deviceCheck {c a n} (h : p.Canonical) : (p.deviceCheck c a n).Canonical := by
  unfold Pkg.deviceCheck
  split
  · exact .ite (.poisonConsumed h) h
  · exact h
  · exact .badAddress h

theorem Pkg.Canonical.deviceRead {c a n hint} (h : p.Canonical) : (p.deviceRead c a n hint).Canonical := by
  unfold Pkg.deviceRead
  split
  · exact .deviceCheck (.devTouch h)
  · exact .deviceCheck h

theorem Pkg.Canonical.holdAcc {m w} (h : p.Canonical) : (p.holdAcc m w).Canonical := .modMemDie h

theorem Pkg.Canonical.deviceWrite {c a bs hint sump} (h : p.Canonical) : (p.deviceWrite c a bs hint sump).Canonical := by
  unfold Pkg.deviceWrite
  split
  · exact .store (.devTouch h)
  · exact .holdAcc h
  · exact .badAddress h

/-! ## Issue -/

theorem Pkg.Canonical.markTaken {t} (h : p.Canonical) : (p.markTaken t).Canonical := .foldl (fun _ _ h1 => .markPreempt h1) h

theorem Pkg.Canonical.countIssue {t keep} (h : p.Canonical) : (p.countIssue t keep).Canonical := by
  unfold Pkg.countIssue
  extract_lets _ _ _ q1 q2
  have hq1 : q1.Canonical := .bump (.setCore h)
  have hq2 : q2.Canonical := .ite (.markTaken hq1) hq1
  exact .ite (.bump hq2) hq2

theorem Pkg.Canonical.retire {t} (h : p.Canonical) : (p.retire t).Canonical := .countIssue (.modThr h)
theorem Pkg.Canonical.blockThr {t w} (h : p.Canonical) : (p.blockThr t w).Canonical := .ctxEval (.modThr (.phaseTick h))

theorem Pkg.Canonical.issue {t i body} (h : p.Canonical) (hbody : ∀ q th, q.Canonical → (body q th).Canonical) : (p.issue t i body).Canonical := by
  unfold Pkg.issue
  refine .ite ?_ h
  extract_lets th w
  refine .ite (.thrFault h) (.ite (.thrFault h) ?_)
  have hb : (body p th).Canonical := hbody p th h
  cases hr : body p th with
  | ok q => exact .retire (hr ▸ hb : (IRes.ok q).Canonical)
  | jump q pc => exact .countIssue (.modThr (hr ▸ hb : (IRes.jump q pc).Canonical))
  | fault c => exact .thrFault h
  | again q w => exact .blockThr (.modCore (.modThr (hr ▸ hb : (IRes.again q w).Canonical)))
  | wait q w => exact .blockThr (.countIssue (.modThr (hr ▸ hb : (IRes.wait q w).Canonical)))
  | yield q => exact .countIssue (.modThr (hr ▸ hb : (IRes.yield q).Canonical))
  | stop q => exact (hr ▸ hb : (IRes.stop q).Canonical)

theorem Pkg.Canonical.wakeCheck {t} (h : p.Canonical) : (p.wakeCheck t).Canonical := .ite (.ctxEval (.setThr (.phaseTick h))) h

theorem Pkg.Canonical.endBg {t id} (h : p.Canonical) : (p.endBg t id).Canonical := by
  unfold Pkg.endBg
  extract_lets _ _
  split
  · exact h
  · exact .wakeCheck (.setThr h)

theorem IRes.Canonical.needTag {th tag k} (h : p.Canonical) (hk : k.Canonical) : (needTag th tag p k).Canonical := .ite (.again h) hk
theorem Pkg.Canonical.resume {t f} (h : p.Canonical) : (p.resume t f).Canonical := .ite (.ctxEval (.setThr (.phaseTick h))) h

/-! ## Ranges -/

theorem Leaves.aadd {t f} (h : s.pkg.Canonical) : Leaves (execAadd t f s) := .of_run (.issue h (fun _ _ h1 => .ok (.setThr h1)))
theorem Leaves.amov {t f} (h : s.pkg.Canonical) : Leaves (execAmov t f s) := .of_run (.issue h (fun _ _ h1 => .ok (.setThr h1)))
theorem Leaves.ard {t f} (h : s.pkg.Canonical) : Leaves (execArd t f s) := .of_run (.issue h (fun _ _ h1 => .ok (.setThr h1)))
theorem Leaves.ali {t f} (h : s.pkg.Canonical) : Leaves (execAli t f s) := .of_run (.issue h (fun _ _ h1 => .ok (.setThr h1)))
theorem Leaves.awin {t f} (h : s.pkg.Canonical) : Leaves (execAwin t f s) := .of_run (.issue h (fun _ _ h1 => .ok (.setThr h1)))
theorem Leaves.br {t f} (h : s.pkg.Canonical) : Leaves (execBr t f s) := .of_run (.issue h (fun _ _ h1 => .ite (.jump h1) (.ok h1)))
theorem Leaves.jal {t f} (h : s.pkg.Canonical) : Leaves (execJal t f s) := .of_run (.issue h (fun _ _ h1 => .jump (.setThr h1)))
theorem Leaves.jalr {t f} (h : s.pkg.Canonical) : Leaves (execJalr t f s) := .of_run (.issue h (fun _ _ h1 => .jump (.setThr h1)))

/-! ## Operands -/

theorem Pkg.Canonical.spPoison {t pc inst} (h : p.Canonical) : (p.spPoison t pc inst).Canonical := .thrFault (.setFlag h)
theorem Pkg.Canonical.countMem {t addr n} (h : p.Canonical) : (p.countMem t addr n).Canonical := .ite (.modPos h) h
theorem Pkg.Canonical.noteEgress {t addr n} (h : p.Canonical) : (p.noteEgress t addr n).Canonical := .ite h (.modPos h)

theorem IRes.Canonical.stageEff {t e payload k} (h : p.Canonical) : (stageEff p t e payload k).Canonical :=
  .ite .fault (.ite .fault (.ok (.setThr h)))

/-! ## Scheduling and swapping -/

theorem Pkg.Canonical.reserveSlot {j} (h : p.Canonical) : (p.reserveSlot j).Canonical :=
  .modSlot (.foldl (fun _ _ h1 => .foldl (fun _ _ h2 => .setThr h2) h1) h)

theorem Pkg.Canonical.releaseSlot {j} (h : p.Canonical) : (p.releaseSlot j).Canonical := .modSlot (h.same rfl)
theorem Pkg.Canonical.preemptItem {j q byLc} (h : p.Canonical) : (p.preemptItem j q byLc).Canonical := .killItem (.modCtx (.ite (.modPos h) h))

theorem Pkg.Canonical.swapOut {v byLc} (h : p.Canonical) : (p.swapOut v byLc).Canonical := by
  unfold Pkg.swapOut
  extract_lets _ _ q1 q2 run
  have hq1 : q1.Canonical := .setCtx h
  have hq2 : q2.Canonical := .raise (.bump (.setFlag hq1))
  have hRun : ∀ x6 x8 x9, x6.Canonical → (run x6 x8 x9).Canonical := by
    intro _ _ _ h1
    unfold run
    split
    · exact h1
    · exact .ite (.modCtx (.modPos (.rateTick h1))) (.preemptItem h1)
  exact .ite h (.foldl (fun _ _ h2 => hRun _ _ _ (hRun _ _ _ h2)) hq2)

theorem Pkg.Canonical.swapInBegin {c} (h : p.Canonical) : (p.swapInBegin c).Canonical := .raise (.bump (.setCtx h))

theorem Pkg.Canonical.swapTry {c} (h : p.Canonical) : (p.swapTry c).Canonical :=
  .ite h (.ite (.swapInBegin h) (.ite (.swapInBegin (.foldl (fun _ _ h1 => .swapOut h1) h)) (.ite (.modCtx (.setFlag h)) h)))

theorem Pkg.Canonical.swapEval (h : p.Canonical) : (p.swapEval).Canonical :=
  .foldl (fun _ _ h1 => .swapTry h1) (.foldl (fun _ _ h2 => .modCtx h2) h)

theorem Pkg.Canonical.storeFree {a n} (h : p.Canonical) : (p.storeFree a n).Canonical := by
  unfold Pkg.storeFree
  extract_lets q
  have hq : q.Canonical := .store h
  exact hq.same rfl

theorem Pkg.Canonical.saveThr {c t} (h : p.Canonical) : (p.saveThr c t).Canonical := by
  unfold Pkg.saveThr
  extract_lets _ _ _ q1 q2 q3 _ q4 q5 q6
  have hq1 : q1.Canonical := .dropReqs h
  have hq2 : q2.Canonical := hq1.same rfl
  have hq3 : q3.Canonical := .modSlot hq2
  have hq4 : q4.Canonical := .modCore hq3
  have hq5 : q5.Canonical := .ite (.engGrant (.modCore hq4)) hq4
  have hq6 : q6.Canonical := .setThr hq5
  exact .modCtx hq6

theorem Pkg.Canonical.saveDone {v} (h : p.Canonical) : (p.saveDone v).Canonical := by
  unfold Pkg.saveDone
  extract_lets _ _ _ q1 q2 _ bad q3 q4 q5
  have hq1 : q1.Canonical := .foldl (fun _ _ h1 => .saveThr h1) h
  have hq2 : q2.Canonical := .foldl (fun _ _ h2 => .holdEnd h2) hq1
  have hq3 : q3.Canonical := by
    unfold q3
    refine .foldl ?_ hq2
    intro q6 _ h3
    extract_lets _ _ q7 q8 q9 q10 _
    have hq7 : q7.Canonical := .foldl (fun _ _ h4 => .devTouch h4) h3
    have hq8 : q8.Canonical := .ite (.storeFree hq7) hq7
    have hq9 : q9.Canonical := by
      unfold q9
      split
      · exact .storeFree (.store hq8)
      · exact hq8
    have hq10 : q10.Canonical := .store hq9
    exact .modCtx hq10
  have hq4 : q4.Canonical := .foldl (fun _ _ h5 => .releaseSlot h5) hq3
  have hq5 : q5.Canonical := .modCtx hq4
  clear_value bad
  split
  · exact .badAddress hq5
  · exact hq5

theorem Pkg.Canonical.engRestore {m e} (h : p.Canonical) : (p.engRestore m e).Canonical := by
  unfold Pkg.engRestore
  extract_lets _ _ _ _ q1
  have hq1 : q1.Canonical := .setCore h
  refine .ite (.ite (.engGrant hq1) hq1) (.ite (.modCore hq1) ?_)
  split
  · exact hq1
  · extract_lets q2
    have hq2 : q2.Canonical := .modCore hq1
    split
    · exact .modThr hq2
    · exact hq2

theorem Pkg.Canonical.restoreDone {c} (h : p.Canonical) : (p.restoreDone c).Canonical := by
  unfold Pkg.restoreDone
  extract_lets _ q1 _ _ _ bad lost q2 q3 _ _ q4 q5 q6 q7 q8
  have hq1 : q1.Canonical := .foldl (fun _ _ h1 => .reserveSlot h1) h
  have hq2 : q2.Canonical := .foldl (fun _ _ h2 => .devTouch h2) hq1
  have hq3 : q3.Canonical := .ite (.foldl (fun _ _ h3 => .modCtx (.spStore h3)) hq2) hq2
  have hq4 : q4.Canonical := .foldl (fun _ _ h4 => .setThr h4) hq3
  have hq5 : q5.Canonical := .foldl (fun _ _ h5 => .engRestore h5) hq4
  have hq6 : q6.Canonical := .foldl (fun _ _ h6 => .modSlot (.modPos h6)) hq5
  have hq7 : q7.Canonical := .modCtx hq6
  have hq8 : q8.Canonical := .ctxTo hq7
  clear_value bad lost
  split
  · exact .ctxFault (.poisonEvent hq8)
  · exact .badAddress hq8
  · exact .ctxEval hq8

theorem Pkg.Canonical.modThrOrSaved {c t f} (h : p.Canonical) : (p.modThrOrSaved c t f).Canonical := .ite (.modCtx h) (.modThr h)

theorem Pkg.Canonical.startThr {j i block t rank nthr nlive} (h : p.Canonical) : (p.startThr j i block t rank nthr nlive).Canonical :=
  .setThr (.spStore h)

theorem Pkg.Canonical.dispatchItem {j q} (h : p.Canonical) : (p.dispatchItem j q).Canonical := by
  unfold Pkg.dispatchItem
  split
  · exact h
  · extract_lets q1 _ _ _ _ _ _ _ _ q2 _ _ _ _ q3 q4 _ _ q5 q6 q7 _ q8 _ _ _ _ q9 q10
    have hq1 : q1.Canonical := .phaseTick h
    have hq2 : q2.Canonical := .ite (.setEgr (.modSlot hq1)) hq1
    have hq3 : q3.Canonical := by
      unfold q3
      split
      · exact .signalObj hq2
      · exact hq2
    have hq4 : q4.Canonical := .ite (.modSlot hq3) hq2
    have hq5 : q5.Canonical := .ite (.modCtx hq4) hq4
    have hq6 : q6.Canonical := .ite hq5 (.roundStart hq5)
    have hq7 : q7.Canonical := .ite (.writeBatch hq6) hq5
    have hq8 : q8.Canonical := .postMore (.modIng hq7)
    have hq9 : q9.Canonical := .setPos hq8
    have hq10 : q10.Canonical := .foldl (fun _ _ h1 => .startThr h1) hq9
    exact .ctxEval (.loopFor (.optRetry (.recordStart (.grantCheck hq10))))

end Sys2Proof.Machine
end

