-- ==== Sys2Proof/Proofs/CanonicalCores.lean ====
section
/-! Channels, effects, sumps and the background operations of cores keep memory canonical. -/

namespace Sys2Proof.Machine

variable {p q : Pkg} {s : State}

/-! ## Channel instructions -/

theorem Pkg.Canonical.wakeRecv {g e} (h : p.Canonical) : (p.wakeRecv g e).Canonical := by
  unfold Pkg.wakeRecv
  extract_lets q1
  have hq1 : q1.Canonical := .vecNext h
  refine .foldl ?_ hq1
  intro q2 _ h1
  extract_lets _ _
  split
  · exact .ite (.ctxEval (.setThr (.phaseTick h1))) h1
  · exact h1

theorem Pkg.Canonical.wakeSend {g n} (h : p.Canonical) : (p.wakeSend g n).Canonical := by
  unfold Pkg.wakeSend
  extract_lets _
  refine .foldl ?_ h
  intro q _ h1
  extract_lets _
  split
  · exact .ite (.ctxEval (.setThr (.phaseTick h1))) h1
  · exact h1

theorem Pkg.Canonical.openReq {g e q} (h : p.Canonical) : (p.openReq g e q).Canonical :=
  .ite (.ite (.answer h) (.answer (.epGrants (.setEp h)))) (.ite (.answer h) (.ite (.setEp h) (.answer h)))

theorem Pkg.Canonical.sendOpen {g n} (h : p.Canonical) : (p.sendOpen g n).Canonical := .request h

theorem IRes.Canonical.claimEp {t th f w} (h : p.Canonical) : (claimEp p t th f w).Canonical := by
  unfold Machine.claimEp
  extract_lets _ _ _ _ _ _ _ _ _ _ _ _ _ _ q
  have hq : q.Canonical := .setEp (.spRead h)
  split
  · exact .fault
  · exact .ite .fault (.ite (.stop (.spPoison h)) (.ite .fault (.ite (.ite (.ok (.spRead h)) .fault) (.ok (.foldl (fun _ _ h1 =>
        .openReq h1) hq)))))

theorem IRes.Canonical.openConn {t th f} (h : p.Canonical) : (openConn p t th f).Canonical :=
  .ite .fault (.ite (.ok (.sendOpen (.setConn h))) (.ite (.ok h) .fault))

theorem IRes.Canonical.chOpenAny {t th f w} (h : p.Canonical) : (chOpenAny p t th f w).Canonical := .ite .fault (.ite (.claimEp h) (.openConn h))
theorem Leaves.chOpen {t f} (h : s.pkg.Canonical) : Leaves (execChOpen t f s) := .of_run (.issue h (fun _ _ h1 => .chOpenAny h1))
theorem Leaves.chOpenReader {t f} (h : s.pkg.Canonical) : Leaves (execChOpenReader t f s) := .of_run (.issue h (fun _ _ h1 => .chOpenAny h1))

theorem Leaves.chSend {t f} (h : s.pkg.Canonical) : Leaves (execChSend t f s) := by
  unfold Machine.execChSend
  refine .of_run (.issue h ?_)
  intro _ _ h1
  extract_lets _ _ _ _ _
  refine .ite .fault (.ite .fault ?_)
  split
  · exact .fault
  · exact .ite .fault (.ite .fault (.ite (.ite .fault (.ok (.setThr h1))) (.ite (.again h1) (.stageEff (.setConn h1)))))

theorem Leaves.chRecv {t f} (h : s.pkg.Canonical) : Leaves (execChRecv t f s) := by
  unfold Machine.execChRecv
  refine .of_run (.issue h ?_)
  intro _ _ h1
  extract_lets _ _ _ _ _ q
  have hq : q.Canonical := .spStore (.epGrants (.epTake h1))
  refine .ite .fault (.ite (.ite (.ok (.setThr h1)) (.again h1)) ?_)
  split
  · exact .fault
  · exact .ok (.modThr hq)

theorem Leaves.chClose {t f} (h : s.pkg.Canonical) : Leaves (execChClose t f s) :=
  .of_run (.issue h (fun _ _ h1 => .ite .fault (.ok (.closeConn (.setConn h1)))))

theorem Leaves.chPoll {t f} (h : s.pkg.Canonical) : Leaves (execChPoll t f s) := .of_run (.issue h (fun _ _ h1 => .ite .fault (.ok (.setThr h1))))

theorem Leaves.sumpAdd {t f} (h : s.pkg.Canonical) : Leaves (execSumpAdd t f s) := by
  unfold Machine.execSumpAdd
  refine .of_run (.issue h ?_)
  intro _ _ h1
  extract_lets _ _ _ _ _
  refine .ite .fault (.ite .fault ?_)
  split
  · exact .fault
  · exact .ite (.stop (.spPoison h1)) (.ite .fault (.stageEff (.spRead h1)))

theorem IRes.Canonical.stageSync {t op d a b} (h : p.Canonical) : (stageSync p t op d a b).Canonical := .ite .fault (.ite .fault (.stageEff h))
theorem Leaves.signal {t f} (h : s.pkg.Canonical) : Leaves (execSignal t f s) := .of_run (.issue h (fun _ _ h1 => .stageSync h1))
theorem Leaves.arm {t f} (h : s.pkg.Canonical) : Leaves (execArm t f s) := .of_run (.issue h (fun _ _ h1 => .stageSync h1))
theorem Leaves.cas {t f} (h : s.pkg.Canonical) : Leaves (execCas t f s) := .of_run (.issue h (fun _ _ h1 => .stageSync h1))

theorem IRes.Canonical.askSync {t th op d a rd} (h : p.Canonical) : (askSync p t th op d a rd).Canonical :=
  .ite .fault (.ite .fault (.wait (.request h)))

theorem Leaves.wait {t f} (h : s.pkg.Canonical) : Leaves (execWait t f s) := .of_run (.issue h (fun _ _ h1 => .askSync h1))
theorem Leaves.read {t f} (h : s.pkg.Canonical) : Leaves (execRead t f s) := .of_run (.issue h (fun _ _ h1 => .askSync h1))

theorem Leaves.rndx {t f} (h : s.pkg.Canonical) : Leaves (execRndx t f s) := by
  unfold Machine.execRndx
  refine .of_run (.issue h ?_)
  intro _ _ h1
  extract_lets _ _ _ _ _ _ _ q
  have hq : q.Canonical := .modPos h1
  refine .ite .fault (.ite .fault ?_)
  split
  · exact .fault
  · split
    · exact .fault
    · exact .ite .fault (.ok (.spStore hq))

theorem Leaves.commit {t f} (h : s.pkg.Canonical) : Leaves (execCommit t f s) :=
  .of_run (.issue h (fun _ _ h1 => .ite .fault (.ite .fault (.ite (.stop (.spPoison h1)) (.wait (.setThr (.modSlot (.modPos (.spReads h1)))))))))

theorem Leaves.fence {t f} (h : s.pkg.Canonical) : Leaves (execFence t f s) :=
  .of_run (.issue h (fun _ _ h1 => .ite .fault (.ite (.ok h1) (.again h1))))

theorem Leaves.waittag {t f} (h : s.pkg.Canonical) : Leaves (execWaittag t f s) := .of_run (.issue h (fun _ _ h1 => .ite (.ok h1) (.again h1)))

theorem Leaves.done {t f} (h : s.pkg.Canonical) : Leaves (execDone t f s) :=
  .of_run (.issue h (fun _ _ h1 => .ite .fault (.ite (.again h1) (.stop (.swapEval (.ctxEval (.tryEnd (.countIssue (.modThr h1)))))))))

theorem Leaves.yield {t f} (h : s.pkg.Canonical) : Leaves (execYield t f s) := .of_run (.issue h (fun _ _ h1 => .yield h1))

/-! ## Health -/

theorem Pkg.Canonical.pkgTo {st} (h : p.Canonical) : (p.pkgTo st).Canonical := .ite h (.raise (h.same rfl))
theorem Pkg.Canonical.floorEval (h : p.Canonical) : (p.floorEval).Canonical := .ite (.pkgTo (.raise h)) (.ite (.pkgTo (.raise h)) h)

theorem Pkg.Canonical.qpError {n} (h : p.Canonical) : (p.qpError n).Canonical := by
  unfold Pkg.qpError
  extract_lets _ _ q1 q2
  have hq1 : q1.Canonical := h.same rfl
  have hq2 : q2.Canonical := .setFlag hq1
  refine .ite h ?_
  split
  · exact .modIng hq2
  · exact hq2

theorem Pkg.Canonical.ethTo {up} (h : p.Canonical) : (p.ethTo up).Canonical := by
  unfold Pkg.ethTo
  refine .ite h ?_
  extract_lets _ q1 q2
  have hq1 : q1.Canonical := h.same rfl
  have hq2 : q2.Canonical := .raise (.setFlag hq1)
  exact .ite hq2 (.foldl (fun _ _ h1 => .qpError h1) hq2)

theorem Pkg.Canonical.killOn {on} (h : p.Canonical) : (p.killOn on).Canonical := by
  unfold Pkg.killOn
  refine .foldl ?_ h
  intro q1 _ h1
  refine .foldl ?_ h1
  intro q2 _ h2
  split
  · exact .ite (.ctxEval (.killItem h2)) h2
  · exact h2

theorem Pkg.Canonical.closeCoreEps {g} (h : p.Canonical) : (p.closeCoreEps g).Canonical := .foldl (fun _ _ h1 => .closeEp h1) h

/-! ## Core events -/

theorem Leaves.issueQuantumExpiry {c} (h : s.pkg.Canonical) : Leaves (execIssueQuantumExpiry c s) := .of_run (.ite (.setCore h) h)

theorem Leaves.icacheMissFill {t} (h : s.pkg.Canonical) : Leaves (execIcacheMissFill t s) :=
  .of_run (.ite (.resume h) (.ite (.blockThr (.bump (.modCore h))) h))

theorem Pkg.Canonical.bgFault {t b cause} (h : p.Canonical) : (p.bgFault t b cause).Canonical := .thrFault h
theorem Pkg.Canonical.windowRead {a n} (h : p.Canonical) : (p.windowRead a n).Canonical := .ite (.spRead h) h

theorem Pkg.Canonical.bgLoad {t b a n hint es k} (h : p.Canonical) (hk : ∀ x1 x2, x1.Canonical → (k x1 x2).Canonical) :
  (p.bgLoad t b a n hint es k).Canonical := by
  unfold Pkg.bgLoad
  split
  · exact h
  · exact .bgFault h
  · exact .bgFault h
  · exact .ite (.bgFault (.setFlag h)) (.ite (.bgFault (.memRead h)) (.endBg (hk _ _ (.countMem (.windowRead (.memRead h))))))

theorem Pkg.Canonical.bgStore {t b a bs hint es} (h : p.Canonical) : (p.bgStore t b a bs hint es).Canonical := by
  unfold Pkg.bgStore
  split
  · exact h
  · exact .bgFault h
  · exact .bgFault h
  · exact .endBg (.countMem (.noteEgress (.memWrite h)))

theorem Pkg.Canonical.bgComplete {t b es} (h : p.Canonical) : (p.bgComplete t b es).Canonical := by
  unfold Pkg.bgComplete
  extract_lets _
  split
  · exact .bgLoad h (fun _ _ h1 => .spStore h1)
  · refine .bgLoad h ?_
    intro _ _ h2
    split
    · exact .ite (.resume h2) h2
    · exact h2
  · exact .ite (.ite h (.bgFault (.setFlag h))) (.ite (.bgStore (.spRead h)) (.bgStore h))
  · exact .bgStore h
  · exact h

theorem Leaves.tagComplete {t op e} (h : s.pkg.Canonical) : Leaves (execTagComplete t op e s) := by
  unfold Machine.execTagComplete
  refine .of_run ?_
  split
  · exact h
  · split
    · exact .bgComplete h
    · split
      · exact .bgFault h
      · exact .bgFault h
      · exact .bgFault h
      · exact .bgFault h
      · exact h
    · exact .ite (.bgFault (.setFlag (.modCore h))) h

theorem Leaves.coreRetire {c} (h : s.pkg.Canonical) : Leaves (execCoreRetire c s) :=
  .of_run (.ite h (.floorEval (.raise (.modCore (.closeCoreEps (.killOn (.causeItems h)))))))

theorem Leaves.ringTransfer {c e} (h : s.pkg.Canonical) : Leaves (execRingTransfer c e s) := .of_run (.ite (.epGrants (.ringMove h)) h)

/-! ## Groups and effects -/

theorem Pkg.Canonical.arrive {k kind f} (h : p.Canonical) (hf : ∀ x1, x1.Canonical → (f x1).Canonical) : (p.arrive k kind f).Canonical :=
  .ite h (.ite (.bump h) (hf _ h))

theorem Pkg.Canonical.groupAcked {j g} (h : p.Canonical) : (p.groupAcked j g).Canonical :=
  .ite h (.ite (.modThrOrSaved h) (.wakeCheck (.foldl (fun _ _ h1 => .endBg h1) (.modThr h))))

theorem Pkg.Canonical.pumpGroup {j fuel g} (h : p.Canonical) : (p.pumpGroup j fuel g).2.Canonical := by
  induction fuel generalizing p g with
  | zero => exact h
  | succ fuel ih =>
    unfold Pkg.pumpGroup
    split
    · exact h
    · split
      · exact h
      · exact ih (.request h)

theorem Pkg.Canonical.pumpGo {j done gs} (h : p.Canonical) : (Pkg.pumpGo j done gs p).2.Canonical := by
  induction gs generalizing p done with
  | nil => exact h
  | cons g gs ih =>
    unfold Pkg.pumpGo
    extract_lets before r
    have hr : r.2.Canonical := by
      unfold r
      split
      · exact h
      · exact .pumpGroup h
    exact ih hr

theorem Pkg.Canonical.pump {j} (h : p.Canonical) : (p.pump j).Canonical := .foldl (fun _ _ h1 => .groupAcked h1) (.modSlot (.pumpGo h))
theorem Pkg.Canonical.effAcked {j gid eff} (h : p.Canonical) : (p.effAcked j gid eff).Canonical := .pump (.modSlot h)
theorem Pkg.Canonical.msgAcked {g n o lost} (h : p.Canonical) : (p.msgAcked g n o lost).Canonical := .ite h (.wakeSend (.closeConn (.setConn h)))

theorem Pkg.Canonical.writeFault {g eff cause} (h : p.Canonical) : (p.writeFault g eff cause).Canonical := by
  unfold Pkg.writeFault
  extract_lets _ _
  split
  · split
    · exact .ctxFault (.raise (.bump (.setFlag (.modThrOrSaved h))))
    · exact h
  · split
    · exact .thrFault h
    · exact h

theorem Pkg.Canonical.effLost {k j gid eff} (h : p.Canonical) : (p.effLost k j gid eff).Canonical := by
  unfold Pkg.effLost
  extract_lets _ q
  have hq : q.Canonical := by
    unfold q
    split
    · exact h
    · split
      · exact .msgAcked h
      · exact .ctxFault h
      · exact .writeFault h
      · exact h
  exact .effAcked hq

theorem Leaves.groupReceive {slot idx} (h : s.pkg.Canonical) : Leaves (execGroupReceive slot idx s) := by
  unfold Machine.execGroupReceive
  refine .of_run ?_
  split
  · exact h
  · extract_lets q1 _ q2 _ q3 q4 q5 q6
    have hq1 : q1.Canonical := .modSlot h
    have hq2 : q2.Canonical := .modPos hq1
    have hq3 : q3.Canonical := .modPos hq2
    have hq4 : q4.Canonical := .foldl (fun _ _ h1 => .modConn h1) hq3
    have hq5 : q5.Canonical := .foldl (fun _ _ h2 => .wakeSend (.returnCredit h2)) hq2
    have hq6 : q6.Canonical := .ite (.pump (.bump (.modSlot hq4))) (.ite (.groupAcked (.bump hq5)) (.groupAcked (.bump hq2)))
    exact .tryEnd hq6

theorem Leaves.commitAnswer {t} (h : s.pkg.Canonical) : Leaves (execCommitAnswer t s) := by
  unfold Machine.execCommitAnswer
  refine .of_run ?_
  extract_lets _
  split
  · exact .ite h (.resume h)
  · exact h

theorem Pkg.Canonical.effectResponse {k} (h : p.Canonical) : (p.effectResponse k).Canonical := by
  unfold Pkg.effectResponse
  extract_lets _ _ q1 _ _
  have hq1 : q1.Canonical := .endReq h
  refine .ite h ?_
  split
  · exact .bump h
  · split
    · extract_lets _ _ _ _ q2 q3
      have hq2 : q2.Canonical := .ite (.ctxFault hq1) (.ctxFault (.raise (.bump (.setFlag hq1))))
      have hq3 : q3.Canonical := by
        unfold q3
        refine .ite hq1 ?_
        split
        · exact .writeFault hq1
        · exact hq1
      exact .ite (.effAcked (.msgAcked (.endReq h))) (.ite (.ite (.effLost hq1) (.ite (.effAcked hq2) (.effAcked hq1))) (.ite (h.same rfl)
        (.effAcked hq3)))
    · exact h

theorem Leaves.effectResponseReceive {k} (h : s.pkg.Canonical) : Leaves (execEffectResponseReceive k s) :=
  .of_run (.arrive h (fun _ h1 => .effectResponse h1))

/-! ## Channels, objects and sumps -/

theorem Pkg.Canonical.delivered {k} (h : p.Canonical) : (p.delivered k).Canonical := .answer h

theorem Leaves.chMsgReceive {k} (h : s.pkg.Canonical) : Leaves (execChMsgReceive k s) :=
  .of_run (.arrive h (fun _ h1 => .ite h1 (.ite (.delivered (.wakeRecv (.epGrants (.addCtr (.setEp (.ringPut h1)))))) (.delivered (.bump h1)))))

theorem Leaves.chOpenRequestReceive {k} (h : s.pkg.Canonical) : Leaves (execChOpenRequestReceive k s) :=
  .of_run (.arrive h (fun _ h1 => .ite h1 (.ite (.answer h1) (.openReq h1))))

theorem Leaves.chCloseRequestReceive {k} (h : s.pkg.Canonical) : Leaves (execChCloseRequestReceive k s) :=
  .of_run (.arrive h (fun _ h1 => .ite h1 (.wakeRecv (.epGrants (.setEp h1)))))

theorem Leaves.chAckReceive {k} (h : s.pkg.Canonical) : Leaves (execChAckReceive k s) := by
  unfold Machine.execChAckReceive
  refine .of_run (.arrive h ?_)
  intro _ h1
  extract_lets _ _ _ _ _ _ q1 _ _ q2
  have hq1 : q1.Canonical := .ite (.endReq h1) h1
  have hq2 : q2.Canonical := .wakeSend (.setConn hq1)
  refine .ite h1 (.ite ?_ (.ite hq1 (.ite (.wakeSend (.setConn hq1)) (.ite (.bump hq2) hq2))))
  split
  · exact .ite (h1.same rfl) h1
  · exact .bump h1

theorem Leaves.chOpenRetryTimer {c n} (h : s.pkg.Canonical) : Leaves (execChOpenRetryTimer c n s) := by
  unfold Machine.execChOpenRetryTimer
  refine .of_run ?_
  split
  · exact .ite (.sendOpen (.endReq h)) (.endReq h)
  · exact h

theorem Leaves.chStallExpiry {t} (h : s.pkg.Canonical) : Leaves (execChStallExpiry t s) := by
  unfold Machine.execChStallExpiry
  refine .of_run ?_
  extract_lets _
  split
  · exact .ite h (.thrFault (.raise (.bump h)))
  · exact h

theorem Pkg.Canonical.syncApply {k} (h : p.Canonical) : (p.syncApply k).Canonical := by
  unfold Pkg.syncApply
  refine .arrive h ?_
  intro _ h1
  extract_lets _ _ _ _ _ _ _ ans _ _ q
  have hAns : ∀ x14 x16, x14.Canonical → (ans x14 x16).Canonical := by
    intro _ _ h2
    unfold ans
    exact .answer h2
  have hq : q.Canonical := .bump h1
  exact .ite h1 (.ite (hAns _ _ hq) (.ite (.swapEval (hAns _ _ (.signalObj hq))) (.ite (.swapEval (hAns _ _ (.armObj hq))) (.ite (.swapEval
    (hAns _ _ (.casObj hq))) (.ite (hAns _ _ hq) (.ite (hAns _ _ hq) (.ite (hAns _ _ (.bump hq)) (hq.same rfl))))))))

theorem Leaves.syncRetryTimer {t} (h : s.pkg.Canonical) : Leaves (execSyncRetryTimer t s) := by
  unfold Machine.execSyncRetryTimer
  refine .of_run ?_
  split
  · exact .modThr (.request (.endReq h))
  · exact h

theorem Pkg.Canonical.sumpClose {eng sid} (h : p.Canonical) : (p.sumpClose eng sid).Canonical := .modSync (.modSumpEng h)
theorem Pkg.Canonical.sumpLost {eng sid cause} (h : p.Canonical) : (p.sumpLost eng sid cause).Canonical := .ite (.ctxFault (.sumpClose h)) h

theorem Pkg.Canonical.sumpCloseCtx {c} (h : p.Canonical) : (p.sumpCloseCtx c).Canonical :=
  .foldl (fun _ _ h1 => .foldl (fun _ _ h2 => .ite (.sumpClose h2) h2) h1) h

theorem Pkg.Canonical.modSess {eng sid f} (h : p.Canonical) : (p.modSess eng sid f).Canonical := .modSumpEng h

theorem Pkg.Canonical.sumpWrite {eng sid ctx a bs} (h : p.Canonical) : (p.sumpWrite eng sid ctx a bs).Canonical := by
  unfold Pkg.sumpWrite
  refine .ite (.store h) ?_
  split
  · exact .deviceWrite h
  · exact .modSess (.deviceWrite h)
  · exact .sumpLost (.badAddress h)

theorem Pkg.Canonical.sumpDeliver {eng sid} (h : p.Canonical) : (p.sumpDeliver eng sid).Canonical := by
  unfold Pkg.sumpDeliver
  extract_lets _ _ _ _ _ q1 _ _ _ q2 q3 q4 _ keep _
  have hq1 : q1.Canonical := .modSess (h.same rfl)
  have hq2 : q2.Canonical := .addCtr hq1
  have hq3 : q3.Canonical := .ite hq2 (.setFlag hq2)
  have hq4 : q4.Canonical := .ite (.nonfinite hq3) hq3
  have hkeep : ∀ y, y.2.Canonical → (keep y).Canonical := fun _ hy => .modSess hy
  exact .ite (.modSess h) (.ite (.ite (.foldl (fun _ _ h => hkeep _ (.request h)) hq4) (.foldl (fun _ _ h => .sumpWrite h) hq4))
    (.ite (.foldl (fun _ _ h => hkeep _ (.request h)) (.deviceRead hq4)) (.sumpLost (.deviceCheck hq4))))

theorem Pkg.Canonical.sumpResume (h : p.Canonical) : (p.sumpResume).Canonical := .foldl (fun _ _ h1 => .foldl (fun _ _ h2 => .sumpDeliver h2) h1) h
theorem Pkg.Canonical.sumpAck {k obj res} (h : p.Canonical) : (p.sumpAck k obj res).Canonical := .answer h

theorem Pkg.Canonical.sumpDrop {k eng obj ctx mismatch} (h : p.Canonical) : (p.sumpDrop k eng obj ctx mismatch).Canonical :=
  .sumpAck (.raise (.setFlag (.bump h)))

theorem Leaves.sumpAddPacket {k} (h : s.pkg.Canonical) : Leaves (execSumpAddPacket k s) := by
  unfold Machine.execSumpAddPacket
  refine .of_run (.arrive h fun p hp => ?_)
  refine .ite hp (.ite hp (.ite (.sumpAck (.bump hp)) ?_))
  extract_lets found free lap opened
  have hopened : ∀ i q, opened = some (i, q) → q.Canonical := by
    intro i q hq
    unfold opened at hq
    clear_value found
    split at hq
    · obtain ⟨rfl, rfl⟩ := Prod.mk.inj (Option.some.inj hq)
      exact hp
    · clear_value free
      split at hq
      · split at hq
        · cases hq
        · obtain ⟨rfl, rfl⟩ := Prod.mk.inj (Option.some.inj hq)
          exact .modSync (.modSumpEng hp)
      · cases hq
  clear_value opened
  split
  · exact .sumpDrop hp
  next i q =>
    have hq : q.Canonical := hopened _ _ rfl
    extract_lets ss r times q1 q2 q3 q4 q5
    have hq1 : q1.Canonical := .modSumpEng hq
    have hq2 : q2.Canonical := .addCtr (.addCtr hq1)
    have hq3 : q3.Canonical := .ite hq2 (.setFlag hq2)
    have hq4 : q4.Canonical := .foldl (fun _ _ h => .signalObj h) hq3
    have hq5 : q5.Canonical := .ite (.sumpDeliver hq4) hq4
    exact .ite (.sumpDrop hq) (.sumpAck hq5)

theorem Pkg.Canonical.sumpDone {eng sess} (h : p.Canonical) : (p.sumpDone eng sess).Canonical :=
  .ite h (.swapEval (.sumpClose (.ite (.request h) (.signalObj h))))

/-! ## Memory instructions -/

theorem Pkg.Canonical.remoteRead {t bg fab addr off n hint} (h : p.Canonical) : (p.remoteRead t bg fab addr off n hint).Canonical :=
  .foldl (fun _ _ h1 => .request h1) h

theorem Leaves.lds {t f} (h : s.pkg.Canonical) : Leaves (execLds t f s) := by
  unfold Machine.execLds
  refine .of_run (.issue h ?_)
  intro _ _ h1
  extract_lets _ _
  split
  · exact .fault
  · exact .ite (.ite (.stop (.spPoison h1)) (.ok (.spRead (.setThr h1)))) (.wait (.setThr h1))

theorem Leaves.sts {t f} (h : s.pkg.Canonical) : Leaves (execSts t f s) := by
  unfold Machine.execSts
  refine .of_run (.issue h ?_)
  intro _ _ h1
  refine .needTag h1 (.ite ?_ ?_)
  · split
    · exact .fault
    · exact .stageEff h1
  · split
    · exact .fault
    · exact .ok (.setThr h1)

theorem Leaves.mld {t f} (h : s.pkg.Canonical) : Leaves (execMld t f s) := by
  unfold Machine.execMld
  refine .of_run (.issue h ?_)
  intro _ _ h1
  refine .needTag h1 ?_
  extract_lets _ _ _ _ _ _
  split
  · exact .fault
  · exact .ite (.ok (.remoteRead (.setThr h1))) (.ok (.setThr h1))

theorem Leaves.mst {t f} (h : s.pkg.Canonical) : Leaves (execMst t f s) := by
  unfold Machine.execMst
  refine .of_run (.issue h ?_)
  intro _ _ h1
  refine .needTag h1 ?_
  extract_lets _ _ _ _ _ _
  split
  · exact .fault
  · exact .ite (.stageEff h1) (.ok (.setThr h1))

theorem Leaves.pref {t f} (h : s.pkg.Canonical) : Leaves (execPref t f s) := by
  unfold Machine.execPref
  refine .of_run (.issue h ?_)
  intro _ _ h1
  extract_lets _ _
  split
  · exact .fault
  · exact .ite (.ok h1) (.ok (.lastUse (.devTouch h1)))

theorem Pkg.Canonical.stashExhausted {t pc inst} (h : p.Canonical) : (p.stashExhausted t pc inst).Canonical := .thrFaultAs (.raise h)

theorem Leaves.stashAlloc {t f} (h : s.pkg.Canonical) : Leaves (execStashAlloc t f s) := by
  unfold Machine.execStashAlloc
  refine .of_run (.issue h ?_)
  intro _ _ h1
  extract_lets _ _ _ _ _ _ _
  refine .ite .fault (.ite .fault ?_)
  split
  next _ q1 e1 =>
    have hq1 : q1.Canonical := .of_eq e1 (.stashAlloc h1)
    exact .ok (.modThr hq1)
  next q2 e2 =>
    have hq2 : q2.Canonical := .of_eq e2 (.stashAlloc h1)
    exact .ok (.modThr hq2)
  next q3 e3 =>
    have hq3 : q3.Canonical := .of_eq e3 (.stashAlloc h1)
    exact .wait (.modSlot hq3)
  next q4 e4 =>
    have hq4 : q4.Canonical := .of_eq e4 (.stashAlloc h1)
    exact .ite (.stop (.stashExhausted hq4)) (.wait (.ite (.setFlag (.modSlot hq4)) (.sendGrant (.setFlag (.modSlot hq4)))))

theorem Leaves.stashFind {t f} (h : s.pkg.Canonical) : Leaves (execStashFind t f s) := by
  unfold Machine.execStashFind
  refine .of_run (.issue h ?_)
  intro _ _ h1
  extract_lets _ _ _ _ _
  split
  · exact .ok (.modThr h1)
  · exact .ite (.wait (.modSlot h1)) (.ok (.modThr h1))

end Sys2Proof.Machine
end

