-- ==== Sys2Proof/Proofs/CanonicalSlots.lean ====
section
/-! Slot traffic, securing, resharding, steps and answers keep memory canonical. -/

namespace Sys2Proof.Machine

variable {p q : Pkg} {s : State}

/-! ## Events of slots -/

theorem Pkg.Canonical.fromSender {k f} (h : p.Canonical) (hf : ∀ x1 x2 x3, (f x1 x2 x3).Canonical) : (p.fromSender k f).Canonical :=
  .ite h (.ite (.setFlag (.bump h)) (.ite h (.ite (.bump h) (hf _ _ _))))

theorem Pkg.Canonical.openHead {j q hd} (h : p.Canonical) : (p.openHead j q hd).Canonical := by
  unfold Pkg.openHead
  extract_lets _ _ q1 q2
  have hq1 : q1.Canonical := .phaseTick h
  have hq2 : q2.Canonical := .modIng hq1
  exact .ite h (.ite (.ctxFault (.raise (.setFlag (.bump h)))) (.ite (.modSlot hq2) hq2))

theorem Pkg.Canonical.sendPage {peer peerSlot q page bs} (h : p.Canonical) : (p.sendPage peer peerSlot q page bs).Canonical :=
  .foldl (fun _ _ h1 => .send h1) h

theorem Pkg.Canonical.kvSend {j b page0} (h : p.Canonical) : (p.kvSend j b page0).2.Canonical := by
  unfold Pkg.kvSend
  extract_lets _ _ q1 q2
  have hq1 : q1.Canonical := .send h
  have hq2 : q2.Canonical := .foldl (fun _ _ h1 => .sendPage h1) hq1
  exact hq2

theorem Pkg.Canonical.kvForward {j} (h : p.Canonical) : (p.kvForward j).Canonical := by
  unfold Pkg.kvForward
  split
  · exact h
  · exact .ite h (.modSlot (.setEgr (.kvSend h)))

theorem Pkg.Canonical.kvFree {j} (h : p.Canonical) : (p.kvFree j).Canonical := .grantCheck (.modSlot h)

theorem Pkg.Canonical.kvResend {j hit} (h : p.Canonical) : (p.kvResend j hit).Canonical := by
  unfold Pkg.kvResend
  split
  · exact h
  · exact .bump (.modSlot (.kvSend h))

theorem Pkg.Canonical.creditViol {j page} (h : p.Canonical) : (p.creditViol j page).Canonical := .raise (.setFlag (.bump h))

theorem Pkg.Canonical.landSeg {j q page seg bs} (h : p.Canonical) : (p.landSeg j q page seg bs).Canonical := by
  unfold Pkg.landSeg
  extract_lets _ _ q1 q2
  have hq1 : q1.Canonical := .phaseTick h
  have hq2 : q2.Canonical := .deviceWrite hq1
  refine .ite (.creditViol h) (.ite (.setFlag (.bump h)) ?_)
  split
  · exact h
  · exact .ite (.setFlag (.bump h)) (.ite h (.ite (.kvForward (.modSlot (.modIng hq2))) (.modIng hq2)))

theorem Leaves.pageWriteReceive {k} (h : s.pkg.Canonical) : Leaves (execPageWriteReceive k s) :=
  .of_run (.arrive h (fun _ h1 => .fromSender h1 (fun _ _ _ => .landSeg h1)))

theorem Leaves.mbHeadReceive {k} (h : s.pkg.Canonical) : Leaves (execMbHeadReceive k s) :=
  .of_run (.arrive h (fun _ h1 => .fromSender h1 (fun _ _ _ => .postReady (.openHead h1))))

theorem Leaves.landingPageCommit {slot q page} (h : s.pkg.Canonical) : Leaves (execLandingPageCommit slot q page s) := by
  unfold Machine.execLandingPageCommit
  refine .of_run (.ite h ?_)
  extract_lets _
  split
  · exact h
  · exact .ite h (.swapEval (.ctxEval (.postReady (.modIng h))))

theorem Leaves.creditRepeatTimer {slot q} (h : s.pkg.Canonical) : Leaves (execCreditRepeatTimer slot q s) := .of_run (.ite (.sendGrant h) h)
theorem Pkg.Canonical.egrFree {j q} (h : p.Canonical) : (p.egrFree j q).Canonical := .foldl (fun _ _ h1 => .egrRelease h1) (.setEgr h)

theorem Leaves.creditReceive {k} (h : s.pkg.Canonical) : Leaves (execCreditReceive k s) :=
  .of_run (.arrive h (fun _ h1 => .ite h1 (.ite (.setFlag (.bump h1)) (.ite h1 (.ctxEval (.markHold (.markHold (.ite (.kvForward (.kvFree (.setEgr
  (.phaseTick h1)))) (.egrFree (.setEgr (.phaseTick h1)))))))))))

theorem Leaves.sequencerDispatch {half} (h : s.pkg.Canonical) : Leaves (execSequencerDispatch half s) := by
  unfold Machine.execSequencerDispatch
  refine .of_run ?_
  split
  · exact h
  · exact .dispatchItem h

theorem Leaves.egressPageCommit {slot dir page} (h : s.pkg.Canonical) : Leaves (execEgressPageCommit slot dir page s) := by
  unfold Machine.execEgressPageCommit
  refine .of_run (.ite h ?_)
  split
  · exact h
  · exact .ite h (.swapEval (.tryEnd (.modPos h)))

theorem Pkg.Canonical.streamMb {j q m} (h : p.Canonical) : (p.streamMb j q m).2.Canonical := by
  unfold Pkg.streamMb
  extract_lets _ _ _ _ _ q1 _ _ _ _ q2 _ q3
  have hq1 : q1.Canonical := .ite h (.send h)
  have hq2 : q2.Canonical := .foldl (fun _ _ h1 => .sendPage (.deviceRead h1)) hq1
  have hq3 : q3.Canonical := .ite (.deviceCheck hq2) hq2
  split
  · exact h
  · exact hq3

theorem Pkg.Canonical.streamGo {j q done ms} (h : p.Canonical) : (Pkg.streamGo j q done ms p).2.Canonical := by
  induction ms generalizing p done with
  | nil => exact h
  | cons m ms ih =>
    unfold Pkg.streamGo
    extract_lets r
    have hr : r.2.Canonical := .streamMb h
    split
    · exact hr
    · exact ih hr

theorem Pkg.Canonical.stream {j q} (h : p.Canonical) : (p.stream j q).Canonical := .setEgr (.streamGo h)
theorem Leaves.egressStream {slot dir} (h : s.pkg.Canonical) : Leaves (execEgressStream slot dir s) := .of_run (.ite (.stream h) h)
theorem Pkg.Canonical.mbResend {j q hit} (h : p.Canonical) : (p.mbResend j q hit).Canonical := .ite (.stream (.bump (.setEgr h))) h

theorem Leaves.mbResendTimeout {slot dir} (h : s.pkg.Canonical) : Leaves (execMbResendTimeout slot dir s) := by
  unfold Machine.execMbResendTimeout
  refine .of_run (.ite h ?_)
  split
  · exact .ite (.kvResend h) h
  · exact .mbResend h

theorem Leaves.kvRelayForward {slot} (h : s.pkg.Canonical) : Leaves (execKvRelayForward slot s) := .of_run (.kvForward h)

theorem Pkg.Canonical.lateQueued {j q hit ev} (h : p.Canonical) (hev : ∀ x1 x2, x1.Canonical → (ev x1 x2).Canonical) :
  (p.lateQueued j q hit ev).Canonical := by
  unfold Pkg.lateQueued
  split
  · exact h
  · split
    · exact h
    · exact hev _ _ (.modIng h)

theorem Leaves.deadlineLate {slot backward} (h : s.pkg.Canonical) : Leaves (execDeadlineLate slot backward s) := by
  unfold Machine.execDeadlineLate
  refine .of_run ?_
  extract_lets _ _ _ ev
  have hEv : ∀ x5 x7, x5.Canonical → (ev x5 x7).Canonical := by
    intro _ _ h1
    unfold ev
    exact .raise h1
  split
  · exact .ite (hEv _ _ (.modPos h)) (.lateQueued h (fun _ _ h2 => hEv _ _ h2))
  · exact .lateQueued h (fun _ _ h3 => hEv _ _ h3)

theorem Pkg.Canonical.stashRetry {j ws} (h : p.Canonical) : (p.stashRetry j ws).Canonical := by
  induction ws generalizing p with
  | nil => exact h
  | cons w rest ih =>
    unfold Pkg.stashRetry
    extract_lets mb drop
    have hdrop (q : Pkg) (hq : q.Canonical) : (drop q).Canonical := .modSlot hq
    have hs : (p.stashAlloc j mb w.2.1 w.2.2.1 w.2.2.2).2.Canonical := .stashAlloc h
    split
    next _ q e => exact ih (.resume (hdrop _ (.of_eq e hs)))
    next _ q e => exact ih (.resume (hdrop _ (.of_eq e hs)))
    next _ q e => exact .of_eq e hs
    next _ q e =>
      have hq : q.Canonical := .of_eq e hs
      refine .ite (.stashExhausted hq) (.ite hq ?_)
      extract_lets was q1 q2
      have hq2 : q2.Canonical := .setFlag (.modSlot (hdrop _ hq))
      exact .ite hq2 (.sendGrant hq2)

theorem Leaves.stashWaitGranted {slot} (h : s.pkg.Canonical) : Leaves (execStashWaitGranted slot s) := .of_run (.holdEnd (.stashRetry h))

theorem Pkg.Canonical.findAnswer {j} (h : p.Canonical) : (p.findAnswer j).Canonical := by
  unfold Pkg.findAnswer
  refine .foldl ?_ h
  intro q _ h1
  extract_lets _
  split
  · exact .ite h1 (.resume (.modSlot h1))
  · exact h1

theorem Leaves.spillFetchComplete {slot mb} (h : s.pkg.Canonical) : Leaves (execSpillFetchComplete slot mb s) :=
  .of_run (.ite h (.ite h (.findAnswer (.stashBack (.ite h (.foldl (fun _ _ h1 => .deviceCheck h1) h))))))

theorem Leaves.stashSpillDone {slot mb} (h : s.pkg.Canonical) : Leaves (execStashSpillDone slot mb s) := by
  unfold Machine.execStashSpillDone
  refine .of_run (.ite h (.ite h ?_))
  extract_lets q1 q2
  have hq1 : q1.Canonical := by
    unfold q1
    refine .ite h (.foldl ?_ h)
    intro q3 _ h1
    split
    · exact .copyBytes h1
    · exact .badAddress h1
    · exact .badAddress h1
  have hq2 : q2.Canonical := .modSlot hq1
  exact .stashFetchAll (.stashRetry hq2)

/-! ## Securing -/

theorem Pkg.Canonical.devSync {fab obj op ctx a who} (h : p.Canonical) : (p.devSync fab obj op ctx a who).Canonical := .request h

theorem Pkg.Canonical.devSignal {fab obj ctx v who} (h : p.Canonical) : (p.devSignal fab obj ctx v who).Canonical :=
  .ite (.devSync h) (.signalObj h)

theorem Pkg.Canonical.fillTensors {ts} (h : p.Canonical) : (p.fillTensors ts).Canonical := .foldl (fun _ _ h1 => .modMemDie h1) h

theorem Pkg.Canonical.readChanged {ts n} (h : p.Canonical) : (p.readChanged ts n).2.Canonical := by
  refine .foldl_of Prod.snd (fun a _ ha => .foldl_of Prod.snd (fun b x hb => ?_) ha) h
  split
  · exact .modMemDie hb
  · exact hb

theorem Pkg.Canonical.takeDirty {t par} (h : p.Canonical) : (p.takeDirty t par).2.Canonical := by
  unfold Pkg.takeDirty
  extract_lets _ _
  exact .foldl (fun _ _ h1 => .setDirty h1) h

theorem Pkg.Canonical.sendJournal {n t par step pages counted} (h : p.Canonical) : (p.sendJournal n t par step pages counted).Canonical := by
  unfold Pkg.sendJournal
  extract_lets _ q _
  have hq : q.Canonical := .foldl (fun _ _ h1 => .foldl (fun _ _ h2 => .request h2) (.deviceRead h1)) h
  exact .ite (hq.same rfl) hq

theorem Leaves.journalPageReceive {fab tensor page step data} (h : s.pkg.Canonical) : Leaves
  (execJournalPageReceive fab tensor page step data s) := .of_run (.ite h (.bump (h.same rfl)))

theorem Pkg.Canonical.startCapture {n} (h : p.Canonical) : (p.startCapture n).Canonical := by
  unfold Pkg.startCapture
  extract_lets _ _ _ _ _ q1 q2 q3
  have hq1 : q1.Canonical := h.same rfl
  have hq2 : q2.Canonical := .foldl (fun _ _ h1 => .raise (.setFlag h1)) hq1
  have hq3 : q3.Canonical := .foldl (fun _ _ h2 => .store h2) hq2
  refine .foldl ?_ hq3
  intro q4 _ h3
  split
  · exact .ite (.sendJournal h3) h3

theorem Pkg.Canonical.sendPart {a d} (h : p.Canonical) : (p.sendPart a d).Canonical := by
  unfold Pkg.sendPart
  extract_lets _ _ _ _ _ _ _
  refine .foldl ?_ h
  intro q1 _ h1
  extract_lets _ q2 _
  have hq2 : q2.Canonical := .foldl (fun _ _ h2 => .request h2) h1
  exact hq2.same rfl

theorem Leaves.captureLocalCopyDone (h : s.pkg.Canonical) : Leaves (execCaptureLocalCopyDone s) := by
  unfold Machine.execCaptureLocalCopyDone
  refine .of_run ?_
  extract_lets _
  split
  · exact h
  · refine .ite h (.ite h ?_)
    extract_lets q1 _ q2
    have hq1 : q1.Canonical := by
      unfold q1
      refine .foldl ?_ h
      intro q3 _ h1
      split
      · exact .ite (.copyBytes (.deviceCheck h1)) h1
    have hq2 : q2.Canonical := hq1.same rfl
    exact .foldl (fun _ _ h2 => .sendPart h2) hq2

theorem Pkg.Canonical.parityPart {k} (h : p.Canonical) : (p.parityPart k).Canonical := by
  unfold Pkg.parityPart
  extract_lets _ _ _ _ _ _ _
  split
  · exact .bump h
  · extract_lets e
    clear_value e
    split
    · refine .ite (.bump h) ?_
      extract_lets _ q1 _ q2
      have hq1 : q1.Canonical := .addCtr (.store h)
      have hq2 : q2.Canonical := hq1.same rfl
      exact .answer hq2
    · exact .bump h

theorem Leaves.parityPartReceive {k} (h : s.pkg.Canonical) : Leaves (execParityPartReceive k s) :=
  .of_run (.arrive h (fun _ h1 => .ite h1 (.parityPart h1)))

theorem Pkg.Canonical.captureAck {step journal ok refused} (h : p.Canonical) : (p.captureAck step journal ok refused).Canonical := by
  unfold Pkg.captureAck
  extract_lets _ q _
  have hq : q.Canonical := by
    unfold q
    split
    · exact .ite (.raise (.setFlag (h.same rfl))) h
    · exact h
  exact hq.same rfl

theorem Pkg.Canonical.captureDone {step} (h : p.Canonical) : (p.captureDone step).Canonical := by
  unfold Pkg.captureDone
  extract_lets _
  split
  · exact h
  · exact .ite h (.raise (.setFlag (.bump (h.same rfl))))

theorem Pkg.Canonical.planNext {step} (h : p.Canonical) : (p.planNext step).Canonical := h.same rfl

theorem Leaves.captureReport (h : s.pkg.Canonical) : Leaves (execCaptureReport s) := by
  unfold Machine.execCaptureReport
  refine .of_run (.ite h ?_)
  extract_lets _ q1 _ _ q2 _
  have hq1 : q1.Canonical := h.same rfl
  have hq2 : q2.Canonical := .devSignal hq1
  exact .ite (.ite (.planNext (.captureDone (.setObj hq1))) (.ite (hq1.same rfl) hq1)) (.ite (hq2.same rfl) hq2)

theorem Pkg.Canonical.stopCapture {step} (h : p.Canonical) : (p.stopCapture step).Canonical := by
  unfold Pkg.stopCapture
  split
  · exact .ite (.dropReqs (h.same rfl)) h
  · exact h

theorem Leaves.captureAbandon (h : s.pkg.Canonical) : Leaves (execCaptureAbandon s) := by
  unfold Machine.execCaptureAbandon
  refine .of_run (.ite h ?_)
  extract_lets q1 q2 _
  have hq1 : q1.Canonical := .raise (.setFlag (.bump h))
  have hq2 : q2.Canonical := .setObj hq1
  exact hq2.same rfl

theorem Pkg.Canonical.capRead {n v} (h : p.Canonical) : (p.capRead n v).Canonical := .ite (.startCapture h) (.ite (.stopCapture h) h)
theorem Pkg.Canonical.doneRead {v} (h : p.Canonical) : (p.doneRead v).Canonical := .ite h (.captureDone h)

theorem Pkg.Canonical.orderCapture {c n} (h : p.Canonical) : (p.orderCapture c n).Canonical := by
  unfold Pkg.orderCapture
  extract_lets _ q _
  have hq : q.Canonical := .setObj h
  exact .ite (hq.same rfl) h

theorem Pkg.Canonical.secVerdict1 {c n} (h : p.Canonical) : (p.secVerdict1 c n).Canonical := by
  unfold Pkg.secVerdict1
  extract_lets _ _ _ q1 q2 _
  have hq1 : q1.Canonical := h.same rfl
  have hq2 : q2.Canonical := by
    unfold q2
    refine .foldl ?_ hq1
    intro q3 _ h1
    split
    · extract_lets q4 q5 _ q6 q7
      have hq4 : q4.2.Canonical := .readChanged h1
      have hq5 : q5.Canonical := hq4
      have hq6 : q6.Canonical := hq5.same rfl
      have hq7 : q7.2.Canonical := .takeDirty hq6
      exact .ite (.sendJournal hq7) hq7
  exact .ite h (.ite (.doneRead (.capRead hq2)) (.devSync (.devSync hq2)))

theorem Pkg.Canonical.takeObj {half ctr} (h : p.Canonical) : (p.takeObj half ctr).2.Canonical := by
  unfold Pkg.takeObj
  extract_lets _
  exact .setSync h

theorem Pkg.Canonical.freeVers {j} (h : p.Canonical) : (p.freeVers j).Canonical := .foldl (fun _ _ h1 => .ite h1 (.freeObj (.setVer h1))) h

theorem Pkg.Canonical.restoreApply {x ctx step sl bad codes results} (h : p.Canonical) :
  (p.restoreApply x ctx step sl bad codes results).Canonical := by
  unfold Pkg.restoreApply
  extract_lets _ _ _ _ q1 q2 q3 q4 q5 _ q6 q7
  have hq1 : q1.Canonical := by
    unfold q1
    refine .foldl ?_ h
    intro q8 _ h1
    split
    · extract_lets _ _
      split
      · exact .copyBytes h1
      · exact .store h1
      · exact .store h1
      · exact h1
  have hq2 : q2.Canonical := .ite (.foldl (fun _ _ h2 => .storeFree h2) hq1) hq1
  have hq3 : q3.Canonical := by
    unfold q3
    refine .ite (.foldl ?_ hq2) hq2
    intro q9 _ h3
    split
    · exact .ite h3 (.raise (.setFlag (.store h3)))
    · exact h3
  have hq4 : q4.Canonical := .modCtx hq3
  have hq5 : q5.Canonical := .foldl (fun _ _ h4 => .setVer (.takeObj (.freeVers h4))) hq4
  have hq6 : q6.Canonical := hq5.same rfl
  have hq7 : q7.Canonical := .setObj hq6
  exact .setFlag (.bump hq7)

theorem Leaves.restoreComplete {ctx results} (h : s.pkg.Canonical) : Leaves (execRestoreComplete ctx results s) := by
  unfold Machine.execRestoreComplete
  refine .of_run ?_
  extract_lets _ _ finish q1 _
  have hFinish : ∀ x6 x8 x9, x6.Canonical → (finish x6 x8 x9).Canonical := by
    intro _ _ _ h1
    unfold finish
    exact .replyWaiting (h1.same rfl)
  have hq1 : q1.Canonical := h
  split
  · exact h
  · refine .ite h ?_
    extract_lets _ _ _ _ _ _ q2 q3 q4 _ _ _
    have hq2 : q2.Canonical := .deviceWrite h
    have hq3 : q3.Canonical := .ite (.ctxFault (.raise hq2)) hq2
    have hq4 : q4.Canonical := .deviceRead hq3
    exact .ite (hFinish _ _ _ (.setFlag hq3)) (.ite (hFinish _ _ _ hq4) (.ite (hFinish _ _ _ hq1) (hFinish _ _ _ (.restoreApply hq4))))

/-! ## Resharding -/

theorem Pkg.Canonical.modReshard {c f} (h : p.Canonical) : (p.modReshard c f).Canonical := .modCtx h
theorem Pkg.Canonical.reshardStop {c} (h : p.Canonical) : (p.reshardStop c).Canonical := .dropReqs (.modReshard h)
theorem Pkg.Canonical.reshardFail {c} (h : p.Canonical) : (p.reshardFail c).Canonical := .raise (.modReshard (.reshardStop h))

theorem Pkg.Canonical.reshardRead {c} (h : p.Canonical) : (p.reshardRead c).Canonical := by
  unfold Pkg.reshardRead
  extract_lets _ _
  split
  · extract_lets _ _ _ _
    refine .ite h (.ite (.reshardFail h) ?_)
    split
    · exact h
    · exact .ite (.reshardFail h) (.modReshard (.copyBytes h))
    · exact .reshardFail h
  · exact h

theorem Pkg.Canonical.reshardSend {c w} (h : p.Canonical) : (p.reshardSend c w).Canonical := by
  unfold Pkg.reshardSend
  extract_lets _ _ _ _ _ _ q
  have hq : q.Canonical := .foldl (fun _ _ h1 => .request h1) h
  exact .ite (.modReshard hq) (.ite (.modReshard (.copyBytes h)) (.reshardFail h))

theorem Pkg.Canonical.reshardWrite {c} (h : p.Canonical) : (p.reshardWrite c).Canonical := by
  unfold Pkg.reshardWrite
  extract_lets _
  split
  · exact .reshardSend (.modReshard h)
  · exact h

theorem Pkg.Canonical.reshardCheck {c} (h : p.Canonical) : (p.reshardCheck c).Canonical := .ite (.raise (.modReshard h)) h

theorem Pkg.Canonical.reshardAdvance {c} (h : p.Canonical) : (p.reshardAdvance c).Canonical := by
  unfold Pkg.reshardAdvance
  refine .ite h (.ite (.reshardCheck h) ?_)
  extract_lets q
  have hq : q.Canonical := .reshardWrite (.reshardRead h)
  exact .reshardCheck (.ite (.reshardRead hq) hq)

theorem Pkg.Canonical.reshardAll (h : p.Canonical) : (p.reshardAll).Canonical := .foldl (fun _ _ h1 => .reshardAdvance h1) h

theorem Pkg.Canonical.reshardAcked {c w} (h : p.Canonical) : (p.reshardAcked c w).Canonical :=
  .ite (.modReshard h) (.devSignal (.modReshard (.modReshard h)))

theorem Leaves.reshardChunkAck {ctx status pathLost} (h : s.pkg.Canonical) : Leaves (execReshardChunkAck ctx status pathLost s) := by
  unfold Machine.execReshardChunkAck
  refine .of_run ?_
  extract_lets _
  split
  · exact h
  · exact .ite h (.ite (.reshardFail h) (.ite (.ite (.reshardFail h) (.reshardSend (.modReshard h))) (.reshardAdvance (.reshardAcked h))))

theorem Pkg.Canonical.reshardPkt {c status lost} (h : p.Canonical) : (p.reshardPkt c status lost).Canonical :=
  .ite (.reshardFail h) (.modReshard (.ite (.bump h) h))

theorem Leaves.syncOpApply {k} (h : s.pkg.Canonical) : Leaves (execSyncOpApply k s) := .of_run (.reshardAll (.syncApply h))

theorem Leaves.sumpDeliveryComplete {half engine sess} (h : s.pkg.Canonical) : Leaves (execSumpDeliveryComplete half engine sess s) :=
  .of_run (.ite h (.reshardAll (.sumpDone h)))

theorem Pkg.Canonical.rebind {b} (h : p.Canonical) : (p.rebind b).Canonical := by
  unfold Pkg.rebind
  extract_lets _ _ q1 q2
  have hq1 : q1.Canonical := .ite (.releaseSlot h) h
  have hq2 : q2.Canonical := .modSlot hq1
  exact .ite (.reserveSlot hq2) hq2

theorem Pkg.Canonical.reshardEnd {c commit} (h : p.Canonical) : (p.reshardEnd c commit).Canonical :=
  .ite h (.modReshard (.ite (.foldl (fun _ _ h1 => .rebind h1) (.setObj (.reshardStop h))) (.reshardStop h)))

/-! ## Steps -/

theorem Pkg.Canonical.modStep {c f} (h : p.Canonical) : (p.modStep c f).Canonical := .modCtx h
theorem Pkg.Canonical.trackEnd {c v} (h : p.Canonical) : (p.trackEnd c v).Canonical := .modCtx (.foldl (fun _ _ h1 => .ite h1 (.store h1)) h)

theorem Pkg.Canonical.versEnd {j commit} (h : p.Canonical) : (p.versEnd j commit).Canonical := by
  unfold Pkg.versEnd
  split
  · exact h
  · extract_lets _ old q
    have hq : q.Canonical := .signalObj (.setVer h)
    refine .ite (.freeObj (.setVer h)) ?_
    clear_value old
    split
    · exact hq
    · exact .retireCheck (.signalObj (.setVer hq))

theorem Pkg.Canonical.egrDrop {j q n} (h : p.Canonical) : (p.egrDrop j q n).Canonical := .foldl (fun _ _ h1 => .egrRelease h1) (.setEgr h)

theorem Pkg.Canonical.stashDrop {j} (h : p.Canonical) : (p.stashDrop j).Canonical :=
  .dropReqs (.holdEnd (.modSlot (.foldl (fun _ _ h1 => .unref h1) h)))

theorem Pkg.Canonical.dropStep {j n} (h : p.Canonical) : (p.dropStep j n).Canonical := by
  unfold Pkg.dropStep
  extract_lets q1 q2 q3
  have hq1 : q1.Canonical := .discardSlot h
  have hq2 : q2.Canonical := .discardQueued hq1
  have hq3 : q3.Canonical := .egrDrop (.egrDrop hq2)
  exact .modSlot (.stashDrop hq3)

theorem Pkg.Canonical.cursorsEnd {c v} (h : p.Canonical) : (p.cursorsEnd c v).Canonical := by
  unfold Pkg.cursorsEnd
  extract_lets _ _
  refine .ite (.modStep h) (.foldl ?_ (.foldl ?_ h))
  · intro q1 _ h1
    split
    · exact .ite h1 (.store h1)
    · exact h1
  · intro q2 _ h2
    split
    · exact .ite (.store h2) h2
    · exact h2

theorem Pkg.Canonical.applyVerdict {c v forced} (h : p.Canonical) : (p.applyVerdict c v forced).Canonical := by
  unfold Pkg.applyVerdict
  extract_lets _ _ _ q1 _ q2 q3 q4 _ q5 q6 q7 q8 _ q9 _ q10 q11 q12 q13 q14 q15
  have hq1 : q1.Canonical := .foldl (fun _ _ h1 => .phaseTick h1) h
  have hq2 : q2.Canonical := .ite hq1 (.sumpCloseCtx (.foldl (fun _ _ h2 => .dropStep h2) hq1))
  have hq3 : q3.Canonical := .foldl (fun _ _ h3 => .versEnd h3) hq2
  have hq4 : q4.Canonical := .reshardEnd hq3
  have hq5 : q5.Canonical := .cursorsEnd (.trackEnd hq4)
  have hq6 : q6.Canonical := .modStep hq5
  have hq7 : q7.Canonical := .foldl (fun _ _ h4 => .modSync h4) hq6
  have hq8 : q8.Canonical := .dropReqs hq7
  have hq9 : q9.Canonical := .ite hq8 (.store hq8)
  have hq10 : q10.Canonical := .ite (hq9.same rfl) hq9
  have hq11 : q11.Canonical := .ite (.secVerdict1 hq10) hq10
  have hq12 : q12.Canonical := .replyWaiting hq11
  have hq13 : q13.Canonical := .foldl (fun _ _ h5 => .replyWaiting h5) hq12
  have hq14 : q14.Canonical := .bump (.raise hq13)
  have hq15 : q15.Canonical := .foldl (fun _ _ h6 => .foldl (fun _ _ h7 => .postReady h7) h6) hq14
  exact .ctxEval hq15

theorem Pkg.Canonical.voteCount {c} (h : p.Canonical) : (p.voteCount c).Canonical := .devSync (.devSync h)
theorem Pkg.Canonical.voteWait {c} (h : p.Canonical) : (p.voteWait c).Canonical := .devSync h

theorem Pkg.Canonical.vote {c other missing} (h : p.Canonical) : (p.vote c other missing).Canonical := by
  unfold Pkg.vote
  extract_lets _ _ _ _ _ q1 _ q2
  have hq1 : q1.Canonical := .modStep h
  have hq2 : q2.Canonical := .ite (.orderCapture hq1) hq1
  exact .ite (.modStep (.setObj hq2)) (.ite (.devSync hq1) (.voteCount hq1))

theorem Leaves.sealVote {ctx} (h : s.pkg.Canonical) : Leaves (execSealVote ctx s) := .of_run (.ite h (.vote h))

theorem Leaves.sealLimitExpiry {ctx} (h : s.pkg.Canonical) : Leaves (execSealLimitExpiry ctx s) :=
  .of_run (.ite h (.vote (.ite (.bump (.raise h)) h)))

theorem Pkg.Canonical.verdictGot {c value} (h : p.Canonical) : (p.verdictGot c value).Canonical := .ite h (.modStep (.setObj h))
theorem Leaves.verdictApply {ctx} (h : s.pkg.Canonical) : Leaves (execVerdictApply ctx s) := .of_run (.ite (.applyVerdict h) h)

/-! ## Answers to requests -/

theorem Pkg.Canonical.retag {tag r} (h : p.Canonical) : (p.retag tag r).Canonical := by
  unfold Pkg.retag
  extract_lets q1 _ _ q2 q3
  have hq1 : q1.2.Canonical := .send (.endReq h)
  have hq2 : q2.Canonical := hq1
  have hq3 : q3.Canonical := hq2.same rfl
  split
  · exact .modThr hq3
  · exact .modSumpEng hq3
  · exact hq3

theorem Pkg.Canonical.memFault {t bg cause} (h : p.Canonical) : (p.memFault t bg cause).Canonical := by
  unfold Pkg.memFault
  split
  · exact .bgFault h
  · exact h

theorem Pkg.Canonical.whoLost {r} (h : p.Canonical) : (p.whoLost r).Canonical := by
  unfold Pkg.whoLost
  split
  · split
    · exact .ite (.thrFault h) h
    · exact h
  · exact .memFault h
  · exact .effLost h
  · exact .ite (.wakeSend (.setConn h)) h
  · exact h
  · exact .sumpLost h
  · exact h
  · exact .ite h (.ite (.voteWait h) h)
  · exact .setFlag (.bump h)
  · exact .captureAck h
  · exact h
  · exact .reshardPkt h
  · exact .request h
  · exact .foldl (fun _ _ h1 => .ite (.thrFault h1) h1) h

theorem Pkg.Canonical.pathLost {tag r} (h : p.Canonical) : (p.pathLost tag r).Canonical := .whoLost (.raise (.setFlag (.bump (.endReq h))))
theorem Pkg.Canonical.lost {tag r} (h : p.Canonical) : (p.lost tag r).Canonical := .ite (.retag (.bump h)) (.pathLost h)

theorem Pkg.Canonical.lostPage {tag} (h : p.Canonical) : (p.lostPage tag).2.Canonical := by
  unfold Pkg.lostPage
  extract_lets hit blk
  refine .foldl_of Prod.snd (fun a j ha => ?_) h
  extract_lets b
  have hb : b.2.Canonical := by
    refine .foldl_of Prod.snd (fun b q hb => ?_) ha
    split
    · exact .mbResend hb
    · exact hb
  split
  · exact .kvResend hb
  · exact hb

theorem Leaves.lossReceive {k} (h : s.pkg.Canonical) : Leaves (execLossReceive k s) := by
  refine .of_run (.arrive h fun p h => ?_)
  extract_lets tag y
  have hy : y.2.Canonical := by
    unfold y
    split
    · exact .lostPage h
    · exact h
  split
  · exact .lost h
  · exact .ite hy (.bump h)

theorem Leaves.responseLimitExpiry {tag} (h : s.pkg.Canonical) : Leaves (execResponseLimitExpiry tag s) := by
  unfold Machine.execResponseLimitExpiry
  refine .of_run ?_
  split
  · exact .ite h (.lost h)
  · exact h

theorem Pkg.Canonical.markRetry {tag r} (h : p.Canonical) : (p.markRetry tag r).Canonical := h.same rfl

theorem Leaves.syncRespReceive {k} (h : s.pkg.Canonical) : Leaves (execSyncRespReceive k s) := by
  unfold Machine.execSyncRespReceive
  refine .of_run (.arrive h ?_)
  intro _ h1
  extract_lets _ _ _ q
  have hq : q.Canonical := .endReq h1
  split
  · exact .bump h1
  · refine .ite (.pathLost h1) ?_
    split
    · exact .effectResponse h1
    · extract_lets _
      split
      · exact .ite (.endReq h1) (.ite (.markRetry h1) (.ite (.thrFault (.endReq h1)) (.resume (.endReq h1))))
      · exact .endReq h1
    · exact .ite (.sumpLost hq) (.modSumpEng hq)
    · exact .ite (.voteCount hq) (.ite (.ite (.voteWait hq) (.ite (.verdictGot hq) hq)) hq)
    · exact .ite hq (.ite (.capRead hq) (.doneRead hq))
    · exact .endReq h1

theorem Pkg.Canonical.memAnswer {t bg off st data} (h : p.Canonical) : (p.memAnswer t bg off st data).Canonical := by
  unfold Pkg.memAnswer
  refine .ite (.memFault h) (.ite (.memFault h) (.ite (.memFault h) ?_))
  split
  · exact h
  · split
    · exact .ite (.endBg (.spStore h)) (.modThr (.spStore h))
    · exact h

theorem Leaves.memRespReceive {k} (h : s.pkg.Canonical) : Leaves (execMemRespReceive k s) := by
  unfold Machine.execMemRespReceive
  refine .of_run (.ite h (.arrive h ?_))
  intro _ h1
  extract_lets _ _ q
  have hq : q.Canonical := .endReq h1
  split
  · exact .bump h1
  · split
    · exact .effectResponse h1
    · exact .reshardPkt (.endReq h1)
    · refine .ite (.markRetry h1) ?_
      split
      · exact .memAnswer hq
      · exact .ite (.modSumpEng hq) (.sumpLost hq)
      · exact .captureAck hq
      · exact .ite hq (.ite (.request hq) (.ctxFault hq))
      · refine .ite ?_ (.ite (.whoLost hq) (.ctxFault hq))
        split
        · exact .store hq
        · exact hq
      · exact hq

theorem Leaves.memRetryTimer {tag} (h : s.pkg.Canonical) : Leaves (execMemRetryTimer tag s) := by
  unfold Machine.execMemRetryTimer
  refine .of_run ?_
  split
  · exact .ite (.retag (.bump h)) h
  · exact h

theorem Pkg.Canonical.stopAll {port} (h : p.Canonical) : (p.stopAll port).Canonical := by
  unfold Pkg.stopAll
  extract_lets q1 _ q2 q3
  have hq1 : q1.Canonical := .raise (.setFlag h)
  have hq2 : q2.Canonical := .foldl (fun _ _ h1 => .ctxFault h1) hq1
  have hq3 : q3.Canonical := .foldl (fun _ _ h2 => .modSlot h2) hq2
  refine .dropReqs (.foldl ?_ hq3)
  intro q4 _ h3
  split
  · exact .ite (.pathLost h3) h3
  · exact h3

end Sys2Proof.Machine
end

