-- ==== Sys2Proof/Proofs/CanonicalLinks.lean ====
section
/-! Ports, memory dies and the package fabric keep memory canonical. -/

namespace Sys2Proof.Machine

variable {p q : Pkg} {s : State}

/-! ## Ports -/

theorem Pkg.Canonical.sendFlit {n f sequenced} (h : p.Canonical) : (p.sendFlit n f sequenced).Canonical := .emit (.setPort h)
theorem Pkg.Canonical.ctlFlit {n m} (h : p.Canonical) : (p.ctlFlit n m).Canonical := .sendFlit (.emit h)

theorem Pkg.Canonical.pumpClass {n c fuel} (h : p.Canonical) : (p.pumpClass n c fuel).Canonical := by
  induction fuel generalizing p with
  | zero => exact h
  | succ fuel ih =>
    unfold Pkg.pumpClass
    extract_lets _
    split
    · exact h
    · refine .ite h ?_
      split
      · exact .ite h (ih (.setPort h))
      · exact ih (.sendFlit (.setPort h))

theorem Pkg.Canonical.pumpTx {n} (h : p.Canonical) : (p.pumpTx n).Canonical := .ite h (.foldl (fun _ _ h1 => .pumpClass h1) h)
theorem Pkg.Canonical.resend {n} (h : p.Canonical) : (p.resend n).Canonical := .foldl (fun _ _ h1 => .emit (.setPort h1)) h
theorem Pkg.Canonical.linkItems {n since} (h : p.Canonical) : (p.linkItems n since).Canonical := .causeItems h
theorem Pkg.Canonical.sendLossFor {src tag kind reason} (h : p.Canonical) : (p.sendLossFor src tag kind reason).Canonical := .send h
theorem Pkg.Canonical.sendLoss {k reason} (h : p.Canonical) : (p.sendLoss k reason).Canonical := .sendLossFor h

theorem Pkg.Canonical.noteList {i half port alt} (h : p.Canonical) : (p.noteList i half port alt).Canonical := by
  unfold Pkg.noteList
  split
  · exact h
  · exact .ite h (.ite (.linkItems (.raise (h.same rfl))) (.raise (h.same rfl)))

theorem Pkg.Canonical.sendOn {n k} (h : p.Canonical) : (p.sendOn n k).Canonical := .ite h (.pumpTx (.emit (.setPort h)))

theorem Pkg.Canonical.leaveBy {i half r lp sub} (h : p.Canonical) : (p.leaveBy i half r lp sub).2.2.Canonical := by
  unfold Pkg.leaveBy
  extract_lets _ _
  exact .noteList h

theorem Pkg.Canonical.sentBy {ingress k n} (h : p.Canonical) : (p.sentBy ingress k n).Canonical := by
  unfold Pkg.sentBy
  split
  · exact h.same rfl
  · exact h

theorem Pkg.Canonical.deliver {ingress k} (h : p.Canonical) : (p.deliver ingress k).Canonical := by
  unfold Pkg.deliver
  split
  · exact h.same rfl
  · exact h

theorem Pkg.Canonical.routePkt {ingress half sub k} (h : p.Canonical) : (p.routePkt ingress half sub k).2.Canonical := by
  unfold Pkg.routePkt
  split
  · exact .deliver (.emit h)
  · split
    · exact .sendLoss (.bump h)
    · split
      · split
        · exact .sendOn h
        · exact .sendLoss h
      · split
        · exact .sendLoss h
        · split
          · split
            · exact h
            · exact .sendLoss h
          · split
            next _ _ q1 e =>
              have hq1 : q1.Canonical := .of_eq_snd e (.leaveBy h)
              extract_lets q2 _ _ _ _ q3
              have hq2 : q2.Canonical := .sentBy hq1
              have hq3 : q3.Canonical := .setPort hq2
              exact .pumpTx (.emit hq3)

theorem Pkg.Canonical.giveBack {ingress sub k} (h : p.Canonical) : (p.giveBack ingress sub k).Canonical := by
  unfold Pkg.giveBack
  split
  · exact h
  · exact .modPort h

theorem Pkg.Canonical.takePkt {ingress half sub k} (h : p.Canonical) : (p.takePkt ingress half sub k).Canonical := by
  unfold Pkg.takePkt
  extract_lets q1 q2
  have hq1 : q1.2.Canonical := .routePkt h
  have hq2 : q2.Canonical := hq1
  exact .ite (.giveBack hq1) (hq2.same rfl)

theorem Pkg.Canonical.drainTransit (h : p.Canonical) : (p.drainTransit).Canonical := .foldl (fun _ _ h1 => .takePkt h1) (h.same rfl)
theorem Pkg.Canonical.cutMod {m n c f} (h : p.Canonical) : (p.cutMod m n c f).Canonical := .modPort h
theorem Pkg.Canonical.setCut {n c v} (h : p.Canonical) : (p.setCut n c v).Canonical := .modPort h

theorem Pkg.Canonical.cutBegin {n c sub payload} (h : p.Canonical) : (p.cutBegin n c sub payload).Canonical := by
  unfold Pkg.cutBegin
  extract_lets _ q1 _
  have hq1 : q1.Canonical := .setCut h
  refine .ite hq1 ?_
  split
  · exact hq1
  · split
    · exact hq1
    · split
      · exact hq1
      · split
        next _ _ q2 e =>
          have hq2 : q2.Canonical := .of_eq_snd e (.leaveBy hq1)
          exact .pumpTx (.setCut (.setPort hq2))

theorem Pkg.Canonical.cutMore {n c payload whole} (h : p.Canonical) : (p.cutMore n c payload whole).Canonical := by
  unfold Pkg.cutMore
  split
  · exact h
  · exact .pumpTx (.foldl (fun _ _ h1 => .emit h1) (.cutMod h))

theorem Pkg.Canonical.cutAbort {n c} (h : p.Canonical) : (p.cutAbort n c).Canonical := by
  unfold Pkg.cutAbort
  split
  · exact .setCut h
  · exact .pumpTx (.setCut (.cutMod h))

theorem Pkg.Canonical.cutsEnd {n} (h : p.Canonical) : (p.cutsEnd n).Canonical := .foldl (fun _ _ h1 => .ite (.cutAbort h1) (.setCut h1)) h

theorem Pkg.Canonical.cutsLeave {n lost} (h : p.Canonical) : (p.cutsLeave n lost).Canonical := by
  unfold Pkg.cutsLeave
  extract_lets _
  refine .foldl ?_ h
  intro q _ h1
  split
  · exact .setCut (.cutMod h1)
  · exact h1

theorem Pkg.Canonical.regrant {old} (h : p.Canonical) : (p.regrant old).Canonical :=
  .foldl (fun _ _ h1 => .foldl (fun _ _ h2 => .ite h2 (.ite (.sendGrant h2) h2)) h1) h

theorem Pkg.Canonical.routesMove (h : p.Canonical) : (p.routesMove).Canonical := .drainTransit (.regrant (.routesFix h))
theorem Pkg.Canonical.portTo {n st} (h : p.Canonical) : (p.portTo n st).Canonical := .ite h (.routesMove (.raise (.setPort h)))
theorem Pkg.Canonical.reroute {n} (h : p.Canonical) : (p.reroute n).Canonical := .foldl (fun _ _ h1 => .takePkt h1) (.setPort (.cutsLeave h))

theorem Pkg.Canonical.linkLoss {n stops} (h : p.Canonical) : (p.linkLoss n stops).Canonical := by
  unfold Pkg.linkLoss
  extract_lets _ _ q1 q2 _ _ q3 q4
  have hq1 : q1.Canonical := .foldl (fun _ _ h1 => .sendLossFor h1) h
  have hq2 : q2.Canonical := .cutsLeave (.cutsEnd hq1)
  have hq3 : q3.Canonical := .setPort hq2
  have hq4 : q4.Canonical := .foldl (fun _ _ h2 => .takePkt h2) hq3
  exact .ite (.stopAll hq4) hq4

theorem Pkg.Canonical.portDown {n past} (h : p.Canonical) : (p.portDown n past).Canonical := .linkLoss (.portTo (.linkItems h))
theorem Pkg.Canonical.portCut {n} (h : p.Canonical) : (p.portCut n).Canonical := .portDown (.modPort h)
theorem Pkg.Canonical.portTrain {n fast} (h : p.Canonical) : (p.portTrain n fast).Canonical := .portTo (.modPort (.openXing h))

theorem Pkg.Canonical.sendCtl {n} (h : p.Canonical) : (p.sendCtl n).Canonical := by
  unfold Pkg.sendCtl
  split
  · exact .ctlFlit h
  · exact h

theorem Pkg.Canonical.retrain {n fast request} (h : p.Canonical) : (p.retrain n fast request).Canonical :=
  .ite h (.sendCtl (.portTrain (.modPort (.linkItems (.setFlag (.bump h))))))

theorem Pkg.Canonical.replay {n} (h : p.Canonical) : (p.replay n).Canonical := by
  unfold Pkg.replay
  extract_lets _ since _ q1 q2 q3
  have hq1 : q1.Canonical := .setPort h
  have hq2 : q2.Canonical := .setFlag (.bump hq1)
  have hq3 : q3.Canonical := by
    unfold q3
    clear_value since
    split
    · exact .linkItems hq2
    · exact hq2
  exact .ite (.retrain hq3) (.resend hq3)

/-! ## Events of ports -/

theorem Pkg.Canonical.sendHello {n} (h : p.Canonical) : (p.sendHello n).Canonical := .sendFlit h
theorem Pkg.Canonical.portHello {n} (h : p.Canonical) : (p.portHello n).Canonical := .portTo (.modPort h)

theorem Pkg.Canonical.quarantine {n reason hd} (h : p.Canonical) : (p.quarantine n reason hd).Canonical := by
  unfold Pkg.quarantine
  extract_lets _ q1 _ q2 q3
  have hq1 : q1.Canonical := .portTo (.modPort h)
  have hq2 : q2.Canonical := .raise (.setFlag hq1)
  have hq3 : q3.Canonical := .ite (.linkLoss hq2) hq2
  exact .modPort hq3

theorem Pkg.Canonical.measureRtt {n} (h : p.Canonical) : (p.measureRtt n).Canonical := by
  unfold Pkg.measureRtt
  refine .ite (.modPort h) ?_
  split
  next _ q e =>
    have hq : q.Canonical := .of_eq e (.take h)
    exact .modPort hq

theorem Pkg.Canonical.activate {n hd} (h : p.Canonical) : (p.activate n hd).Canonical := by
  unfold Pkg.activate
  extract_lets _ _ q1 q2 q3 _ q4 _ q5 q6 q7
  have hq1 : q1.Canonical := .ite (.modPort h) (.linkLoss h)
  have hq2 : q2.Canonical := .modPort hq1
  have hq3 : q3.Canonical := .measureRtt hq2
  have hq4 : q4.Canonical := .ite (.raise (.setFlag hq3)) hq3
  have hq5 : q5.Canonical := .ite (.portTo (.raise (.setFlag hq4))) (.portTo hq4)
  have hq6 : q6.Canonical := .ite (.resend hq5) hq5
  have hq7 : q7.Canonical := .pumpTx hq6
  exact .ite h (.ite (.stopAll hq7) hq7)

theorem Pkg.Canonical.helloCheck {n hd} (h : p.Canonical) : (p.helloCheck n hd).Canonical := by
  unfold Pkg.helloCheck
  extract_lets _ _ _ pass
  have hPass : ∀ x5, x5.Canonical → (pass x5).Canonical := by
    intro _ h1
    unfold pass
    exact .ite (.quarantine h1) (.ite (.activate (.modPort h1)) (.modPort h1))
  refine .ite (.quarantine h) (.ite (hPass _ h) (.ite (.quarantine h) ?_))
  split
  · exact .ite (hPass _ (.ite h (.raise (.setFlag (.modPort h))))) (.quarantine h)
  · exact .quarantine h

theorem Pkg.Canonical.hello {n hd} (h : p.Canonical) : (p.hello n hd).Canonical := by
  unfold Pkg.hello
  extract_lets _
  split
  · exact .ite h (.ite (.setPort h) (.ite (.ite (.activate h) (.helloCheck h)) (.helloCheck h)))
  · exact .ite h (.portHello h)
  · exact .ite h (.linkLoss (.portHello (.linkItems h)))
  · exact .ite h (.linkLoss (.portHello (.linkItems h)))
  · exact h

theorem Leaves.helloTimer {port} (h : s.pkg.Canonical) : Leaves (execHelloTimer port s) := .of_run (.ite (.sendHello h) h)
theorem Leaves.helloReceive {port hd} (h : s.pkg.Canonical) : Leaves (execHelloReceive port hd s) := .of_run (.hello h)
theorem Leaves.helloAcceptTimeout {port} (h : s.pkg.Canonical) : Leaves (execHelloAcceptTimeout port s) := .of_run (.ite (.quarantine h) h)
theorem Leaves.helloWaitTimeout {port} (h : s.pkg.Canonical) : Leaves (execHelloWaitTimeout port s) := .of_run (.ite (.portDown h) h)

theorem Pkg.Canonical.darkNotice {n ns} (h : p.Canonical) : (p.darkNotice n ns).Canonical := by
  unfold Pkg.darkNotice
  extract_lets _ q1 q2
  have hq1 : q1.Canonical := .ctlFlit h
  have hq2 : q2.Canonical := .linkItems (.modPort hq1)
  exact .ite h (.ite hq2 (.drainTransit (.reroute (.regrant (.routesFix hq2)))))

theorem Pkg.Canonical.linkCtl {n m} (h : p.Canonical) : (p.linkCtl n m).Canonical := by
  unfold Pkg.linkCtl
  extract_lets _
  split
  · exact .darkNotice h
  · exact .setPort h
  · exact .setPort h
  · refine .ite h ?_
    extract_lets _
    split
    · exact .ite h (.ctlFlit (.setPort h))
    · exact .modPort (.retrain (.ctlFlit h))

theorem Pkg.Canonical.discardFlit {n} (h : p.Canonical) : (p.discardFlit n).Canonical := .modPort h

theorem Pkg.Canonical.takeAck {n hdr} (h : p.Canonical) : (p.takeAck n hdr).Canonical := by
  unfold Pkg.takeAck
  extract_lets _ _ _ _ q1 q2 _
  have hq1 : q1.Canonical := .setPort h
  have hq2 : q2.Canonical := by
    unfold q2
    refine .ite h (.ite (.ite (.replay hq1) ?_) hq1)
    split
    next _ q3 e =>
      have hq3 : q3.Canonical := .of_eq e (.take hq1)
      exact .ite hq3 (.replay hq3)
  exact .pumpTx (.modPort hq2)

theorem Pkg.Canonical.takeFlit {n hdr payload} (h : p.Canonical) : (p.takeFlit n hdr payload).Canonical := by
  unfold Pkg.takeFlit
  extract_lets _ _ _ _ _ _ _ _ q1 _ _ q2 _
  have hq1 : q1.Canonical := .setPort h
  have hq2 : q2.Canonical := .setPort h
  exact .ite (.cutBegin (.setPort h)) (.ite (.ite (.cutMore hq1) hq1) (.ite (.cutAbort (.setPort h)) (.ite (.giveBack (.setCut (.ite
    (.cutMore hq2) hq2))) (.ite (.giveBack hq2) (.takePkt hq2)))))

theorem Leaves.flitReceive {port wire} (h : s.pkg.Canonical) : Leaves (execFlitReceive port wire s) := by
  unfold Machine.execFlitReceive
  refine .of_run (.ite h ?_)
  split
  · exact .discardFlit (.bump h)
  · extract_lets q1 _ _ q2 _
    have hq1 : q1.Canonical := .addCtr h
    have hq2 : q2.Canonical := .ite hq1 (.takeAck hq1)
    refine .ite (.discardFlit (.bump hq1)) (.ite (.hello hq2) (.ite ?_ (.ite (.takeFlit hq2) hq2)))
    split
    · exact .linkCtl hq2
    · exact hq2

theorem Leaves.replayTimeout {port} (h : s.pkg.Canonical) : Leaves (execReplayTimeout port s) := .of_run (.ite (.replay h) h)
theorem Leaves.nakRepeatTimeout {port} (h : s.pkg.Canonical) : Leaves (execNakRepeatTimeout port s) := .of_run (.ite (.sendFlit (.modPort h)) h)
theorem Leaves.idleFlitTimer {port} (h : s.pkg.Canonical) : Leaves (execIdleFlitTimer port s) := .of_run (.ite (.sendFlit h) h)
theorem Leaves.linkCtlReceive {port m} (h : s.pkg.Canonical) : Leaves (execLinkCtlReceive port m s) := .of_run (.linkCtl h)
theorem Leaves.linkCtlRepeat {port} (h : s.pkg.Canonical) : Leaves (execLinkCtlRepeat port s) := .of_run (.sendCtl h)
theorem Leaves.laneLockLoss {port lane} (h : s.pkg.Canonical) : Leaves (execLaneLockLoss port lane s) := .of_run (.ite (.retrain h) h)
theorem Pkg.Canonical.trainFail {n} (h : p.Canonical) : (p.trainFail n).Canonical := .ite (.modPort h) (.portDown (.modPort h))

theorem Leaves.trainingAttemptEnd {port passing peerWidth locked rttNs} (h : s.pkg.Canonical) : Leaves
  (execTrainingAttemptEnd port passing peerWidth locked rttNs s) := by
  unfold Machine.execTrainingAttemptEnd
  refine .of_run (.ite h ?_)
  extract_lets _ _ offer q1
  have hq1 : q1.Canonical := by
    unfold q1
    clear_value offer
    split
    · exact .ctlFlit h
    · exact h
  clear_value offer
  split
  · extract_lets _ _ _
    refine .ite (.trainFail hq1) ?_
    split
    next _ q2 e =>
      have hq2 : q2.Canonical := .of_eq e (by
        split
        · exact hq1
        · exact .take hq1)
      exact .portHello (.ite (.modPort hq2) (.raiseHb (.modPort hq2)))
  · exact .trainFail hq1

theorem Leaves.v8FallbackTimeout {port} (h : s.pkg.Canonical) : Leaves (execV8FallbackTimeout port s) := .of_run (.modPort h)
theorem Leaves.retrainLimitExpiry {port} (h : s.pkg.Canonical) : Leaves (execRetrainLimitExpiry port s) := .of_run (.ite (.portDown h) h)

theorem Leaves.downRetryTimer {port} (h : s.pkg.Canonical) : Leaves (execDownRetryTimer port s) :=
  .of_run (.ite h (.ite (.linkLoss (.portTo h)) (.portTrain h)))

theorem Leaves.signalDetect {port} (h : s.pkg.Canonical) : Leaves (execSignalDetect port s) := .of_run (.ite (.portTrain h) h)
theorem Leaves.noSignalTimeout {port} (h : s.pkg.Canonical) : Leaves (execNoSignalTimeout port s) := .of_run (.ite (.portTo h) h)

theorem Pkg.Canonical.darkBegin {n ns after} (h : p.Canonical) : (p.darkBegin n ns after).Canonical :=
  .drainTransit (.reroute (.regrant (.routesFix (.ctlFlit (.linkItems (.modPort h))))))

theorem Leaves.darkNoticeRepeat {port} (h : s.pkg.Canonical) : Leaves (execDarkNoticeRepeat port s) := .of_run (.ite (.ctlFlit h) h)
theorem Leaves.darkNoticeReceive {port ns} (h : s.pkg.Canonical) : Leaves (execDarkNoticeReceive port ns s) := .of_run (.darkNotice h)
theorem Pkg.Canonical.darkEnter {n} (h : p.Canonical) : (p.darkEnter n).Canonical := .portTo (.modPort h)
theorem Leaves.darkDrainComplete {port} (h : s.pkg.Canonical) : Leaves (execDarkDrainComplete port s) := .of_run (.ite (.darkEnter h) h)
theorem Leaves.darkDrainLimit {port} (h : s.pkg.Canonical) : Leaves (execDarkDrainLimit port s) := .of_run (.ite (.darkEnter (.linkLoss h)) h)
theorem Pkg.Canonical.darkEnd {n} (h : p.Canonical) : (p.darkEnd n).Canonical := .ite (.portTrain (.modPort h)) h
theorem Leaves.darkWindowEnd {port} (h : s.pkg.Canonical) : Leaves (execDarkWindowEnd port s) := .of_run (.darkEnd h)
theorem Leaves.packetRoute {ingress half sub k} (h : s.pkg.Canonical) : Leaves (execPacketRoute ingress half sub k s) := .of_run (.takePkt h)
theorem Leaves.refclkLnkLoss {k} (h : s.pkg.Canonical) : Leaves (execRefclkLnkLoss k s) := .of_run (.foldl (fun _ _ h1 => .portCut h1) (h.same rfl))
theorem Leaves.refclkLnkReturn {k} (h : s.pkg.Canonical) : Leaves (execRefclkLnkReturn k s) := .of_run (h.same rfl)

/-! ## Memory dies -/

theorem Pkg.Canonical.badLine {a status} (h : p.Canonical) : (p.badLine a status).Canonical := by
  unfold Pkg.badLine
  extract_lets q
  have hq : q.Canonical := .emit h
  split
  · exact .badAddress hq
  · exact hq

theorem Pkg.Canonical.serveRead {a} (h : p.Canonical) : (p.serveRead a).Canonical := by
  unfold Pkg.serveRead
  extract_lets q1 q2 q3
  have hq1 : q1.2.2.Canonical := .lineRead h
  have hq2 : q2.Canonical := .emit hq1
  have hq3 : q3.Canonical := by
    unfold q3
    split
    · exact .poisonConsumed hq2
    · exact hq2
  exact .lastUse hq3

theorem Pkg.Canonical.serveWrite {a} (h : p.Canonical) : (p.serveWrite a).Canonical := .emit (.store (.ite h (.lineRead h)))

theorem Pkg.Canonical.lineAccess {a} (h : p.Canonical) : (p.lineAccess a).Canonical := by
  unfold Pkg.lineAccess
  extract_lets _ _ q
  have hq : q.Canonical := .lineCache h
  refine .ite (.badLine h) ?_
  split
  · exact .badLine h
  · exact .badLine h
  · exact .holdAcc h
  · exact .ite (.serveWrite hq) (.serveRead hq)

theorem Pkg.Canonical.remoteServe {k es} (h : p.Canonical) : (p.remoteServe k es).Canonical := by
  unfold Pkg.remoteServe
  extract_lets _ _ _ _ _ answer q
  have hAnswer : ∀ x8 x10 x11, x8.Canonical → (answer x8 x10 x11).Canonical := by
    intro _ _ _ h1
    unfold answer
    exact .ite (.answer h1) (.answer h1)
  have hq : q.2.2.Canonical := .memRead h
  refine .ite (hAnswer _ _ _ h) (.ite (hAnswer _ _ _ h) ?_)
  split
  · exact hAnswer _ _ _ h
  · exact hAnswer _ _ _ h
  · exact .holdAcc h
  · exact .ite (hAnswer _ _ _ (.memWrite h)) (hAnswer _ _ _ hq)

theorem Pkg.Canonical.remoteMem {k es} (h : p.Canonical) : (p.remoteMem k es).Canonical :=
  .ite (.ite (.answer (.take h)) (.answer (.take h))) (.remoteServe (.take h))

theorem Pkg.Canonical.serveAcc {a} (h : p.Canonical) : (p.serveAcc a).Canonical := by
  unfold Pkg.serveAcc
  split
  · exact .lineAccess h
  · exact .remoteServe h
  · exact .deviceWrite h
  · exact .sumpWrite (.modSess h)

theorem Pkg.Canonical.serveWaiting {m} (h : p.Canonical) : (p.serveWaiting m).Canonical :=
  .sumpResume (.foldl (fun _ _ h1 => .serveAcc h1) (.modMemDie h))

theorem Pkg.Canonical.failAcc {a} (h : p.Canonical) : (p.failAcc a).Canonical := by
  unfold Pkg.failAcc
  split
  · exact .badLine h
  · exact .ite (.answer h) (.answer h)
  · exact .badAddress h
  · exact .sumpLost (.badAddress h)

theorem Pkg.Canonical.failWaiting {m} (h : p.Canonical) : (p.failWaiting m).Canonical :=
  .sumpResume (.foldl (fun _ _ h1 => .failAcc h1) (.modMemDie h))

theorem Leaves.memLineAccess {a} (h : s.pkg.Canonical) : Leaves (execMemLineAccess a s) := .of_run (.lineAccess h)

theorem Leaves.rowRepairCopyDone {stack channel rank bank row} (h : s.pkg.Canonical) : Leaves
  (execRowRepairCopyDone stack channel rank bank row s) := by
  unfold Machine.execRowRepairCopyDone
  refine .of_run ?_
  extract_lets _ _
  split
  · exact .serveWaiting (.raiseHb (.bump (.modStack h)))
  · exact h

theorem Leaves.scrubStep {stack err} (h : s.pkg.Canonical) : Leaves (execScrubStep stack err s) :=
  .of_run (.ite h (.modStack (.ite h (.bump (.lineRead h)))))

theorem Leaves.mdCeIntervalEnd {stack} (h : s.pkg.Canonical) : Leaves (execMdCeIntervalEnd stack s) := by
  unfold Machine.execMdCeIntervalEnd
  refine .of_run ?_
  extract_lets _ _ _ q1 q2
  have hq1 : q1.Canonical := .ite (.causeItems h) h
  have hq2 : q2.Canonical := .modStack hq1
  exact .ite (.raise (.setFlag (.setFlag hq2))) hq2

theorem Leaves.hotspotWindowEnd {stack requests waiting partition} (h : s.pkg.Canonical) : Leaves
  (execHotspotWindowEnd stack requests waiting partition s) :=
  .of_run (.ite (.ite (.raise (.bump (.setFlag (.modStack (.causeItems (.modStack h)))))) (.modStack h)) (.modStack h))

theorem Leaves.stackTempRead {stack readings} (h : s.pkg.Canonical) : Leaves (execStackTempRead stack readings s) := by
  unfold Machine.execStackTempRead
  refine .of_run ?_
  extract_lets _ _ _ _ q1 q2 q3
  have hq1 : q1.Canonical := .ite (.addCtr h) h
  have hq2 : q2.Canonical := .ite (.causeItems hq1) hq1
  have hq3 : q3.Canonical := .modStack hq2
  exact .ite (.setFlag hq3) hq3

theorem Leaves.orderlyResetWaitExpiry {d} (h : s.pkg.Canonical) : Leaves (execOrderlyResetWaitExpiry d s) :=
  .of_run (.ite (.failWaiting (.modMemDie h)) h)

theorem Pkg.Canonical.dirtyStack {s} (h : p.Canonical) : (p.dirtyStack s).Canonical := .modStack (h.same rfl)

theorem Leaves.stackInitComplete {d} (h : s.pkg.Canonical) : Leaves (execStackInitComplete d s) := by
  unfold Machine.execStackInitComplete
  refine .of_run (.ite h ?_)
  extract_lets _ q1
  have hq1 : q1.Canonical := by
    unfold q1
    refine .foldl ?_ h
    intro q2 _ h1
    refine .ite h1 ?_
    extract_lets q3
    have hq3 : q3.Canonical := .dirtyStack h1
    exact .modStack (hq3.same rfl)
  exact .floorEval (.modMemDie hq1)

theorem Leaves.selfRefreshExit {d} (h : s.pkg.Canonical) : Leaves (execSelfRefreshExit d s) :=
  .of_run (.ite h (.floorEval (.serveWaiting (.modMemDie (.foldl (fun _ _ h1 => .ite (.modStack (.dirtyStack h1)) h1) h)))))

theorem Leaves.memRemoteRequest {r} (h : s.pkg.Canonical) : Leaves (execMemRemoteRequest r s) :=
  .of_run (.ite (.arrive h (fun _ h1 => .parityPart h1)) (.ite (.arrive h (fun _ h2 => .remoteMem h2)) h))

/-! ## The package fabric -/

theorem Pkg.Canonical.modGroup {d g f} (h : p.Canonical) : (p.modGroup d g f).Canonical := .ite (h.same rfl) (.modDie h)
theorem Pkg.Canonical.carry {d g ws} (h : p.Canonical) : (p.carry d g ws).Canonical := .emit (.modGroup h)

theorem Pkg.Canonical.pumpGrp {d g fuel} (h : p.Canonical) : (p.pumpGrp d g fuel).Canonical := by
  induction fuel generalizing p with
  | zero => exact h
  | succ fuel ih =>
    unfold Pkg.pumpGrp
    extract_lets _
    refine .ite h ?_
    split
    · exact h
    · split
      · exact h
      · exact ih (.carry (.modGroup h))

theorem Pkg.Canonical.revokeBe {d g} (h : p.Canonical) : (p.revokeBe d g).Canonical := by
  unfold Pkg.revokeBe
  extract_lets _ _
  split
  · exact h
  · refine .ite h ?_
    split
    next _ q e =>
      have hq : q.Canonical := .of_eq e (.take h)
      exact .ite hq (.emit (.bump (.modGroup hq)))

theorem Pkg.Canonical.parkPkt {d g ws} (h : p.Canonical) : (p.parkPkt d g ws).Canonical := .pumpGrp (.modGroup (.ite (.revokeBe h) h))
theorem Pkg.Canonical.forwardPkt {d station ws} (h : p.Canonical) : (p.forwardPkt d station ws).Canonical := .parkPkt h
theorem Pkg.Canonical.deliverPkt {d header payload trailer} (h : p.Canonical) : (p.deliverPkt d header payload trailer).Canonical := .emit h
theorem Pkg.Canonical.fabCount {d g n} (h : p.Canonical) : (p.fabCount d g n).Canonical := .modDie (.addCtr h)

theorem Leaves.diePacketReceive {d group lanes bundle trailer corrected uncorrectable} (h : s.pkg.Canonical) : Leaves
  (execDiePacketReceive d group lanes bundle trailer corrected uncorrectable s) := by
  unfold Machine.execDiePacketReceive
  refine .of_run (.ite h (.ite (.emit (.fabCount (.setFlag (.bump (.modGroup (.modGroup h)))))) ?_))
  extract_lets q1 q2
  have hq1 : q1.Canonical := .ite (.modGroup h) (.fabCount (.setFlag (.modGroup h)))
  have hq2 : q2.Canonical := .emit hq1
  exact .ite (.emit (.bump hq1)) (.ite (.deliverPkt hq2) (.forwardPkt hq2))

theorem Pkg.Canonical.retestStart {d g} (h : p.Canonical) : (p.retestStart d g).Canonical := .setFlag (.bump (.modGroup h))

theorem Leaves.hopControlWord {d group w} (h : s.pkg.Canonical) : Leaves (execHopControlWord d group w s) := by
  unfold Machine.execHopControlWord
  refine .of_run ?_
  extract_lets _ q
  have hq : q.Canonical := .bump h
  split
  · exact .ite (.modGroup h) (.setFlag (.bump h))
  · split
    · exact .ite (.retestStart (.modGroup hq)) (.carry (.modGroup hq))
    · exact h
  · split
    · exact .pumpGrp (.modGroup h)
    · exact h

theorem Leaves.fabCeIntervalEnd {d} (h : s.pkg.Canonical) : Leaves (execFabCeIntervalEnd d s) := by
  unfold Machine.execFabCeIntervalEnd
  refine .of_run ?_
  extract_lets _ _ q1 q2
  have hq1 : q1.Canonical := .ite (.causeItems h) h
  have hq2 : q2.Canonical := .modDie hq1
  exact .ite (.raise (.setFlag (.setFlag hq2))) hq2

theorem Pkg.Canonical.coreReset {g} (h : p.Canonical) : (p.coreReset g).Canonical := .modCore (.foldl (fun _ _ h1 => .answer h1) h)
theorem Pkg.Canonical.freeEps {d} (h : p.Canonical) : (p.freeEps d).Canonical := .foldl (fun _ _ h1 => .modCore h1) h

theorem Pkg.Canonical.loseCompute {d} (h : p.Canonical) : (p.loseCompute d).Canonical := by
  unfold Pkg.loseCompute
  extract_lets q1 q2
  have hq1 : q1.Canonical := .killOn h
  have hq2 : q2.Canonical := .foldl (fun _ _ h1 => .spFree (.coreReset (.closeCoreEps h1))) hq1
  exact hq2.same rfl

theorem Pkg.Canonical.memOrderly {d} (h : p.Canonical) : (p.memOrderly d).Canonical := .foldl (fun _ _ h1 => .modStack h1) (.modMemDie h)

theorem Pkg.Canonical.memAbrupt {d} (h : p.Canonical) : (p.memAbrupt d).Canonical :=
  .failWaiting (.foldl (fun _ _ h1 => .ite (.raise (.modStack (h1.same rfl))) h1) (.modMemDie h))

theorem Pkg.Canonical.portsDown {f} (h : p.Canonical) : (p.portsDown f).Canonical := .foldl (fun _ _ h1 => .ite (.portCut h1) h1) h

theorem Pkg.Canonical.loseQueue {hd} (h : p.Canonical) : (p.loseQueue hd).Canonical := by
  unfold Pkg.loseQueue
  extract_lets q1 q2 _ q3 q4 q5
  have hq1 : q1.Canonical := .portsDown h
  have hq2 : q2.Canonical := .foldl (fun _ _ h1 => .ctxFault h1) hq1
  have hq3 : q3.Canonical := .foldl (fun _ _ h2 => .setSlot (.releaseSlot h2)) hq2
  have hq4 : q4.Canonical := hq3.same rfl
  have hq5 : q5.Canonical := .dropReqs hq4
  exact .foldl (fun _ _ h3 => .setSync h3) hq5

theorem Pkg.Canonical.dieReset {d cause orderly} (h : p.Canonical) : (p.dieReset d cause orderly).Canonical := by
  unfold Pkg.dieReset
  extract_lets _ q1 q2 q3 q4 q5 q6 _ q7
  have hq1 : q1.Canonical := .raise h
  have hq2 : q2.Canonical := .causeItems hq1
  have hq3 : q3.Canonical := .modDie hq2
  have hq4 : q4.Canonical := .foldl (fun _ _ h1 => .setFlag (.modGroup h1)) hq3
  have hq5 : q5.Canonical := .modGroup hq4
  have hq6 : q6.Canonical := .ite (.ethTo hq5) hq5
  have hq7 : q7.Canonical := by
    unfold q7
    split
    · exact .loseCompute hq5
    · exact .ite (.memOrderly hq5) (.memAbrupt hq5)
    · exact .portsDown hq5
    · exact .loseQueue hq5
    · exact .ite (hq6.same rfl) (hq6.same rfl)
  exact .ite h (.floorEval hq7)

theorem Leaves.dieAbruptReset {d} (h : s.pkg.Canonical) : Leaves (execDieAbruptReset d s) := .of_run (.dieReset h)
theorem Leaves.watchdogExpiry {d} (h : s.pkg.Canonical) : Leaves (execWatchdogExpiry d s) := .of_run (.dieReset h)

theorem Leaves.clockLoss {d island} (h : s.pkg.Canonical) : Leaves (execClockLoss d island s) := by
  unfold Machine.execClockLoss
  refine .of_run ?_
  extract_lets q1 _ q2 _
  have hq1 : q1.Canonical := .modXing h
  have hq2 : q2.Canonical := .ite (.causeItems hq1) hq1
  exact .ite (.dieReset hq2) (.ite (.ite (.dieReset hq2) (.ite (.ethTo hq2) hq2)) (.ite (.portCut hq2) hq2))

theorem Pkg.Canonical.testGroup {d g failed} (h : p.Canonical) : (p.testGroup d g failed).Canonical :=
  .foldl (fun _ _ h1 => .ite (.modGroup h1) (.raiseHb (.modGroup h1))) h

theorem Pkg.Canonical.seamFix {hd} (h : p.Canonical) : (p.seamFix hd).Canonical := h.same rfl

theorem Pkg.Canonical.groupEval {d g was} (h : p.Canonical) : (p.groupEval d g was).Canonical := by
  unfold Pkg.groupEval
  extract_lets _ _ q1 bad q2
  have hq1 : q1.Canonical := .ite (.raise (.setFlag h)) h
  have hq2 : q2.Canonical := .modGroup hq1
  refine .ite (.seamFix hq2) ?_
  clear_value bad
  split
  · exact .dieReset hq2
  · exact hq2

theorem Leaves.groupRetestDone {d group failed} (h : s.pkg.Canonical) : Leaves (execGroupRetestDone d group failed s) :=
  .of_run (.ite h (.pumpGrp (.groupEval (.testGroup (.modGroup h)))))

theorem Pkg.Canonical.coreMap {d passing} (h : p.Canonical) : (p.coreMap d passing).Canonical := by
  unfold Pkg.coreMap
  extract_lets _ _ _ q1 _ q2
  have hq1 : q1.Canonical := .modDie h
  have hq2 : q2.Canonical := by
    unfold q2
    refine .foldl ?_ hq1
    intro q3 _ h1
    split
    · exact .modCore h1
  exact .ite (.raise hq2) (.raiseHb hq2)

theorem Pkg.Canonical.reserveOnDie {d} (h : p.Canonical) : (p.reserveOnDie d).Canonical :=
  .foldl (fun _ _ h1 => .ite h1 (.foldl (fun _ _ h2 => .foldl (fun _ _ h3 => .setThr h3) h2) h1)) h

theorem Pkg.Canonical.testDie {d failed} (h : p.Canonical) : (p.testDie d failed).Canonical := .foldl (fun _ _ h1 => .modGroup (.testGroup h1)) h
theorem Pkg.Canonical.dieTo {d st} (h : p.Canonical) : (p.dieTo d st).Canonical := .modDie h

theorem Leaves.dieRejoin {d r} (h : s.pkg.Canonical) : Leaves (execDieRejoin d r s) := by
  unfold Machine.execDieRejoin
  refine .of_run (.ite h ?_)
  extract_lets q1 q2 q3 q4 _ q5
  have hq1 : q1.Canonical := .modDie h
  have hq2 : q2.Canonical := .ite (hq1.same rfl) hq1
  have hq3 : q3.Canonical := .testDie hq2
  have hq4 : q4.Canonical := .modDie (.dieTo hq3)
  have hq5 : q5.Canonical := by
    unfold q5
    split
    · exact .reserveOnDie (.coreMap (.freeEps hq4))
    · exact .foldl (fun _ _ h1 => .modStack h1) (.modMemDie hq4)
    · exact .foldl (fun _ _ h2 => .ite (.portTrain h2) h2) hq4
    · exact .foldl (fun _ _ h3 => .ite (.portTrain h3) h3) hq4
    · exact hq4
  exact .ite (.dieTo hq3) (.ite (.raise (.dieTo hq3)) (.floorEval (.raise hq5)))

theorem Pkg.Canonical.killAll (h : p.Canonical) : (p.killAll).Canonical := .foldl (fun _ _ h1 => .killItem (.killItem h1)) h
theorem Pkg.Canonical.refreshAll {cause} (h : p.Canonical) : (p.refreshAll cause).Canonical := .foldl (fun _ _ h1 => .dieReset h1) h
theorem Pkg.Canonical.excuseAll (h : p.Canonical) : (p.excuseAll).Canonical := .causeItems h

theorem Leaves.refclkEthStop (h : s.pkg.Canonical) : Leaves (execRefclkEthStop s) := by
  unfold Machine.execRefclkEthStop
  refine .of_run (.ite h ?_)
  extract_lets q
  have hq : q.Canonical := .excuseAll h
  exact .same hq (by dsimp only)

theorem Leaves.refclkEthReturn (h : s.pkg.Canonical) : Leaves (execRefclkEthReturn s) := .of_run (.same (.ite (.excuseAll h) h) (by dsimp only))

theorem Leaves.refclkHoldoverEnd (h : s.pkg.Canonical) : Leaves (execRefclkHoldoverEnd s) := by
  unfold Machine.execRefclkHoldoverEnd
  refine .of_run (.ite h ?_)
  extract_lets q1 q2 q3 q4
  have hq1 : q1.Canonical := .same h (by dsimp only [q1])
  have hq2 : q2.Canonical := .killAll (.refreshAll hq1)
  have hq3 : q3.Canonical := .ite hq2 (.pkgTo hq2)
  have hq4 : q4.Canonical := .raise hq3
  exact .same hq4 (by dsimp only)

end Sys2Proof.Machine
end

