-- ==== Sys2Proof/Proofs/CanonicalCommands.lean ====
section
/-! The path of a Luajo command, and the commands of steps, contexts, slots, ports, registers and bulk data, keep memory canonical. -/

namespace Sys2Proof.Machine

variable {p q : Pkg} {s : State}

/-! ## The path of a command -/

theorem Ans.Canonical.badState {c status} : (p.badState c status).Canonical := .no

theorem Pkg.Canonical.authFail (h : p.Canonical) : (p.authFail).Canonical := by
  unfold Pkg.authFail
  extract_lets q1 _ q2
  have hq1 : q1.Canonical := .setFlag (.bump h)
  have hq2 : q2.Canonical := .raise hq1
  exact .ite (hq2.same rfl) hq1

theorem Pkg.Canonical.replyBusy {k w} (h : p.Canonical) : (p.replyBusy k w).Canonical := .sendReply (.setFlag (.bump h))
theorem Pkg.Canonical.arrivedBy {s} (h : p.Canonical) : (p.arrivedBy s).Canonical := h.same rfl
theorem Pkg.Canonical.ljDecided {op} (h : p.Canonical) : (p.ljDecided op).Canonical := .bump h

theorem Pkg.Canonical.ljWait {i w} (h : p.Canonical) : (p.ljWait i w).Canonical := by
  unfold Pkg.ljWait
  extract_lets _ q
  have hq : q.Canonical := .setSession h
  exact hq.same rfl

theorem Pkg.Canonical.ljRun {op k i fmt run} (h : p.Canonical) (hrun : ∀ q c, q.Canonical → (run q c).Canonical) :
  (p.ljRun op k i fmt run).Canonical := by
  unfold Pkg.ljRun
  extract_lets w
  split
  · exact .reply h
  · extract_lets c
    split
    · exact .reply h
    · refine .ite (.reply h) ?_
      have hc : (run p c).Canonical := hrun p c h
      cases ha : run p c with
      | no st ps => exact .reply h
      | ok q ps => exact .reply (ha ▸ hc : (Ans.ok q ps).Canonical)
      | wait q => exact .ljWait (ha ▸ hc : (Ans.wait q).Canonical)

theorem Pkg.Canonical.luajo {op k mine fmt run} (h : p.Canonical) (hrun : ∀ x1 x2, x1.Canonical → (run x1 x2).Canonical) :
  (p.luajo op k mine fmt run).Canonical := by
  unfold Pkg.luajo
  extract_lets _ q1 _ _ q2
  have hq1 : q1.Canonical := .arrivedBy h
  have hq2 : q2.Canonical := .ljDecided hq1
  refine .ite h (.ite (.bump h) ?_)
  split
  · exact .authFail h
  · extract_lets _
    refine .ite (.authFail hq1) (.ite (.replyBusy hq1) (.ite (.reply (.setFlag (.bump hq1))) ?_))
    split
    · exact .sendReply (.bump hq1)
    · exact .ite (.setSession (.bump hq1)) (.ite (.reply (.setFlag hq2)) (.ljRun hq2 (fun _ _ h1 => hrun _ _ h1)))

theorem Pkg.Canonical.closeSession {i} (h : p.Canonical) : (p.closeSession i).Canonical := by
  unfold Pkg.closeSession
  extract_lets q
  have hq : q.Canonical := .setSession h
  exact hq.same rfl

theorem Pkg.Canonical.replyBare {w status params} (h : p.Canonical) : (p.replyBare w status params).Canonical := .sendReply h

theorem Leaves.sessionOpen {k} (h : s.pkg.Canonical) : Leaves (execSessionOpen k s) := by
  unfold Machine.execSessionOpen
  refine .of_run (.ite h (.ite (.bump h) (.ite (.authFail h) (.ite (.replyBare (.setFlag (.bump h))) ?_))))
  extract_lets q1
  have hq1 : q1.Canonical := .ljDecided (.arrivedBy h)
  split
  · exact .replyBare hq1
  · extract_lets _ _ _ _
    split
    · exact .replyBare hq1
    · split
      next _ q2 e1 =>
        have hq2 : q2.Canonical := .of_eq e1 (.take hq1)
        split
        next _ q3 e2 =>
          have hq3 : q3.Canonical := .of_eq e2 (.take hq2)
          split
          next _ q4 e3 =>
            have hq4 : q4.Canonical := .of_eq e3 (.take hq3)
            split
            · split
              · exact .replyBare hq4
              · exact .sendReply (.setSession hq4)
            · exact .replyBare hq4

theorem Leaves.sessionClose {k} (h : s.pkg.Canonical) : Leaves (execSessionClose k s) := by
  unfold Machine.execSessionClose
  refine .of_run ?_
  extract_lets q _
  have hq : q.Canonical := .luajo h (fun _ _ h1 => .ok h1)
  split
  · exact hq
  · exact .ite (.closeSession hq) hq

theorem Leaves.sessionIdleTimeout {place} (h : s.pkg.Canonical) : Leaves (execSessionIdleTimeout place s) := .of_run (.ite (.closeSession h) h)

/-! ## Commands of steps and contexts -/

theorem Pkg.Canonical.stageVersion {j} (h : p.Canonical) : (p.stageVersion j).Canonical := by
  unfold Pkg.stageVersion
  extract_lets _ _ q
  have hq : q.2.Canonical := .takeObj h
  split
  · exact h
  · exact .setVer hq

theorem Pkg.Canonical.armGradient {j} (h : p.Canonical) : (p.armGradient j).Canonical := .ite (.wakeWaiters (.armObj (.modSync h))) h
theorem Pkg.Canonical.takeSeal {base par i} (h : p.Canonical) : (p.takeSeal base par i).Canonical := .modSync h

theorem Pkg.Canonical.stepBegin {c n items record} (h : p.Canonical) : (p.stepBegin c n items record).Canonical := by
  unfold Pkg.stepBegin
  extract_lets _ q1 q2 _ q3 q4 _ q5 q6
  have hq1 : q1.Canonical := .foldl (fun _ _ h1 => .phaseTick h1) h
  have hq2 : q2.Canonical := .foldl (fun _ _ h2 => .stageVersion h2) hq1
  have hq3 : q3.Canonical := .modStep hq2
  have hq4 : q4.Canonical := .foldl (fun _ _ h3 => .modSlot h3) hq3
  have hq5 : q5.Canonical := .foldl (fun _ _ h4 => .takeSeal h4) hq4
  have hq6 : q6.Canonical := .store hq5
  exact .ctxEval (.foldl (fun _ _ h5 => .armGradient h5) hq6)

theorem Pkg.Canonical.stopAbsent (h : p.Canonical) : (p.stopAbsent).Canonical := .foldl (fun _ _ h1 => .ite (.stopAll h1) h1) h

theorem Leaves.stepBegin {k} (h : s.pkg.Canonical) : Leaves (execStepBegin k s) := by
  unfold Machine.execStepBegin
  refine .of_run (.luajo h ?_)
  intro _ _ h1
  extract_lets _ _
  refine .ite .badState (.ite .no (.ite .no (.ite .no ?_)))
  split
  · exact .no
  · exact .ite .no (.ok (.stopAbsent (.stepBegin (.foldl (fun _ _ h2 => .raise h2) h1))))

theorem Leaves.stepCommit {k} (h : s.pkg.Canonical) : Leaves (execStepCommit k s) :=
  .of_run (.luajo h (fun _ _ h1 => .ite .badState (.ite .no (.ite .no (.wait (.modStep h1))))))

theorem Pkg.Canonical.stepAbort {c token} (h : p.Canonical) : (p.stepAbort c token).Canonical :=
  .ctxEval (.modStep (.lateVote (.reshardStop (.foldl (fun _ _ h1 => .discardSlot h1) h))))

theorem Pkg.Canonical.cmdAbort {k force} (h : p.Canonical) : (p.cmdAbort k force).Canonical :=
  .luajo h (fun _ _ h1 => .ite .badState (.ite (.ok (.applyVerdict (.bump (.raise h1)))) (.wait (.stepAbort h1))))

theorem Leaves.stepAbort {k} (h : s.pkg.Canonical) : Leaves (execStepAbort k s) := .of_run (.cmdAbort h)
theorem Leaves.stepAbortForce {k} (h : s.pkg.Canonical) : Leaves (execStepAbortForce k s) := .of_run (.cmdAbort h)

theorem Leaves.reshard {k} (h : s.pkg.Canonical) : Leaves (execReshard k s) :=
  .of_run (.luajo h (fun _ _ h1 => .ite .badState (.ite .no (.ite .no (.ite .no (.ok (.reshardAdvance (.modReshard h1))))))))

/-! ## Commands of contexts -/

theorem Pkg.Canonical.ctxCreate {c r} (h : p.Canonical) : (p.ctxCreate c r).Canonical := .ctxTo (.setCtx (.foldl (fun _ _ h1 => .modSync h1) h))

theorem Leaves.contextCreate {k} (h : s.pkg.Canonical) : Leaves (execContextCreate k s) :=
  .of_run (.luajo h (fun _ _ h1 => .ite .badState (.ite .no (.ite .no (.ite .no (.ok (.ctxCreate h1)))))))

theorem Leaves.contextDestroy {k} (h : s.pkg.Canonical) : Leaves (execContextDestroy k s) :=
  .of_run (.luajo h (fun _ _ h1 => .ite .badState (.ok (.swapEval (.setCtx (.ctxTo (.foldl (fun _ _ h2 => .modSlot h2) (.foldl (fun _ _ h3 =>
  .unstick h3) (h1.same rfl)))))))))

theorem Leaves.contextSetClass {k} (h : s.pkg.Canonical) : Leaves (execContextSetClass k s) :=
  .of_run (.luajo h (fun _ _ h1 => .ite .badState (.ite .no (.ok (.swapEval (.modCtx h1))))))

theorem Leaves.run {k} (h : s.pkg.Canonical) : Leaves (execRun k s) :=
  .of_run (.luajo h (fun _ _ h1 => .ite .badState (.ite (.ok (.swapEval (.setCtx (.ite (.pkgTo h1) h1)))) (.ok (.swapEval (.ctxEval (.ctxTo
  (.setCtx (.ite (.pkgTo h1) h1)))))))))

theorem Pkg.Canonical.cmdPreempt {k swap} (h : p.Canonical) : (p.cmdPreempt k swap).Canonical :=
  .luajo h (fun _ _ h1 => .ite .badState (.ite (.wait (.modCtx (.swapOut (.bump h1)))) (.wait (.ctxTo (.foldl (fun _ _ h2 => .foldl (fun _ _ h3 =>
  .ite (.preemptItem h3) h3) h2) (.modCtx (.bump h1)))))))

theorem Leaves.preempt {k} (h : s.pkg.Canonical) : Leaves (execPreempt k s) := .of_run (.cmdPreempt h)
theorem Leaves.preemptSwap {k} (h : s.pkg.Canonical) : Leaves (execPreemptSwap k s) := .of_run (.cmdPreempt h)
theorem Pkg.Canonical.replyAll {ts} (h : p.Canonical) : (p.replyAll ts).Canonical := .foldl (fun _ _ h1 => .replyWaiting h1) h

theorem Leaves.preemptionDone {ctx} (h : s.pkg.Canonical) : Leaves (execPreemptionDone ctx s) :=
  .of_run (.ite h (.swapEval (.replyAll (.setCtx h))))

theorem Leaves.swapHoldExpiry {ctx} (h : s.pkg.Canonical) : Leaves (execSwapHoldExpiry ctx s) := .of_run (.ite (.swapEval (.setCtx h)) h)

theorem Leaves.freezeWaitExpiry {ctx} (h : s.pkg.Canonical) : Leaves (execFreezeWaitExpiry ctx s) :=
  .of_run (.ite h (.modCtx (.foldl (fun _ _ h1 => .setFlag (.bump (.preemptItem h1))) h)))

theorem Leaves.swapSaveComplete {ctx} (h : s.pkg.Canonical) : Leaves (execSwapSaveComplete ctx s) :=
  .of_run (.ite h (.swapEval (.replyAll (.modCtx (.ite (.saveDone h) (.ctxTo (.saveDone h)))))))

theorem Leaves.swapInComplete {ctx} (h : s.pkg.Canonical) : Leaves (execSwapInComplete ctx s) := .of_run (.ite h (.swapEval (.restoreDone h)))

theorem Leaves.serveJoin {k} (h : s.pkg.Canonical) : Leaves (execServeJoin k s) :=
  .of_run (.luajo h (fun _ _ h1 => .ite .badState (.ite .no (.ite .no (.ite .no (.wait (.setCtx h1)))))))

theorem Leaves.serveLeave {k} (h : s.pkg.Canonical) : Leaves (execServeLeave k s) := by
  unfold Machine.execServeLeave
  refine .of_run (.luajo h ?_)
  intro _ _ h1
  extract_lets _ _ _ _
  split
  · exact .ok (.replyWaiting (.setCtx h1))
  · exact .ite (.ok (.setCtx h1)) .no

/-! ## Commands of slots -/

theorem Pkg.Canonical.reAdmit {old} (h : p.Canonical) : (p.reAdmit old).Canonical := .foldl (fun _ _ h1 => .ite h1 (.setDlWin h1)) h

theorem Ans.Canonical.unlessFails {q} (hq : q.Canonical) : (p.unlessFails q).Canonical := by
  unfold Pkg.unlessFails
  split
  · exact .no
  · exact .ok (.reAdmit hq)

theorem Pkg.Canonical.reload {c} (h : p.Canonical) : (p.reload c).Canonical := by
  unfold Pkg.reload
  extract_lets q1 _ _ q2 q3
  have hq1 : q1.Canonical := by
    unfold q1
    refine .foldl ?_ h
    intro q4 _ h1
    extract_lets q5 q6 q7
    have hq5 : q5.Canonical := .discardSlot h1
    have hq6 : q6.Canonical := .foldl (fun _ _ h2 => .foldl (fun _ _ h3 => .egrRelease h3) (.setEgr h2)) hq5
    have hq7 : q7.Canonical := .stashDrop hq6
    exact .ite (.reserveSlot (.releaseSlot hq7)) hq7
  have hq2 : q2.Canonical := .setCtx hq1
  have hq3 : q3.Canonical := .ite (.foldl (fun _ _ h4 => .reserveSlot h4) hq2) hq2
  exact .ctxTo hq3

theorem Pkg.Canonical.install {c j addr b} (h : p.Canonical) : (p.install c j addr b).Canonical := by
  unfold Pkg.install
  extract_lets q1 q2 q3
  have hq1 : q1.Canonical := .modSlot h
  have hq2 : q2.Canonical := .ite (.reserveSlot (.releaseSlot hq1)) hq1
  have hq3 : q3.Canonical := .modStep hq2
  exact .ite (.reload hq3) hq3

theorem Leaves.loadProgram {k} (h : s.pkg.Canonical) : Leaves (execLoadProgram k s) :=
  .of_run (.luajo h (fun _ _ h1 => .ite .badState (.ite .no (.ite .no (.ite .no (.ite .badState (.unlessFails (.install h1))))))))

theorem Pkg.Canonical.bindSlot {c j r} (h : p.Canonical) : (p.bindSlot c j r).Canonical := by
  unfold Pkg.bindSlot
  extract_lets _ _ _ _ _ q1 _ q2 q3
  have hq1 : q1.Canonical := .setSlot h
  have hq2 : q2.Canonical := .ite (.modSync hq1) hq1
  have hq3 : q3.Canonical := .ite (.reserveSlot hq2) hq2
  exact .ctxEval (.foldl (fun _ _ h1 => .grantCheck h1) hq3)

theorem Leaves.bindSlot {k} (h : s.pkg.Canonical) : Leaves (execBindSlot k s) := by
  unfold Machine.execBindSlot
  refine .of_run (.luajo h ?_)
  intro _ _ h1
  extract_lets _ _ _ _ q
  have hq : q.Canonical := .bindSlot h1
  refine .ite .no ?_
  split
  · exact .no
  · exact .ite .no (.ite .no (.ite .no (.ite .no (.ite .no (.ite .no (.ite .no (.ok hq)))))))

theorem Pkg.Canonical.unbindSlot {j} (h : p.Canonical) : (p.unbindSlot j).Canonical := by
  unfold Pkg.unbindSlot
  extract_lets _ q1 _ q2 q3 _ q4 q5 _
  have hq1 : q1.Canonical := .freeVers h
  have hq2 : q2.Canonical := .ite (.modSync hq1) hq1
  have hq3 : q3.Canonical := .foldl (fun _ _ h1 => .setDlWin h1) (.releaseSlot hq2)
  have hq4 : q4.Canonical := .same hq3 (by dsimp only [q4])
  have hq5 : q5.Canonical := .dropReqs hq4
  exact .setSlot hq5

theorem Leaves.unbindSlot {k} (h : s.pkg.Canonical) : Leaves (execUnbindSlot k s) :=
  .of_run (.luajo h (fun _ _ h1 => .ite .badState (.ite .no (.ite .badState (.ok (.swapEval (.unbindSlot h1)))))))

theorem Leaves.setDeadline {k} (h : s.pkg.Canonical) : Leaves (execSetDeadline k s) :=
  .of_run (.luajo h (fun _ _ h1 => .ite .badState (.ite (.ok (.setDlWin h1)) (.ite .no (.ite .no (.ite .no (.ok (.setDlWin h1))))))))

theorem Leaves.memMapMap {k} (h : s.pkg.Canonical) : Leaves (execMemMapMap k s) :=
  .of_run (.luajo h (fun _ _ h1 => .ite .no (.ite .no (.ite .no (.unlessFails (.trackInit (h1.same rfl)))))))

theorem Leaves.memMapUnmap {k} (h : s.pkg.Canonical) : Leaves (execMemMapUnmap k s) := by
  unfold Machine.execMemMapUnmap
  refine .of_run (.luajo h ?_)
  intro _ _ h1
  split
  · exact .no
  · exact .ite .no (.unlessFails (.unstick (h1.same rfl)))

theorem Leaves.memMapSetPartition {k} (h : s.pkg.Canonical) : Leaves (execMemMapSetPartition k s) :=
  .of_run (.luajo h (fun _ _ h1 => .ite .no (.unlessFails (.foldl (fun _ _ h2 => .modStack h2) h1))))

theorem Pkg.Canonical.powerPolicy {r} (h : p.Canonical) : (p.powerPolicy r).1.Canonical := by
  unfold Pkg.powerPolicy
  split
  next _ q1 e =>
    have hq1 : q1.Canonical := .of_eq e (.take h)
    extract_lets _ _ _ _ q2 _ _ q3 q4
    have hq2 : q2.Canonical := hq1.same rfl
    have hq3 : q3.Canonical := .foldl (fun _ _ h1 => .ite h1 (.modDlWin h1)) hq2
    have hq4 : q4.Canonical := .ite hq3 (.setFlag hq3)
    exact hq4

theorem Leaves.powerPolicy {k} (h : s.pkg.Canonical) : Leaves (execPowerPolicy k s) :=
  .of_run (.luajo h (fun _ _ h1 => .ok (.noteCauses (.powerPolicy (.noteCauses h1)))))

/-! ## Commands of ports -/

theorem Pkg.Canonical.planCheck {n} (h : p.Canonical) : (p.planCheck n).Canonical := by
  unfold Pkg.planCheck
  extract_lets q _
  have hq : q.Canonical := .modPort h
  split
  · exact .portHello hq
  · exact .portHello hq
  · exact .ite (.routesMove hq) (.linkLoss (.portHello (.linkItems hq)))
  · exact .ite (.routesMove hq) (.linkLoss (.portHello (.linkItems hq)))
  · exact hq

theorem Leaves.setTopology {k} (h : s.pkg.Canonical) : Leaves (execSetTopology k s) := by
  unfold Machine.execSetTopology
  refine .of_run (.luajo h ?_)
  intro _ _ h1
  extract_lets _ q1 q2 q3
  have hq1 : q1.Canonical := h1.same rfl
  have hq2 : q2.Canonical := .foldl (fun _ _ h2 => .modPort h2) hq1
  have hq3 : q3.Canonical := .foldl (fun _ _ h3 => .planCheck h3) hq2
  exact .ok (.ite (.pkgTo hq3) hq3)

theorem Leaves.setRoutes {k} (h : s.pkg.Canonical) : Leaves (execSetRoutes k s) :=
  .of_run (.luajo h (fun _ _ h1 => .ite .badState (.ite .no (.ok (.drainTransit (.regrant (.routesBuild (h1.same rfl))))))))

theorem Pkg.Canonical.portCmd {k action value fmt legal run} (h : p.Canonical) (hrun : ∀ x1 x2 x3, x1.Canonical → (run x1 x2 x3).Canonical) :
  (p.portCmd k action value fmt legal run).Canonical := .luajo h (fun _ _ h1 => .ite .no (.ok (hrun _ _ _ h1)))

theorem Leaves.portRetrain {k} (h : s.pkg.Canonical) : Leaves (execPortRetrain k s) :=
  .of_run (.portCmd h (fun _ _ _ h1 => .ite h1 (.ite (.retrain h1) (.ite h1 (.portTrain h1)))))

theorem Leaves.portDark {k} (h : s.pkg.Canonical) : Leaves (execPortDark k s) := .of_run (.portCmd h (fun _ _ _ h1 => .darkBegin h1))
theorem Leaves.portWake {k} (h : s.pkg.Canonical) : Leaves (execPortWake k s) := .of_run (.portCmd h (fun _ _ _ h1 => .darkEnd h1))

theorem Leaves.portDisable {k} (h : s.pkg.Canonical) : Leaves (execPortDisable k s) :=
  .of_run (.portCmd h (fun _ _ _ h1 => .floorEval (.linkLoss (.portTo (.modPort (.linkItems h1))))))

theorem Leaves.portReset {k} (h : s.pkg.Canonical) : Leaves (execPortReset k s) :=
  .of_run (.portCmd h (fun _ _ _ h1 => .floorEval (.portTo (.modPort h1))))

theorem Leaves.portRecheck {k} (h : s.pkg.Canonical) : Leaves (execPortRecheck k s) := .of_run (.portCmd h (fun _ _ _ h1 => .portHello h1))

theorem Leaves.portRebalance {k} (h : s.pkg.Canonical) : Leaves (execPortRebalance k s) :=
  .of_run (.portCmd h (fun _ _ _ h1 => .drainTransit (.regrant (.routesBuild h1))))

theorem Leaves.portLimits {k} (h : s.pkg.Canonical) : Leaves (execPortLimits k s) := .of_run (.portCmd h (fun _ _ _ h1 => .modPort h1))
theorem Leaves.portBootServe {k} (h : s.pkg.Canonical) : Leaves (execPortBootServe k s) := .of_run (.portCmd h (fun _ _ _ h1 => .modPort h1))

/-! ## Registers -/

theorem Pkg.Canonical.regTouch {a} (h : p.Canonical) : (p.regTouch a).Canonical := by
  unfold Pkg.regTouch
  extract_lets _ _
  split
  · exact .ite (.modSlot h) (.ite (.modStack h) (.modMemDie h))
  · exact .ite (.readXing h) h

theorem Pkg.Canonical.regPut {a v} (h : p.Canonical) (hq : p.regPut a v = some q) : q.Canonical := by
  unfold Pkg.regPut at hq
  extract_lets d b o g at hq
  clear_value d b o g
  split at hq
  · split at hq
    · cases hq
    · obtain rfl := Option.some.inj hq
      exact .modDie h
  split at hq
  · split at hq
    · cases hq
    · obtain rfl := Option.some.inj hq
      exact .modCore h
  · split at hq
    · cases hq
    · obtain rfl := Option.some.inj hq
      exact .modStack h
  split at hq
  · split at hq
    · cases hq
    · obtain rfl := Option.some.inj hq
      exact h.same rfl
  · split at hq
    · cases hq
    · obtain rfl := Option.some.inj hq
      exact h.same rfl

theorem Leaves.regRead {k} (h : s.pkg.Canonical) : Leaves (execRegRead k s) := by
  refine .of_run (.luajo h fun p c h => ?_)
  extract_lets n a r
  have hr : r.1.Canonical := by
    refine .foldl_of Prod.fst (fun r i hr => ?_) h
    extract_lets q
    split
    · exact .take (w := 64) hr
    · exact .regTouch hr
    · exact hr
  exact .ite .no (.ok (hr.same rfl))

theorem Pkg.Canonical.regWrite {k mine run} (h : p.Canonical) (hrun : ∀ x1 x2, x1.Canonical → (run x1 x2).Canonical) :
  (p.regWrite k mine run).Canonical := .luajo h (fun _ _ h1 => .ite .no (hrun _ _ h1))

theorem Leaves.regWrite {k} (h : s.pkg.Canonical) : Leaves (execRegWrite k s) := by
  refine .of_run (.regWrite h fun p c h => ?_)
  extract_lets a v mask
  split
  next w old _ =>
    cases hq : p.regPut a (rwMerge old v mask w) with
    | none => exact .ok h
    | some q => exact .ok (.regPut h hq)
  · exact .ok (.clearFlags h)
  · exact .ok h

theorem Pkg.Canonical.resetReq {k orderly} (h : p.Canonical) : (p.resetReq k orderly).Canonical :=
  .regWrite h (fun _ _ h1 => .ite .no (.ok (.dieReset h1)))

theorem Leaves.fabResetReqOrderly {k} (h : s.pkg.Canonical) : Leaves (execFabResetReqOrderly k s) := .of_run (.resetReq h)
theorem Leaves.fabResetReqAbrupt {k} (h : s.pkg.Canonical) : Leaves (execFabResetReqAbrupt k s) := .of_run (.resetReq h)
theorem Pkg.Canonical.newKey (h : p.Canonical) : (p.newKey).Canonical := h.same rfl

theorem Leaves.handover {k} (h : s.pkg.Canonical) : Leaves (execHandover k s) :=
  .of_run (.regWrite h (fun _ _ h1 => .ite (.ok (.newKey (h1.same rfl))) .no))

/-! ## Bulk data -/

theorem Pkg.Canonical.setQp {n q} (h : p.Canonical) : (p.setQp n q).Canonical := h.same rfl

theorem Pkg.Canonical.bulk {k n tests run} (h : p.Canonical) (hrun : ∀ x1 x2, x1.Canonical → (run x1 x2).Canonical) :
  (p.bulk k n tests run).Canonical := .luajo h (fun _ _ h1 => hrun _ _ h1)

theorem Pkg.Canonical.dropUnposted {j} (h : p.Canonical) : (p.dropUnposted j).Canonical := .modIng h

theorem Leaves.bulkCreateQp {k} (h : s.pkg.Canonical) : Leaves (execBulkCreateQp k s) :=
  .of_run (.bulk h (fun _ _ h1 => .ite .no (.ite .no (.ok (.setQp h1)))))

theorem Leaves.bulkDestroyQp {k} (h : s.pkg.Canonical) : Leaves (execBulkDestroyQp k s) := by
  unfold Machine.execBulkDestroyQp
  refine .of_run (.bulk h ?_)
  intro _ _ h1
  refine .ite .no ?_
  extract_lets _ q
  have hq : q.Canonical := by
    unfold q
    split
    · exact .dropUnposted h1
    · exact h1
  exact .ok (.setQp hq)

theorem Leaves.bulkRegisterKey {k} (h : s.pkg.Canonical) : Leaves (execBulkRegisterKey k s) :=
  .of_run (.bulk h (fun _ _ h1 => .ite .no (.ok (h1.same rfl))))

theorem Leaves.bulkDeregisterKey {k} (h : s.pkg.Canonical) : Leaves (execBulkDeregisterKey k s) :=
  .of_run (.bulk h (fun _ _ h1 => .ite .no (.ok (h1.same rfl))))

theorem Leaves.bulkBindSlot {k} (h : s.pkg.Canonical) : Leaves (execBulkBindSlot k s) :=
  .of_run (.bulk h (fun _ _ h1 => .ite .no (.ite .badState (.ok (.sendGrant (.setQp (h1.same rfl)))))))

theorem Leaves.bulkUnbindSlot {k} (h : s.pkg.Canonical) : Leaves (execBulkUnbindSlot k s) :=
  .of_run (.bulk h (fun _ _ h1 => .ite .no (.ite .badState (.ok (.dropUnposted (.setQp h1))))))

theorem Pkg.Canonical.roceOut {n op psn bs} (h : p.Canonical) : (p.roceOut n op psn bs).Canonical := .ethSend h

theorem Pkg.Canonical.roceIn {n psn fresh again} (h : p.Canonical) (hfresh : ∀ x1, x1.Canonical → (fresh x1).Canonical) (hagain : ∀ x2,
  x2.Canonical → (again x2).Canonical) : (p.roceIn n psn fresh again).Canonical :=
  .ite h (.ite (hfresh _ (.setQp h)) (.ite (hagain _ h) (.ite h (.roceOut (.setQp h)))))

theorem Pkg.Canonical.roceNext {n count} (h : p.Canonical) : (p.roceNext n count).Canonical := .setQp h
theorem Pkg.Canonical.hostPages {j} (h : p.Canonical) : (p.hostPages j).Canonical := .swapEval (.ctxEval (.postReady (.setIng h)))

theorem Pkg.Canonical.hostHead {j hd} (h : p.Canonical) : (p.hostHead j hd).Canonical :=
  .hostPages (.openHead (.foldl (fun _ _ h1 => .creditViol h1) h))

theorem Leaves.roceSendReceive {qpn psn data} (h : s.pkg.Canonical) : Leaves (execRoceSendReceive qpn psn data s) := by
  unfold Machine.execRoceSendReceive
  refine .of_run (.roceIn h ?_ (fun _ h1 => .roceOut h1))
  intro _ h2
  split
  · exact .roceOut h2
  · exact .ite (.qpError (.roceOut h2)) (.ite (.hostHead (.roceOut (.roceNext h2))) (.roceOut (.roceNext h2)))

theorem Pkg.Canonical.congestion {n ce} (h : p.Canonical) : (p.congestion n ce).Canonical := .ite (.roceOut (.setQp h)) h

theorem Pkg.Canonical.noteHost {n a len} (h : p.Canonical) : (p.noteHost n a len).Canonical := by
  unfold Pkg.noteHost
  extract_lets q
  have hq : q.Canonical := .noteTrack h
  split
  · exact hq
  · exact .ite hq (.hostPages (.setIng (.phaseTick hq)))

theorem Pkg.Canonical.hostStore {n a data} (h : p.Canonical) : (p.hostStore n a data).Canonical := by
  unfold Pkg.hostStore
  split
  · exact .creditViol h
  · exact .noteHost (.store (.devTouch h))

theorem Leaves.roceWriteReceive {qpn psn rkey addr data ce} (h : s.pkg.Canonical) : Leaves (execRoceWriteReceive qpn psn rkey addr data ce s) := by
  unfold Machine.execRoceWriteReceive
  refine .of_run (.roceIn (.congestion h) ?_ (fun _ h1 => .roceOut h1))
  intro _ h2
  extract_lets _
  refine .ite (.qpError (.roceOut h2)) (.ite (.roceOut h2) ?_)
  split
  · exact h2
  · exact .hostStore (.roceOut (.roceNext h2))
  · exact .roceOut h2

theorem Leaves.roceReadReceive {qpn psn rkey addr len} (h : s.pkg.Canonical) : Leaves (execRoceReadReceive qpn psn rkey addr len s) := by
  unfold Machine.execRoceReadReceive
  refine .of_run ?_
  extract_lets a serve
  have hserve (p : Pkg) (next : Bool) (hp : p.Canonical) : (serve p next).Canonical := by
    unfold serve
    extract_lets m n bs q1 q2
    have hq1 : q1.Canonical := .devTouch hp
    have hq2 : q2.Canonical := .ite (.roceNext hq1) hq1
    refine .ite (.roceOut hp) ?_
    split
    · exact hp
    · exact .foldl (fun _ _ h => .roceOut h) hq2
    · exact .roceOut hp
  exact .roceIn h (fun _ h => hserve _ _ h) fun _ h => hserve _ _ h

theorem Pkg.Canonical.roceResend {n} (h : p.Canonical) : (p.roceResend n).Canonical := .foldl (fun _ _ h1 => .roceOut h1) h
theorem Pkg.Canonical.roceRetry {n} (h : p.Canonical) : (p.roceRetry n).Canonical := .ite (.qpError h) (.roceResend (.setQp h))

theorem Leaves.roceAckReceive {qpn psn kind} (h : s.pkg.Canonical) : Leaves (execRoceAckReceive qpn psn kind s) :=
  .of_run (.ite h (.ite (.setQp h) (.ite (.roceRetry (.setQp h)) (.ite (.setQp (.setQp h)) (.qpError (.setQp h))))))

theorem Leaves.roceAckTimeout {qpn} (h : s.pkg.Canonical) : Leaves (execRoceAckTimeout qpn s) := .of_run (.ite (.roceRetry h) h)
theorem Leaves.roceRnrTimer {qpn} (h : s.pkg.Canonical) : Leaves (execRoceRnrTimer qpn s) := .of_run (.ite (.roceResend (.setQp h)) h)
theorem Leaves.cnpReceive {qpn} (h : s.pkg.Canonical) : Leaves (execCnpReceive qpn s) := .of_run (.ite h (.bump (.setQp h)))
theorem Leaves.cnpRateIncrease {qpn} (h : s.pkg.Canonical) : Leaves (execCnpRateIncrease qpn s) := .of_run (.ite (.setQp h) h)
theorem Pkg.Canonical.resumePrio {n} (h : p.Canonical) : (p.resumePrio n).Canonical := .foldl (fun _ _ h1 => .leave h1) (h.same rfl)

theorem Leaves.pfcFrameReceive {prio quanta} (h : s.pkg.Canonical) : Leaves (execPfcFrameReceive prio quanta s) := by
  unfold Machine.execPfcFrameReceive
  refine .of_run (.ite h ?_)
  extract_lets q _
  have hq : q.Canonical := .bump h
  exact .ite (.resumePrio hq) (hq.same rfl)

theorem Leaves.pfcPauseEnd {prio} (h : s.pkg.Canonical) : Leaves (execPfcPauseEnd prio s) := .of_run (.ite (.resumePrio h) h)
theorem Leaves.arpRequest {target vlan} (h : s.pkg.Canonical) : Leaves (execArpRequest target vlan s) := .of_run (.ite h (.ethSend h))

theorem Leaves.neighbourSolicitation {target vlan} (h : s.pkg.Canonical) : Leaves (execNeighbourSolicitation target vlan s) :=
  .of_run (.ite (.ethSend h) h)

theorem Leaves.icmpEchoRequest {v6 payload vlan} (h : s.pkg.Canonical) : Leaves (execIcmpEchoRequest v6 payload vlan s) :=
  .of_run (.ite h (.ethSend (h.same rfl)))

theorem Leaves.frameDrop {fragment} (h : s.pkg.Canonical) : Leaves (execFrameDrop fragment s) := .of_run (.ite (.bump h) h)

end Sys2Proof.Machine
end

