-- ==== Sys2Proof/Proofs/CanonicalPackage.lean ====
section
/-! Firmware images, power, boot and the commands of securing and information keep memory canonical. -/

namespace Sys2Proof.Machine

variable {p q : Pkg} {s : State}

/-! ## Firmware images -/

theorem Pkg.Canonical.badEntry {ty n} (h : p.Canonical) : (p.badEntry ty n).Canonical := .raise (.setFlag h)

theorem Pkg.Canonical.applyEntries {ty es f} (h : p.Canonical) (hf : ∀ p e q, p.Canonical → f p e = some q → q.Canonical) :
  (p.applyEntries ty es f).Canonical := by
  unfold Pkg.applyEntries
  refine .foldl ?_ h
  intro q _ h1
  split
  next _ e => exact hf _ _ _ h1 e
  · exact .badEntry h1

theorem Pkg.Canonical.hbExclude {e} (h : p.Canonical) (hq : p.hbExclude e = some q) : q.Canonical := by
  unfold Pkg.hbExclude at hq
  extract_lets d at hq
  obtain ⟨-, he⟩ := Option.ite_none_right_eq_some.mp hq
  obtain rfl := Option.some.inj he
  exact h.same rfl

theorem Pkg.Canonical.hbBundle {e} (h : p.Canonical) (hq : p.hbBundle e = some q) : q.Canonical := by
  unfold Pkg.hbBundle at hq
  extract_lets d b wires at hq
  split at hq
  · cases hq
  · extract_lets i old new r at hq
    have hr : r.Canonical := .modGroup h
    clear_value r
    split at hq
    · cases hq
    · obtain rfl := Option.some.inj hq
      exact .ite hr (.raiseHb hr)

theorem Pkg.Canonical.newBundles {given} (h : p.Canonical) : (p.newBundles given).Canonical :=
  .foldl (fun _ _ h1 => .foldl (fun _ _ h2 => .foldl (fun _ _ h3 => .ite h3 (.raiseHb h3)) h2) h1) h

theorem Pkg.Canonical.hbLane {e} (h : p.Canonical) (hq : p.hbLane e = some q) : q.Canonical := by
  unfold Pkg.hbLane at hq
  extract_lets n m ls at hq
  obtain ⟨-, he⟩ := Option.ite_none_right_eq_some.mp hq
  obtain rfl := Option.some.inj he
  exact .modPort h

theorem Pkg.Canonical.hbCal {e} (h : p.Canonical) (hq : p.hbCal e = some q) : q.Canonical := by
  unfold Pkg.hbCal at hq
  extract_lets d u ok at hq
  split at hq
  next _ r e =>
    have hr : r.Canonical := .of_eq e (.take h)
    obtain ⟨-, he⟩ := Option.ite_none_right_eq_some.mp hq
    obtain rfl := Option.some.inj he
    exact hr.same rfl

theorem Pkg.Canonical.hbRepair {e} (h : p.Canonical) : (p.hbRepair e).Canonical := by
  unfold Pkg.hbRepair
  extract_lets _ _ _ q _
  have hq : q.Canonical := .raise h
  exact .ite h (.ite hq (.ite (.ite hq (.modStack h)) (.ite (.ite hq (.modStack h)) hq)))

theorem Pkg.Canonical.applyBundle {b} (h : p.Canonical) : (p.applyBundle b).Canonical := by
  unfold Pkg.applyBundle
  extract_lets _ _ q1 q2 q3 q4 q5 _ _ _ q6 q7 _ _
  have hq1 : q1.Canonical := .applyEntries h fun _ _ _ h => .hbExclude h
  have hq2 : q2.Canonical := .newBundles (.applyEntries hq1 fun _ _ _ h => .hbBundle h)
  have hq3 : q3.Canonical := .applyEntries hq2 fun _ _ _ h => .hbLane h
  have hq4 : q4.Canonical := .applyEntries hq3 fun _ _ _ h => .hbCal h
  have hq5 : q5.Canonical := .foldl (fun _ _ h => .hbRepair h) hq4
  have hq6 : q6.Canonical := .ite (.badEntry hq5) hq5
  have hq7 : q7.Canonical := .ite (.badEntry hq6) hq6
  exact hq7.same rfl

theorem Pkg.Canonical.qualify {s r} (h : p.Canonical) : (p.qualify s r).Canonical :=
  .ite (.raise (.modStack (.modStack h))) (.ite (.raise (.modStack (.modStack h))) (.modStack (.modStack h)))

theorem Pkg.Canonical.startKey (h : p.Canonical) : (p.startKey).Canonical := by
  unfold Pkg.startKey
  extract_lets q _
  have hq : q.Canonical := .ite h (.newKey h)
  exact hq.same rfl

theorem Pkg.Canonical.keepImage {b entry} (h : p.Canonical) : (p.keepImage b entry).Canonical := h.same rfl
theorem Pkg.Canonical.setFeature (h : p.Canonical) : (p.setFeature).Canonical := .foldl (fun _ _ h1 => .modDie h1) h

theorem Pkg.Canonical.firmwareStart {image bundle entry stackTab} (h : p.Canonical) : (p.firmwareStart image bundle entry stackTab).Canonical := by
  unfold Pkg.firmwareStart
  extract_lets q1 q2
  have hq1 : q1.Canonical := .applyBundle (.startKey (.setFeature (.keepImage h)))
  have hq2 : q2.Canonical := .foldl (fun _ _ h1 => .ite (.coreMap h1) h1) hq1
  exact .foldl (fun _ _ h2 => .qualify h2) hq2

/-! ## Power -/

theorem Leaves.canaryUpdate {d n rate} (h : s.pkg.Canonical) : Leaves (execCanaryUpdate d n rate s) := by
  unfold Machine.execCanaryUpdate
  refine .of_run (.ite h ?_)
  extract_lets _ _ _
  split
  next _ q e =>
    have hq : q.Canonical := .of_eq e (.take h)
    exact .modDie hq

theorem Leaves.powerLoopTick (h : s.pkg.Canonical) : Leaves (execPowerLoopTick s) := .of_run (.railLoops h)

theorem Leaves.capTick {power} (h : s.pkg.Canonical) : Leaves (execCapTick power s) := by
  unfold Machine.execCapTick
  refine .of_run (.ite h ?_)
  extract_lets q1 q2 _ _ q3 q4
  have hq1 : q1.Canonical := .noteCauses h
  have hq2 : q2.Canonical := .ite (.addCtr hq1) hq1
  have hq3 : q3.Canonical := .same hq2 (by dsimp only [q3])
  have hq4 : q4.Canonical := .ite (.foldl (fun _ _ h1 => .setVCap h1) hq3) (.ite (.foldl (fun _ _ h2 => .ite h2 (.setVCap h2)) hq3) hq3)
  exact .noteCauses (.foldl (fun _ _ h3 => .setVCap h3) hq4)

theorem Leaves.capExceeded (h : s.pkg.Canonical) : Leaves (execCapExceeded s) := .of_run (.ite (.setFlag (h.same rfl)) h)
theorem Pkg.Canonical.packageReset : (p.packageReset).Canonical := reset_wf
theorem Pkg.Canonical.trip {d reading} : (p.trip d reading).Canonical := .pkgTo .packageReset

theorem Pkg.Canonical.thermal {d was} (h : p.Canonical) : (p.thermal d was).Canonical := by
  unfold Pkg.thermal
  extract_lets _ q1 q2 q3 q4
  have hq1 : q1.Canonical := .modDie h
  have hq2 : q2.Canonical := .ite (.setFlag hq1) hq1
  have hq3 : q3.Canonical := .ite (.setFlag hq2) hq2
  have hq4 : q4.Canonical := .ite (.foldl (fun _ _ h1 => .setVCap h1) hq3) hq3
  exact .ite .trip hq4

theorem Leaves.thermalReading {readings} (h : s.pkg.Canonical) : Leaves (execThermalReading readings s) :=
  .of_run (.ite h (.noteCauses (.foldl (fun _ _ h1 => .thermal (.modDie h1)) (.ite (.addCtr (.noteCauses h)) (.noteCauses h)))))

theorem Leaves.domainFault {d} (h : s.pkg.Canonical) : Leaves (execDomainFault d s) := by
  unfold Machine.execDomainFault
  refine .of_run (.ite h ?_)
  extract_lets _ q
  have hq : q.Canonical := .bump (.setFlag (h.same rfl))
  split
  · exact .dieReset hq
  · exact hq

theorem Leaves.heartbeatTimer (h : s.pkg.Canonical) : Leaves (execHeartbeatTimer s) := .of_run (.ite (.emit (h.same rfl)) (.ite (h.same rfl) h))

/-! ## Boot -/

theorem Pkg.Canonical.sendTagged {n k} (h : p.Canonical) : (p.sendTagged n k).Canonical := .sendOn (h.same rfl)

theorem Pkg.Canonical.bootSend {ty body} (h : p.Canonical) : (p.bootSend ty body).Canonical := by
  unfold Pkg.bootSend
  extract_lets _ n _
  refine .ite (.ethSend h) ?_
  clear_value n
  split
  · exact h
  · exact .sendTagged h

theorem Pkg.Canonical.reannounce (h : p.Canonical) : (p.reannounce).Canonical := h.same rfl
theorem Pkg.Canonical.reject {reason} (h : p.Canonical) : (p.reject reason).Canonical := .reannounce (.bootSend h)
theorem Pkg.Canonical.trainAll (h : p.Canonical) : (p.trainAll).Canonical := .foldl (fun _ _ h1 => .ite (.portTrain h1) h1) h
theorem Pkg.Canonical.bootByRelay (h : p.Canonical) : (p.bootByRelay).Canonical := .trainAll (.reannounce (h.same rfl))

theorem Pkg.Canonical.bootBegin (h : p.Canonical) : (p.bootBegin).Canonical :=
  .ite (.bootByRelay (h.same rfl)) (.ite (.reannounce (h.same rfl)) (h.same rfl))

theorem Leaves.resetNAssert {ns} (h : s.pkg.Canonical) : Leaves (execResetNAssert ns s) := by
  unfold Machine.execResetNAssert
  refine .of_run (.ite h ?_)
  split
  next _ q e =>
    have hq : q.Canonical := .of_eq e (.take h)
    exact .ite .packageReset (.ite .packageReset hq)

theorem Leaves.pwrGoodAssert (h : s.pkg.Canonical) : Leaves (execPwrGoodAssert s) := .of_run (.ite (h.same rfl) h)
theorem Leaves.pwrGoodDeassert (h : s.pkg.Canonical) : Leaves (execPwrGoodDeassert s) := .of_run (.ite h .packageReset)
theorem Leaves.railOutOfRange {vaux} (h : s.pkg.Canonical) : Leaves (execRailOutOfRange vaux s) := .of_run (.ite h .packageReset)
theorem Leaves.railBackInRange {vaux} (h : s.pkg.Canonical) : Leaves (execRailBackInRange vaux s) := .of_run (.ite (h.same rfl) (h.same rfl))
theorem Leaves.vauxInRange (h : s.pkg.Canonical) : Leaves (execVauxInRange s) := .of_run (.ite h (h.same rfl))
theorem Leaves.vauxRemoved (h : s.pkg.Canonical) : Leaves (execVauxRemoved s) := .of_run (.ite h (h.same rfl))

theorem Pkg.Canonical.startDie {d r} (h : p.Canonical) : (p.startDie d r).Canonical := by
  unfold Pkg.startDie
  extract_lets q1 q2 q3 _
  have hq1 : q1.Canonical := .modDie h
  have hq2 : q2.Canonical := .ite (hq1.same rfl) hq1
  have hq3 : q3.Canonical := by
    unfold q3
    refine .foldl ?_ hq2
    intro q4 _ h1
    extract_lets _ q5 _ q6
    have hq5 : q5.Canonical := .foldl (fun _ _ h2 => .modGroup h2) h1
    have hq6 : q6.Canonical := .modGroup hq5
    exact .ite (.raise (.setFlag hq6)) hq6
  exact .modDie hq3

theorem Leaves.packageStart {ethRate dies} (h : s.pkg.Canonical) : Leaves (execPackageStart ethRate dies s) := by
  unfold Machine.execPackageStart
  refine .of_run (.ite h ?_)
  extract_lets _ q1 _ _ _ q2 q3 q4 _ _ q5 q6
  have hq1 : q1.Canonical := .packageReset
  have hq2 : q2.Canonical := hq1.same rfl
  have hq3 : q3.Canonical := by
    unfold q3
    refine .foldl ?_ hq2
    intro q7 _ h1
    split
    · exact .startDie h1
    · exact .modDie h1
  have hq4 : q4.Canonical := .seamFix (.seamFix hq3)
  have hq5 : q5.Canonical := hq4.same rfl
  have hq6 : q6.Canonical := .raise hq5
  exact .ite (.bootBegin hq6) hq6

theorem Leaves.bootPortUpTimeout (h : s.pkg.Canonical) : Leaves (execBootPortUpTimeout s) := .of_run (.ite (.bootByRelay h) h)

theorem Leaves.ethLinkChange {up} (h : s.pkg.Canonical) : Leaves (execEthLinkChange up s) := by
  unfold Machine.execEthLinkChange
  refine .of_run (.ite h ?_)
  extract_lets q
  have hq : q.Canonical := .ethTo (.ite (.openXing h) h)
  exact .ite (.reannounce hq) hq

theorem Leaves.announceTimer (h : s.pkg.Canonical) : Leaves (execAnnounceTimer s) := by
  unfold Machine.execAnnounceTimer
  refine .of_run (.ite h ?_)
  split
  next _ q e =>
    have hq : q.Canonical := .of_eq e (.take h)
    exact .ite (.ethSend (hq.same rfl)) (.foldl (fun _ _ h1 => .ite h1 (.sendTagged h1)) (hq.same rfl))

theorem Leaves.bootOffer {serial xid server port imageLen ip6 ip4 bundleLen} (h : s.pkg.Canonical) : Leaves
  (execBootOffer serial xid server port imageLen ip6 ip4 bundleLen s) := by
  unfold Machine.execBootOffer
  refine .of_run (.ite h ?_)
  extract_lets _ q _ _ _
  have hq : q.Canonical := h.same rfl
  exact .ite (.reject hq) (.bootSend (hq.same rfl))

theorem Leaves.bootData {serial xid block data} (h : s.pkg.Canonical) : Leaves (execBootData serial xid block data s) := by
  unfold Machine.execBootData
  refine .of_run (.ite h ?_)
  extract_lets _ _ _ _ q _
  have hq : q.Canonical := h.same rfl
  exact .ite (.bootSend hq) (.ite (hq.same rfl) hq)

theorem Leaves.bootBlockTimeout {block} (h : s.pkg.Canonical) : Leaves (execBootBlockTimeout block s) := .of_run (.ite (.bootSend h) h)
theorem Leaves.bootTransferTimeout (h : s.pkg.Canonical) : Leaves (execBootTransferTimeout s) := .of_run (.ite (.reject h) h)

theorem Pkg.Canonical.bootDone (h : p.Canonical) : (p.bootDone).Canonical := by
  unfold Pkg.bootDone
  extract_lets q1 _ q2
  have hq1 : q1.Canonical := .bootSend (.pkgTo h)
  have hq2 : q2.Canonical := hq1.same rfl
  exact .ite (.trainAll hq2) hq2

theorem Leaves.bootVerifyDone {stackTab} (h : s.pkg.Canonical) : Leaves (execBootVerifyDone stackTab s) := by
  unfold Machine.execBootVerifyDone
  refine .of_run (.ite h (.ite (.reject h) (.ite (.reject h) ?_)))
  split
  · exact .reject (.same h (by dsimp only))
  · extract_lets q1 _ q2
    have hq1 : q1.Canonical := .firmwareStart h
    have hq2 : q2.Canonical := .same hq1 (by dsimp only [q2])
    exact .ite hq2 (.bootDone hq2)

theorem Leaves.standbySyncDone (h : s.pkg.Canonical) : Leaves (execStandbySyncDone s) :=
  .of_run (.ite h (.ite (.bootDone (h.same rfl)) (h.same rfl)))

theorem Pkg.Canonical.takeOver {old synced} (h : p.Canonical) : (p.takeOver old synced).Canonical := by
  unfold Pkg.takeOver
  extract_lets _ q1 q2
  have hq1 : q1.Canonical := h.same rfl
  have hq2 : q2.Canonical := .setFlag (.bump (.raise hq1))
  exact .ite (.bootBegin hq2) (.ite (.newKey hq2) (.pkgTo (.refreshAll (.killAll (.newKey hq2)))))

theorem Leaves.takeover (h : s.pkg.Canonical) : Leaves (execTakeover s) := .of_run (.ite (.takeOver (.excuseAll (.dieReset h))) h)

/-! ## Firmware commands -/

theorem Pkg.Canonical.signReport {nonce} (h : p.Canonical) : (p.signReport nonce).2.Canonical := by
  unfold Pkg.signReport
  extract_lets _ _ _ _ q
  have hq : q.Canonical := .bump (h.same rfl)
  exact .ite hq (.newKey hq)

theorem Pkg.Canonical.signWaiting {fuel} (h : p.Canonical) : (p.signWaiting fuel).Canonical := by
  induction fuel generalizing p with
  | zero => exact h
  | succ fuel ih =>
    unfold Pkg.signWaiting
    split
    · exact h
    · exact .ite h (ih (.replyWaiting (.signReport (h.same rfl))))

theorem Pkg.Canonical.keyReady (h : p.Canonical) : (p.keyReady).Canonical := by
  unfold Pkg.keyReady
  split
  next _ q e =>
    have hq : q.Canonical := .of_eq e (.take h)
    exact .bump (hq.same rfl)

theorem Leaves.attest {k} (h : s.pkg.Canonical) : Leaves (execAttest k s) :=
  .of_run (.luajo h (fun _ _ h1 => .ite (.ok (.signReport h1)) (.wait (h1.same rfl))))

theorem Leaves.perBootKeyReady (h : s.pkg.Canonical) : Leaves (execPerBootKeyReady s) := .of_run (.ite (.signWaiting (.keyReady h)) h)
theorem Leaves.fwLoad {k} (h : s.pkg.Canonical) : Leaves (execFwLoad k s) := .of_run (.luajo h (fun _ _ h1 => .wait (h1.same rfl)))
theorem Pkg.Canonical.unplan {n} (h : p.Canonical) : (p.unplan n).Canonical := .ite (.linkLoss (.portHello (.modPort h))) (.modPort h)

theorem Pkg.Canonical.restart (h : p.Canonical) : (p.restart).Canonical :=
  .foldl (fun _ _ h1 => .unplan h1) (.foldl (fun _ _ h2 => .modStack h2) (h.same rfl))

theorem Pkg.Canonical.fwReload {image} (h : p.Canonical) : (p.fwReload image).Canonical := by
  unfold Pkg.fwReload
  extract_lets q _
  have hq : q.Canonical := .restart h
  split
  · exact .pkgTo (.startKey (.keepImage hq))
  · exact .pkgTo (.reannounce (.same hq (by dsimp only)))

theorem Leaves.fwLoadVerifyDone (h : s.pkg.Canonical) : Leaves (execFwLoadVerifyDone s) := by
  unfold Machine.execFwLoadVerifyDone
  refine .of_run ?_
  split
  · exact h
  · extract_lets _ q1 q2 q3
    have hq1 : q1.Canonical := h.same rfl
    have hq2 : q2.Canonical := .ite hq1 (.keyReady hq1)
    have hq3 : q3.Canonical := .signWaiting hq2
    exact .ite (.replyWaiting (.bump hq1)) (.fwReload (.replyWaiting hq3))

/-! ## Commands of securing -/

theorem Leaves.securePolicy {k} (h : s.pkg.Canonical) : Leaves (execSecurePolicy k s) :=
  .of_run (.luajo h (fun _ _ h1 => .ite .badState (.ite .no (.ok (.fillTensors (.setObj (.foldl (fun _ _ h2 => .modSync h2) (h1.same rfl))))))))

theorem Leaves.secureNow {k} (h : s.pkg.Canonical) : Leaves (execSecureNow k s) :=
  .of_run (.luajo h (fun _ _ h1 => .ite .badState (.ite .no (.ite .badState (.ok (h1.same rfl))))))

theorem Leaves.restore {k} (h : s.pkg.Canonical) : Leaves (execRestore k s) := by
  unfold Machine.execRestore
  refine .of_run (.luajo h ?_)
  intro _ _ h1
  extract_lets _ _ _ q _
  have hq : q.Canonical := by
    unfold q
    split
    · exact .stopCapture h1
    · exact h1
  exact .ite .badState (.ite .no (.wait (hq.same rfl)))

/-! ## Commands of information -/

theorem Leaves.getInfo {k} (h : s.pkg.Canonical) : Leaves (execGetInfo k s) := .of_run (.luajo h (fun _ _ h1 => .ok h1))

theorem Leaves.readCounters {k} (h : s.pkg.Canonical) : Leaves (execReadCounters k s) := by
  unfold Machine.execReadCounters
  extract_lets ent
  refine .of_run (.luajo h fun p c h => ?_)
  extract_lets v n
  split
  · exact .ok h
  · extract_lets r
    have hr : r.1.Canonical := by
      refine .foldl_of Prod.fst (fun r i hr => ?_) h
      split
      · exact hr
      · exact .take (w := 64) hr
    exact .ok hr

theorem Pkg.Canonical.readStore {k dl store} (h : p.Canonical) : (p.readStore k dl store).Canonical := .luajo h (fun _ _ h1 => .ok h1)
theorem Leaves.readEvents {k} (h : s.pkg.Canonical) : Leaves (execReadEvents k s) := .of_run (.readStore h)
theorem Leaves.readDeadlineRecords {k} (h : s.pkg.Canonical) : Leaves (execReadDeadlineRecords k s) := .of_run (.readStore h)
theorem Leaves.readTally {k} (h : s.pkg.Canonical) : Leaves (execReadTally k s) := .of_run (.luajo h (fun _ _ h1 => .ite .badState (.ok h1)))
theorem Leaves.debugPeek {k} (h : s.pkg.Canonical) : Leaves (execDebugPeek k s) := .of_run (.luajo h (fun _ _ h1 => .ok h1))

/-! ## Relayed commands -/

theorem Leaves.relayRequest {ip port header inner} (h : s.pkg.Canonical) : Leaves (execRelayRequest ip port header inner s) :=
  .of_run (.ite h (.ite (.bump h) (.ite (.ite h (.sendTagged (h.same rfl))) (.request h))))

theorem Leaves.cmdReplyReceive {k} (h : s.pkg.Canonical) : Leaves (execCmdReplyReceive k s) := by
  unfold Machine.execCmdReplyReceive
  refine .of_run (.arrive h ?_)
  intro _ h1
  extract_lets q1 _ _ _
  have hq1 : q1.Canonical := by
    unfold q1
    split
    · split
      · exact .endReq h1
      · exact h1
    · exact h1
  refine .ite hq1 ?_
  split
  next _ q2 e =>
    have hq2 : q2.Canonical := .of_eq e (.take hq1)
    extract_lets _ _
    refine .ite (.ethSend hq2) ?_
    split
    · exact .ethSend hq2
    · exact hq2

theorem firstRow_leaves {fs : List (State → Host.Outcome State Fault Refusal)} (hfs : ∀ f ∈ fs, ∀ s : State, s.pkg.Canonical → Leaves (f s))
    (h : s.pkg.Canonical) : Leaves (firstRow fs s) := by
  induction fs with
  | nil => exact .skip h
  | cons f fs ih =>
    have hf : Leaves (f s) := hfs f List.mem_cons_self s h
    unfold firstRow
    split
    next t e =>
      split
      · exact ih fun g hg => hfs g (List.mem_cons_of_mem _ hg)
      · exact e ▸ hf
    next r e => exact e ▸ hf
    next r e => exact e ▸ hf

theorem luajoRows_leaves {k op} : ∀ f ∈ luajoRows k op, ∀ s : State, s.pkg.Canonical → Leaves (f s) := by
  unfold luajoRows
  split <;> simp only [List.forall_mem_cons, List.not_mem_nil, false_implies, implies_true, and_true]
  · exact fun _ h => .sessionOpen h
  · exact fun _ h => .sessionClose h
  · exact fun _ h => .getInfo h
  · exact fun _ h => .regRead h
  · exact ⟨fun _ h => .regWrite h, fun _ h => .fabResetReqOrderly h, fun _ h => .fabResetReqAbrupt h, fun _ h => .handover h⟩
  · exact fun _ h => .setTopology h
  · exact fun _ h => .setRoutes h
  · exact ⟨fun _ h => .portRetrain h, fun _ h => .portDark h, fun _ h => .portWake h, fun _ h => .portDisable h, fun _ h => .portReset h,
        fun _ h => .portRecheck h, fun _ h => .portRebalance h, fun _ h => .portLimits h, fun _ h => .portBootServe h⟩
  · exact fun _ h => .contextCreate h
  · exact fun _ h => .contextDestroy h
  · exact fun _ h => .contextSetClass h
  · exact fun _ h => .loadProgram h
  · exact fun _ h => .bindSlot h
  · exact fun _ h => .setDeadline h
  · exact fun _ h => .unbindSlot h
  · exact ⟨fun _ h => .memMapMap h, fun _ h => .memMapUnmap h, fun _ h => .memMapSetPartition h⟩
  · exact ⟨fun _ h => .bulkCreateQp h, fun _ h => .bulkDestroyQp h, fun _ h => .bulkRegisterKey h, fun _ h => .bulkDeregisterKey h, fun _ h =>
        .bulkBindSlot h, fun _ h => .bulkUnbindSlot h⟩
  · exact fun _ h => .stepBegin h
  · exact fun _ h => .stepCommit h
  · exact ⟨fun _ h => .stepAbort h, fun _ h => .stepAbortForce h⟩
  · exact fun _ h => .run h
  · exact ⟨fun _ h => .preempt h, fun _ h => .preemptSwap h⟩
  · exact fun _ h => .securePolicy h
  · exact fun _ h => .secureNow h
  · exact fun _ h => .restore h
  · exact fun _ h => .reshard h
  · exact fun _ h => .serveJoin h
  · exact fun _ h => .serveLeave h
  · exact fun _ h => .readCounters h
  · exact ⟨fun _ h => .readEvents h, fun _ h => .readDeadlineRecords h⟩
  · exact fun _ h => .readTally h
  · exact fun _ h => .powerPolicy h
  · exact fun _ h => .fwLoad h
  · exact fun _ h => .attest h
  · exact fun _ h => .debugPeek h
  · exact fun _ h => .of_run (.luajo h fun _ _ h => .ok h)

theorem Leaves.cmdRelayReceive {k} (h : s.pkg.Canonical) : Leaves (execCmdRelayReceive k s) := by
  unfold Machine.execCmdRelayReceive
  split
  · exact .skip h
  · extract_lets _ _ t
    have ht : t.pkg.Canonical := h.same rfl
    split
    · exact firstRow_leaves luajoRows_leaves ht
    · exact .next ht

end Sys2Proof.Machine
end

