-- ==== Sys2Proof/Proofs/CanonicalStep.lean ====
section
/-! The instructions of a core keep memory canonical, and so does every step. -/

namespace Sys2Proof.Machine

variable {p q : Pkg} {s : State}

/-! ## The scalar class -/

theorem Leaves.scalar2 {t i f g} (h : s.pkg.Canonical) : Leaves (s.scalar2 t i f g) := .of_run (.issue h (fun _ _ h1 => .ok (.setThr h1)))
theorem Leaves.scalar0 {t i f g} (h : s.pkg.Canonical) : Leaves (s.scalar0 t i f g) := .of_run (.issue h (fun _ _ h1 => .ok (.setThr h1)))
theorem Leaves.li {t f} (h : s.pkg.Canonical) : Leaves (execLi t f s) := .of_run (.issue h (fun _ _ h1 => .ok (.setThr h1)))
theorem Leaves.ffma {t f} (h : s.pkg.Canonical) : Leaves (execFfma t f s) := .of_run (.issue h (fun _ _ h1 => .ok (.setThr h1)))
theorem Leaves.setvl {t f} (h : s.pkg.Canonical) : Leaves (execSetvl t f s) := .of_run (.issue h (fun _ _ h1 => .ite .fault (.ok (.setThr h1))))
theorem Leaves.setvm {t f} (h : s.pkg.Canonical) : Leaves (execSetvm t f s) := .of_run (.issue h (fun _ _ h1 => .ite .fault (.ok (.setThr h1))))
theorem Leaves.clrst {t f} (h : s.pkg.Canonical) : Leaves (execClrst t f s) := .of_run (.issue h (fun _ _ h1 => .ok (.setThr h1)))

theorem Leaves.rdinfo {t f} (h : s.pkg.Canonical) : Leaves (execRdinfo t f s) := by
  unfold Machine.execRdinfo
  refine .of_run (.issue h ?_)
  intro _ _ h1
  split
  · exact .ok (.setThr h1)
  · exact .fault

/-! ## The test access port -/

theorem Pkg.Canonical.tapSelect {code pins} (h : p.Canonical) : (p.tapSelect code pins).Canonical := .ite h (.ite (.emit (h.same rfl)) (h.same rfl))
theorem Leaves.jtagIdcode (h : s.pkg.Canonical) : Leaves (execJtagIdcode s) := .of_run (.ite (.emit (.tapSelect h)) h)

theorem Leaves.jtagSamplePreload {cells} (h : s.pkg.Canonical) : Leaves (execJtagSamplePreload cells s) := by
  unfold Machine.execJtagSamplePreload
  refine .of_run (.ite h ?_)
  split
  next _ q1 e =>
    have hq1 : q1.Canonical := .of_eq e (.take (.tapSelect h))
    extract_lets _ q2 _
    have hq2 : q2.Canonical := .emit hq1
    exact hq2.same rfl

theorem Leaves.jtagExtest (h : s.pkg.Canonical) : Leaves (execJtagExtest s) := .of_run (.tapSelect h)
theorem Leaves.jtagExtestPulse (h : s.pkg.Canonical) : Leaves (execJtagExtestPulse s) := .of_run (.tapSelect h)
theorem Leaves.jtagExtestTrain (h : s.pkg.Canonical) : Leaves (execJtagExtestTrain s) := .of_run (.tapSelect h)
theorem Leaves.jtagClamp (h : s.pkg.Canonical) : Leaves (execJtagClamp s) := .of_run (.tapSelect h)
theorem Leaves.jtagHighz (h : s.pkg.Canonical) : Leaves (execJtagHighz s) := .of_run (.tapSelect h)
theorem Leaves.jtagBypass (h : s.pkg.Canonical) : Leaves (execJtagBypass s) := .of_run (.tapSelect h)
theorem Leaves.trstNAssert (h : s.pkg.Canonical) : Leaves (execTrstNAssert s) := .of_run (.ite (h.same rfl) h)

/-! ## The tile class -/

theorem IRes.Canonical.tileIssue {t gemv i f th} (h : p.Canonical) : (p.tileIssue t gemv i f th).Canonical := by
  unfold Pkg.tileIssue
  extract_lets _ _ _ _ _ _ _ _ _ _ _ q
  have hq : q.Canonical := .setCore (.spRead h)
  split
  · exact .fault
  · refine .ite (.stop (.spPoison h)) ?_
    split
    · exact .fault
    · refine .ite (.ok (.setCore (.spRead h))) (.ite (.ite (.again h) .fault) ?_)
      split
      · exact .ok (.takeStart (.spRead h))
      · exact .ite (.ok (.engGrant (.engRevoke hq))) (.ok hq)

theorem Leaves.tmma {t f} (h : s.pkg.Canonical) : Leaves (execTmma t f s) := .of_run (.issue h (fun _ _ h1 => .tileIssue h1))
theorem Leaves.tgemv {t f} (h : s.pkg.Canonical) : Leaves (execTgemv t f s) := .of_run (.issue h (fun _ _ h1 => .tileIssue h1))

theorem Leaves.accSwap {t f} (h : s.pkg.Canonical) : Leaves (execAccSwap t f s) := by
  unfold Machine.execAccSwap
  refine .of_run (.issue h ?_)
  intro _ _ h1
  refine .needTag h1 (.ite (.ite (.again h1) .fault) ?_)
  split
  · exact .fault
  · refine .ite (.stop (.spPoison h1)) ?_
    extract_lets _ _
    split
    · exact .fault
    · exact .ok (.modCore (.setThr (.spRead h1)))

theorem Pkg.Canonical.chunkRun {g op} (h : p.Canonical) : (p.chunkRun g op).Canonical := by
  unfold Pkg.chunkRun
  extract_lets _ _ _ _ _ _ _ _ _ _ _ _ _ _ q1 q2 _ _ _ _ _ _ _ _ q3 q4
  have hq1 : q1.Canonical := .ite (.addCtr h) h
  have hq2 : q2.Canonical := .addFree hq1
  have hq3 : q3.Canonical := .setCore hq2
  have hq4 : q4.Canonical := .modThr (.setFlag (.addCtr hq3))
  exact .ite (.setCore hq2) (.ite (.setFlag (.bump (.setCore hq2))) (.ite (.setFlag (.bump hq4)) hq4))

theorem Leaves.tileChunkEnd {c} (h : s.pkg.Canonical) : Leaves (execTileChunkEnd c s) := by
  unfold Machine.execTileChunkEnd
  refine .of_run ?_
  split
  · exact h
  · exact .ite (.spPoison h) (.spReads (.chunkRun h))

theorem Leaves.swapTakeEffect {c} (h : s.pkg.Canonical) : Leaves (execSwapTakeEffect c s) := by
  unfold Machine.execSwapTakeEffect
  refine .of_run ?_
  extract_lets _
  split
  · exact h
  · exact .ite h (.ctxEval (.engGrant (.setCore h)))

theorem Pkg.Canonical.mergeRecord {g off max cand} (h : p.Canonical) : (p.mergeRecord g off max cand).Canonical := .ite h (.spStore h)

theorem Pkg.Canonical.trackConv {t en idx s} (h : p.Canonical) : (p.trackConv t en idx s).Canonical :=
  .ite (.ite (.modPos h) h) (.nonfinite (.ite (.modPos h) h))

theorem Pkg.Canonical.drainRun {g d} (h : p.Canonical) : (p.drainRun g d).Canonical := by
  unfold Pkg.drainRun
  extract_lets _ _ _ post _ _ _ _ _ _ _ _ _ _ _ q1 _ q2 _ q3 q4 _ red
  have hq1 : q1.Canonical := .foldl (fun _ _ h1 => .putScales (.putCodes h1)) h
  have hq2 : q2.Canonical := .trackConv hq1
  have hq3 : q3.Canonical := .ite (.nonfinite hq2) hq2
  have hq4 : q4.Canonical := .ite (.setFlag hq3) hq3
  have hRed : ∀ x25 x27 x28, x25.Canonical → (red x25 x27 x28).Canonical := by
    intro _ _ _ h2
    unfold red
    extract_lets _ _
    refine .foldl ?_ (h2.same rfl)
    intro q5 _ h3
    extract_lets cs
    clear_value cs
    split
    · exact h3
    · exact .mergeRecord h3
  clear_value post
  split
  · exact hRed _ _ _ hq4
  · exact hRed _ _ _ hq4
  · exact hRed _ _ _ hq4
  · exact hRed _ _ _ hq4
  · exact hq4

theorem Leaves.drainComplete {c} (h : s.pkg.Canonical) : Leaves (execDrainComplete c s) := by
  unfold Machine.execDrainComplete
  refine .of_run ?_
  split
  · exact h
  · refine .ite (.spPoison h) ?_
    extract_lets q1 q2
    have hq1 : q1.Canonical := .modCore (.spReads (.drainRun h))
    have hq2 : q2.Canonical := .ite (.addFree hq1) hq1
    exact .ctxEval (.endBg hq2)

/-! ## The vector class -/

theorem Pkg.Canonical.vecIssue {t o} (h : p.Canonical) : (p.vecIssue t o).Canonical := by
  unfold Pkg.vecIssue
  extract_lets _ q1 q2 q3 q4
  have hq1 : q1.Canonical := .modThr h
  have hq2 : q2.Canonical := .modCore hq1
  have hq3 : q3.Canonical := .setFlag (.bump (.modCore hq2))
  have hq4 : q4.Canonical := by
    unfold q4
    split
    · exact .ite (.modCtx hq3) hq2
    · exact hq2
  exact .vecNext hq4

theorem Pkg.Canonical.vecDone {g elements steps} (h : p.Canonical) : (p.vecDone g elements steps).Canonical := .modCore h

theorem Leaves.vec {t i cls opc n f} (h : s.pkg.Canonical) : Leaves (s.vec t i cls opc n f) := by
  unfold State.vec
  refine .of_run (.issue h ?_)
  intro _ _ h1
  refine .needTag h1 (.ite .fault (.ite (.ok (.vecDone h1)) ?_))
  extract_lets _ _ _ _ _
  split
  · exact .fault
  · refine .ite (.stop (.spPoison h1)) (.ite .fault ?_)
    split
    · exact .fault
    · exact .ok (.vecIssue (.spRead h1))

theorem Pkg.Canonical.vecCount {g t nfx nan inf invalid ovf sat} (h : p.Canonical) : (p.vecCount g t nfx nan inf invalid ovf sat).Canonical := by
  unfold Pkg.vecCount
  extract_lets q1 q2 q3 q4 q5 q6 q7 q8 q9
  have hq1 : q1.Canonical := .addCtr h
  have hq2 : q2.Canonical := .addCtr hq1
  have hq3 : q3.Canonical := .addCtr hq2
  have hq4 : q4.Canonical := .addCtr hq3
  have hq5 : q5.Canonical := .addCtr hq4
  have hq6 : q6.Canonical := .ite hq5 (.setFlag hq5)
  have hq7 : q7.Canonical := .ite hq6 (.setFlag hq6)
  have hq8 : q8.Canonical := .ite hq7 (.setFlag hq7)
  have hq9 : q9.Canonical := .ite hq8 (.setFlag hq8)
  exact .ite (.nonfinite hq9) hq9

theorem Pkg.Canonical.vecPut {g o c0 xs} (h : p.Canonical) : (p.vecPut g o c0 xs).Canonical := .vecCount (.putCodes h)
theorem Pkg.Canonical.vecBits {g o c0 m} (h : p.Canonical) : (p.vecBits g o c0 m).Canonical := .spStore h

theorem Pkg.Canonical.vecRow {g o} (h : p.Canonical) : (p.vecRow g o).Canonical := by
  unfold Pkg.vecRow
  extract_lets _ _ _ scalar _ _ _ _ _
  have hScalar : ∀ x10 x11, (scalar x10 x11).Canonical := by
    intro _ _ 
    unfold scalar
    exact .vecCount (.spStore h)
  split
  · exact hScalar _ _
  · exact hScalar _ _
  · exact .vecPut h
  · exact .spStore h

theorem Pkg.Canonical.cvtSlice {g o c0 m} (h : p.Canonical) : (p.cvtSlice g o c0 m).Canonical := by
  unfold Pkg.cvtSlice
  extract_lets _ _ _ _ _ _ _ _ _ _ _ q1 _ _ _ q2 q3 _ _ _ _ _ _ q4 q5 _ q6
  have hq1 : q1.Canonical := .ite (.addCtr h) h
  have hq2 : q2.Canonical := .putCodes hq1
  have hq3 : q3.Canonical := .ite (.spStore hq2) (.ite (.spStore hq2) (.ite (.putScales hq2) hq2))
  have hq4 : q4.Canonical := .putCodes hq1
  have hq5 : q5.Canonical := .putScales hq4
  have hq6 : q6.Canonical := .trackConv hq5
  exact .ite (.vecCount hq3) (.vecCount hq6)

theorem Pkg.Canonical.vecWrite {g o} (h : p.Canonical) : (p.vecWrite g o).Canonical :=
  .ite (.ite (.ite (.cvtSlice h) h) (.cvtSlice h)) (.ite (.ite (.vecRow h) h) (.ite (.vecBits h) (.vecPut h)))

theorem Leaves.vectorMicroopEnd {c} (h : s.pkg.Canonical) : Leaves (execVectorMicroopEnd c s) := by
  unfold Machine.execVectorMicroopEnd
  refine .of_run ?_
  split
  · exact h
  · split
    · exact .vecNext (.modCore h)
    · refine .ite (.spPoison h) ?_
      extract_lets q1 q2 _ _ q3
      have hq1 : q1.Canonical := .addCtr (.spReads (.vecWrite h))
      have hq2 : q2.Canonical := .addFree hq1
      have hq3 : q3.Canonical := .vecDone (.modCore hq2)
      split
      · exact .ctxEval (.vecNext (.modCore hq2))
      · exact .ctxEval (.vecNext (.endBg hq3))

theorem Leaves.cvt {t f} (h : s.pkg.Canonical) : Leaves (execCvt t f s) := by
  unfold Machine.execCvt
  refine .of_run (.issue h ?_)
  intro _ _ h1
  refine .needTag h1 (.ite .fault (.ite (.ok (.vecDone h1)) ?_))
  split
  · exact .fault
  · refine .ite (.stop (.spPoison h1)) ?_
    extract_lets _ _
    split
    · exact .fault
    · exact .ok (.vecIssue (.spRead (.spRead h1)))

/-! ## Every command -/

/-- Every command leaves memory in canonical form: its own arm does. -/
theorem exec_leaves (h : s.pkg.Canonical) (i : Instr) : Leaves (exec i s) := by
  cases i
  case add | sub | mul | mulhu | mulh | divu | div | remu | rem | and | or | xor | shl | shr | sar | min | max | minu | maxu | slt | sltu | seq
    | fadd | fsub | fmul | fdiv | fmin | fmax | flt => exact .scalar2 h
  case li => exact .li h
  case ffma => exact .ffma h
  case fcvtif | fcvtfi | getvl | getvm | getst | rdic => exact .scalar0 h
  case setvl => exact .setvl h
  case setvm => exact .setvm h
  case clrst => exact .clrst h
  case rdinfo => exact .rdinfo h
  case aadd => exact .aadd h
  case amov => exact .amov h
  case ard => exact .ard h
  case ali => exact .ali h
  case awin => exact .awin h
  case br => exact .br h
  case jal => exact .jal h
  case jalr => exact .jalr h
  case lds => exact .lds h
  case sts => exact .sts h
  case mld => exact .mld h
  case mst => exact .mst h
  case pref => exact .pref h
  case stashAlloc => exact .stashAlloc h
  case stashFind => exact .stashFind h
  case tmma => exact .tmma h
  case tgemv => exact .tgemv h
  case accSwap => exact .accSwap h
  case vAdd | vSub | vMul | vFma | vFms | vNeg | vAbs | vMin | vMax | vAdds | vSubs | vAnd | vOr | vXor | vShl | vShr | vSar | vCmpeq | vCmplt
    | vCmple | vCmpun | vSel | vDiv | vRcp | vSqrt | vRsqrt | vExp | vExp2 | vLog | vLog2 | vTanh | vSigmoid | vSilu | vGelu | vGeluT
    | vSoftplus | vSin | vCos | vDrelu | vDsigmoid | vDtanh | vDexp | vDsoftmax | vDsilu | vDgelu | vDgeluT | vDsoftplus | vSum | vDot | vMaxi
    | vMini | vMov | rndu | rndb | drop => exact .vec h
  case rndx => exact .rndx h
  case cvt => exact .cvt h
  case chOpen => exact .chOpen h
  case chOpenReader => exact .chOpenReader h
  case chSend => exact .chSend h
  case chRecv => exact .chRecv h
  case chClose => exact .chClose h
  case chPoll => exact .chPoll h
  case sumpAdd => exact .sumpAdd h
  case signal => exact .signal h
  case wait => exact .wait h
  case arm => exact .arm h
  case read => exact .read h
  case cas => exact .cas h
  case commit => exact .commit h
  case fence => exact .fence h
  case waittag => exact .waittag h
  case done => exact .done h
  case yield => exact .yield h
  case issueQuantumExpiry => exact .issueQuantumExpiry h
  case icacheMissFill => exact .icacheMissFill h
  case tagComplete => exact .tagComplete h
  case tileChunkEnd => exact .tileChunkEnd h
  case swapTakeEffect => exact .swapTakeEffect h
  case drainComplete => exact .drainComplete h
  case vectorMicroopEnd => exact .vectorMicroopEnd h
  case coreRetire => exact .coreRetire h
  case sessionOpen => exact .sessionOpen h
  case sessionClose => exact .sessionClose h
  case sessionIdleTimeout => exact .sessionIdleTimeout h
  case getInfo => exact .getInfo h
  case regRead => exact .regRead h
  case regWrite => exact .regWrite h
  case fabResetReqOrderly => exact .fabResetReqOrderly h
  case fabResetReqAbrupt => exact .fabResetReqAbrupt h
  case handover => exact .handover h
  case setTopology => exact .setTopology h
  case setRoutes => exact .setRoutes h
  case portRetrain => exact .portRetrain h
  case portDark => exact .portDark h
  case portWake => exact .portWake h
  case portDisable => exact .portDisable h
  case portReset => exact .portReset h
  case portRecheck => exact .portRecheck h
  case portRebalance => exact .portRebalance h
  case portLimits => exact .portLimits h
  case portBootServe => exact .portBootServe h
  case contextCreate => exact .contextCreate h
  case contextDestroy => exact .contextDestroy h
  case contextSetClass => exact .contextSetClass h
  case loadProgram => exact .loadProgram h
  case bindSlot => exact .bindSlot h
  case setDeadline => exact .setDeadline h
  case unbindSlot => exact .unbindSlot h
  case memMapMap => exact .memMapMap h
  case memMapUnmap => exact .memMapUnmap h
  case memMapSetPartition => exact .memMapSetPartition h
  case bulkCreateQp => exact .bulkCreateQp h
  case bulkDestroyQp => exact .bulkDestroyQp h
  case bulkRegisterKey => exact .bulkRegisterKey h
  case bulkDeregisterKey => exact .bulkDeregisterKey h
  case bulkBindSlot => exact .bulkBindSlot h
  case bulkUnbindSlot => exact .bulkUnbindSlot h
  case stepBegin => exact .stepBegin h
  case stepCommit => exact .stepCommit h
  case stepAbort => exact .stepAbort h
  case stepAbortForce => exact .stepAbortForce h
  case run => exact .run h
  case preempt => exact .preempt h
  case preemptSwap => exact .preemptSwap h
  case securePolicy => exact .securePolicy h
  case secureNow => exact .secureNow h
  case restore => exact .restore h
  case reshard => exact .reshard h
  case serveJoin => exact .serveJoin h
  case serveLeave => exact .serveLeave h
  case readCounters => exact .readCounters h
  case readEvents => exact .readEvents h
  case readDeadlineRecords => exact .readDeadlineRecords h
  case readTally => exact .readTally h
  case powerPolicy => exact .powerPolicy h
  case fwLoad => exact .fwLoad h
  case fwLoadVerifyDone => exact .fwLoadVerifyDone h
  case attest => exact .attest h
  case debugPeek => exact .debugPeek h
  case flitReceive => exact .flitReceive h
  case replayTimeout => exact .replayTimeout h
  case nakRepeatTimeout => exact .nakRepeatTimeout h
  case idleFlitTimer => exact .idleFlitTimer h
  case helloTimer => exact .helloTimer h
  case helloReceive => exact .helloReceive h
  case helloAcceptTimeout => exact .helloAcceptTimeout h
  case helloWaitTimeout => exact .helloWaitTimeout h
  case linkCtlReceive => exact .linkCtlReceive h
  case linkCtlRepeat => exact .linkCtlRepeat h
  case laneLockLoss => exact .laneLockLoss h
  case trainingAttemptEnd => exact .trainingAttemptEnd h
  case v8FallbackTimeout => exact .v8FallbackTimeout h
  case retrainLimitExpiry => exact .retrainLimitExpiry h
  case downRetryTimer => exact .downRetryTimer h
  case signalDetect => exact .signalDetect h
  case noSignalTimeout => exact .noSignalTimeout h
  case darkNoticeRepeat => exact .darkNoticeRepeat h
  case darkNoticeReceive => exact .darkNoticeReceive h
  case darkDrainComplete => exact .darkDrainComplete h
  case darkDrainLimit => exact .darkDrainLimit h
  case darkWindowEnd => exact .darkWindowEnd h
  case refclkLnkLoss => exact .refclkLnkLoss h
  case packetRoute => exact .packetRoute h
  case lossReceive => exact .lossReceive h
  case responseLimitExpiry => exact .responseLimitExpiry h
  case mbResendTimeout => exact .mbResendTimeout h
  case mbHeadReceive => exact .mbHeadReceive h
  case pageWriteReceive => exact .pageWriteReceive h
  case landingPageCommit => exact .landingPageCommit h
  case creditRepeatTimer => exact .creditRepeatTimer h
  case creditReceive => exact .creditReceive h
  case sequencerDispatch => exact .sequencerDispatch h
  case egressPageCommit => exact .egressPageCommit h
  case egressStream => exact .egressStream h
  case stashWaitGranted => exact .stashWaitGranted h
  case spillFetchComplete => exact .spillFetchComplete h
  case kvRelayForward => exact .kvRelayForward h
  case deadlineLate => exact .deadlineLate h
  case groupReceive => exact .groupReceive h
  case commitAnswer => exact .commitAnswer h
  case effectResponseReceive => exact .effectResponseReceive h
  case chMsgReceive => exact .chMsgReceive h
  case chOpenRequestReceive => exact .chOpenRequestReceive h
  case chCloseRequestReceive => exact .chCloseRequestReceive h
  case chAckReceive => exact .chAckReceive h
  case chOpenRetryTimer => exact .chOpenRetryTimer h
  case chStallExpiry => exact .chStallExpiry h
  case syncOpApply => exact .syncOpApply h
  case syncRespReceive => exact .syncRespReceive h
  case syncRetryTimer => exact .syncRetryTimer h
  case sumpAddPacket => exact .sumpAddPacket h
  case sumpDeliveryComplete => exact .sumpDeliveryComplete h
  case memLineAccess => exact .memLineAccess h
  case rowRepairCopyDone => exact .rowRepairCopyDone h
  case memRemoteRequest => exact .memRemoteRequest h
  case memRespReceive => exact .memRespReceive h
  case memRetryTimer => exact .memRetryTimer h
  case scrubStep => exact .scrubStep h
  case mdCeIntervalEnd => exact .mdCeIntervalEnd h
  case hotspotWindowEnd => exact .hotspotWindowEnd h
  case stackTempRead => exact .stackTempRead h
  case orderlyResetWaitExpiry => exact .orderlyResetWaitExpiry h
  case stackInitComplete => exact .stackInitComplete h
  case diePacketReceive => exact .diePacketReceive h
  case hopControlWord => exact .hopControlWord h
  case groupRetestDone => exact .groupRetestDone h
  case fabCeIntervalEnd => exact .fabCeIntervalEnd h
  case dieAbruptReset => exact .dieAbruptReset h
  case watchdogExpiry => exact .watchdogExpiry h
  case clockLoss => exact .clockLoss h
  case dieRejoin => exact .dieRejoin h
  case refclkEthStop => exact .refclkEthStop h
  case refclkEthReturn => exact .refclkEthReturn h
  case refclkHoldoverEnd => exact .refclkHoldoverEnd h
  case sealVote => exact .sealVote h
  case sealLimitExpiry => exact .sealLimitExpiry h
  case verdictApply => exact .verdictApply h
  case swapHoldExpiry => exact .swapHoldExpiry h
  case freezeWaitExpiry => exact .freezeWaitExpiry h
  case swapSaveComplete => exact .swapSaveComplete h
  case swapInComplete => exact .swapInComplete h
  case captureLocalCopyDone => exact .captureLocalCopyDone h
  case parityPartReceive => exact .parityPartReceive h
  case journalPageReceive => exact .journalPageReceive h
  case captureReport => exact .captureReport h
  case captureAbandon => exact .captureAbandon h
  case restoreComplete => exact .restoreComplete h
  case reshardChunkAck => exact .reshardChunkAck h
  case powerLoopTick => exact .powerLoopTick h
  case canaryUpdate => exact .canaryUpdate h
  case capTick => exact .capTick h
  case capExceeded => exact .capExceeded h
  case thermalReading => exact .thermalReading h
  case resetNAssert => exact .resetNAssert h
  case pwrGoodDeassert => exact .pwrGoodDeassert h
  case railOutOfRange => exact .railOutOfRange h
  case domainFault => exact .domainFault h
  case packageStart => exact .packageStart h
  case heartbeatTimer => exact .heartbeatTimer h
  case takeover => exact .takeover h
  case standbySyncDone => exact .standbySyncDone h
  case ethLinkChange => exact .ethLinkChange h
  case arpRequest => exact .arpRequest h
  case neighbourSolicitation => exact .neighbourSolicitation h
  case icmpEchoRequest => exact .icmpEchoRequest h
  case frameDrop => exact .frameDrop h
  case relayRequest => exact .relayRequest h
  case cmdRelayReceive => exact .cmdRelayReceive h
  case cmdReplyReceive => exact .cmdReplyReceive h
  case roceSendReceive => exact .roceSendReceive h
  case roceWriteReceive => exact .roceWriteReceive h
  case roceReadReceive => exact .roceReadReceive h
  case roceAckReceive => exact .roceAckReceive h
  case roceAckTimeout => exact .roceAckTimeout h
  case roceRnrTimer => exact .roceRnrTimer h
  case pfcFrameReceive => exact .pfcFrameReceive h
  case cnpReceive => exact .cnpReceive h
  case cnpRateIncrease => exact .cnpRateIncrease h
  case bootPortUpTimeout => exact .bootPortUpTimeout h
  case announceTimer => exact .announceTimer h
  case bootOffer => exact .bootOffer h
  case bootData => exact .bootData h
  case bootBlockTimeout => exact .bootBlockTimeout h
  case bootTransferTimeout => exact .bootTransferTimeout h
  case bootVerifyDone => exact .bootVerifyDone h
  case perBootKeyReady => exact .perBootKeyReady h
  case jtagIdcode => exact .jtagIdcode h
  case jtagSamplePreload => exact .jtagSamplePreload h
  case jtagExtest => exact .jtagExtest h
  case jtagExtestPulse => exact .jtagExtestPulse h
  case jtagExtestTrain => exact .jtagExtestTrain h
  case jtagClamp => exact .jtagClamp h
  case jtagHighz => exact .jtagHighz h
  case jtagBypass => exact .jtagBypass h
  case trstNAssert => exact .trstNAssert h
  case selfRefreshExit => exact .selfRefreshExit h
  case ringTransfer => exact .ringTransfer h
  case stashSpillDone => exact .stashSpillDone h
  case preemptionDone => exact .preemptionDone h
  case refclkLnkReturn => exact .refclkLnkReturn h
  case pwrGoodAssert => exact .pwrGoodAssert h
  case vauxInRange => exact .vauxInRange h
  case vauxRemoved => exact .vauxRemoved h
  case railBackInRange => exact .railBackInRange h
  case pfcPauseEnd => exact .pfcPauseEnd h

/-- Settles O57: a step runs the command at the front, or lets a nanosecond pass. -/
theorem memoryStaysCanonical : Obligations.MemoryStaysCanonical := by
  unfold Obligations.MemoryStaysCanonical
  intro s t (h : s.pkg.Canonical) hst
  unfold step at hst
  split at hst
  · cases hst
    exact h.same rfl
  next c rest _ => exact exec_leaves (s := { s with pending := rest }) h c t hst

end Sys2Proof.Machine
end
